-- ==== Sys2Proof/Word.lean ====
section
/-! DEFINITION. The word types of the machine (spec/00_scope.md R5: little-endian, bit 0 the least significant). -/

namespace Sys2Proof

/-- A byte of memory. -/
abbrev Byte := BitVec 8

/-- A 64-bit datum: an instruction word, a clause header, an s register, a system register. -/
abbrev Word := BitVec 64

/-- A 32-bit register of a SIMT thread. -/
abbrev Half := BitVec 32

end Sys2Proof
end

