-- ==== Sys2Proof/Syntax.lean ====
section
/-! DEFINITION. The instructions of the machine as data (spec/16_isa_formats_assembly.md, spec/opcode_table.json).
Register fields, types, scopes and modifiers are names; an instruction's 64-bit word is read by Decode.lean. -/

namespace Sys2Proof

/-- A register field (R346): a numbered register (v on a SIMT core, s on the control core), a queue register, VZ,
LANE or SLOT. The reserved codes 0xF3 to 0xFF are no register field: the decoder refuses them. -/
inductive RegF where
  | gpr (n : Fin 224)
  | que (n : Fin 16)
  | vz
  | lane
  | slot
deriving DecidableEq, Repr

/-- A predicate code, p0 to p7 (R340, R346); as a PS field, 7 means no predicate (R185). -/
abbrev PredF := Fin 8

/-- A lace number, L0 to L11 (R204, R377). -/
abbrev LaceF := Fin 12

/-- The predicate that guards an instruction (R340): negate and select, where select 7 is always true. -/
structure Guard where
  neg : Bool
  sel : PredF
deriving DecidableEq, Repr

/-- A destination that is a register (PD = 0) or a predicate (PD = 1) (R366, R386). -/
inductive DestP where
  | reg (r : RegF)
  | pred (p : PredF)
deriving DecidableEq, Repr

/-- The six integer conditions (R366). -/
inductive ICond where
  | eq | ne | lt | le | gt | ge
deriving DecidableEq, Repr

/-- The eight float conditions (R384). -/
inductive FCond where
  | eq | ne | lt | le | gt | ge | num | nan
deriving DecidableEq, Repr

/-- How imm32 becomes an operand (R342). -/
inductive ImmX where
  | zext | sext | hi
deriving DecidableEq, Repr

/-- The sign modifiers of a float operand (R383): ABS is applied first, then NEG. -/
structure SMod where
  neg : Bool
  abs : Bool
deriving DecidableEq, Repr

/-- The sixteen memory types (R348). -/
inductive MemTy where
  | i8 | i16 | i32 | i64 | n8 | n16 | b32 | f32 | f16 | bf16 | e4m3 | e5m2 | e3m2 | e2m3 | e2m1 | s10
deriving DecidableEq, Repr

/-- The access order field (R245): relaxed (or plain), acquire, release, acquire and release. -/
inductive MOrd where
  | rlx | acq | rel | acqrel
deriving DecidableEq, Repr

/-- The four scopes an instruction may name (R244). -/
inductive Scope where
  | core | clu | dev | sys
deriving DecidableEq, Repr

/-- The address fields of the M format (R343). -/
structure MemF where
  base  : RegF
  index : RegF
  off   : BitVec 12
deriving DecidableEq, Repr

/-- The address fields of major 0x15 (R409): the index field names the source. -/
structure AtMemF where
  base : RegF
  src  : RegF
  off  : Byte
deriving DecidableEq, Repr

/-- The types of major 0x15 (R410). -/
inductive ATy where
  | i32 | i64 | b32 | f32 | f16x2 | bf16x2 | b128
deriving DecidableEq, Repr

/-- The operations of major 0x15 (R410). -/
inductive AOp where
  | add | min | max | minu | maxu | and | or | xor | exch | inc | dec | cas
deriving DecidableEq, Repr

/-- The access paths (R247, R418). -/
inductive Path where
  | ls | ac | bt | sh | mx | cl
deriving DecidableEq, Repr

/-- The float formats of CVT (R393). -/
inductive CvtT where
  | f64 | f32 | f16x2 | bf16x2 | e4m3x4 | e5m2x4
deriving DecidableEq, Repr

/-- The types of CVTI (R394). -/
inductive CviT where
  | i8 | i16 | i32 | i64 | n8 | n16 | n32 | n64 | f32 | f64
deriving DecidableEq, Repr

/-- The formats of PACK and UNPACK (R395). -/
inductive PackT where
  | f16 | bf16 | e4m3 | e5m2 | e3m2 | e2m3 | e2m1 | i8 | s10
deriving DecidableEq, Repr

/-- The formats of SCALEQ (R397). -/
inductive ScaleT where
  | e4m3 | e5m2 | e3m2 | e2m3 | e2m1
deriving DecidableEq, Repr

/-- The index operand of LNGET (R400): a register, or a literal byte (BI = 1). -/
inductive LnIdx where
  | reg (r : RegF)
  | lit (n : Byte)
deriving DecidableEq, Repr

/-- The modes of LNGET (R400). -/
inductive LnMode where
  | abs | rot | off | xor
deriving DecidableEq, Repr

/-- The modes of LNPOLL (R401). -/
inductive PollMode where
  | and | or | same | mask
deriving DecidableEq, Repr

/-- The operations of LNCOMB and LNPFX (R403). -/
inductive LnOp where
  | add | min | max | and | or | xor
deriving DecidableEq, Repr

/-- The types of LNCOMB and LNPFX (R403). -/
inductive LnTy where
  | i32 | n32 | f32
deriving DecidableEq, Repr

/-- The forms of SEND (R189): plain, .w, .t. -/
inductive SendMode where
  | plain | wait | test
deriving DecidableEq, Repr

/-- The two ends of a link as boot finds them (R32): the serial numbers of this end and of the partner, and the partner's port. -/
structure LinkEnds where
  own  : Nat
  peer : Nat
  port : Nat
deriving DecidableEq, Repr

/-- What the spec says travels with a Norano flit and R81 gives no place in it (log 30, log 31): a control message (its kind, a number,
modules); of a collective operation the COUNT and OFFSET of its sender's descriptor, whether its sender is the initiator of a put or get, the
weights of members, D, the flags, and the poisoned elements of the chunk. -/
structure FlitInfo where
  kind    : Nat
  num     : Nat
  set     : List Nat
  count   : Nat
  off     : Nat
  init    : Bool
  weights : List (Nat × Nat)
  div     : Nat
  flags   : Nat
  bad     : List Nat
deriving DecidableEq, Repr

/-- A flit as a port receives it: its 256 bytes and what travels with it. -/
structure RxFlit where
  bytes : List Byte
  x     : FlitInfo
deriving DecidableEq, Repr

/-- What a training of a Norano port reaches (R83, R85): the width, none if 0, and the module index of the partner (0x7FF for a switch). -/
structure PortTrained where
  width : Nat
  peer  : Nat
deriving DecidableEq, Repr

/-- How a CXL port comes up (R107, R118, R127): its STATE (1 training, 2 CXL, 3 PCIe only), its generation, and the ways (0: not programmed) and
base HPA of its HDM decoder. -/
structure CxlMode where
  st   : Nat
  gen  : Nat
  ways : Nat
  base : Nat
deriving DecidableEq, Repr

/-- What a cold boot finds (R27, R31, R32): the coolant inlet temperature in degrees, the units that fail the self-test as masks by die (clusters, slices,
channels, Norano lanes), the ends of the links by link number, which copies of the factory and the site part verify (A, B), the
failing symbols (channel, SID, position) and rows (channel, SID, bank, row) of the sampled memory self-test, and the time to the first
task. -/
structure BootIn where
  temp    : Int
  cluBad  : List Nat
  slcBad  : List Nat
  chnBad  : List Nat
  norBad  : List Nat
  ends    : List LinkEnds
  peers   : List Nat
  factory : Bool × Bool
  site    : Bool × Bool
  symBad  : List (Nat × Nat × Nat)
  rowBad  : List (Nat × Nat × Nat × Nat)
  ms      : Nat
deriving DecidableEq, Repr

/-- A host CXL.mem request of R111: its kind and physical address, and the bytes of a write. -/
inductive HostReq where
  | rd (pa : Nat)
  | inv (pa : Nat)
  | release (pa : Nat)
  | wr (pa : Nat) (b : List (Option Byte)) (grant poison : Bool)
deriving DecidableEq, Repr



/-- The ONE instruction type: one constructor per row of spec/opcode_table.json, those with arguments first.
Rows 113 to 299 are the instructions of spec/16 to 20, and `unassignedEncoding` is R353. The other rows are events of
the device and its surroundings: an event's arguments are what the outside supplies; an event without arguments takes
what it acts on from the state. -/
inductive Instr where
  /-- COLD_BOOT, R31. -/
  | coldBoot (b : BootIn)
  /-- RECOVERY_IMAGE_WRITE, R30. -/
  | recoveryImageWrite (slotB : Bool) (img : List Byte)
  /-- POWER_SAMPLE, R25. -/
  | powerSample (w : Nat)
  /-- TEMPERATURE_SAMPLE, R34. -/
  | temperatureSample (t : List Int)
  /-- CLUSTER_POWER_GATE, R24. -/
  | clusterPowerGate (k : Nat)
  /-- CLUSTER_WAKE, R24. -/
  | clusterWake (k : Nat)
  /-- L2_SLICE_POWER_DOWN, R24. -/
  | l2SlicePowerDown (die slice : Nat)
  /-- MEMORY_REQUEST, R44. -/
  | memoryRequest (pa : Nat) (wr : Option (List Byte)) (err : List (Nat × Byte))
  /-- PATROL_SCRUB, R45. -/
  | patrolScrub (pa : Nat) (err : List (Nat × Byte))
  /-- PAGE_RETIRE, R56. -/
  | pageRetire (frame cause : Nat)
  /-- CHANNEL_DISABLE_START, R58. -/
  | channelDisableStart (ch : Nat)
  /-- FLIT_REPLAY, R62. -/
  | flitReplay (k : Nat)
  /-- DIE_LINK_DOWN, R62. -/
  | dieLinkDown (k : Nat)
  /-- DIE_LINK_RETRAIN_DONE, R62. -/
  | dieLinkRetrainDone (k : Nat) (ok : Bool)
  /-- DIE_LOST, R76. -/
  | dieLost (d : Nat)
  /-- DIE_RESET, R67. -/
  | dieReset (bad : List Nat)
  /-- DIE_RETRAIN, R68. -/
  | dieRetrain (bad : List Nat)
  /-- NORANO_FLIT_RECEIVE, R83. -/
  | noranoFlitReceive (p : Nat) (f : RxFlit)
  /-- NORANO_PORT_DOWN, R83. -/
  | noranoPortDown (p : Nat)
  /-- NORANO_PORT_RETRAIN, R83. -/
  | noranoPortRetrain (p : Nat) (w : PortTrained)
  /-- SUSPECT_NOTICE, R97. -/
  | suspectNotice (m : Nat) (sus : List Nat)
  /-- LEAVE_NOTICE, R98. -/
  | leaveNotice (m : Nat)
  /-- VIEW_PROPOSAL, R99. -/
  | viewProposal (m num : Nat) (set : List Nat)
  /-- PROPOSAL_ACK, R99. -/
  | proposalAck (m num : Nat) (fixed : List Nat)
  /-- VIEW_COMMIT, R100. -/
  | viewCommit (m num : Nat) (set fixed : List Nat)
  /-- ADMISSION_REQUEST, R103. -/
  | admissionRequest (m len : Nat)
  /-- HOST_MEMRD, R111. -/
  | hostMemrd (pa : Nat)
  /-- HOST_MEMINV, R111. -/
  | hostMeminv (pa : Nat)
  /-- HOST_MEMINV_RELEASE, R111. -/
  | hostMeminvRelease (pa : Nat)
  /-- HOST_MEMWR, R111. -/
  | hostMemwr (pa : Nat) (b : List (Option Byte)) (grant poison : Bool)
  /-- BIRSP, R112. -/
  | birsp (line : Nat)
  /-- BICONFLICT, R113. -/
  | biconflict (line : Nat) (held : HostReq)
  /-- D2H_GO, R120. -/
  | d2hGo (half st : Nat) (b : List Byte) (poison : Bool)
  /-- SNPINV, R121. -/
  | snpinv (half : Nat)
  /-- SNPDATA, R121. -/
  | snpdata (half : Nat)
  /-- SNPCUR, R121. -/
  | snpcur (half : Nat)
  /-- CXL_PORT_DOWN, R127. -/
  | cxlPortDown (p : Nat)
  /-- WINDOW_DMWR, R134. -/
  | windowDmwr (page off : Nat) (b : List Byte)
  /-- WINDOW_BAD_WRITE, R134. -/
  | windowBadWrite (page off : Nat)
  /-- ENQUEUE_PORT_TRIGGER, R135. -/
  | enqueuePortTrigger (core : Nat) (st : List (Nat × Byte)) (v : Word)
  /-- ENQUEUE_PORT_RESULT, R135. -/
  | enqueuePortResult (core : Nat)
  /-- FUNCTION_LEVEL_RESET, R138. -/
  | functionLevelReset (f : Nat)
  /-- ATTESTATION_REQUEST, R141. -/
  | attestationRequest (f : Nat) (nonce : List Byte)
  /-- SYSREG_WINDOW_ACCESS, R140. -/
  | sysregWindowAccess (page reg : Nat) (wr : Option Word)
  /-- WINDOW_ERROR_READ, R140. -/
  | windowErrorRead (page : Nat)
  /-- READY_POP, R155. -/
  | readyPop (die : Nat)
  /-- BIND_SUBMIT, R157. -/
  | bindSubmit (die : Nat) (w w1 : Word)
  /-- CBIND_SUBMIT, R301. -/
  | cbindSubmit (die : Nat) (w w1 : Word)
  /-- BINDRES_READ, R157. -/
  | bindresRead (die : Nat)
  /-- SPLIT_SET, R218. -/
  | splitSet (die ix : Nat) (v : Word)
  /-- CONTEXT_FILL, R162. -/
  | contextFill (die : Nat) (w area : Word)
  /-- CONTEXT_SWAP, R165. -/
  | contextSwap (die : Nat) (w area : Word)
  /-- IADD, R361. -/
  | iadd (g : Guard) (d a b : RegF) (u sat : Bool)
  /-- ISUB, R361. -/
  | isub (g : Guard) (d a b : RegF) (u sat : Bool)
  /-- IMUL, R361. -/
  | imul (g : Guard) (d a b : RegF)
  /-- IMULH, R361. -/
  | imulh (g : Guard) (d a b : RegF) (u : Bool)
  /-- IMAD, R361. -/
  | imad (g : Guard) (d a b c : RegF) (u sat : Bool)
  /-- IMADW, R361. -/
  | imadw (g : Guard) (d a b c : RegF) (u : Bool)
  /-- IDIV, R362. -/
  | idiv (g : Guard) (la : BitVec 4) (d a b : RegF) (u : Bool)
  /-- IREM, R362. -/
  | irem (g : Guard) (la : BitVec 4) (d a b : RegF) (u : Bool)
  /-- IMIN, R361. -/
  | imin (g : Guard) (d a b : RegF) (u : Bool)
  /-- IMAX, R361. -/
  | imax (g : Guard) (d a b : RegF) (u : Bool)
  /-- IABS, R362. -/
  | iabs (g : Guard) (d a : RegF) (sat : Bool)
  /-- LEA, R363. -/
  | lea (g : Guard) (d a b : RegF) (s : Fin 8) (u : Bool)
  /-- AND, R364. -/
  | and (g : Guard) (d a b : RegF)
  /-- OR, R364. -/
  | or (g : Guard) (d a b : RegF)
  /-- XOR, R364. -/
  | xor (g : Guard) (d a b : RegF)
  /-- ANDN, R364. -/
  | andn (g : Guard) (d a b : RegF)
  /-- SHL, R364. -/
  | shl (g : Guard) (d a b : RegF)
  /-- SHR, R364. -/
  | shr (g : Guard) (d a b : RegF)
  /-- SAR, R364. -/
  | sar (g : Guard) (d a b : RegF)
  /-- ROTR, R364. -/
  | rotr (g : Guard) (d a b : RegF)
  /-- BFX, R365. -/
  | bfx (g : Guard) (d a b : RegF) (u : Bool)
  /-- BFI, R365. -/
  | bfi (g : Guard) (d a b c : RegF)
  /-- POPC, R364. -/
  | popc (g : Guard) (d a : RegF)
  /-- CLZ, R364. -/
  | clz (g : Guard) (d a : RegF)
  /-- CTZ, R364. -/
  | ctz (g : Guard) (d a : RegF)
  /-- BREV, R364. -/
  | brev (g : Guard) (d a : RegF)
  /-- PERM, R365. -/
  | perm (g : Guard) (d a b c : RegF)
  /-- ISET, R366. -/
  | iset (g : Guard) (d : DestP) (a b : RegF) (cond : ICond) (wide u : Bool)
  /-- ISEL, R367. -/
  | isel (g : Guard) (d a b : RegF) (p : PredF) (neg : Bool)
  /-- IADD64, R368. -/
  | iadd64 (g : Guard) (d a b : RegF)
  /-- ISUB64, R368. -/
  | isub64 (g : Guard) (d a b : RegF)
  /-- ISET64, R366. -/
  | iset64 (g : Guard) (d : DestP) (a b : RegF) (cond : ICond) (u : Bool)
  /-- SHL64, R368. -/
  | shl64 (g : Guard) (d a b : RegF)
  /-- SHR64, R368. -/
  | shr64 (g : Guard) (d a b : RegF)
  /-- SAR64, R368. -/
  | sar64 (g : Guard) (d a b : RegF)
  /-- IMUL64, R368. -/
  | imul64 (g : Guard) (d a b : RegF)
  /-- MOV, R369. -/
  | mov (g : Guard) (d a : RegF) (w : Bool)
  /-- MOVI, R369. -/
  | movi (g : Guard) (d : RegF) (x : ImmX) (imm : Half)
  /-- IADD_IMM, R370. -/
  | iaddImm (g : Guard) (d a : RegF) (x : ImmX) (imm : Half)
  /-- ISUB_IMM, R370. -/
  | isubImm (g : Guard) (d a : RegF) (x : ImmX) (imm : Half)
  /-- IMUL_IMM, R370. -/
  | imulImm (g : Guard) (d a : RegF) (x : ImmX) (imm : Half)
  /-- AND_IMM, R370. -/
  | andImm (g : Guard) (d a : RegF) (x : ImmX) (imm : Half)
  /-- OR_IMM, R370. -/
  | orImm (g : Guard) (d a : RegF) (x : ImmX) (imm : Half)
  /-- XOR_IMM, R370. -/
  | xorImm (g : Guard) (d a : RegF) (x : ImmX) (imm : Half)
  /-- ANDN_IMM, R370. -/
  | andnImm (g : Guard) (d a : RegF) (x : ImmX) (imm : Half)
  /-- SHL_IMM, R370. -/
  | shlImm (g : Guard) (d a : RegF) (x : ImmX) (imm : Half)
  /-- SHR_IMM, R370. -/
  | shrImm (g : Guard) (d a : RegF) (x : ImmX) (imm : Half)
  /-- SAR_IMM, R370. -/
  | sarImm (g : Guard) (d a : RegF) (x : ImmX) (imm : Half)
  /-- ROTR_IMM, R370. -/
  | rotrImm (g : Guard) (d a : RegF) (x : ImmX) (imm : Half)
  /-- IMIN_IMM, R370. -/
  | iminImm (g : Guard) (d a : RegF) (x : ImmX) (imm : Half)
  /-- IMAX_IMM, R370. -/
  | imaxImm (g : Guard) (d a : RegF) (x : ImmX) (imm : Half)
  /-- PLOG, R371. -/
  | plog (g : Guard) (d a b c : PredF) (lut : Byte)
  /-- PMOV_GET, R372. -/
  | pmovGet (g : Guard) (d : RegF)
  /-- PMOV_SET, R372. -/
  | pmovSet (g : Guard) (a : RegF) (mask : BitVec 7)
  /-- FADD, R385. -/
  | fadd (g : Guard) (d a b : RegF) (ma mb : SMod)
  /-- FMUL, R385. -/
  | fmul (g : Guard) (d a b : RegF) (ma mb : SMod)
  /-- FFMA, R385. -/
  | ffma (g : Guard) (d a b c : RegF) (ma mb mc : SMod)
  /-- FMIN, R384. -/
  | fmin (g : Guard) (d a b : RegF) (ma mb : SMod)
  /-- FMAX, R384. -/
  | fmax (g : Guard) (d a b : RegF) (ma mb : SMod)
  /-- FSET, R386. -/
  | fset (g : Guard) (d : DestP) (a b : RegF) (ma mb : SMod) (cond : FCond)
  /-- FCLASS, R387. -/
  | fclass (g : Guard) (d a : RegF)
  /-- FRCP, R388. -/
  | frcp (g : Guard) (la : BitVec 4) (d a : RegF) (ma : SMod)
  /-- FRSQ, R388. -/
  | frsq (g : Guard) (la : BitVec 4) (d a : RegF) (ma : SMod)
  /-- FSQRT, R388. -/
  | fsqrt (g : Guard) (la : BitVec 4) (d a : RegF) (ma : SMod)
  /-- FEX2, R388. -/
  | fex2 (g : Guard) (la : BitVec 4) (d a : RegF) (ma : SMod)
  /-- FLG2, R388. -/
  | flg2 (g : Guard) (la : BitVec 4) (d a : RegF) (ma : SMod)
  /-- FSIN, R388. -/
  | fsin (g : Guard) (la : BitVec 4) (d a : RegF) (ma : SMod)
  /-- FCOS, R388. -/
  | fcos (g : Guard) (la : BitVec 4) (d a : RegF) (ma : SMod)
  /-- FTANH, R388. -/
  | ftanh (g : Guard) (la : BitVec 4) (d a : RegF) (ma : SMod)
  /-- F2ADD, R390. -/
  | f2add (g : Guard) (d a b : RegF) (ma mb : SMod) (bf : Bool)
  /-- F2MUL, R390. -/
  | f2mul (g : Guard) (d a b : RegF) (ma mb : SMod) (bf : Bool)
  /-- F2FMA, R390. -/
  | f2fma (g : Guard) (d a b c : RegF) (ma mb mc : SMod) (bf : Bool)
  /-- F2MIN, R390. -/
  | f2min (g : Guard) (d a b : RegF) (ma mb : SMod) (bf : Bool)
  /-- F2MAX, R390. -/
  | f2max (g : Guard) (d a b : RegF) (ma mb : SMod) (bf : Bool)
  /-- F2SET, R390. -/
  | f2set (g : Guard) (d : DestP) (a b : RegF) (ma mb : SMod) (cond : FCond) (bf : Bool)
  /-- HDOT, R391. -/
  | hdot (g : Guard) (d a b c : RegF) (ea eb : Bool)
  /-- DADD, R392. -/
  | dadd (g : Guard) (la : BitVec 4) (d a b : RegF) (ma mb : SMod)
  /-- DMUL, R392. -/
  | dmul (g : Guard) (la : BitVec 4) (d a b : RegF) (ma mb : SMod)
  /-- DFMA, R392. -/
  | dfma (g : Guard) (la : BitVec 4) (d a b c : RegF) (ma mb mc : SMod)
  /-- DSET, R392. -/
  | dset (g : Guard) (d : DestP) (a b : RegF) (ma mb : SMod) (cond : FCond)
  /-- CVT, R393. -/
  | cvt (g : Guard) (d a : RegF) (dst src : CvtT)
  /-- CVTI, R394. -/
  | cvti (g : Guard) (d a : RegF) (dst src : CviT) (rz : Bool)
  /-- PACK, R395. -/
  | pack (g : Guard) (d a b c : RegF) (fmt : PackT) (k : Fin 8) (one : Bool)
  /-- UNPACK, R396. -/
  | unpack (g : Guard) (d a : RegF) (fmt : PackT) (k : Fin 8)
  /-- SCALEQ, R397. -/
  | scaleq (g : Guard) (d a c : RegF) (fmt : ScaleT) (k : Fin 4)
  /-- TAGSET, R398. -/
  | tagset (g : Guard) (d a : RegF) (t : Fin 16) (pair : Bool)
  /-- TAGGET, R398. -/
  | tagget (g : Guard) (d a : RegF)
  /-- LNGET, R400. -/
  | lnget (g : Guard) (d a : RegF) (b : LnIdx) (mode : LnMode) (sw : Fin 8) (w64 : Bool) (k : LaceF) (bk pf : PredF)
  /-- LNPOLL, R401. -/
  | lnpoll (g : Guard) (d : DestP) (a : PredF) (neg cnt : Bool) (mode : PollMode) (k : LaceF) (bk pf : PredF)
  /-- LNEQ, R402. -/
  | lneq (g : Guard) (d a : RegF) (uni w64 : Bool) (k : LaceF) (bk pf : PredF)
  /-- LNCOMB, R403. -/
  | lncomb (g : Guard) (d a : RegF) (op : LnOp) (ty : LnTy) (k : LaceF) (bk pf : PredF)
  /-- LNPFX, R403. -/
  | lnpfx (g : Guard) (d a : RegF) (op : LnOp) (ty : LnTy) (excl : Bool) (k : LaceF) (bk pf : PredF)
  /-- BRA, R374. -/
  | bra (g : Guard) (off : Half) (lace : Option LaceF)
  /-- BRX, R374. -/
  | brx (g : Guard) (a : RegF) (lace : Option LaceF)
  /-- CALL, R374. -/
  | call (g : Guard) (off : Half) (lace : Option LaceF)
  /-- CALLX, R374. -/
  | callx (g : Guard) (a : RegF) (lace : Option LaceF)
  /-- RET, R375. -/
  | ret (g : Guard)
  /-- EXIT, R376. -/
  | exit (g : Guard)
  /-- JOIN, R205. -/
  | join (g : Guard) (k : LaceF)
  /-- LEAVE, R205. -/
  | leave (g : Guard) (k : LaceF)
  /-- WAITM, R206. -/
  | waitm (g : Guard) (k : LaceF) (bk : PredF)
  /-- LACESET, R208. -/
  | laceset (g : Guard) (k : LaceF) (a : RegF)
  /-- LACEGET, R208. -/
  | laceget (g : Guard) (d : RegF) (k : LaceF)
  /-- YIELD, R379. -/
  | yield (g : Guard)
  /-- NOP, R379. -/
  | nop (g : Guard)
  /-- BRK, R380. -/
  | brk (g : Guard) (code : BitVec 14)
  /-- TRAP, R381. -/
  | trap (g : Guard) (code : BitVec 14)
  /-- SVC, R382. -/
  | svc (g : Guard) (code : BitVec 14)
  /-- LD, R405. -/
  | ld (g : Guard) (la : BitVec 4) (d : RegF) (m : MemF) (ty : MemTy) (ord : MOrd) (sc : Scope) (na : Bool)
  /-- ST, R406. -/
  | st (g : Guard) (d : RegF) (m : MemF) (ty : MemTy) (ord : MOrd) (sc : Scope) (na : Bool)
  /-- LDS, R407. -/
  | lds (g : Guard) (la : BitVec 4) (d : RegF) (m : MemF) (ty : MemTy)
  /-- STS, R407. -/
  | sts (g : Guard) (d : RegF) (m : MemF) (ty : MemTy)
  /-- LDK, R408. -/
  | ldk (g : Guard) (la : BitVec 4) (d index : RegF) (off : BitVec 12) (ty : MemTy)
  /-- ATOM, R411. -/
  | atom (g : Guard) (la : BitVec 4) (d : RegF) (m : AtMemF) (op : AOp) (ty : ATy) (ord : MOrd) (sc : Scope)
  /-- ATOMS, R411. -/
  | atoms (g : Guard) (la : BitVec 4) (d : RegF) (m : AtMemF) (op : AOp) (ty : ATy)
  /-- RED, R411. -/
  | red (g : Guard) (m : AtMemF) (op : AOp) (ty : ATy) (ord : MOrd) (sc : Scope)
  /-- CAS, R412. -/
  | cas (g : Guard) (la : BitVec 4) (d : RegF) (m : AtMemF) (ty : ATy) (ord : MOrd) (sc : Scope)
  /-- PREF, R414. -/
  | pref (g : Guard) (m : MemF) (ty : MemTy) (ep : Fin 4) (l2only : Bool)
  /-- DISCARD, R415. -/
  | discard (g : Guard) (m : MemF) (d : RegF)
  /-- CLEAN, R416. -/
  | clean (g : Guard) (m : MemF) (d : RegF)
  /-- PUBLISH, R417. -/
  | publish (g : Guard) (sc : Scope)
  /-- REFRESH, R417. -/
  | refresh (g : Guard) (sc : Scope)
  /-- XFENCE, R418. -/
  | xfence (g : Guard) (p1 p2 : Path)
  /-- FENCE, R417. -/
  | fence (g : Guard) (sc : Scope)
  /-- LINEARM, R419. -/
  | linearm (g : Guard) (m : MemF) (ty : MemTy) (sc : Scope)
  /-- LINEWAIT, R421. -/
  | linewait (g : Guard) (d a : RegF)
  /-- ACPY, R253. -/
  | acpy (g : Guard) (la : BitVec 4) (d a b c : RegF) (tag : Fin 3) (sz : Fin 4)
  /-- ACWAIT, R259. -/
  | acwait (g : Guard) (a : RegF) (tag : Fin 3)
  /-- CHSTART, R264. -/
  | chstart (g : Guard) (a b c : RegF)
  /-- CHSTAT, R269. -/
  | chstat (g : Guard) (d a : RegF)
  /-- CHABORT, R271. -/
  | chabort (g : Guard) (a : RegF)
  /-- SHFGO, R275. -/
  | shfgo (g : Guard) (d a : RegF)
  /-- SHFWAIT, R276. -/
  | shfwait (g : Guard) (d a : RegF)
  /-- BARINIT, R178. -/
  | barinit (g : Guard) (n : Fin 32) (a : RegF) (bk : PredF)
  /-- BARINIT_FREE, R178. -/
  | barinitFree (g : Guard) (n : Fin 32) (bk : PredF)
  /-- ARRIVE, R179. -/
  | arrive (g : Guard) (d : RegF) (n : Fin 32) (bk : PredF)
  /-- ARRDROP, R179. -/
  | arrdrop (g : Guard) (d : RegF) (n : Fin 32) (bk : PredF)
  /-- BWAIT, R180. -/
  | bwait (g : Guard) (p : PredF) (a : RegF) (bk : PredF)
  /-- BPWAIT, R180. -/
  | bpwait (g : Guard) (n : Fin 32) (q : Bool) (bk : PredF)
  /-- BSYNC, R180. -/
  | bsync (g : Guard) (n : Fin 32) (bk : PredF)
  /-- FGET, R182. -/
  | fget (g : Guard) (d a : RegF) (sc : Scope) (bk : PredF)
  /-- FPUT, R182. -/
  | fput (g : Guard) (a b : RegF) (sc : Scope) (bk : PredF)
  /-- FCLAIM, R182. -/
  | fclaim (g : Guard) (p : PredF) (a : RegF) (sc : Scope) (bk : PredF)
  /-- SEND, R169. -/
  | send (g : Guard) (mode : SendMode) (p : PredF) (a b : RegF) (bk : PredF)
  /-- PORTCFG_OPEN, R168. -/
  | portcfgOpen (g : Guard) (d a : RegF) (bk : PredF)
  /-- PORTCFG_REG, R168. -/
  | portcfgReg (g : Guard) (a : RegF) (bk : PredF)
  /-- PORTCFG_CLOSE, R168. -/
  | portcfgClose (g : Guard) (a : RegF) (bk : PredF)
  /-- PATSET, R172. -/
  | patset (g : Guard) (a b : RegF) (bk : PredF)
  /-- PATSET_TMPL, R173. -/
  | patsetTmpl (g : Guard) (a b : RegF) (bk : PredF)
  /-- PATARM_ON, R174. -/
  | patarmOn (g : Guard) (a : RegF) (bk : PredF)
  /-- PATARM_OFF, R174. -/
  | patarmOff (g : Guard) (a : RegF) (bk : PredF)
  /-- BREAKOBJ, R187. -/
  | breakobj (g : Guard) (k : Fin 5) (a : RegF) (bk : PredF)
  /-- OBJSTAT, R188. -/
  | objstat (g : Guard) (k : Fin 5) (d a : RegF) (bk : PredF)
  /-- QBIND, R425. -/
  | qbind (g : Guard) (q a : RegF) (ep : Fin 5)
  /-- QUNBIND, R426. -/
  | qunbind (g : Guard) (q : RegF)
  /-- QSTAT, R427. -/
  | qstat (g : Guard) (d q : RegF)
  /-- QTRY, R428. -/
  | qtry (g : Guard) (d q : RegF) (p bk : PredF)
  /-- TASKQ, R429. -/
  | taskq (g : Guard) (d a b : RegF)
  /-- DEPDEC, R432. -/
  | depdec (g : Guard) (a : RegF) (bk : PredF)
  /-- DEPNEW, R431. -/
  | depnew (g : Guard) (d a b : RegF)
  /-- DEPFREE, R432. -/
  | depfree (g : Guard) (a : RegF)
  /-- MXA, R306. -/
  | mxa (g : Guard) (a b : RegF) (fmt : Fin 7) (sp : Bool)
  /-- MXB, R306. -/
  | mxb (g : Guard) (a b : RegF) (fmt : Fin 7)
  /-- MXSCALE, R308. -/
  | mxscale (g : Guard) (a b : RegF) (mode : Fin 3)
  /-- MXSPARSE, R307. -/
  | mxsparse (g : Guard) (a b : RegF)
  /-- MXZERO, R311. -/
  | mxzero (g : Guard) (t : Fin 4)
  /-- MXLOAD, R311. -/
  | mxload (g : Guard) (t : Fin 4) (a b c : RegF) (fmt : Fin 3)
  /-- MXMMA, R309. -/
  | mxmma (g : Guard) (t : Fin 4) (b c : RegF) (p : Fin 6)
  /-- MXSTORE, R312. -/
  | mxstore (g : Guard) (t : Fin 4) (a b c : RegF) (fmt : Fin 5)
  /-- MXDRAIN, R313. -/
  | mxdrain (g : Guard) (t : Fin 4) (q : RegF)
  /-- MXWAIT, R305. -/
  | mxwait (g : Guard)
  /-- COLL, R89. -/
  | coll (g : Guard) (d a : RegF)
  /-- CWAIT, R435. -/
  | cwait (g : Guard) (d a : RegF)
  /-- CSTAT, R435. -/
  | cstat (g : Guard) (d a : RegF)
  /-- VIEWRD, R436. -/
  | viewrd (g : Guard) (d a : RegF)
  /-- STEPSET, R437. -/
  | stepset (g : Guard) (a b c : RegF)
  /-- REJOIN, R438. -/
  | rejoin (g : Guard) (d a b : RegF)
  /-- CTOPEN, R439. -/
  | ctopen (g : Guard) (a : RegF)
  /-- CTCLOSE, R325. -/
  | ctclose (g : Guard)
  /-- ASSAYSIG, R440. -/
  | assaysig (g : Guard) (d : RegF) (sel : Bool)
  /-- SRD, R442. -/
  | srd (g : Guard) (d : RegF) (n : BitVec 16) (w : Bool)
  /-- SWR, R442. -/
  | swr (g : Guard) (n : BitVec 16) (a : RegF) (w : Bool)
  /-- TRET, R445. -/
  | tret (g : Guard)
  /-- FRESUME, R233. -/
  | fresume (g : Guard)
  /-- HALT, R446. -/
  | halt (g : Guard)
  /-- TLBINV, R447. -/
  | tlbinv (g : Guard) (a d : RegF) (m : Fin 4)
  /-- TRACEMK, R446. -/
  | tracemk (g : Guard) (a : RegF) (w : Bool)
  /-- REGISTER_FILE_ERROR, R290. -/
  | registerFileError (u : Nat) (rs : List Nat)
  /-- CXL_PORT_UP, R127. -/
  | cxlPortUp (p width : Nat) (gen : CxlMode)
  /-- CLUSTER_CLOCK_GATE, R24. -/
  | clusterClockGate (k : Nat)
  /-- UNASSIGNED_ENCODING, R353. -/
  | unassignedEncoding (w : Word)
  /-- POWER_LOSS, R23. -/
  | powerLoss
  /-- POWER_APPLIED, R23. -/
  | powerApplied
  /-- COLD_RESET_REQUEST, R23. -/
  | coldResetRequest
  /-- SHUTDOWN_REQUEST, R23. -/
  | shutdownRequest
  /-- SHUTDOWN_DRAINED, R23. -/
  | shutdownDrained
  /-- CONFIG_SAVE, R27. -/
  | configSave
  /-- THERMAL_THROTTLE, R26. -/
  | thermalThrottle
  /-- THERMAL_SHUTDOWN, R26. -/
  | thermalShutdown
  /-- WEAR_COUNTER_SAVE, R33. -/
  | wearCounterSave
  /-- REPAIR_START, R47. -/
  | repairStart
  /-- REPAIR_COMPLETE, R49. -/
  | repairComplete
  /-- CHANNEL_DRAIN_END, R58. -/
  | channelDrainEnd
  /-- L1_MISS_REQUEST, R61. -/
  | l1MissRequest
  /-- HOME_SLICE_ACCESS, R228. -/
  | homeSliceAccess
  /-- QUIESCE, R64. -/
  | quiesce
  /-- DIE_CLEAN, R66. -/
  | dieClean
  /-- SELFREF, R64. -/
  | selfref
  /-- ADMIT, R69. -/
  | admitDie
  /-- HOME_MAP_WRITE, R65. -/
  | homeMapWrite
  /-- PARK_WINDOW_EXPIRY, R72. -/
  | parkWindowExpiry
  /-- HELD_PUBLICATION_EXPIRY, R73. -/
  | heldPublicationExpiry
  /-- DATA_FLIT_RECEIVE, R91. -/
  | dataFlitReceive
  /-- HEARTBEAT_SEND, R97. -/
  | heartbeatSend
  /-- SUSPICION_TIMEOUT, R97. -/
  | suspicionTimeout
  /-- AGREEMENT_TIMEOUT, R99. -/
  | agreementTimeout
  /-- VIEW_FORMATION, R104. -/
  | viewFormation
  /-- REJOIN_COPY_DONE, R103. -/
  | rejoinCopyDone
  /-- HOST_MEMSPECRD, R111. -/
  | hostMemspecrd
  /-- BISNP_TIMEOUT, R112. -/
  | bisnpTimeout
  /-- INVFRAME, R117. -/
  | invframe
  /-- RELOAD, R117. -/
  | reload
  /-- WINDOW_MEMORY_READ, R134. -/
  | windowMemoryRead
  /-- QUEUE_ENABLE, R131. -/
  | queueEnable
  /-- QUEUE_DISABLE, R132. -/
  | queueDisable
  /-- QUEUE_CANCEL, R132. -/
  | queueCancel
  /-- SCHEDULE_POLICY_REREAD, R158. -/
  | schedulePolicyReread
  /-- SPILL_COMPLETE, R164. -/
  | spillComplete
  /-- FILL_COMPLETE, R164. -/
  | fillComplete
  /-- PORT_UNIT_EVENT, R170. -/
  | portUnitEvent
  /-- POLL_RECHECK, R184. -/
  | pollRecheck
  /-- ISSUE_GROUP_FORM, R197. -/
  | issueGroupForm
  /-- FAULT_RESUME, R237. -/
  | faultResume
  /-- FAULT_RESUME_ASID, R237. -/
  | faultResumeAsid
  /-- FAULT_FAIL, R237. -/
  | faultFail
  /-- RING_ENABLE, R450. -/
  | ringEnable
  /-- RING_TAIL_WRITE, R452. -/
  | ringTailWrite
  /-- ACPY_COMPLETE, R254. -/
  | acpyComplete
  /-- CHANNEL_RECORD, R265. -/
  | channelRecord
  /-- LINEWAIT_TIMEOUT, R421. -/
  | linewaitTimeout
  /-- SHUFFLE_COMMAND, R274. -/
  | shuffleCommand
  /-- MATRIX_ENGINE_COMMAND, R304. -/
  | matrixEngineCommand
  /-- ASSAY_VERDICT, R323. -/
  | assayVerdict
  /-- CONTAINMENT_UNWIND, R326. -/
  | containmentUnwind
  /-- DEBUG_STOP, R329. -/
  | debugStop
  /-- DEBUG_STEP, R330. -/
  | debugStep
  /-- DEBUG_RUN, R329. -/
  | debugRun
  /-- DEBUG_RUN_CREW, R329. -/
  | debugRunCrew
  /-- DEBUG_STOP_CREW, R329. -/
  | debugStopCrew
  /-- DEBUG_EVENT_POP, R331. -/
  | debugEventPop
  /-- DBGDATA_ACCESS, R328. -/
  | dbgdataAccess
  /-- TOPDOWN_SNAP, R335. -/
  | topdownSnap
  /-- VIEW_FORMATION_TIMEOUT, R104. -/
  | viewFormationTimeout
  /-- REPLY_ARRIVAL, R61. -/
  | replyArrival
deriving DecidableEq, Repr

end Sys2Proof
end

