-- ==== Sys2Proof/WellFormed.lean ====
section
/-! DEFINITION. Which instruction terms have an encoding: the combinations of fields that R351 step 1 refuses with an
illegal-instruction trap whatever core executes them. What depends on the core or on the place in the clause is in
Machine/Ops.lean (`encodingOk`). -/

namespace Sys2Proof

/-- Why a word is no instruction, or a term no well-formed one (R351 step 1). -/
inductive DecodeError where
  /-- bits 53:50 hold a negated p7 (R340) -/
  | negatedP7
  /-- a register field holds 0xF3 to 0xFF (R346) -/
  | reservedRegister
  /-- a predicate field holds a code above 7 (R346) -/
  | badPredicate
  /-- a field the form does not use is not 0xF0 or 0 (R341), LA of a short-latency instruction among them (R349) -/
  | unusedField
  /-- a reserved modifier, type or operation code, or a reserved combination (R341, R351) -/
  | reservedModifier
  /-- a lace field of 12 to 14, or 0 to 11 on RET or EXIT, or a lace number above 11 (R209, R377) -/
  | badLace
  /-- a reserved order or scope code (R244, R245) -/
  | orderScope
  /-- a major or minor that the map does not assign (R353) -/
  | unassigned
  /-- a term for an unassigned encoding whose word the map assigns -/
  | assignedWord
deriving DecidableEq, Repr

/-- The number of elements of a PACK format (R395). -/
def PackT.count : PackT → Nat
  | .f16 | .bf16 => 2
  | .e4m3 | .e5m2 | .i8 => 4
  | .e3m2 | .e2m3 => 5
  | .e2m1 => 8
  | .s10 => 3

/-- Which operations of major 0x15 take which types (R410). -/
def AOp.takes : AOp → ATy → Bool
  | .add, t | .min, t | .max, t => t != .b32 && t != .b128
  | .minu, t | .maxu, t | .inc, t | .dec, t => t == .i32 || t == .i64
  | .and, t | .or, t | .xor, t => t == .i32 || t == .i64 || t == .b32
  | .exch, t => t != .f16x2 && t != .bf16x2
  | .cas, t => t == .i32 || t == .i64 || t == .b32 || t == .b128

/-- The pairs (dst, src) of CVT (R393). -/
def CvtT.pairOk : CvtT → CvtT → Bool
  | .f32, .f64 | .f64, .f32 | .bf16x2, .f16x2 | .f16x2, .bf16x2 | .e5m2x4, .e4m3x4 | .e4m3x4, .e5m2x4 => true
  | _, _ => false

/-- A float type of CVTI (R394). -/
def CviT.isFloat : CviT → Bool
  | .f32 | .f64 => true
  | _ => false

/-- An 8- or 16-bit type of CVTI, never a source (R394). -/
def CviT.isNarrow : CviT → Bool
  | .i8 | .i16 | .n8 | .n16 => true
  | _ => false

/-- The guard of an instruction; device events and unassigned words have none. -/
def Instr.guard? : Instr → Option Guard
  | .iadd g _ _ _ _ _
  | .isub g _ _ _ _ _
  | .imul g _ _ _
  | .imulh g _ _ _ _
  | .imad g _ _ _ _ _ _
  | .imadw g _ _ _ _ _
  | .idiv g _ _ _ _ _
  | .irem g _ _ _ _ _
  | .imin g _ _ _ _
  | .imax g _ _ _ _
  | .iabs g _ _ _
  | .lea g _ _ _ _ _
  | .and g _ _ _
  | .or g _ _ _
  | .xor g _ _ _
  | .andn g _ _ _
  | .shl g _ _ _
  | .shr g _ _ _
  | .sar g _ _ _
  | .rotr g _ _ _
  | .bfx g _ _ _ _
  | .bfi g _ _ _ _
  | .popc g _ _
  | .clz g _ _
  | .ctz g _ _
  | .brev g _ _
  | .perm g _ _ _ _
  | .iset g _ _ _ _ _ _
  | .isel g _ _ _ _ _
  | .iadd64 g _ _ _
  | .isub64 g _ _ _
  | .iset64 g _ _ _ _ _
  | .shl64 g _ _ _
  | .shr64 g _ _ _
  | .sar64 g _ _ _
  | .imul64 g _ _ _
  | .mov g _ _ _
  | .movi g _ _ _
  | .iaddImm g _ _ _ _
  | .isubImm g _ _ _ _
  | .imulImm g _ _ _ _
  | .andImm g _ _ _ _
  | .orImm g _ _ _ _
  | .xorImm g _ _ _ _
  | .andnImm g _ _ _ _
  | .shlImm g _ _ _ _
  | .shrImm g _ _ _ _
  | .sarImm g _ _ _ _
  | .rotrImm g _ _ _ _
  | .iminImm g _ _ _ _
  | .imaxImm g _ _ _ _
  | .plog g _ _ _ _ _
  | .pmovGet g _
  | .pmovSet g _ _
  | .fadd g _ _ _ _ _
  | .fmul g _ _ _ _ _
  | .ffma g _ _ _ _ _ _ _
  | .fmin g _ _ _ _ _
  | .fmax g _ _ _ _ _
  | .fset g _ _ _ _ _ _
  | .fclass g _ _
  | .frcp g _ _ _ _
  | .frsq g _ _ _ _
  | .fsqrt g _ _ _ _
  | .fex2 g _ _ _ _
  | .flg2 g _ _ _ _
  | .fsin g _ _ _ _
  | .fcos g _ _ _ _
  | .ftanh g _ _ _ _
  | .f2add g _ _ _ _ _ _
  | .f2mul g _ _ _ _ _ _
  | .f2fma g _ _ _ _ _ _ _ _
  | .f2min g _ _ _ _ _ _
  | .f2max g _ _ _ _ _ _
  | .f2set g _ _ _ _ _ _ _
  | .hdot g _ _ _ _ _ _
  | .dadd g _ _ _ _ _ _
  | .dmul g _ _ _ _ _ _
  | .dfma g _ _ _ _ _ _ _ _
  | .dset g _ _ _ _ _ _
  | .cvt g _ _ _ _
  | .cvti g _ _ _ _ _
  | .pack g _ _ _ _ _ _ _
  | .unpack g _ _ _ _
  | .scaleq g _ _ _ _ _
  | .tagset g _ _ _ _
  | .tagget g _ _
  | .lnget g _ _ _ _ _ _ _ _ _
  | .lnpoll g _ _ _ _ _ _ _ _
  | .lneq g _ _ _ _ _ _ _
  | .lncomb g _ _ _ _ _ _ _
  | .lnpfx g _ _ _ _ _ _ _ _
  | .bra g _ _
  | .brx g _ _
  | .call g _ _
  | .callx g _ _
  | .ret g
  | .exit g
  | .join g _
  | .leave g _
  | .waitm g _ _
  | .laceset g _ _
  | .laceget g _ _
  | .yield g
  | .nop g
  | .brk g _
  | .trap g _
  | .svc g _
  | .ld g _ _ _ _ _ _ _
  | .st g _ _ _ _ _ _
  | .lds g _ _ _ _
  | .sts g _ _ _
  | .ldk g _ _ _ _ _
  | .atom g _ _ _ _ _ _ _
  | .atoms g _ _ _ _ _
  | .red g _ _ _ _ _
  | .cas g _ _ _ _ _ _
  | .pref g _ _ _ _
  | .discard g _ _
  | .clean g _ _
  | .publish g _
  | .refresh g _
  | .xfence g _ _
  | .fence g _
  | .linearm g _ _ _
  | .linewait g _ _
  | .acpy g _ _ _ _ _ _ _
  | .acwait g _ _
  | .chstart g _ _ _
  | .chstat g _ _
  | .chabort g _
  | .shfgo g _ _
  | .shfwait g _ _
  | .barinit g _ _ _
  | .barinitFree g _ _
  | .arrive g _ _ _
  | .arrdrop g _ _ _
  | .bwait g _ _ _
  | .bpwait g _ _ _
  | .bsync g _ _
  | .fget g _ _ _ _
  | .fput g _ _ _ _
  | .fclaim g _ _ _ _
  | .send g _ _ _ _ _
  | .portcfgOpen g _ _ _
  | .portcfgReg g _ _
  | .portcfgClose g _ _
  | .patset g _ _ _
  | .patsetTmpl g _ _ _
  | .patarmOn g _ _
  | .patarmOff g _ _
  | .breakobj g _ _ _
  | .objstat g _ _ _ _
  | .qbind g _ _ _
  | .qunbind g _
  | .qstat g _ _
  | .qtry g _ _ _ _
  | .taskq g _ _ _
  | .depdec g _ _
  | .depnew g _ _ _
  | .depfree g _
  | .mxa g _ _ _ _
  | .mxb g _ _ _
  | .mxscale g _ _ _
  | .mxsparse g _ _
  | .mxzero g _
  | .mxload g _ _ _ _ _
  | .mxmma g _ _ _ _
  | .mxstore g _ _ _ _ _
  | .mxdrain g _ _
  | .mxwait g
  | .coll g _ _
  | .cwait g _ _
  | .cstat g _ _
  | .viewrd g _ _
  | .stepset g _ _ _
  | .rejoin g _ _ _
  | .ctopen g _
  | .ctclose g
  | .assaysig g _ _
  | .srd g _ _ _
  | .swr g _ _ _
  | .tret g
  | .fresume g
  | .halt g
  | .tlbinv g _ _ _
  | .tracemk g _ _ => some g
  | _ => none

/-- The majors and minors that the map assigns (R352); every other pair is unassigned (R353). -/
def Word.assigned (w : Word) : Bool :=
  match w.toNat / 2^58 with
  | 0x01 => w.toNat / 2^54 % 16 < 12
  | 0x02 => w.toNat / 2^54 % 16 < 15
  | 0x03 => w.toNat / 2^54 % 16 < 9
  | 0x04 => w.toNat / 2^54 % 16 < 2
  | 0x05 => w.toNat / 2^54 % 16 < 13
  | 0x06 => w.toNat / 2^54 % 16 < 2
  | 0x08 => w.toNat / 2^54 % 16 < 7
  | 0x09 => w.toNat / 2^54 % 16 < 8
  | 0x0A => w.toNat / 2^54 % 16 < 6
  | 0x0B => w.toNat / 2^54 % 16 < 1
  | 0x0C => w.toNat / 2^54 % 16 < 4
  | 0x0E => w.toNat / 2^54 % 16 < 7
  | 0x0F => w.toNat / 2^54 % 16 < 5
  | 0x10 => w.toNat / 2^54 % 16 < 6
  | 0x11 => w.toNat / 2^54 % 16 < 10
  | 0x14 => w.toNat / 2^54 % 16 < 5
  | 0x15 => w.toNat / 2^54 % 16 < 4
  | 0x16 => w.toNat / 2^54 % 16 < 7
  | 0x17 => w.toNat / 2^54 % 16 < 2
  | 0x18 => w.toNat / 2^54 % 16 < 7
  | 0x1A => w.toNat / 2^54 % 16 < 9
  | 0x1B => w.toNat / 2^54 % 16 < 6
  | 0x1C => w.toNat / 2^54 % 16 < 8
  | 0x20 => w.toNat / 2^54 % 16 < 8
  | 0x21 => w.toNat / 2^54 % 16 < 2
  | 0x22 => w.toNat / 2^54 % 16 < 6
  | 0x24 => w.toNat / 2^54 % 16 < 3
  | 0x3E => w.toNat / 2^54 % 16 < 7
  | _ => false

/-- The condition a term breaks, beyond the guard: none for a term that has an encoding. -/
def Instr.fieldError : Instr → Option DecodeError
  | .iadd _ _ _ _ u sat | .isub _ _ _ _ u sat | .imad _ _ _ _ _ u sat =>
    if u && !sat then some .reservedModifier else none
  | .cvt _ _ _ dst src => if dst.pairOk src then none else some .reservedModifier
  | .cvti _ _ _ dst src rz =>
    if src.isNarrow || (src.isFloat && dst.isFloat) || (rz && !(src.isFloat && !dst.isFloat)) then
      some .reservedModifier else none
  | .pack _ _ _ b _ fmt k one =>
    if fmt.count ≤ k.val || (!one && fmt.count ≤ k.val + 1) then some .reservedModifier
    else if one && b != .vz then some .unusedField else none
  | .unpack _ _ _ fmt k => if fmt.count ≤ k.val then some .reservedModifier else none
  | .scaleq _ _ _ _ _ k => if k.val = 3 then some .reservedModifier else none
  | .tagset _ _ _ t pair =>
    if (t.val < 12 && !pair) || (t.val = 12 && pair) then none else some .reservedModifier
  | .lnget _ _ _ b mode w _ _ _ _ =>
    if 5 < w.val then some .reservedModifier
    else match b with
      | .reg _ => none
      | .lit n => if n.toNat < 32 || (mode == .off && 0xE1 ≤ n.toNat) then none else some .reservedModifier
  | .lnpoll _ d _ _ cnt mode _ _ _ =>
    match mode, d with
    | .mask, .reg _ => none
    | .mask, .pred _ => some .reservedModifier
    | _, .reg _ => some .badPredicate
    | _, .pred _ => if cnt then some .reservedModifier else none
  | .lncomb _ _ _ op ty _ _ _ | .lnpfx _ _ _ op ty _ _ _ _ =>
    if ty == .f32 && (op == .and || op == .or || op == .xor) then some .reservedModifier else none
  | .ld _ _ _ _ _ ord _ _ => if ord == .rlx || ord == .acq then none else some .orderScope
  | .st _ _ _ _ ord _ _ => if ord == .rlx || ord == .rel then none else some .orderScope
  | .atom _ _ _ _ op ty _ _ => if op != .cas && op.takes ty then none else some .reservedModifier
  | .atoms _ _ _ _ op ty => if op.takes ty then none else some .reservedModifier
  | .red _ _ op ty ord _ =>
    if !(ord == .rlx || ord == .rel) then some .orderScope
    else if op != .cas && op.takes ty then none else some .reservedModifier
  | .xfence _ p1 p2 => if p1 == p2 then some .reservedModifier else none
  | .send _ mode p _ _ _ => if mode != .test && p.val != 7 then some .unusedField else none
  | .qbind _ _ a ep => if (ep.val = 2 || ep.val = 4) || a == .vz then none else some .unusedField
  | .mxdrain _ _ q => match q with | .que _ => none | _ => some .unusedField
  | .mxscale _ a b mode => if mode.val = 0 && (a != .vz || b != .vz) then some .unusedField else none
  | .tlbinv _ a d m =>
    if (m.val = 1 && a != .vz) || (m.val = 2 && (a != .vz || d != .vz)) || (m.val = 3 && d != .vz) then
      some .unusedField else none
  | .unassignedEncoding w => if Word.assigned w then some .assignedWord else none
  | _ => none

/-- Why a term is ill-formed: none for a well-formed one. -/
def Instr.illFormed (i : Instr) : Option DecodeError :=
  if i.guard? == some ⟨true, 7⟩ then some .negatedP7 else i.fieldError

/-- A term that has an encoding, or an event. -/
abbrev Instr.WellFormed (i : Instr) : Prop := i.illFormed = none

end Sys2Proof
end

