-- ==== Sys2Proof/Decode.lean ====
section
/-! DEFINITION. From 64-bit instruction words to instructions and back (spec/16_isa_formats_assembly.md R340 to R353).
`decode` is total: a word is an instruction, an unassigned encoding (R353), or refused by name. A field that a form
does not use must hold 0xF0 or 0 (R341): that is, encoding the instruction again must give the word. -/

namespace Sys2Proof

/-- The n bits of w from bit lo upward. -/
def fld (w lo n : Nat) : Nat := w / 2 ^ lo % 2 ^ n

/-- Bit k of w. -/
def bit (w k : Nat) : Bool := w / 2 ^ k % 2 == 1

/-- The code of a register field (R346). -/
def RegF.code : RegF → Nat
  | .gpr n => n.val
  | .que n => 0xE0 + n.val
  | .vz => 0xF0
  | .lane => 0xF1
  | .slot => 0xF2

/-- The register field of a code (R346). -/
def reg (c : Nat) : Except DecodeError RegF :=
  if h : c < 224 then .ok (.gpr ⟨c, h⟩)
  else if h : c - 224 < 16 then .ok (.que ⟨c - 224, h⟩)
  else if c = 0xF0 then .ok .vz
  else if c = 0xF1 then .ok .lane
  else if c = 0xF2 then .ok .slot
  else .error .reservedRegister

/-- A predicate code (R346). -/
def prd (c : Nat) : Except DecodeError PredF :=
  if h : c < 8 then .ok ⟨c, h⟩ else .error .badPredicate

/-- A field whose codes below n are defined. -/
def fin (n c : Nat) : Except DecodeError (Fin n) :=
  if h : c < n then .ok ⟨c, h⟩ else .error .reservedModifier

/-- A lace number (R377). -/
def lac (c : Nat) : Except DecodeError LaceF :=
  if h : c < 12 then .ok ⟨c, h⟩ else .error .badLace

/-- The lace field of a branch: 15 joins no lace (R209). -/
def laceOpt (c : Nat) : Except DecodeError (Option LaceF) :=
  if h : c < 12 then .ok (some ⟨c, h⟩) else if c = 15 then .ok none else .error .badLace

def laceCode : Option LaceF → Nat
  | some k => k.val
  | none => 15

def DestP.code : DestP → Nat
  | .reg r => r.code
  | .pred p => p.val

def DestP.pd : DestP → Nat
  | .reg _ => 0
  | .pred _ => 1

/-- A destination that bit 13 makes a register or a predicate (R366, R386). -/
def destP (w : Nat) : Except DecodeError DestP :=
  if bit w 13 then do let p ← prd (fld w 38 8); pure (.pred p) else do let r ← reg (fld w 38 8); pure (.reg r)

/-- The destination of LNPOLL: a register for mode .mask, a predicate otherwise (R401). -/
def destM (w : Nat) : Except DecodeError DestP :=
  if fld w 4 2 = 3 then do let r ← reg (fld w 38 8); pure (.reg r) else do let p ← prd (fld w 38 8); pure (.pred p)

def LnIdx.code : LnIdx → Nat
  | .reg r => r.code
  | .lit n => n.toNat

def LnIdx.bi : LnIdx → Nat
  | .reg _ => 0
  | .lit _ => 1

/-- The index of LNGET: a literal when BI is set (R400). -/
def lnIdx (w : Nat) : Except DecodeError LnIdx :=
  if bit w 10 then .ok (.lit (BitVec.ofNat 8 (fld w 22 8))) else do let r ← reg (fld w 22 8); pure (.reg r)

/-- The type field of ISET: 0x2 or 0x3 (R366). -/
def wideTy (w : Nat) : Except DecodeError Bool :=
  match fld w 6 4 with
  | 2 => .ok false
  | 3 => .ok true
  | _ => .error .reservedModifier

/-- The address fields of the M format (R343). -/
def memF (w : Nat) : Except DecodeError MemF := do
  let base ← reg (fld w 30 8)
  let index ← reg (fld w 22 8)
  pure ⟨base, index, BitVec.ofNat 12 (fld w 10 12)⟩

/-- The address fields of major 0x15 (R409). -/
def atMemF (w : Nat) : Except DecodeError AtMemF := do
  let base ← reg (fld w 30 8)
  let src ← reg (fld w 22 8)
  pure ⟨base, src, BitVec.ofNat 8 (fld w 10 8)⟩

def ICond.code : ICond → Nat
  | .eq => 0
  | .ne => 1
  | .lt => 2
  | .le => 3
  | .gt => 4
  | .ge => 5

def ICond.ofCode : Nat → Except DecodeError ICond
  | 0 => .ok .eq
  | 1 => .ok .ne
  | 2 => .ok .lt
  | 3 => .ok .le
  | 4 => .ok .gt
  | 5 => .ok .ge
  | _ => .error .reservedModifier

def FCond.code : FCond → Nat
  | .eq => 0
  | .ne => 1
  | .lt => 2
  | .le => 3
  | .gt => 4
  | .ge => 5
  | .num => 6
  | .nan => 7

def FCond.ofCode : Nat → Except DecodeError FCond
  | 0 => .ok .eq
  | 1 => .ok .ne
  | 2 => .ok .lt
  | 3 => .ok .le
  | 4 => .ok .gt
  | 5 => .ok .ge
  | 6 => .ok .num
  | 7 => .ok .nan
  | _ => .error .reservedModifier

def ImmX.code : ImmX → Nat
  | .zext => 0
  | .sext => 1
  | .hi => 2

def ImmX.ofCode : Nat → Except DecodeError ImmX
  | 0 => .ok .zext
  | 1 => .ok .sext
  | 2 => .ok .hi
  | _ => .error .reservedModifier

def MemTy.code : MemTy → Nat
  | .i8 => 0
  | .i16 => 1
  | .i32 => 2
  | .i64 => 3
  | .n8 => 4
  | .n16 => 5
  | .b32 => 6
  | .f32 => 7
  | .f16 => 8
  | .bf16 => 9
  | .e4m3 => 10
  | .e5m2 => 11
  | .e3m2 => 12
  | .e2m3 => 13
  | .e2m1 => 14
  | .s10 => 15

def MemTy.ofCode : Nat → Except DecodeError MemTy
  | 0 => .ok .i8
  | 1 => .ok .i16
  | 2 => .ok .i32
  | 3 => .ok .i64
  | 4 => .ok .n8
  | 5 => .ok .n16
  | 6 => .ok .b32
  | 7 => .ok .f32
  | 8 => .ok .f16
  | 9 => .ok .bf16
  | 10 => .ok .e4m3
  | 11 => .ok .e5m2
  | 12 => .ok .e3m2
  | 13 => .ok .e2m3
  | 14 => .ok .e2m1
  | 15 => .ok .s10
  | _ => .error .reservedModifier

def MOrd.code : MOrd → Nat
  | .rlx => 0
  | .acq => 1
  | .rel => 2
  | .acqrel => 3

def MOrd.ofCode : Nat → Except DecodeError MOrd
  | 0 => .ok .rlx
  | 1 => .ok .acq
  | 2 => .ok .rel
  | 3 => .ok .acqrel
  | _ => .error .orderScope

def Scope.code : Scope → Nat
  | .core => 0
  | .clu => 1
  | .dev => 2
  | .sys => 3

def Scope.ofCode : Nat → Except DecodeError Scope
  | 0 => .ok .core
  | 1 => .ok .clu
  | 2 => .ok .dev
  | 3 => .ok .sys
  | _ => .error .orderScope

def ATy.code : ATy → Nat
  | .i32 => 2
  | .i64 => 3
  | .b32 => 6
  | .f32 => 7
  | .f16x2 => 8
  | .bf16x2 => 9
  | .b128 => 15

def ATy.ofCode : Nat → Except DecodeError ATy
  | 2 => .ok .i32
  | 3 => .ok .i64
  | 6 => .ok .b32
  | 7 => .ok .f32
  | 8 => .ok .f16x2
  | 9 => .ok .bf16x2
  | 15 => .ok .b128
  | _ => .error .reservedModifier

def AOp.code : AOp → Nat
  | .add => 0
  | .min => 1
  | .max => 2
  | .minu => 3
  | .maxu => 4
  | .and => 5
  | .or => 6
  | .xor => 7
  | .exch => 8
  | .inc => 9
  | .dec => 10
  | .cas => 11

def AOp.ofCode : Nat → Except DecodeError AOp
  | 0 => .ok .add
  | 1 => .ok .min
  | 2 => .ok .max
  | 3 => .ok .minu
  | 4 => .ok .maxu
  | 5 => .ok .and
  | 6 => .ok .or
  | 7 => .ok .xor
  | 8 => .ok .exch
  | 9 => .ok .inc
  | 10 => .ok .dec
  | 11 => .ok .cas
  | _ => .error .reservedModifier

def Path.code : Path → Nat
  | .ls => 0
  | .ac => 1
  | .bt => 2
  | .sh => 3
  | .mx => 4
  | .cl => 5

def Path.ofCode : Nat → Except DecodeError Path
  | 0 => .ok .ls
  | 1 => .ok .ac
  | 2 => .ok .bt
  | 3 => .ok .sh
  | 4 => .ok .mx
  | 5 => .ok .cl
  | _ => .error .reservedModifier

def CvtT.code : CvtT → Nat
  | .f64 => 0
  | .f32 => 1
  | .f16x2 => 2
  | .bf16x2 => 3
  | .e4m3x4 => 4
  | .e5m2x4 => 5

def CvtT.ofCode : Nat → Except DecodeError CvtT
  | 0 => .ok .f64
  | 1 => .ok .f32
  | 2 => .ok .f16x2
  | 3 => .ok .bf16x2
  | 4 => .ok .e4m3x4
  | 5 => .ok .e5m2x4
  | _ => .error .reservedModifier

def CviT.code : CviT → Nat
  | .i8 => 0
  | .i16 => 1
  | .i32 => 2
  | .i64 => 3
  | .n8 => 4
  | .n16 => 5
  | .n32 => 6
  | .n64 => 7
  | .f32 => 8
  | .f64 => 9

def CviT.ofCode : Nat → Except DecodeError CviT
  | 0 => .ok .i8
  | 1 => .ok .i16
  | 2 => .ok .i32
  | 3 => .ok .i64
  | 4 => .ok .n8
  | 5 => .ok .n16
  | 6 => .ok .n32
  | 7 => .ok .n64
  | 8 => .ok .f32
  | 9 => .ok .f64
  | _ => .error .reservedModifier

def PackT.code : PackT → Nat
  | .f16 => 0
  | .bf16 => 1
  | .e4m3 => 2
  | .e5m2 => 3
  | .e3m2 => 4
  | .e2m3 => 5
  | .e2m1 => 6
  | .i8 => 7
  | .s10 => 8

def PackT.ofCode : Nat → Except DecodeError PackT
  | 0 => .ok .f16
  | 1 => .ok .bf16
  | 2 => .ok .e4m3
  | 3 => .ok .e5m2
  | 4 => .ok .e3m2
  | 5 => .ok .e2m3
  | 6 => .ok .e2m1
  | 7 => .ok .i8
  | 8 => .ok .s10
  | _ => .error .reservedModifier

def ScaleT.code : ScaleT → Nat
  | .e4m3 => 0
  | .e5m2 => 1
  | .e3m2 => 2
  | .e2m3 => 3
  | .e2m1 => 4

def ScaleT.ofCode : Nat → Except DecodeError ScaleT
  | 0 => .ok .e4m3
  | 1 => .ok .e5m2
  | 2 => .ok .e3m2
  | 3 => .ok .e2m3
  | 4 => .ok .e2m1
  | _ => .error .reservedModifier

def LnMode.code : LnMode → Nat
  | .abs => 0
  | .rot => 1
  | .off => 2
  | .xor => 3

def LnMode.ofCode : Nat → Except DecodeError LnMode
  | 0 => .ok .abs
  | 1 => .ok .rot
  | 2 => .ok .off
  | 3 => .ok .xor
  | _ => .error .reservedModifier

def PollMode.code : PollMode → Nat
  | .and => 0
  | .or => 1
  | .same => 2
  | .mask => 3

def PollMode.ofCode : Nat → Except DecodeError PollMode
  | 0 => .ok .and
  | 1 => .ok .or
  | 2 => .ok .same
  | 3 => .ok .mask
  | _ => .error .reservedModifier

def LnOp.code : LnOp → Nat
  | .add => 0
  | .min => 1
  | .max => 2
  | .and => 3
  | .or => 4
  | .xor => 5

def LnOp.ofCode : Nat → Except DecodeError LnOp
  | 0 => .ok .add
  | 1 => .ok .min
  | 2 => .ok .max
  | 3 => .ok .and
  | 4 => .ok .or
  | 5 => .ok .xor
  | _ => .error .reservedModifier

def LnTy.code : LnTy → Nat
  | .i32 => 0
  | .n32 => 1
  | .f32 => 2

def LnTy.ofCode : Nat → Except DecodeError LnTy
  | 0 => .ok .i32
  | 1 => .ok .n32
  | 2 => .ok .f32
  | _ => .error .reservedModifier

def SendMode.code : SendMode → Nat
  | .plain => 0
  | .wait => 1
  | .test => 2

def SendMode.ofCode : Nat → Except DecodeError SendMode
  | 0 => .ok .plain
  | 1 => .ok .wait
  | 2 => .ok .test
  | _ => .error .reservedModifier

/-- The d field of SEND: a predicate for .t, else unused (R189). -/
def sendP (w : Nat) : Except DecodeError PredF :=
  if fld w 0 2 = 2 then prd (fld w 38 8) else .ok 7

def sendPCode : SendMode → PredF → Nat
  | .test, p => p.val
  | _, _ => 0xF0

/-- The sum of fields given as (value, lowest bit). -/
def fields : List (Nat × Nat) → Nat
  | [] => 0
  | (v, lo) :: fs => v * 2 ^ lo + fields fs

/-- Bits 63:50: major, minor and predicate (R340). -/
def opWord (ma mi : Nat) (g : Guard) : Nat := fields [(ma, 58), (mi, 54), (g.neg.toNat, 53), (g.sel.val, 50)]

/-- The R layout: d, a, b, c, and the other fields (LA and modifiers). -/
def rWord (ma mi : Nat) (g : Guard) (d a b c : Nat) (fs : List (Nat × Nat)) : Nat :=
  opWord ma mi g + fields [(d, 38), (a, 30), (b, 22), (c, 14)] + fields fs

/-- The I format: d, a, and the other fields (X and imm32). -/
def iWord (ma mi : Nat) (g : Guard) (d a : Nat) (fs : List (Nat × Nat)) : Nat :=
  opWord ma mi g + fields [(d, 42), (a, 34)] + fields fs

/-- The M format: d, base, index (or source), and the other fields. -/
def mWord (ma mi : Nat) (g : Guard) (d base index : Nat) (fs : List (Nat × Nat)) : Nat :=
  opWord ma mi g + fields [(d, 38), (base, 30), (index, 22)] + fields fs

/-- The B format: lace, offset and modifiers. -/
def bWord (ma mi : Nat) (g : Guard) (fs : List (Nat × Nat)) : Nat := opWord ma mi g + fields fs

/-- The S format: d, a, and the other fields (sysreg and modifiers). -/
def sWord (ma mi : Nat) (g : Guard) (d a : Nat) (fs : List (Nat × Nat)) : Nat :=
  opWord ma mi g + fields [(d, 42), (a, 34)] + fields fs


/-- Major 0x01, integer (R352). -/
def major01 (g : Guard) (mi w : Nat) : Except DecodeError Instr :=
  match mi with
  | 0 => do let d ← reg (fld w 38 8); let a ← reg (fld w 30 8); let b ← reg (fld w 22 8); pure (.iadd g d a b (bit w 5) (bit w 4))
  | 1 => do let d ← reg (fld w 38 8); let a ← reg (fld w 30 8); let b ← reg (fld w 22 8); pure (.isub g d a b (bit w 5) (bit w 4))
  | 2 => do let d ← reg (fld w 38 8); let a ← reg (fld w 30 8); let b ← reg (fld w 22 8); pure (.imul g d a b)
  | 3 => do let d ← reg (fld w 38 8); let a ← reg (fld w 30 8); let b ← reg (fld w 22 8); pure (.imulh g d a b (bit w 5))
  | 4 => do let d ← reg (fld w 38 8); let a ← reg (fld w 30 8); let b ← reg (fld w 22 8); let c ← reg (fld w 14 8); pure (.imad g d a b c (bit w 5) (bit w 4))
  | 5 => do let d ← reg (fld w 38 8); let a ← reg (fld w 30 8); let b ← reg (fld w 22 8); let c ← reg (fld w 14 8); pure (.imadw g d a b c (bit w 5))
  | 6 => do let d ← reg (fld w 38 8); let a ← reg (fld w 30 8); let b ← reg (fld w 22 8); pure (.idiv g (BitVec.ofNat 4 (fld w 46 4)) d a b (bit w 5))
  | 7 => do let d ← reg (fld w 38 8); let a ← reg (fld w 30 8); let b ← reg (fld w 22 8); pure (.irem g (BitVec.ofNat 4 (fld w 46 4)) d a b (bit w 5))
  | 8 => do let d ← reg (fld w 38 8); let a ← reg (fld w 30 8); let b ← reg (fld w 22 8); pure (.imin g d a b (bit w 5))
  | 9 => do let d ← reg (fld w 38 8); let a ← reg (fld w 30 8); let b ← reg (fld w 22 8); pure (.imax g d a b (bit w 5))
  | 10 => do let d ← reg (fld w 38 8); let a ← reg (fld w 30 8); pure (.iabs g d a (bit w 4))
  | 11 => do let d ← reg (fld w 38 8); let a ← reg (fld w 30 8); let b ← reg (fld w 22 8); let s ← fin 8 (fld w 0 3); pure (.lea g d a b s (bit w 5))
  | _ => .error .unassigned

/-- Major 0x02, bitwise (R352). -/
def major02 (g : Guard) (mi w : Nat) : Except DecodeError Instr :=
  match mi with
  | 0 => do let d ← reg (fld w 38 8); let a ← reg (fld w 30 8); let b ← reg (fld w 22 8); pure (.and g d a b)
  | 1 => do let d ← reg (fld w 38 8); let a ← reg (fld w 30 8); let b ← reg (fld w 22 8); pure (.or g d a b)
  | 2 => do let d ← reg (fld w 38 8); let a ← reg (fld w 30 8); let b ← reg (fld w 22 8); pure (.xor g d a b)
  | 3 => do let d ← reg (fld w 38 8); let a ← reg (fld w 30 8); let b ← reg (fld w 22 8); pure (.andn g d a b)
  | 4 => do let d ← reg (fld w 38 8); let a ← reg (fld w 30 8); let b ← reg (fld w 22 8); pure (.shl g d a b)
  | 5 => do let d ← reg (fld w 38 8); let a ← reg (fld w 30 8); let b ← reg (fld w 22 8); pure (.shr g d a b)
  | 6 => do let d ← reg (fld w 38 8); let a ← reg (fld w 30 8); let b ← reg (fld w 22 8); pure (.sar g d a b)
  | 7 => do let d ← reg (fld w 38 8); let a ← reg (fld w 30 8); let b ← reg (fld w 22 8); pure (.rotr g d a b)
  | 8 => do let d ← reg (fld w 38 8); let a ← reg (fld w 30 8); let b ← reg (fld w 22 8); pure (.bfx g d a b (bit w 5))
  | 9 => do let d ← reg (fld w 38 8); let a ← reg (fld w 30 8); let b ← reg (fld w 22 8); let c ← reg (fld w 14 8); pure (.bfi g d a b c)
  | 10 => do let d ← reg (fld w 38 8); let a ← reg (fld w 30 8); pure (.popc g d a)
  | 11 => do let d ← reg (fld w 38 8); let a ← reg (fld w 30 8); pure (.clz g d a)
  | 12 => do let d ← reg (fld w 38 8); let a ← reg (fld w 30 8); pure (.ctz g d a)
  | 13 => do let d ← reg (fld w 38 8); let a ← reg (fld w 30 8); pure (.brev g d a)
  | 14 => do let d ← reg (fld w 38 8); let a ← reg (fld w 30 8); let b ← reg (fld w 22 8); let c ← reg (fld w 14 8); pure (.perm g d a b c)
  | _ => .error .unassigned

/-- Major 0x03, compare, select, 64-bit (R352). -/
def major03 (g : Guard) (mi w : Nat) : Except DecodeError Instr :=
  match mi with
  | 0 => do let d ← destP w; let a ← reg (fld w 30 8); let b ← reg (fld w 22 8); let cond ← ICond.ofCode (fld w 10 3); let wide ← wideTy w; pure (.iset g d a b cond wide (bit w 5))
  | 1 => do let d ← reg (fld w 38 8); let a ← reg (fld w 30 8); let b ← reg (fld w 22 8); let p ← prd (fld w 14 8); pure (.isel g d a b p (bit w 0))
  | 2 => do let d ← reg (fld w 38 8); let a ← reg (fld w 30 8); let b ← reg (fld w 22 8); pure (.iadd64 g d a b)
  | 3 => do let d ← reg (fld w 38 8); let a ← reg (fld w 30 8); let b ← reg (fld w 22 8); pure (.isub64 g d a b)
  | 4 => do let d ← destP w; let a ← reg (fld w 30 8); let b ← reg (fld w 22 8); let cond ← ICond.ofCode (fld w 10 3); pure (.iset64 g d a b cond (bit w 5))
  | 5 => do let d ← reg (fld w 38 8); let a ← reg (fld w 30 8); let b ← reg (fld w 22 8); pure (.shl64 g d a b)
  | 6 => do let d ← reg (fld w 38 8); let a ← reg (fld w 30 8); let b ← reg (fld w 22 8); pure (.shr64 g d a b)
  | 7 => do let d ← reg (fld w 38 8); let a ← reg (fld w 30 8); let b ← reg (fld w 22 8); pure (.sar64 g d a b)
  | 8 => do let d ← reg (fld w 38 8); let a ← reg (fld w 30 8); let b ← reg (fld w 22 8); pure (.imul64 g d a b)
  | _ => .error .unassigned

/-- Major 0x04, moves (R352). -/
def major04 (g : Guard) (mi w : Nat) : Except DecodeError Instr :=
  match mi with
  | 0 => do let d ← reg (fld w 38 8); let a ← reg (fld w 30 8); pure (.mov g d a (bit w 0))
  | 1 => do let d ← reg (fld w 42 8); let x ← ImmX.ofCode (fld w 32 2); pure (.movi g d x (BitVec.ofNat 32 (fld w 0 32)))
  | _ => .error .unassigned

/-- Major 0x05, immediate forms (R352). -/
def major05 (g : Guard) (mi w : Nat) : Except DecodeError Instr :=
  match mi with
  | 0 => do let d ← reg (fld w 42 8); let a ← reg (fld w 34 8); let x ← ImmX.ofCode (fld w 32 2); pure (.iaddImm g d a x (BitVec.ofNat 32 (fld w 0 32)))
  | 1 => do let d ← reg (fld w 42 8); let a ← reg (fld w 34 8); let x ← ImmX.ofCode (fld w 32 2); pure (.isubImm g d a x (BitVec.ofNat 32 (fld w 0 32)))
  | 2 => do let d ← reg (fld w 42 8); let a ← reg (fld w 34 8); let x ← ImmX.ofCode (fld w 32 2); pure (.imulImm g d a x (BitVec.ofNat 32 (fld w 0 32)))
  | 3 => do let d ← reg (fld w 42 8); let a ← reg (fld w 34 8); let x ← ImmX.ofCode (fld w 32 2); pure (.andImm g d a x (BitVec.ofNat 32 (fld w 0 32)))
  | 4 => do let d ← reg (fld w 42 8); let a ← reg (fld w 34 8); let x ← ImmX.ofCode (fld w 32 2); pure (.orImm g d a x (BitVec.ofNat 32 (fld w 0 32)))
  | 5 => do let d ← reg (fld w 42 8); let a ← reg (fld w 34 8); let x ← ImmX.ofCode (fld w 32 2); pure (.xorImm g d a x (BitVec.ofNat 32 (fld w 0 32)))
  | 6 => do let d ← reg (fld w 42 8); let a ← reg (fld w 34 8); let x ← ImmX.ofCode (fld w 32 2); pure (.andnImm g d a x (BitVec.ofNat 32 (fld w 0 32)))
  | 7 => do let d ← reg (fld w 42 8); let a ← reg (fld w 34 8); let x ← ImmX.ofCode (fld w 32 2); pure (.shlImm g d a x (BitVec.ofNat 32 (fld w 0 32)))
  | 8 => do let d ← reg (fld w 42 8); let a ← reg (fld w 34 8); let x ← ImmX.ofCode (fld w 32 2); pure (.shrImm g d a x (BitVec.ofNat 32 (fld w 0 32)))
  | 9 => do let d ← reg (fld w 42 8); let a ← reg (fld w 34 8); let x ← ImmX.ofCode (fld w 32 2); pure (.sarImm g d a x (BitVec.ofNat 32 (fld w 0 32)))
  | 10 => do let d ← reg (fld w 42 8); let a ← reg (fld w 34 8); let x ← ImmX.ofCode (fld w 32 2); pure (.rotrImm g d a x (BitVec.ofNat 32 (fld w 0 32)))
  | 11 => do let d ← reg (fld w 42 8); let a ← reg (fld w 34 8); let x ← ImmX.ofCode (fld w 32 2); pure (.iminImm g d a x (BitVec.ofNat 32 (fld w 0 32)))
  | 12 => do let d ← reg (fld w 42 8); let a ← reg (fld w 34 8); let x ← ImmX.ofCode (fld w 32 2); pure (.imaxImm g d a x (BitVec.ofNat 32 (fld w 0 32)))
  | _ => .error .unassigned

/-- Major 0x06, predicate (R352). -/
def major06 (g : Guard) (mi w : Nat) : Except DecodeError Instr :=
  match mi with
  | 0 => do let d ← prd (fld w 38 8); let a ← prd (fld w 30 8); let b ← prd (fld w 22 8); let c ← prd (fld w 14 8); pure (.plog g d a b c (BitVec.ofNat 8 (fld w 0 8)))
  | 1 =>
    match fld w 0 1 with
    | 0 => do let d ← reg (fld w 38 8); pure (.pmovGet g d)
    | _ => do let a ← reg (fld w 30 8); pure (.pmovSet g a (BitVec.ofNat 7 (fld w 1 7)))
  | _ => .error .unassigned

/-- Major 0x08, FP32 (R352). -/
def major08 (g : Guard) (mi w : Nat) : Except DecodeError Instr :=
  match mi with
  | 0 => do let d ← reg (fld w 38 8); let a ← reg (fld w 30 8); let b ← reg (fld w 22 8); pure (.fadd g d a b ⟨bit w 0, bit w 3⟩ ⟨bit w 1, bit w 4⟩)
  | 1 => do let d ← reg (fld w 38 8); let a ← reg (fld w 30 8); let b ← reg (fld w 22 8); pure (.fmul g d a b ⟨bit w 0, bit w 3⟩ ⟨bit w 1, bit w 4⟩)
  | 2 => do let d ← reg (fld w 38 8); let a ← reg (fld w 30 8); let b ← reg (fld w 22 8); let c ← reg (fld w 14 8); pure (.ffma g d a b c ⟨bit w 0, bit w 3⟩ ⟨bit w 1, bit w 4⟩ ⟨bit w 2, bit w 5⟩)
  | 3 => do let d ← reg (fld w 38 8); let a ← reg (fld w 30 8); let b ← reg (fld w 22 8); pure (.fmin g d a b ⟨bit w 0, bit w 3⟩ ⟨bit w 1, bit w 4⟩)
  | 4 => do let d ← reg (fld w 38 8); let a ← reg (fld w 30 8); let b ← reg (fld w 22 8); pure (.fmax g d a b ⟨bit w 0, bit w 3⟩ ⟨bit w 1, bit w 4⟩)
  | 5 => do let d ← destP w; let a ← reg (fld w 30 8); let b ← reg (fld w 22 8); let cond ← FCond.ofCode (fld w 10 3); pure (.fset g d a b ⟨bit w 0, bit w 3⟩ ⟨bit w 1, bit w 4⟩ cond)
  | 6 => do let d ← reg (fld w 38 8); let a ← reg (fld w 30 8); pure (.fclass g d a)
  | _ => .error .unassigned

/-- Major 0x09, transcendental (R352). -/
def major09 (g : Guard) (mi w : Nat) : Except DecodeError Instr :=
  match mi with
  | 0 => do let d ← reg (fld w 38 8); let a ← reg (fld w 30 8); pure (.frcp g (BitVec.ofNat 4 (fld w 46 4)) d a ⟨bit w 0, bit w 3⟩)
  | 1 => do let d ← reg (fld w 38 8); let a ← reg (fld w 30 8); pure (.frsq g (BitVec.ofNat 4 (fld w 46 4)) d a ⟨bit w 0, bit w 3⟩)
  | 2 => do let d ← reg (fld w 38 8); let a ← reg (fld w 30 8); pure (.fsqrt g (BitVec.ofNat 4 (fld w 46 4)) d a ⟨bit w 0, bit w 3⟩)
  | 3 => do let d ← reg (fld w 38 8); let a ← reg (fld w 30 8); pure (.fex2 g (BitVec.ofNat 4 (fld w 46 4)) d a ⟨bit w 0, bit w 3⟩)
  | 4 => do let d ← reg (fld w 38 8); let a ← reg (fld w 30 8); pure (.flg2 g (BitVec.ofNat 4 (fld w 46 4)) d a ⟨bit w 0, bit w 3⟩)
  | 5 => do let d ← reg (fld w 38 8); let a ← reg (fld w 30 8); pure (.fsin g (BitVec.ofNat 4 (fld w 46 4)) d a ⟨bit w 0, bit w 3⟩)
  | 6 => do let d ← reg (fld w 38 8); let a ← reg (fld w 30 8); pure (.fcos g (BitVec.ofNat 4 (fld w 46 4)) d a ⟨bit w 0, bit w 3⟩)
  | 7 => do let d ← reg (fld w 38 8); let a ← reg (fld w 30 8); pure (.ftanh g (BitVec.ofNat 4 (fld w 46 4)) d a ⟨bit w 0, bit w 3⟩)
  | _ => .error .unassigned

/-- Major 0x0A, packed 16-bit (R352). -/
def major0A (g : Guard) (mi w : Nat) : Except DecodeError Instr :=
  match mi with
  | 0 => do let d ← reg (fld w 38 8); let a ← reg (fld w 30 8); let b ← reg (fld w 22 8); pure (.f2add g d a b ⟨bit w 0, bit w 3⟩ ⟨bit w 1, bit w 4⟩ (bit w 6))
  | 1 => do let d ← reg (fld w 38 8); let a ← reg (fld w 30 8); let b ← reg (fld w 22 8); pure (.f2mul g d a b ⟨bit w 0, bit w 3⟩ ⟨bit w 1, bit w 4⟩ (bit w 6))
  | 2 => do let d ← reg (fld w 38 8); let a ← reg (fld w 30 8); let b ← reg (fld w 22 8); let c ← reg (fld w 14 8); pure (.f2fma g d a b c ⟨bit w 0, bit w 3⟩ ⟨bit w 1, bit w 4⟩ ⟨bit w 2, bit w 5⟩ (bit w 6))
  | 3 => do let d ← reg (fld w 38 8); let a ← reg (fld w 30 8); let b ← reg (fld w 22 8); pure (.f2min g d a b ⟨bit w 0, bit w 3⟩ ⟨bit w 1, bit w 4⟩ (bit w 6))
  | 4 => do let d ← reg (fld w 38 8); let a ← reg (fld w 30 8); let b ← reg (fld w 22 8); pure (.f2max g d a b ⟨bit w 0, bit w 3⟩ ⟨bit w 1, bit w 4⟩ (bit w 6))
  | 5 => do let d ← destP w; let a ← reg (fld w 30 8); let b ← reg (fld w 22 8); let cond ← FCond.ofCode (fld w 10 3); pure (.f2set g d a b ⟨bit w 0, bit w 3⟩ ⟨bit w 1, bit w 4⟩ cond (bit w 6))
  | _ => .error .unassigned

/-- Major 0x0B, FP8 dot (R352). -/
def major0B (g : Guard) (mi w : Nat) : Except DecodeError Instr :=
  match mi with
  | 0 => do let d ← reg (fld w 38 8); let a ← reg (fld w 30 8); let b ← reg (fld w 22 8); let c ← reg (fld w 14 8); pure (.hdot g d a b c (bit w 0) (bit w 1))
  | _ => .error .unassigned

/-- Major 0x0C, FP64 (R352). -/
def major0C (g : Guard) (mi w : Nat) : Except DecodeError Instr :=
  match mi with
  | 0 => do let d ← reg (fld w 38 8); let a ← reg (fld w 30 8); let b ← reg (fld w 22 8); pure (.dadd g (BitVec.ofNat 4 (fld w 46 4)) d a b ⟨bit w 0, bit w 3⟩ ⟨bit w 1, bit w 4⟩)
  | 1 => do let d ← reg (fld w 38 8); let a ← reg (fld w 30 8); let b ← reg (fld w 22 8); pure (.dmul g (BitVec.ofNat 4 (fld w 46 4)) d a b ⟨bit w 0, bit w 3⟩ ⟨bit w 1, bit w 4⟩)
  | 2 => do let d ← reg (fld w 38 8); let a ← reg (fld w 30 8); let b ← reg (fld w 22 8); let c ← reg (fld w 14 8); pure (.dfma g (BitVec.ofNat 4 (fld w 46 4)) d a b c ⟨bit w 0, bit w 3⟩ ⟨bit w 1, bit w 4⟩ ⟨bit w 2, bit w 5⟩)
  | 3 => do let d ← destP w; let a ← reg (fld w 30 8); let b ← reg (fld w 22 8); let cond ← FCond.ofCode (fld w 10 3); pure (.dset g d a b ⟨bit w 0, bit w 3⟩ ⟨bit w 1, bit w 4⟩ cond)
  | _ => .error .unassigned

/-- Major 0x0E, conversion, tag (R352). -/
def major0E (g : Guard) (mi w : Nat) : Except DecodeError Instr :=
  match mi with
  | 0 => do let d ← reg (fld w 38 8); let a ← reg (fld w 30 8); let dst ← CvtT.ofCode (fld w 4 4); let src ← CvtT.ofCode (fld w 0 4); pure (.cvt g d a dst src)
  | 1 => do let d ← reg (fld w 38 8); let a ← reg (fld w 30 8); let dst ← CviT.ofCode (fld w 4 4); let src ← CviT.ofCode (fld w 0 4); pure (.cvti g d a dst src (bit w 8))
  | 2 => do let d ← reg (fld w 38 8); let a ← reg (fld w 30 8); let b ← reg (fld w 22 8); let c ← reg (fld w 14 8); let fmt ← PackT.ofCode (fld w 0 4); let k ← fin 8 (fld w 4 3); pure (.pack g d a b c fmt k (bit w 7))
  | 3 => do let d ← reg (fld w 38 8); let a ← reg (fld w 30 8); let fmt ← PackT.ofCode (fld w 0 4); let k ← fin 8 (fld w 4 3); pure (.unpack g d a fmt k)
  | 4 => do let d ← reg (fld w 38 8); let a ← reg (fld w 30 8); let c ← reg (fld w 14 8); let fmt ← ScaleT.ofCode (fld w 0 3); let k ← fin 4 (fld w 4 2); pure (.scaleq g d a c fmt k)
  | 5 => do let d ← reg (fld w 38 8); let a ← reg (fld w 30 8); let t ← fin 16 (fld w 0 4); pure (.tagset g d a t (bit w 4))
  | 6 => do let d ← reg (fld w 38 8); let a ← reg (fld w 30 8); pure (.tagget g d a)
  | _ => .error .unassigned

/-- Major 0x0F, cross-lane (R352). -/
def major0F (g : Guard) (mi w : Nat) : Except DecodeError Instr :=
  match mi with
  | 0 => do let d ← reg (fld w 38 8); let a ← reg (fld w 30 8); let b ← lnIdx w; let mode ← LnMode.ofCode (fld w 4 2); let sw ← fin 8 (fld w 6 3); let k ← lac (fld w 0 4); let pf ← prd (fld w 14 8); pure (.lnget g d a b mode sw (bit w 9) k ⟨w / 2^11 % 8, Nat.mod_lt _ (by decide)⟩ pf)
  | 1 => do let d ← destM w; let a ← prd (fld w 30 8); let mode ← PollMode.ofCode (fld w 4 2); let k ← lac (fld w 0 4); let pf ← prd (fld w 14 8); pure (.lnpoll g d a (bit w 6) (bit w 7) mode k ⟨w / 2^11 % 8, Nat.mod_lt _ (by decide)⟩ pf)
  | 2 => do let d ← reg (fld w 38 8); let a ← reg (fld w 30 8); let k ← lac (fld w 0 4); let pf ← prd (fld w 14 8); pure (.lneq g d a (bit w 4) (bit w 9) k ⟨w / 2^11 % 8, Nat.mod_lt _ (by decide)⟩ pf)
  | 3 => do let d ← reg (fld w 38 8); let a ← reg (fld w 30 8); let op ← LnOp.ofCode (fld w 4 3); let ty ← LnTy.ofCode (fld w 7 2); let k ← lac (fld w 0 4); let pf ← prd (fld w 14 8); pure (.lncomb g d a op ty k ⟨w / 2^11 % 8, Nat.mod_lt _ (by decide)⟩ pf)
  | 4 => do let d ← reg (fld w 38 8); let a ← reg (fld w 30 8); let op ← LnOp.ofCode (fld w 4 3); let ty ← LnTy.ofCode (fld w 7 2); let k ← lac (fld w 0 4); let pf ← prd (fld w 14 8); pure (.lnpfx g d a op ty (bit w 9) k ⟨w / 2^11 % 8, Nat.mod_lt _ (by decide)⟩ pf)
  | _ => .error .unassigned

/-- Major 0x10, control flow (R352). -/
def major10 (g : Guard) (mi w : Nat) : Except DecodeError Instr :=
  match mi with
  | 0 => do let lace ← laceOpt (fld w 46 4); pure (.bra g (BitVec.ofNat 32 (fld w 14 32)) lace)
  | 1 => do let a ← reg (fld w 6 8); let lace ← laceOpt (fld w 46 4); pure (.brx g a lace)
  | 2 => do let lace ← laceOpt (fld w 46 4); pure (.call g (BitVec.ofNat 32 (fld w 14 32)) lace)
  | 3 => do let a ← reg (fld w 6 8); let lace ← laceOpt (fld w 46 4); pure (.callx g a lace)
  | 4 => pure (.ret g)
  | 5 => pure (.exit g)
  | _ => .error .unassigned

/-- Major 0x11, laces, misc (R352). -/
def major11 (g : Guard) (mi w : Nat) : Except DecodeError Instr :=
  match mi with
  | 0 => do let k ← lac (fld w 0 4); pure (.join g k)
  | 1 => do let k ← lac (fld w 0 4); pure (.leave g k)
  | 2 => do let k ← lac (fld w 0 4); pure (.waitm g k ⟨w / 2^11 % 8, Nat.mod_lt _ (by decide)⟩)
  | 3 => do let k ← lac (fld w 0 4); let a ← reg (fld w 30 8); pure (.laceset g k a)
  | 4 => do let d ← reg (fld w 38 8); let k ← lac (fld w 0 4); pure (.laceget g d k)
  | 5 => pure (.yield g)
  | 6 => pure (.nop g)
  | 7 => pure (.brk g (BitVec.ofNat 14 (fld w 0 14)))
  | 8 => pure (.trap g (BitVec.ofNat 14 (fld w 0 14)))
  | 9 => pure (.svc g (BitVec.ofNat 14 (fld w 0 14)))
  | _ => .error .unassigned

/-- Major 0x14, load, store (R352). -/
def major14 (g : Guard) (mi w : Nat) : Except DecodeError Instr :=
  match mi with
  | 0 => do let d ← reg (fld w 38 8); let m ← memF w; let ty ← MemTy.ofCode (fld w 6 4); let ord ← MOrd.ofCode (fld w 4 2); let sc ← Scope.ofCode (fld w 1 3); pure (.ld g (BitVec.ofNat 4 (fld w 46 4)) d m ty ord sc (bit w 0))
  | 1 => do let d ← reg (fld w 38 8); let m ← memF w; let ty ← MemTy.ofCode (fld w 6 4); let ord ← MOrd.ofCode (fld w 4 2); let sc ← Scope.ofCode (fld w 1 3); pure (.st g d m ty ord sc (bit w 0))
  | 2 => do let d ← reg (fld w 38 8); let m ← memF w; let ty ← MemTy.ofCode (fld w 6 4); pure (.lds g (BitVec.ofNat 4 (fld w 46 4)) d m ty)
  | 3 => do let d ← reg (fld w 38 8); let m ← memF w; let ty ← MemTy.ofCode (fld w 6 4); pure (.sts g d m ty)
  | 4 => do let d ← reg (fld w 38 8); let index ← reg (fld w 22 8); let ty ← MemTy.ofCode (fld w 6 4); pure (.ldk g (BitVec.ofNat 4 (fld w 46 4)) d index (BitVec.ofNat 12 (fld w 10 12)) ty)
  | _ => .error .unassigned

/-- Major 0x15, atomics (R352). -/
def major15 (g : Guard) (mi w : Nat) : Except DecodeError Instr :=
  match mi with
  | 0 => do let d ← reg (fld w 38 8); let m ← atMemF w; let op ← AOp.ofCode (fld w 18 4); let ty ← ATy.ofCode (fld w 6 4); let ord ← MOrd.ofCode (fld w 4 2); let sc ← Scope.ofCode (fld w 1 3); pure (.atom g (BitVec.ofNat 4 (fld w 46 4)) d m op ty ord sc)
  | 1 => do let d ← reg (fld w 38 8); let m ← atMemF w; let op ← AOp.ofCode (fld w 18 4); let ty ← ATy.ofCode (fld w 6 4); pure (.atoms g (BitVec.ofNat 4 (fld w 46 4)) d m op ty)
  | 2 => do let m ← atMemF w; let op ← AOp.ofCode (fld w 18 4); let ty ← ATy.ofCode (fld w 6 4); let ord ← MOrd.ofCode (fld w 4 2); let sc ← Scope.ofCode (fld w 1 3); pure (.red g m op ty ord sc)
  | 3 => do let d ← reg (fld w 38 8); let m ← atMemF w; let ty ← ATy.ofCode (fld w 6 4); let ord ← MOrd.ofCode (fld w 4 2); let sc ← Scope.ofCode (fld w 1 3); pure (.cas g (BitVec.ofNat 4 (fld w 46 4)) d m ty ord sc)
  | _ => .error .unassigned

/-- Major 0x16, cache, order (R352). -/
def major16 (g : Guard) (mi w : Nat) : Except DecodeError Instr :=
  match mi with
  | 0 => do let m ← memF w; let ty ← MemTy.ofCode (fld w 6 4); let ep ← fin 4 (fld w 4 2); pure (.pref g m ty ep (bit w 1))
  | 1 => do let m ← memF w; let d ← reg (fld w 38 8); pure (.discard g m d)
  | 2 => do let m ← memF w; let d ← reg (fld w 38 8); pure (.clean g m d)
  | 3 => do let sc ← Scope.ofCode (fld w 1 3); pure (.publish g sc)
  | 4 => do let sc ← Scope.ofCode (fld w 1 3); pure (.refresh g sc)
  | 5 => do let p1 ← Path.ofCode (fld w 3 3); let p2 ← Path.ofCode (fld w 0 3); pure (.xfence g p1 p2)
  | 6 => do let sc ← Scope.ofCode (fld w 1 3); pure (.fence g sc)
  | _ => .error .unassigned

/-- Major 0x17, watch (R352). -/
def major17 (g : Guard) (mi w : Nat) : Except DecodeError Instr :=
  match mi with
  | 0 => do let m ← memF w; let ty ← MemTy.ofCode (fld w 6 4); let sc ← Scope.ofCode (fld w 1 3); pure (.linearm g m ty sc)
  | 1 => do let d ← reg (fld w 38 8); let a ← reg (fld w 30 8); pure (.linewait g d a)
  | _ => .error .unassigned

/-- Major 0x18, copies (R352). -/
def major18 (g : Guard) (mi w : Nat) : Except DecodeError Instr :=
  match mi with
  | 0 => do let d ← reg (fld w 38 8); let a ← reg (fld w 30 8); let b ← reg (fld w 22 8); let c ← reg (fld w 14 8); let tag ← fin 3 (fld w 0 2); let sz ← fin 4 (fld w 2 2); pure (.acpy g (BitVec.ofNat 4 (fld w 46 4)) d a b c tag sz)
  | 1 => do let a ← reg (fld w 30 8); let tag ← fin 3 (fld w 0 2); pure (.acwait g a tag)
  | 2 => do let a ← reg (fld w 30 8); let b ← reg (fld w 22 8); let c ← reg (fld w 14 8); pure (.chstart g a b c)
  | 3 => do let d ← reg (fld w 38 8); let a ← reg (fld w 30 8); pure (.chstat g d a)
  | 4 => do let a ← reg (fld w 30 8); pure (.chabort g a)
  | 5 => do let d ← reg (fld w 38 8); let a ← reg (fld w 30 8); pure (.shfgo g d a)
  | 6 => do let d ← reg (fld w 38 8); let a ← reg (fld w 30 8); pure (.shfwait g d a)
  | _ => .error .unassigned

/-- Major 0x1A, barriers, futures (R352). -/
def major1A (g : Guard) (mi w : Nat) : Except DecodeError Instr :=
  match mi with
  | 0 =>
    match fld w 5 1 with
    | 0 => do let n ← fin 32 (fld w 0 5); let a ← reg (fld w 30 8); pure (.barinit g n a ⟨w / 2^11 % 8, Nat.mod_lt _ (by decide)⟩)
    | _ => do let n ← fin 32 (fld w 0 5); pure (.barinitFree g n ⟨w / 2^11 % 8, Nat.mod_lt _ (by decide)⟩)
  | 1 => do let d ← reg (fld w 38 8); let n ← fin 32 (fld w 0 5); pure (.arrive g d n ⟨w / 2^11 % 8, Nat.mod_lt _ (by decide)⟩)
  | 2 => do let d ← reg (fld w 38 8); let n ← fin 32 (fld w 0 5); pure (.arrdrop g d n ⟨w / 2^11 % 8, Nat.mod_lt _ (by decide)⟩)
  | 3 => do let p ← prd (fld w 38 8); let a ← reg (fld w 30 8); pure (.bwait g p a ⟨w / 2^11 % 8, Nat.mod_lt _ (by decide)⟩)
  | 4 => do let n ← fin 32 (fld w 0 5); pure (.bpwait g n (bit w 5) ⟨w / 2^11 % 8, Nat.mod_lt _ (by decide)⟩)
  | 5 => do let n ← fin 32 (fld w 0 5); pure (.bsync g n ⟨w / 2^11 % 8, Nat.mod_lt _ (by decide)⟩)
  | 6 => do let d ← reg (fld w 38 8); let a ← reg (fld w 30 8); let sc ← Scope.ofCode (fld w 1 3); pure (.fget g d a sc ⟨w / 2^11 % 8, Nat.mod_lt _ (by decide)⟩)
  | 7 => do let a ← reg (fld w 30 8); let b ← reg (fld w 22 8); let sc ← Scope.ofCode (fld w 1 3); pure (.fput g a b sc ⟨w / 2^11 % 8, Nat.mod_lt _ (by decide)⟩)
  | 8 => do let p ← prd (fld w 38 8); let a ← reg (fld w 30 8); let sc ← Scope.ofCode (fld w 1 3); pure (.fclaim g p a sc ⟨w / 2^11 % 8, Nat.mod_lt _ (by decide)⟩)
  | _ => .error .unassigned

/-- Major 0x1B, ports, patterns (R352). -/
def major1B (g : Guard) (mi w : Nat) : Except DecodeError Instr :=
  match mi with
  | 0 => do let mode ← SendMode.ofCode (fld w 0 2); let p ← sendP w; let a ← reg (fld w 30 8); let b ← reg (fld w 22 8); pure (.send g mode p a b ⟨w / 2^11 % 8, Nat.mod_lt _ (by decide)⟩)
  | 1 =>
    match fld w 0 2 with
    | 0 => do let d ← reg (fld w 38 8); let a ← reg (fld w 30 8); pure (.portcfgOpen g d a ⟨w / 2^11 % 8, Nat.mod_lt _ (by decide)⟩)
    | 1 => do let a ← reg (fld w 30 8); pure (.portcfgReg g a ⟨w / 2^11 % 8, Nat.mod_lt _ (by decide)⟩)
    | 2 => do let a ← reg (fld w 30 8); pure (.portcfgClose g a ⟨w / 2^11 % 8, Nat.mod_lt _ (by decide)⟩)
    | _ => .error .reservedModifier
  | 2 =>
    match fld w 0 1 with
    | 0 => do let a ← reg (fld w 30 8); let b ← reg (fld w 22 8); pure (.patset g a b ⟨w / 2^11 % 8, Nat.mod_lt _ (by decide)⟩)
    | _ => do let a ← reg (fld w 30 8); let b ← reg (fld w 22 8); pure (.patsetTmpl g a b ⟨w / 2^11 % 8, Nat.mod_lt _ (by decide)⟩)
  | 3 =>
    match fld w 0 1 with
    | 0 => do let a ← reg (fld w 30 8); pure (.patarmOff g a ⟨w / 2^11 % 8, Nat.mod_lt _ (by decide)⟩)
    | _ => do let a ← reg (fld w 30 8); pure (.patarmOn g a ⟨w / 2^11 % 8, Nat.mod_lt _ (by decide)⟩)
  | 4 => do let k ← fin 5 (fld w 0 3); let a ← reg (fld w 30 8); pure (.breakobj g k a ⟨w / 2^11 % 8, Nat.mod_lt _ (by decide)⟩)
  | 5 => do let k ← fin 5 (fld w 0 3); let d ← reg (fld w 38 8); let a ← reg (fld w 30 8); pure (.objstat g k d a ⟨w / 2^11 % 8, Nat.mod_lt _ (by decide)⟩)
  | _ => .error .unassigned

/-- Major 0x1C, queues, tasks (R352). -/
def major1C (g : Guard) (mi w : Nat) : Except DecodeError Instr :=
  match mi with
  | 0 => do let q ← reg (fld w 38 8); let a ← reg (fld w 30 8); let ep ← fin 5 (fld w 0 3); pure (.qbind g q a ep)
  | 1 => do let q ← reg (fld w 38 8); pure (.qunbind g q)
  | 2 => do let d ← reg (fld w 38 8); let q ← reg (fld w 30 8); pure (.qstat g d q)
  | 3 => do let d ← reg (fld w 38 8); let q ← reg (fld w 30 8); let p ← prd (fld w 14 8); pure (.qtry g d q p ⟨w / 2^11 % 8, Nat.mod_lt _ (by decide)⟩)
  | 4 => do let d ← reg (fld w 38 8); let a ← reg (fld w 30 8); let b ← reg (fld w 22 8); pure (.taskq g d a b)
  | 5 => do let a ← reg (fld w 30 8); pure (.depdec g a ⟨w / 2^11 % 8, Nat.mod_lt _ (by decide)⟩)
  | 6 => do let d ← reg (fld w 38 8); let a ← reg (fld w 30 8); let b ← reg (fld w 22 8); pure (.depnew g d a b)
  | 7 => do let a ← reg (fld w 30 8); pure (.depfree g a)
  | _ => .error .unassigned

/-- Major 0x20, matrix (R352). -/
def major20 (g : Guard) (mi w : Nat) : Except DecodeError Instr :=
  match mi with
  | 0 => do let a ← reg (fld w 30 8); let b ← reg (fld w 22 8); let fmt ← fin 7 (fld w 0 4); pure (.mxa g a b fmt (bit w 4))
  | 1 => do let a ← reg (fld w 30 8); let b ← reg (fld w 22 8); let fmt ← fin 7 (fld w 0 4); pure (.mxb g a b fmt)
  | 2 => do let a ← reg (fld w 30 8); let b ← reg (fld w 22 8); let mode ← fin 3 (fld w 0 2); pure (.mxscale g a b mode)
  | 3 => do let a ← reg (fld w 30 8); let b ← reg (fld w 22 8); pure (.mxsparse g a b)
  | 4 => do let t ← fin 4 (fld w 0 2); pure (.mxzero g t)
  | 5 => do let t ← fin 4 (fld w 0 2); let a ← reg (fld w 30 8); let b ← reg (fld w 22 8); let c ← reg (fld w 14 8); let fmt ← fin 3 (fld w 2 4); pure (.mxload g t a b c fmt)
  | 6 => do let t ← fin 4 (fld w 0 2); let b ← reg (fld w 22 8); let c ← reg (fld w 14 8); let p ← fin 6 (fld w 2 3); pure (.mxmma g t b c p)
  | 7 => do let t ← fin 4 (fld w 0 2); let a ← reg (fld w 30 8); let b ← reg (fld w 22 8); let c ← reg (fld w 14 8); let fmt ← fin 5 (fld w 2 4); pure (.mxstore g t a b c fmt)
  | _ => .error .unassigned

/-- Major 0x21, matrix (R352). -/
def major21 (g : Guard) (mi w : Nat) : Except DecodeError Instr :=
  match mi with
  | 0 => do let t ← fin 4 (fld w 0 2); let q ← reg (fld w 30 8); pure (.mxdrain g t q)
  | 1 => pure (.mxwait g)
  | _ => .error .unassigned

/-- Major 0x22, collectives (R352). -/
def major22 (g : Guard) (mi w : Nat) : Except DecodeError Instr :=
  match mi with
  | 0 => do let d ← reg (fld w 38 8); let a ← reg (fld w 30 8); pure (.coll g d a)
  | 1 => do let d ← reg (fld w 38 8); let a ← reg (fld w 30 8); pure (.cwait g d a)
  | 2 => do let d ← reg (fld w 38 8); let a ← reg (fld w 30 8); pure (.cstat g d a)
  | 3 => do let d ← reg (fld w 38 8); let a ← reg (fld w 30 8); pure (.viewrd g d a)
  | 4 => do let a ← reg (fld w 30 8); let b ← reg (fld w 22 8); let c ← reg (fld w 14 8); pure (.stepset g a b c)
  | 5 => do let d ← reg (fld w 38 8); let a ← reg (fld w 30 8); let b ← reg (fld w 22 8); pure (.rejoin g d a b)
  | _ => .error .unassigned

/-- Major 0x24, containment (R352). -/
def major24 (g : Guard) (mi w : Nat) : Except DecodeError Instr :=
  match mi with
  | 0 => do let a ← reg (fld w 30 8); pure (.ctopen g a)
  | 1 => pure (.ctclose g)
  | 2 => do let d ← reg (fld w 38 8); pure (.assaysig g d (bit w 0))
  | _ => .error .unassigned

/-- Major 0x3E, system (R352). -/
def major3E (g : Guard) (mi w : Nat) : Except DecodeError Instr :=
  match mi with
  | 0 => do let d ← reg (fld w 42 8); pure (.srd g d (BitVec.ofNat 16 (fld w 18 16)) (bit w 0))
  | 1 => do let a ← reg (fld w 34 8); pure (.swr g (BitVec.ofNat 16 (fld w 18 16)) a (bit w 0))
  | 2 => pure (.tret g)
  | 3 => pure (.fresume g)
  | 4 => pure (.halt g)
  | 5 => do let a ← reg (fld w 34 8); let d ← reg (fld w 42 8); let m ← fin 4 (fld w 0 2); pure (.tlbinv g a d m)
  | 6 => do let a ← reg (fld w 34 8); pure (.tracemk g a (bit w 0))
  | _ => .error .unassigned

/-- The instruction that a word's fields name, before the checks of fields a form does not use. -/
def parse (w : Nat) : Except DecodeError Instr :=
  let g : Guard := ⟨bit w 53, ⟨w / 2^50 % 8, Nat.mod_lt _ (by decide)⟩⟩
  let mi := fld w 54 4
  match fld w 58 6 with
  | 0x01 => major01 g mi w
  | 0x02 => major02 g mi w
  | 0x03 => major03 g mi w
  | 0x04 => major04 g mi w
  | 0x05 => major05 g mi w
  | 0x06 => major06 g mi w
  | 0x08 => major08 g mi w
  | 0x09 => major09 g mi w
  | 0x0A => major0A g mi w
  | 0x0B => major0B g mi w
  | 0x0C => major0C g mi w
  | 0x0E => major0E g mi w
  | 0x0F => major0F g mi w
  | 0x10 => major10 g mi w
  | 0x11 => major11 g mi w
  | 0x14 => major14 g mi w
  | 0x15 => major15 g mi w
  | 0x16 => major16 g mi w
  | 0x17 => major17 g mi w
  | 0x18 => major18 g mi w
  | 0x1A => major1A g mi w
  | 0x1B => major1B g mi w
  | 0x1C => major1C g mi w
  | 0x20 => major20 g mi w
  | 0x21 => major21 g mi w
  | 0x22 => major22 g mi w
  | 0x24 => major24 g mi w
  | 0x3E => major3E g mi w
  | _ => .error .unassigned

/-- The word of an instruction as the encoding tables of R341 to R345, R352, R409, R279, R189 and R319 lay it out; a
device event has none. -/
def encodeNat : Instr → Option Nat
  | .iadd g d a b u sat => some (rWord 1 0 g d.code a.code b.code 0xF0 [(u.toNat, 5), (sat.toNat, 4)])
  | .isub g d a b u sat => some (rWord 1 1 g d.code a.code b.code 0xF0 [(u.toNat, 5), (sat.toNat, 4)])
  | .imul g d a b => some (rWord 1 2 g d.code a.code b.code 0xF0 [])
  | .imulh g d a b u => some (rWord 1 3 g d.code a.code b.code 0xF0 [(u.toNat, 5)])
  | .imad g d a b c u sat => some (rWord 1 4 g d.code a.code b.code c.code [(u.toNat, 5), (sat.toNat, 4)])
  | .imadw g d a b c u => some (rWord 1 5 g d.code a.code b.code c.code [(u.toNat, 5)])
  | .idiv g la d a b u => some (rWord 1 6 g d.code a.code b.code 0xF0 [(la.toNat, 46), (u.toNat, 5)])
  | .irem g la d a b u => some (rWord 1 7 g d.code a.code b.code 0xF0 [(la.toNat, 46), (u.toNat, 5)])
  | .imin g d a b u => some (rWord 1 8 g d.code a.code b.code 0xF0 [(u.toNat, 5)])
  | .imax g d a b u => some (rWord 1 9 g d.code a.code b.code 0xF0 [(u.toNat, 5)])
  | .iabs g d a sat => some (rWord 1 10 g d.code a.code 0xF0 0xF0 [(sat.toNat, 4)])
  | .lea g d a b s u => some (rWord 1 11 g d.code a.code b.code 0xF0 [(s.val, 0), (u.toNat, 5)])
  | .and g d a b => some (rWord 2 0 g d.code a.code b.code 0xF0 [])
  | .or g d a b => some (rWord 2 1 g d.code a.code b.code 0xF0 [])
  | .xor g d a b => some (rWord 2 2 g d.code a.code b.code 0xF0 [])
  | .andn g d a b => some (rWord 2 3 g d.code a.code b.code 0xF0 [])
  | .shl g d a b => some (rWord 2 4 g d.code a.code b.code 0xF0 [])
  | .shr g d a b => some (rWord 2 5 g d.code a.code b.code 0xF0 [])
  | .sar g d a b => some (rWord 2 6 g d.code a.code b.code 0xF0 [])
  | .rotr g d a b => some (rWord 2 7 g d.code a.code b.code 0xF0 [])
  | .bfx g d a b u => some (rWord 2 8 g d.code a.code b.code 0xF0 [(u.toNat, 5)])
  | .bfi g d a b c => some (rWord 2 9 g d.code a.code b.code c.code [])
  | .popc g d a => some (rWord 2 10 g d.code a.code 0xF0 0xF0 [])
  | .clz g d a => some (rWord 2 11 g d.code a.code 0xF0 0xF0 [])
  | .ctz g d a => some (rWord 2 12 g d.code a.code 0xF0 0xF0 [])
  | .brev g d a => some (rWord 2 13 g d.code a.code 0xF0 0xF0 [])
  | .perm g d a b c => some (rWord 2 14 g d.code a.code b.code c.code [])
  | .iset g d a b cond wide u => some (rWord 3 0 g d.code a.code b.code 0xF0 [(d.pd, 13), (cond.code, 10), (2 + wide.toNat, 6), (u.toNat, 5)])
  | .isel g d a b p neg => some (rWord 3 1 g d.code a.code b.code p.val [(neg.toNat, 0)])
  | .iadd64 g d a b => some (rWord 3 2 g d.code a.code b.code 0xF0 [])
  | .isub64 g d a b => some (rWord 3 3 g d.code a.code b.code 0xF0 [])
  | .iset64 g d a b cond u => some (rWord 3 4 g d.code a.code b.code 0xF0 [(d.pd, 13), (cond.code, 10), (u.toNat, 5), (192, 0)])
  | .shl64 g d a b => some (rWord 3 5 g d.code a.code b.code 0xF0 [])
  | .shr64 g d a b => some (rWord 3 6 g d.code a.code b.code 0xF0 [])
  | .sar64 g d a b => some (rWord 3 7 g d.code a.code b.code 0xF0 [])
  | .imul64 g d a b => some (rWord 3 8 g d.code a.code b.code 0xF0 [])
  | .mov g d a w => some (rWord 4 0 g d.code a.code 0xF0 0xF0 [(w.toNat, 0)])
  | .movi g d x imm => some (iWord 4 1 g d.code 0xF0 [(x.code, 32), (imm.toNat, 0)])
  | .iaddImm g d a x imm => some (iWord 5 0 g d.code a.code [(x.code, 32), (imm.toNat, 0)])
  | .isubImm g d a x imm => some (iWord 5 1 g d.code a.code [(x.code, 32), (imm.toNat, 0)])
  | .imulImm g d a x imm => some (iWord 5 2 g d.code a.code [(x.code, 32), (imm.toNat, 0)])
  | .andImm g d a x imm => some (iWord 5 3 g d.code a.code [(x.code, 32), (imm.toNat, 0)])
  | .orImm g d a x imm => some (iWord 5 4 g d.code a.code [(x.code, 32), (imm.toNat, 0)])
  | .xorImm g d a x imm => some (iWord 5 5 g d.code a.code [(x.code, 32), (imm.toNat, 0)])
  | .andnImm g d a x imm => some (iWord 5 6 g d.code a.code [(x.code, 32), (imm.toNat, 0)])
  | .shlImm g d a x imm => some (iWord 5 7 g d.code a.code [(x.code, 32), (imm.toNat, 0)])
  | .shrImm g d a x imm => some (iWord 5 8 g d.code a.code [(x.code, 32), (imm.toNat, 0)])
  | .sarImm g d a x imm => some (iWord 5 9 g d.code a.code [(x.code, 32), (imm.toNat, 0)])
  | .rotrImm g d a x imm => some (iWord 5 10 g d.code a.code [(x.code, 32), (imm.toNat, 0)])
  | .iminImm g d a x imm => some (iWord 5 11 g d.code a.code [(x.code, 32), (imm.toNat, 0)])
  | .imaxImm g d a x imm => some (iWord 5 12 g d.code a.code [(x.code, 32), (imm.toNat, 0)])
  | .plog g d a b c lut => some (rWord 6 0 g d.val a.val b.val c.val [(lut.toNat, 0)])
  | .pmovGet g d => some (rWord 6 1 g d.code 0xF0 0xF0 0xF0 [])
  | .pmovSet g a mask => some (rWord 6 1 g 0xF0 a.code 0xF0 0xF0 [(mask.toNat, 1), (1, 0)])
  | .fadd g d a b ma mb => some (rWord 8 0 g d.code a.code b.code 0xF0 [(ma.neg.toNat, 0), (ma.abs.toNat, 3), (mb.neg.toNat, 1), (mb.abs.toNat, 4)])
  | .fmul g d a b ma mb => some (rWord 8 1 g d.code a.code b.code 0xF0 [(ma.neg.toNat, 0), (ma.abs.toNat, 3), (mb.neg.toNat, 1), (mb.abs.toNat, 4)])
  | .ffma g d a b c ma mb mc => some (rWord 8 2 g d.code a.code b.code c.code [(ma.neg.toNat, 0), (ma.abs.toNat, 3), (mb.neg.toNat, 1), (mb.abs.toNat, 4), (mc.neg.toNat, 2), (mc.abs.toNat, 5)])
  | .fmin g d a b ma mb => some (rWord 8 3 g d.code a.code b.code 0xF0 [(ma.neg.toNat, 0), (ma.abs.toNat, 3), (mb.neg.toNat, 1), (mb.abs.toNat, 4)])
  | .fmax g d a b ma mb => some (rWord 8 4 g d.code a.code b.code 0xF0 [(ma.neg.toNat, 0), (ma.abs.toNat, 3), (mb.neg.toNat, 1), (mb.abs.toNat, 4)])
  | .fset g d a b ma mb cond => some (rWord 8 5 g d.code a.code b.code 0xF0 [(d.pd, 13), (ma.neg.toNat, 0), (ma.abs.toNat, 3), (mb.neg.toNat, 1), (mb.abs.toNat, 4), (cond.code, 10)])
  | .fclass g d a => some (rWord 8 6 g d.code a.code 0xF0 0xF0 [])
  | .frcp g la d a ma => some (rWord 9 0 g d.code a.code 0xF0 0xF0 [(la.toNat, 46), (ma.neg.toNat, 0), (ma.abs.toNat, 3)])
  | .frsq g la d a ma => some (rWord 9 1 g d.code a.code 0xF0 0xF0 [(la.toNat, 46), (ma.neg.toNat, 0), (ma.abs.toNat, 3)])
  | .fsqrt g la d a ma => some (rWord 9 2 g d.code a.code 0xF0 0xF0 [(la.toNat, 46), (ma.neg.toNat, 0), (ma.abs.toNat, 3)])
  | .fex2 g la d a ma => some (rWord 9 3 g d.code a.code 0xF0 0xF0 [(la.toNat, 46), (ma.neg.toNat, 0), (ma.abs.toNat, 3)])
  | .flg2 g la d a ma => some (rWord 9 4 g d.code a.code 0xF0 0xF0 [(la.toNat, 46), (ma.neg.toNat, 0), (ma.abs.toNat, 3)])
  | .fsin g la d a ma => some (rWord 9 5 g d.code a.code 0xF0 0xF0 [(la.toNat, 46), (ma.neg.toNat, 0), (ma.abs.toNat, 3)])
  | .fcos g la d a ma => some (rWord 9 6 g d.code a.code 0xF0 0xF0 [(la.toNat, 46), (ma.neg.toNat, 0), (ma.abs.toNat, 3)])
  | .ftanh g la d a ma => some (rWord 9 7 g d.code a.code 0xF0 0xF0 [(la.toNat, 46), (ma.neg.toNat, 0), (ma.abs.toNat, 3)])
  | .f2add g d a b ma mb bf => some (rWord 10 0 g d.code a.code b.code 0xF0 [(ma.neg.toNat, 0), (ma.abs.toNat, 3), (mb.neg.toNat, 1), (mb.abs.toNat, 4), (bf.toNat, 6)])
  | .f2mul g d a b ma mb bf => some (rWord 10 1 g d.code a.code b.code 0xF0 [(ma.neg.toNat, 0), (ma.abs.toNat, 3), (mb.neg.toNat, 1), (mb.abs.toNat, 4), (bf.toNat, 6)])
  | .f2fma g d a b c ma mb mc bf => some (rWord 10 2 g d.code a.code b.code c.code [(ma.neg.toNat, 0), (ma.abs.toNat, 3), (mb.neg.toNat, 1), (mb.abs.toNat, 4), (mc.neg.toNat, 2), (mc.abs.toNat, 5), (bf.toNat, 6)])
  | .f2min g d a b ma mb bf => some (rWord 10 3 g d.code a.code b.code 0xF0 [(ma.neg.toNat, 0), (ma.abs.toNat, 3), (mb.neg.toNat, 1), (mb.abs.toNat, 4), (bf.toNat, 6)])
  | .f2max g d a b ma mb bf => some (rWord 10 4 g d.code a.code b.code 0xF0 [(ma.neg.toNat, 0), (ma.abs.toNat, 3), (mb.neg.toNat, 1), (mb.abs.toNat, 4), (bf.toNat, 6)])
  | .f2set g d a b ma mb cond bf => some (rWord 10 5 g d.code a.code b.code 0xF0 [(d.pd, 13), (ma.neg.toNat, 0), (ma.abs.toNat, 3), (mb.neg.toNat, 1), (mb.abs.toNat, 4), (cond.code, 10), (bf.toNat, 6)])
  | .hdot g d a b c ea eb => some (rWord 11 0 g d.code a.code b.code c.code [(ea.toNat, 0), (eb.toNat, 1)])
  | .dadd g la d a b ma mb => some (rWord 12 0 g d.code a.code b.code 0xF0 [(la.toNat, 46), (ma.neg.toNat, 0), (ma.abs.toNat, 3), (mb.neg.toNat, 1), (mb.abs.toNat, 4)])
  | .dmul g la d a b ma mb => some (rWord 12 1 g d.code a.code b.code 0xF0 [(la.toNat, 46), (ma.neg.toNat, 0), (ma.abs.toNat, 3), (mb.neg.toNat, 1), (mb.abs.toNat, 4)])
  | .dfma g la d a b c ma mb mc => some (rWord 12 2 g d.code a.code b.code c.code [(la.toNat, 46), (ma.neg.toNat, 0), (ma.abs.toNat, 3), (mb.neg.toNat, 1), (mb.abs.toNat, 4), (mc.neg.toNat, 2), (mc.abs.toNat, 5)])
  | .dset g d a b ma mb cond => some (rWord 12 3 g d.code a.code b.code 0xF0 [(d.pd, 13), (ma.neg.toNat, 0), (ma.abs.toNat, 3), (mb.neg.toNat, 1), (mb.abs.toNat, 4), (cond.code, 10)])
  | .cvt g d a dst src => some (rWord 14 0 g d.code a.code 0xF0 0xF0 [(dst.code, 4), (src.code, 0)])
  | .cvti g d a dst src rz => some (rWord 14 1 g d.code a.code 0xF0 0xF0 [(dst.code, 4), (src.code, 0), (rz.toNat, 8)])
  | .pack g d a b c fmt k one => some (rWord 14 2 g d.code a.code b.code c.code [(fmt.code, 0), (k.val, 4), (one.toNat, 7)])
  | .unpack g d a fmt k => some (rWord 14 3 g d.code a.code 0xF0 0xF0 [(fmt.code, 0), (k.val, 4)])
  | .scaleq g d a c fmt k => some (rWord 14 4 g d.code a.code 0xF0 c.code [(fmt.code, 0), (k.val, 4)])
  | .tagset g d a t pair => some (rWord 14 5 g d.code a.code 0xF0 0xF0 [(t.val, 0), (pair.toNat, 4)])
  | .tagget g d a => some (rWord 14 6 g d.code a.code 0xF0 0xF0 [])
  | .lnget g d a b mode sw w64 k bk pf => some (rWord 15 0 g d.code a.code b.code pf.val [(b.bi, 10), (mode.code, 4), (sw.val, 6), (w64.toNat, 9), (k.val, 0), (bk.val, 11)])
  | .lnpoll g d a neg cnt mode k bk pf => some (rWord 15 1 g d.code a.val 0xF0 pf.val [(neg.toNat, 6), (cnt.toNat, 7), (mode.code, 4), (k.val, 0), (bk.val, 11)])
  | .lneq g d a uni w64 k bk pf => some (rWord 15 2 g d.code a.code 0xF0 pf.val [(uni.toNat, 4), (w64.toNat, 9), (k.val, 0), (bk.val, 11)])
  | .lncomb g d a op ty k bk pf => some (rWord 15 3 g d.code a.code 0xF0 pf.val [(op.code, 4), (ty.code, 7), (k.val, 0), (bk.val, 11)])
  | .lnpfx g d a op ty excl k bk pf => some (rWord 15 4 g d.code a.code 0xF0 pf.val [(op.code, 4), (ty.code, 7), (excl.toNat, 9), (k.val, 0), (bk.val, 11)])
  | .bra g off lace => some (bWord 16 0 g [(off.toNat, 14), (laceCode lace, 46)])
  | .brx g a lace => some (bWord 16 1 g [(a.code, 6), (laceCode lace, 46)])
  | .call g off lace => some (bWord 16 2 g [(off.toNat, 14), (laceCode lace, 46)])
  | .callx g a lace => some (bWord 16 3 g [(a.code, 6), (laceCode lace, 46)])
  | .ret g => some (bWord 16 4 g [(15, 46)])
  | .exit g => some (bWord 16 5 g [(15, 46)])
  | .join g k => some (rWord 17 0 g 0xF0 0xF0 0xF0 0xF0 [(k.val, 0)])
  | .leave g k => some (rWord 17 1 g 0xF0 0xF0 0xF0 0xF0 [(k.val, 0)])
  | .waitm g k bk => some (rWord 17 2 g 0xF0 0xF0 0xF0 0xF0 [(k.val, 0), (bk.val, 11)])
  | .laceset g k a => some (rWord 17 3 g 0xF0 a.code 0xF0 0xF0 [(k.val, 0)])
  | .laceget g d k => some (rWord 17 4 g d.code 0xF0 0xF0 0xF0 [(k.val, 0)])
  | .yield g => some (rWord 17 5 g 0xF0 0xF0 0xF0 0xF0 [])
  | .nop g => some (rWord 17 6 g 0xF0 0xF0 0xF0 0xF0 [])
  | .brk g code => some (rWord 17 7 g 0xF0 0xF0 0xF0 0xF0 [(code.toNat, 0)])
  | .trap g code => some (rWord 17 8 g 0xF0 0xF0 0xF0 0xF0 [(code.toNat, 0)])
  | .svc g code => some (rWord 17 9 g 0xF0 0xF0 0xF0 0xF0 [(code.toNat, 0)])
  | .ld g la d m ty ord sc na => some (mWord 20 0 g d.code m.base.code m.index.code [(la.toNat, 46), (m.off.toNat, 10), (ty.code, 6), (ord.code, 4), (sc.code, 1), (na.toNat, 0)])
  | .st g d m ty ord sc na => some (mWord 20 1 g d.code m.base.code m.index.code [(m.off.toNat, 10), (ty.code, 6), (ord.code, 4), (sc.code, 1), (na.toNat, 0)])
  | .lds g la d m ty => some (mWord 20 2 g d.code m.base.code m.index.code [(la.toNat, 46), (m.off.toNat, 10), (ty.code, 6)])
  | .sts g d m ty => some (mWord 20 3 g d.code m.base.code m.index.code [(m.off.toNat, 10), (ty.code, 6)])
  | .ldk g la d index off ty => some (mWord 20 4 g d.code 0xF0 index.code [(la.toNat, 46), (off.toNat, 10), (ty.code, 6)])
  | .atom g la d m op ty ord sc => some (mWord 21 0 g d.code m.base.code m.src.code [(la.toNat, 46), (m.off.toNat, 10), (op.code, 18), (ty.code, 6), (ord.code, 4), (sc.code, 1)])
  | .atoms g la d m op ty => some (mWord 21 1 g d.code m.base.code m.src.code [(la.toNat, 46), (m.off.toNat, 10), (op.code, 18), (ty.code, 6)])
  | .red g m op ty ord sc => some (mWord 21 2 g 0xF0 m.base.code m.src.code [(m.off.toNat, 10), (op.code, 18), (ty.code, 6), (ord.code, 4), (sc.code, 1)])
  | .cas g la d m ty ord sc => some (mWord 21 3 g d.code m.base.code m.src.code [(la.toNat, 46), (m.off.toNat, 10), (ty.code, 6), (ord.code, 4), (sc.code, 1)])
  | .pref g m ty ep l2only => some (mWord 22 0 g 0xF0 m.base.code m.index.code [(m.off.toNat, 10), (ty.code, 6), (ep.val, 4), (l2only.toNat, 1)])
  | .discard g m d => some (mWord 22 1 g d.code m.base.code m.index.code [(m.off.toNat, 10)])
  | .clean g m d => some (mWord 22 2 g d.code m.base.code m.index.code [(m.off.toNat, 10)])
  | .publish g sc => some (mWord 22 3 g 0xF0 0xF0 0xF0 [(sc.code, 1)])
  | .refresh g sc => some (mWord 22 4 g 0xF0 0xF0 0xF0 [(sc.code, 1)])
  | .xfence g p1 p2 => some (rWord 22 5 g 0xF0 0xF0 0xF0 0xF0 [(p1.code, 3), (p2.code, 0)])
  | .fence g sc => some (mWord 22 6 g 0xF0 0xF0 0xF0 [(sc.code, 1)])
  | .linearm g m ty sc => some (mWord 23 0 g 0xF0 m.base.code m.index.code [(m.off.toNat, 10), (ty.code, 6), (sc.code, 1)])
  | .linewait g d a => some (rWord 23 1 g d.code a.code 0xF0 0xF0 [])
  | .acpy g la d a b c tag sz => some (rWord 24 0 g d.code a.code b.code c.code [(la.toNat, 46), (tag.val, 0), (sz.val, 2)])
  | .acwait g a tag => some (rWord 24 1 g 0xF0 a.code 0xF0 0xF0 [(tag.val, 0)])
  | .chstart g a b c => some (rWord 24 2 g 0xF0 a.code b.code c.code [])
  | .chstat g d a => some (rWord 24 3 g d.code a.code 0xF0 0xF0 [])
  | .chabort g a => some (rWord 24 4 g 0xF0 a.code 0xF0 0xF0 [])
  | .shfgo g d a => some (rWord 24 5 g d.code a.code 0xF0 0xF0 [])
  | .shfwait g d a => some (rWord 24 6 g d.code a.code 0xF0 0xF0 [])
  | .barinit g n a bk => some (rWord 26 0 g 0xF0 a.code 0xF0 0xF0 [(n.val, 0), (bk.val, 11)])
  | .barinitFree g n bk => some (rWord 26 0 g 0xF0 0xF0 0xF0 0xF0 [(n.val, 0), (bk.val, 11), (32, 0)])
  | .arrive g d n bk => some (rWord 26 1 g d.code 0xF0 0xF0 0xF0 [(n.val, 0), (bk.val, 11)])
  | .arrdrop g d n bk => some (rWord 26 2 g d.code 0xF0 0xF0 0xF0 [(n.val, 0), (bk.val, 11)])
  | .bwait g p a bk => some (rWord 26 3 g p.val a.code 0xF0 0xF0 [(bk.val, 11)])
  | .bpwait g n q bk => some (rWord 26 4 g 0xF0 0xF0 0xF0 0xF0 [(n.val, 0), (q.toNat, 5), (bk.val, 11)])
  | .bsync g n bk => some (rWord 26 5 g 0xF0 0xF0 0xF0 0xF0 [(n.val, 0), (bk.val, 11)])
  | .fget g d a sc bk => some (rWord 26 6 g d.code a.code 0xF0 0xF0 [(sc.code, 1), (bk.val, 11)])
  | .fput g a b sc bk => some (rWord 26 7 g 0xF0 a.code b.code 0xF0 [(sc.code, 1), (bk.val, 11)])
  | .fclaim g p a sc bk => some (rWord 26 8 g p.val a.code 0xF0 0xF0 [(sc.code, 1), (bk.val, 11)])
  | .send g mode p a b bk => some (rWord 27 0 g (sendPCode mode p) a.code b.code 0xF0 [(mode.code, 0), (bk.val, 11)])
  | .portcfgOpen g d a bk => some (rWord 27 1 g d.code a.code 0xF0 0xF0 [(bk.val, 11)])
  | .portcfgReg g a bk => some (rWord 27 1 g 0xF0 a.code 0xF0 0xF0 [(bk.val, 11), (1, 0)])
  | .portcfgClose g a bk => some (rWord 27 1 g 0xF0 a.code 0xF0 0xF0 [(bk.val, 11), (2, 0)])
  | .patset g a b bk => some (rWord 27 2 g 0xF0 a.code b.code 0xF0 [(bk.val, 11)])
  | .patsetTmpl g a b bk => some (rWord 27 2 g 0xF0 a.code b.code 0xF0 [(bk.val, 11), (1, 0)])
  | .patarmOff g a bk => some (rWord 27 3 g 0xF0 a.code 0xF0 0xF0 [(bk.val, 11)])
  | .patarmOn g a bk => some (rWord 27 3 g 0xF0 a.code 0xF0 0xF0 [(bk.val, 11), (1, 0)])
  | .breakobj g k a bk => some (rWord 27 4 g 0xF0 a.code 0xF0 0xF0 [(k.val, 0), (bk.val, 11)])
  | .objstat g k d a bk => some (rWord 27 5 g d.code a.code 0xF0 0xF0 [(k.val, 0), (bk.val, 11)])
  | .qbind g q a ep => some (rWord 28 0 g q.code a.code 0xF0 0xF0 [(ep.val, 0)])
  | .qunbind g q => some (rWord 28 1 g q.code 0xF0 0xF0 0xF0 [])
  | .qstat g d q => some (rWord 28 2 g d.code q.code 0xF0 0xF0 [])
  | .qtry g d q p bk => some (rWord 28 3 g d.code q.code 0xF0 p.val [(bk.val, 11)])
  | .taskq g d a b => some (rWord 28 4 g d.code a.code b.code 0xF0 [])
  | .depdec g a bk => some (rWord 28 5 g 0xF0 a.code 0xF0 0xF0 [(bk.val, 11)])
  | .depnew g d a b => some (rWord 28 6 g d.code a.code b.code 0xF0 [])
  | .depfree g a => some (rWord 28 7 g 0xF0 a.code 0xF0 0xF0 [])
  | .mxa g a b fmt sp => some (rWord 32 0 g 0xF0 a.code b.code 0xF0 [(fmt.val, 0), (sp.toNat, 4)])
  | .mxb g a b fmt => some (rWord 32 1 g 0xF0 a.code b.code 0xF0 [(fmt.val, 0)])
  | .mxscale g a b mode => some (rWord 32 2 g 0xF0 a.code b.code 0xF0 [(mode.val, 0)])
  | .mxsparse g a b => some (rWord 32 3 g 0xF0 a.code b.code 0xF0 [])
  | .mxzero g t => some (rWord 32 4 g 0xF0 0xF0 0xF0 0xF0 [(t.val, 0)])
  | .mxload g t a b c fmt => some (rWord 32 5 g 0xF0 a.code b.code c.code [(t.val, 0), (fmt.val, 2)])
  | .mxmma g t b c p => some (rWord 32 6 g 0xF0 0xF0 b.code c.code [(t.val, 0), (p.val, 2)])
  | .mxstore g t a b c fmt => some (rWord 32 7 g 0xF0 a.code b.code c.code [(t.val, 0), (fmt.val, 2)])
  | .mxdrain g t q => some (rWord 33 0 g 0xF0 q.code 0xF0 0xF0 [(t.val, 0)])
  | .mxwait g => some (rWord 33 1 g 0xF0 0xF0 0xF0 0xF0 [])
  | .coll g d a => some (rWord 34 0 g d.code a.code 0xF0 0xF0 [])
  | .cwait g d a => some (rWord 34 1 g d.code a.code 0xF0 0xF0 [])
  | .cstat g d a => some (rWord 34 2 g d.code a.code 0xF0 0xF0 [])
  | .viewrd g d a => some (rWord 34 3 g d.code a.code 0xF0 0xF0 [])
  | .stepset g a b c => some (rWord 34 4 g 0xF0 a.code b.code c.code [])
  | .rejoin g d a b => some (rWord 34 5 g d.code a.code b.code 0xF0 [])
  | .ctopen g a => some (rWord 36 0 g 0xF0 a.code 0xF0 0xF0 [])
  | .ctclose g => some (rWord 36 1 g 0xF0 0xF0 0xF0 0xF0 [])
  | .assaysig g d sel => some (rWord 36 2 g d.code 0xF0 0xF0 0xF0 [(sel.toNat, 0)])
  | .srd g d n w => some (sWord 62 0 g d.code 0xF0 [(n.toNat, 18), (w.toNat, 0)])
  | .swr g n a w => some (sWord 62 1 g 0xF0 a.code [(n.toNat, 18), (w.toNat, 0)])
  | .tret g => some (sWord 62 2 g 0xF0 0xF0 [])
  | .fresume g => some (sWord 62 3 g 0xF0 0xF0 [])
  | .halt g => some (sWord 62 4 g 0xF0 0xF0 [])
  | .tlbinv g a d m => some (sWord 62 5 g d.code a.code [(m.val, 0)])
  | .tracemk g a w => some (sWord 62 6 g 0xF0 a.code [(w.toNat, 0)])
  | .unassignedEncoding w => some w.toNat
  | _ => none

/-- The word of an instruction; none for a device event. -/
def encode (i : Instr) : Option Word := (encodeNat i).map (BitVec.ofNat 64)

/-- The instruction of a word, or why it raises 0x01 (R340 to R353): the fields must parse, the term must be
well-formed, and every field that its form does not use must hold 0xF0 or 0. -/
def decode (w : Word) : Except DecodeError Instr :=
  match parse w.toNat with
  | .error .unassigned => .ok (.unassignedEncoding w)
  | .error e => .error e
  | .ok i =>
    match i.illFormed with
    | some e => .error e
    | none => if encodeNat i = some w.toNat then .ok i else .error .unusedField

/-- The host's question: what the decoder reads from an instruction whose bits are w (bits above nbits zero). -/
def decodeTableWord (nbits w : Nat) : Option Instr :=
  match decode (BitVec.ofNat 64 (w % 2 ^ nbits)) with
  | .ok i => some i
  | .error _ => none

end Sys2Proof
end

