-- ==== Sys2Proof/Machine/Bits.lean ====
section
/-! DEFINITION. Bit fields, sign extension and byte order (spec/00_scope.md R5; R359 SEXT, ZEXT). -/

namespace Sys2Proof.Machine

/-- Bits hi..lo of a natural number. -/
def bitsOf (v hi lo : Nat) : Nat := v / 2 ^ lo % 2 ^ (hi + 1 - lo)

/-- Bit k of a natural number. -/
def bitOf (v k : Nat) : Bool := v / 2 ^ k % 2 == 1

/-- v with bits hi..lo replaced by the low bits of x. -/
def setBits (v hi lo x : Nat) : Nat :=
  v % 2 ^ lo + (x % 2 ^ (hi + 1 - lo)) * 2 ^ lo + v / 2 ^ (hi + 1) * 2 ^ (hi + 1)

/-- The signed value of the low n bits of v (R359 SEXT). -/
def sext (v n : Nat) : Int :=
  let m := v % 2 ^ n
  if n = 0 then 0 else if m < 2 ^ (n - 1) then (m : Int) else (m : Int) - ((2 ^ n : Nat) : Int)

/-- An integer reduced modulo 2^n. -/
def wrapN (n : Nat) (x : Int) : Nat := (x % ((2 ^ n : Nat) : Int)).toNat

/-- The first n bytes of v, least significant first (R5). -/
def bytesLE : Nat → Nat → List Byte
  | 0, _ => []
  | n + 1, v => BitVec.ofNat 8 v :: bytesLE n (v / 256)

/-- The number that a list of bytes holds, least significant first (R5). -/
def ofBytesLE : List Byte → Nat
  | [] => 0
  | b :: bs => b.toNat + 256 * ofBytesLE bs

/-- The numbers n, n+1, …, n+k-1. -/
def rangeFrom : Nat → Nat → List Nat
  | _, 0 => []
  | n, k + 1 => n :: rangeFrom (n + 1) k

end Sys2Proof.Machine
end

