-- ==== Sys2Proof/Config.lean ====
section
/-! DEFINITION. The free values of the machine: what the spec leaves open, or takes from outside, and the model does not choose. No
definition gives them a body, so no statement can rest on a value of theirs. -/

namespace Sys2Proof.Config

/-- The n-th free choice: which member of a closed set (R9) or which of several enabled actions is taken. It is applied
to the counter `Ext.fresh` of the state. -/
opaque freeNat : Nat → Nat

/-- The key by which the blocks of a channel (2^25 · channel + index of the block) are ordered into SIDs, banks and rows. R37 leaves
the placing to the management core. -/
opaque placeRow : Nat → Nat

/-- What a factory part holds in an image: its sequence number, and its unit map as a mask of a die (0 clusters, 1 slices,
2 channels, 3 Norano lanes; R27). The layout of its body is not given. -/
opaque factorySeq : List Byte → Nat
opaque factoryMask : List Byte → Nat → Nat → Nat

/-- The set of a stack's host-ownership filter that a line falls into; the hash is fixed and not visible (R110). -/
opaque filterSet : Nat → Nat

/-- The set of a controller's remap filter that a line falls into (R230). -/
opaque remapSet : Nat → Nat

/-- Ed25519 verification (RFC 8032) of a signature under a key (R29). -/
opaque edVerify : List Byte → List Byte → List Byte → Bool

/-- ML-DSA-65 verification (FIPS 204) of a signature under a key (R29). -/
opaque mlVerify : List Byte → List Byte → List Byte → Bool

/-- The signatures that the security block makes with the identity keys (R141): Ed25519 and ML-DSA-65. -/
opaque edSign : List Byte → List Byte
opaque mlSign : List Byte → List Byte

/-- SHA-384. -/
opaque sha384 : List Byte → List Byte

/-- The root key hashes of the hub boot ROM (R29). -/
opaque isRoot : List Byte → Bool

/-- The module's identity public keys (R29) and its serial number (R27). -/
opaque idEd : List Byte
opaque idMl : List Byte
opaque serial : Nat

/-- The SHA-384 of the image of a kind as the module was shipped (R141). -/
opaque shippedHash : Nat → List Byte

end Sys2Proof.Config
end

