-- ==== Sys2Proof/Machine/State.lean ====
section
/-! DEFINITION. The state of the machine as plain data, its reset value, and the reasons a step can stop. -/

namespace Sys2Proof.Machine

/-- A sparse map: pairs of key and value, keys strictly rising. -/
abbrev Map (α : Type) := List (Nat × α)

/-- Privilege levels (R6): user, guest, hypervisor. -/
inductive Level where
  | u | g | h
deriving DecidableEq, Repr

/-- A register tag (R286). -/
inductive Tag where
  | b32 | i32 | f32 | f16x2 | bf16x2 | e4m3x4 | e5m2x4 | e3m2x5 | e2m3x5 | e2m1x8 | i8x4 | s10x3 | w64lo | w64hi
  | poison
deriving DecidableEq, Repr

/-- A register: its bits and its tag. On a SIMT core bits 63:32 are zero; on the control core the tag is B32, or
POISON as the poison mark (R291). -/
structure Reg where
  val : Word
  tag : Tag
deriving DecidableEq, Repr

/-- A position (A, i): the address of a clause header and an instruction index (R195). -/
structure Pos where
  a : Nat
  i : Nat
deriving DecidableEq, Repr

/-- The address space of an access: an ASID's virtual addresses, or physical addresses (an H handler, R444). -/
inductive Space where
  | asid (a : Nat)
  | phys
deriving DecidableEq, Repr

/-- The name of a phase domain (R241): a core, a space, and for a copy of an assay pair its crew, else 0 (R321). -/
structure DomKey where
  core  : Nat
  space : Space
  copy  : Nat
deriving DecidableEq, Repr

/-- What a thread knows by happens-before (R249): every home write up to `base`, and the boundaries `ids`. -/
structure Know where
  base : Nat
  ids  : List Nat
deriving DecidableEq, Repr

/-- A boundary that has been performed (R242): its thread, core, scope, place in time, and what it knew. -/
structure Bnd where
  id    : Nat
  thr   : Nat
  core  : Nat
  scope : Scope
  seq   : Nat
  know  : Know
deriving DecidableEq, Repr

/-- A write as a home slice performed it: its place in coherence order, the domain and thread that made it, its path,
its scope when strong, its core, the boundaries that published it, a strong access's address and size, and what its thread knew when it made
it (R242). -/
structure Wr where
  seq    : Nat
  dom    : Option DomKey
  thr    : Nat
  path   : Path
  strong : Option Scope
  core   : Nat
  pubs   : List Nat
  acc    : Nat × Nat
  know   : Know := ⟨0, []⟩
deriving DecidableEq, Repr

/-- A byte a domain has written and not published (R242): the value, a poison mark, its perform time, its thread and
path, the domain's value before it, whether a boundary holds it after a fault or an offline home (R238, R73), whether the window
of that hold has expired, whether it belongs to a release store that waits itself (R73), the position of the store, its thread's LTID, what
its thread knew, and its no-allocate bit (R226). -/
structure UByte where
  val    : Byte
  poison : Bool
  seq    : Nat
  thr    : Nat
  path   : Path
  old    : Option Byte
  held   : Bool
  late   : Bool
  store  : Bool
  pc     : Pos
  ltid   : Word
  know   : Know
  na     : Bool
deriving DecidableEq, Repr

/-- A phase domain: what its latest snapshot point knew, its unpublished bytes by VA, and the blocks, by VA / 64, that an unpublished store has
poisoned (R44). -/
structure Domain where
  key    : DomKey
  snap   : Know
  stores : Map UByte
  poi    : List Nat
deriving DecidableEq, Repr

/-- The page attributes an access works with (R224 to R226); `x1` and `w1` are what stage 1 alone grants. -/
structure Attr where
  ep  : Nat
  cmp : Bool
  wp  : Nat
  cl  : Nat
  u   : Bool
  x   : Bool
  w   : Bool
  csid : Nat
  x1  : Bool
  w1  : Bool
deriving DecidableEq, Repr

/-- A cached translation (R229): the die whose slices hold it, a page of an ASID of a function and the frame and attributes found for
it. -/
structure TlbE where
  die  : Nat
  fn   : Nat
  asid : Nat
  va   : Nat
  size : Nat
  ipa  : Nat
  pa   : Nat
  attr : Attr
deriving DecidableEq, Repr

/-- Pages that no L1 holds a sector of since a TLBINV (R229): of a function, of one ASID or of all, from an address on; `seq` is the time. -/
structure Inval where
  fn   : Nat
  asid : Option Nat
  va   : Nat
  size : Nat
  seq  : Nat
deriving DecidableEq, Repr

/-- A line of an L2 slice (R222) with its name in the remap filter (R230): home, tag, recorded frame, dirty bytes
by offset, whether the name is writable, eviction priority, attributes, a time of last use. -/
structure L2Line where
  die   : Nat
  slice : Nat
  space : Space
  vline : Nat
  pline : Nat
  dirty : Map Byte
  wr    : Bool
  ep    : Nat
  attr  : Attr
  used  : Nat
deriving DecidableEq, Repr

/-- What a thread waits for (R183, R192, R199): laces and rendezvous, the wait-table waits, a rejoin, queue registers, the
matrix engine. -/
inductive WaitKind where
  | lace | rdv | line | bwait | bpwait | bsync | fget | send | cwait | rejoin | qpop | qpush | mx
deriving DecidableEq, Repr

/-- A wait in progress: its kind, the cycle it began, whether it holds a wait-table entry or polls (R184), and its
operands (a lace and phase, a barrier and token, a deadline). -/
structure WaitRec where
  kind  : WaitKind
  start : Nat
  poll  : Bool
  table : Bool
  a     : Nat
  b     : Nat
deriving DecidableEq, Repr

/-- A parked access (R72, R233): its cause, the SEQ of its fault record when it has one, its kind and its VA. -/
structure Park where
  cause : Nat
  seq   : Option Nat
  kind  : Nat
  va    : Nat
deriving DecidableEq, Repr

/-- The states of R192. A trapped thread is one whose trap bank is in use (`TrapBank.inh`); it is scheduled alone. -/
inductive RunSt where
  | ready
  | grouped
  | waiting (w : WaitRec)
  | parked (p : Park)
  | stopped (cause : Nat)
deriving DecidableEq, Repr

/-- A bank of trap state (R443): TCAUSE, TPC, TVAL, TSTAT. -/
structure TrapBank where
  cause : Nat
  pcIdx : Nat
  pcA   : Nat
  val   : Word
  inh   : Bool
  plvl  : Level
deriving DecidableEq, Repr

/-- The fault registers of a thread (R234): FCONT, FTOKEN, FTPC, FCWA. -/
structure FaultRegs where
  target   : Nat
  en       : Bool
  tokSeq   : Nat
  tokCause : Nat
  tokKind  : Nat
  fpIdx    : Nat
  fpA      : Nat
  pend     : Bool
  cwa      : Nat
deriving DecidableEq, Repr

/-- A thread's watch (R419): its line's home name, whether it fired, whether it is in poll mode, when it was armed. -/
structure Watch where
  space : Space
  vline : Nat
  pline : Nat
  fired : Bool
  poll  : Bool
  armed : Nat
deriving DecidableEq, Repr

/-- Who a thread is (R191, R194): core, context, row, lane, crew, index, copy, launch number, ASID, exchange key, priority
class, code space (none until the first fetch translates, R146), tenant tag (R129). -/
structure ThreadId where
  core   : Nat
  ctx    : Nat
  row    : Nat
  lane   : Nat
  crew   : Nat
  tid    : Nat
  copy   : Nat
  launch : Nat
  asid   : Nat
  exk    : Nat
  prio   : Nat
  csid   : Option Nat
  fn     : Nat
deriving DecidableEq, Repr

/-- A table entry that a thread latched with STEPSET (R93): a step, a counter VA, and flags. -/
structure StepEnt where
  step : Nat
  va   : Nat
  fl   : Nat
deriving DecidableEq, Repr

/-- The selector registers a thread holds: FQSEL, MHSEL, MHFSEL, NPSEL. -/
structure Sel where
  fq  : Nat
  mh  : Nat
  mhf : Nat
  np  : Nat
deriving DecidableEq, Repr

/-- A containment region of a thread (R325): its handler, the pending event (cause, VA) that unwinds it, its number, which requests from its opening
on reach or pass (R326), and the level and trap states in which it was opened. -/
structure Region where
  handler : Nat
  event   : Option (Nat × Nat)
  id      : Nat
  lvl     : Level
  inhG    : Bool
  inhH    : Bool
deriving DecidableEq, Repr

/-- What a thread remembers of other domains and of its own paths: its knowledge, the boundaries whose writes it has read
since its last snapshot point, per byte the newest write it has read, and per pair of paths its last XFENCE (R249). -/
structure Seen where
  know  : Know
  pubs  : List Nat
  bytes : Map Nat
  xf    : Map Nat
deriving DecidableEq, Repr

/-- A thread (R191, R192) with all its context. `clause` is the clause it has fetched (header first); `stepping` is a
STEP in progress; `reissue` a re-issued access (R237); `prims` its count of primary-only instructions (R324); `mark` is
what a waiting instruction has already done: 0 it waits, 1 its wait is over, 2 its object broke, 3 its rendezvous has gathered, n + 4
its future was filled with n. -/
structure Thread where
  uid      : Nat
  id       : ThreadId
  lvl      : Level
  pos      : Pos
  clause   : List Word
  run      : RunSt
  ready    : Nat
  yielded  : Bool
  regs     : Map Reg
  preds    : BitVec 7
  fflags   : BitVec 5
  tls      : Nat
  rsd      : Nat
  rstk     : List Nat
  fr       : FaultRegs
  bankG    : TrapBank
  bankH    : TrapBank
  ct       : List Region
  ctinfo   : Nat × Nat × Nat
  cnt      : Nat × Nat × Nat
  sel      : Sel
  watch    : Option Watch
  seen     : Seen
  steps    : List StepEnt
  stepping : Bool
  stopReq  : Bool
  reissue  : Bool
  prims    : Nat
  mark     : Option Nat
deriving DecidableEq, Repr

/-- An executing issue group (R196, R198): its core, level, position, its clause (header first), its members in lane order,
and, while some members wait in place at the instruction (R242, R86), the members that have not executed it. -/
structure Group where
  core    : Nat
  lvl     : Level
  pos     : Pos
  clause  : List Word
  members : List Nat
  todo    : Option (List Nat)
deriving DecidableEq, Repr

/-- What a request asks of a home slice, a bank unit or a unit of the core (R349, R61). -/
inductive ReqKind where
  | load (ty : MemTy) (strong : Bool)
  | store (strong : Bool)
  | atomic (op : AOp) (ty : ATy) (ret : Bool)
  | cas (ty : ATy)
  | lds (ty : MemTy)
  | sts
  | atoms (op : AOp) (ty : ATy)
  | alu
  | acpy
deriving DecidableEq, Repr

/-- Where a request stands: at the core, at its home, or answered. -/
inductive ReqSt where
  | issued | home | done
deriving DecidableEq, Repr

/-- An outstanding request of a thread: what it does, where (address, recorded physical address), with which order and
scope, its data and compare data, its destination register and window (R350), and
the registers it will write when answered, with the flags it sets, the number and operands of a primary-only instruction
(R324), the position of its instruction, the number that the requests of one execution of it share (R404), and the members of the group that
issued it (R241). -/
structure Req where
  id     : Nat
  thr    : Nat
  kind   : ReqKind
  st     : ReqSt
  dom    : DomKey
  va     : Nat
  pa     : Nat
  size   : Nat
  attr   : Attr
  ord    : MOrd
  scope  : Scope
  na     : Bool
  data   : List Byte
  cmp    : List Byte
  poison : Bool
  dest   : List Nat
  win    : Pos × Nat
  res    : List Reg
  flags  : BitVec 5
  bnd    : List Nat
  tr     : Bool
  plog   : Option (Nat × List Nat)
  pc     : Pos
  inst   : Nat
  mates  : List Nat
deriving DecidableEq, Repr

/-- What the source read of a copy has given: nothing yet, a fault code, or the bytes. -/
inductive CopySrc where
  | unread
  | stopped (code : Nat)
  | bytes (bs : List Byte)
deriving DecidableEq, Repr

/-- An outstanding per-thread copy (R254): its number (of its request too), thread, domain, function, level, tag, destination,
source, span, valid bytes, the time, the domain's snapshot and its bytes at issue, the number of its containment region, the position of its
instruction; what its source read gave (bytes or a code); once its status is written, the bytes that have still to land (R259). -/
structure Acpy where
  id     : Nat
  thr    : Nat
  dom    : DomKey
  fn     : Nat
  lvl    : Level
  tag    : Nat
  dst    : Nat
  src    : Nat
  span   : Nat
  v      : Nat
  seq    : Nat
  snap   : Know
  own    : Map Byte
  ownPoi : Bool
  rgn    : Nat
  pc     : Pos
  rd     : CopySrc
  data   : Option (List Byte)
deriving DecidableEq, Repr

/-- A task record (R142). -/
structure TaskRec where
  entry : Nat
  args  : Nat
  tile  : Nat
  succ  : Nat
  rbase : Nat
  wbase : Nat
  rlen  : Nat
  wlen  : Nat
  ctrl  : Nat
deriving DecidableEq, Repr

/-- Where a task in a slot stands (R150, R154, R157). -/
inductive TaskSt where
  | parked | waiting | half | bound
deriving DecidableEq, Repr

/-- A bind record that has been checked (R156, R301). -/
structure BindRec where
  ctl     : Bool
  twin    : Bool
  regbase : Nat
  scrbase : Nat
  row0    : Nat
  lbase   : Nat
  core    : Nat
  cluster : Nat
deriving DecidableEq, Repr

/-- A task slot (R130, R142): the copied record, its queue or handler, launch number, and what it waits for. -/
structure TaskSlot where
  slot    : Nat
  rec_    : TaskRec
  fn      : Nat
  queue   : Option Nat
  lq      : Nat
  launch  : Nat
  die     : Nat
  lvl     : Level
  asid    : Nat
  exkm    : Bool
  exkv    : Nat
  st      : TaskSt
  edges   : List Nat
  popped  : Bool
  handler : Option (Nat × Nat)
  binds   : List BindRec
deriving DecidableEq, Repr

/-- A binding of a queue register (R160, R425): endpoint, unit, whether it is broken, elements pushed and not yet taken (value, thread, place in
the order of arrival at the endpoints, R161). -/
structure QBind where
  ep   : Nat
  unit : Nat
  push : Bool
  brk  : Bool
  heads : List (Nat × Nat × Nat)
deriving DecidableEq, Repr

/-- The result of a primary-only instruction (R324): its number, its word and operand values, the registers and predicates
it left, the trap it took, and what it added to the signature (R322). -/
structure AssayRes where
  n     : Nat
  key   : List Nat
  regs  : List (Nat × Reg)
  preds : BitVec 7
  trap  : Option (Nat × Word)
  sig   : Word
deriving DecidableEq, Repr

/-- The state a crew keeps as a copy of an assay pair (R321 to R324): SIG, BSEQ, the results of primary-only instructions the
primary has published by number, the tuple it has presented, the thread that presented it, the verdict, and the release of
its last boundary. -/
structure Assay where
  sig   : Word
  bseq  : Nat
  log   : List AssayRes
  tuple : Option (Nat × Nat × Nat × Word)
  by_   : Nat
  verdict : Option Bool
  pubs  : List Nat
deriving DecidableEq, Repr

/-- A crew (R145, R146): its task, placement, the number of its first thread, queue bindings, claims of futures (space, VA), and its part in
an assay pair. -/
structure Crew where
  uid     : Nat
  base    : Nat
  slot    : Nat
  launch  : Nat
  fn      : Nat
  asid    : Nat
  exk     : Nat
  core    : Nat
  ctx     : Nat
  row0    : Nat
  lbase   : Nat
  regbase : Nat
  nregs   : Nat
  scrbase : Nat
  scrUnits : Nat
  n       : Nat
  lvl     : Level
  task    : TaskRec
  copy    : Nat
  peer    : Option Nat
  qb      : Map QBind
  claims  : List (Space × Nat)
  assay   : Assay
  excl    : Bool
deriving DecidableEq, Repr

/-- The lace bits of one lace of a warp (R204): MEM, ARR, PH by lane, and the keys for which it is broken. -/
structure Lace where
  mem    : BitVec 32
  arr    : BitVec 32
  ph     : BitVec 32
  broken : List Nat
deriving DecidableEq, Repr

/-- A crew barrier (R178), with the arrivals on their way to it: threads, and whether each drops (R179). -/
structure Barrier where
  owner   : Nat
  ownerFn : Nat
  init    : Bool
  brk     : Bool
  expect  : Nat
  arrived : Nat
  drops   : Nat
  phase   : Nat
  parts   : List Nat
  pend    : List (Nat × Bool)
deriving DecidableEq, Repr

/-- A port (R166). -/
structure Port where
  open_ : Bool
  gen   : Nat
  asid  : Nat
  fn    : Nat
  depth : Nat
  share : Bool
  queue : List (List Byte)
  prods : List Nat
  brk   : Bool
  sendq : List (Nat × List Byte)
deriving DecidableEq, Repr

/-- A pattern entry that is set (R171, R172): its owner, the level it was set at, its ports by key and generation. -/
structure Pattern where
  asid   : Nat
  fn     : Nat
  lvl    : Level
  armed  : Bool
  brk    : Bool
  ports  : List (Nat × Nat)
  prio   : Nat
  tmpl   : Nat
  ring   : Nat
  busy   : BitVec 16
  cursor : Nat
deriving DecidableEq, Repr

/-- A handler template that is set (R173). -/
structure Template where
  asid : Nat
  fn   : Nat
  lvl  : Level
  rec_ : TaskRec
deriving DecidableEq, Repr

/-- A node parked on a counter (R150): a task slot, or a channel of a die. -/
inductive Node where
  | task (slot : Nat)
  | channel (id : Nat)
deriving DecidableEq, Repr

/-- A registered dependence counter (R149, R431); its word is in memory. -/
structure Counter where
  gen    : Nat
  live   : Bool
  fn     : Nat
  asid   : Nat
  va     : Nat
  pa     : Nat
  parked : List Node
deriving DecidableEq, Repr

/-- A write that the device makes of itself at a home: a decrement of a counter by a node that knows `know`, on a core; one by a step table, which is a
boundary of the domain `key` of a function first (R242); a counter's break;
the break of a claim that the crew `holder` (its launch and copy) has left unfilled (R150, R152, R182). -/
inductive Chore where
  | dec (ix : Nat) (know : Know) (core : Nat)
  | step (ix : Nat) (know : Know) (key : DomKey) (fn : Nat)
  | brk (ix core : Nat)
  | claim (fn : Nat) (sp : Space) (core va holder : Nat)
deriving DecidableEq, Repr

/-- A transfer record as its channel read it (R262). -/
structure XferRec where
  next  : Nat
  src   : Nat
  dst   : Nat
  len   : Nat
  flags : Nat
  cnt   : Nat
deriving DecidableEq, Repr

/-- A record that a channel processes: the record, the bytes copied, whether from the end downward, what stood in source bytes that the copy
has overwritten (R266), and whether it has been published and its counter decremented. -/
structure XferWork where
  rec_ : XferRec
  prog : Nat
  down : Bool
  old  : Map (Byte × Bool)
  pub  : Bool
  dec  : Bool
deriving DecidableEq, Repr

/-- A channel of a block-transfer engine (R264), with the time of its CHSTART, the record that it processes, and whether an abort lets that record
complete (R271). -/
structure Channel where
  fn    : Nat
  dom   : DomKey
  thr   : Nat
  ltid  : Word
  lvl   : Level
  state : Nat
  code  : Nat
  rec_  : Nat
  gate  : Option Nat
  seq   : Option Nat
  watch : Option Watch
  know  : Know
  start : Nat
  work  : Option XferWork
  ending : Bool
deriving DecidableEq, Repr

/-- A shuffle command (R273): its token, owner and descriptor fields, and the source and index bytes when it was queued
(R277). -/
structure ShufCmd where
  token : Nat
  thr   : Nat
  crew  : Nat
  asid  : Nat
  cluster : Nat
  op    : Nat
  esize : Nat
  rows  : Nat
  cols  : Nat
  src   : Nat
  dst   : Nat
  idx   : Nat
  ss    : Nat
  ds    : Nat
  old     : Map Byte
deriving DecidableEq, Repr

/-- A matrix operand that is set (R306): format, sparsity, base, stride. -/
structure MxOp where
  fmt    : Nat
  sp     : Bool
  base   : Nat
  stride : Nat
deriving DecidableEq, Repr

/-- A matrix command with its issue-time operands (R304). -/
inductive MxCmd where
  | opA (o : MxOp)
  | opB (o : MxOp)
  | scale (mode sa sb : Nat)
  | sparse (base stride : Nat)
  | zero (t : Nat)
  | load (t fmt base stride m n : Nat)
  | mma (t k p m n : Nat)
  | store (t fmt base stride m n : Nat)
  | drain (t q : Nat)
deriving DecidableEq, Repr

/-- A matrix command in the queue: its thread, domain, level, the position of its instruction, its containment
region. -/
structure MxJob where
  cmd   : MxCmd
  thr   : Nat
  dom   : DomKey
  lvl   : Level
  pc    : Pos
  rgn   : Nat
deriving DecidableEq, Repr

/-- The state of a matrix engine (R302 to R317): the tiles' elements with poison marks by 16384 · tile + 128 · row + column, the
operands that commands have set, the queue (its head is the command in progress), MXPROG, the row of a drain, the record of
the fault it is stopped on, FSEQ, the deferred error, MXFLAGS, and the flags that the command in progress has set so far. -/
structure Mx where
  tiles   : Map (Word × Bool)
  a       : Option MxOp
  b       : Option MxOp
  mode    : Nat
  sa      : Nat
  sb      : Nat
  meta_   : Option (Nat × Nat)
  queue   : List MxJob
  prog    : Nat
  row     : Nat
  stop    : Option Nat
  fseq    : Nat
  defer   : Option (Nat × Word)
  flags   : BitVec 5
  cur     : BitVec 5
deriving DecidableEq, Repr

/-- A cluster's engines and endpoints: power (0 on, 1 clock-gated, 2 power-gated), the matrix engine, the shuffle engine's
queue, commands accepted, recent completions and bytes still to land (crew, scratch key, byte), the inbox and outbox rows and owner (R303), the port unit's start index (R177), the pattern whose firing
waits for the way to its ring, and the ports that break once it is made (R170). -/
structure Cluster where
  power  : Nat
  mx     : Mx
  shq    : List ShufCmd
  shTok  : Nat
  shDone : List (Nat × Nat)
  shLate : List (Nat × Nat × Byte)
  inbox  : List (List Word)
  outbox : List (List Word)
  ioOwn  : Option Nat
  start  : Nat
  firing : Option Nat
  breaks : List Nat
deriving DecidableEq, Repr

/-- A clean sector of an L1 (R221): its tag, space and VA / 32, and the time up to which it holds what was written. -/
structure L1Sec where
  space : Space
  sec   : Nat
  seq   : Nat
deriving DecidableEq, Repr

/-- A SIMT core's banks and scratchpad (R162, R218, R219): SPK, the contexts of the two banks, CTXSTAT fields, the owner
of each 8 KiB unit (its ASID and context), the next default key. -/
structure Core where
  spk    : Nat
  l1     : List L1Sec
  active : Option Nat
  shadow : Option Nat
  swaps  : Nat
  err    : Nat
  shSt   : Nat
  units  : Map (Nat × Nat)
  td     : Map Nat
deriving DecidableEq, Repr

/-- A saved core context at the base of its save area (R163), as the model's own record of the image: the origin core, COMPLETE,
the context, the cycle it left the core, the units to spill, and what they hold by unit offset (bytes, poisoned words). Its
threads and crews stay listed in `CoreSys`. -/
structure Saved where
  core     : Nat
  complete : Bool
  ctx      : Nat
  at_      : Nat
  units    : List Nat
  scr      : Map Byte
  scrPoi   : List Nat
deriving DecidableEq, Repr

/-- A ring's enable and the physical frames found when it was enabled (R450). -/
structure Ring where
  base   : Nat
  en     : Bool
  frames : List Nat
deriving DecidableEq, Repr

/-- The accept journal of a function (R136, R137). -/
structure Journal where
  ring  : Ring
  logsz : Nat
  head  : Nat
  tail  : Nat
  open_ : Nat
  ovf   : Bool
deriving DecidableEq, Repr

/-- A fault record whose access is parked or whose engine is stopped: SEQ, cause, ASID, who waits on it (R236, R237). -/
inductive FaultWho where
  | thread (uid : Nat)
  | channel (id : Nat)
  | matrix (cluster : Nat)
  | coll (die slot : Nat)
deriving DecidableEq, Repr

structure FaultRec where
  seq   : Nat
  cause : Nat
  asid  : Nat
  who   : FaultWho
deriving DecidableEq, Repr

/-- A kind-5 fault that found its ring full: what its record will hold (R236). -/
structure FaultWait where
  va    : Nat
  asid  : Nat
  ltid  : Word
  cwa   : Nat
  cause : Nat
  flags : Nat
  who   : FaultWho
deriving DecidableEq, Repr

/-- The place of a record's SEQ at an engine whose record waits for room; a SEQ has 32 bits. -/
def noSeq : Nat := 2 ^ 32

/-- A process park (R235): the ASID, the cycles of the five dies when its record was written, and the cores it has reached. -/
structure PPark where
  asid  : Nat
  at_   : List Nat
  cores : List Nat
deriving DecidableEq, Repr

/-- The translation, fault-queue and check registers of a function (R227, R236, R248, R350), its outstanding fault records,
its process parks (R235), and the engine faults that wait for a free slot. -/
structure FnMem where
  asctx   : Nat
  asctxEn : Bool
  s2root  : Nat
  s2En    : Bool
  pfq     : Ring
  pfqVec  : Nat
  pfqHead : Nat
  pfqTail : Nat
  recs    : List FaultRec
  waits   : List FaultWait
  pparks  : List PPark
  mixsz   : Bool
  win     : Nat
  lachk   : Bool
deriving DecidableEq, Repr

/-- A debug event (R331). -/
structure DbgEvent where
  ltid  : Word
  cause : Nat
  idx   : Nat
  a     : Nat
  hpos  : Bool
deriving DecidableEq, Repr

/-- A breakpoint comparator (R328). -/
structure DbgBp where
  idx  : Nat
  va   : Nat
  crew : Bool
  en   : Bool
deriving DecidableEq, Repr

/-- The debug registers of a function (R328, R331). -/
structure FnDbg where
  bps    : List DbgBp
  any    : Bool
  asid   : Nat
  en     : Bool
  tgt    : Word
  space  : Bool
  num    : Nat
  events : List DbgEvent
  evt    : Word
  eva    : Option DbgEvent
  ovf    : Bool
deriving DecidableEq, Repr

/-- The trace registers of a function (R332): watched regions (base, enable, length) and the ring. -/
structure FnTrace where
  regions : List (Nat × Bool × Nat)
  ring    : Ring
  head    : Nat
  tail    : Nat
  ovf     : Bool
deriving DecidableEq, Repr

/-- A function (R129 to R137, R57, R200, R443). -/
structure Fn where
  qCnts  : Nat
  qSlots : Nat
  qQueues : Nat
  uCnts  : Nat
  uSlots : Nat
  uQueues : Nat
  jnl    : Journal
  mem    : FnMem
  dbg    : FnDbg
  trace  : FnTrace
  tvecg  : Nat
  tvecgEn : Bool
  troute : BitVec 26
  tvech  : Nat
  tvechEn : Bool
  fissue : Nat
  rl     : Ring
  rlHead : Nat
  rlTail : Nat
  rlOvf  : Bool
deriving DecidableEq, Repr

/-- A queue as the device read it at ENABLE (R131). -/
structure Queue where
  enabled : Bool
  fn      : Nat
  lq      : Nat
  asid    : Nat
  exkm    : Bool
  exkv    : Nat
  priomax : Nat
  lvl     : Level
deriving DecidableEq, Repr

/-- The dispatch interface of a die (R155 to R159): the last popped launch number, the staged BINDW1, the last result,
CTXAREA, the policy that the firmware has read (QUANTUM, LANECAP, PREEMPT by function; none: the default) and the die's cycle then (R158), the
credit of each class and function (1024 · class + function), the class and function that the firmware visited last, whether the visit goes on
(R159), SWAPs that wait. -/
structure Dispatch where
  ready1  : Nat
  bindw1  : Word
  bindres : Nat
  ctxarea : Nat
  policy  : List (Nat × Nat × Nat)
  polAt   : Nat
  deficit : Map Nat
  turn    : Nat × Nat
  visit   : Bool
  pend    : List (Word × Word)
deriving DecidableEq, Repr

/-- A compute die (R21, R17, R70): its effective unit map, local cycle counter, and warm-reset state. -/
structure Die where
  umclu  : Nat
  umslc  : Nat
  umchn  : Nat
  umnor  : Nat
  cycle  : Nat
  drst   : Nat
  drerr  : Nat
  resets : Nat
  tdBase : Nat
deriving DecidableEq, Repr

/-- The package: the four compute dies, HD's cycle counter, the home map (an unlisted entry is interleave, R39),
HMDIES. -/
structure Pkg where
  dies    : List Die
  hdCycle : Nat
  homemap : Map Nat
  hmdies  : Nat
deriving DecidableEq, Repr

/-- The five states of the module (R23). -/
inductive PwSt where
  | off | boot | recovery | run | shutdown
deriving DecidableEq, Repr

/-- A channel's spares left and known-bad positions (R43, R51), as the repair map keeps them (R49): spare rows by SID,
spare banks, spare TSV lanes, known-bad positions by SID, and whether the channel is disabled. -/
structure Spare where
  rows  : List Nat
  banks : Nat
  lanes : Nat
  bad   : List (List Nat)
  off   : Bool
deriving DecidableEq, Repr

/-- A copy of the site part of the configuration record (R27): its sequence number, wear counters, training results by
4 · link + bin (the ends it was trained between, R32), and repair map by channel. Links: 0 to 9 die-to-die, 10 to 57 Norano ports,
58 to 313 memory channels. -/
structure Site where
  seq   : Nat
  wear  : Map Nat
  train : Map LinkEnds
  spare : Map Spare
deriving DecidableEq, Repr

/-- What the reset columns call cfg, apart from the units (R8): CAPW, VIEWSELF.INDEX, VIEWCFG's AGRTMO, SUSP and HBPER, BITMO. -/
structure Cfg where
  capw   : Nat
  index  : Nat
  agrtmo : Nat
  susp   : Nat
  hbper  : Nat
  bitmo  : Nat
deriving DecidableEq, Repr

/-- A copy of the factory part (R27): its sequence number, its unit map by die (clusters, slices, channels, Norano lanes), and the other fields
that boot loads from it (R8). Trim values, serial number and certificates are Config's. -/
structure Factory where
  seq : Nat
  clu : List Nat
  slc : List Nat
  chn : List Nat
  nor : List Nat
  cfg : Cfg
deriving DecidableEq, Repr

/-- The state of the thermal-cycle count of a unit (R34): E, X, and whether it rises. -/
structure Therm where
  e    : Int
  x    : Int
  rise : Bool
deriving DecidableEq, Repr

/-- Power, boot and the configuration record (R23 to R35): the state of the module, whether Shutdown has saved, a cold
reset that waits, PWRCAP, BOOTRPT, the throttle, the stored images by 2 · kind + slot and those that booted by kind (the SVN, and
the SHA-384 of an image that has been written since it was shipped), the security block's counters by kind, the two copies of the
factory part (by slot), the one that booted, and the two of the site part, saves that wait, wear counters by 8u + c, the
thermal counts by unit, the training results, the L2 slices that are powered down, the ends of the links and the coolant bin as boot
found them, whether Shutdown was entered without draining (R26), and the Norano lanes of each die that passed their last self-test (R19). -/
structure Power where
  st      : PwSt
  saved   : Bool
  coldReq : Bool
  capw    : Nat
  siten   : Bool
  unitoff : Nat
  retrain : Nat
  firstms : Nat
  thr     : Bool
  slots   : Map (Nat × Option (List Byte))
  booted  : Map (Nat × Option (List Byte))
  svn     : Map Nat
  fact    : Map Factory
  record  : Factory
  siteA   : Site
  siteB   : Site
  saves   : Nat
  wear    : Map Nat
  therm   : Map Therm
  train   : Map LinkEnds
  slcOff  : List Nat
  ends    : List LinkEnds
  bin     : Nat
  hot     : Bool
  lanes   : List Nat
deriving DecidableEq, Repr

/-- A repair (R47): kind 1 row, 2 bank, 3 TSV lane; its SID, bank, row or position. -/
structure Repair where
  kind : Nat
  sid  : Nat
  bank : Nat
  row  : Nat
deriving DecidableEq, Repr

/-- A repair in progress (R47): the request, the cycle it began, the row that is being copied and the cycle that copy began (a
TSV-lane repair copies nothing: the cycle the switch began). -/
structure Active where
  rep   : Repair
  start : Nat
  row   : Nat
  since : Nat
deriving DecidableEq, Repr

/-- A store that waits at its controller for the copy of a repair (R48): address, bytes, the cycle it arrived, the write it is, and whether its
data are poisoned. -/
structure WaitWr where
  pa     : Nat
  bs     : List Byte
  at_    : Nat
  w      : Wr
  poison : Bool
deriving DecidableEq, Repr

/-- A memory channel (R46 to R58): its spares, queued requests, the active repair, stores that wait for its copy (R48), the other accesses that it stalls (who: kind and numbers; the cycle each was first stalled,
R53), MHREP.DONE and STALLC, MHCNT, CHST, and the cycle when draining began. -/
structure Chan where
  sp     : Spare
  queue  : List Repair
  active : Option Active
  waits  : List WaitWr
  stuck  : List ((Nat × Nat × Nat) × Nat)
  done   : Nat
  stallc : Nat
  ce     : Nat
  ue     : Nat
  chst   : Nat
  drain  : Nat
deriving DecidableEq, Repr

/-- A correction or a request that counts toward a threshold of R46: channel, SID, bank, row, position, cycle. -/
structure Evid where
  ch   : Nat
  sid  : Nat
  bank : Nat
  row  : Nat
  pos  : Nat
  at_  : Nat
deriving DecidableEq, Repr

/-- The health of memory: channels by 32 · stack + channel, corrections, row-repair requests, blocks that gave one
uncorrectable read since their row's last repair (R55), frames at risk (R54). -/
structure Health where
  chans  : Map Chan
  ces    : List Evid
  reqs   : List Evid
  ues    : List Nat
  atRisk : List Nat
deriving DecidableEq, Repr

/-- A die-to-die link (R62): DLNK, the replays of the flit in flight, and the requests that it held while it was down, in order. -/
structure Link where
  retry  : Nat
  crcerr : Nat
  train  : Nat
  lrep   : Nat
  state  : Nat
  fails  : Nat
  queue  : List Nat
deriving DecidableEq, Repr

/-- A DRCTL command in progress (R63): die, CMD, KILLCTL, and the thread that waits, or with thread 0 the window page. -/
structure Drctl where
  die  : Nat
  cmd  : Nat
  kill : Bool
  thr  : Nat
  page : Nat
deriving DecidableEq, Repr

/-- What an access to an offline die belongs to (R72 to R74): a thread that parks, a request that was on its way when the die went
offline, a publication, an engine. -/
inductive HeldWho where
  | thread (uid : Nat)
  | req (id : Nat)
  | pub (uid : Nat)
  | acpy (id : Nat)
  | channel (id : Nat)
  | matrix (cluster : Nat)
  | coll (slot : Nat)
deriving DecidableEq, Repr

/-- A parked or held access (R70): the offline die, what it belongs to, its VA, and the cycle it began. -/
structure Held where
  die   : Nat
  who   : HeldWho
  va    : Nat
  start : Nat
deriving DecidableEq, Repr

/-- Links and warm reset (R62 to R76): links by number, the command in progress, the accesses parked or held, in issue
order, those that are to be issued again, in the order of their first issue (R69), and the maps of homes (HOMEMAP, HMDIES) that were in
force since the last CLEAN or ADMIT (R65, R66). -/
structure Links where
  dl   : Map Link
  cur  : Option Drctl
  held : List Held
  order : List HeldWho
  maps : List (Map Nat × Nat)
deriving DecidableEq, Repr

/-- A flit to send (R81): its TYPE, its destination module, its payload, the view tag of a data flit, and what travels with it. -/
structure NFlit where
  ty   : Nat
  dst  : Nat
  body : List Byte
  tag  : Nat
  x    : FlitInfo
deriving DecidableEq, Repr

/-- A Norano port (R83, R85): STATE, FECUNC, RETRY, PEER, the SEQ it expects, flits in a row that did not pass; the SEQ of its next flit,
its replay buffer (SEQ and flit, oldest first), the traffic it holds, its credits, and the replays of the oldest flit in a row. -/
structure NPort where
  state  : Nat
  fecunc : Nat
  retry  : Nat
  peer   : Nat
  exp    : Nat
  skip   : Nat
  seq    : Nat
  sent   : List (Nat × NFlit)
  outq   : List NFlit
  crd    : Nat
  tries  : Nat
deriving DecidableEq, Repr

/-- A proposal (R99): its view number and set, who made it, the acknowledgements and the operations they report fixed. -/
structure Proposal where
  num   : Nat
  set   : List Nat
  from_ : Nat
  acks  : List Nat
  fixed : List Nat
deriving DecidableEq, Repr

/-- A rejoin in progress (R103): the waiting thread, buffer and length at the rejoiner; at the donor the rejoiner. -/
structure Rejoin where
  thr   : Nat
  va    : Nat
  len   : Nat
  peer  : Nat
  donor : Bool
deriving DecidableEq, Repr

/-- Membership (R96 to R105): VIEWNUM, members, STATE, CHANGES, VIEWSELF, VIEWCFG, SYNCBASE, SYNCLEN, suspects, the cycle
each member was last heard, the last heartbeat, the proposal accepted, when agreement began, the bitmap of a formation, a
rejoin. -/
structure View where
  num      : Nat
  members  : List Nat
  state    : Nat
  changes  : Nat
  self_    : Nat
  agrtmo   : Nat
  susp     : Nat
  hbper    : Nat
  syncbase : Nat
  synclen  : Nat
  suspects : List Nat
  heard    : Map Nat
  hbAt     : Nat
  prop     : Option Proposal
  agrAt    : Nat
  forming  : Option (List Nat)
  rejoin   : Option Rejoin
deriving DecidableEq, Repr

/-- A value of a collective (R92): FP32 bits, and whether it is poisoned. -/
abbrev CVal := Nat × Bool

/-- A collective operation (R86 to R95): its issuer, the fields of its descriptor, original and present member set, view tag,
runs; where the run stands (`next` of its actions; `wait`: 1 until a view installs, 2 until a view holds every member again, 3
for a fixed result), its contribution, the data of flits received by source, step and chunk with what came beside them, the weights of the
members it knows, the result as far as it is here,
the final result once it is held, and the result whole as the root of the tree holds it; the window of a put or get; D, flags, RERUN, REBCAST; the code once the operation ends; its
table entries and whether each has fired, steps completed in some run, the record of the fault it waits under, whether it is
over, what its reads know, the release of its completion, the containment region where it was issued. An operation whose issuing
crew was killed names crew 0: nobody waits for it. -/
structure CollOp where
  gen    : Nat
  thr    : Nat
  crew   : Nat
  fn     : Nat
  asid   : Nat
  dom    : DomKey
  lvl    : Level
  ltid   : Word
  die    : Nat
  op     : Nat
  red    : Nat
  fmt    : Nat
  mode   : Nat
  vtrap  : Bool
  peer   : Nat
  src    : Nat
  dst    : Nat
  count  : Nat
  weight : Nat
  key    : Nat
  status : Nat
  offset : Nat
  orig   : List Nat
  set    : List Nat
  tag    : Nat
  runs   : Nat
  next   : Nat
  wait   : Nat
  part   : List CVal
  got    : Map (List Byte × FlitInfo)
  ws     : Map Nat
  buf    : List CVal
  final  : Option (List CVal)
  whole  : List CVal
  win    : Option (Bool × Nat × Nat)
  div    : Nat
  flags  : BitVec 5
  rerun  : Bool
  rebc   : Bool
  code   : Option Nat
  steps  : List (StepEnt × Bool)
  past   : List Nat
  fseq   : Option Nat
  written : Bool
  know   : Know
  rel    : List Nat
  rgn    : Nat
deriving DecidableEq, Repr

/-- A data flit of a collective (R81): the module it comes from, KEY, view tag, step, chunk, the bytes of its elements, what came beside
them. Step 0 carries no elements: the sizes of a point-to-point operation (chunk 0), a break notice (chunk 1). -/
structure CFlit where
  src   : Nat
  key   : Nat
  tag   : Nat
  step  : Nat
  chunk : Nat
  data  : List Byte
  x     : FlitInfo
deriving DecidableEq, Repr

/-- The Norano side (R79 to R105): ports, NRTBASE, the view, operations by 256 · die + slot, generations, delivered flits, the
operations that are over whose final result is still held, by KEY (R100). -/
structure Norano where
  ports   : Map NPort
  nrtbase : Nat
  view    : View
  ops     : Map CollOp
  gens    : Map Nat
  inq     : List CFlit
  finals  : Map CollOp
deriving DecidableEq, Repr

/-- Who makes an access: a thread (0: none), the number of its path, an engine's own number (a channel or a collective operation, plus one), a
core. -/
structure Who where
  thr  : Nat
  path : Nat
  eng  : Nat
  core : Nat
deriving DecidableEq, Repr

/-- A back-invalidate snoop that has been sent (R112, R113): when, whose access caused it, and the host requests held behind it. -/
structure Snoop where
  start : Nat
  by_   : Who
  held  : List HostReq
deriving DecidableEq, Repr

/-- An entry of a sharing detector (R114). -/
structure Detect where
  stk   : Nat
  line  : Nat
  first : Nat
  count : Nat
deriving DecidableEq, Repr

/-- A record of the sharing queue that is held (R115): KIND, line, stack. -/
structure SmqRec where
  kind : Nat
  line : Nat
  stk  : Nat
deriving DecidableEq, Repr

/-- A CXL port (R118) and its HDM decoder (R107, R108): interleave ways (0: not programmed) and the base HPA. -/
structure CxlPort where
  bisnp : Nat
  dropw : Nat
  width : Nat
  gen   : Nat
  state : Nat
  ways  : Nat
  base  : Nat
deriving DecidableEq, Repr

/-- The host side (R107 to R127): lines the host owns with their grant order, snoops in progress, the sharing detectors
(most recent first), HCCFG, SMQBASE, SMQHEAD, SMQTAIL, SSBASE, frames read as software-shared, the two ports, the MESI
state of host half-lines (1 S, 2 E, 3 M; unlisted I), D2H requests that wait for GO, host requests held for an offline
die (R75) or behind a snoop that is over, and the lines whose snoop is over while the access that caused it is still to be served, with
its thread (R113). -/
structure HostSys where
  own     : Map Nat
  grants  : Nat
  snoops  : Map Snoop
  det     : List Detect
  tgt     : Nat
  iid     : Nat
  bitmo   : Nat
  smqBase : Nat
  smqEn   : Bool
  smqHead : Nat
  smqTail : Nat
  smqOvf  : Bool
  smqHeld : List SmqRec
  ssBase  : Nat
  ssEn    : Bool
  shared  : List Nat
  ports   : List CxlPort
  mesi    : Map Nat
  d2h     : Map Nat
  heldReq : List HostReq
  owed    : Map Who
deriving DecidableEq, Repr

/-- What the device sends outward: interrupts, CXL messages, results of host and firmware accesses, Norano messages. -/
inductive Out where
  | msix (fn vec : Nat)
  | irq (core iid : Nat)
  | cmp (pa st : Nat) (b : List Byte) (poison : Bool)
  | bisnp (line : Nat)
  | biack (line : Nat)
  | rsp (half st : Nat) (b : List Byte) (poison : Bool)
  | cdat (base size : Nat)
  | excluded (chans : List Nat)
  | d2h (half req : Nat)
  | dmwr (page code : Nat)
  | ur (page : Nat)
  | value (at_ : Nat) (v : Word)
  | bytes (b : List Byte)
  | norano (port : Nat) (f : List Byte) (x : FlitInfo)
  | engine (cause tval : Nat)
deriving DecidableEq, Repr

/-- The memory system: bytes of memory by PA (an unlisted byte is `memDefault`), poisoned 64-byte blocks (R44), blocks that are poisoned in
memory under a line that L2 holds newer (R45), the
writes that reads may still see (newest first, by PA), the boundaries, the domains, L2 lines, cached translations, the
recent strong accesses of R248, scratchpad bytes by (cluster, core, offset) and poisoned scratchpad words (R407). -/
structure MemSys where
  bytes  : Map Byte
  poison : List Nat
  deep   : List Nat
  hist   : Map (List (Byte × Wr))
  bnds   : List Bnd
  seq    : Nat
  doms   : List Domain
  l2     : List L2Line
  tlb    : List TlbE
  invs   : List Inval
  strong : List (Nat × Nat × Nat × Nat)
  scr    : Map Byte
  scrPoi : List Nat
deriving DecidableEq, Repr

/-- The task system (R129 to R160, R166 to R188): functions, queues and their names, task slots by number, the next
launch number and the accept order, counters by index, writes of the device that wait for their home, each with whether the sharing queue
has been told (R116), channels, ports, patterns, templates, dispatch interfaces. -/
structure TaskSys where
  fns      : Map Fn
  queues   : Map Queue
  qnames   : Map Nat
  qtbase   : Nat
  slots    : Map TaskSlot
  launch   : Nat
  counters : Map Counter
  chores   : List (Chore × Bool)
  channels : Map Channel
  ports    : Map Port
  patterns : Map Pattern
  tmpls    : Map Template
  disp     : Map Dispatch
  schbase  : Nat
  schEn    : Bool
deriving DecidableEq, Repr

/-- The cores (R191, R162, R299): threads, executing groups, crews, laces by (context, row, lace), barriers by (context,
number), SIMT cores, clusters, outstanding requests and copies, saved contexts by base, and the next numbers of threads,
crews, contexts, requests and pushed elements. -/
structure CoreSys where
  threads  : List Thread
  groups   : List Group
  crews    : List Crew
  laces    : Map Lace
  barriers : Map Barrier
  cores    : Map Core
  clusters : Map Cluster
  reqs     : List Req
  acpys    : List Acpy
  saved    : Map Saved
  nextThr  : Nat
  nextCrew : Nat
  nextCtx  : Nat
  nextReq  : Nat
  nextEl   : Nat
deriving DecidableEq, Repr

/-- A register access by an agent that is no thread (R140): at level H or at G of a function (the function shown), the
register, the value written or none for a read. -/
structure RegCmd where
  h   : Bool
  fn  : Nat
  reg : Nat
  v   : Option Word
deriving DecidableEq, Repr

/-- What stands beside the spec's state: the events to come (`agenda`; none stands for a step of the
machine's own in between), the cycles that the next steps take on CD0 to CD3 and HD (`clock`,
1 where none is listed), the counter of free values, the group and word that the present step executes, the groups that steps since the last
other event found waiting at their instruction (R198), the number that the
requests of the present step share, the elements its
members have popped by thread and the elements they push (thread, queue register, value), the threads whose element stands at its endpoint
while others of its row still wait for room (R160), the threads whose trap entry or return the last step performed (R334), register accesses of other agents
to come, and what the device has sent outward (newest first). -/
structure Ext where
  agenda : List (Option Instr)
  clock  : List (List Nat)
  fresh  : Nat
  cur    : Option Group
  passed : List Group
  iword  : Word
  inst   : Nat
  pops   : Map Word
  pushes : List (Nat × Nat × Word)
  placed : List Nat
  entering : List Nat
  cmds   : List RegCmd
  out    : List Out
deriving DecidableEq, Repr

/-- A page of the system-register window (R140): its selectors, its error doubleword, and a write that waits (`mark` as a thread's). -/
structure WinPage where
  sel  : Sel
  err  : Word
  mark : Option Nat
deriving DecidableEq, Repr

/-- The enqueue port of an application core (R135): the staged bytes and the result of the last trigger. -/
structure AppPort where
  stage  : Map Byte
  result : Nat
deriving DecidableEq, Repr

/-- The outward side of the package: power and boot, memory health, links, Norano, host, window pages and the window accesses that
wait (page, register, value of a store), enqueue ports, and
the top-down selection and snapshot (R335). -/
structure Plat where
  power  : Power
  health : Health
  links  : Links
  nor    : Norano
  host   : HostSys
  pages  : Map WinPage
  winq   : List (Nat × Nat × Option Word)
  apps   : Map AppPort
  tdsel  : Nat
  tdleaf : Nat
  tdsnap : Map Nat
deriving DecidableEq, Repr

/-- The state of the machine. -/
structure State where
  ext  : Ext
  pkg  : Pkg
  mem  : MemSys
  core : CoreSys
  task : TaskSys
  plat : Plat
deriving DecidableEq, Repr

/-- Why a step stops the machine. -/
inductive Fault where
  /-- Raised by `step` alone: the module is in Off (R23) and nothing is to come. Safe: an unpowered machine does nothing. -/
  | powerOff
deriving DecidableEq, Repr

/-- Why a meaning is refused. -/
inductive Refusal where
  /-- Raised by an arm of `exec` whose instruction has no meaning yet. Safe: nothing is claimed of it. -/
  | notModelled (mnemonic : String)
deriving DecidableEq, Repr

/-- A function at reset. -/
def Fn.reset : Fn where
  qCnts := 0
  qSlots := 0
  qQueues := 0
  uCnts := 0
  uSlots := 0
  uQueues := 0
  jnl := ⟨⟨0, false, []⟩, 0, 0, 0, 0, false⟩
  mem := ⟨0, false, 0, false, ⟨0, false, []⟩, 0, 0, 0, [], [], [], false, 1024, false⟩
  dbg := ⟨List.replicate 8 ⟨0, 0, false, false⟩, true, 0, false, 0, false, 0, [], BitVec.allOnes 64, none, false⟩
  trace := ⟨List.replicate 16 (0, false, 0), ⟨0, false, []⟩, 0, 0, false⟩
  tvecg := 0
  tvecgEn := false
  troute := 0
  tvech := 0
  tvechEn := false
  fissue := 0
  rl := ⟨0, false, []⟩
  rlHead := 0
  rlTail := 0
  rlOvf := false

def Mx.reset : Mx := ⟨[], none, none, 0, 0, 0, none, [], 0, 0, none, 0, none, 0, 0⟩

def Cluster.reset : Cluster := ⟨0, Mx.reset, [], 0, [], [], [], [], none, 0, none, []⟩

def Core.reset : Core := ⟨2, [], none, none, 0, 0, 0, [], []⟩

def Lace.reset : Lace := ⟨0, 0, 0, []⟩

def Barrier.reset : Barrier := ⟨0, 0, false, false, 0, 0, 0, 0, [], []⟩

def Port.reset : Port := ⟨false, 0, 0, 0, 0, false, [], [], false, []⟩

def Counter.reset : Counter := ⟨0, false, 0, 0, 0, 0, []⟩

def Dispatch.reset : Dispatch := ⟨0, 0, 0, 0, [], 0, [], (7, 0), false, []⟩

def TrapBank.reset : TrapBank := ⟨0, 0, 0, 0, false, .u⟩

def FaultRegs.reset : FaultRegs := ⟨0, false, 0, 0, 0, 0, 0, false, 0⟩

def Seen.reset : Seen := ⟨⟨0, []⟩, [], [], []⟩

def Assay.reset : Assay := ⟨0, 0, [], none, 0, none, []⟩

def Attr.reset : Attr := ⟨0, false, 0, 0, true, true, true, 0, true, true⟩

/-- What a byte of memory that nothing has written reads as (DESIGN CHOICE, log 3). -/
def memDefault : Byte := 0

/-- A compute die at reset: every unit of the full part enabled (DESIGN CHOICE, log 4), its counter 0, admitted. -/
def Die.reset : Die := ⟨2 ^ 40 - 1, 2 ^ 64 - 1, 2 ^ 64 - 1, 2 ^ 48 - 1, 0, 0, 0, 0, 0⟩

def Pkg.reset : Pkg := ⟨[Die.reset, Die.reset, Die.reset, Die.reset], 0, [], 15⟩

def WinPage.reset : WinPage := ⟨⟨0, 0, 0, 0⟩, 0, none⟩

def MemSys.reset : MemSys := ⟨[], [], [], [], [], 1, [], [], [], [], [], [], []⟩

def CoreSys.reset : CoreSys := ⟨[], [], [], [], [], [], [], [], [], [], 1, 1, 1, 1, 1⟩

def TaskSys.reset : TaskSys := ⟨[], [], [], 0, [], 1, [], [], [], [], [], [], [], 0, false⟩

def Ext.reset : Ext := ⟨[], [], 0, none, [], 0, 0, [], [], [], [], [], []⟩

/-- The spares of a channel that has had no repair (R51). -/
def Spare.reset : Spare := ⟨[32, 32, 32, 32], 2, 8, [[], [], [], []], false⟩

def Site.reset : Site := ⟨1, [], [], []⟩

/-- The factory part of the full part (DESIGN CHOICE, log 4). -/
def Factory.reset : Factory where
  seq := 1
  clu := List.replicate 4 (2 ^ 40 - 1)
  slc := List.replicate 4 (2 ^ 64 - 1)
  chn := List.replicate 4 (2 ^ 64 - 1)
  nor := List.replicate 4 (2 ^ 48 - 1)
  cfg := ⟨4000, 0, 1450, 18555, 1856, 512⟩

/-- Run with an accepted image of SVN 0 in slot A of each kind (DESIGN CHOICE, log 4); the cap is 4,000 W. -/
def Power.reset : Power :=
  let img : Nat × Option (List Byte) := (0, none)
  ⟨.run, false, false, 4000, false, 0, 0, 0, false, [(2, img), (4, img), (6, img), (8, img), (10, img)],
    [(1, img), (2, img), (3, img), (4, img), (5, img)], [], [(0, Factory.reset), (1, Factory.reset)], Factory.reset, Site.reset, Site.reset, 0, [], [],
    [], [], [], 0, false, List.replicate 4 (2 ^ 48 - 1)⟩

def Chan.reset : Chan := ⟨Spare.reset, [], none, [], [], 0, 0, 0, 0, 0, 0⟩

def Health.reset : Health := ⟨[], [], [], [], []⟩

/-- A link as the reset column of R62 gives it. Traffic is held only once an event has taken the link down (log 4). -/
def Link.reset : Link := ⟨0, 0, 0, 0, 0, 0, []⟩

def Links.reset : Links := ⟨[], none, [], [], []⟩

def NPort.reset : NPort := ⟨0, 0, 0, 0x7FF, 0, 0, 0, [], [], 0, 0⟩

def View.reset : View := ⟨0, [], 0, 0, 0, 1450, 18555, 1856, 0, 0, [], [], 0, none, 0, none, none⟩

def Norano.reset : Norano := ⟨[], 0, View.reset, [], [], [], []⟩

def CxlPort.reset : CxlPort := ⟨0, 0, 0, 0, 0, 0, 0⟩

def HostSys.reset : HostSys :=
  ⟨[], 0, [], [], 0, 0, 512, 0, false, 0, 0, false, [], 0, false, [], [CxlPort.reset, CxlPort.reset], [], [], [], []⟩

def Plat.reset : Plat :=
  ⟨Power.reset, Health.reset, Links.reset, Norano.reset, HostSys.reset, [], [], [], 0, 0, []⟩

/-- The machine right after a cold boot, before any software runs (R8, R23). -/
def State.reset : State := ⟨Ext.reset, Pkg.reset, MemSys.reset, CoreSys.reset, TaskSys.reset, Plat.reset⟩

end Sys2Proof.Machine
end

