-- ==== Sys2Proof/Machine/Maps.lean ====
section
/-! DEFINITION. Sparse maps (keys strictly rising) and finite sets of numbers (strictly rising lists). -/

namespace Sys2Proof.Machine

/-- The value at a key. -/
def Map.find {α : Type} : Map α → Nat → Option α
  | [], _ => none
  | (j, v) :: m, k => if j = k then some v else Map.find m k

/-- The value at a key, d where none is listed. -/
def Map.getD {α : Type} (m : Map α) (d : α) (k : Nat) : α := (m.find k).getD d

/-- The map with v at key k. -/
def Map.put {α : Type} : Map α → Nat → α → Map α
  | [], k, v => [(k, v)]
  | (j, w) :: m, k, v => if k < j then (k, v) :: (j, w) :: m else if k = j then (k, v) :: m else (j, w) :: Map.put m k v

/-- The map without key k. -/
def Map.del {α : Type} : Map α → Nat → Map α
  | [], _ => []
  | (j, w) :: m, k => if j = k then m else (j, w) :: Map.del m k

/-- The map with v at k, where an unlisted key reads d: a value equal to d is not listed. -/
def Map.setD {α : Type} [DecidableEq α] (m : Map α) (d : α) (k : Nat) (v : α) : Map α :=
  if v = d then m.del k else m.put k v

/-- The map with the value at k (d where none) changed by f. -/
def Map.modD {α : Type} (m : Map α) (d : α) (k : Nat) (f : α → α) : Map α := m.put k (f (m.getD d k))

/-- The values of a map in key order. -/
def Map.vals {α : Type} (m : Map α) : List α := m.map (·.2)

/-- The canonical form of a sparse map: keys strictly rising. -/
def Map.sorted {α : Type} : Map α → Bool
  | [] => true
  | [_] => true
  | (j, _) :: (k, v) :: m => decide (j < k) && Map.sorted ((k, v) :: m)

/-- The canonical form where an unlisted key reads d: keys strictly rising, no value equal to d. -/
def Map.canon {α : Type} [DecidableEq α] (m : Map α) (d : α) : Bool := m.sorted && m.all (fun e => e.2 != d)

/-- A set of numbers with one more. -/
def setIns : List Nat → Nat → List Nat
  | [], k => [k]
  | j :: m, k => if k < j then k :: j :: m else if k = j then j :: m else j :: setIns m k

/-- A set of numbers with one fewer. -/
def setDel (m : List Nat) (k : Nat) : List Nat := m.filter (· != k)

/-- The union of two sets of numbers. -/
def setUnion (a b : List Nat) : List Nat := b.foldl setIns a

/-- The map with consecutive values from key k on. -/
def Map.putList {α : Type} (m : Map α) (k : Nat) : List α → Map α
  | [] => m
  | v :: vs => Map.putList (m.put k v) (k + 1) vs

/-- A list with its n-th element changed by f. -/
def modNth {α : Type} (f : α → α) : List α → Nat → List α
  | [], _ => []
  | x :: xs, 0 => f x :: xs
  | x :: xs, n + 1 => x :: modNth f xs n

end Sys2Proof.Machine
end

