-- ==== Sys2Proof/Machine/Acc.lean ====
section
/-! DEFINITION. Accessors of the state: free choices, time, cores and dies, threads, crews, registers, predicates. -/

namespace Sys2Proof.Machine

def State.onExt (s : State) (f : Ext → Ext) : State := { s with ext := f s.ext }
def State.onPkg (s : State) (f : Pkg → Pkg) : State := { s with pkg := f s.pkg }
def State.onMem (s : State) (f : MemSys → MemSys) : State := { s with mem := f s.mem }
def State.onCore (s : State) (f : CoreSys → CoreSys) : State := { s with core := f s.core }
def State.onTask (s : State) (f : TaskSys → TaskSys) : State := { s with task := f s.task }
def State.onPlat (s : State) (f : Plat → Plat) : State := { s with plat := f s.plat }
def State.onPower (s : State) (f : Power → Power) : State := s.onPlat fun p => { p with power := f p.power }
def State.onHealth (s : State) (f : Health → Health) : State := s.onPlat fun p => { p with health := f p.health }
def State.onLinks (s : State) (f : Links → Links) : State := s.onPlat fun p => { p with links := f p.links }
def State.onNor (s : State) (f : Norano → Norano) : State := s.onPlat fun p => { p with nor := f p.nor }
def State.onHost (s : State) (f : HostSys → HostSys) : State := s.onPlat fun p => { p with host := f p.host }

/-- The device sends something outward. -/
def State.emit (s : State) (o : Out) : State := s.onExt fun e => { e with out := o :: e.out }

/-- One of n choices (R9): a free value below n. With one choice nothing is drawn. -/
def choose (n : Nat) (s : State) : Nat × State :=
  if n ≤ 1 then (0, s) else (Config.freeNat s.ext.fresh % n, s.onExt fun e => { e with fresh := e.fresh + 1 })

/-- A free choice of one element of a list; d for an empty list. -/
def chooseFrom {α : Type} (l : List α) (d : α) (s : State) : α × State :=
  let (k, s) := choose l.length s
  (l.getD k d, s)

/-- A free bit. -/
def chooseBool (s : State) : Bool × State :=
  let (k, s) := choose 2 s
  (k == 1, s)

/-! Cores: SIMT core n of cluster c of die d is core (40 d + c) · 5 + n; its control core has n = 4. -/

def isCtl (core : Nat) : Bool := core % 5 == 4
def clusterOf (core : Nat) : Nat := core / 5
def dieOf (core : Nat) : Nat := core / 200
def coreNo (die cluster n : Nat) : Nat := (die * 40 + cluster) * 5 + n

def Pkg.die (p : Pkg) (d : Nat) : Die := p.dies.getD d Die.reset

def State.modDie (s : State) (d : Nat) (f : Die → Die) : State := s.onPkg fun p => { p with dies := modNth f p.dies d }

/-- The local cycle of a die (R17); 4 is HD. -/
def State.cycleOf (s : State) (d : Nat) : Nat := if d < 4 then (s.pkg.die d).cycle else s.pkg.hdCycle

/-- Time passes: the counters of the dies are not synchronised, so each goes on by its own number of cycles (R4, R17), one at least. -/
def State.tick (s : State) : State :=
  let n := s.ext.clock.headD []
  let s := s.onExt fun e => { e with clock := e.clock.tail }
  s.onPkg fun p => { p with
    dies := (p.dies.zip (rangeFrom 0 p.dies.length)).map fun d => { d.1 with cycle := (d.1.cycle + Nat.max 1 (n.getD d.2 1)) % 2 ^ 64 }
    hdCycle := (p.hdCycle + Nat.max 1 (n.getD 4 1)) % 2 ^ 64 }

def State.clusterAt (s : State) (k : Nat) : Cluster := s.core.clusters.getD Cluster.reset k

def State.modCluster (s : State) (k : Nat) (f : Cluster → Cluster) : State :=
  s.onCore fun c => { c with clusters := c.clusters.modD Cluster.reset k f }

def State.coreAt (s : State) (k : Nat) : Core := s.core.cores.getD Core.reset k

def State.modCoreAt (s : State) (k : Nat) (f : Core → Core) : State :=
  s.onCore fun c => { c with cores := c.cores.modD Core.reset k f }

def State.fnAt (s : State) (f : Nat) : Fn := s.task.fns.getD Fn.reset f

def State.modFn (s : State) (f : Nat) (g : Fn → Fn) : State :=
  s.onTask fun t => { t with fns := t.fns.modD Fn.reset f g }

/-! Window pages. -/

def State.page (s : State) (p : Nat) : WinPage := s.plat.pages.getD WinPage.reset p

def State.modPage (s : State) (p : Nat) (f : WinPage → WinPage) : State :=
  s.onPlat fun k => { k with pages := k.pages.modD WinPage.reset p f }

/-! Threads. -/

def State.thread? (s : State) (u : Nat) : Option Thread := s.core.threads.find? fun t => t.uid == u

def Thread.none_ : Thread where
  uid := 0
  id := ⟨0, 0, 0, 0, 0, 0, 0, 0, 0, 0, 0, none, 0⟩
  lvl := .u
  pos := ⟨0, 0⟩
  clause := []
  run := .ready
  ready := 0
  yielded := false
  regs := []
  preds := 0
  fflags := 0
  tls := 0
  rsd := 0
  rstk := []
  fr := FaultRegs.reset
  bankG := TrapBank.reset
  bankH := TrapBank.reset
  ct := []
  ctinfo := (0, 0, 0)
  cnt := (0, 0, 0)
  sel := ⟨0, 0, 0, 0⟩
  watch := none
  seen := Seen.reset
  steps := []
  stepping := false
  stopReq := false
  reissue := false
  prims := 0
  mark := none

/-- The thread with number u; a thread of no crew where there is none. -/
def State.thread (s : State) (u : Nat) : Thread := (s.thread? u).getD Thread.none_

def State.modThread (s : State) (u : Nat) (f : Thread → Thread) : State :=
  s.onCore fun c => { c with threads := c.threads.map fun t => if t.uid == u then f t else t }

def State.crew? (s : State) (u : Nat) : Option Crew := s.core.crews.find? fun c => c.uid == u

def State.modCrew (s : State) (u : Nat) (f : Crew → Crew) : State :=
  s.onCore fun c => { c with crews := c.crews.map fun t => if t.uid == u then f t else t }

def Thread.isCtl (t : Thread) : Bool := Machine.isCtl t.id.core

/-- The threads of a crew. -/
def State.crewThreads (s : State) (c : Nat) : List Thread := s.core.threads.filter fun t => t.id.crew == c

/-- A thread's context is in the active bank of its core (R162); a control core has no banks. -/
def State.resident (s : State) (t : Thread) : Bool := t.isCtl || (s.coreAt t.id.core).active == some t.id.ctx

/-- A crew's context is in a bank of its core: it has not been spilled. -/
def State.banked (s : State) (c : Crew) : Bool :=
  Machine.isCtl c.core || (s.coreAt c.core).active == some c.ctx || (s.coreAt c.core).shadow == some c.ctx

/-- A thread runs an H handler: its addresses are physical (R444). -/
def Thread.inH (t : Thread) : Bool := t.lvl == .h && t.bankH.inh

/-- The levels in order. -/
def Level.num : Level → Nat
  | .u => 0
  | .g => 1
  | .h => 2

/-- The number of a thread's innermost containment region, 0 outside any. -/
def Thread.rgn (t : Thread) : Nat := (t.ct.head?.map (·.id)).getD 0

/-- The region in which a thread started a request (R326): regions and requests are numbered alike. -/
def Thread.rgnOf (t : Thread) (req : Nat) : Nat := ((t.ct.find? fun r => decide (r.id ≤ req)).map (·.id)).getD 0

/-- A thread is in a trap handler (R212, R215). -/
def Thread.inHandler (t : Thread) : Bool :=
  match t.lvl with
  | .h => t.bankH.inh
  | .g => t.bankG.inh
  | .u => false

/-- The address space of a thread's accesses. -/
def Thread.space (t : Thread) : Space := if t.inH then .phys else .asid t.id.asid

/-- The phase domain of a thread (R241, R321, R444). -/
def State.domKey (s : State) (t : Thread) : DomKey :=
  let copy := match s.crew? t.id.crew with
    | some c => if c.peer.isSome then c.uid else 0
    | none => 0
  ⟨t.id.core, t.space, copy⟩

/-- LTID as a 64-bit value (R194). -/
def Thread.ltid (t : Thread) : Word := BitVec.ofNat 64 (t.id.tid * 2 ^ 48 + t.id.copy * 2 ^ 32 + t.id.launch)

/-- The local cycle of a thread's die. -/
def State.now (s : State) (t : Thread) : Nat := s.cycleOf (dieOf t.id.core)

/-! Registers. -/

/-- A register at launch (R146). -/
def Reg.zero : Reg := ⟨0, .b32⟩

def Thread.reg (t : Thread) (n : Nat) : Reg := t.regs.getD Reg.zero n

def Thread.setReg (t : Thread) (n : Nat) (r : Reg) : Thread := { t with regs := t.regs.setD Reg.zero n r }

/-- Predicate p; p7 is always true (R340). -/
def Thread.pred (t : Thread) (p : Nat) : Bool := if p < 7 then t.preds.getLsbD p else true

def Thread.setPred (t : Thread) (p : Nat) (b : Bool) : Thread :=
  if p < 7 then
    { t with preds := BitVec.ofNat 7 (setBits t.preds.toNat p p b.toNat) }
  else t

/-- The guard of an instruction holds for the thread (R340). -/
def Thread.guardOk (t : Thread) (g : Guard) : Bool := t.pred g.sel.val != g.neg

/-- The number of registers a thread may name (R346). -/
def State.nregs (s : State) (t : Thread) : Nat :=
  if t.isCtl then 64 else match s.crew? t.id.crew with
    | some c => c.nregs
    | none => 224

end Sys2Proof.Machine
end

