-- ==== Sys2Proof/Machine/Home.lean ====
section
/-! DEFINITION. Home slices, the remap filter, the bytes of memory, and address translation (spec/02 R37 to R44, R451;
spec/10 R217 to R233; spec/11 R242 to R262). -/

namespace Sys2Proof.Machine

/-- The fabric, the memory and the host's ports work: in Run, and in Shutdown until the state has been saved and the stacks are in self-refresh
(R23). -/
def State.live (s : State) : Bool := s.plat.power.st == .run || (s.plat.power.st == .shutdown && !s.plat.power.saved)

/-! Homes (R40, R451). -/

/-- The numbers of the set bits of a mask below n, ascending. -/
def bitList (mask n : Nat) : List Nat := (rangeFrom 0 n).filter (bitOf mask)

/-- The slice hash of R40 over the enabled slices of a die. -/
def sliceOf (s : State) (die a : Nat) : Nat :=
  let x := bitsOf a 29 8
  let hs := (x ^^^ (x / 2 ^ 11)) % 2 ^ 11
  let sl := bitList (s.pkg.die die).umslc 64
  sl.getD (hs % sl.length) 0

/-- The home die and slice of a virtual address (R40). -/
def homeOf (s : State) (va : Nat) : Nat × Nat :=
  let t := s.pkg.homemap.getD 4 (bitsOf va 37 30)
  let g := bitsOf va 29 12
  let h := g ^^^ (g / 2 ^ 6) ^^^ (g / 2 ^ 12)
  let dl := bitList s.pkg.hmdies 4
  let die := if t ≤ 3 then t else dl.getD (h % dl.length) 0
  (die, sliceOf s die va)

/-- The home of a physical address of an H handler on a core (R451). -/
def homePa (s : State) (core pa : Nat) : Nat × Nat :=
  let die := if bitOf pa 51 then dieOf core else bitsOf pa 38 37
  (die, sliceOf s die pa)

def homeIn (s : State) (sp : Space) (core a : Nat) : Nat × Nat :=
  match sp with
  | .asid _ => homeOf s a
  | .phys => homePa s core a

/-- A command of DRCTL is in progress on a die (R63). -/
def State.stepping (s : State) (d cmd : Nat) : Bool :=
  match s.plat.links.cur with
  | some c => c.die == d && c.cmd == cmd
  | none => false

/-- A die is offline as a home: from the start of CLEAN until ADMIT completes, lost or absent (R71). -/
def offHome (s : State) (d : Nat) : Bool := 2 ≤ (s.pkg.die d).drst || s.stepping d 2

/-- A die is offline as memory: from the start of SELFREF until ADMIT completes, lost or absent (R71). -/
def offMem (s : State) (d : Nat) : Bool := 3 ≤ (s.pkg.die d).drst || s.stepping d 3

/-- The link that joins two dies (R59); 4 is HD. -/
def linkOf (a b : Nat) : Nat :=
  let lo := Nat.min a b
  let hi := Nat.max a b
  if hi = 4 then 6 + lo else if lo = 0 then hi - 1 else if lo = 1 then hi + 1 else 5

/-- The ends of a link (R59). -/
def linkEnds (k : Nat) : Nat × Nat :=
  match k with
  | 0 => (0, 1)
  | 1 => (0, 2)
  | 2 => (0, 3)
  | 3 => (1, 2)
  | 4 => (1, 3)
  | 5 => (2, 3)
  | _ => (k - 6, 4)

/-- Traffic between two dies is held: an event has taken their link down (R62). -/
def State.linkHeld (s : State) (a b : Nat) : Bool :=
  a != b && match s.plat.links.dl.find (linkOf a b) with
    | some l => l.state == 0 || l.state == 1
    | none => false

/-- A physical address of host memory (R119). -/
def isHost (pa : Nat) : Bool := bitOf pa 51

/-- The channel of a stack address (R37). -/
def channelOf (pa : Nat) : Nat := bitsOf pa 16 12 ^^^ bitsOf pa 21 17

/-- The channel, 32 · stack + channel, of a physical address (R37). -/
def chanOf (pa : Nat) : Nat := 32 * bitsOf pa 38 36 + channelOf pa

/-! Where a block lies in its channel (R36, R37). A channel holds 2^25 blocks: 4 SIDs of 64 banks of 8,192 rows of 16 blocks. -/

/-- The number of a block within its channel: of 32 successive frames of a stack one is the channel's. -/
def blockIx (block : Nat) : Nat := bitsOf block 29 11 * 64 + block % 64

/-- The rank of a block among those of its channel under the management core's placing. -/
def slotOf (ch ix : Nat) : Nat :=
  let key (j : Nat) : Nat := Config.placeRow (2 ^ 25 * ch + j)
  ((rangeFrom 0 (2 ^ 25)).filter fun j => decide (key j < key ix) || (key j == key ix && decide (j < ix))).length

/-- Where a block lies: SID, bank, row. -/
structure Place where
  sid  : Nat
  bank : Nat
  row  : Nat
deriving DecidableEq, Repr

/-- The place of a 64-byte block: a row is 16 blocks, a bank 8,192 rows, a SID 64 banks. -/
def placeOf (block : Nat) : Place :=
  let r := slotOf (chanOf (64 * block)) (blockIx block)
  ⟨bitsOf r 24 23, bitsOf r 22 17, bitsOf r 16 4⟩

/-- A block lies in what a repair of a channel covers. -/
def Repair.covers (r : Repair) (ch b : Nat) : Bool :=
  chanOf (64 * b) == ch && (r.kind == 3 ||
    let p := placeOf b
    p.sid == r.sid && p.bank == r.bank && (r.kind == 2 || p.row == r.row))

/-- A block lies in what is stalled while a repair runs: the row that is being copied, or the whole channel (R47). -/
def Active.stalls (a : Active) (ch b : Nat) : Bool :=
  a.rep.covers ch b && (a.rep.kind != 2 || (placeOf b).row == a.row)

/-- The controller of a block stalls accesses to it (R47). -/
def State.blockStalls (s : State) (b : Nat) : Bool :=
  match (s.plat.health.chans.find (chanOf (64 * b))).bind (·.active) with
  | some a => a.stalls (chanOf (64 * b)) b
  | none => false

/-- The frame of a stack address exists: its channel is enabled (R38). -/
def frameExists (s : State) (pa : Nat) : Bool :=
  let st := bitsOf pa 38 36
  bitOf (s.pkg.die (st / 2)).umchn (32 * (st % 2) + channelOf pa)

/-! Bytes of memory. -/

/-- The L2 line that holds a physical line dirty. -/
def MemSys.dirtyLine (m : MemSys) (pline : Nat) : Option L2Line := m.l2.find? fun l => l.pline == pline && l.wr

/-- The newest value of a byte: the dirty line's, else memory's. (After a change of the home map without cleaning a line may be dirty at
its old home too: the newer line stands first, R41.) -/
def MemSys.byte (m : MemSys) (pa : Nat) : Byte :=
  match m.l2.find? fun l => l.pline == pa / 128 && l.wr && (l.dirty.find (pa % 128)).isSome with
  | some l => l.dirty.getD memDefault (pa % 128)
  | none => m.bytes.getD memDefault pa

/-- What a byte may read as for a home: the newest value, and, where another home holds it dirty, memory's own (R41). -/
def MemSys.byteAt (m : MemSys) (home : Nat × Nat) (pa : Nat) : List Byte :=
  match m.l2.find? fun l => l.pline == pa / 128 && l.wr && (l.dirty.find (pa % 128)).isSome with
  | some l => if (l.die, l.slice) == home then [m.byte pa] else [m.byte pa, m.bytes.getD memDefault pa].eraseDups
  | none => [m.byte pa]

/-- The newest bytes from pa on. -/
def MemSys.read (m : MemSys) (pa n : Nat) : List Byte := (rangeFrom pa n).map m.byte

/-- Some byte of the n from pa on lies in a poisoned half-line (R44). -/
def MemSys.poisoned (m : MemSys) (pa n : Nat) : Bool :=
  (rangeFrom (pa / 64) ((pa + n - 1) / 64 + 1 - pa / 64)).any m.poison.contains

/-- Bytes written to memory itself, in canonical form. -/
def MemSys.store (m : MemSys) (pa : Nat) : List Byte → MemSys
  | [] => m
  | b :: bs => MemSys.store { m with bytes := m.bytes.setD memDefault pa b } (pa + 1) bs

/-- A dirty line written back to its recorded frame (R222); a block that memory holds poisoned under it has a fresh codeword then (R44, R45). -/
def MemSys.writeBack (m : MemSys) (l : L2Line) : MemSys :=
  { m with
    bytes := l.dirty.foldl (fun b e => b.setD memDefault (l.pline * 128 + e.1) e.2) m.bytes
    deep := m.deep.filter fun b => b / 2 != l.pline }

/-- The remap filter before a physical read of a line: a writable name is written back and becomes read-only (R230). -/
def MemSys.filterRead (m : MemSys) (pline : Nat) : MemSys :=
  let m := (m.l2.filter fun l => l.pline == pline && l.wr).reverse.foldl MemSys.writeBack m
  { m with l2 := m.l2.map fun k => if k.pline == pline && k.wr then { k with wr := false, dirty := [] } else k }

/-- The remap filter before a physical write of a line: every name is invalidated after write-back (R230). -/
def MemSys.filterWrite (m : MemSys) (pline : Nat) : MemSys :=
  let m := m.filterRead pline
  { m with l2 := m.l2.filter fun k => k.pline != pline }

/-- The watches on a line fire (R420). -/
def State.fire (s : State) (pline : Nat) : State :=
  let f (w : Option Watch) : Option Watch := w.map fun w => if w.pline == pline && !w.poll then { w with fired := true } else w
  let s := s.onCore fun c => { c with threads := c.threads.map fun t => { t with watch := f t.watch } }
  s.onTask fun t => { t with channels := t.channels.map fun (k, c) => (k, { c with watch := f c.watch }) }

/-- A write made at launch or earlier, or by the device itself (R249). -/
def Wr.base : Wr := ⟨0, none, 0, .ls, none, 0, [], (0, 0), ⟨0, []⟩⟩

/-- The versions of a byte that reads may still see, newest first. -/
def MemSys.versions (m : MemSys) (pa : Nat) : List (Byte × Wr) :=
  match m.hist.find pa with
  | some l => l
  | none => [(m.byte pa, Wr.base)]

/-- A write enters the coherence order of its bytes. -/
def MemSys.record (m : MemSys) (w : Wr) (pa : Nat) : List Byte → MemSys
  | [] => m
  | b :: bs => MemSys.record { m with hist := m.hist.put pa ((b, w) :: m.versions pa) } w (pa + 1) bs

/-- The blocks that a write of n bytes at pa fills whole lose their poison mark; with poisoned data the block is marked
(R44). -/
def MemSys.markPoison (m : MemSys) (pa n : Nat) (poison : Bool) : MemSys :=
  if poison then { m with poison := setUnion m.poison (rangeFrom (pa / 64) ((pa + n - 1) / 64 + 1 - pa / 64)) }
  else { m with poison := m.poison.filter fun k => !(decide (pa ≤ k * 64) && decide (k * 64 + 64 ≤ pa + n)) }

/-- A physical write (R230): names invalidated, memory written, watches fired, the write recorded. -/
def State.physStore (s : State) (w : Wr) (pa : Nat) (bs : List Byte) : State :=
  let lines := rangeFrom (pa / 128) ((pa + bs.length - 1) / 128 + 1 - pa / 128)
  let s := s.onMem fun m =>
    let m := lines.foldl MemSys.filterWrite m
    let m := m.record { w with seq := m.seq } pa bs
    ({ m with seq := m.seq + 1 }.store pa bs).markPoison pa bs.length false
  if bs.isEmpty then s else lines.foldl State.fire s

/-- A byte of the word of a registered dependence counter. -/
def State.counterByte (s : State) (a : Nat) : Bool :=
  s.task.counters.any fun e => e.2.live && decide (e.2.pa ≤ a) && decide (a < e.2.pa + 8)

/-- A physical write by the device or the host takes effect: the word of a registered counter keeps what it is (R149). -/
def State.physPut (s : State) (w : Wr) (pa : Nat) (bs : List Byte) : State :=
  if (rangeFrom pa bs.length).any s.counterByte then
    s.physStore w pa ((bs.zip (rangeFrom pa bs.length)).map fun e => if s.counterByte e.2 then (s.mem.read e.2 1).headD 0 else e.1)
  else s.physStore w pa bs

/-- A block of a range of stack addresses is stalled by a repair. -/
def State.rangeStalls (s : State) (pa n : Nat) : Bool :=
  !isHost pa && (rangeFrom (pa / 64) ((pa + n - 1) / 64 + 1 - pa / 64)).any s.blockStalls

def State.modChan (s : State) (ch : Nat) (f : Chan → Chan) : State :=
  s.onHealth fun h => { h with chans := h.chans.modD Chan.reset ch f }

def State.chanNow (s : State) (ch : Nat) : Nat := s.cycleOf (ch / 64)

/-- A write with poisoned data leaves its blocks poisoned (R44). -/
def State.physPoison (s : State) (w : Wr) (pa : Nat) (bs : List Byte) (poison : Bool) : State :=
  let s := s.physPut w pa bs
  if poison then s.onMem fun m => m.markPoison pa bs.length true else s

/-- A physical write by the device or the host. A store to what a repair stalls waits at the controller for the copy (R48). -/
def State.physWrite (s : State) (w : Wr) (pa : Nat) (bs : List Byte) (poison : Bool := false) : State :=
  if s.rangeStalls pa bs.length then
    let now := s.chanNow (chanOf pa)
    s.modChan (chanOf pa) fun c => { c with waits := c.waits ++ [⟨pa, bs, now, w, poison⟩] }
  else s.physPoison w pa bs poison

/-- An access meets a stall of a repair: noted once, with the cycle (R53). -/
def State.noteStall (s : State) (key : Nat × Nat × Nat) (pa n : Nat) : State :=
  if !s.rangeStalls pa n then s
  else
    let now := s.chanNow (chanOf pa)
    s.modChan (chanOf pa) fun c => if c.stuck.any fun e => e.1 == key then c else { c with stuck := c.stuck ++ [(key, now)] }

/-- A physical read of n bytes: the newest values, writable names written back (R230). -/
def State.physRead (s : State) (pa n : Nat) : List Byte × State :=
  let lines := rangeFrom (pa / 128) ((pa + n - 1) / 128 + 1 - pa / 128)
  let s := s.onMem fun m => lines.foldl MemSys.filterRead m
  (s.mem.read pa n, s)

/-! Page tables (R223 to R228). A walk reads the newest bytes of its entries; what that does to the names of their lines, as a physical
reader's reads, `walkReads` tells (R230). -/

/-- A fault of a translation: the cause, and whether stage 2 raised it. -/
abbrev XFault := Nat × Bool

/-- A table entry: its value, or none when it lies in a poisoned half-line. -/
def MemSys.entry (m : MemSys) (pa : Nat) : Option Nat :=
  if m.poisoned pa 8 then none else some (ofBytesLE (m.read pa 8))

/-- A line is held in some L2 slice. -/
def MemSys.inL2 (m : MemSys) (pa : Nat) : Bool := m.l2.any fun l => l.pline == pa / 128

/-- A home meets a die that is offline as memory: it must go to that die's stacks (R71). -/
def State.memOffline (s : State) (pa : Nat) : Bool := !isHost pa && offMem s (bitsOf pa 38 37) && !s.mem.inL2 pa

/-- The code that stands for the offline reply of a die in a walk. -/
def offlineCode (die : Nat) : XFault := (0x100 + die, true)

/-- The code that stands for a wait of a walk: the way to the memory of the table entry at an address is not open. -/
def waitCode (pa : Nat) : XFault := (2 ^ 60 + pa, true)

/-- What a home does not hold it cannot reach: the link to the memory, or to the host, is down, or a repair stalls the row or channel; or
another home has to write it back over a link that is down (R47, R61, R62). -/
def State.memHeld (s : State) (home pa n : Nat) : Bool :=
  let mem := if isHost pa then 4 else bitsOf pa 38 37
  let stall : Bool := !isHost pa && (rangeFrom (pa / 64) ((pa + n - 1) / 64 + 1 - pa / 64)).any s.blockStalls
  (!s.mem.inL2 pa && (s.linkHeld home mem || stall)) ||
    s.mem.l2.any fun l => l.pline == pa / 128 && l.wr && l.die != home && (s.linkHeld l.die mem || stall)

/-- A table entry as a walk at a home die reads it: the offline reply where its frame lies on an offline die, 0x17 where the frame is no more
(R38), a wait where the way to it is not open. With die 5 it is read whatever the way. -/
def State.entryAt (s : State) (die pa : Nat) : Except XFault (Option Nat) :=
  if s.memOffline pa then .error (offlineCode (bitsOf pa 38 37))
  else if !isHost pa && decide (pa < 2 ^ 39) && !frameExists s pa then .error (0x17, true)
  else if decide (die < 5) && s.memHeld die pa 8 then .error (waitCode pa)
  else .ok (s.mem.entry pa)

/-- A stage-2 result: PA, W, X, HCF, and the size of the leaf. -/
structure S2Leaf where
  pa   : Nat
  w    : Bool
  x    : Bool
  hcf  : Bool
  size : Nat
deriving DecidableEq, Repr

/-- The size of a leaf at a level (R223); s64 at level 3. -/
def leafSize (lvl : Nat) (s64 : Bool) : Nat :=
  match lvl with
  | 1 => 2 ^ 30
  | 2 => 2 ^ 21
  | _ => if s64 then 2 ^ 16 else 2 ^ 12

/-- A stage-2 leaf entry of a level (R225): reserved bits zero and an aligned address. -/
def s2LeafOf (lvl e ipa : Nat) : Except XFault S2Leaf :=
  let sz := leafSize lvl (bitOf e 1)
  let frame := bitsOf e 51 12 * 2 ^ 12
  if bitsOf e 63 52 != 0 || bitsOf e 11 5 != 0 || frame % sz != 0 then .error (7, true)
  else .ok ⟨frame + ipa % sz, bitOf e 2, bitOf e 3, bitOf e 4, sz⟩

/-- An invalid stage-2 entry: retired, or not present (R225, R232). -/
def s2Invalid (e : Nat) : XFault := if bitOf e 11 then (0x17, true) else (6, true)

/-- The stage-2 walk from a table at a level; fuel counts levels left. -/
def walk2Go (s : State) (die : Nat) : Nat → Nat → Nat → Nat → Except XFault S2Leaf
  | 0, _, _, _ => .error (7, true)
  | fuel + 1, lvl, table, ipa =>
    let ix := ipa / 2 ^ (39 - 9 * lvl) % 512
    match s.entryAt die (table + 8 * ix) with
    | .error x => .error x
    | .ok none => .error (7, true)
    | .ok (some e) =>
      if !bitOf e 0 then .error (s2Invalid e)
      else if lvl = 3 then
        if !bitOf e 1 then s2LeafOf 3 e ipa
        else match s.entryAt die (table + 8 * (ix / 16 * 16)) with
          | .error x => .error x
          | .ok none => .error (7, true)
          | .ok (some h) =>
            if !bitOf h 0 then .error (s2Invalid h)
            else if !bitOf h 1 then .error (7, true) else s2LeafOf 3 h ipa
      else if bitOf e 1 then (if lvl = 0 then .error (7, true) else s2LeafOf lvl e ipa)
      else if bitsOf e 63 52 != 0 || bitsOf e 11 1 != 0 then .error (7, true)
      else walk2Go s die fuel (lvl + 1) (bitsOf e 51 12 * 2 ^ 12) ipa

/-- Stage 2 of a function (R223, R227): EN = 0 maps IPA to PA with W and X. -/
def walk2 (s : State) (die fn ipa : Nat) : Except XFault S2Leaf :=
  let f := (s.fnAt fn).mem
  if !f.s2En then .ok ⟨ipa, true, true, false, 2 ^ 12⟩ else walk2Go s die 4 0 f.s2root ipa

/-- An 8-byte word at an IPA: none when poisoned. -/
def ipaEntry (s : State) (die fn ipa : Nat) : Except XFault (Option Nat) :=
  match walk2 s die fn ipa with
  | .error e => .error e
  | .ok l => s.entryAt die l.pa

/-- A stage-1 leaf entry (R224): IPA, attributes and the size of the leaf. -/
def s1LeafOf (lvl e va : Nat) : Except XFault (Nat × Attr × Nat) :=
  let sz := leafSize lvl (bitOf e 1)
  let frame := bitsOf e 47 12 * 2 ^ 12
  if bitsOf e 8 7 = 3 || frame % sz != 0 then .error (7, false)
  else .ok (frame + va % sz,
    ⟨bitsOf e 11 10, bitOf e 9, bitsOf e 8 7, bitsOf e 6 5, bitOf e 4, bitOf e 3, bitOf e 2, bitsOf e 63 48, bitOf e 3, bitOf e 2⟩, sz)

/-- The stage-1 walk; table addresses are IPAs (R223). -/
def walk1Go (s : State) (die fn : Nat) : Nat → Nat → Nat → Nat → Except XFault (Nat × Attr × Nat)
  | 0, _, _, _ => .error (7, false)
  | fuel + 1, lvl, table, va =>
    let ix := va / 2 ^ (39 - 9 * lvl) % 512
    match ipaEntry s die fn (table + 8 * ix) with
    | .error e => .error e
    | .ok none => .error (7, false)
    | .ok (some e) =>
      if !bitOf e 0 then .error (6, false)
      else if lvl = 3 then
        if !bitOf e 1 then s1LeafOf 3 e va
        else match ipaEntry s die fn (table + 8 * (ix / 16 * 16)) with
          | .error x => .error x
          | .ok none => .error (7, false)
          | .ok (some h) =>
            if !bitOf h 0 then .error (6, false)
            else if !bitOf h 1 then .error (7, false) else s1LeafOf 3 h va
      else if bitOf e 1 then (if lvl = 0 then .error (7, false) else s1LeafOf lvl e va)
      else if bitsOf e 63 48 != 0 || bitsOf e 11 1 != 0 then .error (7, false)
      else walk1Go s die fn fuel (lvl + 1) (bitsOf e 47 12 * 2 ^ 12) va

/-- The context-table entry of an ASID (R227): its root and policy; any failure makes the policy fail crew. -/
def ctxEntry (s : State) (die fn asid : Nat) : Except XFault (Nat × Nat) :=
  let f := (s.fnAt fn).mem
  let p := f.asctx + 16 * (asid % 2048)
  if !f.asctxEn then .error (6, false)
  else match ipaEntry s die fn p, ipaEntry s die fn (p + 8) with
    | .ok (some r), .ok (some q) =>
      if !bitOf r 0 then .error (6, false)
      else if bitsOf r 63 48 != 0 || bitsOf r 11 1 != 0 || 3 ≤ q then .error (7, false)
      else .ok (bitsOf r 47 12 * 2 ^ 12, q)
    | .error e, _ => .error e
    | _, .error e => .error e
    | _, _ => .error (7, false)

/-- The parking policy of an ASID: 0 park thread, 1 park process, 2 fail crew (R227, R233). -/
def policyOf (s : State) (fn asid : Nat) : Nat :=
  match ctxEntry s 5 fn asid with
  | .ok (_, q) => q
  | .error _ => 2

/-- The whole walk of (function, ASID, VA) by a slice of a die (5: whatever the way to the tables): a cached translation as R229 keeps it. -/
def walkFrom (s : State) (die fn asid va : Nat) : Except XFault TlbE :=
  match ctxEntry s die fn asid with
  | .error e => .error e
  | .ok (root, _) =>
    match walk1Go s die fn 4 0 root va with
    | .error e => .error e
    | .ok (ipa, at1, sz1) =>
      match walk2 s die fn ipa with
      | .error e => .error e
      | .ok l =>
        let sz := Nat.min sz1 l.size
        let cl := if l.hcf then 3 else if isHost l.pa && at1.cl != 2 then 3 else at1.cl
        .ok ⟨(homeOf s va).1, fn, asid, va / sz * sz, sz, ipa / sz * sz, l.pa / sz * sz,
          { at1 with cl := cl, w := at1.w && l.w, x := at1.x && l.x }⟩

/-- What the tables say of (function, ASID, VA). -/
def walk (s : State) (fn asid va : Nat) : Except XFault TlbE := walkFrom s 5 fn asid va

/-! The addresses of the entries that a walk reads (R223, R229). -/

/-- Those of a stage-2 walk from a table at a level. -/
def reads2Go (m : MemSys) : Nat → Nat → Nat → Nat → List Nat
  | 0, _, _, _ => []
  | fuel + 1, lvl, table, ipa =>
    let ix := ipa / 2 ^ (39 - 9 * lvl) % 512
    let a := table + 8 * ix
    match m.entry a with
    | none => [a]
    | some e =>
      if !bitOf e 0 then [a]
      else if lvl = 3 then (if bitOf e 1 then [a, table + 8 * (ix / 16 * 16)] else [a])
      else if bitOf e 1 then [a]
      else a :: reads2Go m fuel (lvl + 1) (bitsOf e 51 12 * 2 ^ 12) ipa

def reads2 (s : State) (fn ipa : Nat) : List Nat :=
  let f := (s.fnAt fn).mem
  if f.s2En then reads2Go s.mem 4 0 f.s2root ipa else []

/-- Those of the read of a word at an IPA: its translation's and its own. -/
def readsIpa (s : State) (fn ipa : Nat) : List Nat :=
  reads2 s fn ipa ++ match walk2 s 5 fn ipa with
    | .ok l => [l.pa]
    | .error _ => []

/-- Those of a stage-1 walk. -/
def reads1Go (s : State) (fn : Nat) : Nat → Nat → Nat → Nat → List Nat
  | 0, _, _, _ => []
  | fuel + 1, lvl, table, va =>
    let ix := va / 2 ^ (39 - 9 * lvl) % 512
    readsIpa s fn (table + 8 * ix) ++ match ipaEntry s 5 fn (table + 8 * ix) with
      | .ok (some e) =>
        if !bitOf e 0 then []
        else if lvl = 3 then (if bitOf e 1 then readsIpa s fn (table + 8 * (ix / 16 * 16)) else [])
        else if bitOf e 1 then []
        else reads1Go s fn fuel (lvl + 1) (bitsOf e 47 12 * 2 ^ 12) va
      | _ => []

/-- Those of a whole walk: the context table's, stage 1's, and those of the IPA that it gives. -/
def walkReads (s : State) (fn asid va : Nat) : List Nat :=
  let f := (s.fnAt fn).mem
  let p := f.asctx + 16 * (asid % 2048)
  if !f.asctxEn then []
  else readsIpa s fn p ++ readsIpa s fn (p + 8) ++ match ctxEntry s 5 fn asid with
    | .error _ => []
    | .ok (root, _) => reads1Go s fn 4 0 root va ++ match walk1Go s 5 fn 4 0 root va with
      | .ok (ipa, _, _) => reads2 s fn ipa
      | .error _ => []

/-- A physical address that the device has: a stack frame whose channel is enabled, or host memory (R37, R38, R119). -/
def paFault (s : State) (pa : Nat) : Option Nat :=
  if isHost pa then none
  else if 2 ^ 39 ≤ pa then some 7
  else if frameExists s pa then none else some 0x17

/-- The attributes of an H handler's access (R444): every permission. -/
def Attr.phys (pa : Nat) : Attr := ⟨0, false, 0, if isHost pa then 3 else 0, true, true, true, 0, true, true⟩

/-- What an access may be: a read, a write, or a fetch. -/
inductive Acc where
  | r | w | x
deriving DecidableEq, Repr

/-- The permission check of R226. -/
def permOk (at_ : Attr) (lvl : Level) (a : Acc) : Bool :=
  (lvl != .u || at_.u) && match a with
    | .r => true
    | .w => at_.w
    | .x => at_.x

/-- A permission fault is stage 2's: stage 1 grants the access (R236). -/
def stage2Denies (at_ : Attr) (lvl : Level) (a : Acc) : Bool :=
  permOk { at_ with x := at_.x1, w := at_.w1 } lvl a

/-- Where an access goes, or why it does not: a fault, the offline reply of a die, or a wait for the way to a table. -/
inductive XRes where
  | ok (pa : Nat) (at_ : Attr)
  | fault (cause : Nat) (s2 : Bool)
  | offline (die : Nat)
  | wait
deriving DecidableEq, Repr

/-- The translations an access of (function, ASID, VA) may use (R229): what a fresh walk gives, and what a cache or the L2
line still holds from before. -/
def xlations (s : State) (fn asid va : Nat) : List (Except XFault (Nat × Attr)) :=
  let fresh := (walkFrom s (homeOf s va).1 fn asid va).map fun e => (e.pa + va % e.size, e.attr)
  let cached := (s.mem.tlb.filter fun e => e.die == (homeOf s va).1 && e.fn == fn && e.asid == asid && e.va == va / e.size * e.size).map
    fun e => (e.pa + va % e.size, e.attr)
  let line := (s.mem.l2.filter fun l => l.space == .asid asid && l.vline == va / 128).map
    fun l => (l.pline * 128 + va % 128, l.attr)
  let old := (cached ++ line).filter fun c => match fresh with
    | .ok f => f != c
    | .error _ => true
  fresh :: old.eraseDups.map .ok

/-- The translation of an access at its home (R228), with the choice that a change of tables without TLBINV leaves open
(R229). A successful walk is cached. -/
def translate (s : State) (fn : Nat) (sp : Space) (core : Nat) (lvl : Level) (va : Nat) (a : Acc) : XRes × State :=
  let die := (homeIn s sp core va).1
  if offHome s die then (.offline die, s)
  else match sp with
    | .phys =>
      match paFault s va with
      | some c => (.fault c false, s)
      | none => if s.memOffline va then (.offline (bitsOf va 38 37), s) else (.ok va (Attr.phys va), s)
    | .asid asid =>
      let (x, s) := chooseFrom (xlations s fn asid va) (.error (6, false)) s
      match x with
      | .error (c, st2) =>
        if 2 ^ 60 ≤ c then (.wait, s.noteStall (0, 1024 + core, va) (c - 2 ^ 60) 8)
        else (if 0x100 ≤ c then .offline (c - 0x100) else .fault c st2, s)
      | .ok (pa, at_) =>
        if !permOk at_ lvl a then (.fault 7 (stage2Denies at_ lvl a), s)
        else match paFault s pa with
          | some c => (.fault c true, s)
          | none =>
            if s.memOffline pa then (.offline (bitsOf pa 38 37), s)
            else
              let s := match walk s fn asid va with
                | .ok e => if s.mem.tlb.contains e then s else s.onMem fun m => { m with tlb := e :: m.tlb }
                | .error _ => s
              (.ok pa at_, s)

end Sys2Proof.Machine
end

