-- ==== Sys2Proof/Machine/Memory.lean ====
section
/-! DEFINITION. Reads and writes of memory under the phase-consistency model (spec/11 R241 to R262), with the remap filter
(R230) and the host's part (spec/05 R110 to R127). -/

namespace Sys2Proof.Machine

/-! Scopes (R244). Core 800 stands for the host and the application cores. -/

def hostCore : Nat := 800

/-- Core b lies in the instance of a scope around core a. -/
def inInst (sc : Scope) (a b : Nat) : Bool :=
  match sc with
  | .core => a == b
  | .clu => clusterOf a == clusterOf b
  | .dev => decide (a < hostCore) && decide (b < hostCore)
  | .sys => true

/-- Each of two events lies in the other's instance (R258). -/
def mutualScope (x : Scope) (a : Nat) (y : Scope) (b : Nat) : Bool := inInst x a b && inInst y b a

def scopeCode : Scope → Nat
  | .core => 0
  | .clu => 1
  | .dev => 2
  | .sys => 3

def pathCode : Path → Nat
  | .ls => 0
  | .ac => 1
  | .bt => 2
  | .sh => 3
  | .mx => 4
  | .cl => 5

/-! Agents: who makes an access. -/

/-- Who makes an access: a thread (its number, domain, core, function, level), the path, the position of its instruction, an engine's own
number, the time before which the thread's accesses on LS are fenced from it (R247), and, for an access whose place in dom is its issue, that
time (R260). -/
structure Agent where
  thr  : Nat
  dom  : DomKey
  fn   : Nat
  lvl  : Level
  path : Path
  pc   : Pos := ⟨0, 0⟩
  eng  : Nat := 0
  fence : Nat := 0
  asOf : Option Nat := none
  unit : Nat := 1
deriving DecidableEq, Repr

/-- The device itself, in a domain. -/
def Agent.dev (dom : DomKey) (fn : Nat) (lvl : Level := .g) : Agent := { thr := 0, dom := dom, fn := fn, lvl := lvl, path := .ls }

def Agent.who (a : Agent) : Who := ⟨a.thr, pathCode a.path, a.eng, a.dom.core⟩

def State.agent (s : State) (t : Thread) (p : Path) : Agent := { thr := t.uid, dom := s.domKey t, fn := t.id.fn, lvl := t.lvl, path := p, pc := t.pos }

def Domain.none_ (k : DomKey) : Domain := ⟨k, ⟨0, []⟩, [], []⟩

/-- The unpublished bytes that are kept, with the poison of their blocks. -/
def Domain.keep (d : Domain) (p : Nat × UByte → Bool) : Domain :=
  let l := d.stores.filter p
  { d with stores := l, poi := d.poi.filter fun h => l.any fun e => e.1 / 64 == h }

/-- No unpublished byte is left. -/
def Domain.clear (d : Domain) : Domain := { d with stores := [], poi := [] }

def MemSys.dom (m : MemSys) (k : DomKey) : Domain := (m.doms.find? fun d => d.key == k).getD (Domain.none_ k)

/-- A domain changed by f. -/
def State.modDom (s : State) (k : DomKey) (f : Domain → Domain) : State :=
  s.onMem fun m =>
    if m.doms.any (·.key == k) then { m with doms := m.doms.map fun d => if d.key == k then f d else d }
    else { m with doms := f (Domain.none_ k) :: m.doms }

/-- An access starts inside a containment region: a thread's own, or that of a matrix command, which is the one its engine works on. -/
def State.contained (s : State) (ag : Agent) : Bool :=
  match ag.path with
  | .ls => !(s.thread ag.thr).ct.isEmpty
  | .mx => (s.clusterAt (clusterOf ag.dom.core)).mx.queue.head?.any fun j => j.rgn != 0
  | _ => false

/-! Snapshot points (R243, R258). -/

/-- What a boundary tells: itself and all it knew. -/
def Know.add (k : Know) (b : Bnd) : Know := ⟨Nat.max k.base b.know.base, setUnion (setIns k.ids b.id) b.know.ids⟩

/-- Knowledge after reads of the given boundaries' writes and a snapshot point at a scope on a core. -/
def MemSys.learn (m : MemSys) (k : Know) (pubs : List Nat) (sc : Scope) (core : Nat) : Know :=
  pubs.foldl (fun k id => match m.bnds.find? fun b => b.id == id with
    | some b => if mutualScope b.scope b.core sc core then k.add b else k
    | none => k) k

/-- A domain's snapshot moves to what an agent knows. What was performed before a launch precedes everything later (R249), so the
domain's base never falls. -/
def State.snapTo (s : State) (key : DomKey) (k : Know) : State :=
  s.modDom key fun d => { d with snap := ⟨Nat.max d.snap.base k.base, k.ids⟩ }

/-- A snapshot point at a scope by a thread (R243): the thread learns, and its domain's snapshot moves. -/
def State.snapshot (s : State) (u : Nat) (sc : Scope) : State :=
  let t := s.thread u
  let k := s.mem.learn t.seen.know t.seen.pubs sc t.id.core
  let s := s.modThread u fun t => { t with seen := { t.seen with know := k } }
  s.snapTo (s.domKey t) k

/-- The launch of a thread: everything performed before is known (R249). -/
def State.knowAll (s : State) (u : Nat) : State :=
  let k : Know := ⟨s.mem.seq, []⟩
  let xf : Map Nat := (rangeFrom 0 48).map fun i => (i, s.mem.seq)
  let s := s.modThread u fun t => { t with seen := { t.seen with know := k, xf := xf } }
  s.modDom (s.domKey (s.thread u)) fun d => { d with snap := k }

/-! What a read must not miss (R250, R254). -/

/-- A later event of an agent on a path is ordered after a write of its own made on another path at a time: by XFENCE. -/
def Seen.fenced (x : Seen) (from_ to_ : Path) (seq : Nat) : Bool :=
  from_ == to_ || decide (seq < x.xf.getD 0 (8 * pathCode from_ + pathCode to_))

/-- A write is ordered before a domain's snapshot: by time, through a boundary that published it, or because its strong
writer made a later boundary that is known. -/
def MemSys.known (m : MemSys) (k : Know) (w : Wr) : Bool :=
  decide (w.seq ≤ k.base) || w.pubs.any k.ids.contains ||
    (w.strong.isSome && m.bnds.any fun b => b.thr == w.thr && w.path == .ls && decide (w.seq < b.seq) && k.ids.contains b.id)

/-- A read by an agent may not return a value older than this write at an address. -/
def State.forced (s : State) (ag : Agent) (strong : Option Scope) (pa : Nat) (w : Wr) : Bool :=
  let x := (s.thread ag.thr).seen
  let seen := decide (w.seq ≤ x.bytes.getD 0 (8 * pa + pathCode ag.path))
  let own := w.dom == some ag.dom && (w.thr != ag.thr || x.fenced w.path ag.path w.seq || decide (w.seq < ag.fence)) &&
    ag.asOf.all fun q => decide (w.seq < q)
  match strong with
  | none => seen || own || s.mem.known (s.mem.dom ag.dom).snap w
  | some sc => seen || own || match w.strong with
    | none => true
    | some ws => mutualScope ws w.core sc ag.dom.core

/-- The versions of a byte from the newest to the first that is forced. -/
def untilForced (f : Wr → Bool) : List (Byte × Wr) → List (Byte × Wr)
  | [] => []
  | v :: vs => if f v.2 then [v] else v :: untilForced f vs

/-- Free bits, one per listed number: the numbers drawn. -/
def chooseSubset : List Nat → State → List Nat × State
  | [], s => ([], s)
  | k :: ks, s =>
    let (b, s) := chooseBool s
    let (r, s) := chooseSubset ks s
    (if b then k :: r else r, s)

/-- The first version whose write is not hidden. -/
def pickVersion (hidden : List Nat) : List (Byte × Wr) → Byte × Wr
  | [] => (memDefault, Wr.base)
  | [v] => v
  | v :: vs => if hidden.contains v.2.seq then pickVersion hidden vs else v

/-- A byte of a strong read that meets strong writes of other sizes or places: any of theirs (R248, R262). -/
def pickMixed (f : Wr → Bool) (acc : Nat × Nat) (hidden : List Nat) : List (Byte × Wr) → State → (Byte × Wr) × State
  | [], s => ((memDefault, Wr.base), s)
  | [v], s => (v, s)
  | v :: vs, s =>
    if hidden.contains v.2.seq then pickMixed f acc hidden vs s
    else if v.2.strong.isSome && v.2.acc != acc && !f v.2 then
      let (b, s) := chooseBool s
      if b then pickMixed f acc hidden vs s else (v, s)
    else (v, s)

/-- The mark of a DISCARD among writes (R231, R249). -/
def Wr.isDiscard (w : Wr) : Bool := w.acc == (1, 0)

/-- What a read from a DISCARD may give besides zero: the values published before it (R231, R250). -/
def olderBytes (l : List (Byte × Wr)) (q : Nat) : List Byte :=
  (l.filter fun v => decide (v.2.seq < q) && !v.2.isDiscard).map (·.1)

/-- Each byte read from a DISCARD is zero or an earlier value, chosen for this read. -/
def State.undiscard (s : State) (l : List (Nat × Byte × Wr)) : List (Byte × Wr) × State :=
  l.foldl (fun (acc : List (Byte × Wr) × State) (a, b, w) =>
    if w.isDiscard then
      let (x, s) := chooseFrom (0 :: olderBytes (acc.2.mem.versions a) w.seq).eraseDups 0 acc.2
      (acc.1 ++ [(x, w)], s)
    else (acc.1 ++ [(b, w)], acc.2)) ([], s)

/-- The time of the last TLBINV that named the page of an address: no L1 holds what was written before (R229). -/
def State.floorAt (s : State) (ag : Agent) (va : Nat) : Nat :=
  s.mem.invs.foldl (fun m i => if i.fn == ag.fn && (match i.asid with
    | none => ag.dom.space != .phys
    | some a => ag.dom.space == .asid a) && decide (i.va ≤ va) && decide (va < i.va + i.size) then Nat.max m i.seq else m) 0

/-- The page is held dirty in L2: write-back and not uncached (R226). -/
def Attr.dirtyL2 (a : Attr) : Bool := a.wp == 0 && a.cl != 2

/-- The page allocates no line in L1, so no copy there is older than the home (R226). -/
def Attr.noL1 (a : Attr) : Bool := a.cl != 0 || a.wp == 2

/-- The page allocates in L2 on a read. -/
def Attr.allocL2 (a : Attr) : Bool := a.wp != 2 && a.cl != 2

/-- The sector of a core's L1 that holds an address of an agent. -/
def State.l1Sec (s : State) (ag : Agent) (va : Nat) : Option L1Sec :=
  (s.coreAt ag.dom.core).l1.find? fun x => x.space == ag.dom.space && x.sec == va / 32

/-- What a plain read of an address by an agent sees at least: a load whose sector is in no L1 fills it from the home; one whose sector is
held finds what stood there when it was filled, or what has come since (R217, R221). -/
def State.l1Floor (s : State) (ag : Agent) (va : Nat) : Nat :=
  if ag.path != .ls then s.floorAt ag va
  else match s.l1Sec ag va with
    | some x => Nat.max x.seq (s.floorAt ag va)
    | none => s.mem.seq

/-- The lines of the L1 of a core: 384 KiB less its scratchpad part (R217). -/
def Core.l1Lines (c : Core) : Nat := 3072 - 512 * c.spk

/-- Sectors by distinct lines, n lines at most. -/
def capL1 (n : Nat) : List Nat → List L1Sec → List L1Sec
  | _, [] => []
  | ls, x :: xs =>
    if ls.contains (x.sec / 4) then x :: capL1 n ls xs
    else if ls.length < n then x :: capL1 n (x.sec / 4 :: ls) xs else []

/-- The sectors of a range enter the L1 of an agent's core, where the page and the access allocate there (R221, R226); lines beyond its
capacity leave, the oldest first (DESIGN CHOICE, log 150). -/
def State.l1Fill (s : State) (ag : Agent) (va n : Nat) (at_ : Attr) (na : Bool) : State :=
  if ag.path != .ls || at_.noL1 || na || n = 0 then s
  else
    let new := ((rangeFrom (va / 32) ((va + n - 1) / 32 + 1 - va / 32)).filter fun x =>
      !(s.coreAt ag.dom.core).l1.any fun y => y.space == ag.dom.space && y.sec == x).map fun x => (⟨ag.dom.space, x, s.mem.seq⟩ : L1Sec)
    s.modCoreAt ag.dom.core fun c => { c with l1 := capL1 c.l1Lines [] (new ++ c.l1) }

/-- A read of n bytes at their home: each unforced write is read whole or not at all (R248); the writes read are
remembered (R249). With `coh` the page has no copies in L1, so the read gives what the home holds (R226, R123); what was written before
`floor` of a byte's offset the L1 holds. -/
def State.homeRead (s : State) (ag : Agent) (strong : Option Scope) (pa n : Nat) (coh : Bool := false)
    (floor : Nat → Nat := fun _ => 0) : List (Byte × Wr) × State :=
  let f (a : Nat) (w : Wr) := coh || (strong.isNone && decide (w.seq < floor (a - pa))) || s.forced ag strong a w
  let vers := (rangeFrom pa n).map fun a => (a, untilForced (f a) (s.mem.versions a))
  let forcedSeqs := (vers.map fun (a, l) => (l.filter fun v => f a v.2).map (·.2.seq)).flatten
  let open_ := (vers.map fun (_, l) => (l.dropLast.map (·.2.seq))).flatten.eraseDups.filter fun q => !forcedSeqs.contains q
  let (hidden, s) := chooseSubset open_ s
  let (bs, s) := vers.foldl (fun (acc : List (Byte × Wr) × State) v =>
    match strong with
    | none => (acc.1 ++ [pickVersion hidden v.2], acc.2)
    | some _ => let (b, s) := pickMixed (f v.1) (pa, n) hidden v.2 acc.2; (acc.1 ++ [b], s)) ([], s)
  let (bs, s) := s.undiscard ((rangeFrom pa n).zip bs)
  let marks := (rangeFrom pa n).zip bs
  let s := s.modThread ag.thr fun t => { t with seen := { t.seen with
    pubs := if ag.path == .ls then bs.foldl (fun p b => setUnion p b.2.pubs) t.seen.pubs else t.seen.pubs
    bytes := marks.foldl (fun m (a, b) =>
      m.setD 0 (8 * a + pathCode ag.path) (Nat.max (m.getD 0 (8 * a + pathCode ag.path)) b.2.seq)) t.seen.bytes } }
  (bs, s)

/-- The bytes an agent's domain has written and not published, by offset from va (R242); a byte that the same thread wrote
on a path not fenced before this one reads as before the write or after it (R260), the bytes of one unit of the agent alike (an element
of a collective, R90). -/
def State.ownBytes (s : State) (ag : Agent) (va n : Nat) : Map Byte × State :=
  let d := s.mem.dom ag.dom
  let open_ (u : UByte) : Bool := u.thr == ag.thr && !(s.thread ag.thr).seen.fenced u.path ag.path u.seq && !decide (u.seq < ag.fence)
  let group (i : Nat) : Nat := (va + i) / ag.unit
  let free := (((rangeFrom 0 n).filter fun i => (d.stores.find (va + i)).any open_).map group).eraseDups
  let (late, s) := free.foldl (fun (acc : List Nat × State) g =>
    let (b, s) := chooseBool acc.2
    (if b then acc.1 else g :: acc.1, s)) ([], s)
  ((rangeFrom 0 n).foldl (fun (acc : Map Byte) i => match d.stores.find (va + i) with
    | none => acc
    | some u =>
      if open_ u && late.contains (group i) then (match u.old with
        | some o => acc.put i o
        | none => acc)
      else acc.put i u.val) [], s)

/-- The blocks of a range of addresses. -/
def blocksIn (va n : Nat) : List Nat := rangeFrom (va / 64) ((va + n - 1) / 64 + 1 - va / 64)

/-- Some block of the range holds an unpublished store of POISON (R44). -/
def MemSys.ownPoison (m : MemSys) (k : DomKey) (va n : Nat) : Bool := n != 0 && (blocksIn va n).any (m.dom k).poi.contains

/-- Every byte of the range is an unpublished one of the domain. -/
def MemSys.ownAll (m : MemSys) (k : DomKey) (va n : Nat) : Bool := (rangeFrom va n).all fun a => ((m.dom k).stores.find a).isSome

/-! L2 names and the remap filter (R222, R226, R230). -/

/-- A name of a line. -/
def L2Line.named (l : L2Line) (sp : Space) (vline : Nat) : Bool := l.space == sp && l.vline == vline

/-- Every name of a line but one is invalidated, a writable one after write-back (R230). -/
def MemSys.dropOthers (m : MemSys) (sp : Space) (vline pline : Nat) : MemSys :=
  let m := (m.l2.filter fun l => l.pline == pline && l.wr && !l.named sp vline).reverse.foldl MemSys.writeBack m
  { m with l2 := m.l2.filter fun l => l.pline != pline || l.named sp vline }

/-- A name that was recorded with another frame is written back and leaves (R222). -/
def MemSys.dropOld (m : MemSys) (sp : Space) (vline pline : Nat) : MemSys :=
  match m.l2.find? fun l => l.named sp vline && l.pline != pline with
  | none => m
  | some l => { (if l.wr then m.writeBack l else m) with l2 := m.l2.filter fun k => !(k.named sp vline && k.pline != pline) }

/-- A line's name gets, at a home, a frame, dirty bytes or none. A line that the name still has at another home stays there (R41). -/
def MemSys.nameLine (m : MemSys) (home : Nat × Nat) (sp : Space) (vline pline ep : Nat) (at_ : Attr) (wr : Bool)
    (dirty : Map Byte) (set : Bool := false) : MemSys :=
  let m := m.dropOld sp vline pline
  let here (l : L2Line) : Bool := l.named sp vline && l.die == home.1 && l.slice == home.2
  if m.l2.any here then
    { m with l2 := m.l2.map fun l => if here l then
        { l with wr := l.wr || wr, used := m.seq, ep := if set then ep else l.ep, dirty := dirty.foldl (fun d e => d.put e.1 e.2) l.dirty } else l }
  else { m with l2 := ⟨home.1, home.2, sp, vline, pline, dirty, wr, ep, at_, m.seq⟩ :: m.l2 }

/-- A read fill under a name (R230): another name that is writable is written back and invalidated; the oldest of four
read-only names is invalidated. A line that the name holds is used again (R222); with `set` its priority is the access's (R226). -/
def MemSys.fill (m : MemSys) (home : Nat × Nat) (sp : Space) (vline pline ep : Nat) (at_ : Attr) (set : Bool := false) : MemSys :=
  let m := { m with seq := m.seq + 1 }
  if m.l2.any fun l => l.named sp vline && l.pline == pline then
    { m with l2 := m.l2.map fun l => if l.named sp vline && l.pline == pline then { l with used := m.seq, ep := if set then ep else l.ep } else l }
  else
    let m := match m.dirtyLine pline with
      | some l => { m.writeBack l with l2 := m.l2.filter fun k => !(k.pline == pline && k.wr) }
      | none => m
    let names : List L2Line := m.l2.filter fun l => l.pline == pline
    let m := if decide (names.length < 4) then m else match names.getLast? with
      | some o => { m with l2 := m.l2.filter (· != o) }
      | none => m
    m.nameLine home sp vline pline ep at_ false []

/-! The host's part (R110 to R127). -/

def HostSys.port (h : HostSys) (p : Nat) : CxlPort := h.ports.getD p CxlPort.reset

def HostSys.modPort (h : HostSys) (p : Nat) (f : CxlPort → CxlPort) : HostSys := { h with ports := modNth f h.ports p }

/-- Port 0 is up as CXL (R118, R127). -/
def HostSys.up (h : HostSys) : Bool := (h.port 0).state == 2

/-- The stack of a device line. -/
def stackOfLine (line : Nat) : Nat := bitsOf (line * 128) 38 36

/-- The sharing queue's interrupt (R115). -/
def State.smqIrq (s : State) : State :=
  if s.plat.host.iid == 0 then s else s.emit (.irq s.plat.host.tgt s.plat.host.iid)

/-- A record is written to the sharing queue, dropped, or held (R115, R118). -/
def State.smqPut (s : State) (r : SmqRec) : State :=
  let h := s.plat.host
  if h.smqEn && decide ((h.smqHead + 2 ^ 32 - h.smqTail) % 2 ^ 32 < 4096) then
    let bs := bytesLE 8 (r.line * 128) ++ bytesLE 4 h.smqHead ++
      bytesLE 4 (r.kind + (if r.kind == 1 then 5 else 0) * 2 ^ 8 + (if r.kind == 4 then 0 else r.stk) * 2 ^ 16)
    let s := s.physWrite Wr.base (h.smqBase + 16 * (h.smqHead % 4096)) bs
    (s.onHost fun h => { h with smqHead := (h.smqHead + 1) % 2 ^ 32 }).smqIrq
  else if r.kind == 2 then s.onHost fun h => { h with smqHeld := h.smqHeld ++ [r] }
  else if h.smqEn then s.onHost fun h => { h with smqOvf := true }
  else s

/-- The held kind-2 records that now fit are written (R115). -/
def State.smqFlush (s : State) : State :=
  let l := s.plat.host.smqHeld
  l.foldl State.smqPut (s.onHost fun h => { h with smqHeld := [] })

/-- A move of a line between I and E reaches the sharing detector of its controller (R114). -/
def State.moved (s : State) (line : Nat) : State :=
  let stk := stackOfLine line
  let now := s.cycleOf (stk / 2)
  let mine := s.plat.host.det.filter fun d => d.stk == stk
  let rest := s.plat.host.det.filter fun d => d.stk != stk
  let set (l : List Detect) (s : State) := s.onHost fun h => { h with det := l ++ rest }
  match mine.find? fun d => d.line == line with
  | none => set ((⟨stk, line, now, 1⟩ :: mine).take 256) s
  | some d =>
    let others := mine.filter fun e => e.line != line
    if decide ((now + 2 ^ 64 - d.first) % 2 ^ 64 ≤ 65536) then
      if d.count + 1 == 5 then (set others s).smqPut ⟨1, line, stk⟩
      else set ({ d with count := d.count + 1 } :: others) s
    else set (⟨stk, line, now, 1⟩ :: others) s

/-- A line goes to I in the filter (R110). -/
def State.toI (s : State) (line : Nat) : State :=
  if (s.plat.host.own.find line).isSome then (s.onHost fun h => { h with own := h.own.del line }).moved line else s

/-- The port that carries a device line to the host (R108): with two ways in both decoders HPA bit 12 selects it. -/
def HostSys.wayOf (h : HostSys) (pa : Nat) : Nat :=
  if (h.port 0).ways == 2 && (h.port 1).ways == 2 then bitsOf ((h.port 0).base + pa) 12 12 else 0

/-- A back-invalidate snoop of a line is sent, unless one is outstanding (R112): one BISnpInvBlk for the two halves, which counts as two
messages (DESIGN CHOICE, log 119). `by_` tells whose access causes it. -/
def State.snoopLine (s : State) (line : Nat) (by_ : Who := ⟨0, 0, 0, 0⟩) : State :=
  if (s.plat.host.snoops.find line).isSome then s
  else
    let s := s.onHost fun h => { (h.modPort (h.wayOf (128 * line)) fun p => { p with bisnp := Nat.min (p.bisnp + 2) (2 ^ 32 - 1) }) with
      snoops := h.snoops.put line ⟨s.cycleOf (stackOfLine line / 2), by_, []⟩ }
    s.emit (.bisnp line)

/-- Whether the home may act now: it may, it waits for the host, or the host port is down. -/
inductive Ready where
  | go | wait | down
deriving DecidableEq, Repr

/-- One half-line of host memory before an access (R119, R120). Requests: 1 RdShared, 2 RdOwn, 3 RdCurr, 4 WrCur, 5 DirtyEvict,
6 CleanEvictNoData; 8 and 9 mark an uncached read and write that have been answered, 10 a read's answer that a fetch in progress uses. -/
def State.prepareHalf (s : State) (half : Nat) (write cached : Bool) : Bool × State :=
  let h := s.plat.host
  let wait := h.d2h.find half
  let ask (r : Nat) (s : State) := if wait.isSome then s else
    (s.onHost fun h => { h with d2h := h.d2h.put half r }).emit (.d2h half r)
  if !cached then
    if wait == some (if write then 9 else 8) || (wait == some 10 && !write) then (true, s)
    else (false, ask (if write then 4 else 3) s)
  else if wait == some 5 || wait == some 6 then (false, s)
  else if write then
    match h.mesi.getD 0 half with
    | 3 => (true, s)
    | 2 => (true, s.onHost fun h => { h with mesi := h.mesi.setD 0 half 3 })
    | _ => (false, ask 2 s)
  else if h.mesi.getD 0 half == 0 then (false, ask 1 s) else (true, s)

/-- The host's part before an access of n bytes at its home (R112, R120, R127). An atomic on host memory holds the line through RdOwn
whatever the cache level of its page (R124). -/
def State.prepare (s : State) (pa n : Nat) (write : Bool) (at_ : Attr) (atomic : Bool := false) (by_ : Who := ⟨0, 0, 0, 0⟩) : Ready × State :=
  if isHost pa then
    if !s.plat.host.up then (.down, s)
    else
      let halves := rangeFrom (pa / 64) ((pa + n - 1) / 64 + 1 - pa / 64)
      let (rd, s) := halves.foldl (fun (acc : Ready × State) half =>
        let (ok, s) := acc.2.prepareHalf half write (atomic || at_.cl != 2)
        (if ok then acc.1 else .wait, s)) (.go, s)
      if rd == .go then (rd, s.onHost fun h => { h with d2h := h.d2h.filter fun e => !(e.2 == (if write then 9 else 8) && halves.contains e.1) })
      else (rd, s)
  else
    let lines := rangeFrom (pa / 128) ((pa + n - 1) / 128 + 1 - pa / 128)
    let (rd, s) := lines.foldl (fun (acc : Ready × State) line =>
      if (acc.2.plat.host.own.find line).isSome then (.wait, acc.2.snoopLine line by_) else acc) (.go, s)
    if rd == .go && lines.any fun l => (s.plat.host.owed.find l).isSome then
      (rd, s.onHost fun h => { h with owed := h.owed.filter fun e => !lines.contains e.1 })
    else (rd, s)

/-- An access is held on its way: to its home, or from there to memory. -/
def State.wayHeld (s : State) (core home pa n : Nat) : Bool := s.linkHeld (dieOf core) home || s.memHeld home pa n

/-- The host's part before an access by an agent, once the way is open. -/
def State.prepareAt (s : State) (ag : Agent) (va pa n : Nat) (write : Bool) (at_ : Attr) (atomic : Bool := false) : Ready × State :=
  if s.wayHeld ag.dom.core (homeIn s ag.dom.space ag.dom.core va).1 pa n then
    (.wait, if s.mem.inL2 pa then s else s.noteStall (8 * ag.thr + pathCode ag.path, ag.dom.core + 1024 * ag.eng, va) pa n)
  else s.prepare pa n write at_ atomic ag.who

/-- A frame read as software-shared (R116): device writes to it fault. -/
def State.swShared (s : State) (pa : Nat) : Bool :=
  !isHost pa && s.plat.host.ssEn && s.plat.host.shared.contains (pa / 4096)

/-- A device write to host memory that is dropped while the port is down (R127). -/
def State.dropWrite (s : State) (pa : Nat) : State :=
  let s := s.onHost fun h => h.modPort 0 fun p => { p with dropw := Nat.min (p.dropw + 1) 0xFFFF }
  s.smqPut ⟨4, pa / 128, 0⟩

/-! The capacity of a slice (R217, R222). -/

/-- The lines of an L2 slice: 1 MiB (R217). The model takes a slice as one set (DESIGN CHOICE, log 131). -/
def l2Lines : Nat := 8192

/-- The line that a full set gives up: of the lowest EP, the least recently used (R222). -/
def victimOf (l : List L2Line) : Option L2Line :=
  l.foldl (fun (v : Option L2Line) k => match v with
    | none => some k
    | some v => if decide (k.ep < v.ep) || (k.ep == v.ep && decide (k.used < v.used)) then some k else some v) none

/-- A dirty line cannot be written back now: its memory is behind a link that is down, offline, or stalled by a repair (R47, R62, R71). -/
def State.wbHeld (s : State) (l : L2Line) : Bool :=
  let pa := 128 * l.pline
  l.wr && (s.linkHeld l.die (if isHost pa then 4 else bitsOf pa 38 37) || (!isHost pa && offMem s (bitsOf pa 38 37)) || s.rangeStalls pa 128)

/-- Lines that are to leave wait to be written back. -/
def State.dropHeld (s : State) (p : L2Line → Bool) : Bool := s.mem.l2.any fun l => p l && s.wbHeld l

/-- A half-line of host memory is evicted (R120): 5 DirtyEvict, 6 CleanEvictNoData; it goes to I at GO. With port 0 down nothing is asked
and it is in I at once. -/
def State.evictHalf (s : State) (half : Nat) : State :=
  let h := s.plat.host
  match h.mesi.getD 0 half with
  | 0 => s
  | st =>
    let r := if st == 3 then 5 else 6
    if !h.up then s.onHost fun h => { h with mesi := h.mesi.setD 0 half 0 }
    else if (h.d2h.find half).isSome then s
    else (s.onHost fun h => { h with d2h := h.d2h.put half r }).emit (.d2h half r)

/-- A line leaves a slice: a dirty one is written back to its recorded frame, one of host memory is evicted there (R120, R222). -/
def State.evictLine (s : State) (v : L2Line) : State :=
  let s := s.onMem fun m => { (if v.wr then m.writeBack v else m) with l2 := m.l2.filter (· != v) }
  if isHost (v.pline * 128) && !s.mem.l2.any (fun k => k.pline == v.pline) then
    (s.evictHalf (2 * v.pline)).evictHalf (2 * v.pline + 1)
  else s

/-! Trace records (R332, R333). -/

/-- A release by the device: a boundary with no thread. -/
def State.release (s : State) (know : Know) (sc : Scope) (core : Nat) : Nat × State :=
  let id := s.mem.seq
  (id, s.onMem fun m => { m with bnds := ⟨id, 0, core, sc, id, know⟩ :: m.bnds, seq := m.seq + 1 })

/-- The physical address of an offset in a ring (R450). -/
def Ring.pa (r : Ring) (off : Nat) : Nat := r.frames.getD (off / 4096) 0 + off % 4096

/-- The offset of a trace record's PC field and the others of R333: LTID, VA, PC, OLD, NEW, the cycle of a die, and KIND. -/
def traceBytes (ltid : Word) (va pc : Nat) (old new : List Byte) (cycle die kind : Nat) : List Byte :=
  let pad (l : List Byte) : List Byte := (l ++ List.replicate 16 0).take 16
  bytesLE 8 ltid.toNat ++ bytesLE 8 va ++ bytesLE 8 pc ++ pad old ++ pad new ++ bytesLE 6 cycle ++ bytesLE 1 die ++ bytesLE 1 kind

/-- The PC field of a trace record. -/
def tracePc (p : Pos) (size sc : Nat) : Nat := p.i * 2 ^ 60 + size % 16 * 2 ^ 56 + sc * 2 ^ 53 + p.a % 2 ^ 52 / 8 * 8

/-- A trace record is written to the ring of a function, or dropped where the ring is full. -/
def State.traceRec (s : State) (fn : Nat) (ltid : Word) (va pc : Nat) (old new : List Byte) (die kind : Nat) : State :=
  let t := (s.fnAt fn).trace
  if !t.ring.en then s
  else if 1024 ≤ (t.head + 2 ^ 32 - t.tail) % 2 ^ 32 then s.modFn fn fun f => { f with trace := { f.trace with ovf := true } }
  else
    let (id, s) := s.release ⟨0, []⟩ .sys 0
    let s := s.physWrite { Wr.base with pubs := [id] } (t.ring.pa (64 * (t.head % 1024)))
      (traceBytes ltid va pc old new (s.cycleOf die) die kind)
    s.modFn fn fun f => { f with trace := { f.trace with head := (f.trace.head + 1) % 2 ^ 32 } }

/-- A watched region of a function overlaps the range. -/
def State.traced (s : State) (fn va n : Nat) : Bool :=
  let t := (s.fnAt fn).trace
  t.ring.en && t.regions.any fun (base, en, len) => en && decide (va < base + (len + 127) / 128 * 128) && decide (base < va + n)

/-- A write into a watched region is recorded, in pieces of at most 16 bytes. -/
def State.traceWrite (s : State) (ag : Agent) (ltid : Word) (sc kind : Nat) (pc : Pos) (va : Nat) (old new : List Byte) (die : Nat) : State :=
  let n := new.length
  if ag.dom.space == .phys || !s.traced ag.fn va n then s
  else
    (rangeFrom 0 ((n + 15) / 16)).foldl (fun (s : State) k =>
      let m := Nat.min 16 (n - 16 * k)
      if s.traced ag.fn (va + 16 * k) m then
        s.traceRec ag.fn ltid (va + 16 * k) (tracePc pc m sc) ((old.drop (16 * k)).take 16) ((new.drop (16 * k)).take 16) die kind
      else s) s

/-- The functions that own an ASID: virtual function FUNC + 1, and the physical function (R129). -/
def asidFns (asid : Nat) : List Nat := [0, asid / 2048 + 1]

/-- The state code of a name of a line (R333). -/
def State.nameState (s : State) (sp : Space) (vline pline : Nat) : Nat :=
  if (s.plat.host.own.find pline).isSome then 3
  else match s.mem.l2.find? fun l => l.named sp vline && l.pline == pline with
    | some l => if l.wr then 2 else 1
    | none => 0

/-- The names under which the slices know a line: space, virtual line, die. They are those of the lines held, and those of the translations held
(log 152). -/
def MemSys.names (m : MemSys) (pline : Nat) : List (Space × Nat × Nat) :=
  let held : List (Space × Nat × Nat) := (m.l2.filter fun (l : L2Line) => l.pline == pline).map fun (l : L2Line) => (l.space, l.vline, l.die)
  let known := m.tlb.filter fun (e : TlbE) => decide (e.pa ≤ 128 * pline) && decide (128 * pline < e.pa + e.size)
  (held ++ known.map fun (e : TlbE) => (Space.asid e.asid, (e.va + (128 * pline - e.pa)) / 128, e.die)).eraseDups

/-- The names of watched lines whose state an action changed are recorded (R333): kind 3 invalidation, 4 host ownership, 5 remap
filter. -/
def State.traceNames (s0 s : State) (pline kind : Nat) (skip : Option (Space × Nat)) : State :=
  ((s0.mem.names pline).filter fun l => some (l.1, l.2.1) != skip).foldl (fun (s : State) l =>
    let a := s0.nameState l.1 l.2.1 pline
    let b := s.nameState l.1 l.2.1 pline
    if a = b then s
    else match l.1 with
      | .phys => s
      | .asid x => (asidFns x).foldl (fun (s : State) fn =>
          if s.traced fn (l.2.1 * 128) 128 then
            s.traceRec fn 0 (l.2.1 * 128) 0 [BitVec.ofNat 8 a] [BitVec.ofNat 8 b] l.2.2 kind
          else s) s) s

/-- Two lines share a set of the remap filter of a stack's controller: 65,536 sets of 16 entries (R230). -/
def sameRemap (a b : Nat) : Bool := stackOfLine a == stackOfLine b && Config.remapSet a % 2 ^ 16 == Config.remapSet b % 2 ^ 16

/-- The last use of a line under any name. -/
def MemSys.lastUse (m : MemSys) (pline : Nat) : Nat := (m.l2.filter (·.pline == pline)).foldl (fun n l => Nat.max n l.used) 0

/-- A new entry in a full set of the remap filter: every name of the least recently used entry is written back and invalidated (R230). -/
def State.remapRoom (s : State) (pline : Nat) : State :=
  if decide (s.mem.l2.length < 16) || isHost (128 * pline) || s.mem.inL2 (128 * pline) then s
  else
    let set := ((s.mem.l2.filter fun l => !isHost (128 * l.pline)).map (·.pline)).eraseDups.filter (sameRemap pline)
    let held (e : Nat) : Bool := s.mem.l2.any fun l => l.pline == e && s.wbHeld l
    if set.length < 16 then s
    else match (set.filter fun e => !held e).find? fun e => set.all fun f => decide (s.mem.lastUse e ≤ s.mem.lastUse f) with
      | none => s
      | some e => s.traceNames (s.onMem fun m => m.filterWrite e) e 5 none

/-- A slice makes room for a name that it does not hold yet. -/
def State.makeRoom (s : State) (home : Nat × Nat) (sp : Space) (vline pline : Nat) : State :=
  let s := s.remapRoom pline
  let mine := s.mem.l2.filter fun l => l.die == home.1 && l.slice == home.2
  if decide (mine.length < l2Lines) || mine.any (·.named sp vline) then s
  else match victimOf (mine.filter fun l => !s.wbHeld l) with
    | none => s
    | some v => s.evictLine v

/-- A read fill, with the filter's actions recorded (R230, R333). -/
def State.fillTraced (s : State) (home : Nat × Nat) (sp : Space) (vline pline ep : Nat) (at_ : Attr) (set : Bool := false) : State :=
  s.traceNames ((s.makeRoom home sp vline pline).onMem fun m => m.fill home sp vline pline ep at_ set) pline 5 (some (sp, vline))

/-- What a read does to the names of its line (R226, R230): a thread's read of a page that allocates in L2 is a fill under its name; an
uncached or streaming one, and an engine's, is a physical read. A line that an access with the no-allocate bit touches takes EP 0. -/
def State.readNames (s : State) (ag : Agent) (home : Nat × Nat) (va pa : Nat) (at_ : Attr) (na : Bool := false) : State :=
  if at_.allocL2 && ag.path == .ls then s.fillTraced home ag.dom.space (va / 128) (pa / 128) (if na then 0 else at_.ep) at_ na
  else s.traceNames (s.onMem fun m => m.filterRead (pa / 128)) (pa / 128) 5 none

/-! Translations. -/

/-- The lines whose entries a walk reads are read physically: a writable name is written back and becomes read-only (R229, R230). -/
def State.walked (s : State) (fn va : Nat) (sp : Space) : State :=
  match sp with
  | .phys => s
  | .asid a =>
    if s.mem.tlb.any fun e => e.die == (homeOf s va).1 && e.fn == fn && e.asid == a && e.va == va / e.size * e.size then s
    else (((walkReads s fn a va).map (· / 128)).eraseDups.filter fun l => (s.mem.dirtyLine l).isSome).foldl (fun (s : State) l =>
      s.traceNames (s.onMem fun m => m.filterRead l) l 5 none) s

/-- The translation of an access by an agent. An access from inside a containment region to a frame at risk does not go on: the region
unwinds with 0x10 (R54). -/
def State.xlate (s : State) (ag : Agent) (va : Nat) (a : Acc) : XRes × State :=
  match translate (s.walked ag.fn va ag.dom.space) ag.fn ag.dom.space ag.dom.core ag.lvl va a with
  | (.ok pa at_, s) =>
    if s.contained ag && !isHost pa && s.plat.health.atRisk.contains (pa / 4096) then (.fault 0x10 false, s)
    else (.ok pa at_, s)
  | r => r

/-! Writes at a home. -/

/-- A write lands at its home under a name: the filter acts, the line or memory takes the bytes, the write enters the
coherence order, watches fire (R226, R230, R420). A write-through one writes memory and leaves the line clean under a name that is writable; a
streaming or uncached one does so with a line that the name holds already. -/
def State.homeWrite (s : State) (w : Wr) (sp : Space) (home : Nat × Nat) (va pa : Nat) (at_ : Attr) (na : Bool)
    (bs : List Byte) (poison : Bool) : State :=
  let vl := va / 128
  let pl := pa / 128
  let s0 := s
  let named := at_.allocL2 || s.mem.l2.any fun l => l.named sp vl && l.pline == pl
  let ep := if na then 0 else at_.ep
  let s := (if at_.allocL2 then s.makeRoom home sp vl pl else s).onMem fun m =>
    let m := m.record w pa bs
    let m := m.dropOthers sp vl pl
    let m := if at_.dirtyL2 then m.nameLine home sp vl pl ep at_ true (Map.putList [] (pa % 128) bs) na
      else
        let m := { m.filterRead pl with bytes := (m.filterRead pl).store pa bs |>.bytes }
        if named then m.nameLine home sp vl pl ep at_ true [] na else m
    m.markPoison pa bs.length poison
  (s0.traceNames s pl 5 (some (sp, vl))).fire pl

/-- A strong access reaches its home slice (R248): what is older than the longest window is forgotten. -/
def State.noteStrong (s : State) (home pa n : Nat) : State :=
  let now := s.cycleOf home
  s.onMem fun m => { m with strong := (pa, n, now, home) :: m.strong.filter fun (p, k, c, d) =>
    (p, k, d) != (pa, n, home) && (d != home || decide ((now + 2 ^ 64 - c) % 2 ^ 64 < 2 ^ 16)) }

/-- The check of MEMDBG.MIXSZ (R248) at a home: a recent strong access of another size or place overlaps this one. -/
def State.mixed (s : State) (fn home pa n : Nat) : Bool :=
  let now := s.cycleOf home
  let f := (s.fnAt fn).mem
  f.mixsz && s.mem.strong.any fun (p, k, c, d) =>
    d == home && (p, k) != (pa, n) && decide (p < pa + n) && decide (pa < p + k) &&
      decide ((now + 2 ^ 64 - c) % 2 ^ 64 ≤ f.win)

/-- A strong write (R245, R248): where it meets a strong write of another size or place that its thread does not know, each
byte takes its value from one of the two. -/
def State.strongWrite (s : State) (ag : Agent) (sc : Scope) (pubs : List Nat) (home : Nat × Nat) (va pa : Nat)
    (at_ : Attr) (na : Bool) (bs : List Byte) (poison : Bool) : State :=
  let n := bs.length
  let w : Wr := ⟨s.mem.seq, some ag.dom, ag.thr, ag.path, some sc, ag.dom.core, pubs, (pa, n), (s.thread ag.thr).seen.know⟩
  let k := (s.thread ag.thr).seen.know
  let top (s : State) (a : Nat) := (s.mem.versions a).headD (memDefault, Wr.base)
  let (out, s) := ((rangeFrom pa n).zip bs).foldl (fun (acc : List Byte × State) (a, b) =>
    let t := top acc.2 a
    if t.2.strong.isSome && t.2.acc != (pa, n) && t.2.thr != ag.thr && !acc.2.mem.known k t.2 then
      let (lose, s) := chooseBool acc.2
      (acc.1 ++ [if lose then t.1 else b], s)
    else (acc.1 ++ [b], acc.2)) ([], s)
  let before := s.mem.read pa n
  let s := s.homeWrite w ag.dom.space home va pa at_ na out poison
  let s := (s.noteStrong home.1 pa n).onMem fun m => { m with seq := m.seq + 1 }
  s.traceWrite ag (s.thread ag.thr).ltid (scopeCode sc) 2 ag.pc va before out home.1

/-! Plain stores and boundaries (R242, R245). -/

/-- A plain store is performed in its domain; one of POISON poisons its blocks. -/
def State.plainStore (s : State) (ag : Agent) (va : Nat) (bs : List Byte) (poison : Bool) (na : Bool := false) : State :=
  let q := s.mem.seq
  let t := s.thread ag.thr
  let s := s.modDom ag.dom fun d => { d with
    poi := if poison && !bs.isEmpty then setUnion d.poi (blocksIn va bs.length) else d.poi
    stores := ((rangeFrom va bs.length).zip bs).foldl (fun m (a, b) =>
      m.put a ⟨b, poison, q, ag.thr, ag.path, (m.find a).map (·.val), false, false, false, ag.pc, t.ltid, t.seen.know, na⟩) d.stores }
  s.onMem fun m => { m with seq := m.seq + 1 }

/-- A word of a registered dependence counter lies in the range (R149). -/
def State.counterAt (s : State) (pa n : Nat) : Bool :=
  s.task.counters.any fun (_, c) => c.live && decide (c.pa < pa + n) && decide (pa < c.pa + 8)

/-- Whether a publication of a range can be performed, and where. -/
inductive PubRes where
  | ok (pa : Nat) (at_ : Attr)
  | fault (cause : Nat) (s2 : Bool)
  | offline (die : Nat)
  | wait
  | drop (pa : Nat)
deriving DecidableEq, Repr

/-- The checks of a write at its home: translation and permission, registered counters (R149), software-shared frames
(R116), the host (R112, R120). The bytes written are n from va on, or the given offsets and lengths in them. -/
def State.writeCheck (s : State) (ag : Agent) (va n : Nat) (parts : List (Nat × Nat) := [(0, n)]) : PubRes × State :=
  let (x, s) := s.xlate ag va .w
  match x with
  | .fault c st2 => (.fault c st2, s)
  | .offline d => (.offline d, s)
  | .wait => (.wait, s)
  | .ok pa at_ =>
    if parts.any fun k => s.counterAt (pa + k.1) k.2 then (.fault 7 false, s)
    else if s.swShared pa then (.fault 6 true, s.smqPut ⟨2, pa / 128, stackOfLine (pa / 128)⟩)
    else match s.prepareAt ag va pa n true at_ with
      | (.wait, s) => (.wait, s)
      | (.down, s) => (.drop pa, s)
      | (.go, s) => (.ok pa at_, s)

/-- The seqs of the unpublished bytes of a line, oldest first. -/
def lineSeqs (l : List (Nat × UByte)) : List Nat := l.foldl (fun r e => setIns r e.2.seq) []

/-- Bytes with rising addresses as runs of consecutive ones: first address and bytes. -/
def byteRuns : List (Nat × UByte) → List (Nat × List UByte)
  | [] => []
  | (a, u) :: rest => match byteRuns rest with
    | (b, us) :: rs => if b = a + 1 then (a, u :: us) :: rs else (a, [u]) :: (b, us) :: rs
    | [] => [(a, [u])]

/-- The blocks of a set of bytes. -/
def linesOf64 (l : List (Nat × UByte)) : List Nat := l.foldl (fun r e => setIns r (e.1 / 64)) []

/-- The unpublished bytes of one line, at most n of them, land at their home: one write for each store they come from,
in the order of the stores (R242). -/
def State.publishBytes (s : State) (ag : Agent) (sc : Scope) (pubs : List Nat) (pa va0 : Nat) (at_ : Attr)
    (l : List (Nat × UByte)) : State :=
  let home := homeIn s ag.dom.space ag.dom.core va0
  let s := (lineSeqs l).foldl (fun (s : State) q =>
    let mine := l.filter fun e => e.2.seq == q
    let s0 := s
    let s := mine.foldl (fun (s : State) e =>
      let w : Wr := ⟨s.mem.seq, some ag.dom, e.2.thr, e.2.path, none, ag.dom.core, pubs, (0, 0), e.2.know⟩
      s.homeWrite w ag.dom.space home e.1 (pa + (e.1 - va0)) at_ e.2.na [e.2.val] false) s
    let s := s.onMem fun m => { m with seq := m.seq + 1 }
    (byteRuns mine).foldl (fun (s : State) r => match r.2.head? with
      | none => s
      | some u => s.traceWrite ag u.ltid (scopeCode sc) 1 u.pc r.1 (s0.mem.read (pa + (r.1 - va0)) r.2.length) (r.2.map (·.val)) home.1) s) s
  let s := (((l.filter fun e => !e.2.na).map fun e => e.1 / 32).eraseDups).foldl (fun (s : State) x => s.l1Fill { ag with path := .ls } (32 * x) 32 at_ false) s
  let gone (h : Nat) : Bool := l.any fun e => e.1 / 64 == h
  let poi := (s.mem.dom ag.dom).poi.filter gone
  let whole := (linesOf64 l).filter fun h => !poi.contains h && decide ((l.filter fun e => e.1 / 64 == h).length = 64)
  let at64 (h : Nat) : Nat := 64 * (pa / 64 + h - va0 / 64)
  let s := s.onMem fun m => poi.foldl (fun m h => m.markPoison (at64 h) 64 true) (whole.foldl (fun m h => m.markPoison (at64 h) 64 false) m)
  s.modDom ag.dom fun d => d.keep fun e => !(l.any fun k => k.1 == e.1)

/-- What stops a publication: the first faulting line and the cause of a translation fault (R236), the first line with an offline home
(R73), or a wait. -/
inductive PubStop where
  | fault (va cause : Nat) (s2 : Bool)
  | offline (va die : Nat)
  | wait
deriving DecidableEq, Repr

/-- The lines of a set of unpublished bytes. -/
def linesOf (l : List (Nat × UByte)) : List Nat := l.foldl (fun r e => setIns r (e.1 / 128)) []

/-- Unpublished bytes are published, line by line: lines that cannot be stay held (R238, R73). -/
def State.publish (s : State) (ag : Agent) (sc : Scope) (pubs : List Nat) (l : List (Nat × UByte)) : Option PubStop × State :=
  (linesOf l).foldl (fun (acc : Option PubStop × State) line =>
    let mine := l.filter fun e => e.1 / 128 == line
    let va0 := (mine.head?.map (·.1)).getD 0
    let hold (s : State) := s.modDom ag.dom fun d => { d with
      stores := d.stores.map fun e => if e.1 / 128 == line then (e.1, { e.2 with held := true }) else e }
    let note (p : PubStop) := match acc.1 with
      | none => some p
      | some .wait => some p
      | some q => some q
    match acc.2.writeCheck ag va0 ((mine.getLast?.map fun e => e.1 + 1 - va0).getD 0) (mine.map fun e => (e.1 - va0, 1)) with
    | (.ok pa at_, s) => (acc.1, s.publishBytes ag sc pubs pa va0 at_ mine)
    | (.drop pa, s) => (acc.1, (s.dropWrite pa).modDom ag.dom fun d => d.keep fun e => e.1 / 128 != line)
    | (.fault c st2, s) => (note (.fault (line * 128) c st2), hold s)
    | (.offline d, s) => (note (.offline (line * 128) d), hold s)
    | (.wait, s) => (match acc.1 with | none => some .wait | some q => some q, s)) (none, s)

/-- Both of two knowledges. -/
def Know.join (a b : Know) : Know := ⟨Nat.max a.base b.base, setUnion a.ids b.ids⟩

/-- A boundary is performed (R242): it has its number, and the writes of its domain published at narrower scopes are now
published at its scope, as far as it covers them. What the threads that made them knew happens before it (R249). -/
def State.seal (s : State) (u : Nat) (k : DomKey) (know : Know) (sc : Scope) (p : Wr → Bool := fun _ => true) : Nat × State :=
  let id := s.mem.seq
  let wide (m : MemSys) (w : Wr) := w.pubs.any fun p => m.bnds.any fun b => b.id == p && b.core == k.core && scopeCode sc ≤ scopeCode b.scope
  let new := s.mem.hist.flatMap fun (_, l) => (l.filter fun (_, w) => w.dom == some k && w.strong.isNone && p w && !wide s.mem w).map fun (_, w) => w.know
  let know := new.eraseDups.foldl Know.join know
  let b : Bnd := ⟨id, u, k.core, sc, id, know⟩
  let s := s.onMem fun m => { m with
    hist := m.hist.map fun (a, l) => (a, l.map fun (v, w) =>
      (v, if w.dom == some k && w.strong.isNone && p w && !wide m w then { w with pubs := setIns w.pubs id } else w))
    bnds := b :: m.bnds
    seq := m.seq + 1 }
  let s := s.modThread u fun t => { t with seen := { t.seen with know := (t.seen.know.join know).join ⟨0, [id]⟩ } }
  (id, s.modDom k fun d => { d with snap := (d.snap.join know).join ⟨0, [id]⟩ })

/-- A boundary of a thread at a scope (R242): every unpublished store of its domain is published but those whose
hold has expired or that belong to a waiting store, which wait for ADMIT (R73), and with nothing held the
boundary is performed; it is a snapshot point too (R243). -/
def State.boundary (s : State) (u : Nat) (sc : Scope) : Option PubStop × State :=
  let t := s.thread u
  let ag := s.agent t .ls
  match s.publish ag sc [] ((s.mem.dom ag.dom).stores.filter fun e => !(e.2.late || e.2.store)) with
  | (some p, s) => (some p, s)
  | (none, s) =>
    let s := s.snapshot u sc
    let (_, s) := s.seal u ag.dom (s.thread u).seen.know sc
    (none, s)

/-- The unpublished bytes of a range are published before a strong access of the same domain touches them (R245). -/
def State.publishRange (s : State) (ag : Agent) (va n : Nat) : Option PubStop × State :=
  s.publish ag .core [] ((s.mem.dom ag.dom).stores.filter fun e => decide (va ≤ e.1) && decide (e.1 < va + n))

end Sys2Proof.Machine
end

