-- ==== Sys2Proof/Machine/NorLink.lean ====
section
/-! DEFINITION. The sending side of the Norano ports: flits, routes, the replay buffer, messages to other modules (spec/04 R81 to R84), and
the end of a collective operation. The messages are `FlitInfo.kind`: 1 heartbeat, 2 suspect notice, 3 leave notice, 4 proposal, 5
acknowledgement (with the fixed results held here, 2^32 · member + KEY), 6 break notice of an operation, 7 admission request, 8 commit, 9 a
donor's view, 10 a refused admission, 11 the fixed results that go with a commit, 12 no quorum, 13 not a member, 14 the SEQ that a receiver
expects (log 31). -/

namespace Sys2Proof.Machine

/-- n free bytes. -/
def freeBytes : Nat → State → List Byte × State
  | 0, s => ([], s)
  | n + 1, s =>
    let (v, s) := choose 256 s
    let (l, s) := freeBytes n s
    (BitVec.ofNat 8 v :: l, s)

/-- Saturating add of one to a 16-bit count. -/
def sat16 (n : Nat) : Nat := Nat.min (n + 1) 0xFFFF

/-- A die that the unit map enables (R21, R70). -/
def State.dieOn (s : State) (d : Nat) : Bool := decide (d < 4) && (s.pkg.die d).drst != 15

def FlitInfo.none : FlitInfo := ⟨0, 0, [], 0, 0, false, [], 0, 0, []⟩

/-! Ports (R20, R22, R83). -/

def State.portAt (s : State) (p : Nat) : NPort := s.plat.nor.ports.getD NPort.reset p

def State.modPort (s : State) (p : Nat) (f : NPort → NPort) : State :=
  s.onNor fun n => { n with ports := n.ports.modD NPort.reset p f }

/-- The lanes of a port in the unit map; a port with none is disabled (R22). -/
def State.lanesOf (s : State) (p : Nat) : Nat := bitsOf (s.pkg.die (p / 12)).umnor (4 * (p % 12) + 3) (4 * (p % 12))

/-- A port is disabled: by training, by the unit map, or with its die, absent or lost. -/
def State.portOff (s : State) (p : Nat) : Bool :=
  (s.portAt p).state == 4 || s.lanesOf p == 0 || !s.dieOn (p / 12) || (s.pkg.die (p / 12)).drst == 8

/-- A port that carries traffic. -/
def State.portUp (s : State) (p : Nat) : Bool := (s.portAt p).state == 2 && !s.portOff p

/-! Flits (R81). -/

/-- One step of the CRC-64 of R81: a bit goes out at the top. -/
def crcBit (c : Nat) : Nat := if 2 ^ 63 ≤ c then (c * 2) % 2 ^ 64 ^^^ 0x42F0E1EBA9EA3693 else c * 2

/-- The CRC-64 of R81: initial value zero, no reflection, no final XOR. -/
def crc64 (bs : List Byte) : Nat :=
  bs.foldl (fun c b => (rangeFrom 0 8).foldl (fun c _ => crcBit c) (c ^^^ (b.toNat * 2 ^ 56))) 0

/-- The 256 bytes of a flit: HDR, payload, CRC. -/
def flitImage (ty seq ack dst src crd : Nat) (body : List Byte) : List Byte :=
  let h := bytesLE 8 (ty + seq * 2 ^ 4 + ack * 2 ^ 16 + dst * 2 ^ 28 + src * 2 ^ 39 + crd * 2 ^ 50) ++ body
  h ++ bytesLE 8 (crc64 h)

/-- A flit goes out on a port: ACK is the last SEQ received in order; the credits it returns are free (log 123). -/
def State.putFlit (s : State) (p : Nat) (e : Nat × NFlit) : State :=
  let (crd, s) := choose 16 s
  s.emit (.norano p (flitImage e.2.ty e.1 (((s.portAt p).exp + 4095) % 4096) e.2.dst s.plat.nor.view.self_ crd e.2.body) e.2.x)

/-- The held flits that may go: the replay buffer holds 128, and a data flit takes a credit. -/
def sendable : Nat → Nat → List NFlit → List NFlit
  | 0, _, _ => []
  | _, _, [] => []
  | room + 1, crd, f :: l => if f.ty == 1 then (if crd = 0 then [] else f :: sendable room (crd - 1) l) else f :: sendable room crd l

/-- A port that is up sends what it holds, in order. -/
def State.pump (s : State) (p : Nat) : State :=
  if s.portUp p then
    let q := s.portAt p
    let l := sendable (128 - q.sent.length) q.crd q.outq
    let new := ((rangeFrom 0 l.length).zip l).map fun e => ((q.seq + e.1) % 4096, e.2)
    let s := s.modPort p fun q => { q with
      sent := q.sent ++ new, outq := q.outq.drop l.length, seq := (q.seq + l.length) % 4096
      crd := q.crd - (l.filter fun f => f.ty == 1).length }
    new.foldl (fun (s : State) e => s.putFlit p e) s
  else s

/-- The ports that the route table gives for a module, of those that meet a condition (R84). -/
def State.routes (s : State) (m : Nat) (ok : Nat → Bool) : List Nat :=
  let mask := ofBytesLE (s.mem.read (s.plat.nor.nrtbase + 8 * m) 8)
  (rangeFrom 0 48).filter fun p => bitOf mask p && ok p

/-- A flit is sent over one of the ports of its destination that are up; while none is, a port that is down holds it. Which port carries which
chunk is free (R84, log 123). A flit with no port but disabled ones goes nowhere. -/
def State.post (s : State) (f : NFlit) : State :=
  let up := s.routes f.dst s.portUp
  let l := if up.isEmpty then s.routes f.dst fun p => !s.portOff p else up
  let (p, s) := chooseFrom l 48 s
  if p < 48 then (s.modPort p fun q => { q with outq := q.outq ++ [f] }).pump p else s

/-- A message to a module: its payload is not laid out, so its bytes are free (log 31). -/
def State.sendMsg (s : State) (kind num : Nat) (set : List Nat) (m : Nat) : State :=
  let (bs, s) := freeBytes 240 s
  s.post ⟨if kind = 1 then 2 else 3, m, bs, 0, { FlitInfo.none with kind := kind, num := num, set := set }⟩

/-- A message to each module of a set but this one. -/
def State.tell (s : State) (kind num : Nat) (to_ set : List Nat) : State :=
  (to_.filter (· != s.plat.nor.view.self_)).foldl (fun (s : State) m => s.sendMsg kind num set m) s

/-- The flits from an index of the replay buffer on go out again. -/
def State.replay (s : State) (p : Nat) (from_ : Nat) : State :=
  let l := (s.portAt p).sent.drop from_
  let s := s.modPort p fun q => { q with retry := Nat.min (q.retry + l.length) 0xFFFF }
  l.foldl (fun (s : State) e => s.putFlit p e) s

/-- A port goes down and holds its traffic. -/
def State.portDrop (s : State) (p : Nat) : State := s.modPort p fun q => { q with state := 0, skip := 0, tries := 0 }

/-- A port is disabled: its traffic is sent over other ports (R83, R84). -/
def State.portDisable (s : State) (p : Nat) : State :=
  let q := s.portAt p
  let s := s.modPort p fun q => { q with state := 4, sent := [], outq := [] }
  (q.sent.map (·.2) ++ q.outq).foldl State.post s

/-- Data flits of runs under older views that no one has acknowledged are discarded (R100): in the replay buffer an idle flit takes the place of
each. -/
def State.dropOldFlits (s : State) (num : Nat) : State :=
  let old (f : NFlit) : Bool := f.ty == 1 && decide (f.tag < num)
  s.onNor fun n => { n with ports := n.ports.map fun e => (e.1, { e.2 with
    outq := e.2.outq.filter fun f => !old f
    sent := e.2.sent.map fun f => if old f.2 then (f.1, { f.2 with ty := 0, x := FlitInfo.none }) else f }) }

/-! The end of a collective operation (R95). -/

def State.modOp (s : State) (id : Nat) (f : CollOp → CollOp) : State :=
  s.onNor fun n => { n with ops := n.ops.map fun e => if e.1 == id then (e.1, f e.2) else e }

/-- An operation ends with a code, unless it has already; its status record is still to be written. The VIEW field of the record is the tag of
its last run, also for one that ends at an installation (DESIGN CHOICE, log 124). -/
def State.collEnd (s : State) (id code : Nat) : State :=
  let s := s.onLinks fun l => { l with held := l.held.filter fun h => h.who != .coll id }
  s.modOp id fun o => if o.code.isSome then o else { o with code := some code, wait := 0, fseq := none }

/-- The operation leaves its slot; a final result is kept (R86, R100). -/
def State.freeOp (s : State) (id : Nat) (o : CollOp) : State :=
  s.onNor fun n => { n with ops := n.ops.del id, finals := if o.final.isSome then n.finals.put o.key o else n.finals }

/-- Break notices go to the other members (R95). -/
def State.breakNotice (s : State) (o : CollOp) : State :=
  s.tell 6 o.key (if o.orig.isEmpty then s.plat.nor.view.members else o.orig) []

end Sys2Proof.Machine
end

