-- ==== Sys2Proof/Machine/Crew.lean ====
section
/-! DEFINITION. Records the device writes, dependence counters, broken objects, and the end of tasks and crews (spec/06 R136,
R137; spec/07 R147 to R152; spec/08 R182, R185, R186). -/

namespace Sys2Proof.Machine

/-! Device writes. -/

/-- What a thread knows after everything it did (R249), for a release the device makes on its behalf. -/
def State.knowOf (s : State) (u : Nat) : Know := (s.thread u).seen.know

/-- A monitored write to physical memory (R245): a release of what `know` holds. -/
def State.monitor (s : State) (know : Know) (sc : Scope) (core pa : Nat) (bs : List Byte) : State :=
  let (id, s) := s.release know sc core
  (s.physWrite { Wr.base with pubs := [id], strong := some sc, core := core, acc := (pa, bs.length) } pa bs).noteStrong (homePa s core pa).1 pa bs.length

/-- A ring record whose first or last bytes are written by a release after the others (R136, R236). -/
def State.ringRecord (s : State) (know : Know) (r : Ring) (off : Nat) (bs : List Byte) (seqOff seqLen : Nat) : State :=
  let (id, s) := s.release know .sys 0
  let w : Wr := { Wr.base with pubs := [id] }
  let s := s.physWrite w (r.pa off) bs
  s.physWrite { w with strong := some .sys, acc := (r.pa (off + seqOff), seqLen) } (r.pa (off + seqOff))
    ((bs.drop seqOff).take seqLen)

/-! The accept journal (R136, R137). -/

/-- A journal entry: kind, cause, launch, LQ, ARGS, the writing die, and for a launch CTL and PLACE. -/
structure JEntry where
  kind   : Nat
  cause  : Nat
  launch : Nat
  lq     : Nat
  args   : Nat
  die    : Nat
  ctl    : Bool
  place  : Nat
deriving DecidableEq, Repr

def JEntry.bytes (e : JEntry) (seq cycle : Nat) : List Byte :=
  bytesLE 8 seq ++ bytesLE 4 e.launch ++ bytesLE 2 e.lq ++ bytesLE 1 e.kind ++ bytesLE 1 e.cause ++ bytesLE 8 e.args ++
    bytesLE 6 cycle ++ bytesLE 1 (e.die + if e.ctl then 128 else 0) ++ bytesLE 1 e.place

/-- An entry is journalled for a function. -/
def State.journal (s : State) (fn : Nat) (know : Know) (e : JEntry) : State :=
  let j := (s.fnAt fn).jnl
  if !j.ring.en then s
  else if e.kind == 4 && decide (2 ^ j.logsz ≤ (j.head + 2 ^ 64 - j.tail) % 2 ^ 64) then
    s.modFn fn fun f => { f with jnl := { f.jnl with ovf := true } }
  else
    let s := s.ringRecord know j.ring (32 * (j.head % 2 ^ j.logsz)) (e.bytes j.head (s.cycleOf e.die)) 0 8
    s.modFn fn fun f => { f with jnl := { f.jnl with head := (f.jnl.head + 1) % 2 ^ 64 } }

def TaskSlot.lq16 (t : TaskSlot) : Nat := t.lq

/-- A ring block of a pattern is free again (R176). -/
def State.freeBlock (s : State) (p k : Nat) : State :=
  let f (e : Nat × Pattern) : Nat × Pattern :=
    if e.1 == p then (e.1, { e.2 with busy := BitVec.ofNat 16 (setBits e.2.busy.toNat k k 0) }) else e
  s.onTask fun x => { x with patterns := x.patterns.map f }

/-- A task ends: its terminal entry is written, its edges clear, its slot and a handler's ring block are free (R130, R136,
R153, R176). -/
def State.endTask (s : State) (slot kind cause : Nat) (know : Know) : State :=
  match s.task.slots.find slot with
  | none => s
  | some t =>
    let s := s.journal t.fn know ⟨kind, cause, t.launch, t.lq, t.rec_.args, t.die, false, 0⟩
    let s := s.modFn t.fn fun f => { f with uSlots := f.uSlots - 1, jnl := { f.jnl with open_ := f.jnl.open_ - 1 } }
    let s := match t.handler with
      | none => s
      | some (p, k) => s.freeBlock p k
    s.onTask fun k => { k with slots := (k.slots.del slot).map fun (n, u) =>
      (n, { u with edges := u.edges.filter (· != t.launch) }) }

/-! Dependence counters (R149 to R152). -/

/-- The word of a counter as its home holds it. -/
def State.counterWord (s : State) (c : Counter) : Nat := ofBytesLE (s.mem.read c.pa 8)

/-- A word that the device, or a thread, writes at a home, a strong write under a VA: one record of a watched line tells it (R333). -/
def State.homeWord (s : State) (thr fn core : Nat) (sp : Space) (w : Wr) (va pa : Nat) (sc : Scope) (bs : List Byte) : State :=
  let die := (homeIn s sp core va).1
  let old := s.mem.read pa bs.length
  let ag : Agent := { Agent.dev ⟨core, sp, 0⟩ fn .h with thr := thr, pc := (s.thread thr).pos }
  let s := (s.physStore { w with strong := some sc, core := core, acc := (pa, bs.length) } pa bs).noteStrong die pa bs.length
  s.traceWrite ag (s.thread thr).ltid (scopeCode sc) 2 ag.pc va old bs die

/-- A counter's word is written at its home, a strong write at device scope (R431). -/
def State.setCounter (s : State) (thr core : Nat) (c : Counter) (pubs : List Nat) (v : Nat) : State :=
  s.homeWord thr c.fn core (.asid c.asid) { Wr.base with pubs := pubs } c.va c.pa .dev (bytesLE 8 v)

/-- The releases that a counter's word carries: every decrement goes on with those before it (R151). -/
def State.counterPubs (s : State) (c : Counter) : List Nat := ((s.mem.versions c.pa).head?.map fun v => v.2.pubs).getD []

/-- A die takes part: it is admitted and no QUIESCE of it has begun (R64). -/
def State.inService (s : State) (d : Nat) : Bool := decide (d < 4) && (s.pkg.die d).drst == 0 && !s.stepping d 1

/-- A node is released (R150): a task may become ready, a channel goes on with an acquire of what the counter's word carries (R151), or
is held by a quiesce of its die (R264). -/
def State.releaseNode (pubs : List Nat) (s : State) (n : Node) : State :=
  match n with
  | .task slot => s.onTask fun k => { k with slots := k.slots.map fun (i, t) =>
      if i == slot && t.st == .parked then (i, { t with st := .waiting }) else (i, t) }
  | .channel id => match s.task.channels.find id with
    | none => s
    | some c =>
      if c.state != 1 then s
      else
        let know := s.mem.learn c.know pubs .dev c.dom.core
        let c := { c with state := if s.inService (id / 64) then 2 else 6, gate := none, know := know, start := s.mem.seq }
        (s.onTask fun k => { k with channels := k.channels.put id c }).snapTo c.dom know

/-- A parked node fails with 0x0E, and the failure is journalled (R152). For a channel, which is no task, the entry carries the launch number of
the crew that started it, and zero for its queue and ARGS (DESIGN CHOICE, log 126). -/
def State.failNode (s : State) (n : Node) : State :=
  match n with
  | .task slot => s.endTask slot 4 0x0E ⟨0, []⟩
  | .channel id => match s.task.channels.find id with
    | none => s
    | some c =>
      let s := s.onTask fun k => { k with channels := k.channels.put id { c with state := 5, code := 0x0E, gate := none } }
      s.journal c.fn ⟨0, []⟩ ⟨4, 0x0E, c.ltid.toNat % 2 ^ 32, 0, 0, id / 64, false, 0⟩

/-- A decrement of a counter by a node that knows `know` takes effect at its home (R150, R151). A broken counter keeps its COUNT (DEDUCED from
R432, log 120). -/
def State.decrement (s : State) (thr ix : Nat) (know : Know) (core : Nat) : State :=
  match s.task.counters.find ix with
  | none => s
  | some c =>
    let w := s.counterWord c
    if !c.live || bitOf w 63 then s
    else
      let (id, s) := s.release know .dev core
      let pubs := setIns (s.counterPubs c) id
      if bitsOf w 31 0 = 0 then s.setCounter thr core c pubs (setBits w 62 62 1)
      else
        let s := s.setCounter thr core c pubs (w - 1)
        if bitsOf w 31 0 = 1 then
          let s := c.parked.foldl (State.releaseNode pubs) s
          s.onTask fun k => { k with counters := k.counters.put ix { c with parked := [] } }
        else s

/-- The counter that a function has registered at a VA (R431). -/
def State.counterOf (s : State) (fn va : Nat) : Option (Nat × Counter) :=
  s.task.counters.find? fun (_, c) => c.live && c.fn == fn && c.va == va

/-- A counter is broken at its home (R152). -/
def State.breakCounter (s : State) (thr ix core : Nat) : State :=
  match s.task.counters.find ix with
  | none => s
  | some c =>
    let s := s.setCounter thr core c [] (setBits (s.counterWord c) 63 63 1)
    let s := s.onTask fun k => { k with counters := k.counters.put ix { c with parked := [] } }
    c.parked.foldl State.failNode s

/-- A counter's place is free again (R432, R138); nodes still parked on it fail (R152). -/
def State.freeCounter (s : State) (ix : Nat) : State :=
  match s.task.counters.find ix with
  | none => s
  | some c =>
    let s := c.parked.foldl State.failNode s
    let s := s.modFn c.fn fun f => { f with uCnts := f.uCnts - 1 }
    s.onTask fun k => { k with counters := k.counters.put ix { c with live := false, parked := [] } }

/-! Laces (R204, R207, R210). The key of lace k of a row of a context is (64 · context + row) · 12 + k. -/

def laceKey (t : Thread) (k : Nat) : Nat := (64 * t.id.ctx + t.id.row) * 12 + k

def State.lace (s : State) (t : Thread) (k : Nat) : Lace := s.core.laces.getD Lace.reset (laceKey t k)

def State.modLace (s : State) (t : Thread) (k : Nat) (f : Lace → Lace) : State :=
  s.onCore fun c => { c with laces := c.laces.modD Lace.reset (laceKey t k) f }

/-- A bit of a 32-bit mask set or cleared. -/
def setLane (m : BitVec 32) (lane : Nat) (b : Bool) : BitVec 32 := BitVec.ofNat 32 (setBits m.toNat lane lane b.toNat)

/-- The equal-key set of a thread in a lace (R204): the member threads of its row and context that hold its key. -/
def State.equalKey (s : State) (t : Thread) (k : Nat) : List Thread :=
  let l := s.lace t k
  s.core.threads.filter fun u => u.id.core == t.id.core && u.id.ctx == t.id.ctx && u.id.row == t.id.row && !u.isCtl &&
    u.id.exk == t.id.exk && l.mem.getLsbD u.id.lane

/-- The position after instruction i of a thread's clause (R373, R237). -/
def Thread.after (t : Thread) : Pos :=
  let n := bitsOf (t.clause.headD 0).toNat 56 53
  if t.pos.i < n then ⟨t.pos.a, t.pos.i + 1⟩ else ⟨t.pos.a + 16 + 8 * n, 0⟩

/-- A thread that posts the position after its instruction: at the end of a clause whose header has the yield hint it yields (R202). -/
def Thread.hinted (t : Thread) : Bool := t.yielded || (t.after.i == 0 && bitOf (t.clause.headD 0).toNat 44)

/-- A waiting thread becomes ready at a position after its instruction; a step in progress is then done (R330). -/
def Thread.wake (t : Thread) (now : Nat) (p : Pos) : Thread :=
  { t with yielded := if p == t.after then t.hinted else t.yielded, mark := none, run := .ready, ready := now, pos := p, clause := if p.i = 0 then [] else t.clause, stopReq := t.stopReq || t.stepping }

/-- Crossings of a lace (R206, R207): a set whose members have all arrived crosses; waiting members become ready at the
position after their WAITM. -/
def State.crossing (s : State) (t : Thread) (k : Nat) : State :=
  let e := s.equalKey t k
  let l := s.lace t k
  if !e.isEmpty && e.all (fun u => l.arr.getLsbD u.id.lane) then
    let s := s.modLace t k fun l => e.foldl (fun (l : Lace) u => { l with
      arr := setLane l.arr u.id.lane false, ph := setLane l.ph u.id.lane (!l.ph.getLsbD u.id.lane) }) l
    e.foldl (fun (s : State) u => s.modThread u.uid fun u => match u.run with
      | .waiting w => if w.kind == .lace && w.a == k && u.mark.isNone then u.wake (s.now u) u.after else u
      | _ => u) s
  else s

/-- A thread waits at lace k, in a crossing or a rendezvous. -/
def Thread.waitsAt (t : Thread) (k : Nat) : Bool :=
  match t.run with
  | .waiting w => (w.kind == .lace || w.kind == .rdv) && w.a == k
  | _ => false

/-- Lace k breaks for a thread's key: the waiters of the set wake with the broken status (R185, R210). -/
def State.breakLace (s : State) (t : Thread) (k : Nat) (others : List Thread) : State :=
  let s := s.modLace t k fun l => { l with broken := setIns l.broken t.id.exk }
  others.foldl (fun (s : State) v => s.modThread v.uid fun x => if x.waitsAt k then { x with mark := some 2 } else x) s

/-- A thread leaves every lace (R210, R376); with `brk` its sets break for its key, else they may cross. -/
def State.leaveLaces (s : State) (u : Nat) (brk : Bool) : State :=
  let t := s.thread u
  if t.isCtl then s
  else (rangeFrom 0 12).foldl (fun (s : State) k =>
    if !(s.lace t k).mem.getLsbD t.id.lane then s
    else
      let others := (s.equalKey t k).filter fun v => v.uid != u
      let s := s.modLace t k fun l => { l with mem := setLane l.mem t.id.lane false, arr := setLane l.arr t.id.lane false }
      if brk then s.breakLace t k others
      else match others with
        | v :: _ => s.crossing v k
        | [] => s) s

/-! Broken objects (R186). Port keys are 256 · cluster + port, pattern keys 64 · cluster + entry. -/

/-- Waiting threads that meet a condition are told that their wait is over (1) or that their object broke (2). -/
def State.markWaiters (s : State) (code : Nat) (p : Thread → WaitRec → Bool) : State :=
  let hit (t : Thread) : Bool := match t.run with
    | .waiting w => t.mark == some 0 && p t w
    | _ => false
  s.onCore fun k => { k with threads := k.threads.map fun t => if hit t then { t with mark := some code } else t }

/-- A port's waiting senders are told, and leave the port (R168, R186). -/
def State.endSenders (s : State) (p : Nat) : State :=
  match s.task.ports.find p with
  | none => s
  | some q =>
    let s := s.markWaiters 2 fun t w => w.kind == .send && q.sendq.any fun e => e.1 == t.uid
    s.onTask fun k => { k with ports := k.ports.put p { q with sendq := [] } }

/-- A port breaks, and every pattern that names it (R186); its waiting senders wake. -/
def State.breakPort (s : State) (p : Nat) : State :=
  let s := s.endSenders p
  match s.task.ports.find p with
  | none => s
  | some q =>
    let brk (e : Pattern) : Pattern := if e.ports.contains (p, q.gen) then { e with brk := true } else e
    s.onTask fun k => { k with ports := k.ports.put p { q with brk := true }, patterns := k.patterns.map fun e => (e.1, brk e.2) }

/-- The break of a port as an event of its port unit (R170): one that has a firing to complete takes it after. -/
def State.breakEvent (s : State) (p : Nat) : State :=
  if (s.clusterAt (p / 256)).firing.isSome then s.modCluster (p / 256) fun k => { k with breaks := setIns k.breaks p } else s.breakPort p

/-- The kinds of wait on a barrier. -/
def WaitKind.atBarrier : WaitKind → Bool
  | .bwait => true
  | .bpwait => true
  | .bsync => true
  | _ => false

/-- A barrier breaks, and its waiters wake (R186). Its key is 32 · context + number. -/
def State.breakBarrier (s : State) (b : Nat) : State :=
  match s.core.barriers.find b with
  | none => s
  | some q =>
    let s := s.markWaiters 2 fun t w => w.kind.atBarrier && w.a == b && t.mark == some 0
    s.onCore fun k => { k with barriers := k.barriers.put b { q with brk := true, pend := [] } }

/-- Where a future that a thread names stands. -/
def State.futurePa (s : State) (t : Thread) (va : Nat) : Option Nat :=
  if t.inH then some va
  else match walk s t.id.fn t.id.asid va with
    | .error _ => none
    | .ok e => some (e.pa + va % e.size)

/-- The waiters of a future wake (R182): 2 with the broken status, n + 4 with the value n. -/
def State.wakeFuture (s : State) (pa code : Nat) : State :=
  s.markWaiters code fun t w => w.kind == .fget && s.resident t && s.futurePa t w.a == some pa

/-! Writes that the device makes of itself (R71, R112, R116, R120, R127). -/

/-- A write by the device at a home: it may be made, it waits for its home, its memory or the host, it is written nowhere, or it faults, which for
a software-shared frame is until the frame's bit is cleared. -/
def State.choreAt (s : State) (core : Nat) (sp : Space) (va pa n : Nat) : PubRes × State :=
  let home := (homeIn s sp core va).1
  let gone (d : Nat) : PubRes := if (s.pkg.die d).drst = 8 then .offline d else .wait
  if offHome s home then (gone home, s)
  else if s.memOffline pa then (gone (bitsOf pa 38 37), s)
  else if s.wayHeld core home pa n then (.wait, s)
  else if s.swShared pa then (.fault 6 true, s)
  else match s.prepare pa n true (Attr.phys pa) true with
    | (.go, s) => (.ok pa (Attr.phys pa), s)
    | (.down, s) => (.drop pa, s)
    | (.wait, s) => (.wait, s)

/-- Where a chore writes: the space, a core, the VA, and the address; or whether it waits for the way to a table, with nothing to write
otherwise. -/
def State.choreTarget (s : State) (c : Chore) : Except Bool (Space × Nat × Nat × Nat) :=
  let ctr (ix core : Nat) : Except Bool (Space × Nat × Nat × Nat) := match s.task.counters.find ix with
    | some k => if k.live && !bitOf (s.counterWord k) 63 then .ok (.asid k.asid, core, k.va, k.pa) else .error false
    | none => .error false
  match c with
  | .dec ix _ core => ctr ix core
  | .step ix _ key _ => ctr ix key.core
  | .brk ix core => ctr ix core
  | .claim fn sp core va _ => match sp with
    | .phys => .ok (sp, core, va + 8, va + 8)
    | .asid a => match walkFrom s (homeOf s va).1 fn a va with
      | .ok e => .ok (sp, core, va + 8, e.pa + va % e.size + 8)
      | .error (k, _) => .error (decide (2 ^ 60 ≤ k) || (decide (0x100 ≤ k) && (s.pkg.die (k - 0x100)).drst != 8))

/-- A chore is carried out at its home. A claim that a published store replaced is no longer its crew's. -/
def State.choreDo (s : State) (c : Chore) (pa : Nat) : State :=
  match c with
  | .dec ix know core => s.decrement 0 ix know core
  | .step ix know key _ => s.decrement 0 ix know key.core
  | .brk ix core => s.breakCounter 0 ix core
  | .claim fn sp core va holder =>
    let w := ofBytesLE (s.mem.read pa 8)
    if bitsOf w 63 62 == 1 && bitsOf w 47 0 == holder then
      (s.homeWord 0 fn core sp Wr.base (va + 8) pa .sys (bytesLE 8 (w + 2 ^ 63))).wakeFuture (pa - 8) 2
    else s

/-- The boundary at device scope that the decrement of a step table is (R242): the decrement carries it. Until what its domain has stored can be
published it waits; lines that fault stay unpublished (log 153). -/
def State.choreBoundary (s : State) (c : Chore) : Option Chore × State :=
  match c with
  | .step ix know key fn => match s.publish (Agent.dev key fn) .dev [] ((s.mem.dom key).stores.filter fun e => !(e.2.late || e.2.store)) with
    | (some .wait, s) => (none, s)
    | (some (.offline _ _), s) => (none, s)
    | (_, s) => let (k, s) := s.seal 0 key know .dev; (some (.dec ix (know.join ⟨0, [k]⟩) key.core), s)
  | c => (some c, s)

/-- A chore is tried: carried out, dropped while the host's port is down or with a die that is lost, or kept until it can be. -/
def State.tryChore (s : State) (e : Chore × Bool) : State :=
  let keep (c : Chore) (told : Bool) (s : State) : State := s.onTask fun k => { k with chores := k.chores ++ [(c, told)] }
  match s.choreBoundary e.1 with
  | (none, s) => keep e.1 e.2 s
  | (some c, s) => match s.choreTarget c with
    | .error wait => if wait then keep c e.2 s else s
    | .ok (sp, core, va, pa) => match s.choreAt core sp va pa 8 with
      | (.ok pa _, s) => s.choreDo c pa
      | (.drop pa, s) => s.dropWrite pa
      | (.offline _, s) => s
      | (.wait, s) => keep c e.2 s
      | (.fault _ _, s) => keep c true (if e.2 then s else s.smqPut ⟨2, pa / 128, stackOfLine (pa / 128)⟩)

def State.chore (s : State) (c : Chore) : State := s.tryChore (c, false)

/-- The chores that wait are tried again, the oldest first. -/
def State.settleChores (s : State) : State :=
  s.task.chores.foldl State.tryChore (s.onTask fun k => { k with chores := [] })

/-- The chores that wait for a die that is offline, as the home or the memory of what they write (R70). -/
def State.choresHeld (s : State) (d : Nat) : List (Chore × Bool) :=
  if !offHome s d then []
  else s.task.chores.filter fun e => match s.choreTarget e.1 with
    | .ok (sp, core, va, pa) => (homeIn s sp core va).1 == d || (!isHost pa && bitsOf pa 38 37 == d)
    | .error _ => false

/-- An operation of a killed crew is broken at every member (R95): it completes here with 0x0E and a status record, its entries fire
(R94), and no one waits for it. One that is over is freed with its crew (R86). -/
def State.breakOp (s : State) (i : Nat) (o : CollOp) : State :=
  if o.written then s.freeOp i o
  else ((if o.code.isSome then s else s.breakNotice o).collEnd i 0x0E).modOp i fun o => { o with crew := 0 }

/-- What breaks when a crew is killed or fails (R186, R182, R161, R95). -/
def State.breakCrewObjects (s : State) (c : Crew) : State :=
  let s := s.task.ports.foldl (fun (s : State) (p, q) => if q.prods.contains c.uid then s.breakEvent p else s) s
  let s := s.core.barriers.foldl (fun (s : State) (i, b) => if b.parts.contains c.uid then s.breakBarrier i else s) s
  let far (d : Crew) : Bool := d.uid != c.uid && clusterOf d.core == clusterOf c.core && isCtl d.core != isCtl c.core
  let cut (e : Nat × QBind) : Nat × QBind :=
    if e.2.ep < 2 && c.qb.any (fun r => r.2.ep == e.2.ep) then (e.1, { e.2 with brk := true }) else e
  let s := s.onCore fun k => { k with crews := k.crews.map fun d => if far d then { d with qb := d.qb.map cut } else d }
  s.plat.nor.ops.foldl (fun (s : State) (i, o) => if o.crew == c.uid then s.breakOp i o else s) s

/-- The claims a crew has not filled break when it ends (R182). -/
def State.breakClaims (s : State) (c : Crew) : State :=
  c.claims.foldl (fun (s : State) e => s.chore (.claim c.fn e.1 c.core e.2 (c.launch + 2 ^ 32 * c.copy))) s

/-! The end of a crew. -/

/-- Another crew of the same phase domain is live (R148). -/
def State.domainLive (s : State) (c : Crew) : Bool :=
  c.peer.isNone && s.core.crews.any fun d => d.uid != c.uid && d.core == c.core && d.asid == c.asid && d.peer.isNone

/-- Another crew lives on the core, whose H handlers store in the core's physical domain (R444). -/
def State.coreLive (s : State) (c : Crew) : Bool := c.peer.isNone && s.core.crews.any fun d => d.uid != c.uid && d.core == c.core && d.peer.isNone

/-- The unpublished stores of a failed crew, those of its H handlers included: kept for another crew of the domain, else each published or
dropped (R148). -/
def State.settleStores (s : State) (c : Crew) : State :=
    let doms := s.mem.doms.filter fun d => d.key.core == c.core && d.key.copy == (if c.peer.isSome then c.uid else 0) &&
      ((d.key.space == .asid c.asid && !s.domainLive c) || (d.key.space == .phys && !s.coreLive c))
    doms.foldl (fun (s : State) d =>
      let (keep, s) := chooseSubset (lineSeqs d.stores) s
      let ag := Agent.dev d.key c.fn
      let (_, s) := if c.copy == 1 then (none, s) else s.publish ag .dev [] (d.stores.filter fun e => keep.contains e.2.seq)
      s.modDom d.key Domain.clear) s

/-- A member leaves its group; an empty group is gone. -/
def CoreSys.ungroup (k : CoreSys) (u : Nat) : CoreSys :=
  let gs := k.groups.map fun g => { g with members := g.members.filter (· != u), todo := g.todo.map (·.filter (· != u)) }
  { k with groups := gs.filter fun g => !g.members.isEmpty }

/-- A thread no longer waits to send (R184). -/
def State.unsend (s : State) (u : Nat) : State :=
  let cut (e : Nat × Port) : Nat × Port := (e.1, { e.2 with sendq := e.2.sendq.filter fun m => m.1 != u })
  s.onTask fun k => { k with ports := k.ports.map cut }

/-- A thread is gone: its group place, requests and copies with it. -/
def State.dropThread (s : State) (u : Nat) : State :=
  let s := (s.unsend u).onExt fun e => { e with pops := e.pops.del u, placed := e.placed.filter (· != u) }
  s.onCore fun k => { k.ungroup u with
    threads := k.threads.filter fun t => t.uid != u
    reqs := k.reqs.filter fun r => r.thr != u }

/-- What a parked or held access belongs to still exists (R70). -/
def State.heldLive (s : State) (h : Held) : Bool :=
  match h.who with
  | .thread u => (s.thread? u).isSome
  | .pub u => (s.thread? u).isSome
  | .req id => s.core.reqs.any (·.id == id)
  | .acpy id => s.core.acpys.any (·.id == id)
  | .channel id => (s.task.channels.find id).isSome
  | .matrix k => !(s.clusterAt k).mx.queue.isEmpty
  | .coll id => (s.plat.nor.ops.find id).isSome

/-- Accesses whose owner is gone are parked or held no more. -/
def State.sweepHeld (s : State) : State := s.onLinks fun l => { l with held := l.held.filter s.heldLive }

/-! The order in which accesses of one core are issued again after an ADMIT (R69). -/

/-- The core that made an access. -/
def State.heldCore (s : State) (w : HeldWho) : Option Nat :=
  match w with
  | .thread u => (s.thread? u).map (·.id.core)
  | .pub u => (s.thread? u).map (·.id.core)
  | .req id => (s.core.reqs.find? fun r => r.id == id).map (·.dom.core)
  | .acpy id => (s.core.acpys.find? fun a => a.id == id).map (·.dom.core)
  | .matrix k => some (5 * k + 4)
  | _ => none

/-- An access that is to be issued again is still to come, and nothing but its turn keeps it. -/
def State.dueAgain (s : State) (w : HeldWho) : Bool :=
  let runs (u : Nat) : Bool := (s.thread? u).any fun t => (t.run == .ready || t.run == .grouped) && s.resident t
  match w with
  | .thread u => runs u
  | .pub u => runs u
  | .req id => s.core.reqs.any fun r => r.id == id && r.st == .issued
  | .acpy id => s.core.acpys.any fun a => a.id == id && a.data.isNone
  | .matrix k => !(s.clusterAt k).mx.queue.isEmpty && (s.clusterAt k).mx.stop.isNone
  | _ => false

/-- The access comes in its turn among those of its core. -/
def State.turnOf (s : State) (w : HeldWho) : Bool :=
  !s.plat.links.order.contains w ||
    (s.plat.links.order.find? fun x => s.dueAgain x && s.heldCore x == s.heldCore w) == some w

/-- The access has been issued again. -/
def State.unOrder (s : State) (w : HeldWho) : State :=
  if s.plat.links.order.contains w then s.onLinks fun l => { l with order := l.order.filter (· != w) } else s

/-- An access that has been held is at its home: a thread one of whose requests is held for a die offline issues nothing (R72). -/
def State.reqParked (s : State) (t : Thread) : Bool :=
  s.plat.links.held.any fun h => match h.who with
    | .req id => s.core.reqs.any fun r => r.id == id && r.thr == t.uid
    | _ => false

/-- A thread, living or gone, is of a crew. -/
def Crew.holds (c : Crew) (u : Nat) : Bool := decide (c.base ≤ u) && decide (u < c.base + c.n)

/-- What a crew held is released: scratchpad units, its place, its claim on the matrix engine and the shuffle queue, its
port registrations (R147, R148). -/
def State.freeCrew (s : State) (c : Crew) : State :=
  let s := s.onCore fun k => { k with
    crews := k.crews.filter fun d => d.uid != c.uid
    acpys := k.acpys.filter fun a => !c.holds a.thr }
  let s := if isCtl c.core then s else s.modCoreAt c.core fun k => { k with
    units := k.units.filter fun (u, o) => !(o.2 == c.ctx && decide (c.scrbase ≤ u) && decide (u < c.scrbase + c.scrUnits)) }
  let s := s.modCluster (clusterOf c.core) fun k => { k with
    shq := k.shq.filter fun q => q.crew != c.uid
    shLate := k.shLate.filter fun e => e.1 != c.uid
    mx := if isCtl c.core then { Mx.reset with flags := k.mx.flags } else k.mx }
  (s.onTask fun k => { k with ports := k.ports.map fun (i, p) => (i, { p with prods := p.prods.filter (· != c.uid) }) }).sweepHeld

/-- The rows of the inbox and outbox are discarded and the owner is cleared when no crew of the cluster is bound to either
(R303). -/
def State.settleBox (s : State) (cluster : Nat) : State :=
  if s.core.crews.any fun c => clusterOf c.core == cluster && c.qb.any fun (_, q) => q.ep < 2 then s
  else s.modCluster cluster fun k => { k with inbox := [], outbox := [], ioOwn := none }

/-- One crew is removed after a failure. -/
def State.killCrew (s : State) (c : Crew) : State :=
  let s := s.breakCrewObjects c
  let s := s.breakClaims c
  let ts := s.crewThreads c.uid
  let s := ts.foldl (fun (s : State) t => s.leaveLaces t.uid true) s
  let s := s.settleStores c
  let s := ts.foldl (fun (s : State) t => s.dropThread t.uid) s
  (s.freeCrew c).settleBox (clusterOf c.core)

/-- A crew fails with a cause (R148, R321): both copies of an assay pair end, with one terminal entry. -/
def State.failCrew (s : State) (cu cause : Nat) : State :=
  match s.crew? cu with
  | none => s
  | some c =>
    let s := s.killCrew c
    let s := match c.peer.bind s.crew? with
      | some p => s.killCrew p
      | none => s
    s.endTask c.slot 4 cause ⟨0, []⟩

/-- A crew completes (R147), its boundary performed and its work ended: terminal entry, SUCC, release. The first copy of an
assay pair to end leaves the entry to the second (R321). -/
def State.completeCrew (s : State) (cu : Nat) (know : Know) : State :=
  match s.crew? cu with
  | none => s
  | some c =>
    let s := s.breakClaims c
    let last := (c.peer.bind s.crew?).isNone
    let s := if last then s.endTask c.slot 3 0 know else s
    let s := if last && c.task.succ != 0 then
        match s.counterOf c.fn c.task.succ with
        | some (ix, _) => s.chore (.dec ix know c.core)
        | none => s
      else s
    (s.freeCrew c).settleBox (clusterOf c.core)

end Sys2Proof.Machine
end

