-- ==== Sys2Proof/Machine/Ops.lean ====
section
/-! DEFINITION. Taking a trap and returning from one (spec/20 R443 to R445), faults and parking (spec/10 R232 to R238), the
unwinding of containment regions (spec/15 R326), debug stops, clause fetch (spec/16 R336 to R339), boundaries of a thread. -/

namespace Sys2Proof.Machine

/-! Where a thread goes. -/

/-- A thread is done with an instruction: the element it has popped is used up, its place in a push is forgotten (R160, R347). -/
def State.unpop (s : State) (u : Nat) : State :=
  s.onExt fun e => { e with pops := e.pops.del u, placed := e.placed.filter (· != u) }

/-- A thread becomes ready at a position; a position with i = 0 enters its clause anew. -/
def State.postAt (s : State) (u : Nat) (p : Pos) : State :=
  let s := if (s.thread u).mark.isSome then s.unsend u else s
  let s := if (s.thread u).pos == p then s else s.unpop u
  s.modThread u fun t =>
    { t with run := .ready, pos := p, ready := s.now t, clause := if p.i = 0 then [] else t.clause, mark := none }

/-- A thread leaves its group (R199). -/
def State.leave (s : State) (u : Nat) : State := s.onCore fun k => k.ungroup u

/-- A thread is taken out of its group by what is no instruction of its own: it is ready where it has still to go on. A thread that waits in place
for a command stays. -/
def State.takeOut (s : State) (u : Nat) : State :=
  let t := s.thread u
  match s.core.groups.find? fun g => g.members.contains u with
  | none => s
  | some g =>
    if t.mark.isSome then s
    else if (g.todo.map fun l => l.contains u).getD true then (s.leave u).postAt u t.pos
    else ((s.leave u).modThread u fun t => { t with yielded := t.hinted }).postAt u t.after

/-- The watch of a thread is disarmed (R420). -/
def State.disarm (s : State) (u : Nat) : State := s.modThread u fun t => { t with watch := none }

/-! Start conditions (R195, R338). -/

/-- A request that a wait-mask condition for loads names (R338). -/
def Req.isLd (r : Req) : Bool :=
  match r.kind with
  | .load _ _ => true
  | .atomic _ _ ret => ret
  | .cas _ => true
  | _ => false

def Req.isLds (r : Req) : Bool :=
  match r.kind with
  | .lds _ => true
  | .atoms _ _ => true
  | _ => false

/-- The wait mask of a header holds for a thread (R338). Stores complete issue, and pushes are appended, as they execute. -/
def State.maskOk (s : State) (t : Thread) (h : Nat) : Bool :=
  let none_ (p : Req → Bool) : Bool := !s.core.reqs.any fun r => r.thr == t.uid && p r
  (!bitOf h 45 || none_ Req.isLd) && (!bitOf h 46 || none_ Req.isLds) && (!bitOf h 47 || none_ (·.tr)) &&
    (!bitOf h 48 || t.cnt.1 == 0) && (!bitOf h 49 || t.cnt.2.1 == 0) && (!bitOf h 50 || t.cnt.2.2 == 0)

/-- The start condition of a thread that has fetched its clause. -/
def State.startOk (s : State) (t : Thread) : Bool :=
  match t.clause with
  | [] => false
  | h :: _ => t.pos.i != 0 || s.maskOk t h.toNat

/-- The header of the clause that a thread stands before: fetched, or as its home holds it. -/
def State.headerOf (s : State) (t : Thread) : Option Nat :=
  match t.clause with
  | h :: _ => some h.toNat
  | [] => (if t.inH then some t.pos.a else match walk s t.id.fn t.id.asid t.pos.a with
      | .ok e => some (e.pa + t.pos.a % e.size)
      | .error _ => none).map fun pa => ofBytesLE (s.mem.read pa 8)

/-- The wait mask of a thread's header did not hold in one state and holds in the next: its ready time is now (R195). -/
def State.touch (before s : State) (u : Nat) : State :=
  s.modThread u fun t => if t.run == .ready && t.pos.i == 0 && (match s.headerOf t with
    | some h => !before.maskOk (before.thread u) h && s.maskOk t h
    | none => false) then { t with ready := s.now t } else t

/-! Traps (R444) and their return (R445). -/

/-- The bank of a level. -/
def Thread.bank (t : Thread) (h : Bool) : TrapBank := if h then t.bankH else t.bankG

def Thread.setBank (t : Thread) (h : Bool) (b : TrapBank) : Thread := if h then { t with bankH := b } else { t with bankG := b }

/-- A trap goes to level H (R444). -/
def State.trapToH (s : State) (t : Thread) (c : Nat) : Bool :=
  t.lvl == .h || t.bankG.inh || (s.fnAt t.id.fn).troute.getLsbD c

/-- A thread enters its trap handler or returns from it: the slots of the step count there (R334). -/
def State.entering (s : State) (u : Nat) : State := s.onExt fun e => { e with entering := e.entering ++ [u] }

/-- TRAP_ENTRY (R444): the bank of the level takes cause, value and position, the level changes, the thread becomes ready at
the handler; with the bank in use or no handler the crew fails. -/
def State.trapEntry (s : State) (u c : Nat) (tval : Word) (p : Pos) : State :=
  let t := s.thread u
  let h := s.trapToH t c
  let f := s.fnAt t.id.fn
  let (en, vec) := if h then (f.tvechEn, f.tvech) else (f.tvecgEn, f.tvecg)
  if (t.bank h).inh || !en then s.failCrew t.id.crew c
  else
    let s := (s.leave u).disarm u
    let s := s.modThread u fun t =>
      { t.setBank h ⟨c, p.i, p.a, tval, true, t.lvl⟩ with lvl := if h then .h else .g }
    (s.entering u).postAt u ⟨vec, 0⟩

/-- A tag counter of a thread changed by f (R254). -/
def Thread.modCnt (t : Thread) (tag : Nat) (f : Nat → Nat) : Thread :=
  match tag with
  | 0 => { t with cnt := (f t.cnt.1, t.cnt.2) }
  | 1 => { t with cnt := (t.cnt.1, f t.cnt.2.1, t.cnt.2.2) }
  | _ => { t with cnt := (t.cnt.1, t.cnt.2.1, f t.cnt.2.2) }

def Thread.cntOf (t : Thread) (tag : Nat) : Nat :=
  match tag with
  | 0 => t.cnt.1
  | 1 => t.cnt.2.1
  | _ => t.cnt.2.2

/-- Requests and copies in flight are abandoned; a copy whose status is not yet written gives its count back. -/
def State.abandon (s : State) (u : Nat) (gone : List Nat) : State :=
  let lost := s.core.acpys.filter fun a => gone.contains a.id
  let s := s.modThread u fun t => lost.foldl (fun (t : Thread) a => if a.data.isNone then t.modCnt a.tag (· - 1) else t) t
  (s.onCore fun k => { k with reqs := k.reqs.filter fun q => !gone.contains q.id, acpys := k.acpys.filter fun a => !gone.contains a.id }).sweepHeld

/-- The matrix commands that a thread started in a region that is unwound: each stays or is abandoned (R326). -/
def State.abandonMx (s : State) (u rgn : Nat) : State :=
  let cl := clusterOf (s.thread u).id.core
  let q := (s.clusterAt cl).mx.queue
  let (gone, s) := chooseSubset (((q.zip (rangeFrom 0 q.length)).filter fun e => e.1.thr == u && decide (rgn ≤ e.1.rgn)).map (·.2)) s
  let left := ((q.zip (rangeFrom 0 q.length)).filter fun e => !gone.contains e.2).map (·.1)
  let s := s.modCluster cl fun k => { k with mx := if gone.contains 0 then { k.mx with queue := left, prog := 0, row := 0, stop := none, cur := 0 } else { k.mx with queue := left } }
  if gone.contains 0 then s.onLinks fun l => { l with held := l.held.filter fun h => h.who != .matrix cl } else s

/-- An unwinding event of a region of a thread (R326): CTINFO, CTDEPTH, the handler; the regions inside it are closed. Accesses in flight that the
thread started in it are each completed or abandoned. A handler that was entered since the region was opened is left, with its level (log 161). -/
def State.unwindTo (s : State) (u rgn c va : Nat) : State :=
  let t := s.thread u
  match t.ct.dropWhile fun r => r.id != rgn with
  | [] => s
  | r :: rest =>
    let mine := (s.core.reqs.filter fun q => q.thr == u && decide (rgn ≤ q.id)).map (·.id) ++
      (s.core.acpys.filter fun a => a.thr == u && decide (rgn ≤ a.rgn)).map (·.id)
    let (gone, s) := chooseSubset mine.eraseDups s
    let s := (((s.leave u).disarm u).abandon u gone).abandonMx u rgn
    let s := s.onLinks fun l => { l with held := l.held.filter fun h => h.who != .thread u && h.who != .pub u }
    let s := s.modCrew t.id.crew fun k =>
      if k.assay.by_ == u then { k with assay := { k.assay with tuple := none, by_ := 0, verdict := none } } else k
    let s := s.modThread u fun t => { t with
      ct := rest, ctinfo := (c, rest.length + 1, va), lvl := if r.lvl.num < t.lvl.num then r.lvl else t.lvl
      bankG := { t.bankG with inh := t.bankG.inh && r.inhG }, bankH := { t.bankH with inh := t.bankH.inh && r.inhH } }
    s.postAt u ⟨r.handler, 0⟩

/-- An unwinding event of a thread's own instruction, in its innermost region. -/
def State.unwind (s : State) (u c va : Nat) : State := s.unwindTo u (s.thread u).rgn c va

/-- An event of an access that belongs to a region, still to take effect (R326): the first one stays, and one of a region that is no longer open is
discarded. -/
def State.regionEvent (s : State) (u rgn c va : Nat) : State :=
  s.modThread u fun t => { t with ct := t.ct.map fun r => if r.id = rgn && r.event.isNone then { r with event := some (c, va) } else r }

/-- A trap of an instruction: inside a containment region a poison trap unwinds the region (R290, R325). Which access gave the
register its POISON is not kept, so the VA of CTINFO is free then. -/
def State.raise (s : State) (u c : Nat) (tval : Word) (p : Pos) : State :=
  if c == 0x0B && !(s.thread u).ct.isEmpty then
    let (va, s) := choose (2 ^ 48) s
    s.unwind u c va
  else s.trapEntry u c tval p

/-- TRET (R445): the level's bank is left, the level restored, the thread ready at TPC; none outside a handler. -/
def State.trapReturn (s : State) (u : Nat) : Option State :=
  let t := s.thread u
  let h := t.lvl == .h
  let b := t.bank h
  if t.lvl == .u || !b.inh then none
  else
    let s := (s.leave u).modThread u fun t => { t.setBank h { b with inh := false } with lvl := b.plvl, clause := [] }
    some ((s.entering u).postAt u ⟨b.pcA, b.pcIdx⟩)

/-! The fault queue (R233, R236). -/

/-- The bytes of a fault-queue record (R236). -/
def faultBytes (va seq asid : Nat) (ltid : Word) (cwa cause flags : Nat) : List Byte :=
  bytesLE 8 va ++ bytesLE 4 seq ++ bytesLE 4 asid ++ bytesLE 8 ltid.toNat ++ bytesLE 6 cwa ++ bytesLE 1 cause ++
    bytesLE 1 flags

/-- The fault queue of a function is full. -/
def FnMem.full (f : FnMem) : Bool := (f.pfqHead + 2 ^ 32 - f.pfqTail) % 2 ^ 32 == 4096

/-- A record is written to the fault queue of a function, and its vector is signalled. -/
def State.faultRecord (s : State) (fn va asid : Nat) (ltid : Word) (cwa cause flags : Nat) (who : FaultWho) : State :=
  let f := (s.fnAt fn).mem
  let s := s.ringRecord ⟨0, []⟩ f.pfq (32 * (f.pfqHead % 4096)) (faultBytes va f.pfqHead asid ltid cwa cause flags) 8 4
  let s := s.modFn fn fun g => { g with mem := { g.mem with
    pfqHead := (g.mem.pfqHead + 1) % 2 ^ 32
    recs := g.mem.recs ++ [⟨f.pfqHead, cause, asid, who⟩] } }
  s.emit (.msix fn f.pfqVec)

/-- The kind of a publication whose boundary has not completed (R237, R238), which a record gives as 1. -/
def pubKind : Nat := 6

/-- A kind as a record gives it (R232). -/
def recKind (k : Nat) : Nat := if k = pubKind then 1 else k

/-- A thread access takes a translation fault (R233): its continuation, or the record and the policy of its ASID. A retired
page or a frame at risk inside a region unwinds it (R325). Park kinds carry 8 for stage 2. A park of the process that is in force stays as it is
(R235). -/
def State.transFault (s : State) (u kind va cause : Nat) (s2 : Bool) : State :=
  let t := s.thread u
  let f := (s.fnAt t.id.fn).mem
  let s := s.leave u
  let k8 := kind + if s2 then 8 else 0
  let r8 := recKind kind + if s2 then 8 else 0
  if (cause == 0x17 || cause == 0x10) && !t.ct.isEmpty then s.unwind u cause va
  else if !f.pfq.en then s.failCrew t.id.crew cause
  else if f.full then s.modThread u fun t => { t with run := .parked ⟨cause, none, k8, va⟩ }
  else if t.fr.en && recKind kind ≤ 3 then
    let s := s.faultRecord t.id.fn va t.id.asid t.ltid t.fr.cwa cause (r8 + 16) (.thread u)
    let s := s.modThread u fun t => { t with fr := { t.fr with
      tokSeq := f.pfqHead, tokCause := cause, tokKind := recKind kind, fpIdx := t.pos.i, fpA := t.pos.a, pend := true, en := false } }
    s.postAt u ⟨t.fr.target, 0⟩
  else
    let pol := policyOf s t.id.fn t.id.asid
    let s := s.faultRecord t.id.fn va t.id.asid t.ltid t.fr.cwa cause (r8 + if pol = 1 then 32 else 0) (.thread u)
    if pol = 2 then s.failCrew t.id.crew cause
    else
      let s := if pol = 1 && !f.pparks.any (·.asid == t.id.asid) then s.modFn t.id.fn fun g => { g with mem := { g.mem with
        pparks := ⟨t.id.asid, (rangeFrom 0 5).map s.cycleOf, [t.id.core]⟩ :: g.mem.pparks } } else s
      s.modThread u fun t => { t with run := .parked ⟨cause, some f.pfqHead, k8, va⟩ }

/-- A thread access meets an offline home (R72): it parks alone; a lost die traps it (R76). -/
def State.offlineFault (s : State) (u die va kind : Nat) : State :=
  let t := s.thread u
  if (s.pkg.die die).drst = 8 then
    if t.ct.isEmpty then s.trapEntry u 0x0C (BitVec.ofNat 64 va) t.pos else s.unwind u 0x0C va
  else
    let s := (s.leave u).modThread u fun t => { t with run := .parked ⟨0x0C, none, kind, va⟩ }
    (s.unOrder (.thread u)).onLinks fun l => { l with held := l.held ++ [⟨die, .thread u, va, s.now t⟩] }

/-! Debug stops (R329 to R331). -/

/-- A debug event enters the buffer of the thread's function (R331, R453). -/
def State.debugEvent (s : State) (t : Thread) (cause : Nat) (p : Pos) : State :=
  let f := s.fnAt t.id.fn
  let s := if f.dbg.events.length < 64 then
      s.modFn t.id.fn fun g => { g with dbg := { g.dbg with events := g.dbg.events ++ [⟨t.ltid, cause, p.i, p.a, t.inH⟩] } }
    else s.modFn t.id.fn fun g => { g with dbg := { g.dbg with ovf := true } }
  s.emit (.msix t.id.fn f.mem.pfqVec)

/-- A thread stops with a cause (R329): the event records `at_`, RUN goes on at `p`. -/
def State.stop (s : State) (u cause : Nat) (at_ p : Pos) : State :=
  let s := s.leave u
  let s := s.modThread u fun t => { t with
    run := .stopped cause, pos := p, stopReq := false, stepping := false, yielded := if p == t.after then t.hinted else t.yielded
    clause := if p.i = 0 then [] else t.clause }
  s.debugEvent (s.thread u) cause at_

/-- The other threads of a crew are to stop (R329). -/
def State.stopCrew (s : State) (crew except : Nat) : State :=
  s.onCore fun k => { k with threads := k.threads.map fun t =>
    if t.id.crew == crew && t.uid != except then match t.run with
      | .stopped _ => t
      | _ => { t with stopReq := true }
    else t }

/-- The comparators of the thread's function that match its position (R329, R453). -/
def State.breakpoints (s : State) (t : Thread) (p : Pos) : List DbgBp :=
  let d := (s.fnAt t.id.fn).dbg
  if d.en && (d.any || d.asid == t.id.asid) && !t.inH then d.bps.filter fun b => b.en && b.va == p.a && b.idx == p.i
  else []

/-! Clause fetch (R203, R336 to R339). -/

/-- What a fetch gives: the clause's words, header first. -/
inductive Fetch where
  | ok (ws : List Word) (csid : Nat)
  | trap (cause : Nat) (tval : Nat)
  | fault (va cause : Nat) (s2 : Bool)
  | offline (die va : Nat)
  | wait
deriving DecidableEq, Repr

/-- The header is legal on a core (R337). -/
def headerOk (w : Nat) (ctl : Bool) : Bool :=
  bitsOf w 63 60 == 0xC && bitsOf w 59 57 == (if ctl then 1 else 0) && bitsOf w 42 0 == 0 && !(ctl && bitsOf w 50 46 != 0)

/-- A word of major 0x10 (R337). -/
def isBranchWord (w : Nat) : Bool := bitsOf w 63 58 == 0x10

/-- Every instruction of major 0x10 of a clause stands last (R337). -/
def clauseOk : List Word → Bool
  | [] => true
  | [_] => true
  | w :: ws => !isBranchWord w.toNat && clauseOk ws

/-- The address spaces that the state names, as function and ASID: of crews, tasks, queues, and cached translations. -/
def State.spaces (s : State) : List (Nat × Nat) :=
  (s.core.crews.map (fun c => (c.fn, c.asid)) ++ s.task.slots.map (fun e => (e.2.fn, e.2.asid)) ++
    s.task.queues.map (fun e => (e.2.fn, e.2.asid)) ++ s.mem.tlb.map fun e => (e.fn, e.asid)).eraseDups

/-- The words that other images under a CSID hold at an address (R203). -/
def State.otherWords (s : State) (t : Thread) (va csid : Nat) : List Word :=
  if t.inH then []
  else ((s.spaces.filter fun e => e != (t.id.fn, t.id.asid)).flatMap fun e => match walk s e.1 e.2 va with
    | .ok e => if e.attr.x && e.attr.csid == csid then [BitVec.ofNat 64 (ofBytesLE (s.mem.read (e.pa + va % e.size) 8))] else []
    | .error _ => []).eraseDups

/-- A word of uncached host memory has been read for a fetch: the answer serves the words of its half-line that follow (R119). -/
def State.keepAnswer (s : State) (pa : Nat) (at_ : Attr) : State :=
  if isHost pa && at_.cl == 2 then s.onHost fun h => { h with d2h := h.d2h.put (pa / 64) 10 } else s

/-- A fetch is over, or waits for another half-line: its answers are used up, or stay for when it comes again. -/
def State.endAnswers (s : State) (waits : Bool) : State :=
  s.onHost fun h => { h with d2h := if waits then h.d2h.map fun e => if e.2 == 10 then (e.1, 8) else e else h.d2h.filter fun e => e.2 != 10 }

/-- One word of a clause: a read at its home, which fills a line there (R217, R222). -/
def State.fetchWord (s : State) (t : Thread) (va : Nat) : Except Fetch (Word × Nat) × State :=
  let ag := s.agent t .ls
  let lim := if t.inH then 2 ^ 52 else 2 ^ 48
  if lim ≤ va then (.error (.trap 7 va), s)
  else match s.xlate ag va .x with
    | (.fault c s2, s) => (.error (.fault va c s2), s)
    | (.offline d, s) => (.error (.offline d va), s)
    | (.wait, s) => (.error .wait, s)
    | (.ok pa at_, s) => match s.prepareAt ag va pa 8 false at_ with
      | (.wait, s) => (.error .wait, s)
      | (rd, s) =>
      if rd == .down || s.mem.poisoned pa 8 then (.error (.trap 0x0B va), s)
      else
        let home := homeIn s ag.dom.space ag.dom.core va
        let stale := (rangeFrom pa 8).any fun a => 2 ≤ (s.mem.byteAt home a).length
        let (old, s) := if stale then chooseBool s else (false, s)
        let (bs, s) := s.homeRead ag none pa 8 at_.noL1 fun _ => s.floorAt ag va
        let s := (s.readNames ag home va pa at_).keepAnswer pa at_
        let w : Word := BitVec.ofNat 64 (ofBytesLE (if old then (rangeFrom pa 8).map fun a => (s.mem.byteAt home a).getLastD memDefault
          else bs.map (·.1)))
        let (w, s) := chooseFrom (w :: (s.otherWords t va at_.csid).filter (· != w)) w s
        (.ok (w, at_.csid), s)

/-- The words of a clause from `va` on. -/
def State.fetchWords (s : State) (t : Thread) : Nat → Nat → Except Fetch (List Word) × State
  | _, 0 => (.ok [], s)
  | va, n + 1 =>
    match s.fetchWord t va with
    | (.error e, s) => (.error e, s)
    | (.ok (w, _), s) => match State.fetchWords s t (va + 8) n with
      | (.error e, s) => (.error e, s)
      | (.ok ws, s) => (.ok (w :: ws), s)

/-- The words of a clause at an address, with their checks (R337, R339). -/
def State.fetchClause (s : State) (t : Thread) (a : Nat) : Fetch × State :=
  match s.fetchWord t a with
  | (.error e, s) => (e, s)
  | (.ok (h, csid), s) =>
    if a % 8 != 0 || !headerOk h.toNat t.isCtl then (.trap 2 a, s)
    else match s.fetchWords t (a + 8) (bitsOf h.toNat 56 53 + 1) with
      | (.error e, s) => (e, s)
      | (.ok ws, s) => if clauseOk ws then (.ok (h :: ws) csid, s) else (.trap 2 a, s)

/-- A clause fetched whole at an address for a thread. -/
def State.fetch (s : State) (t : Thread) (a : Nat) : Fetch × State :=
  let (r, s) := s.fetchClause t a
  (r, s.endAnswers (r == .wait))

/-! The assay signature (R322). -/

def assayMix (z : Word) : Word :=
  let z := (z ^^^ (z >>> 30)) * 0xBF58476D1CE4E5B9
  let z := (z ^^^ (z >>> 27)) * 0x94D049BB133111EB
  z ^^^ (z >>> 31)

/-- One write folded into a signature. -/
def assayFold (sig : Word) (va size data : Nat) : Word :=
  let h := assayMix (BitVec.ofNat 64 (va % 2 ^ 48) ^^^ (BitVec.ofNat 64 size <<< 56))
  let h := assayMix (h ^^^ BitVec.ofNat 64 data)
  let h := assayMix (h ^^^ BitVec.ofNat 64 (data / 2 ^ 64))
  sig + h

/-- A write of a thread's copy is folded, in pieces of 16 bytes (R322). -/
def State.fold (s : State) (u va : Nat) (bs : List Byte) : State :=
  let n := bs.length
  s.modCrew (s.thread u).id.crew fun c => if c.peer.isNone then c else
    { c with assay := { c.assay with sig := (rangeFrom 0 ((n + 15) / 16)).foldl (fun sig k =>
      assayFold sig (va + 16 * k) (Nat.min 16 (n - 16 * k)) (ofBytesLE ((bs.drop (16 * k)).take 16))) c.assay.sig } }

/-! Boundaries of a thread (R242, R323). -/

/-- What an instruction does to a member: it goes on, goes elsewhere, branches to a clause it
has fetched, traps (at its own position or the one after), has left
its group, has ended, or waits in place. -/
inductive Flow where
  | next
  | goto (p : Pos)
  | branch (p : Pos) (ws : List Word)
  | trap (c : Nat) (tval : Word) (after : Bool)
  | left
  | ended
  | stall
deriving DecidableEq, Repr

/-- A request that has not been performed and precedes in dom what a thread does now: its own, or one that a group with it has issued and that
is not held for an offline home (R241). -/
def State.precedes (s : State) (u : Nat) (r : Req) : Bool :=
  r.st != .done && (r.thr == u || (r.mates.contains u && !s.plat.links.held.any fun h => h.who == .req r.id))

/-- A request that reads. -/
def Req.isRead (r : Req) : Bool :=
  match r.kind with
  | .store _ => false
  | .sts => false
  | .alu => false
  | .acpy => false
  | _ => true

/-- A request to memory. -/
def Req.toMem (r : Req) : Bool :=
  match r.kind with
  | .load _ _ => true
  | .store _ => true
  | .atomic _ _ _ => true
  | .cas _ => true
  | _ => false

/-- A load from memory. -/
def Req.isLoad (r : Req) : Bool :=
  match r.kind with
  | .load _ _ => true
  | _ => false

/-- A request that is a snapshot point when it is performed (R243). -/
def Req.acquires (r : Req) : Bool := r.toMem && (r.ord == .acq || r.ord == .acqrel)

/-- Reads are outstanding that a boundary or REFRESH of the thread waits for (R241, R242, R243). -/
def State.pending (s : State) (u : Nat) : Bool := s.core.reqs.any fun r => s.precedes u r && r.isRead

/-- A request to memory that overlaps the range has not been performed: a later access to the same bytes that completes at once waits for it
(R241, R249, R250). -/
def State.inFlight (s : State) (u va n : Nat) : Bool :=
  s.core.reqs.any fun r => s.precedes u r && r.toMem && decide (r.va < va + n) && decide (va < r.va + r.size)

/-- A plain store of the range waits in place: it comes in dom after every load that precedes it, and after every acquire (R241, R249). -/
def State.storeWaits (s : State) (u va n : Nat) : Bool :=
  s.inFlight u va n || s.core.reqs.any fun r => s.precedes u r && (r.isLoad || r.acquires)

/-- A publication that stopped (R238, R73): a fault takes the thread, an offline home or the host holds it in place. -/
def State.pubStop (s : State) (u : Nat) (p : PubStop) : Flow × State :=
  match p with
  | .fault va c s2 => (.left, s.transFault u pubKind va c s2)
  | .wait => (.stall, s)
  | .offline va d =>
    if (s.pkg.die d).drst = 8 then
      let t := s.thread u
      let s := s.modDom (s.domKey t) fun k => k.keep fun e => !(e.2.held && (homeIn s k.key.space k.key.core e.1).1 == d)
      if t.ct.isEmpty then (.trap 0x0C (BitVec.ofNat 64 va) false, s) else (.left, s.unwind u 0x0C va)
    else if s.plat.links.held.any fun h => h.who == .pub u && h.die == d then (.stall, s)
    else
      let now := s.now (s.thread u)
      (.stall, (s.unOrder (.pub u)).onLinks fun l => { l with held := l.held ++ [⟨d, .pub u, va, now⟩] })

/-- A read meets POISON outside a register (R290): the trap with the VA, or the region unwinds. -/
def State.poisonAt (s : State) (u va : Nat) : Flow × State :=
  if (s.thread u).ct.isEmpty then (.trap 0x0B (BitVec.ofNat 64 va) false, s) else (.left, s.unwind u 0x0B va)

/-- A boundary of a thread of no assay pair: earlier reads first, then the publication. -/
def State.plainBoundary (s : State) (u : Nat) (sc : Scope) : Flow × State :=
  if s.pending u || !s.turnOf (.pub u) then (.stall, s)
  else match s.boundary u sc with
    | (some p, s) => s.pubStop u p
    | (none, s) => (.next, (s.unOrder (.pub u)).onLinks fun l => { l with held := l.held.filter fun h => h.who != .pub u })

/-- A mismatch of a pair (R323): the writes of the boundary are dropped; a region unwinds, otherwise the pair fails. -/
def State.assayFail (s : State) (u : Nat) : Flow × State :=
  let t := s.thread u
  let s := s.modDom (s.domKey t) Domain.clear
  let s := s.modCrew t.id.crew fun c => { c with assay := { c.assay with tuple := none, verdict := none } }
  if t.ct.isEmpty then (.ended, s.failCrew t.id.crew 0x11) else (.left, s.unwind u 0x11 0)

/-- The kinds of boundary that a tuple names (R323). -/
inductive BKind where
  | publish | fence | store | atomic | fput | send | coll | chstart | depdec | exit
deriving DecidableEq, Repr

def BKind.code : BKind → Nat
  | .publish => 0
  | .fence => 1
  | .store => 2
  | .atomic => 3
  | .fput => 4
  | .send => 5
  | .coll => 6
  | .chstart => 7
  | .depdec => 8
  | .exit => 9

/-- A request that writes memory. -/
def Req.writes (r : Req) : Bool :=
  match r.kind with
  | .store _ => true
  | .atomic _ _ _ => true
  | .cas _ => true
  | _ => false

/-- A copy of an assay pair at a boundary (R323): once the writes before it are performed, and so folded into SIG (R322), it presents its tuple and
waits for the verdict; `.next` when the tuples were equal. -/
def State.compared (s : State) (u : Nat) (sc : Scope) (kind : BKind) : Flow × State :=
  match s.crew? (s.thread u).id.crew with
  | none => (.next, s)
  | some c =>
    match c.assay.tuple, c.assay.verdict with
    | none, _ =>
      if s.core.reqs.any fun r => s.precedes u r && r.writes then (.stall, s)
      else
      let q := (c.assay.bseq + 1) % 2 ^ 32
      (.stall, s.modCrew c.uid fun c => { c with assay := { c.assay with
        bseq := q, tuple := some (q, kind.code, scopeCode sc, c.assay.sig), by_ := u } })
    | some _, none => (.stall, s)
    | some _, some ok => if c.assay.by_ != u then (.stall, s) else if ok then (.next, s) else s.assayFail u

/-- The comparison is over; the release that the copy's boundary made is kept for the other copy. -/
def State.comparedDone (s : State) (u : Nat) : State :=
  let l := ((s.mem.bnds.find? fun b => b.thr == u).map (·.id)).toList
  s.modCrew (s.thread u).id.crew fun c => { c with assay := { c.assay with tuple := none, verdict := none, pubs := l } }

/-- The other copy's boundary with the same BSEQ is not complete. -/
def State.peerOpen (s : State) (c : Crew) : Bool :=
  match c.peer.bind s.crew? with
  | some d => d.assay.tuple.isSome && d.assay.bseq == c.assay.bseq
  | none => false

/-- The twin never publishes (R323): its writes are dropped when its boundary completes, after the primary's, whose publication its later reads
find. -/
def State.twinBoundary (s : State) (u : Nat) (sc : Scope) : State :=
  let l := (((s.crew? (s.thread u).id.crew).bind fun c => c.peer.bind s.crew?).map fun d => d.assay.pubs).getD []
  let s := s.modThread u fun t => { t with seen := { t.seen with pubs := setUnion t.seen.pubs l } }
  ((s.modDom (s.domKey (s.thread u)) Domain.clear).snapshot u sc).comparedDone u

/-- A boundary that a thread executes (R242, R323), with what comes first at it once the comparison has allowed it. -/
def State.doBoundaryAfter (s : State) (u : Nat) (sc : Scope) (kind : BKind) (pre : State → Option PubStop × State) : Flow × State :=
  let own (s : State) : Flow × State := match pre s with
    | (some p, s) => s.pubStop u p
    | (none, s) => s.plainBoundary u sc
  match s.crew? (s.thread u).id.crew with
  | none => own s
  | some c =>
    if c.peer.isNone then own s
    else match s.compared u sc kind with
      | (.next, s) =>
        if c.copy == 1 then
          if s.peerOpen c then (.stall, s) else (.next, (pre s).2.twinBoundary u sc)
        else match own s with
          | (.next, s) => (.next, s.comparedDone u)
          | r => r
      | r => r

/-- A boundary that a thread executes (R242, R323). -/
def State.doBoundary (s : State) (u : Nat) (sc : Scope) (kind : BKind) : Flow × State := s.doBoundaryAfter u sc kind fun s => (none, s)

/-- XFENCE (R247): accesses of the thread on a path from now on come after those on another. -/
def State.xfence (s : State) (u : Nat) (p1 p2 : Path) : State :=
  s.modThread u fun t => { t with seen := { t.seen with xf := t.seen.xf.setD 0 (8 * pathCode p1 + pathCode p2) s.mem.seq } }

/-- An XFENCE naming every path (R146, R151). -/
def State.xfenceAll (s : State) (u : Nat) : State :=
  let xf : Map Nat := (rangeFrom 0 48).map fun i => (i, s.mem.seq)
  s.modThread u fun t => { t with seen := { t.seen with xf := xf } }

/-! Waits (R183, R184, R199). -/

/-- Entries of a cluster's wait table in use (R184): waits, and watches that do not poll. -/
def State.tableUsed (s : State) (cluster : Nat) : Nat :=
  (s.core.threads.filter fun t => clusterOf t.id.core == cluster && ((match t.watch with
    | some w => !w.poll
    | none => false) || match t.run with
    | .waiting w => w.table && w.kind != .line
    | _ => false)).length

/-- A member leaves its group and waits (R199); waits of the wait table take an entry or poll. -/
def State.wait (s : State) (u : Nat) (k : WaitKind) (table : Bool) (a b : Nat) : State :=
  let t := s.thread u
  let full := decide (512 ≤ s.tableUsed (clusterOf t.id.core))
  let w : WaitRec := ⟨k, s.now t, table && full, table && !full, a, b⟩
  (s.leave u).modThread u fun t => { t with run := .waiting w }

/-- A member waits, remembering in its mark what becomes of the wait (R183, R199). -/
def State.waitMark (s : State) (u : Nat) (k : WaitKind) (table : Bool) (a b : Nat) : State :=
  (s.wait u k table a b).modThread u fun t => { t with mark := some 0 }

/-- A marked wait is over. -/
def State.unmark (s : State) (u : Nat) : State := s.modThread u fun t => { t with mark := none }

end Sys2Proof.Machine
end

