-- ==== Sys2Proof/Machine/Operands.lean ====
section
/-! DEFINITION. Operand forms: register fields, their checks (spec/13 R287 to R291; spec/16 R346, R347, R351), reading and
writing them, and effective addresses (R343). -/

namespace Sys2Proof.Machine

/-- What an operand must be (R288). `any` kinds take every tag, POISON
too; `clean` kinds every other tag. Pair kinds are register pairs on a SIMT core and one register on the control core;
`quad` is four registers there, an even pair here (R410); `oct` is
the eight registers of a message (R169). -/
inductive Kind where
  | any | int | tag (t : Tag) | addr | i64 | f64 | anyPair | quad | clean | cleanPair | oct
deriving DecidableEq, Repr

/-- A source operand: its position (0 d, 1 a, 2 b, 3 c, 4 base, 5 index), its field and its kind. -/
structure Src where
  pos  : Nat
  r    : RegF
  kind : Kind
deriving DecidableEq, Repr

/-- Registers an operand takes on a SIMT core. -/
def Kind.width : Kind → Nat
  | .any => 1
  | .int => 1
  | .tag _ => 1
  | .clean => 1
  | .quad => 4
  | .oct => 8
  | _ => 2

/-- Registers an operand takes on a core. -/
def regWidth (ctl : Bool) (w : Nat) : Nat := if ctl then (if w = 4 then 2 else 1) else w

/-- The 8-bit code of a register field (R346). -/
def codeOf : RegF → Nat
  | .gpr n => n.val
  | .que n => 0xE0 + n.val
  | .vz => 0xF0
  | .lane => 0xF1
  | .slot => 0xF2

/-- The numbered registers that a field of a width names. -/
def regsAt (r : RegF) (w : Nat) : List Nat :=
  match r with
  | .gpr n => rangeFrom n.val w
  | _ => []

/-- The value and tag of a register for a thread: VZ reads zero, LANE and SLOT their identity, a queue register the element
popped for this instruction (R193, R346, R347). -/
def State.readR (s : State) (t : Thread) (r : RegF) : Reg :=
  match r with
  | .gpr n => t.reg n.val
  | .que _ => ⟨s.ext.pops.getD 0 t.uid, .b32⟩
  | .vz => Reg.zero
  | .lane => ⟨BitVec.ofNat 64 t.id.lane, .i32⟩
  | .slot => ⟨BitVec.ofNat 64 t.id.row, .i32⟩

/-- SRC of R359: 32 bits on a SIMT core, 64 on the control core. -/
def State.src (s : State) (u : Nat) (r : RegF) : Word := (s.readR (s.thread u) r).val

/-- SRC as a 32-bit number on either core. -/
def State.src32 (s : State) (u : Nat) (r : RegF) : Nat := (s.src u r).toNat % 2 ^ 32

/-- SRC64 of R359: the pair at a field on a SIMT core, one register on the control core. -/
def State.src64 (s : State) (u : Nat) (r : RegF) : Word :=
  let t := s.thread u
  if t.isCtl then s.src u r
  else match r with
    | .gpr n => BitVec.ofNat 64 ((t.reg n.val).val.toNat % 2 ^ 32 + 2 ^ 32 * ((t.reg (n.val + 1)).val.toNat % 2 ^ 32))
    | _ => 0

/-- DST of R359. -/
def State.dst (s : State) (u : Nat) (r : RegF) (v : Word) (tg : Tag) : State :=
  let ctl := (s.thread u).isCtl
  match r with
  | .gpr n => s.modThread u fun t => t.setReg n.val (if ctl then ⟨v, .b32⟩ else ⟨BitVec.ofNat 64 (v.toNat % 2 ^ 32), tg⟩)
  | .que q => s.onExt fun e => { e with pushes := e.pushes ++ [(u, q.val, if ctl then v else BitVec.ofNat 64 (v.toNat % 2 ^ 32))] }
  | _ => s

/-- DST64 of R359: a pair on a SIMT core, one register on the control core. -/
def State.dst64 (s : State) (u : Nat) (r : RegF) (v : Word) (tlo thi : Tag) : State :=
  let ctl := (s.thread u).isCtl
  match r with
  | .gpr n =>
    if ctl then s.modThread u fun t => t.setReg n.val ⟨v, .b32⟩
    else s.modThread u fun t => (t.setReg n.val ⟨BitVec.ofNat 64 (v.toNat % 2 ^ 32), tlo⟩).setReg (n.val + 1)
      ⟨BitVec.ofNat 64 (v.toNat / 2 ^ 32), thi⟩
  | .que q => if ctl then s.onExt fun e => { e with pushes := e.pushes ++ [(u, q.val, v)] } else s
  | _ => s

/-- A destination of w registers becomes POISON: its bits are those that a failing read delivered, which nothing gives (R127, R290). -/
def State.dstPoison (s : State) (u : Nat) (r : RegF) (w : Nat) : State :=
  let ctl := (s.thread u).isCtl
  let draw (s : State) : Word × State := let (v, s) := choose (if ctl then 2 ^ 64 else 2 ^ 32) s; (BitVec.ofNat 64 v, s)
  match r with
  | .gpr _ => (regsAt r (regWidth ctl w)).foldl (fun (s : State) n => let (v, s) := draw s; s.modThread u fun t => t.setReg n ⟨v, .poison⟩) s
  | .que _ => let (v, s) := draw s; s.dst u r v .poison
  | _ => s

/-- PSET of R359. -/
def State.pset (s : State) (u : Nat) (p : Nat) (b : Bool) : State := s.modThread u fun t => t.setPred p b

/-! Checks of R351 before an instruction acts. -/

/-- What an instruction asks of its operands: the cores it is legal on, its level, sources and destinations (with their
widths), whether a destination may be a queue register, its LA, whether the primary of an assay pair alone performs it (R324),
whether its members act in lane order, a member that waits in place holding back those after it (R169), and the boundary it is for an assay pair,
if any. -/
structure Spec where
  simt    : Bool := true
  ctl     : Bool := true
  lvl     : Level := .u
  srcs    : List Src := []
  dsts    : List (RegF × Nat) := []
  qdst    : Bool := true
  la      : Nat := 0
  primary : Bool := false
  inOrder : Bool := false
  bnd     : Option (Scope × BKind) := none

/-- LANE or SLOT. -/
def isIdent : RegF → Bool
  | .lane => true
  | .slot => true
  | _ => false

def isQueue : RegF → Bool
  | .que _ => true
  | _ => false

/-- Step 1 of R351 as far as it depends on the core: the kind of core, LANE and SLOT (R346), LA within the clause (R350). -/
def Spec.encodingOk (sp : Spec) (ctl : Bool) (count i : Nat) : Bool :=
  (if ctl then sp.ctl else sp.simt) && decide (sp.la + i ≤ count) &&
    !(ctl && (sp.srcs.any (isIdent ·.r) || sp.dsts.any (isIdent ·.1)))

/-- A register field of a width may be named by a thread that has n registers (R346, R347); a pair at a queue register, LANE or
SLOT names no even register of a pair. -/
def fieldOk (ctl : Bool) (n : Nat) (r : RegF) (w : Nat) : Bool :=
  match r with
  | .gpr k => decide (k.val + regWidth ctl w ≤ n) && k.val % regWidth ctl w == 0
  | .vz => true
  | _ => regWidth ctl w == 1

/-- Step 4 of R351: allocation, destinations, parity, queue-register limits. -/
def Spec.operandsOk (sp : Spec) (ctl : Bool) (n : Nat) : Bool :=
  sp.srcs.all (fun x => fieldOk ctl n x.r x.kind.width && !(isQueue x.r && (4 ≤ x.pos))) &&
    sp.dsts.all (fun d => fieldOk ctl n d.1 d.2 && !isIdent d.1 && (sp.qdst || !isQueue d.1)) &&
    decide ((sp.srcs.filter (isQueue ·.r)).length ≤ 1)

/-- A tag meets a kind, for the register at an offset of the operand (R288). -/
def tagOk (k : Kind) (odd : Bool) (t : Tag) : Bool :=
  match k with
  | .any => true
  | .anyPair => true
  | .clean => true
  | .cleanPair => true
  | .oct => true
  | .int => t == .i32 || t == .b32
  | .quad => t == .i32 || t == .b32
  | .tag x => t == x
  | .addr => t == .i32 || t == .b32 || t == (if odd then .w64hi else .w64lo)
  | .i64 => t == .i32 || t == .b32 || t == (if odd then .w64hi else .w64lo)
  | .f64 => t == (if odd then .w64hi else .w64lo)

/-- TVAL of causes 0x04 and 0x0B (R289). -/
def tagTval (code pos tag : Nat) : Word := BitVec.ofNat 64 (code * 256 + pos * 16 + tag)

/-- The code of a tag (R286). -/
def tagCode : Tag → Nat
  | .b32 => 0
  | .i32 => 1
  | .f32 => 2
  | .f16x2 => 3
  | .bf16x2 => 4
  | .e4m3x4 => 5
  | .e5m2x4 => 6
  | .e3m2x5 => 7
  | .e2m3x5 => 8
  | .e2m1x8 => 9
  | .i8x4 => 10
  | .s10x3 => 11
  | .w64lo => 12
  | .w64hi => 13
  | .poison => 15

/-- The check of one register of an operand whose register field has a code: its trap, if any. -/
def checkReg (ctl : Bool) (x : Src) (n : Nat) (odd : Bool) (t : Tag) : Option (Nat × Word) :=
  if t == .poison then
    if x.kind == .any || x.kind == .anyPair then none else some (0x0B, tagTval n x.pos 15)
  else if ctl || tagOk x.kind odd t then none
  else some (0x04, tagTval n x.pos (tagCode t))

/-- The check of one operand (R289). -/
def checkSrc (t : Thread) (x : Src) : Option (Nat × Word) :=
  match x.r with
  | .gpr n => (rangeFrom 0 (regWidth t.isCtl x.kind.width)).findSome? fun k =>
      checkReg t.isCtl x n.val (k % 2 == 1) (t.reg (n.val + k)).tag
  | .vz => none
  | r => if t.isCtl then none else checkReg false x (codeOf r) false (if isIdent r then .i32 else .b32)

/-- Steps 3 to 5 of R351 for one member: the trap, if any. -/
def Spec.check (sp : Spec) (s : State) (t : Thread) : Option (Nat × Word) :=
  if t.lvl.num < sp.lvl.num then some (0x03, s.ext.iword)
  else if !sp.operandsOk t.isCtl (s.nregs t) then some (0x19, s.ext.iword)
  else sp.srcs.findSome? (checkSrc t)

/-- The numbered registers an instruction reads and writes. -/
def Spec.reads (sp : Spec) (ctl : Bool) : List Nat := (sp.srcs.map fun x => regsAt x.r (regWidth ctl x.kind.width)).flatten
def Spec.writes (sp : Spec) (ctl : Bool) : List Nat := (sp.dsts.map fun d => regsAt d.1 (regWidth ctl d.2)).flatten

/-! Addresses (R343, R409). -/

/-- The bytes of a memory type (R348). -/
def memSize : MemTy → Nat
  | .i8 => 1
  | .n8 => 1
  | .i16 => 2
  | .n16 => 2
  | .i64 => 8
  | _ => 4

/-- EA of R343 for a global operand. -/
def State.ea (s : State) (u : Nat) (m : MemF) (z : Nat) : Nat :=
  wrapN 64 (((s.src64 u m.base).toNat : Int) + sext (s.src32 u m.index) 32 * z + sext m.off.toNat 12 * z)

/-- EA of R343 for a scratch operand. -/
def State.eaS (s : State) (u : Nat) (m : MemF) (z : Nat) : Nat :=
  wrapN 32 ((s.src32 u m.base : Int) + sext (s.src32 u m.index) 32 * z + sext m.off.toNat 12 * z)

/-- The sources of an M-format address: a base pair (or one register for scratch) and an index. -/
def memSrcs (m : MemF) (scratch : Bool) : List Src :=
  [⟨4, m.base, if scratch then .int else .addr⟩, ⟨5, m.index, .int⟩]

/-- The limit of addresses for a thread: 2^48, and 2^52 in an H handler (R232, R444). -/
def Thread.vaLim (t : Thread) : Nat := if t.inH then 2 ^ 52 else 2 ^ 48

end Sys2Proof.Machine
end

