-- ==== Sys2Proof/Machine/Exec.lean ====
section
/-! DEFINITION. The execution of one instruction by an issue group (spec/09 R198 to R200; spec/16 R349 to R351), with queue
registers (spec/07 R160, R161; spec/20 R426) and the primary-only instructions of an assay pair (spec/15 R324). -/

namespace Sys2Proof.Machine

/-! Queue registers. -/

/-- The binding of a queue register for a crew. -/
def State.binding (s : State) (crew q : Nat) : Option QBind := (s.crew? crew).bind fun c => c.qb.find q

def State.modBinding (s : State) (crew q : Nat) (f : QBind → QBind) : State :=
  s.modCrew crew fun c => { c with qb := c.qb.map fun (i, b) => if i == q then (i, f b) else (i, b) }

/-- The elements an endpoint holds before a push waits (R160). -/
def epDepth (ep : Nat) : Nat :=
  match ep with
  | 0 => 256
  | 1 => 256
  | 2 => 4
  | _ => 16

/-- The rows of an inbox or outbox. -/
def Cluster.rows (k : Cluster) (ep : Nat) : List (List Word) := if ep = 0 then k.inbox else k.outbox

def Cluster.setRows (k : Cluster) (ep : Nat) (r : List (List Word)) : Cluster :=
  if ep = 0 then { k with inbox := r } else { k with outbox := r }

def rowCount (r : List (List Word)) : Nat := (r.map List.length).foldl (· + ·) 0

/-- Whether an access to a queue register may proceed: it may, it waits, or it traps. -/
inductive QTest where
  | ok | wait | trap (c : Nat)
deriving DecidableEq, Repr

/-- A pop from a binding (R160, R161, R426). -/
def State.popTest (s : State) (crew cluster q : Nat) : QTest :=
  match s.binding crew q with
  | none => .trap 0x18
  | some b => if b.push then .trap 0x18 else if b.brk then .trap 0x0E
    else if ((s.clusterAt cluster).rows b.ep).isEmpty then .wait else .ok

/-- A drain stands in the queue of a cluster's matrix engine. -/
def State.drains (s : State) (cluster : Nat) : Bool :=
  (s.clusterAt cluster).mx.queue.any fun c => match c.cmd with
    | .drain _ _ => true
    | _ => false

/-- The endpoint of an engine that a binding of a crew reaches: a channel of the die, the shuffle engine of the cluster, the collective engine
of a die (R160). -/
def endpointAt (c : Crew) (b : QBind) : Nat × Nat :=
  (b.ep, if b.ep = 2 then 64 * dieOf c.core + b.unit else if b.ep = 3 then clusterOf c.core else b.unit)

/-- The elements that an engine's endpoint holds, of every crew, in order of arrival: crew, queue register, value, thread, place (R161). -/
def State.endpoint (s : State) (at_ : Nat × Nat) : List (Nat × Nat × Nat × Nat × Nat) :=
  let l := s.core.crews.flatMap fun c => c.qb.flatMap fun e =>
    if endpointAt c e.2 == at_ then e.2.heads.map fun h => (c.uid, e.1, h.1, h.2.1, h.2.2) else []
  l.foldl (fun acc x => acc.takeWhile (fun y => decide (y.2.2.2.2 ≤ x.2.2.2.2)) ++ [x] ++ acc.dropWhile fun y => decide (y.2.2.2.2 ≤ x.2.2.2.2)) []

/-- The elements at the endpoint of a crew's binding. -/
def State.endLoad (s : State) (crew : Nat) (b : QBind) : Nat :=
  match s.crew? crew with
  | some c => (s.endpoint (endpointAt c b)).length
  | none => 0

/-- A push of n elements to a binding. A push by the control thread to the outbox waits for the drains it has issued (R303). -/
def State.pushTest (s : State) (crew cluster q n : Nat) : QTest :=
  match s.binding crew q with
  | none => .trap 0x18
  | some b => if !b.push then .trap 0x18 else if b.brk then .trap 0x0E
    else if b.ep < 2 then
      if rowCount ((s.clusterAt cluster).rows b.ep) + n ≤ 256 && !(b.ep = 1 && s.drains cluster) then .ok else .wait
    else if s.endLoad crew b < epDepth b.ep then .ok else .wait

/-- The elements of a push that find room at once: all at an inbox or outbox, where a row is appended whole; at the engines' queues
as many as fit, the others as room frees: the push completes with the last of them (R160). -/
def State.pushRoom (s : State) (crew q n : Nat) : Nat :=
  match s.binding crew q with
  | none => n
  | some b => if b.ep < 2 then n else Nat.min n (epDepth b.ep - s.endLoad crew b)

/-- A row is popped for the members of one crew (R160): a single element goes to every member, else lane k takes element k; a
control core takes one element. A SIMT thread takes bits 31:0 of an element (R303). -/
def State.popRow (s : State) (crew cluster q : Nat) (us : List Nat) : State :=
  match s.binding crew q with
  | none => s
  | some b =>
    match (s.clusterAt cluster).rows b.ep with
    | [] => s
    | row :: rest =>
      let ctl := us.any fun u => (s.thread u).isCtl
      let give (u : Nat) : Word :=
        if ctl then row.headD 0
        else match row with
          | [x] => BitVec.ofNat 64 (x.toNat % 2 ^ 32)
          | _ => BitVec.ofNat 64 ((row.getD (s.thread u).id.lane 0).toNat % 2 ^ 32)
      let rest := if ctl && 1 < row.length then row.tail :: rest else rest
      let s := s.onExt fun e => { e with pops := us.foldl (fun m u => m.put u (give u)) e.pops }
      s.modCluster cluster fun k => k.setRows b.ep rest

/-- The elements that an instruction pushed are appended: one row for each crew and register (R160). Members that have still to execute the
instruction keep the element they have popped. -/
def State.flushPushes (s : State) (cluster : Nat) (done : List Nat) : State :=
  let ps := s.ext.pushes
  let s := done.foldl State.unpop (s.onExt fun e => { e with pushes := [] })
  let keys := (ps.map fun (u, q, _) => ((s.thread u).id.crew, q)).eraseDups
  keys.foldl (fun (s : State) (crew, q) =>
    let els := ps.filter fun (u, r, _) => (s.thread u).id.crew == crew && r == q
    match s.binding crew q with
    | none => s
    | some b =>
      if b.ep < 2 then s.modCluster cluster fun k => k.setRows b.ep (k.rows b.ep ++ [els.map fun e => e.2.2])
      else
        let n := s.core.nextEl
        let new := (els.zip (rangeFrom n els.length)).map fun e => (e.1.2.2.toNat, e.1.1, e.2)
        (s.modBinding crew q fun b => { b with heads := b.heads ++ new }).onCore fun k => { k with nextEl := n + els.length }) s

/-! The load scoreboard and lookahead windows (R349, R350). -/

/-- The thread stands in the window of a request. -/
def Req.covers (r : Req) (p : Pos) : Bool := r.win.1.a == p.a && decide (r.win.1.i < p.i) && decide (p.i ≤ r.win.1.i + r.win.2)

/-- Requests of a thread whose result the registers touch. -/
def State.conflicts (s : State) (u : Nat) (regs : List Nat) : List Req :=
  s.core.reqs.filter fun r => r.thr == u && r.dest.any regs.contains

/-- A member waits for the scoreboard: it touches a result outside the window. -/
def Spec.blocked (sp : Spec) (s : State) (u : Nat) : Bool :=
  let t := s.thread u
  (s.conflicts u (sp.reads t.isCtl ++ sp.writes t.isCtl)).any fun r => !r.covers t.pos

/-- The result of a request for one register lands early: a read in its window may see it (R350). -/
def State.landEarly (s : State) (r : Req) (reg : Nat) : State :=
  match (r.dest.zip r.res).find? fun e => e.1 == reg with
  | some (_, v) => s.modThread r.thr fun t => t.setReg reg v
  | none => s

/-- The choices of R350 for a member whose instruction breaks its promise inside windows: each register read is taken before
or after the result, each register written ends as the window's or the result's value. -/
def Spec.window (sp : Spec) (s : State) (u : Nat) : State :=
  let t := s.thread u
  let rs := sp.reads t.isCtl
  let ws := sp.writes t.isCtl
  let s := (s.conflicts u rs).foldl (fun (s : State) r =>
    if r.st != .done then s
    else (r.dest.filter rs.contains).foldl (fun (s : State) d =>
      let (b, s) := chooseBool s
      if b then s.landEarly r d else s) s) s
  (s.conflicts u ws).foldl (fun (s : State) r =>
    (r.dest.filter ws.contains).foldl (fun (s : State) d =>
      let (b, s) := chooseBool s
      if b then s.onCore fun k => { k with reqs := k.reqs.map fun q => if q.id == r.id then
        { q with dest := q.dest.map fun e => if e == d then 0xFFFF else e } else q }
      else s) s) s

/-- The trap of LACHK (R350): the register and the index of the long-latency instruction. -/
def Spec.lookahead (sp : Spec) (s : State) (u : Nat) : Option Word :=
  let t := s.thread u
  let regs := sp.reads t.isCtl ++ sp.writes t.isCtl
  if !(s.fnAt t.id.fn).mem.lachk then none
  else match s.conflicts u regs with
    | r :: _ => some (BitVec.ofNat 64 ((r.dest.find? regs.contains).getD 0 + r.win.1.i * 256))
    | [] => none

/-! Members and the group. -/

/-- The function's issue-slot charges for one instruction (R200). -/
def State.charge (s : State) (members : List Nat) : State :=
  let n := members.length
  (members.zip (rangeFrom 0 n)).foldl (fun (s : State) (u, k) =>
    s.modFn (s.thread u).id.fn fun f =>
      { f with fissue := (f.fissue + 65536 / n + if k < 65536 % n then 1 else 0) % 2 ^ 64 }) s

/-- A group issues an instruction: it is charged once (R200), an access that is issued again not anew. -/
def State.chargeIssue (s : State) (g : Group) : State :=
  if g.todo.isNone && !g.members.any (fun u => (s.thread u).reissue) then s.charge g.members else s

/-- A step that is done stops the thread at its next position (R330). -/
def State.endStep (s : State) (u : Nat) : State :=
  match s.thread? u with
  | none => s
  | some t => if t.stepping then s.stop u 0x13 t.pos t.pos else s

/-- A member's outcome is applied (R199). A member that goes on keeps its place in the group; one whose access was re-issued alone
becomes ready at the position after (R237). -/
def State.applyFlow (s : State) (u : Nat) (f : Flow) : State :=
  let t := s.thread u
  let s := if t.reissue && f != .stall then s.modThread u fun t => { t with reissue := false } else s
  let s := if f == .stall || f == .left then s else s.unpop u
  match f with
  | .next => if t.stepping then s.stop u 0x13 t.after t.after else if t.reissue then ((s.leave u).modThread u fun t => { t with yielded := t.hinted }).postAt u t.after else s
  | .goto p => ((s.leave u).postAt u p).endStep u
  | .branch p ws => (((s.leave u).postAt u p).modThread u fun x => { x with
      clause := ws, yielded := x.yielded || bitOf (t.clause.headD 0).toNat 44 }).endStep u
  | .trap c v after => (s.raise u c v (if after then t.after else t.pos)).endStep u
  | .left => match t.run with
    | .waiting _ => s
    | .parked _ => s
    | _ => s.endStep u
  | .ended => s
  | .stall => s

/-- The results of a primary-only instruction go to the twin (R324). -/
def State.tellTwin (s : State) (c : Crew) (r : AssayRes) : State :=
  match c.peer with
  | none => s
  | some p => s.modCrew p fun d => { d with assay := { d.assay with log := d.assay.log ++ [r] } }

/-- The predicates that a primary-only instruction names as destinations (R324): its own and PS. -/
def namedPreds : Instr → List PredF
  | .arrive _ _ _ bk => [bk]
  | .arrdrop _ _ _ bk => [bk]
  | .bsync _ _ bk => [bk]
  | .fget _ _ _ _ bk => [bk]
  | .fput _ _ _ _ bk => [bk]
  | .fclaim _ p _ _ bk => [p, bk]
  | .send _ _ p _ _ bk => [p, bk]
  | .portcfgOpen _ _ _ bk => [bk]
  | .portcfgReg _ _ bk => [bk]
  | .portcfgClose _ _ bk => [bk]
  | .patset _ _ _ bk => [bk]
  | .patsetTmpl _ _ _ bk => [bk]
  | .patarmOn _ _ bk => [bk]
  | .patarmOff _ _ bk => [bk]
  | .breakobj _ _ _ bk => [bk]
  | .depdec _ _ bk => [bk]
  | _ => []

/-- The predicates of a thread with those that an instruction names taken from another's. -/
def takePreds (w : Word) (mine theirs : BitVec 7) : BitVec 7 :=
  match decode w with
  | .ok i => (namedPreds i).foldl (fun m p => if p.val < 7 then BitVec.ofNat 7 (setBits m.toNat p.val p.val (theirs.getLsbD p.val).toNat) else m) mine
  | .error _ => mine

/-- The values of an operand's registers, which the copies compare (R324). -/
def State.operandBits (s : State) (t : Thread) (x : Src) : List Nat :=
  match x.r with
  | .gpr n => (rangeFrom 0 (regWidth t.isCtl x.kind.width)).map fun k => (t.reg (n.val + k)).val.toNat
  | r => [(s.readR t r).val.toNat]

/-- The two instances of a primary-only instruction differ (R324, R323): in each copy the region that is open unwinds, the twin's here and the primary's
at its next instruction; otherwise the pair fails. -/
def State.pairFail (s : State) (u : Nat) : Flow × State :=
  let t := s.thread u
  let other := ((s.crew? t.id.crew).bind (·.peer)).bind fun p => (s.crewThreads p).find? fun v => v.id.tid == t.id.tid
  match other with
  | none => s.assayFail u
  | some v => if v.ct.isEmpty || t.ct.isEmpty then (.ended, s.failCrew t.id.crew 0x11) else (s.regionEvent v.uid v.rgn 0x11 0).assayFail u

/-- The twin takes the result of a primary-only instruction, or waits for it (R324). -/
def State.twinTakes (s : State) (u : Nat) (c : Crew) (key : List Nat) : Flow × State :=
  let t := s.thread u
  let n := 2048 * t.prims + t.id.tid
  match c.assay.log.find? fun r => r.n == n with
  | none => (.stall, s)
  | some r =>
    if r.key != key then s.pairFail u
    else
      let s := s.modThread u fun t => { r.regs.foldl (fun (t : Thread) e => t.setReg e.1 e.2) t with
        preds := takePreds s.ext.iword t.preds r.preds, prims := t.prims + 1 }
      let s := s.modCrew c.uid fun d => { d with assay := { d.assay with
        log := d.assay.log.filter fun x => x.n != n
        sig := d.assay.sig + r.sig } }
      match r.trap with
      | some (k, v) => (.trap k v false, s)
      | none => (.next, s)

/-- The primary performs a primary-only instruction; its result is told at once, or with its reply (R324). -/
def State.primaryDoes (s : State) (u : Nat) (c : Crew) (key : List Nat) (ws : List Nat) (f : Nat → State → Flow × State) :
    Flow × State :=
  let t := s.thread u
  let n := 2048 * t.prims + t.id.tid
  let q0 := s.core.nextReq
  let (fl, s) := f u s
  let waits := match fl with
    | .stall => true
    | .left => match (s.thread u).run with
      | .waiting _ => true
      | .parked _ => true
      | _ => false
    | _ => false
  if waits then (fl, s)
  else
    let s := s.modThread u fun t => { t with prims := t.prims + 1 }
    if s.core.nextReq != q0 then
      (fl, s.onCore fun k => { k with reqs := k.reqs.map fun r => if r.id == q0 then { r with plog := some (n, key) } else r })
    else
      let t := s.thread u
      let tr := match fl with
        | .trap k v _ => some (k, v)
        | _ => none
      let sig := match s.crew? c.uid with
        | some d => d.assay.sig - c.assay.sig
        | none => 0
      (fl, s.tellTwin c ⟨n, key, ws.map fun r => (r, t.reg r), t.preds, tr, sig⟩)

/-- One active member executes an instruction: checks, lookahead, the meaning (R351). -/
def Spec.member (sp : Spec) (f : Nat → State → Flow × State) (u : Nat) (s : State) : Flow × State :=
  let t := s.thread u
  match sp.check s t with
  | some (c, v) => (.trap c v false, s)
  | none =>
    match sp.lookahead s u with
    | some v => (.trap 0x09 v false, s)
    | none =>
      if !sp.primary then f u s
      else match s.crew? t.id.crew with
        | none => f u s
        | some c =>
          if c.peer.isNone then f u s
          else
            let key := s.ext.iword.toNat :: sp.srcs.flatMap (s.operandBits t)
            if c.copy != 1 then s.primaryDoes u c key (sp.writes t.isCtl) f
            else match sp.bnd with
              | none => s.twinTakes u c key
              | some (sc, kind) => match s.compared u sc kind with
                | (.next, s) => match s.twinTakes u c key with
                  | (.stall, s) => (.stall, s)
                  | (fl, s) => (fl, s.twinBoundary u sc)
                | r => r

/-- The queue register that an instruction pops or pushes. -/
def Spec.queueSrc (sp : Spec) : Option Nat := sp.srcs.findSome? fun x => match x.r with
  | .que n => some n.val
  | _ => none
def Spec.queueDst (sp : Spec) : Option Nat := sp.dsts.findSome? fun d => match d.1 with
  | .que n => some n.val
  | _ => none

/-- Members wait for a queue register (R161, R199). -/
def State.queueWait (s : State) (k : WaitKind) (q : Nat) (us : List Nat) : State := us.foldl (fun (s : State) u => s.wait u k false q 0) s

/-- Members trap at a queue register (R161, R449). -/
def State.queueTrap (s : State) (c q : Nat) (us : List Nat) : State :=
  us.foldl (fun (s : State) u => s.applyFlow u (.trap c (BitVec.ofNat 64 (0xE0 + q)) false)) s

/-- The members of a crew that have not popped yet pop a row, wait or trap: those that do not go on, and the state after (R160, R161). -/
def State.crewPop (s : State) (crew cluster : Nat) (q : Option Nat) (mine : List Nat) : List Nat × State :=
  match q, mine.filter fun u => (s.ext.pops.find u).isNone with
  | none, _ => ([], s)
  | some _, [] => ([], s)
  | some q, need => match s.popTest crew cluster q with
    | .ok => ([], s.popRow crew cluster q need)
    | .wait => (need, s.queueWait .qpop q need)
    | .trap k => (need, s.queueTrap k q need)

/-- The members of a crew that push: those that do not go on now, those that push and then wait for the others of their row, and the state
after. -/
def State.crewPush (s : State) (crew cluster : Nat) (q : Option Nat) (mine : List Nat) : List Nat × List Nat × State :=
  let due := mine.filter fun u => !s.ext.placed.contains u
  match q, due with
  | none, _ => ([], [], s)
  | some _, [] => ([], [], s)
  | some q, _ => match s.pushTest crew cluster q due.length with
    | .wait => (mine, [], s.queueWait .qpush q mine)
    | .trap k => (mine, [], s.queueTrap k q mine)
    | .ok =>
      let fit := due.take (s.pushRoom crew q due.length)
      if fit.length = due.length then ([], [], s)
      else
        let stay := mine.filter fun u => !fit.contains u
        (stay, fit, s.queueWait .qpush q stay)

/-- Queue registers before the members act: each crew's members pop one row or wait, and wait for room to push (R160, R161).
Members that do not go on leave the group here (R199); the rest are returned, and those that wait once they have pushed. -/
def Spec.queues (sp : Spec) (s : State) (cluster : Nat) (us : List Nat) : List Nat × List Nat × State :=
  let good := us.filter fun u => (sp.check s (s.thread u)).isNone
  let crews := if sp.queueSrc.isNone && sp.queueDst.isNone then [] else (good.map fun u => (s.thread u).id.crew).eraseDups
  crews.foldl (fun (acc : List Nat × List Nat × State) c =>
    let mine := good.filter fun u => (acc.2.2.thread u).id.crew == c
    let (out1, s) := acc.2.2.crewPop c cluster sp.queueSrc mine
    let (out2, early, s) := s.crewPush c cluster sp.queueDst (mine.filter fun u => !out1.contains u)
    (acc.1.filter fun u => !(out1.contains u || out2.contains u), acc.2.1 ++ early, s)) (us, [], s)

/-- A member that has pushed while others of its row wait for room waits with them (R160). -/
def State.pushedEarly (s : State) (u q : Nat) : State :=
  (s.onExt fun e => { e with placed := e.placed ++ [u] }).wait u .qpush false q 0

/-- The group moves on: to the next instruction, or to the clause that follows (R339). Members that wait in place keep it at
the instruction. -/
def State.advance (s : State) (g : Group) (stalled : List Nat) : State :=
  let n := g.clause.length - 2
  match s.core.groups.find? fun h => h.core == g.core && h.members.any g.members.contains with
  | none => s
  | some h =>
    let same (x : Group) : Bool := x.core == g.core && x.members.any g.members.contains
    let set (f : Group → Group) (s : State) := s.onCore fun k => { k with groups := k.groups.map (fun x => if same x then f x else x) }
    if !stalled.isEmpty then set (fun x => { x with todo := some stalled }) s
    else if g.pos.i < n then
      let p : Pos := ⟨g.pos.a, g.pos.i + 1⟩
      let s := set (fun x => { x with pos := p, todo := none }) s
      h.members.foldl (fun (s : State) u => s.modThread u fun t => { t with pos := p }) s
    else
      let p : Pos := ⟨g.pos.a + 16 + 8 * n, 0⟩
      let yieldHint := bitOf (g.clause.headD 0).toNat 44
      let s := s.onCore fun k => { k with reqs := k.reqs.map fun r => if h.members.contains r.thr then { r with win := (⟨0, 0⟩, 0) } else r }
      h.members.foldl (fun (s : State) u =>
        ((s.leave u).postAt u p).modThread u fun t => { t with yielded := t.yielded || yieldHint }) s

/-- A member is still in an executing group of its core. -/
def State.inGroup (s : State) (core u : Nat) : Bool := s.core.groups.any fun g => g.core == core && g.members.contains u

/-- What is held back before the members act: of the active members, those that go on, and the state after the others were
handled. -/
abbrev Hold := List Nat → State → List Nat × State

/-- The present group executes an instruction with a guard, the operand demands `sp` and the meaning `f` of one active member,
which is given the state before any member acted; `idle` is what happens to a member whose predicate is false, `hold` what
holds members back. -/
def State.isaAll (s : State) (gd : Guard) (sp : Spec) (hold : Hold) (f : State → Nat → State → Flow × State)
    (idle : Nat → State → Flow × State) : State :=
  match s.ext.cur with
  | none => s
  | some g =>
    let todo := g.todo.getD g.members
    if !sp.encodingOk (isCtl g.core) (g.clause.length - 2) g.pos.i then
      todo.foldl (fun (s : State) u => s.applyFlow u (.trap 0x01 s.ext.iword false)) (s.chargeIssue g)
    else
      let active := todo.filter fun u => (s.thread u).guardOk gd
      if active.any (sp.blocked s) then s
      else
        let (run, s) := hold active (s.chargeIssue g)
        let (run, early, s) := sp.queues s (clusterOf g.core) run
        let s := run.foldl (fun s u => if (sp.check s (s.thread u)).isNone && (sp.lookahead s u).isNone then sp.window s u else s) s
        let s0 := s
        let (stalled, s) := todo.foldl (fun (acc : List Nat × State) u =>
          if !acc.2.inGroup g.core u || (active.contains u && !run.contains u) then acc
          else
            let (fl, s) := if !active.contains u then idle u acc.2
              else if sp.inOrder && !acc.1.isEmpty then (.stall, acc.2)
              else if acc.2.ext.placed.contains u then (.next, acc.2)
              else sp.member (f s0) u acc.2
            if fl == .next && early.contains u then (acc.1, s.pushedEarly u (sp.queueDst.getD 0))
            else (if fl == .stall then acc.1 ++ [u] else acc.1, s.applyFlow u fl)) ([], s)
        (s.flushPushes (clusterOf g.core) (todo.filter fun u => s.inGroup g.core u && !stalled.contains u)).advance g stalled

/-- An instruction whose members act one after another, with `idle` for those whose predicate is false. -/
def State.isaWith (s : State) (gd : Guard) (sp : Spec) (f : Nat → State → Flow × State) (idle : Nat → State → Flow × State) :
    State :=
  s.isaAll gd sp (fun us s => (us, s)) (fun _ => f) idle

/-- An instruction that does nothing for members whose predicate is false. -/
def State.isa (s : State) (gd : Guard) (sp : Spec) (f : Nat → State → Flow × State) : State :=
  s.isaWith gd sp f fun _ s => (.next, s)

end Sys2Proof.Machine
end

