-- ==== Sys2Proof/Machine/Access.lean ====
section
/-! DEFINITION. Reads and writes that complete at once: of an engine, of a device unit, or of an instruction that waits for them
(spec/11 R242 to R248; spec/02 R41). -/

namespace Sys2Proof.Machine

/-- What a read gives: `mixed` is the trap of R248, `down` a read through a CXL port that is down (R127). -/
inductive RdRes where
  | ok (bs : List Byte)
  | poison (va : Nat)
  | fault (va cause : Nat) (s2 : Bool)
  | offline (va die : Nat)
  | wait
  | mixed (va : Nat)
  | down
deriving DecidableEq, Repr

/-- What a write did. -/
inductive WrRes where
  | ok
  | fault (va cause : Nat) (s2 : Bool)
  | offline (va die : Nat)
  | wait
  | mixed (va : Nat)
deriving DecidableEq, Repr

/-- The pieces of a range within lines of 128 bytes. -/
def pieces : Nat → Nat → Nat → List (Nat × Nat)
  | 0, _, _ => []
  | k + 1, va, n => if n = 0 then [] else
    let m := Nat.min n (128 - va % 128)
    (va, m) :: pieces k (va + m) (n - m)

def piecesOf (va n : Nat) : List (Nat × Nat) := pieces (n / 128 + 2) va n

/-- The limit of an agent's addresses. -/
def Agent.lim (ag : Agent) : Nat := if ag.dom.space == .phys then 2 ^ 52 else 2 ^ 48

/-- The newest bytes as a home finds them, or memory's own where the home map was changed without cleaning (R41). -/
def State.newest (s : State) (home : Nat × Nat) (pa n : Nat) : List Byte × State :=
  let opts := (rangeFrom pa n).map (s.mem.byteAt home)
  let (old, s) := if opts.any fun o => 2 ≤ o.length then chooseBool s else (false, s)
  (opts.map fun o => if old then o.getLastD memDefault else o.headD memDefault, s)

/-- The bytes at a home (R245, R250), or memory's own where the home map was changed without cleaning (R41). -/
def State.readHome (s : State) (ag : Agent) (strong : Option Scope) (va pa n : Nat) (coh : Bool := false) : List Byte × State :=
  let home := homeIn s ag.dom.space ag.dom.core va
  let stale := (rangeFrom pa n).any fun a => 2 ≤ (s.mem.byteAt home a).length
  let (old, s) := if stale then chooseBool s else (false, s)
  if old then ((rangeFrom pa n).map fun a => (s.mem.byteAt home a).getLastD memDefault, s)
  else
    let (bs, s) := s.homeRead ag strong pa n coh fun i => s.l1Floor ag (va + i)
    (bs.map (·.1), s)

/-- Bytes of the domain over bytes of the home. -/
def overlay (own : Map Byte) (bs : List Byte) : List Byte := (bs.zip (rangeFrom 0 bs.length)).map fun (b, i) => own.getD b i

/-- A plain read within a line. -/
def State.readPiece (s : State) (ag : Agent) (va n : Nat) : RdRes × State :=
  if ag.lim ≤ va then (.fault va 7 false, s)
  else if ag.path == .ls && s.inFlight ag.thr va n then (.wait, s)
  else match s.xlate ag va .r with
    | (.fault c s2, s) => (.fault va c s2, s)
    | (.offline d, s) => (.offline va d, s)
    | (.wait, s) => (.wait, s)
    | (.ok pa at_, s) => match s.prepareAt ag va pa n false at_ with
      | (.wait, s) => (.wait, s)
      | (.down, s) => (.down, s)
      | (.go, s) =>
        let (own, s) := s.ownBytes ag va n
        let bad := (s.mem.poisoned pa n && decide (own.length < n)) || s.mem.ownPoison ag.dom va n
        if bad then (.poison va, s)
        else
          let (bs, s) := s.readHome ag none va pa n at_.noL1
          let home := homeIn s ag.dom.space ag.dom.core va
          let s := (s.readNames ag home va pa at_).l1Fill ag va n at_ false
          (.ok (overlay own bs), s)

/-- READ_PLAIN of R359: a plain read on the agent's path, in its domain. -/
def State.readPlain (s : State) (ag : Agent) (va n : Nat) : RdRes × State :=
  (piecesOf va n).foldl (fun (acc : RdRes × State) (v, k) => match acc.1 with
    | .ok bs => match acc.2.readPiece ag v k with
      | (.ok cs, s) => (.ok (bs ++ cs), s)
      | r => r
    | _ => acc) (.ok [], s)

/-- The check of a plain write of the range at its home: translation and permission (R214). -/
def State.canWrite (s : State) (ag : Agent) (va n : Nat) : Option PubStop × State :=
  (piecesOf va n).foldl (fun (acc : Option PubStop × State) (v, _) => match acc.1 with
    | none =>
      if ag.lim ≤ v then (some (.fault v 7 false), acc.2)
      else match acc.2.xlate ag v .w with
        | (.ok _ _, s) => (none, s)
        | (.fault c s2, s) => (some (.fault v c s2), s)
        | (.offline d, s) => (some (.offline v d), s)
        | (.wait, s) => (some .wait, s)
    | _ => acc) (none, s)

/-- What a publication stop is for a caller that writes. -/
def PubStop.res : PubStop → WrRes
  | .fault va c s2 => .fault va c s2
  | .offline va d => .offline va d
  | .wait => .wait

/-- A strong read of a range within a line (R245): own bytes are published first, the newest value is taken. -/
def State.readStrong (s : State) (ag : Agent) (sc : Scope) (va n : Nat) : RdRes × State :=
  if ag.lim ≤ va then (.fault va 7 false, s)
  else if ag.path == .ls && s.inFlight ag.thr va n then (.wait, s)
  else match s.publishRange ag va n with
    | (some (.fault v c s2), s) => (.fault v c s2, s)
    | (some (.offline v d), s) => (.offline v d, s)
    | (some .wait, s) => (.wait, s)
    | (none, s) => match s.xlate ag va .r with
      | (.fault c s2, s) => (.fault va c s2, s)
      | (.offline d, s) => (.offline va d, s)
      | (.wait, s) => (.wait, s)
      | (.ok pa at_, s) => match s.prepareAt ag va pa n false at_ with
        | (.wait, s) => (.wait, s)
        | (.down, s) => (.down, s)
        | (.go, s) =>
          let home := homeIn s ag.dom.space ag.dom.core va
          if s.mixed ag.fn home.1 pa n then (.mixed va, s)
          else
            let s := (s.noteStrong home.1 pa n).readNames ag home va pa at_
            if s.mem.poisoned pa n then (.poison va, s)
            else
              let (bs, s) := s.readHome ag (some sc) va pa n
              (.ok bs, s)

/-- A strong write of a range within a line (R245). -/
def State.writeStrong (s : State) (ag : Agent) (sc : Scope) (pubs : List Nat) (va : Nat) (bs : List Byte) : WrRes × State :=
  if ag.lim ≤ va then (.fault va 7 false, s)
  else match s.publishRange ag va bs.length with
    | (some p, s) => (p.res, s)
    | (none, s) => match s.writeCheck ag va bs.length with
      | (.fault c s2, s) => (.fault va c s2, s)
      | (.offline d, s) => (.offline va d, s)
      | (.wait, s) => (.wait, s)
      | (.drop pa, s) => (.ok, s.dropWrite pa)
      | (.ok pa at_, s) =>
        let home := homeIn s ag.dom.space ag.dom.core va
        if s.mixed ag.fn home.1 pa bs.length then (.mixed va, s)
        else (.ok, s.strongWrite ag sc pubs home va pa at_ false bs false)

/-- A read that did not succeed takes the thread (R232, R72): a translation fault, an offline home, a wait in place. -/
def State.readStop (s : State) (u kind : Nat) (r : RdRes) : Flow × State :=
  match r with
  | .ok _ => (.next, s)
  | .poison va => s.poisonAt u va
  | .fault va c s2 => if (s.thread u).vaLim ≤ va then (.trap 7 (BitVec.ofNat 64 va) false, s) else (.left, s.transFault u kind va c s2)
  | .offline va d => (.left, s.offlineFault u d va kind)
  | .wait => (.stall, s)
  | .mixed va => (.trap 0x0A (BitVec.ofNat 64 va) false, s)
  | .down => (.next, s)

/-- A write that did not succeed takes the thread. -/
def State.writeStop (s : State) (u kind : Nat) (r : WrRes) : Flow × State :=
  match r with
  | .ok => (.next, s)
  | .fault va c s2 => if (s.thread u).vaLim ≤ va then (.trap 7 (BitVec.ofNat 64 va) false, s) else (.left, s.transFault u kind va c s2)
  | .offline va d => (.left, s.offlineFault u d va kind)
  | .wait => (.stall, s)
  | .mixed va => (.trap 0x0A (BitVec.ofNat 64 va) false, s)

/-! Engines: reads and writes of ranges (R74, R232, R266). -/

/-- The pieces of a range within blocks of 64 bytes. -/
def blocks : Nat → Nat → Nat → List (Nat × Nat)
  | 0, _, _ => []
  | k + 1, va, n => if n = 0 then [] else
    let m := Nat.min n (64 - va % 64)
    (va, m) :: blocks k (va + m) (n - m)

def blocksOf (va n : Nat) : List (Nat × Nat) := blocks (n / 64 + 2) va n

/-- A plain read of a block by an engine: bytes with poison marks. -/
def State.readBlock (s : State) (ag : Agent) (va n : Nat) : Except PubStop (List (Byte × Bool)) × State :=
  if ag.lim ≤ va then (.error (.fault va 7 false), s)
  else match s.xlate ag va .r with
    | (.fault c s2, s) => (.error (.fault va c s2), s)
    | (.offline d, s) => (.error (.offline va d), s)
    | (.wait, s) => (.error .wait, s)
    | (.ok pa at_, s) => match s.prepareAt ag va pa n false at_ with
      | (.wait, s) => (.error .wait, s)
      | (rd, s) =>
        let (own, s) := s.ownBytes ag va n
        let bad := rd == .down || s.mem.poisoned pa n
        let (bs, s) := s.readHome ag none va pa n at_.noL1
        let home := homeIn s ag.dom.space ag.dom.core va
        let s := s.readNames ag home va pa at_
        let mine := s.mem.ownPoison ag.dom va n
        (.ok ((overlay own bs).zip ((rangeFrom 0 n).map fun i => mine || (bad && (own.find i).isNone))), s)

/-- A plain read of a range by an engine. -/
def State.gather (s : State) (ag : Agent) (va n : Nat) : Except PubStop (List (Byte × Bool)) × State :=
  (blocksOf va n).foldl (fun (acc : Except PubStop (List (Byte × Bool)) × State) (v, k) => match acc.1 with
    | .error _ => acc
    | .ok l => match acc.2.readBlock ag v k with
      | (.ok m, s) => (.ok (l ++ m), s)
      | r => r) (.ok [], s)

/-- Where the blocks of a write of an engine go: VA, length, physical address (none: dropped), attributes. -/
def State.spread (s : State) (ag : Agent) (va n : Nat) : Except PubStop (List (Nat × Nat × Option Nat × Attr)) × State :=
  (blocksOf va n).foldl (fun (acc : Except PubStop (List (Nat × Nat × Option Nat × Attr)) × State) (v, k) => match acc.1 with
    | .error _ => acc
    | .ok l =>
      if ag.lim ≤ v then (.error (.fault v 7 false), acc.2)
      else match acc.2.writeCheck ag v k with
        | (.ok pa at_, s) => (.ok (l ++ [(v, k, some pa, at_)]), s)
        | (.drop pa, s) => (.ok (l ++ [(v, k, none, Attr.reset)]), s.dropWrite pa)
        | (.fault c s2, s) => (.error (.fault v c s2), s)
        | (.offline d, s) => (.error (.offline v d), s)
        | (.wait, s) => (.error .wait, s)) (.ok [], s)

/-- The bytes of a checked write land at their homes, a block with a poisoned byte poisoned (R266). -/
def State.scatter (s : State) (ag : Agent) (ltid : Word) (pubs : List Nat) (va0 : Nat) (l : List (Nat × Nat × Option Nat × Attr))
    (bs : List (Byte × Bool)) : State :=
  l.foldl (fun (s : State) (va, n, pa?, at_) => match pa? with
    | none => s
    | some pa =>
      let mine := (bs.drop (va - va0)).take n
      let home := homeIn s ag.dom.space ag.dom.core va
      let old := s.mem.read pa n
      let w : Wr := ⟨s.mem.seq, some ag.dom, ag.thr, ag.path, none, ag.dom.core, pubs, (0, 0), (s.thread ag.thr).seen.know⟩
      let s := s.homeWrite w ag.dom.space home va pa at_ false (mine.map (·.1)) (mine.any (·.2))
      let s := s.onMem fun m => { m with seq := m.seq + 1 }
      s.traceWrite ag ltid 2 1 ag.pc va old (mine.map (·.1)) home.1) s

/-- A record that waits for room since an earlier stop of an engine is not written any more: its stop is over (R236, R314). -/
def State.dropWaits (s : State) (who : FaultWho) : State :=
  let cut (e : Nat × Fn) : Nat × Fn := (e.1, { e.2 with mem := { e.2.mem with waits := e.2.mem.waits.filter fun w => w.who != who } })
  s.onTask fun k => { k with fns := k.fns.map cut }

/-- A fault-queue record of kind 5 (R236): none when the queue is disabled, else its SEQ, or `noSeq` while it waits for room. -/
def State.engineRecord (s : State) (fn va asid : Nat) (ltid : Word) (thr cause : Nat) (s2 : Bool) (who : FaultWho) : Option Nat × State :=
  let f := (s.fnAt fn).mem
  let cwa := (s.thread thr).fr.cwa
  let flags := 5 + if s2 then 8 else 0
  if !f.pfq.en then (none, s)
  else if f.full then (some noSeq, (s.dropWaits who).modFn fn fun g => { g with mem := { g.mem with waits := g.mem.waits ++ [⟨va, asid, ltid, cwa, cause, flags, who⟩] } })
  else (some f.pfqHead, s.faultRecord fn va asid ltid cwa cause flags who)

/-- The ASID of a space. -/
def Space.asidOf : Space → Nat
  | .asid a => a
  | .phys => 0

/-- An engine access meets an offline home: it is noted among the held ones (R70, R74). -/
def State.holdFor (s : State) (die : Nat) (who : HeldWho) (va now : Nat) : State :=
  if s.plat.links.held.any fun h => h.who == who then s
  else (s.unOrder who).onLinks fun l => { l with held := l.held ++ [⟨die, who, va, now⟩] }

/-- The engine's access is held for an offline home. -/
def State.isHeld (s : State) (who : HeldWho) : Bool := s.plat.links.held.any fun h => h.who == who

end Sys2Proof.Machine
end

