-- ==== Sys2Proof/Machine/Fp.lean ====
section
/-! DEFINITION. Number formats, exact values and rounding (spec/13 R282 to R285, R292 to R294), and the correctly rounded
functions of spec/18 R388, R389. -/

namespace Sys2Proof.Machine

/-- A float format: width, fraction bits, bias, whether it has infinities, whether its one NaN code has all bits set (E4M3),
whether it has NaNs, whether ties go away from zero (R282, R283, R292). -/
structure Fmt where
  w    : Nat
  mb   : Nat
  bias : Nat
  inf  : Bool
  nan  : Bool
  away : Bool
deriving DecidableEq, Repr

def fp64 : Fmt := ⟨64, 52, 1023, true, true, false⟩
def fp32 : Fmt := ⟨32, 23, 127, true, true, false⟩
def fp22 : Fmt := ⟨22, 13, 127, true, true, false⟩
def fp16 : Fmt := ⟨16, 10, 15, true, true, false⟩
def bf16 : Fmt := ⟨16, 7, 127, true, true, false⟩
def fpE5M2 : Fmt := ⟨8, 2, 15, true, true, true⟩
def fpE4M3 : Fmt := ⟨8, 3, 7, false, true, true⟩
def fpE3M2 : Fmt := ⟨6, 2, 3, false, false, true⟩
def fpE2M3 : Fmt := ⟨6, 3, 1, false, false, true⟩
def fpE2M1 : Fmt := ⟨4, 1, 1, false, false, true⟩

/-- An exact value: a NaN with its sign, an infinity, or (-1)^neg · m · 2^e. -/
inductive FV where
  | nan (neg : Bool)
  | inf (neg : Bool)
  | fin (neg : Bool) (m : Nat) (e : Int)
deriving DecidableEq, Repr

/-- The exponent field of all ones. -/
def Fmt.emax (f : Fmt) : Nat := 2 ^ (f.w - 1 - f.mb) - 1

/-- The code of +∞ (where the format has it). -/
def Fmt.infCode (f : Fmt) : Nat := f.emax * 2 ^ f.mb

/-- The code of the largest finite value. -/
def Fmt.maxCode (f : Fmt) : Nat := if f.inf then f.infCode - 1 else if f.nan then 2 ^ (f.w - 1) - 2 else 2 ^ (f.w - 1) - 1

/-- The canonical NaN (R283). -/
def Fmt.nanCode (f : Fmt) : Nat := if f.inf then f.infCode + 2 ^ (f.mb - 1) else 2 ^ (f.w - 1) - 1

/-- A code with a sign. -/
def Fmt.signed (f : Fmt) (neg : Bool) (c : Nat) : Nat := if neg then 2 ^ (f.w - 1) + c else c

/-- WIDEN of R359: the exact value of a code. -/
def Fmt.widen (f : Fmt) (c : Nat) : FV :=
  let neg := bitOf c (f.w - 1)
  let e := bitsOf c (f.w - 2) f.mb
  let fr := c % 2 ^ f.mb
  if f.inf && e == f.emax then (if fr = 0 then .inf neg else .nan neg)
  else if f.nan && !f.inf && e == f.emax && fr == 2 ^ f.mb - 1 then .nan neg
  else if e = 0 then .fin neg fr (1 - (f.bias : Int) - f.mb)
  else .fin neg (2 ^ f.mb + fr) ((e : Int) - f.bias - f.mb)

/-- n / d · 2^e rounded to an integer, ties to even or away; whether it was inexact. -/
def roundInt (away : Bool) (n d : Nat) (e : Int) : Nat × Bool :=
  let n := n * 2 ^ e.toNat
  let d := d * 2 ^ (-e).toNat
  let q := n / d
  let r := n % d
  (if d < 2 * r || (2 * r == d && (away || q % 2 == 1)) then q + 1 else q, r != 0)

/-- The greatest k with 2^k ≤ n / d · 2^e. -/
def floorLog (n d : Nat) (e : Int) : Int :=
  let k : Int := (n.log2 : Int) - (d.log2 : Int)
  let le : Bool := decide (d * 2 ^ k.toNat ≤ n * 2 ^ (-k).toNat)
  (if le then k else k - 1) + e

/-- Flags in the order of R295: NX 1, UF 2, OF 4, DZ 8, NV 16. -/
abbrev Fl := BitVec 5

def orFl (l : List Fl) : Fl := l.foldl (· ||| ·) 0

/-- narrow of R292 with the overflow of R293 of (-1)^neg · n / d · 2^e; `conv` for conversions. -/
def Fmt.narrowQ (f : Fmt) (conv neg : Bool) (n d : Nat) (e : Int) : Nat × Fl :=
  if n = 0 then (f.signed neg 0, 0)
  else
    let lo : Int := 1 - (f.bias : Int) - f.mb
    let k := floorLog n d e - f.mb
    let unit := if k < lo then lo else k
    let (q, inexact) := roundInt f.away n d (e - unit)
    let c := (unit - lo).toNat * 2 ^ f.mb + q
    if f.maxCode < c then (f.signed neg (if f.inf && !conv then f.infCode else f.maxCode), 5)
    else (f.signed neg c, if inexact then (if c < 2 ^ f.mb then 3 else 1) else 0)

/-- A conversion to a float format (R294). -/
def Fmt.convert (f : Fmt) (v : FV) : Nat × Fl :=
  match v with
  | .nan neg => if f.nan then (f.nanCode, 0) else (f.signed neg f.maxCode, 16)
  | .inf neg => if f.inf then (f.signed neg f.infCode, 0) else (f.signed neg f.maxCode, 4)
  | .fin neg m e => f.narrowQ true neg m 1 e

/-- The value of an S10 code (R284). -/
def s10Val (c : Nat) : FV :=
  if c = 0 then .fin false 0 0 else if c = 0x3FF then .nan false
  else .fin false (16 + c % 16) ((c / 16 : Nat) - 31 - 4 : Int)

/-- n / d · 2^e narrowed to S10 (R292, R293). -/
def narrowS10 (n d : Nat) (e : Int) : Nat × Fl :=
  if n = 0 then (0, 0)
  else
    let k := floorLog n d e
    if k < -31 || (k == -31 && decide ((roundInt true n d (e + 36)).1 < 34)) then
      -- below 0x001: half of it, 17 · 2^-36, and more rounds up
      let (c, d2) := (n * 2 ^ (e + 36).toNat, d * 2 ^ (-(e + 36)).toNat)
      if 17 * d2 ≤ c then (1, if c == 34 * d2 then 0 else 1) else (0, 3)
    else
      let (q, inexact) := roundInt true n d (e - (k - 4))
      let c := ((k + 31) * 16).toNat + (q - 16)
      if 0x3FE < c then (0x3FE, 5) else (c, if inexact then 1 else 0)

/-- A conversion to S10 (R294). -/
def convS10 (v : FV) : Nat × Fl :=
  match v with
  | .nan _ => (0x3FF, 16)
  | .inf neg => if neg then (0x3FF, 16) else (0x3FE, 4)
  | .fin neg m e => if neg && m != 0 then (0x3FF, 16) else narrowS10 m 1 e

/-- A conversion to an integer type (R292, R294): its low bits. -/
def convInt (bits : Nat) (signed rz : Bool) (v : FV) : Nat × Fl :=
  let lo : Int := if signed then -((2 ^ (bits - 1) : Nat) : Int) else 0
  let hi : Int := if signed then ((2 ^ (bits - 1) : Nat) : Int) - 1 else ((2 ^ bits : Nat) : Int) - 1
  match v with
  | .nan _ => (0, 16)
  | .inf neg => (wrapN bits (if neg then lo else hi), 16)
  | .fin neg m e =>
    let big : Bool := decide (m != 0) && decide (80 ≤ (m.log2 : Int) + e)
    if big then (wrapN bits (if neg then lo else hi), 16)
    else
      let (q, inexact) := if rz then (m * 2 ^ e.toNat / 2 ^ (-e).toNat, m * 2 ^ e.toNat % 2 ^ (-e).toNat != 0)
        else roundInt (bits == 8) m 1 e
      let x : Int := if neg then -(q : Int) else (q : Int)
      if x < lo then (wrapN bits lo, 16) else if hi < x then (wrapN bits hi, 16)
      else (wrapN bits x, if inexact then 1 else 0)

/-! Exact sums and products (R293, R383). -/

/-- A product, and whether it is 0 × ∞. -/
def FV.mul (a b : FV) : FV × Bool :=
  match a, b with
  | .nan n, _ => (.nan n, false)
  | _, .nan n => (.nan n, false)
  | .inf x, .inf y => (.inf (x != y), false)
  | .inf x, .fin y m _ => if m = 0 then (.nan false, true) else (.inf (x != y), false)
  | .fin x m _, .inf y => if m = 0 then (.nan false, true) else (.inf (x != y), false)
  | .fin x m e, .fin y n g => (.fin (x != y) (m * n) (e + g), false)

def FV.isNan : FV → Bool
  | .nan _ => true
  | _ => false

def FV.isInf (neg : Bool) : FV → Bool
  | .inf n => n == neg
  | _ => false

/-- Minus zero. -/
def FV.isNegZero : FV → Bool
  | .fin neg m _ => neg && m == 0
  | _ => false

/-- The least exponent of the finite nonzero terms. -/
def minExp : List FV → Option Int
  | [] => none
  | .fin _ m e :: vs => if m = 0 then minExp vs else match minExp vs with
    | none => some e
    | some g => some (if e < g then e else g)
  | _ :: vs => minExp vs

/-- The sum of finite terms in units of 2^e. -/
def sumAt (e : Int) (vs : List FV) : Int :=
  vs.foldl (fun a v => match v with
    | .fin neg m g => let x : Int := ((m * 2 ^ (g - e).toNat : Nat) : Int); if neg then a - x else a + x
    | _ => a) 0

/-- An exact sum, or why it has none: an invalid case, a NaN, an infinity. -/
def sumFV (vs : List FV) (inv : Bool) : FV × Fl :=
  let p := vs.any (FV.isInf false)
  let n := vs.any (FV.isInf true)
  if inv || (p && n) then (.nan false, 16)
  else if vs.any FV.isNan then (.nan false, 0)
  else if p then (.inf false, 0)
  else if n then (.inf true, 0)
  else match minExp vs with
    | none => (.fin (!vs.isEmpty && vs.all FV.isNegZero) 0 0, 0)
    | some e =>
      let x := sumAt e vs
      (.fin (decide (x < 0)) x.natAbs e, 0)

/-- An arithmetic result of a format: the sum of terms rounded once (R383). -/
def Fmt.ofFV (f : Fmt) (v : FV) : Nat × Fl :=
  match v with
  | .nan _ => (f.nanCode, 0)
  | .inf neg => (f.signed neg f.infCode, 0)
  | .fin neg m e => f.narrowQ false neg m 1 e

def Fmt.sum (f : Fmt) (vs : List FV) (inv : Bool) : Nat × Fl :=
  let (v, fl) := sumFV vs inv
  let (c, g) := f.ofFV v
  (c, fl ||| g)

def Fmt.add (f : Fmt) (a b : Nat) : Nat × Fl := f.sum [f.widen a, f.widen b] false
def Fmt.mul (f : Fmt) (a b : Nat) : Nat × Fl :=
  let (p, inv) := (f.widen a).mul (f.widen b)
  f.sum [p] inv
def Fmt.fma (f : Fmt) (a b c : Nat) : Nat × Fl :=
  let (p, inv) := (f.widen a).mul (f.widen b)
  f.sum [p, f.widen c] inv

/-- a < b for values that are no NaN; with `zeros`, −0 ranks below +0 (R384). -/
def FV.lt (zeros : Bool) (a b : FV) : Bool :=
  match a, b with
  | .nan _, _ => false
  | _, .nan _ => false
  | .inf x, .inf y => x && !y
  | .inf x, _ => x
  | _, .inf y => !y
  | .fin x m e, .fin y n g =>
    let lo := if e < g then e else g
    let p : Int := sumAt lo [.fin x m e]
    let q : Int := sumAt lo [.fin y n g]
    decide (p < q) || (zeros && p == 0 && q == 0 && x && !y)

/-- FMIN and FMAX (R384). -/
def Fmt.minmax (f : Fmt) (max : Bool) (a b : Nat) : Nat :=
  let x := f.widen a
  let y := f.widen b
  if x.isNan && y.isNan then f.nanCode
  else if x.isNan then b
  else if y.isNan then a
  else if (if max then x.lt true y else y.lt true x) then b else a

/-! Functions (R388, R389). -/

/-- The integer square root from bit k down. -/
def isqrtGo (n : Nat) : Nat → Nat → Nat
  | 0, r => r
  | k + 1, r => isqrtGo n k (if (r + 2 ^ k) * (r + 2 ^ k) ≤ n then r + 2 ^ k else r)

def isqrt (n : Nat) : Nat := isqrtGo n (n.log2 / 2 + 1) 0

/-- An irrational value between r and r + 1 in units of 2^e, or r itself when it is exact: the point that rounds alike. -/
def Fmt.sticky (f : Fmt) (neg exact : Bool) (r : Nat) (e : Int) : Nat × Fl :=
  if exact then f.narrowQ false neg r 1 e else f.narrowQ false neg (2 * r + 1) 1 (e - 1)

/-- √(m · 2^e). -/
def sqrtV (m : Nat) (e : Int) : Nat × Fl :=
  let (m, e) := if e % 2 = 0 then (m, e) else (2 * m, e - 1)
  let n := m * 2 ^ 128
  let r := isqrt n
  fp32.sticky false (r * r == n) r (e / 2 - 64)

/-- 1 / √(m · 2^e). -/
def rsqrtV (m : Nat) (e : Int) : Nat × Fl :=
  let (m, e) := if e % 2 = 0 then (m, e) else (2 * m, e - 1)
  let r := isqrt (2 ^ 256 / m)
  fp32.sticky false (m * (r * r) == 2 ^ 256) r (-(e / 2) - 128)

/-- Fixed point with 448 fraction bits. -/
def fxBits : Nat := 448
def fxOne : Nat := 2 ^ fxBits
/-- ln 2 and π, rounded down. -/
def fxLn2 : Nat :=
  0xb17217f7d1cf79abc9e3b39803f2f6af40f343267298b62d8a0d175b8baafa2be7b876206debac98559552fb4afa1b10ed2eae35c1382144
def fxPi : Nat :=
  0x3243f6a8885a308d313198a2e03707344a4093822299f31d0082efa98ec4e6c89452821e638d01377be5466cf34e90c6cc0ac29b7c97c50dd

/-- Σ x^k / k! for k < n, x in fixed point. -/
def fxExpGo (x : Nat) : Nat → Nat → Nat → Nat → Nat
  | 0, _, _, acc => acc
  | n + 1, k, term, acc => fxExpGo x n (k + 1) (term * x / fxOne / k) (acc + term)

/-- e^x for 0 ≤ x < 1. -/
def fxExp (x : Nat) : Nat := fxExpGo x 96 1 fxOne 0

/-- Σ z^(2k+1) / (2k+1), the inverse hyperbolic tangent. -/
def fxAtanhGo (z2 : Nat) : Nat → Nat → Nat → Nat → Nat
  | 0, _, _, acc => acc
  | n + 1, k, pw, acc => fxAtanhGo z2 n (k + 2) (pw * z2 / fxOne) (acc + pw / k)

/-- ln of a fixed-point value from 1 to 2. -/
def fxLn (x : Nat) : Nat :=
  let z := (x - fxOne) * fxOne / (x + fxOne)
  2 * fxAtanhGo (z * z / fxOne) 150 1 z 0

/-- Σ (-1)^j y2^j / ((k+1)(k+2) ⋯), the series of sine (k = 1) and cosine (k = 0). -/
def fxTrigGo (y2 : Nat) : Nat → Nat → Nat → Bool → Int → Int
  | 0, _, _, _, acc => acc
  | n + 1, k, term, neg, acc =>
    fxTrigGo y2 n (k + 2) (term * y2 / fxOne / ((k + 1) * (k + 2))) (!neg) (if neg then acc - (term : Int) else acc + (term : Int))

/-- m · 2^e in fixed point, rounded down. -/
def fxOf (m : Nat) (e : Int) : Nat := m * 2 ^ (e + fxBits).toNat / 2 ^ (-(e + fxBits)).toNat

/-- sin(π t) for t = m · 2^e from 0 to 1/2, as n · 2^-k. -/
def sinPi (neg : Bool) (m : Nat) (e : Int) : Nat × Fl :=
  let y := fxOf (m * fxPi) (e - fxBits)
  let c := (fxTrigGo (y * y / fxOne) 64 1 fxOne false 0).toNat
  fp32.narrowQ false neg (2 * (m * fxPi * c) + 1) 1 (e - 2 * fxBits - 1)

/-- cos(π t) for t = m · 2^e from 0 to 1/4. -/
def cosPi (neg : Bool) (m : Nat) (e : Int) : Nat × Fl :=
  let y := fxOf (m * fxPi) (e - fxBits)
  let c := (fxTrigGo (y * y / fxOne) 64 0 fxOne false 0).toNat
  fp32.narrowQ false neg (2 * (if m = 0 then c else c - 1) + 1) 1 (-(fxBits : Int) - 1)

/-- m · 2^e modulo 2, in units of 2^min(e, 0). -/
def mod2 (m : Nat) (e : Int) : Nat × Nat :=
  let k := (-e).toNat
  (m * 2 ^ e.toNat % 2 ^ (k + 1), k)

def fsinV (neg : Bool) (m : Nat) (e : Int) : Nat × Fl :=
  let (r, k) := mod2 m e
  let one := 2 ^ k
  let neg2 := neg != decide (one ≤ r)
  let t := r % one
  if t = 0 then (fp32.signed neg 0, 0)
  else if 2 * t = one then fp32.narrowQ false neg2 1 1 0
  else sinPi neg2 (if one < 2 * t then one - t else t) (-(k : Int))

def fcosV (m : Nat) (e : Int) : Nat × Fl :=
  let (r, k) := mod2 m e
  let one := 2 ^ k
  let t := if one < r then 2 * one - r else r
  let neg := decide (one < 2 * t)
  let t := if neg then one - t else t
  if t = 0 then fp32.narrowQ false neg 1 1 0
  else if 2 * t = one then (0, 0)
  else if one < 4 * t then sinPi neg (one - 2 * t) (-(k : Int) - 1)
  else cosPi neg t (-(k : Int))

/-- 2^(± m · 2^e). -/
def fex2V (neg : Bool) (m : Nat) (e : Int) : Nat × Fl :=
  if m = 0 then fp32.narrowQ false false 1 1 0
  else if decide (12 ≤ (m.log2 : Int) + e) then fp32.narrowQ false false 1 1 (if neg then -4096 else 4096)
  else
    let k := (-e).toNat
    let v := m * 2 ^ e.toNat
    let x : Int := if neg then -(v : Int) else (v : Int)
    let i := x / ((2 ^ k : Nat) : Int)
    let fr := (x % ((2 ^ k : Nat) : Int)).toNat
    if fr = 0 then fp32.narrowQ false false 1 1 i
    else fp32.sticky false false (fxExp (fxOf (fr * fxLn2) (-(k : Int) - fxBits))) (i - fxBits)

/-- log₂(m · 2^e). -/
def flg2V (m : Nat) (e : Int) : Nat × Fl :=
  let k := m.log2
  let i : Int := (k : Int) + e
  if m = 2 ^ k then fp32.narrowQ false (decide (i < 0)) i.natAbs 1 0
  else
    let l := fxLn (fxOf m (-(k : Int))) * fxOne / fxLn2
    let v : Int := i * (fxOne : Int) + (l : Int)
    fp32.narrowQ false (decide (v < 0)) (2 * v.natAbs + 1) 1 (-(fxBits : Int) - 1)

/-- tanh of ± m · 2^e: near a for tiny a, near 1 for large a. -/
def ftanhV (neg : Bool) (m : Nat) (e : Int) : Nat × Fl :=
  let l := (m.log2 : Int) + e
  if 4 ≤ l then fp32.narrowQ false neg (2 ^ 100 - 1) 1 (-100)
  else if l < -60 then fp32.narrowQ false neg (m * 2 ^ 100 - 1) 1 (e - 100)
  else
    let y := fxOf m (e + 1)
    let k := y / fxLn2
    let ex := fxExp (y % fxLn2) * 2 ^ k
    fp32.narrowQ false neg (ex - fxOne) (ex + fxOne) 0

/-- The operations of major 0x09. -/
inductive FFn where
  | rcp | rsq | sqrt | ex2 | lg2 | sin | cos | tanh
deriving DecidableEq, Repr

/-- A function of major 0x09 of a value (R388, R389). -/
def FFn.eval (op : FFn) (v : FV) : Nat × Fl :=
  let qnan : Nat × Fl := (fp32.nanCode, 0)
  let bad : Nat × Fl := (fp32.nanCode, 16)
  let infC (neg : Bool) : Nat := fp32.signed neg fp32.infCode
  let one (neg : Bool) : Nat × Fl := fp32.narrowQ false neg 1 1 0
  match v with
  | .nan _ => qnan
  | .inf neg => match op with
    | .rcp => (fp32.signed neg 0, 0)
    | .rsq => if neg then bad else (0, 0)
    | .sqrt => if neg then bad else (infC false, 0)
    | .ex2 => if neg then (0, 0) else (infC false, 0)
    | .lg2 => if neg then bad else (infC false, 0)
    | .sin => bad
    | .cos => bad
    | .tanh => one neg
  | .fin neg m e =>
    if m = 0 then match op with
      | .rcp => (infC neg, 8)
      | .rsq => (infC neg, 8)
      | .sqrt => (fp32.signed neg 0, 0)
      | .ex2 => one false
      | .lg2 => (infC true, 8)
      | .sin => (fp32.signed neg 0, 0)
      | .cos => one false
      | .tanh => (fp32.signed neg 0, 0)
    else match op with
      | .rcp => fp32.narrowQ false neg 1 m (-e)
      | .rsq => if neg then bad else rsqrtV m e
      | .sqrt => if neg then bad else sqrtV m e
      | .ex2 => fex2V neg m e
      | .lg2 => if neg then bad else flg2V m e
      | .sin => fsinV neg m e
      | .cos => fcosV m e
      | .tanh => ftanhV neg m e

end Sys2Proof.Machine
end

