-- ==== Sys2Proof/Machine/Flags.lean ====
section
/-! DEFINITION. Flags and status predicates: FFLAGS and MXFLAGS (spec/13 R295 to R298), the broken status of waits (spec/08
R185), and results that arrive later (spec/16 R349, R350). -/

namespace Sys2Proof.Machine

/-- What a step answers. -/
abbrev Result := Host.Outcome State Fault Refusal

/-- Flag bits (R295). -/
def flNX : BitVec 5 := 1
def flUF : BitVec 5 := 2
def flOF : BitVec 5 := 4
def flDZ : BitVec 5 := 8
def flNV : BitVec 5 := 16

/-- FLAGS of R359: an instruction ORs flags into FFLAGS. -/
def State.flags (s : State) (u : Nat) (f : BitVec 5) : State := s.modThread u fun t => { t with fflags := t.fflags ||| f }

/-- BROKEN_STATUS (R185): the status predicate is true, or the trap 0x0E with the operand's value. -/
def State.brokenStatus (s : State) (u : Nat) (ps : PredF) (v : Word) : Flow × State :=
  if ps.val = 7 then (.trap 0x0E v false, s) else (.next, s.pset u ps.val true)

/-- An operation that is not broken leaves its status predicate false (R185). -/
def State.statusOk (s : State) (u : Nat) (ps : PredF) : State := s.pset u ps.val false

/-- The next number of a request. -/
def State.newReq (s : State) : Nat × State :=
  (s.core.nextReq, s.onCore fun k => { k with nextReq := k.nextReq + 1 })

/-- The width of integer operands for a thread (R360). -/
def State.width (s : State) (u : Nat) : Nat := if (s.thread u).isCtl then 64 else 32

/-- A long-latency result that the core computes itself (R349): its registers are written when it arrives; a result that goes
to no numbered register is taken at once. -/
def State.later (s : State) (u : Nat) (la : Nat) (d : RegF) (w : Nat) (res : List Reg) (tr : Bool) (fl : BitVec 5) (kind : ReqKind := .alu) : State :=
  let t := s.thread u
  let ctl := t.isCtl
  match regsAt d (regWidth ctl w) with
  | [] =>
    let s := match d, res with
      | .que q, r :: _ => s.onExt fun e => { e with pushes := e.pushes ++ [(u, q.val, r.val)] }
      | _, _ => s
    s.flags u fl
  | ds =>
    let (id, s) := s.newReq
    s.onCore fun k => { k with reqs := k.reqs ++ [{
      id := id, thr := u, kind := kind, st := .done, dom := s.domKey t, va := 0, pa := 0, size := 0, attr := Attr.reset,
      ord := .rlx, scope := .core, na := false, data := [], cmp := [], poison := false,
      dest := ds, win := (t.pos, la), res := res, flags := fl, bnd := [], tr := tr, plog := none, pc := t.pos, inst := s.ext.inst, mates := [] }] }

end Sys2Proof.Machine
end

