-- ==== Sys2Proof/Machine/IntFam.lean ====
section
/-! DEFINITION. Integer and bitwise arithmetic, compares, selects, moves and immediates: majors 0x01 to 0x05 (spec/17 R360
to R370). -/

namespace Sys2Proof.Machine

/-! Values (R361 to R365): operands are naturals below 2^w. -/

/-- An operand read as signed, or as unsigned with U. -/
def ival (w : Nat) (u : Bool) (n : Nat) : Int := if u then (n : Int) else sext n w

/-- The result of an exact value: saturated or wrapped (R362). -/
def satWrap (w : Nat) (u sat : Bool) (v : Int) : Nat :=
  if sat then
    let lo : Int := if u then 0 else -((2 ^ (w - 1) : Nat) : Int)
    let hi : Int := if u then ((2 ^ w : Nat) : Int) - 1 else ((2 ^ (w - 1) : Nat) : Int) - 1
    wrapN w (if v < lo then lo else if hi < v then hi else v)
  else wrapN w v

def addV (w : Nat) (u sat : Bool) (a b : Nat) : Nat := satWrap w u sat (ival w u a + ival w u b)
def subV (w : Nat) (u sat : Bool) (a b : Nat) : Nat := satWrap w u sat (ival w u a - ival w u b)
def mulV (w a b : Nat) : Nat := a * b % 2 ^ w
def mulhV (w : Nat) (u : Bool) (a b : Nat) : Nat := wrapN w (ival w u a * ival w u b / ((2 ^ w : Nat) : Int))
def madV (w : Nat) (u sat : Bool) (a b c : Nat) : Nat := satWrap w u sat (ival w u a * ival w u b + ival w u c)
/-- IMADW: 32-bit factors, a 64-bit addend. -/
def madwV (u : Bool) (a b c : Nat) : Nat := wrapN 64 (ival 32 u (a % 2 ^ 32) * ival 32 u (b % 2 ^ 32) + (c : Int))
/-- The quotient, rounded toward zero. -/
def divV (w : Nat) (u : Bool) (a b : Nat) : Nat := wrapN w (Int.tdiv (ival w u a) (ival w u b))
def remV (w : Nat) (u : Bool) (a b : Nat) : Nat :=
  wrapN w (ival w u a - ival w u b * Int.tdiv (ival w u a) (ival w u b))
def minV (w : Nat) (u : Bool) (a b : Nat) : Nat := if ival w u a ≤ ival w u b then a else b
def maxV (w : Nat) (u : Bool) (a b : Nat) : Nat := if ival w u a ≤ ival w u b then b else a
def absV (w : Nat) (sat : Bool) (a : Nat) : Nat := satWrap w false sat (ival w false a).natAbs

def shlV (w a n : Nat) : Nat := if w ≤ n then 0 else a * 2 ^ n % 2 ^ w
def shrV (w a n : Nat) : Nat := if w ≤ n then 0 else a / 2 ^ n
def sarV (w a n : Nat) : Nat := wrapN w (sext a w / ((2 ^ Nat.min n w : Nat) : Int))
def rotrV (w a n : Nat) : Nat := let k := n % w; (a / 2 ^ k + a * 2 ^ (w - k)) % 2 ^ w
def andnV (w a b : Nat) : Nat := a &&& (2 ^ w - 1 - b % 2 ^ w)

def bfxV (w : Nat) (u : Bool) (a b : Nat) : Nat :=
  let p := b % 256
  let n := bitsOf b 15 8
  let e := Nat.min (p + n) w
  if w ≤ p || n == 0 then 0
  else
    let f := a / 2 ^ p % 2 ^ (e - p)
    if u then f else wrapN w (sext f (e - p))

def bfiV (w a b c : Nat) : Nat :=
  let p := b % 256
  let n := bitsOf b 15 8
  let e := Nat.min (p + n) w
  if w ≤ p || n == 0 then c else setBits c (e - 1) p a

/-- The number of 1 bits among the low w. -/
def popV (w a : Nat) : Nat := ((rangeFrom 0 w).filter (bitOf a)).length
/-- Leading zeros of w bits. -/
def clzV (w a : Nat) : Nat := (((rangeFrom 0 w).reverse).takeWhile fun k => !bitOf a k).length
def ctzV (w a : Nat) : Nat := ((rangeFrom 0 w).takeWhile fun k => !bitOf a k).length
/-- The low w bits reversed. -/
def revV (w a : Nat) : Nat := (rangeFrom 0 w).foldl (fun v k => v + if bitOf a k then 2 ^ (w - 1 - k) else 0) 0

/-- One byte of PERM. -/
def permByte (y s : Nat) : Nat :=
  let t := y / 2 ^ (8 * (s % 8)) % 256
  if bitOf s 3 then (if bitOf t 7 then 0xFF else 0) else t

def permV (a b c : Nat) : Nat :=
  let y := b % 2 ^ 32 * 2 ^ 32 + a % 2 ^ 32
  (rangeFrom 0 4).foldl (fun v k => v + permByte y (bitsOf c (4 * k + 3) (4 * k)) * 2 ^ (8 * k)) 0

def icondV (c : ICond) (a b : Int) : Bool :=
  match c with
  | .eq => a == b
  | .ne => a != b
  | .lt => decide (a < b)
  | .le => decide (a ≤ b)
  | .gt => decide (b < a)
  | .ge => decide (b ≤ a)

/-! Shapes: what the instructions of a shape do to one member. -/

/-- An operand as a natural below 2^w. -/
def State.srcN (s : State) (u : Nat) (r : RegF) (w : Nat) : Nat := (s.src u r).toNat % 2 ^ w

/-- A unary integer operation. -/
def State.int1 (s : State) (g : Guard) (d a : RegF) (tg : Tag) (f : Nat → Nat → Nat) : State :=
  s.isa g { srcs := [⟨1, a, .int⟩], dsts := [(d, 1)] } fun u s =>
    let w := s.width u
    (.next, s.dst u d (BitVec.ofNat 64 (f w (s.srcN u a w))) tg)

/-- A binary integer operation. -/
def State.int2 (s : State) (g : Guard) (d a b : RegF) (tg : Tag) (f : Nat → Nat → Nat → Nat) : State :=
  s.isa g { srcs := [⟨1, a, .int⟩, ⟨2, b, .int⟩], dsts := [(d, 1)] } fun u s =>
    let w := s.width u
    (.next, s.dst u d (BitVec.ofNat 64 (f w (s.srcN u a w) (s.srcN u b w))) tg)

/-- A ternary integer operation. -/
def State.int3 (s : State) (g : Guard) (d a b c : RegF) (tg : Tag) (f : Nat → Nat → Nat → Nat → Nat) : State :=
  s.isa g { srcs := [⟨1, a, .int⟩, ⟨2, b, .int⟩, ⟨3, c, .int⟩], dsts := [(d, 1)] } fun u s =>
    let w := s.width u
    (.next, s.dst u d (BitVec.ofNat 64 (f w (s.srcN u a w) (s.srcN u b w) (s.srcN u c w))) tg)

/-- The operand of an immediate form (R342). -/
def immV (w : Nat) (x : ImmX) (imm : Half) : Nat :=
  match x with
  | .zext => imm.toNat
  | .sext => wrapN w (sext imm.toNat 32)
  | .hi => imm.toNat * 2 ^ 32

/-- An operation with an immediate operand (R370). -/
def State.intImm (s : State) (g : Guard) (d a : RegF) (x : ImmX) (imm : Half) (tg : Tag) (f : Nat → Nat → Nat → Nat) : State :=
  s.isa g { simt := x != .hi, srcs := [⟨1, a, .int⟩], dsts := [(d, 1)] } fun u s =>
    let w := s.width u
    (.next, s.dst u d (BitVec.ofNat 64 (f w (s.srcN u a w) (immV w x imm))) tg)

/-- A division: by zero it traps, else the result arrives later (R362, R349). -/
def State.intDiv (s : State) (g : Guard) (la : BitVec 4) (d a b : RegF) (f : Nat → Nat → Nat → Nat) : State :=
  s.isa g { srcs := [⟨1, a, .int⟩, ⟨2, b, .int⟩], dsts := [(d, 1)], la := la.toNat } fun u s =>
    let w := s.width u
    let x := s.srcN u a w
    let y := s.srcN u b w
    if y = 0 then (.trap 0x16 0 false, s)
    else (.next, s.later u la.toNat d 1 [⟨BitVec.ofNat 64 (f w x y), if w = 32 then .i32 else .b32⟩] false 0)

/-- A binary operation on pairs (R368). -/
def State.pair2 (s : State) (g : Guard) (d a b : RegF) (f : Nat → Nat → Nat) : State :=
  s.isa g { ctl := false, srcs := [⟨1, a, .i64⟩, ⟨2, b, .i64⟩], dsts := [(d, 2)] } fun u s =>
    (.next, s.dst64 u d (BitVec.ofNat 64 (f (s.src64 u a).toNat (s.src64 u b).toNat)) .w64lo .w64hi)

/-- A shift of a pair by a 32-bit count (R368). -/
def State.pairShift (s : State) (g : Guard) (d a b : RegF) (f : Nat → Nat → Nat) : State :=
  s.isa g { ctl := false, srcs := [⟨1, a, .i64⟩, ⟨2, b, .int⟩], dsts := [(d, 2)] } fun u s =>
    (.next, s.dst64 u d (BitVec.ofNat 64 (f (s.src64 u a).toNat (s.src32 u b))) .w64lo .w64hi)

/-- The registers a destination of R366 names. -/
def destRegs : DestP → List (RegF × Nat)
  | .reg r => [(r, 1)]
  | .pred _ => []

/-- The result of a compare goes to a register or a predicate (R366). -/
def State.setDest (s : State) (u : Nat) (d : DestP) (b : Bool) : State :=
  match d with
  | .reg r => s.dst u r (BitVec.ofNat 64 b.toNat) .i32
  | .pred p => s.pset u p.val b

/-- A register is copied with its tag (R369). -/
def State.copyReg (s : State) (u : Nat) (d : RegF) (x : Reg) : State :=
  match d with
  | .gpr n => s.modThread u fun t => t.setReg n.val x
  | .que q => s.onExt fun e => { e with pushes := e.pushes ++ [(u, q.val, x.val)] }
  | _ => s

/-- The second register of a pair. -/
def regSucc : RegF → RegF
  | .gpr n => if h : n.val + 1 < 224 then .gpr ⟨n.val + 1, h⟩ else .vz
  | r => r

/-! Major 0x01 (R361 to R363). -/

def execIadd (g : Guard) (d a b : RegF) (u sat : Bool) (s : State) : Result :=
  .next (s.int2 g d a b .i32 fun w => addV w u sat)
def execIsub (g : Guard) (d a b : RegF) (u sat : Bool) (s : State) : Result :=
  .next (s.int2 g d a b .i32 fun w => subV w u sat)
def execImul (g : Guard) (d a b : RegF) (s : State) : Result := .next (s.int2 g d a b .i32 mulV)
def execImulh (g : Guard) (d a b : RegF) (u : Bool) (s : State) : Result :=
  .next (s.int2 g d a b .i32 fun w => mulhV w u)
def execImad (g : Guard) (d a b c : RegF) (u sat : Bool) (s : State) : Result :=
  .next (s.int3 g d a b c .i32 fun w => madV w u sat)
def execImadw (g : Guard) (d a b c : RegF) (u : Bool) (s : State) : Result :=
  .next (s.isa g { srcs := [⟨1, a, .int⟩, ⟨2, b, .int⟩, ⟨3, c, .i64⟩], dsts := [(d, 2)] } fun x s =>
    (.next, s.dst64 x d (BitVec.ofNat 64 (madwV u (s.src32 x a) (s.src32 x b) (s.src64 x c).toNat)) .w64lo .w64hi))
def execIdiv (g : Guard) (la : BitVec 4) (d a b : RegF) (u : Bool) (s : State) : Result :=
  .next (s.intDiv g la d a b fun w => divV w u)
def execIrem (g : Guard) (la : BitVec 4) (d a b : RegF) (u : Bool) (s : State) : Result :=
  .next (s.intDiv g la d a b fun w => remV w u)
def execImin (g : Guard) (d a b : RegF) (u : Bool) (s : State) : Result :=
  .next (s.int2 g d a b .i32 fun w => minV w u)
def execImax (g : Guard) (d a b : RegF) (u : Bool) (s : State) : Result :=
  .next (s.int2 g d a b .i32 fun w => maxV w u)
def execIabs (g : Guard) (d a : RegF) (sat : Bool) (s : State) : Result := .next (s.int1 g d a .i32 fun w => absV w sat)
def execLea (g : Guard) (d a b : RegF) (sh : Fin 8) (u : Bool) (s : State) : Result :=
  .next (s.isa g { ctl := !u, srcs := [⟨1, a, .i64⟩, ⟨2, b, .int⟩], dsts := [(d, 2)] } fun x s =>
    let off : Int := if (s.thread x).isCtl then ((s.src x b).toNat : Int) else ival 32 u (s.src32 x b)
    (.next, s.dst64 x d (BitVec.ofNat 64 (wrapN 64 (((s.src64 x a).toNat : Int) + off * ((2 ^ sh.val : Nat) : Int))))
      .w64lo .w64hi))

/-! Major 0x02 (R364, R365). -/

def execAnd (g : Guard) (d a b : RegF) (s : State) : Result := .next (s.int2 g d a b .b32 fun _ x y => x &&& y)
def execOr (g : Guard) (d a b : RegF) (s : State) : Result := .next (s.int2 g d a b .b32 fun _ x y => x ||| y)
def execXor (g : Guard) (d a b : RegF) (s : State) : Result := .next (s.int2 g d a b .b32 fun _ x y => x ^^^ y)
def execAndn (g : Guard) (d a b : RegF) (s : State) : Result := .next (s.int2 g d a b .b32 andnV)
def execShl (g : Guard) (d a b : RegF) (s : State) : Result := .next (s.int2 g d a b .b32 shlV)
def execShr (g : Guard) (d a b : RegF) (s : State) : Result := .next (s.int2 g d a b .b32 shrV)
def execSar (g : Guard) (d a b : RegF) (s : State) : Result := .next (s.int2 g d a b .b32 sarV)
def execRotr (g : Guard) (d a b : RegF) (s : State) : Result := .next (s.int2 g d a b .b32 rotrV)
def execBfx (g : Guard) (d a b : RegF) (u : Bool) (s : State) : Result := .next (s.int2 g d a b .i32 fun w => bfxV w u)
def execBfi (g : Guard) (d a b c : RegF) (s : State) : Result := .next (s.int3 g d a b c .b32 bfiV)
def execPopc (g : Guard) (d a : RegF) (s : State) : Result := .next (s.int1 g d a .i32 popV)
def execClz (g : Guard) (d a : RegF) (s : State) : Result := .next (s.int1 g d a .i32 clzV)
def execCtz (g : Guard) (d a : RegF) (s : State) : Result := .next (s.int1 g d a .i32 ctzV)
def execBrev (g : Guard) (d a : RegF) (s : State) : Result := .next (s.int1 g d a .b32 revV)
def execPerm (g : Guard) (d a b c : RegF) (s : State) : Result := .next (s.int3 g d a b c .b32 fun _ => permV)

/-! Major 0x03 (R366 to R368). -/

def execIset (g : Guard) (d : DestP) (a b : RegF) (cond : ICond) (wide u : Bool) (s : State) : Result :=
  .next (s.isa g { simt := !wide, srcs := [⟨1, a, .int⟩, ⟨2, b, .int⟩], dsts := (destRegs d) } fun x s =>
    let w := if wide then 64 else 32
    (.next, s.setDest x d (icondV cond (ival w u (s.srcN x a w)) (ival w u (s.srcN x b w)))))
def execIsel (g : Guard) (d a b : RegF) (p : PredF) (neg : Bool) (s : State) : Result :=
  .next (s.isa g { srcs := [⟨1, a, .any⟩, ⟨2, b, .any⟩], dsts := [(d, 1)] } fun x s =>
    let t := s.thread x
    (.next, s.copyReg x d (s.readR t (if t.pred p.val != neg then a else b))))
def execIadd64 (g : Guard) (d a b : RegF) (s : State) : Result :=
  .next (s.pair2 g d a b fun x y => (x + y) % 2 ^ 64)
def execIsub64 (g : Guard) (d a b : RegF) (s : State) : Result :=
  .next (s.pair2 g d a b fun x y => wrapN 64 ((x : Int) - (y : Int)))
def execIset64 (g : Guard) (d : DestP) (a b : RegF) (cond : ICond) (u : Bool) (s : State) : Result :=
  .next (s.isa g { ctl := false, srcs := [⟨1, a, .i64⟩, ⟨2, b, .i64⟩], dsts := (destRegs d) } fun x s =>
    (.next, s.setDest x d (icondV cond (ival 64 u (s.src64 x a).toNat) (ival 64 u (s.src64 x b).toNat))))
def execShl64 (g : Guard) (d a b : RegF) (s : State) : Result := .next (s.pairShift g d a b (shlV 64))
def execShr64 (g : Guard) (d a b : RegF) (s : State) : Result := .next (s.pairShift g d a b (shrV 64))
def execSar64 (g : Guard) (d a b : RegF) (s : State) : Result := .next (s.pairShift g d a b (sarV 64))
def execImul64 (g : Guard) (d a b : RegF) (s : State) : Result := .next (s.pair2 g d a b fun x y => x * y % 2 ^ 64)

/-! Majors 0x04 and 0x05 (R369, R370). -/

def execMov (g : Guard) (d a : RegF) (w : Bool) (s : State) : Result :=
  .next (s.isa g { ctl := !w, srcs := [⟨1, a, if w then .anyPair else .any⟩], dsts := [(d, if w then 2 else 1)] } fun x s =>
    let t := s.thread x
    let lo := s.readR t a
    let hi := s.readR t (regSucc a)
    let s := s.copyReg x d lo
    (.next, if w then s.copyReg x (regSucc d) hi else s))
def execMovi (g : Guard) (d : RegF) (x : ImmX) (imm : Half) (s : State) : Result :=
  .next (s.isa g { simt := x != .hi, dsts := [(d, 1)] } fun u s =>
    (.next, s.dst u d (BitVec.ofNat 64 (immV (s.width u) x imm)) .i32))
def execIaddImm (g : Guard) (d a : RegF) (x : ImmX) (imm : Half) (s : State) : Result :=
  .next (s.intImm g d a x imm .i32 fun w => addV w false false)
def execIsubImm (g : Guard) (d a : RegF) (x : ImmX) (imm : Half) (s : State) : Result :=
  .next (s.intImm g d a x imm .i32 fun w => subV w false false)
def execImulImm (g : Guard) (d a : RegF) (x : ImmX) (imm : Half) (s : State) : Result :=
  .next (s.intImm g d a x imm .i32 mulV)
def execAndImm (g : Guard) (d a : RegF) (x : ImmX) (imm : Half) (s : State) : Result :=
  .next (s.intImm g d a x imm .b32 fun _ p q => p &&& q)
def execOrImm (g : Guard) (d a : RegF) (x : ImmX) (imm : Half) (s : State) : Result :=
  .next (s.intImm g d a x imm .b32 fun _ p q => p ||| q)
def execXorImm (g : Guard) (d a : RegF) (x : ImmX) (imm : Half) (s : State) : Result :=
  .next (s.intImm g d a x imm .b32 fun _ p q => p ^^^ q)
def execAndnImm (g : Guard) (d a : RegF) (x : ImmX) (imm : Half) (s : State) : Result :=
  .next (s.intImm g d a x imm .b32 andnV)
def execShlImm (g : Guard) (d a : RegF) (x : ImmX) (imm : Half) (s : State) : Result :=
  .next (s.intImm g d a x imm .b32 shlV)
def execShrImm (g : Guard) (d a : RegF) (x : ImmX) (imm : Half) (s : State) : Result :=
  .next (s.intImm g d a x imm .b32 shrV)
def execSarImm (g : Guard) (d a : RegF) (x : ImmX) (imm : Half) (s : State) : Result :=
  .next (s.intImm g d a x imm .b32 sarV)
def execRotrImm (g : Guard) (d a : RegF) (x : ImmX) (imm : Half) (s : State) : Result :=
  .next (s.intImm g d a x imm .b32 rotrV)
def execIminImm (g : Guard) (d a : RegF) (x : ImmX) (imm : Half) (s : State) : Result :=
  .next (s.intImm g d a x imm .i32 fun w => minV w false)
def execImaxImm (g : Guard) (d a : RegF) (x : ImmX) (imm : Half) (s : State) : Result :=
  .next (s.intImm g d a x imm .i32 fun w => maxV w false)

end Sys2Proof.Machine
end

