-- ==== Sys2Proof/Machine/PredFam.lean ====
section
/-! DEFINITION. Predicates: major 0x06 (spec/17 R371, R372). -/

namespace Sys2Proof.Machine

def execPlog (g : Guard) (d a b c : PredF) (lut : Byte) (s : State) : Result :=
  .next (s.isa g {} fun u s =>
    let t := s.thread u
    let k := 4 * (t.pred a.val).toNat + 2 * (t.pred b.val).toNat + (t.pred c.val).toNat
    (.next, s.pset u d.val (lut.getLsbD k)))

def execPmovGet (g : Guard) (d : RegF) (s : State) : Result :=
  .next (s.isa g { dsts := [(d, 1)] } fun u s => (.next, s.dst u d (BitVec.ofNat 64 (128 + (s.thread u).preds.toNat)) .b32))

def execPmovSet (g : Guard) (a : RegF) (mask : BitVec 7) (s : State) : Result :=
  .next (s.isa g { srcs := [⟨1, a, .int⟩] } fun u s =>
    let v := s.src32 u a
    (.next, (rangeFrom 0 7).foldl (fun s k => if mask.getLsbD k then s.pset u k (bitOf v k) else s) s))

end Sys2Proof.Machine
end

