-- ==== Sys2Proof/Machine/FloatFam.lean ====
section
/-! DEFINITION. Floating-point arithmetic: majors 0x08 to 0x0C (spec/18 R383 to R392). -/

namespace Sys2Proof.Machine

/-- The sign modifiers of an operand code (R383). -/
def Fmt.smod (f : Fmt) (m : SMod) (c : Nat) : Nat :=
  let c := if m.abs then c % 2 ^ (f.w - 1) else c
  if m.neg then (c + 2 ^ (f.w - 1)) % 2 ^ f.w else c

/-- An FP32 operand with its sign modifiers. -/
def State.f32 (s : State) (u : Nat) (r : RegF) (m : SMod) : Nat := fp32.smod m (s.src32 u r)

/-- An FP64 operand with its sign modifiers. -/
def State.f64 (s : State) (u : Nat) (r : RegF) (m : SMod) : Nat := fp64.smod m (s.src64 u r).toNat

/-- A condition of R384. -/
def fcondV (c : FCond) (a b : FV) : Bool :=
  let n := a.isNan || b.isNan
  let lt := a.lt false b
  let gt := b.lt false a
  let eq := !n && !lt && !gt
  match c with
  | .eq => eq
  | .ne => !eq
  | .lt => lt
  | .le => lt || eq
  | .gt => gt
  | .ge => gt || eq
  | .num => !n
  | .nan => n

/-- The mask of R387. -/
def fclassV (c : Nat) : Nat :=
  let v := fp32.widen c
  let normal := bitsOf c 30 23 != 0
  match v with
  | .nan _ => 2 ^ 8
  | .inf neg => if neg then 2 ^ 0 else 2 ^ 7
  | .fin neg m _ => if m = 0 then (if neg then 2 ^ 3 else 2 ^ 4)
    else if normal then (if neg then 2 ^ 1 else 2 ^ 6) else (if neg then 2 ^ 2 else 2 ^ 5)

/-- A 32-bit result with its flags goes to d. -/
def State.fres (s : State) (u : Nat) (d : RegF) (r : Nat × Fl) (t : Tag) : State :=
  (s.dst u d (BitVec.ofNat 64 r.1) t).flags u r.2

/-- An FP32 operation of two operands. -/
def State.fop2 (s : State) (g : Guard) (d a b : RegF) (ma mb : SMod) (f : Nat → Nat → Nat × Fl) : State :=
  s.isa g { ctl := false, srcs := [⟨1, a, .tag .f32⟩, ⟨2, b, .tag .f32⟩], dsts := [(d, 1)] } fun u s =>
    (.next, s.fres u d (f (s.f32 u a ma) (s.f32 u b mb)) .f32)

/-! Major 0x08 (R385 to R387). -/

def execFadd (g : Guard) (d a b : RegF) (ma mb : SMod) (s : State) : Result := .next (s.fop2 g d a b ma mb fp32.add)
def execFmul (g : Guard) (d a b : RegF) (ma mb : SMod) (s : State) : Result := .next (s.fop2 g d a b ma mb fp32.mul)
def execFfma (g : Guard) (d a b c : RegF) (ma mb mc : SMod) (s : State) : Result :=
  .next (s.isa g { ctl := false, srcs := [⟨1, a, .tag .f32⟩, ⟨2, b, .tag .f32⟩, ⟨3, c, .tag .f32⟩], dsts := [(d, 1)] } fun u s =>
    (.next, s.fres u d (fp32.fma (s.f32 u a ma) (s.f32 u b mb) (s.f32 u c mc)) .f32))
def execFmin (g : Guard) (d a b : RegF) (ma mb : SMod) (s : State) : Result :=
  .next (s.fop2 g d a b ma mb fun x y => (fp32.minmax false x y, 0))
def execFmax (g : Guard) (d a b : RegF) (ma mb : SMod) (s : State) : Result :=
  .next (s.fop2 g d a b ma mb fun x y => (fp32.minmax true x y, 0))
def execFset (g : Guard) (d : DestP) (a b : RegF) (ma mb : SMod) (cond : FCond) (s : State) : Result :=
  .next (s.isa g { ctl := false, srcs := [⟨1, a, .tag .f32⟩, ⟨2, b, .tag .f32⟩], dsts := destRegs d } fun u s =>
    (.next, s.setDest u d (fcondV cond (fp32.widen (s.f32 u a ma)) (fp32.widen (s.f32 u b mb)))))
def execFclass (g : Guard) (d a : RegF) (s : State) : Result :=
  .next (s.isa g { ctl := false, srcs := [⟨1, a, .tag .f32⟩], dsts := [(d, 1)] } fun u s =>
    (.next, s.dst u d (BitVec.ofNat 64 (fclassV (s.src32 u a))) .i32))

/-! Major 0x09 (R388, R389): the result arrives later. -/

def State.ffn (s : State) (g : Guard) (la : BitVec 4) (d a : RegF) (ma : SMod) (op : FFn) : State :=
  s.isa g { ctl := false, srcs := [⟨1, a, .tag .f32⟩], dsts := [(d, 1)], la := la.toNat } fun u s =>
    let r := op.eval (fp32.widen (s.f32 u a ma))
    (.next, s.later u la.toNat d 1 [⟨BitVec.ofNat 64 r.1, .f32⟩] true r.2)

def execFrcp (g : Guard) (la : BitVec 4) (d a : RegF) (ma : SMod) (s : State) : Result := .next (s.ffn g la d a ma .rcp)
def execFrsq (g : Guard) (la : BitVec 4) (d a : RegF) (ma : SMod) (s : State) : Result := .next (s.ffn g la d a ma .rsq)
def execFsqrt (g : Guard) (la : BitVec 4) (d a : RegF) (ma : SMod) (s : State) : Result := .next (s.ffn g la d a ma .sqrt)
def execFex2 (g : Guard) (la : BitVec 4) (d a : RegF) (ma : SMod) (s : State) : Result := .next (s.ffn g la d a ma .ex2)
def execFlg2 (g : Guard) (la : BitVec 4) (d a : RegF) (ma : SMod) (s : State) : Result := .next (s.ffn g la d a ma .lg2)
def execFsin (g : Guard) (la : BitVec 4) (d a : RegF) (ma : SMod) (s : State) : Result := .next (s.ffn g la d a ma .sin)
def execFcos (g : Guard) (la : BitVec 4) (d a : RegF) (ma : SMod) (s : State) : Result := .next (s.ffn g la d a ma .cos)
def execFtanh (g : Guard) (la : BitVec 4) (d a : RegF) (ma : SMod) (s : State) : Result := .next (s.ffn g la d a ma .tanh)

/-! Major 0x0A (R390). -/

/-- The format of FMT. -/
def f2fmt (bf : Bool) : Fmt := if bf then bf16 else fp16
def f2tag (bf : Bool) : Tag := if bf then .bf16x2 else .f16x2

/-- Element k of a packed register of w-bit elements. -/
def elem (w k v : Nat) : Nat := bitsOf v (w * k + w - 1) (w * k)

/-- Results of elements put together from element 0 on, with the OR of their flags. -/
def packRes (w : Nat) : List (Nat × Fl) → Nat × Fl
  | [] => (0, 0)
  | r :: rs => let (v, f) := packRes w rs; (r.1 + 2 ^ w * v, r.2 ||| f)

/-- An element of a packed operand with its sign modifiers. -/
def State.f2 (s : State) (u : Nat) (bf : Bool) (r : RegF) (m : SMod) (k : Nat) : Nat :=
  (f2fmt bf).smod m (elem 16 k (s.src32 u r))

def State.f2op2 (s : State) (g : Guard) (d a b : RegF) (ma mb : SMod) (bf : Bool) (f : Nat → Nat → Nat × Fl) : State :=
  let t := f2tag bf
  s.isa g { ctl := false, srcs := [⟨1, a, .tag t⟩, ⟨2, b, .tag t⟩], dsts := [(d, 1)] } fun u s =>
    (.next, s.fres u d (packRes 16 ((rangeFrom 0 2).map fun k => f (s.f2 u bf a ma k) (s.f2 u bf b mb k))) t)

def execF2add (g : Guard) (d a b : RegF) (ma mb : SMod) (bf : Bool) (s : State) : Result :=
  .next (s.f2op2 g d a b ma mb bf (f2fmt bf).add)
def execF2mul (g : Guard) (d a b : RegF) (ma mb : SMod) (bf : Bool) (s : State) : Result :=
  .next (s.f2op2 g d a b ma mb bf (f2fmt bf).mul)
def execF2fma (g : Guard) (d a b c : RegF) (ma mb mc : SMod) (bf : Bool) (s : State) : Result :=
  let t := f2tag bf
  .next (s.isa g { ctl := false, srcs := [⟨1, a, .tag t⟩, ⟨2, b, .tag t⟩, ⟨3, c, .tag t⟩], dsts := [(d, 1)] } fun u s =>
    (.next, s.fres u d (packRes 16 ((rangeFrom 0 2).map fun k =>
      (f2fmt bf).fma (s.f2 u bf a ma k) (s.f2 u bf b mb k) (s.f2 u bf c mc k))) t))
def execF2min (g : Guard) (d a b : RegF) (ma mb : SMod) (bf : Bool) (s : State) : Result :=
  .next (s.f2op2 g d a b ma mb bf fun x y => ((f2fmt bf).minmax false x y, 0))
def execF2max (g : Guard) (d a b : RegF) (ma mb : SMod) (bf : Bool) (s : State) : Result :=
  .next (s.f2op2 g d a b ma mb bf fun x y => ((f2fmt bf).minmax true x y, 0))
def execF2set (g : Guard) (d : DestP) (a b : RegF) (ma mb : SMod) (cond : FCond) (bf : Bool) (s : State) : Result :=
  let t := f2tag bf
  .next (s.isa g { ctl := false, srcs := [⟨1, a, .tag t⟩, ⟨2, b, .tag t⟩], dsts := destRegs d } fun u s =>
    let c (k : Nat) : Bool := fcondV cond ((f2fmt bf).widen (s.f2 u bf a ma k)) ((f2fmt bf).widen (s.f2 u bf b mb k))
    (.next, match d with
      | .reg r => s.dst u r (BitVec.ofNat 64 ((if c 0 then 0xFFFF else 0) + if c 1 then 0xFFFF0000 else 0)) .b32
      | .pred p => s.pset u p.val (c 0 && c 1)))

/-! Majors 0x0B and 0x0C (R391, R392). -/

/-- The exact dot product of four FP8 elements with an addend, rounded once. -/
def hdotV (fa fb : Fmt) (a b c : Nat) : Nat × Fl :=
  let ps := (rangeFrom 0 4).map fun k => (fa.widen (elem 8 k a)).mul (fb.widen (elem 8 k b))
  fp32.sum (fp32.widen c :: ps.map (·.1)) (ps.any (·.2))

def execHdot (g : Guard) (d a b c : RegF) (ea eb : Bool) (s : State) : Result :=
  let f (e : Bool) : Fmt := if e then fpE5M2 else fpE4M3
  let t (e : Bool) : Tag := if e then .e5m2x4 else .e4m3x4
  .next (s.isa g { ctl := false, srcs := [⟨1, a, .tag (t ea)⟩, ⟨2, b, .tag (t eb)⟩, ⟨3, c, .tag .f32⟩], dsts := [(d, 1)] } fun u s =>
    (.next, s.fres u d (hdotV (f ea) (f eb) (s.src32 u a) (s.src32 u b) (s.src32 u c)) .f32))

/-- An FP64 result as the registers of a pair. -/
def pairRegs (v : Nat) : List Reg := [⟨BitVec.ofNat 64 (v % 2 ^ 32), .w64lo⟩, ⟨BitVec.ofNat 64 (v / 2 ^ 32), .w64hi⟩]

def State.dop2 (s : State) (g : Guard) (la : BitVec 4) (d a b : RegF) (ma mb : SMod) (f : Nat → Nat → Nat × Fl) : State :=
  s.isa g { ctl := false, srcs := [⟨1, a, .f64⟩, ⟨2, b, .f64⟩], dsts := [(d, 2)], la := la.toNat } fun u s =>
    let r := f (s.f64 u a ma) (s.f64 u b mb)
    (.next, s.later u la.toNat d 2 (pairRegs r.1) false r.2)

def execDadd (g : Guard) (la : BitVec 4) (d a b : RegF) (ma mb : SMod) (s : State) : Result :=
  .next (s.dop2 g la d a b ma mb fp64.add)
def execDmul (g : Guard) (la : BitVec 4) (d a b : RegF) (ma mb : SMod) (s : State) : Result :=
  .next (s.dop2 g la d a b ma mb fp64.mul)
def execDfma (g : Guard) (la : BitVec 4) (d a b c : RegF) (ma mb mc : SMod) (s : State) : Result :=
  .next (s.isa g { ctl := false, srcs := [⟨1, a, .f64⟩, ⟨2, b, .f64⟩, ⟨3, c, .f64⟩], dsts := [(d, 2)], la := la.toNat } fun u s =>
    let r := fp64.fma (s.f64 u a ma) (s.f64 u b mb) (s.f64 u c mc)
    (.next, s.later u la.toNat d 2 (pairRegs r.1) false r.2))
def execDset (g : Guard) (d : DestP) (a b : RegF) (ma mb : SMod) (cond : FCond) (s : State) : Result :=
  .next (s.isa g { ctl := false, srcs := [⟨1, a, .f64⟩, ⟨2, b, .f64⟩], dsts := destRegs d } fun u s =>
    (.next, s.setDest u d (fcondV cond (fp64.widen (s.f64 u a ma)) (fp64.widen (s.f64 u b mb)))))

end Sys2Proof.Machine
end

