-- ==== Sys2Proof/Machine/ConvFam.lean ====
section
/-! DEFINITION. Conversions and tags: major 0x0E (spec/18 R393 to R398). -/

namespace Sys2Proof.Machine

/-! CVT (R393). -/

/-- The format, the number of elements, and the operand kind of a CVT type. -/
def cvtFmt : CvtT → Fmt × Nat
  | .f64 => (fp64, 1)
  | .f32 => (fp32, 1)
  | .f16x2 => (fp16, 2)
  | .bf16x2 => (bf16, 2)
  | .e4m3x4 => (fpE4M3, 4)
  | .e5m2x4 => (fpE5M2, 4)

def cvtTag : CvtT → Tag
  | .f64 => .w64lo
  | .f32 => .f32
  | .f16x2 => .f16x2
  | .bf16x2 => .bf16x2
  | .e4m3x4 => .e4m3x4
  | .e5m2x4 => .e5m2x4

def execCvt (g : Guard) (d a : RegF) (dst src : CvtT) (s : State) : Result :=
  let (fs, n) := cvtFmt src
  let fd := (cvtFmt dst).1
  let k := if src == .f64 then Kind.f64 else .tag (cvtTag src)
  .next (s.isa g { ctl := false, srcs := [⟨1, a, k⟩], dsts := [(d, if dst == .f64 then 2 else 1)] } fun u s =>
    let v := if src == .f64 then (s.src64 u a).toNat else s.src32 u a
    let r := packRes fd.w ((rangeFrom 0 n).map fun i => fd.convert (fs.widen (elem fs.w i v)))
    let s := if dst == .f64 then s.dst64 u d (BitVec.ofNat 64 r.1) .w64lo .w64hi
      else s.dst u d (BitVec.ofNat 64 r.1) (cvtTag dst)
    (.next, s.flags u r.2))

/-! CVTI (R394). -/

/-- Width, signedness and whether it is a float, of a CVTI type. -/
def cviInfo : CviT → Nat × Bool × Bool
  | .i8 => (8, true, false)
  | .i16 => (16, true, false)
  | .i32 => (32, true, false)
  | .i64 => (64, true, false)
  | .n8 => (8, false, false)
  | .n16 => (16, false, false)
  | .n32 => (32, false, false)
  | .n64 => (64, false, false)
  | .f32 => (32, true, true)
  | .f64 => (64, true, true)

/-- A value converted from one type to another: its bits in 32 or 64, and the flags. -/
def cviV (src dst : CviT) (rz : Bool) (v : Nat) : Nat × Fl :=
  let (sw, ss, sf) := cviInfo src
  let (dw, ds, df) := cviInfo dst
  let fmt (w : Nat) : Fmt := if w = 64 then fp64 else fp32
  let ext (r : Nat × Fl) : Nat × Fl := (if ds then wrapN (if dw = 64 then 64 else 32) (sext r.1 dw) else r.1, r.2)
  if sf then ext (convInt dw ds rz ((fmt sw).widen v))
  else
    let x : Int := if ss then sext v sw else (v : Int)
    if df then (fmt dw).narrowQ true (decide (x < 0)) x.natAbs 1 0
    else
      let lo : Int := if ds then -((2 ^ (dw - 1) : Nat) : Int) else 0
      let hi : Int := if ds then ((2 ^ (dw - 1) : Nat) : Int) - 1 else ((2 ^ dw : Nat) : Int) - 1
      if x < lo then ext (wrapN dw lo, 4) else if hi < x then ext (wrapN dw hi, 4) else ext (wrapN dw x, 0)

def cviKind : CviT → Kind
  | .f32 => .tag .f32
  | .f64 => .f64
  | .i64 => .i64
  | .n64 => .i64
  | _ => .int

def execCvti (g : Guard) (d a : RegF) (dst src : CviT) (rz : Bool) (s : State) : Result :=
  let wide := (cviInfo dst).1 == 64
  .next (s.isa g { ctl := false, srcs := [⟨1, a, cviKind src⟩], dsts := [(d, if wide then 2 else 1)] } fun u s =>
    let v := if (cviInfo src).1 = 64 then (s.src64 u a).toNat else s.src32 u a
    let r := cviV src dst rz v
    let s := if wide then s.dst64 u d (BitVec.ofNat 64 r.1) .w64lo .w64hi
      else s.dst u d (BitVec.ofNat 64 r.1) (if dst == .f32 then .f32 else .i32)
    (.next, s.flags u r.2))

/-! PACK and UNPACK (R395, R396). -/

/-- The element width, tag and source tag of a PACK format. -/
def packInfo : PackT → Nat × Tag
  | .f16 => (16, .f16x2)
  | .bf16 => (16, .bf16x2)
  | .e4m3 => (8, .e4m3x4)
  | .e5m2 => (8, .e5m2x4)
  | .e3m2 => (6, .e3m2x5)
  | .e2m3 => (6, .e2m3x5)
  | .e2m1 => (4, .e2m1x8)
  | .i8 => (8, .i8x4)
  | .s10 => (10, .s10x3)

/-- An FP32 value (or a 32-bit integer for i8) narrowed to an element. -/
def packElem (f : PackT) (v : Nat) : Nat × Fl :=
  let x := fp32.widen v
  match f with
  | .f16 => fp16.convert x
  | .bf16 => bf16.convert x
  | .e4m3 => fpE4M3.convert x
  | .e5m2 => fpE5M2.convert x
  | .e3m2 => fpE3M2.convert x
  | .e2m3 => fpE2M3.convert x
  | .e2m1 => fpE2M1.convert x
  | .i8 =>
    let i := sext v 32
    if i < -128 then (0x80, 4) else if 127 < i then (0x7F, 4) else (wrapN 8 i, 0)
  | .s10 => convS10 x

/-- The exact value of an element as FP32 bits, or a sign-extended integer for i8. -/
def unpackElem (f : PackT) (c : Nat) : Nat :=
  let w (m : Fmt) : Nat := (fp32.convert (m.widen c)).1
  match f with
  | .f16 => w fp16
  | .bf16 => w bf16
  | .e4m3 => w fpE4M3
  | .e5m2 => w fpE5M2
  | .e3m2 => w fpE3M2
  | .e2m3 => w fpE2M3
  | .e2m1 => w fpE2M1
  | .i8 => wrapN 32 (sext c 8)
  | .s10 => (fp32.convert (s10Val c)).1

/-- Bits 31:30 are zero in registers of 6-bit and 10-bit elements (R286). -/
def topZero (w v : Nat) : Nat := if w = 6 || w = 10 then v % 2 ^ 30 else v

def execPack (g : Guard) (d a b c : RegF) (fmt : PackT) (k : Fin 8) (one : Bool) (s : State) : Result :=
  let (w, tg) := packInfo fmt
  let sk : Kind := if fmt == .i8 then .int else .tag .f32
  let srcs : List Src := if one then [⟨1, a, sk⟩, ⟨3, c, .tag tg⟩] else [⟨1, a, sk⟩, ⟨2, b, sk⟩, ⟨3, c, .tag tg⟩]
  .next (s.isa g { ctl := false, srcs := srcs, dsts := [(d, 1)] } fun u s =>
    let put (v n x : Nat) : Nat := setBits v (w * n + w - 1) (w * n) x
    let e0 := packElem fmt (s.src32 u a)
    let v := put (s.src32 u c) k.val e0.1
    let e1 : Nat × Fl := if one then (0, 0) else packElem fmt (s.src32 u b)
    let v := if one then v else put v (k.val + 1) e1.1
    (.next, s.fres u d (topZero w v, e0.2 ||| e1.2) tg))

def execUnpack (g : Guard) (d a : RegF) (fmt : PackT) (k : Fin 8) (s : State) : Result :=
  let (w, tg) := packInfo fmt
  .next (s.isa g { ctl := false, srcs := [⟨1, a, .tag tg⟩], dsts := [(d, 1)] } fun u s =>
    (.next, s.dst u d (BitVec.ofNat 64 (unpackElem fmt (elem w k.val (s.src32 u a)))) (if fmt == .i8 then .i32 else .f32)))

/-! SCALEQ (R397). -/

/-- MAXF of a format, as n / d. -/
def maxF : ScaleT → Nat × Nat
  | .e4m3 => (448, 1)
  | .e5m2 => (57344, 1)
  | .e3m2 => (28, 1)
  | .e2m3 => (15, 2)
  | .e2m1 => (6, 1)

/-- The block scale of a magnitude. -/
def scaleqV (f : ScaleT) (v : FV) : Nat × Fl :=
  match v with
  | .nan _ => (0x3FF, 16)
  | .inf _ => (0x3FE, 4)
  | .fin _ m e => let (p, q) := maxF f; narrowS10 (m * q) p e

def execScaleq (g : Guard) (d a c : RegF) (fmt : ScaleT) (k : Fin 4) (s : State) : Result :=
  .next (s.isa g { ctl := false, srcs := [⟨1, a, .tag .f32⟩, ⟨3, c, .tag .s10x3⟩], dsts := [(d, 1)] } fun u s =>
    let r := scaleqV fmt (fp32.widen (s.src32 u a))
    (.next, s.fres u d (setBits (s.src32 u c) (10 * k.val + 9) (10 * k.val) r.1 % 2 ^ 30, r.2) .s10x3))

/-! TAGSET and TAGGET (R398). -/

/-- The tag of a code 0x0 to 0xB. -/
def tagOf (c : Nat) : Tag :=
  match c with
  | 0 => .b32
  | 1 => .i32
  | 2 => .f32
  | 3 => .f16x2
  | 4 => .bf16x2
  | 5 => .e4m3x4
  | 6 => .e5m2x4
  | 7 => .e3m2x5
  | 8 => .e2m3x5
  | 9 => .e2m1x8
  | 10 => .i8x4
  | 11 => .s10x3
  | 12 => .w64lo
  | 13 => .w64hi
  | _ => .poison

def execTagset (g : Guard) (d a : RegF) (t : Fin 16) (pair : Bool) (s : State) : Result :=
  .next (s.isa g { ctl := false, srcs := [⟨1, a, if pair then .cleanPair else .clean⟩], dsts := [(d, if pair then 2 else 1)] }
    fun u s =>
      if pair then (.next, s.dst64 u d (s.src64 u a) .w64lo .w64hi)
      else
        let v := s.src32 u a
        let v := if t.val = 7 || t.val = 8 || t.val = 11 then v % 2 ^ 30 else v
        (.next, s.dst u d (BitVec.ofNat 64 v) (tagOf t.val)))

def execTagget (g : Guard) (d a : RegF) (s : State) : Result :=
  .next (s.isa g { ctl := false, srcs := [⟨1, a, .any⟩], dsts := [(d, 1)] } fun u s =>
    (.next, s.dst u d (BitVec.ofNat 64 (tagCode (s.readR (s.thread u) a).tag)) .i32))

end Sys2Proof.Machine
end

