-- ==== Sys2Proof/Machine/LaneFam.lean ====
section
/-! DEFINITION. Cross-lane instructions: major 0x0F (spec/09 R211 to R213; spec/18 R399 to R403). -/

namespace Sys2Proof.Machine

/-- The participants P(x) of a thread in a lace (R211); in a trap handler the thread alone (R212). -/
def State.participants (s : State) (t : Thread) (k : Nat) : List Nat :=
  if t.inHandler then [t.uid] else (s.equalKey t k).map (·.uid)

/-- The lace is broken for the thread's key. -/
def State.laceBroken (s : State) (t : Thread) (k : Nat) : Bool := (s.lace t k).broken.contains t.id.exk

/-- A participant of a thread waits in a rendezvous where the thread stands: for it the thread, its predicate true or false, is one of those
that arrive (R211, log 11). -/
def State.awaited (s : State) (t : Thread) (k : Nat) : Bool :=
  (s.participants t k).any fun v =>
    let x := s.thread v
    x.pos == t.pos && match x.run with
      | .waiting w => w.kind == .rdv && w.a == k && x.mark.isNone
      | _ => false

/-- The rendezvous of R211: where some participant of a member is not in the group, the participants in the group leave it and wait. A member
whose predicate is false takes part where a participant waits for it. -/
def rendezvous (k : Nat) : Hold := fun active s =>
  match s.ext.cur with
  | none => (active, s)
  | some g =>
    let s0 := s
    let asked := (g.todo.getD g.members).filter fun u => !active.contains u && !(s0.thread u).inHandler && s0.awaited (s0.thread u) k
    (active ++ asked).foldl (fun (acc : List Nat × State) u =>
      let s := acc.2
      let t := s.thread u
      if !s.inGroup g.core u then acc
      else if t.inHandler || t.mark == some 2 || s.laceBroken t k || !(s.lace t k).mem.getLsbD t.id.lane then
        (if active.contains u then acc.1 ++ [u] else acc.1, s)
      else
        let p := s.participants t k
        let here (v : Nat) : Bool := s.inGroup g.core v && g.members.contains v
        if p.all here then (if active.contains u then acc.1 ++ [u] else acc.1, s)
        else (acc.1, (p.filter here).foldl (fun s v => s.wait v .rdv false k 0) s)) ([], s)

/-- What one member of a cross-lane instruction knows: its active participants in lane order, and whether they are all its
participants (R399). -/
structure Lanes where
  act  : List Nat
  full : Bool

/-- The active participants A(x) among P(x) (R399). -/
def Spec.lanes (sp : Spec) (gd : Guard) (s : State) (t : Thread) (k : Nat) : Lanes :=
  let p := s.participants t k
  let act := p.filter fun v =>
    let x := s.thread v
    x.guardOk gd && (sp.check s x).isNone && (sp.lookahead s v).isNone
  let byLane := (rangeFrom 0 32).flatMap fun l => act.filter fun v => (s.thread v).id.lane == l
  ⟨byLane, act.length == p.length⟩

/-- A cross-lane instruction: `f` gets the state before any member acted, and the member's lanes. -/
def State.crossLane (s : State) (gd : Guard) (sp : Spec) (k : LaceF) (bk : PredF) (a : RegF)
    (f : State → Lanes → Nat → State → State) : State :=
  s.isaAll gd sp (rendezvous k.val) (fun s0 u s =>
    let t := s.thread u
    if t.mark == some 2 then (s.unmark u).brokenStatus u bk (s.src u a)
    else if !t.inHandler && s0.laceBroken t k.val then s.brokenStatus u bk (s.src u a)
    else if !t.inHandler && !(s0.lace t k.val).mem.getLsbD t.id.lane then (.trap 0x19 s.ext.iword false, s)
    else (.next, f s0 (sp.lanes gd s0 t k.val) u (s.statusOk u bk))) (fun u s => (.next, if (s.thread u).mark == some 2 then s.unmark u else s))

/-- Operand a of a thread before any member acted. -/
def laneReg (s0 s : State) (v : Nat) (a : RegF) : Reg := s.readR (s0.thread v) a

/-- Both registers of a pair, as one number. -/
def laneBits (s0 s : State) (w64 : Bool) (v : Nat) (a : RegF) : Nat :=
  (laneReg s0 s v a).val.toNat + if w64 then 2 ^ 32 * (laneReg s0 s v (regSucc a)).val.toNat else 0

/-! LNGET (R400). -/

/-- The source lane of a reader: none outside its segment. -/
def sourceLane (mode : LnMode) (l w n : Nat) : Option Nat :=
  let base := l - l % w
  match mode with
  | .abs => some (base + n % w)
  | .rot => some (base + (l % w + n) % w)
  | .xor => some (base + ((l % w) ^^^ (n % w)))
  | .off =>
    let j : Int := (l : Int) + sext n 8
    if j < base || ((base + w : Nat) : Int) ≤ j then none else some j.toNat

def execLnget (g : Guard) (d a : RegF) (b : LnIdx) (mode : LnMode) (sw : Fin 8) (w64 : Bool) (k : LaceF) (bk pf : PredF)
    (s : State) : Result :=
  let bs : List Src := match b with
    | .reg r => [⟨2, r, .int⟩]
    | .lit _ => []
  let srcs : List Src := ⟨1, a, if w64 then .cleanPair else .clean⟩ :: bs
  .next (s.crossLane g { ctl := false, srcs := srcs, dsts := [(d, if w64 then 2 else 1)] } k bk a fun s0 ln u s =>
    let n := match b with
      | .reg r => s.src32 u r % 256
      | .lit n => n.toNat
    let src := (sourceLane mode (s.thread u).id.lane (2 ^ sw.val) n).bind fun j =>
      ln.act.find? fun v => (s.thread v).id.lane == j
    let v := src.getD u
    let s1 := s.copyReg u d (laneReg s0 s v a)
    let s1 := if w64 then s1.copyReg u (regSucc d) (laneReg s0 s v (regSucc a)) else s1
    s1.pset u pf.val src.isNone)

/-! LNPOLL (R401). -/

def execLnpoll (g : Guard) (d : DestP) (a : PredF) (neg cnt : Bool) (mode : PollMode) (k : LaceF) (bk pf : PredF) (s : State) :
    Result :=
  .next (s.crossLane g { ctl := false, dsts := destRegs d } k bk .vz fun s0 ln u s =>
    let on := ln.act.filter fun v => (s0.thread v).pred a.val != neg
    let b : Bool := match mode with
      | .and => on.length == ln.act.length
      | .or => !on.isEmpty
      | .same => on.isEmpty || on.length == ln.act.length
      | .mask => false
    let s := match d with
      | .pred p => s.pset u p.val b
      | .reg r =>
        if cnt then s.dst u r (BitVec.ofNat 64 on.length) .i32
        else s.dst u r (BitVec.ofNat 64 (on.foldl (fun m v => m + 2 ^ (s0.thread v).id.lane) 0)) .b32
    s.pset u pf.val (!ln.full))

/-! LNEQ (R402). -/

/-- The mask of lanes of threads. -/
def laneMask (s : State) (us : List Nat) : Nat := us.foldl (fun m v => m + 2 ^ (s.thread v).id.lane) 0

def execLneq (g : Guard) (d a : RegF) (uni w64 : Bool) (k : LaceF) (bk pf : PredF) (s : State) : Result :=
  .next (s.crossLane g { ctl := false, srcs := [⟨1, a, if w64 then .cleanPair else .clean⟩], dsts := [(d, 1)] } k bk a
    fun s0 ln u s =>
      let same := ln.act.filter fun v => laneBits s0 s w64 v a == laneBits s0 s w64 u a
      let m := if uni then (if same.length = ln.act.length then laneMask s0 ln.act else 0) else laneMask s0 same
      (s.dst u d (BitVec.ofNat 64 m) .b32).pset u pf.val (!ln.full))

/-! LNCOMB and LNPFX (R403). -/

/-- One step of COMBINE. -/
def combineStep (op : LnOp) (ty : LnTy) (r v : Nat) : Nat × Fl :=
  let lt (x y : Nat) : Bool := if ty == .n32 then decide (x < y) else decide (sext x 32 < sext y 32)
  match op with
  | .add => if ty == .f32 then fp32.add r v else ((r + v) % 2 ^ 32, 0)
  | .min => if ty == .f32 then (fp32.minmax false r v, 0) else (if lt v r then v else r, 0)
  | .max => if ty == .f32 then (fp32.minmax true r v, 0) else (if lt r v then v else r, 0)
  | .and => (r &&& v, 0)
  | .or => (r ||| v, 0)
  | .xor => (r ^^^ v, 0)

/-- The identity of an operation. -/
def combineId (op : LnOp) (ty : LnTy) : Nat :=
  match op, ty with
  | .min, .i32 => 0x7FFFFFFF
  | .min, .n32 => 0xFFFFFFFF
  | .min, .f32 => fp32.infCode
  | .max, .i32 => 0x80000000
  | .max, .f32 => 0xFF800000
  | .and, _ => 0xFFFFFFFF
  | _, _ => 0

/-- COMBINE of R403 in ascending lane order, with the flags of its roundings. -/
def combine (op : LnOp) (ty : LnTy) (l : List Nat) : Nat × Fl :=
  match l with
  | [] => (combineId op ty, 0)
  | x :: xs =>
    let x := if ty == .f32 && (fp32.widen x).isNan then fp32.nanCode else x
    xs.foldl (fun (acc : Nat × Fl) v => let r := combineStep op ty acc.1 v; (r.1, acc.2 ||| r.2)) (x, 0)

def combineTag (op : LnOp) (ty : LnTy) : Tag :=
  match op, ty with
  | .and, _ => .b32
  | .or, _ => .b32
  | .xor, _ => .b32
  | _, .f32 => .f32
  | _, _ => .i32

/-- A combination over the active participants that `keep` picks. -/
def State.combineOp (s : State) (g : Guard) (d a : RegF) (op : LnOp) (ty : LnTy) (k : LaceF) (bk pf : PredF)
    (keep : Nat → Nat → Bool) : State :=
  let kind : Kind := if ty == .f32 then .tag .f32 else .int
  s.crossLane g { ctl := false, srcs := [⟨1, a, kind⟩], dsts := [(d, 1)] } k bk a fun s0 ln u s =>
    let us := ln.act.filter fun v => keep (s0.thread v).id.lane (s0.thread u).id.lane
    let r := combine op ty (us.map fun v => (laneReg s0 s v a).val.toNat % 2 ^ 32)
    (s.fres u d r (combineTag op ty)).pset u pf.val (!ln.full)

def execLncomb (g : Guard) (d a : RegF) (op : LnOp) (ty : LnTy) (k : LaceF) (bk pf : PredF) (s : State) : Result :=
  .next (s.combineOp g d a op ty k bk pf fun _ _ => true)

def execLnpfx (g : Guard) (d a : RegF) (op : LnOp) (ty : LnTy) (excl : Bool) (k : LaceF) (bk pf : PredF) (s : State) : Result :=
  .next (s.combineOp g d a op ty k bk pf fun v u => if excl then decide (v < u) else decide (v ≤ u))

end Sys2Proof.Machine
end

