-- ==== Sys2Proof/Machine/CtlFam.lean ====
section
/-! DEFINITION. Branches, calls, exit, laces and miscellany: majors 0x10 and 0x11 (spec/09 R204 to R214; spec/17 R373 to R382;
spec/07 R147). -/

namespace Sys2Proof.Machine

/-! The return stack (R214): the oldest entry first. -/

/-- PUSH: what stops it, if anything, and the state after it. -/
def State.pushRet (s : State) (u ret : Nat) : Option Flow × State :=
  let t := s.thread u
  if t.rstk.length < 8 then (none, s.modThread u fun t => { t with rstk := t.rstk ++ [ret % 2 ^ 48] })
  else if t.rsd = 0xFFFF then (some (.trap 0x19 s.ext.iword false), s)
  else
    let ag := s.agent t .ls
    let va := (t.tls + 32 * t.rsd) % 2 ^ 64
    match s.canWrite ag va 32 with
    | (none, s) =>
      let bs := ((t.rstk.take 4).map fun e => bytesLE 8 e).flatten
      let s := (s.plainStore ag va bs false).fold u va bs
      (none, s.modThread u fun t => { t with rstk := t.rstk.drop 4 ++ [ret % 2 ^ 48], rsd := t.rsd + 1 })
    | (some p, s) => let (f, s) := s.writeStop u 3 p.res; (some f, s)

/-- The stack as POP leaves it before the pop: refilled when it is empty; what stops it, if anything. -/
def State.refill (s : State) (u : Nat) : Except Flow (List Nat × Nat) × State :=
  let t := s.thread u
  if !t.rstk.isEmpty then (.ok (t.rstk, t.rsd), s)
  else if t.rsd = 0 then (.error (.trap 0x19 s.ext.iword false), s)
  else
    let va := (t.tls + 32 * (t.rsd - 1)) % 2 ^ 64
    match s.readPlain (s.agent t .ls) va 32 with
    | (.ok bs, s) => (.ok ((rangeFrom 0 4).map fun k => ofBytesLE ((bs.drop (8 * k)).take 8), t.rsd - 1), s)
    | (r, s) => let (f, s) := s.readStop u 3 (if r == .down then .poison va else r); (.error f, s)

/-! Branch targets (R339, R374). -/

/-- The header at a branch target is fetched and checked: its clause, or what stops the branch. -/
def State.target (s : State) (u tgt : Nat) : Except Flow (List Word) × State :=
  let t := s.thread u
  if tgt % 8 != 0 || decide (t.vaLim ≤ tgt) then (.error (.trap 2 (BitVec.ofNat 64 tgt) false), s)
  else match s.fetch t tgt with
    | (.ok ws _, s) => (.ok ws, s)
    | (.trap c v, s) => if c = 0x0B then let (f, s) := s.poisonAt u v; (.error f, s) else (.error (.trap 2 (BitVec.ofNat 64 tgt) false), s)
    | (.fault va c s2, s) => (.error .left, s.transFault u 4 va c s2)
    | (.offline d va, s) => (.error .left, s.offlineFault u d va 4)
    | (.wait, s) => (.error .stall, s)

/-- The lace join of a branch (R209). -/
def State.joinLace (s : State) (u : Nat) (k : Option LaceF) : State :=
  match k with
  | none => s
  | some k => let t := s.thread u; s.modLace t k.val fun l => { l with mem := setLane l.mem t.id.lane true }

/-- BRANCH of R374 to a target, with or without a push of the position after. -/
def State.branchTo (s : State) (u tgt : Nat) (link : Bool) (k : Option LaceF) : Flow × State :=
  match s.target u tgt with
  | (.error f, s) => (f, s)
  | (.ok ws, s) =>
    let go (s : State) : Flow × State := (.branch ⟨tgt, 0⟩ ws, s.joinLace u k)
    if link then match s.pushRet u (s.thread u).after.a with
      | (some f, s) => (f, s)
      | (none, s) => go s
    else go s

/-- The target of BRA and CALL (R344). -/
def State.relTarget (s : State) (u : Nat) (off : Half) : Nat :=
  wrapN 64 (((s.thread u).pos.a : Int) + 8 * sext off.toNat 32)

/-- A branch to an offset. -/
def State.branchRel (s : State) (g : Guard) (off : Half) (k : Option LaceF) (link : Bool) : State :=
  s.isaWith g { ctl := k.isNone } (fun u s => s.branchTo u (s.relTarget u off) link k) (fun u s => (.next, s.joinLace u k))

/-- A branch to a register. -/
def State.branchReg (s : State) (g : Guard) (a : RegF) (k : Option LaceF) (link : Bool) : State :=
  s.isaWith g { ctl := k.isNone, srcs := [⟨1, a, .addr⟩] } (fun u s => s.branchTo u (s.src64 u a).toNat link k)
    (fun u s => (.next, s.joinLace u k))

def execBra (g : Guard) (off : Half) (lace : Option LaceF) (s : State) : Result := .next (s.branchRel g off lace false)
def execBrx (g : Guard) (a : RegF) (lace : Option LaceF) (s : State) : Result := .next (s.branchReg g a lace false)
def execCall (g : Guard) (off : Half) (lace : Option LaceF) (s : State) : Result := .next (s.branchRel g off lace true)
def execCallx (g : Guard) (a : RegF) (lace : Option LaceF) (s : State) : Result := .next (s.branchReg g a lace true)

def execRet (g : Guard) (s : State) : Result :=
  .next (s.isa g {} fun u s =>
    match s.refill u with
    | (.error f, s) => (f, s)
    | (.ok (stk, rsd), s) =>
      let entry := stk.getLastD 0
      match s.target u entry with
      | (.error f, s) => (f, s)
      | (.ok ws, s) => (.branch ⟨entry, 0⟩ ws, s.modThread u fun t => { t with rstk := stk.dropLast, rsd := rsd }))

/-! EXIT (R376, R147). -/

/-- Writes a thread has issued that have not been performed. -/
def State.writesPending (s : State) (u : Nat) : Bool :=
  s.core.reqs.any fun r => r.thr == u && r.st != .done && match r.kind with
    | .load _ _ => false
    | .lds _ => false
    | .alu => false
    | .acpy => false
    | _ => true

/-- Copies and engine commands of a crew that have not completed (R147). -/
def State.crewBusy (s : State) (c : Crew) : Bool :=
  let k := s.clusterAt (clusterOf c.core)
  s.core.acpys.any (fun a => c.holds a.thr) || k.shq.any (fun q => q.crew == c.uid) || k.shLate.any (fun e => e.1 == c.uid) ||
    c.qb.any (fun e => !e.2.heads.isEmpty) ||
    (isCtl c.core && !k.mx.queue.isEmpty) || s.plat.nor.ops.any fun (_, o) => o.crew == c.uid && !o.written

/-- The thread is gone; the crew completes with its last thread. -/
def State.exitThread (s : State) (u : Nat) (last : Bool) : State :=
  let cu := (s.thread u).id.crew
  let know := s.knowOf u
  let s := (s.leaveLaces u false).dropThread u
  if !last then s
  else
    let s := s.plat.nor.ops.foldl (fun (s : State) e => if e.2.crew == cu then s.freeOp e.1 e.2 else s) s
    s.completeCrew cu know

/-- The other of the two phase domains in which threads of a core with an address space store: its ASID's, or that of the core's H
handlers (R444). -/
def State.otherDom (s : State) (t : Thread) : DomKey :=
  { s.domKey t with space := if t.inH then .asid t.id.asid else .phys }

/-- The boundary of a crew's exit covers every phase domain of the crew (R147): the stores of its other domain are published, where
a thread of the crew stored there; a twin's are dropped. -/
def State.exitOther (s : State) (u : Nat) (c : Crew) : Option PubStop × State :=
  let t := s.thread u
  let k := s.otherDom t
  let l := (s.mem.dom k).stores.filter fun e => !(e.2.late || e.2.store)
  if !(l.any fun e => c.holds e.2.thr) then (none, s)
  else if c.copy == 1 then (none, s.modDom k Domain.clear)
  else match s.publish { s.agent t .ls with dom := k } .sys [] l with
    | (none, s) => let (_, s) := s.seal u k (s.thread u).seen.know .sys; (none, s)
    | (some (.offline va d), s) =>
      (some (.offline va d), if (s.pkg.die d).drst = 8 then s.modDom k fun x => x.keep fun e => !(e.2.held && (homeIn s k.space k.core e.1).1 == d) else s)
    | r => r

/-- EXIT of one thread. -/
def State.exitOp (s : State) (u : Nat) : Flow × State :=
  let t := s.thread u
  if !t.ct.isEmpty then (.trap 0x19 s.ext.iword false, s)
  else if s.writesPending u then (.stall, s)
  else match s.crew? t.id.crew with
    | none => (.ended, s.exitThread u false)
    | some c =>
      if decide (1 < (s.crewThreads c.uid).length) then (.ended, s.exitThread u false)
      else if s.crewBusy c then (.stall, s)
      else match if t.isCtl then (s.clusterAt (clusterOf c.core)).mx.defer else none with
        | some (cause, _) => (.ended, s.failCrew c.uid cause)
        | none => match s.doBoundaryAfter u .sys .exit fun s => s.exitOther u c with
          | (.next, s) => (.ended, s.exitThread u true)
          | r => r

def execExit (g : Guard) (s : State) : Result := .next (s.isa g {} fun u s => s.exitOp u)

/-! Laces (R205, R206, R208, R377, R378). -/

/-- An operation on a lace that a trap handler may not make (R212). -/
def State.laceOp (s : State) (g : Guard) (srcs : List Src) (f : Nat → State → State) : State :=
  s.isa g { ctl := false, srcs := srcs } fun u s =>
    if (s.thread u).inHandler then (.trap 0x19 s.ext.iword false, s) else (.next, f u s)

def execJoin (g : Guard) (k : LaceF) (s : State) : Result := .next (s.laceOp g [] fun u s => s.joinLace u (some k))

def execLeave (g : Guard) (k : LaceF) (s : State) : Result :=
  .next (s.laceOp g [] fun u s =>
    let t := s.thread u
    let others := (s.equalKey t k.val).filter fun v => v.uid != u
    let s := s.modLace t k.val fun l => { l with mem := setLane l.mem t.id.lane false, arr := setLane l.arr t.id.lane false }
    match others with
    | v :: _ => s.crossing v k.val
    | [] => s)

/-- A thread waits at lace k. -/
def Thread.atLace (t : Thread) (k : Nat) : Bool :=
  match t.run with
  | .waiting w => w.kind == .lace && w.a == k
  | _ => false

/-- A release that a thread has issued is not complete: it does not arrive at a lace yet (R206, R251). -/
def State.releasing (s : State) (u : Nat) : Bool :=
  s.core.reqs.any fun r => r.thr == u && r.st != .done && r.toMem && (r.ord == .rel || r.ord == .acqrel)

/-- The arrivals of one WAITM: every active member of its lace arrives, complete sets cross, and the others wait (R206,
R207). Members whose crossing wakes a waiter that goes on at the same position become ready with it, so that they form one group
(the example after R210, log 12). -/
def waitmHold (k : Nat) (bk : PredF) : Hold := fun active s =>
  let arriving (u : Nat) : Bool :=
    let t := s.thread u
    !t.inHandler && t.mark.isNone && !s.laceBroken t k && (s.lace t k).mem.getLsbD t.id.lane && !s.releasing u
  let xs := active.filter arriving
  let old := s.core.threads.filter fun t => t.atLace k
  let s := xs.foldl (fun s u => let t := s.thread u; (s.statusOk u bk).modLace t k fun l => { l with arr := setLane l.arr t.id.lane true }) s
  let s := xs.foldl (fun s u => s.crossing (s.thread u) k) s
  let waits (u : Nat) : Bool := let t := s.thread u; (s.lace t k).arr.getLsbD t.id.lane
  let woken := (old.map fun t => s.thread t.uid).filter fun t => t.run == .ready
  let joins (u : Nat) : Bool :=
    let t := s.thread u
    !waits u && woken.any fun v => v.id.core == t.id.core && v.id.ctx == t.id.ctx && v.id.row == t.id.row && v.id.exk == t.id.exk && v.pos == t.after
  let gone (u : Nat) : Bool := xs.contains u && (waits u || joins u)
  (active.filter fun u => !gone u,
    xs.foldl (fun s u => if waits u then s.wait u .lace false k 0
      else if joins u then (s.leave u).modThread u fun t => t.wake (s.now t) t.after
      else s) s)

def execWaitm (g : Guard) (k : LaceF) (bk : PredF) (s : State) : Result :=
  .next (s.isaAll g { ctl := false } (waitmHold k.val bk) (fun _ u s =>
    let t := s.thread u
    if t.inHandler then (.trap 0x19 s.ext.iword false, s)
    else if t.mark == some 2 then (s.unmark u).brokenStatus u bk 0
    else if s.laceBroken t k.val then s.brokenStatus u bk 0
    else if !(s.lace t k.val).mem.getLsbD t.id.lane then (.trap 0x19 s.ext.iword false, s)
    else if s.releasing u then (.stall, s)
    else (.next, s.statusOk u bk)) (fun _ s => (.next, s)))

/-- The threads of a thread's row that hold its key. -/
def State.sameKey (s : State) (t : Thread) : List Thread :=
  s.core.threads.filter fun v => v.id.core == t.id.core && v.id.ctx == t.id.ctx && v.id.row == t.id.row && v.id.exk == t.id.exk

def execLaceset (g : Guard) (k : LaceF) (a : RegF) (s : State) : Result :=
  .next (s.laceOp g [⟨1, a, .int⟩] fun u s =>
    let t := s.thread u
    let m := s.src32 u a
    let ys := s.sameKey t
    let s := s.modLace t k.val fun l =>
      let l := ys.foldl (fun (l : Lace) y => { l with
        mem := setLane l.mem y.id.lane (bitOf m y.id.lane)
        arr := setLane l.arr y.id.lane false
        ph := setLane l.ph y.id.lane (!l.ph.getLsbD y.id.lane) }) l
      { l with broken := setDel l.broken t.id.exk }
    ys.foldl (fun s y => s.modThread y.uid fun y => match y.run with
      | .waiting w => if w.kind == .lace && w.a == k.val && y.mark.isNone then y.wake (s.now y) y.after else y
      | _ => y) s)

def execLaceget (g : Guard) (d : RegF) (k : LaceF) (s : State) : Result :=
  .next (s.isa g { ctl := false, dsts := [(d, 1)] } fun u s =>
    let t := s.thread u
    (.next, s.dst u d (BitVec.ofNat 64 (laneMask s ((s.equalKey t k.val).map (·.uid)))) .b32))

/-! Miscellany (R379 to R382). -/

def execYield (g : Guard) (s : State) : Result :=
  .next (s.isa g {} fun u s => (.next, s.modThread u fun t => if t.isCtl then t else { t with yielded := true }))

def execNop (g : Guard) (s : State) : Result := .next (s.isa g {} fun _ s => (.next, s))

def execBrk (g : Guard) (code : BitVec 14) (s : State) : Result :=
  .next (s.isa g {} fun u s =>
    let t := s.thread u
    let d := (s.fnAt t.id.fn).dbg
    if d.en && (d.any || d.asid == t.id.asid) then (.left, s.stop u 0x12 t.pos t.after)
    else (.trap 0x12 (BitVec.ofNat 64 code.toNat) true, s))

def execTrap (g : Guard) (_code : BitVec 14) (s : State) : Result :=
  .next (s.isa g {} fun _ s => (.trap 1 s.ext.iword false, s))

def execSvc (g : Guard) (code : BitVec 14) (s : State) : Result :=
  .next (s.isa g {} fun _ s => (.trap 0x15 (BitVec.ofNat 64 code.toNat) true, s))

end Sys2Proof.Machine
end

