-- ==== Sys2Proof/Machine/Enqueue.lean ====
section
/-! DEFINITION. Task records, the checks of an enqueue, and accepting a task (spec/06 R133, R137; spec/07 R142, R149, R150, R153). -/

namespace Sys2Proof.Machine

/-- A task record from its 64 bytes (R142). -/
def TaskRec.ofBytes (b : List Byte) : TaskRec :=
  let f (o n : Nat) : Nat := ofBytesLE ((b.drop o).take n)
  ⟨f 0 8, f 8 8, f 16 8, f 24 8, f 32 8, f 40 8, f 48 4, f 52 4, f 56 8⟩

def TaskRec.threads (r : TaskRec) : Nat := bitsOf r.ctrl 9 0 + 1
def TaskRec.regs8 (r : TaskRec) : Nat := bitsOf r.ctrl 14 10
def TaskRec.scratch (r : TaskRec) : Nat := bitsOf r.ctrl 20 15
def TaskRec.prio (r : TaskRec) : Nat := bitsOf r.ctrl 23 21
def TaskRec.assay (r : TaskRec) : Bool := bitOf r.ctrl 24
def TaskRec.excl (r : TaskRec) : Bool := bitOf r.ctrl 25
def TaskRec.gateV (r : TaskRec) : Bool := bitOf r.ctrl 26
def TaskRec.gate (r : TaskRec) : Nat := bitsOf r.ctrl 50 27

/-- The counter of a function that a handle names (R149). -/
def State.counterByHandle (s : State) (fn h : Nat) : Option (Nat × Counter) :=
  s.task.counters.find? fun (ix, c) => c.live && c.fn == fn && ix == h % 2 ^ 18 && c.gen == h / 2 ^ 18

/-- CTRL, GATE or SUCC breaks the row of R133 that names them; a handler template has no PRIOMAX (R173). -/
def State.ctrlBad (s : State) (fn : Nat) (r : TaskRec) (priomax : Nat) : Bool :=
  bitsOf r.ctrl 63 51 != 0 || !(decide (2 ≤ r.regs8) && decide (r.regs8 ≤ 28)) || decide (40 < r.scratch) ||
    decide (priomax < r.prio) || (r.gateV && (s.counterByHandle fn r.gate).isNone) ||
    (r.succ != 0 && (s.counterOf fn r.succ).isNone)

/-- The whole row of R133, ENTRY included. -/
def State.recordBad (s : State) (fn : Nat) (r : TaskRec) (priomax : Nat) : Bool := r.entry % 8 != 0 || s.ctrlBad fn r priomax

/-- The journal reserve of R137 is met. -/
def State.journalRoom (s : State) (fn : Nat) : Bool :=
  let j := (s.fnAt fn).jnl
  !j.ring.en || decide ((j.head + 2 ^ 64 - j.tail) % 2 ^ 64 + 2 * j.open_ + 3 ≤ 2 ^ j.logsz)

/-- A task slot of the function's quota is free. -/
def State.slotRoom (s : State) (fn : Nat) : Bool := decide ((s.fnAt fn).uSlots < (s.fnAt fn).qSlots)

/-- The lowest number that a strictly rising list leaves free, from n on. -/
def lowestFree : Nat → List Nat → Nat
  | n, [] => n
  | n, k :: ks => if k = n then lowestFree (n + 1) ks else n

/-- The granules of a range meet those of another (R153). -/
def rangesMeet (b1 l1 b2 l2 : Nat) : Bool :=
  let e1 := Nat.min (b1 + l1) (2 ^ 48)
  let e2 := Nat.min (b2 + l2) (2 ^ 48)
  decide (b1 < e1) && decide (b2 < e2) && decide (b1 / 256 ≤ (e2 - 1) / 256) && decide (b2 / 256 ≤ (e1 - 1) / 256)

/-- An edge from an earlier task's ranges to a later task's. -/
def TaskRec.edge (u t : TaskRec) : Bool :=
  rangesMeet t.rbase t.rlen u.wbase u.wlen || rangesMeet t.wbase t.wlen u.rbase u.rlen || rangesMeet t.wbase t.wlen u.wbase u.wlen

/-- How long ago a task was accepted. -/
def State.taskAge (s : State) (u : TaskSlot) : Nat := (s.task.launch + 2 ^ 32 - u.launch) % 2 ^ 32

/-- The launch numbers of the tasks that a new task of a queue waits for (R153). -/
def State.edgesFor (s : State) (queue : Nat) (r : TaskRec) : List Nat :=
  let mine := (s.task.slots.map (·.2)).filter fun u => u.queue == some queue
  (mine.filter fun u => decide ((mine.filter fun v => decide (s.taskAge v < s.taskAge u)).length < 64) && u.rec_.edge r).map (·.launch)

/-- A node parks on a counter (R150, R152). -/
def State.parkNode (s : State) (ix : Nat) (n : Node) : State :=
  match s.task.counters.find ix with
  | none => s
  | some c =>
    let w := s.counterWord c
    if bitOf w 63 then s.failNode n
    else if bitsOf w 31 0 = 0 then State.releaseNode (s.counterPubs c) s n
    else s.onTask fun k => { k with counters := k.counters.put ix { c with parked := c.parked ++ [n] } }

/-- A task is accepted (R133): a slot, a launch number, an accept entry; then it parks on its gate. -/
def State.accept (s : State) (t : TaskSlot) : State :=
  let slot := lowestFree 0 (s.task.slots.map (·.1))
  let launch := s.task.launch
  let edges := match t.queue with
    | some q => s.edgesFor q t.rec_
    | none => []
  let t := { t with slot := slot, launch := launch, edges := edges, st := if t.rec_.gateV then .parked else .waiting }
  let s := s.journal t.fn ⟨0, []⟩ ⟨1, 0, launch, t.lq, t.rec_.args, t.die, false, 0⟩
  let s := s.modFn t.fn fun f => { f with uSlots := f.uSlots + 1, jnl := { f.jnl with open_ := f.jnl.open_ + 1 } }
  let s := s.onTask fun k => { k with slots := k.slots.put slot t, launch := if launch + 1 = 2 ^ 32 then 1 else launch + 1 }
  if t.rec_.gateV then match s.counterByHandle t.fn t.rec_.gate with
    | some (ix, _) => s.parkNode ix (.task slot)
    | none => s
  else s

/-- The lowest-numbered admitted compute die (R136). -/
def State.firstDie (s : State) : Nat := ((rangeFrom 0 4).find? fun d => (s.pkg.die d).drst == 0).getD 0

/-- What an enqueue answers (R133). -/
inductive EnqRes where
  | accepted (launch : Nat)
  | retry
  | failed (cause : Nat)
deriving DecidableEq, Repr

def EnqRes.code : EnqRes → Nat
  | .accepted _ => 0
  | .retry => 1
  | .failed _ => 2

/-- The queue that (function, LQ) names. -/
def State.queueOf (s : State) (fn lq : Nat) : Option (Nat × Queue) :=
  match s.task.qnames.find (32768 * fn + lq) with
  | none => none
  | some i => (s.task.queues.find i).map fun q => (i, q)

/-- ENQUEUE (R133): `max` is the caller's level for TASKQ. During Shutdown it answers Retry (R23). -/
def State.enqueue (s : State) (fn lq : Nat) (max : Option Level) (r : TaskRec) : EnqRes × State :=
  let fail (s : State) (die cause : Nat) : EnqRes × State := (.failed cause, s.journal fn ⟨0, []⟩ ⟨4, cause, 0, lq, r.args, die, false, 0⟩)
  if s.plat.power.st == .shutdown then (.retry, s)
  else match s.queueOf fn lq with
    | none => fail s s.firstDie 0x18
    | some (i, q) =>
      let lv : Level → Nat := fun l => match l with
        | .u => 0
        | .g => 1
        | .h => 2
      if !q.enabled then fail s (i / 8192) 0x18
      else if (max.map fun m => decide (lv m < lv q.lvl)) == some true then fail s (i / 8192) 0x03
      else if s.recordBad fn r q.priomax then fail s (i / 8192) 0x19
      else if !s.slotRoom fn || !s.journalRoom fn then (.retry, s)
      else (.accepted s.task.launch, s.accept {
        slot := 0, rec_ := r, fn := fn, queue := some i, lq := lq, launch := 0, die := i / 8192, lvl := q.lvl, asid := q.asid,
        exkm := q.exkm, exkv := q.exkv, st := .waiting, edges := [], popped := false, handler := none, binds := [] })

end Sys2Proof.Machine
end

