-- ==== Sys2Proof/Machine/Perform.lean ====
section
/-! DEFINITION. Requests of threads and what their homes and bank units do (spec/10 R219, R220, R228; spec/11 R245 to R250; spec/19 R404 to R412). -/

namespace Sys2Proof.Machine

/-! Types (R287, R291, R348, R410). -/

/-- A memory type that the control core accepts. -/
def ctlTy : MemTy → Bool
  | .f32 => false
  | .f16 => false
  | .bf16 => false
  | .e4m3 => false
  | .e5m2 => false
  | .e3m2 => false
  | .e2m3 => false
  | .e2m1 => false
  | .s10 => false
  | _ => true

/-- The registers a type takes (of a SIMT core). -/
def tyWidth : MemTy → Nat
  | .i64 => 2
  | _ => 1

/-- A type whose elements leave bits 31:30 unused. -/
def tyTop : MemTy → Bool
  | .e3m2 => true
  | .e2m3 => true
  | .s10 => true
  | _ => false

/-- The tag that a load writes. -/
def tyTag : MemTy → Tag
  | .b32 => .b32
  | .f32 => .f32
  | .f16 => .f16x2
  | .bf16 => .bf16x2
  | .e4m3 => .e4m3x4
  | .e5m2 => .e5m2x4
  | .e3m2 => .e3m2x5
  | .e2m3 => .e2m3x5
  | .e2m1 => .e2m1x8
  | .s10 => .s10x3
  | _ => .i32

/-- The value of a load in a register of w bits (R287, R291). -/
def extend (ty : MemTy) (w v : Nat) : Nat :=
  match ty with
  | .i8 => wrapN w (sext v 8)
  | .i16 => wrapN w (sext v 16)
  | .i32 => wrapN w (sext v 32)
  | _ => if tyTop ty then v % 2 ^ 30 else v

/-- The registers a load writes. -/
def loadRegs (ctl : Bool) (ty : MemTy) (v : Nat) : List Reg :=
  if ctl then [⟨BitVec.ofNat 64 (extend ty 64 v), .b32⟩]
  else if ty == .i64 then pairRegs v
  else [⟨BitVec.ofNat 64 (extend ty 32 v), tyTag ty⟩]

/-- The registers a poisoned read writes: each is POISON over the bits delivered, or over zero (R290). -/
def poisonRegs : List Reg → State → List Reg × State
  | [], s => ([], s)
  | r :: rs, s =>
    let (b, s) := chooseBool s
    let (l, s) := poisonRegs rs s
    (⟨if b then r.val else 0, .poison⟩ :: l, s)

/-- The bytes a store writes, and whether they are poisoned (R287, R290). -/
def State.storeData (s : State) (u : Nat) (r : RegF) (ty : MemTy) : List Byte × Bool :=
  let t := s.thread u
  let lo := s.readR t r
  let wide := ty == .i64 && !t.isCtl
  let v := if wide then (s.src64 u r).toNat else lo.val.toNat
  let v := if tyTop ty then v % 2 ^ 30 else v
  (bytesLE (memSize ty) v, lo.tag == .poison || (wide && (s.readR t (regSucc r)).tag == .poison))

/-! Requests. -/

/-- A request of a thread, before it has a number. -/
def mkReq (s : State) (u : Nat) (kind : ReqKind) (va size : Nat) : Req where
  id := 0
  thr := u
  kind := kind
  st := .issued
  dom := s.domKey (s.thread u)
  va := va
  pa := 0
  size := size
  attr := Attr.reset
  ord := .rlx
  scope := .core
  na := false
  data := []
  cmp := []
  poison := false
  dest := []
  win := ((s.thread u).pos, 0)
  res := []
  flags := 0
  bnd := []
  tr := false
  plog := none
  pc := (s.thread u).pos
  inst := s.ext.inst
  mates := (s.ext.cur.map (·.members)).getD [u]

/-- A request leaves the core. -/
def State.issue (s : State) (r : Req) : State :=
  let (id, s) := s.newReq
  s.onCore fun k => { k with reqs := k.reqs ++ [{ r with id := id }] }

/-- The issue checks of a global access (R404, R232): alignment, then the high address bits. -/
def State.vaCheck (s : State) (u va z : Nat) : Option Flow :=
  if va % z != 0 then some (.trap 5 (BitVec.ofNat 64 va) false)
  else if (s.thread u).vaLim ≤ va then some (.trap 7 (BitVec.ofNat 64 va) false) else none

/-- Where an access of an agent goes, found when it issues: its frame and attributes, or what becomes of the thread. -/
def State.placeFor (s : State) (ag : Agent) (u va n kind : Nat) (a : Acc) : Except Flow (Nat × Attr) × State :=
  match s.xlate ag va a with
  | (.fault c s2, s) => (.error .left, s.transFault u kind va c s2)
  | (.offline d, s) => (.error .left, s.offlineFault u d va kind)
  | (.wait, s) => (.error .stall, s)
  | (.ok pa at_, s) =>
    if a == .w && s.counterAt pa n then (.error .left, s.transFault u kind va 7 false)
    else if a == .w && s.swShared pa then
      (.error .left, (s.smqPut ⟨2, pa / 128, stackOfLine (pa / 128)⟩).transFault u kind va 6 true)
    else (.ok (pa, at_), s)

/-- Where an access of a thread goes. -/
def State.place (s : State) (u va n kind : Nat) (a : Acc) : Except Flow (Nat × Attr) × State := s.placeFor (s.agent (s.thread u) .ls) u va n kind a

/-- A strong access publishes the domain's own bytes that it touches (R245): what stops that is found when it issues. -/
def State.strongOwn (s : State) (u va n kind : Nat) : Option Flow × State :=
  match s.publishRange (s.agent (s.thread u) .ls) va n with
  | (some (.fault v c s2), s) => (some .left, s.transFault u kind v c s2)
  | (some p, s) => let (f, s) := s.pubStop u p; (some f, s)
  | (none, s) => (none, s)

/-- The boundary a thread made last: what its release writes carry (R249). -/
def State.lastBnd (s : State) (u : Nat) : List Nat :=
  match s.mem.bnds.find? fun b => b.thr == u with
  | some b => [b.id]
  | none => []

/-- The registers of a destination. -/
def destOf (s : State) (u : Nat) (d : RegF) (w : Nat) : List Nat := regsAt d (regWidth (s.thread u).isCtl w)

/-! Scratchpad (R219, R220, R407). The key of a scratchpad byte is core · 2^19 + offset. -/

/-- The core whose bank units hold a scratch address of a thread's cluster. -/
def scrCore (cluster a : Nat) : Nat := cluster * 5 + bitsOf a 20 19

def scrKey (cluster a : Nat) : Nat := scrCore cluster a * 2 ^ 19 + a % 2 ^ 19

/-- The owner of a unit of a core as a thread finds it: none where it has none, or where the unit has stayed resident for a context
that was swapped out of the thread's core (R163). -/
def State.unitOwner (s : State) (t : Thread) (core unit : Nat) : Option Nat :=
  match (s.coreAt core).units.find unit with
  | none => none
  | some (a, ctx) => if core == t.id.core && ctx != t.id.ctx then none else some a

/-- The checks of R219 after alignment: address bits, a unit boundary crossed, the owner. -/
def State.scrCheck (s : State) (u a z : Nat) : Option Flow :=
  let t := s.thread u
  let off := a % 2 ^ 19
  if 2 ^ 21 ≤ a then some (.trap 0x19 s.ext.iword false)
  else if off / 8192 != (off + z - 1) / 8192 then some (.trap 5 (BitVec.ofNat 64 a) false)
  else if s.unitOwner t (scrCore (clusterOf t.id.core) a) (off / 8192) != some t.id.asid then
    some (.trap 8 (BitVec.ofNat 64 a) false)
  else none

/-! Atomics (R409 to R412). -/

/-- The size of an atomic type. -/
def aSize : ATy → Nat
  | .i64 => 8
  | .b128 => 16
  | _ => 4

/-- The registers of an atomic type on a SIMT core. -/
def aWidth : ATy → Nat
  | .i64 => 2
  | .b128 => 4
  | _ => 1

def aKind : ATy → Kind
  | .i32 => .int
  | .b32 => .int
  | .i64 => .i64
  | .f32 => .tag .f32
  | .f16x2 => .tag .f16x2
  | .bf16x2 => .tag .bf16x2
  | .b128 => .quad

/-- A type the control core accepts. -/
def aCtl : ATy → Bool
  | .f32 => false
  | .f16x2 => false
  | .bf16x2 => false
  | _ => true

/-- The value of an operand of an atomic type. -/
def State.aVal (s : State) (u : Nat) (r : RegF) (ty : ATy) : Nat :=
  let t := s.thread u
  let w := if t.isCtl then 64 else 32
  ((regsAt r (regWidth t.isCtl (aWidth ty))).zip (rangeFrom 0 4)).foldl (fun v (n, k) =>
    v + (t.reg n).val.toNat % 2 ^ w * 2 ^ (w * k)) (match r with
      | .gpr _ => 0
      | _ => (s.readR t r).val.toNat) % 2 ^ (8 * aSize ty)

/-- The registers an atomic returns (R410). -/
def aRegs (ctl : Bool) (ty : ATy) (v : Nat) : List Reg :=
  if ctl then match ty with
    | .i32 => [⟨BitVec.ofNat 64 (wrapN 64 (sext v 32)), .b32⟩]
    | .b128 => [⟨BitVec.ofNat 64 v, .b32⟩, ⟨BitVec.ofNat 64 (v / 2 ^ 64), .b32⟩]
    | _ => [⟨BitVec.ofNat 64 v, .b32⟩]
  else match ty with
    | .i64 => pairRegs v
    | .b128 => (rangeFrom 0 4).map fun k => ⟨BitVec.ofNat 64 (v / 2 ^ (32 * k) % 2 ^ 32), .b32⟩
    | .i32 => [⟨BitVec.ofNat 64 v, .i32⟩]
    | .b32 => [⟨BitVec.ofNat 64 v, .b32⟩]
    | .f32 => [⟨BitVec.ofNat 64 v, .f32⟩]
    | .f16x2 => [⟨BitVec.ofNat 64 v, .f16x2⟩]
    | .bf16x2 => [⟨BitVec.ofNat 64 v, .bf16x2⟩]

/-- A float operation on each element of an atomic type. -/
def aFloat (op : AOp) (ty : ATy) (x y : Nat) : Nat :=
  let f (m : Fmt) (p q : Nat) : Nat := match op with
    | .add => (m.add p q).1
    | .min => m.minmax false p q
    | _ => m.minmax true p q
  let two (m : Fmt) : Nat := f m (x % 2 ^ 16) (y % 2 ^ 16) + 2 ^ 16 * f m (x / 2 ^ 16) (y / 2 ^ 16)
  match ty with
  | .f16x2 => two fp16
  | .bf16x2 => two bf16
  | _ => f fp32 x y

def aIsFloat (ty : ATy) : Bool := !aCtl ty

/-- The new value of an atomic operation (R410): the value in memory and the source. -/
def atomV (op : AOp) (ty : ATy) (x y : Nat) : Nat :=
  let n := 8 * aSize ty
  match op with
  | .add => if aIsFloat ty then aFloat op ty x y else (x + y) % 2 ^ n
  | .min => if aIsFloat ty then aFloat op ty x y else if sext y n < sext x n then y else x
  | .max => if aIsFloat ty then aFloat op ty x y else if sext x n < sext y n then y else x
  | .minu => if y < x then y else x
  | .maxu => if x < y then y else x
  | .and => x &&& y
  | .or => x ||| y
  | .xor => x ^^^ y
  | .exch => y
  | .inc => if y ≤ x then 0 else x + 1
  | .dec => if x = 0 || decide (y < x) then y else x - 1
  | .cas => y

/-! At the home. -/

/-- A request to a scratchpad. -/
def Req.scratch (r : Req) : Bool :=
  match r.kind with
  | .lds _ => true
  | .sts => true
  | .atoms _ _ => true
  | _ => false

def Req.overlaps (r q : Req) : Bool := decide (q.va < r.va + r.size) && decide (r.va < q.va + q.size)

/-- The core whose bank units a scratchpad request goes to. -/
def Req.bank (r : Req) : Nat := scrCore (clusterOf r.dom.core) r.va

/-- An earlier request that has not been performed holds this one back. A thread's own: an acquire, one to the same bytes, or to the same
core's bank units; a read before an acquire (R220, R249). One that a group with the thread has issued: an acquire, or one to the same bytes.
Loads take their values in the order in which they issue (R241). -/
def State.before (s : State) (q r : Req) : Bool :=
  decide (q.id < r.id) && q.kind != .alu && q.kind != .acpy && s.precedes r.thr q &&
    (if q.scratch && r.scratch then q.thr == r.thr && q.bank == r.bank
    else q.acquires || (q.toMem && r.toMem && (q.overlaps r || (q.isLoad && r.isLoad))) || (r.acquires && q.isRead && q.thr == r.thr))

/-- A lower lane's request of the same execution of an instruction comes first (R404). -/
def Req.lowerLane (q r : Req) : Bool :=
  q.inst == r.inst && decide (q.id < r.id) && q.kind != .alu && q.kind != .acpy

/-- A request may be performed now as far as order goes. -/
def State.orderOk (s : State) (r : Req) : Bool := !s.core.reqs.any fun q => s.before q r || (s.precedes r.thr q && q.lowerLane r)

/-- A request that writes at a home. -/
def Req.writesHome (r : Req) : Bool :=
  match r.kind with
  | .store _ => true
  | .atomic _ _ _ => true
  | .cas _ => true
  | _ => false

/-- A request that goes to a home slice; a load that the core serves itself has no bytes to ask for. -/
def Req.toHome (r : Req) : Bool := r.toMem && r.size != 0

/-- The home die of a request. -/
def State.reqHome (s : State) (r : Req) : Nat := (homeIn s r.dom.space r.dom.core r.va).1

/-- The link between a request's core and its home is up: requests and replies cross it (R61, R62). A request is sent and delivered in
one event, so the messages of a class from one die to another arrive in the order they were sent (R60). -/
def State.wayOpen (s : State) (r : Req) : Bool := !r.toHome || !s.linkHeld (dieOf r.dom.core) (s.reqHome r)

/-- An atomic request. -/
def Req.isAtomic (r : Req) : Bool :=
  match r.kind with
  | .atomic _ _ _ => true
  | .cas _ => true
  | _ => false

/-- The agent of a request. -/
def State.reqAgent (s : State) (r : Req) : Agent :=
  let t := s.thread r.thr
  { thr := r.thr, dom := r.dom, fn := t.id.fn, lvl := t.lvl, path := .ls, pc := r.pc }

/-- The requests that have left the core and may be performed: in order, with the host's part done or to be asked for. -/
def State.performable (s : State) : List Req :=
  s.core.reqs.filter fun r => r.st == .home && r.kind != .acpy && !s.isHeld (.req r.id) && s.orderOk r && (r.scratch || s.memOffline r.pa ||
    !s.memHeld (s.reqHome r) r.pa r.size && match s.prepare r.pa r.size r.writesHome r.attr r.isAtomic (s.reqAgent r).who with
    | (.wait, s') => s'.ext.out.length != s.ext.out.length
    | _ => true)

def State.setReq (s : State) (r : Req) : State :=
  s.onCore fun k => { k with reqs := k.reqs.map fun q => if q.id == r.id then r else q }

/-- A request has been performed with a result. -/
def State.answer (s : State) (r : Req) (res : List Reg) : State := s.setReq { r with st := .done, res := res }

/-- A result that is POISON where the read was poisoned. -/
def State.answerP (s : State) (r : Req) (poison : Bool) (res : List Reg) : State :=
  if poison then let (rs, s) := poisonRegs res s; s.answer r rs else s.answer r res

/-- The snapshot point of an acquire. -/
def State.acquired (s : State) (r : Req) : State := if r.acquires then s.snapshot r.thr r.scope else s

/-- A load is performed at its home (R405); `down` when its host port is down. -/
def State.doLoad (s : State) (r : Req) (ty : MemTy) (strong down : Bool) : State :=
  let ctl := (s.thread r.thr).isCtl
  let ag := s.reqAgent r
  let (own, s) := if strong then ([], s) else s.ownBytes ag r.va r.size
  let poison := down || (!strong && s.mem.ownPoison ag.dom r.va r.size) || (s.mem.poisoned r.pa r.size && decide (own.length < r.size))
  let (bs, s) := s.readHome ag (if strong then some r.scope else none) r.va r.pa r.size (!strong && r.attr.noL1)
  let home := homeIn s r.dom.space r.dom.core r.va
  let s := if strong then s.noteStrong home.1 r.pa r.size else s
  let s := if down then s else s.readNames ag home r.va r.pa r.attr r.na
  let s := if down || strong then s else s.l1Fill ag r.va r.size r.attr r.na
  let v := ofBytesLE (overlay own bs)
  (s.acquired r).answerP r poison (loadRegs ctl ty v)

/-- An atomic for a requester of another die is recorded for a watched line (R333, kind 6). -/
def State.traceRemote (s s0 : State) (ag : Agent) (sc : Scope) (va pa n die : Nat) : State :=
  if ag.dom.space == .phys || !s.traced ag.fn (va / 128 * 128) 128 then s
  else
    let st (s : State) : List Byte := [BitVec.ofNat 8 (s.nameState ag.dom.space (va / 128) (pa / 128))]
    s.traceRec ag.fn (s.thread ag.thr).ltid (va / 128 * 128) (tracePc ag.pc n (scopeCode sc)) (st s0) (st s) die 6

/-- An atomic step at a home (R411, R412): `f` gives the new value, if it writes. -/
def State.doAtomic (s : State) (r : Req) (ty : ATy) (ret down : Bool) (f : Nat → Option Nat) : State :=
  let ctl := (s.thread r.thr).isCtl
  let ag := s.reqAgent r
  let poison := down || s.mem.poisoned r.pa r.size
  let (now, s) := s.newest (homeIn s r.dom.space r.dom.core r.va) r.pa r.size
  let old := ofBytesLE now
  let tops := (rangeFrom r.pa r.size).map fun a => ((s.mem.versions a).headD (memDefault, Wr.base)).2
  let pubs := tops.foldl (fun p w => setUnion p w.pubs) r.bnd
  let s := s.modThread r.thr fun t => { t with seen := { t.seen with
    pubs := tops.foldl (fun p w => setUnion p w.pubs) t.seen.pubs } }
  let new := (f old).getD old
  let home := homeIn s r.dom.space r.dom.core r.va
  let s0 := s
  let s := if down then s.dropWrite r.pa
    else if poison then s.noteStrong home.1 r.pa r.size
    else s.strongWrite ag r.scope pubs home r.va r.pa r.attr false (bytesLE r.size new) false
  let s := if dieOf r.dom.core = home.1 then s else s.traceRemote s0 ag r.scope r.va r.pa r.size home.1
  let s := if poison then s else s.fold r.thr r.va (bytesLE r.size new)
  let r := { r with data := if poison then [] else bytesLE r.size new }
  (s.acquired r).answerP r poison (if ret then aRegs ctl ty old else [])

/-- Scratchpad bytes (R407): key core · 2^19 + offset; an unwritten byte reads zero (R146). -/
def MemSys.scrRead (m : MemSys) (key n : Nat) : List Byte := (rangeFrom key n).map fun k => m.scr.getD 0 k

def MemSys.scrWrite (m : MemSys) (key : Nat) (bs : List Byte) (poison : Bool) : MemSys :=
  let ws := rangeFrom (key / 4) ((key + bs.length - 1) / 4 + 1 - key / 4)
  { m with
    scr := ((rangeFrom key bs.length).zip bs).foldl (fun m (k, b) => m.setD 0 k b) m.scr
    scrPoi := if poison then setUnion m.scrPoi ws else m.scrPoi.filter fun w => !ws.contains w }

def MemSys.scrPoisoned (m : MemSys) (key n : Nat) : Bool :=
  (rangeFrom (key / 4) ((key + n - 1) / 4 + 1 - key / 4)).any m.scrPoi.contains

/-- A request ends in a trap that its home, its bank unit or its link delivers: it is gone, and its thread traps at its instruction. The twin of
a pair is told (R324). -/
def State.reqTrap (s : State) (r : Req) (c : Nat) : State :=
  let v : Word := BitVec.ofNat 64 r.va
  let s := match r.plog, s.crew? (s.thread r.thr).id.crew with
    | some (n, key), some k => s.tellTwin k ⟨n, key, [], (s.thread r.thr).preds, some (c, v), 0⟩
    | _, _ => s
  ((s.onCore fun k => { k with reqs := k.reqs.filter fun q => q.id != r.id }).sweepHeld).trapEntry r.thr c v r.pc

/-- A bank unit acts, if the thread's ASID owns the unit (R220, R246). -/
def State.doScratch (s : State) (r : Req) : State :=
  if s.unitOwner (s.thread r.thr) r.bank (r.va % 2 ^ 19 / 8192) != some (s.thread r.thr).id.asid then s.reqTrap r 8 else
  let key := scrKey (clusterOf r.dom.core) r.va
  let poison := s.mem.scrPoisoned key r.size
  let old := ofBytesLE (s.mem.scrRead key r.size)
  match r.kind with
  | .lds ty => s.answerP r poison (loadRegs false ty old)
  | .sts => (s.onMem fun m => m.scrWrite key r.data r.poison).answer r []
  | .atoms op ty =>
    let v := ofBytesLE r.data
    let new := if op == .cas then (if old == ofBytesLE r.cmp then v else old) else atomV op ty old v
    let s := if poison then s else s.onMem fun m => m.scrWrite key (bytesLE r.size new) false
    s.answerP r poison (aRegs false ty old)
  | _ => s

/-- A request on its way meets a die that is lost: it is dropped, and its thread traps at its instruction or its region unwinds (R76). -/
def State.reqLost (s : State) (r : Req) : State :=
  let g := (s.thread r.thr).rgnOf r.id
  if g = 0 then s.reqTrap r 0x0C
  else ((s.onCore fun k => { k with reqs := k.reqs.filter fun q => q.id != r.id }).sweepHeld).unwindTo r.thr g 0x0C r.va

/-- A request gets the offline reply of a die (R71): it is held until ADMIT, its thread parked (R72), or meets the loss of the die. -/
def State.holdReq (s : State) (r : Req) (die : Nat) : State :=
  if (s.pkg.die die).drst = 8 then s.reqLost r
  else ((s.holdFor die (.req r.id) r.va (s.now (s.thread r.thr))).setReq { r with st := .issued }).takeOut r.thr

/-- A strong request (R245). -/
def Req.isStrong (r : Req) : Bool :=
  match r.kind with
  | .load _ strong => strong
  | _ => r.writesHome

/-- A request is performed at its home slice or bank unit. A strong one publishes first what its domain has stored there since it issued
(R245); what cannot be published then stays held (log 151). -/
def State.performReq (s : State) (r : Req) : State :=
  if r.scratch then s.doScratch r
  else if s.memOffline r.pa then s.holdReq r (bitsOf r.pa 38 37)
  else match if r.isStrong then s.publishRange (s.reqAgent r) r.va r.size else (none, s) with
  | (some .wait, s) => s
  | (_, s) => match s.prepare r.pa r.size r.writesHome r.attr r.isAtomic (s.reqAgent r).who with
    | (.wait, s) => s
    | (rd, s) =>
      let down := rd == .down
      match r.kind with
      | .load ty strong => s.doLoad r ty strong down
      | .store _ =>
        let s := if down then s.dropWrite r.pa
          else s.strongWrite (s.reqAgent r) r.scope r.bnd (homeIn s r.dom.space r.dom.core r.va) r.va r.pa r.attr r.na r.data r.poison
        s.answer r []
      | .atomic op ty ret => s.doAtomic r ty ret down fun old => some (atomV op ty old (ofBytesLE r.data))
      | .cas ty => s.doAtomic r ty true down fun old => if old == ofBytesLE r.cmp then some (ofBytesLE r.data) else none
      | _ => s

end Sys2Proof.Machine
end

