-- ==== Sys2Proof/Machine/MemFam.lean ====
section
/-! DEFINITION. Loads, stores, scratchpad and atomics: majors 0x14 and 0x15 (spec/19 R404 to R412; spec/10 R219, R220). An access
of the home or of a bank unit becomes a request; its faults are found when it issues. -/

namespace Sys2Proof.Machine

/-! Loads (R405, R408). -/

/-- A plain load whose bytes are all its domain's own unpublished ones, and whose home is offline: they stand in the L1, and the load needs no
home (R71, R72, R242). -/
def State.loadHere (s : State) (u va n : Nat) : Bool :=
  let ag := s.agent (s.thread u) .ls
  offHome s (homeIn s ag.dom.space ag.dom.core va).1 && s.mem.ownAll ag.dom va n

/-- A strong access leaves the core. While MEMDBG.MIXSZ is 1 it reaches its home at once, in its turn, so that the trap of the check is taken
at the access (R248, log 141). -/
def State.issueStrong (s : State) (r : Req) : Flow × State :=
  let t := s.thread r.thr
  if !(s.fnAt t.id.fn).mem.mixsz then (.next, s.issue r)
  else
    let q := { r with id := s.core.nextReq }
    if !s.orderOk q then (.stall, s)
    else match s.prepareAt (s.reqAgent r) r.va r.pa r.size r.writesHome r.attr r.isAtomic with
      | (.wait, s) => (.stall, s)
      | (_, s) =>
        if s.mixed t.id.fn (s.reqHome r) r.pa r.size then (.trap 0x0A (BitVec.ofNat 64 r.va) false, s)
        else (.next, (s.issue r).performReq q)

/-- A load of a thread at an address. A plain load of a registered counter is a relaxed strong load at device scope (R149). -/
def State.loadAt (s : State) (u va : Nat) (ty : MemTy) (ord : MOrd) (sc : Scope) (na : Bool) (d : RegF) (la : Nat) : Flow × State :=
  let z := memSize ty
  let strong := ord != .rlx || sc != .core
  match s.vaCheck u va z with
  | some f => (f, s)
  | none =>
    if !strong && s.loadHere u va z then
      if s.storeWaits u va z then (.stall, s)
      else
        let ag := s.agent (s.thread u) .ls
        let poi := s.mem.ownPoison ag.dom va z
        let (own, s) := s.ownBytes ag va z
        let rs := loadRegs (s.thread u).isCtl ty (ofBytesLE (overlay own (List.replicate z 0)))
        let (rs, s) := if poi then poisonRegs rs s else (rs, s)
        (.next, s.later u la d (tyWidth ty) rs false 0 (.load ty false))
    else match s.place u va z (if ord == .acq then 2 else 0) .r with
      | (.error f, s) => (f, s)
      | (.ok (pa, at_), s) =>
        let ctr := !strong && s.counterAt pa z
        let strong := strong || ctr
        let r := { mkReq s u (.load ty strong) va z with
          pa := pa, attr := at_, ord := ord, scope := if ctr then .dev else sc, na := na, dest := destOf s u d (tyWidth ty),
          win := ((s.thread u).pos, la) }
        if strong then match s.strongOwn u va z (if ord == .acq then 2 else 0) with
          | (some f, s) => (f, s)
          | (none, s) => s.issueStrong r
        else (.next, s.issue r)

def execLd (g : Guard) (la : BitVec 4) (d : RegF) (m : MemF) (ty : MemTy) (ord : MOrd) (sc : Scope) (na : Bool) (s : State) :
    Result :=
  let sp : Spec := { ctl := ctlTy ty, srcs := memSrcs m false, dsts := [(d, tyWidth ty)], qdst := false, la := la.toNat }
  .next (s.isa g sp fun u s => s.loadAt u (s.ea u m (memSize ty)) ty ord sc na d la.toNat)

/-- A field of the task record (R143): offset -8 · k from the end. -/
def TaskRec.field (r : TaskRec) (k : Nat) : Nat :=
  match k with
  | 0 => r.entry
  | 1 => r.args
  | 2 => r.tile
  | 3 => r.succ
  | 4 => r.rbase
  | 5 => r.wbase
  | 6 => r.rlen + r.wlen * 2 ^ 32
  | _ => r.ctrl

/-- The task record of a thread's crew. -/
def State.taskRec (s : State) (u : Nat) : TaskRec :=
  match s.crew? (s.thread u).id.crew with
  | some c => c.task
  | none => ⟨0, 0, 0, 0, 0, 0, 0, 0, 0⟩

def execLdk (g : Guard) (la : BitVec 4) (d index : RegF) (off : BitVec 12) (ty : MemTy) (s : State) : Result :=
  let z := memSize ty
  let sp : Spec := { ctl := ctlTy ty, srcs := [⟨5, index, .int⟩], dsts := [(d, tyWidth ty)], qdst := false, la := la.toNat }
  .next (s.isa g sp fun u s =>
    let o := sext off.toNat 12
    if o < 0 then
      if ty == .i64 && index == .vz && decide (-8 ≤ o) then
        let v := (s.taskRec u).field (o + 8).toNat
        (.next, s.later u la.toNat d 2 (loadRegs (s.thread u).isCtl .i64 v) false 0 (.load .i64 false))
      else (.trap 0x19 s.ext.iword false, s)
    else
      let va := wrapN 64 (((s.taskRec u).args : Int) + sext (s.src32 u index) 32 * z + o * z)
      s.loadAt u va ty .rlx .core false d la.toNat)

/-! Stores (R406). -/

/-- A copy of an assay pair that is the twin: its strong stores stay its own (R323). -/
def State.isTwin (s : State) (u : Nat) : Bool :=
  match s.crew? (s.thread u).id.crew with
  | some c => c.peer.isSome && c.copy == 1
  | none => false

/-- A strong store whose home is offline is held at its core (R73): its bytes stay with the domain until ADMIT. -/
def State.holdStore (s : State) (u va d : Nat) (bs : List Byte) (poi : Bool) : Flow × State :=
  if (s.pkg.die d).drst = 8 || s.plat.links.held.any fun h => h.who == .pub u && h.die == d then s.pubStop u (.offline va d)
  else
    let ag := s.agent (s.thread u) .ls
    let mine (a : Nat) : Bool := decide (va ≤ a) && decide (a < va + bs.length)
    let s := (s.plainStore ag va bs poi).modDom ag.dom fun k => { k with
      stores := k.stores.map fun e => if mine e.1 then (e.1, { e.2 with held := true, store := true }) else e }
    s.pubStop u (.offline va d)

/-- The store goes on: what was held for it is not needed. -/
def State.unhold (s : State) (u va n : Nat) : State :=
  s.modDom (s.domKey (s.thread u)) fun k => k.keep fun e =>
    !((e.2.late || e.2.store) && e.2.thr == u && decide (va ≤ e.1) && decide (e.1 < va + n))

/-- The die that keeps a write of a thread from its home. -/
def State.offWrite (s : State) (u va : Nat) : Option Nat :=
  match s.xlate (s.agent (s.thread u) .ls) va .w with
  | (.offline d, _) => some d
  | _ => none

/-- The thread's store is held for an offline home: its boundary has been performed (R73). -/
def State.storeHeld (s : State) (u va n : Nat) : Bool :=
  s.plat.links.held.any (fun h => h.who == .pub u) &&
    (s.mem.dom (s.domKey (s.thread u))).stores.any fun e => e.2.store && e.2.thr == u && decide (va ≤ e.1) && decide (e.1 < va + n)

/-- A strong store at a home. -/
def State.strongStore (s : State) (u va : Nat) (bs : List Byte) (poi : Bool) (ord : MOrd) (sc : Scope) (na : Bool) : Flow × State :=
  let z := bs.length
  if s.isTwin u then (.next, (s.plainStore (s.agent (s.thread u) .ls) va bs poi).fold u va bs)
  else match s.offWrite u va with
  | some d => s.holdStore u va d bs poi
  | none => match s.place u va z 1 .w with
    | (.error f, s) => (f, s)
    | (.ok (pa, at_), s) => match (s.unhold u va z).strongOwn u va z 1 with
      | (some f, s) => (f, s)
      | (none, s) =>
        let s := s.onLinks fun l => { l with held := l.held.filter fun h => h.who != .pub u }
        match s.issueStrong { mkReq s u (.store true) va z with
            pa := pa, attr := at_, ord := ord, scope := sc, na := na, data := bs, poison := poi,
            bnd := if ord == .rel then s.lastBnd u else [] } with
        | (.next, s) => (.next, s.fold u va bs)
        | r => r

def execSt (g : Guard) (d : RegF) (m : MemF) (ty : MemTy) (ord : MOrd) (sc : Scope) (na : Bool) (s : State) : Result :=
  let z := memSize ty
  let kd : Kind := if ty == .i64 then .anyPair else .any
  .next (s.isa g { ctl := ctlTy ty, srcs := ⟨0, d, kd⟩ :: memSrcs m false } fun u s =>
    let va := s.ea u m z
    match s.vaCheck u va z with
    | some f => (f, s)
    | none =>
      let (bs, poi) := s.storeData u d ty
      if ord == .rlx && sc == .core then
        if s.storeWaits u va z then (.stall, s)
        else (.next, (s.plainStore (s.agent (s.thread u) .ls) va bs poi na).fold u va bs)
      else if ord == .rel then match (if s.storeHeld u va z then (.next, s) else s.doBoundary u sc .store) with
        | (.next, s) => s.strongStore u va bs poi ord sc na
        | r => r
      else s.strongStore u va bs poi ord sc na)

/-! Scratchpad (R407). -/

def State.scrAlign (s : State) (u a z : Nat) : Option Flow :=
  if a % z != 0 then some (.trap 5 (BitVec.ofNat 64 a) false) else s.scrCheck u a z

def execLds (g : Guard) (la : BitVec 4) (d : RegF) (m : MemF) (ty : MemTy) (s : State) : Result :=
  let z := memSize ty
  let sp : Spec := { ctl := false, srcs := memSrcs m true, dsts := [(d, tyWidth ty)], qdst := false, la := la.toNat }
  .next (s.isa g sp fun u s =>
    let a := s.eaS u m z
    match s.scrAlign u a z with
    | some f => (f, s)
    | none => (.next, s.issue { mkReq s u (.lds ty) a z with dest := destOf s u d (tyWidth ty), win := ((s.thread u).pos, la.toNat) }))

def execSts (g : Guard) (d : RegF) (m : MemF) (ty : MemTy) (s : State) : Result :=
  let z := memSize ty
  let kd : Kind := if ty == .i64 then .anyPair else .any
  .next (s.isa g { ctl := false, srcs := ⟨0, d, kd⟩ :: memSrcs m true } fun u s =>
    let a := s.eaS u m z
    match s.scrAlign u a z with
    | some f => (f, s)
    | none =>
      let (bs, poi) := s.storeData u d ty
      (.next, s.issue { mkReq s u .sts a z with data := bs, poison := poi }))

/-! Atomics (R409 to R412). -/

/-- EA of major 0x15 (R409). -/
def State.eaA (s : State) (u : Nat) (m : AtMemF) (z : Nat) : Nat :=
  wrapN 64 (((s.src64 u m.base).toNat : Int) + sext m.off.toNat 8 * z)

def State.eaAS (s : State) (u : Nat) (m : AtMemF) (z : Nat) : Nat :=
  wrapN 32 ((s.src32 u m.base : Int) + sext m.off.toNat 8 * z)

/-- A global atomic of a thread (R411, R412): its release first, then its checks, then the request. -/
def State.atomAt (s : State) (u va : Nat) (kind : ReqKind) (ty : ATy) (ord : MOrd) (sc : Scope) (data cmp : List Byte)
    (dest : List Nat) (la : Nat) : Flow × State :=
  let z := aSize ty
  match s.vaCheck u va z with
  | some f => (f, s)
  | none =>
    let rel := ord == .rel || ord == .acqrel
    match if rel then s.doBoundary u sc .atomic else (.next, s) with
    | (.next, s) => match s.place u va z 2 .w with
      | (.error f, s) => (f, s)
      | (.ok (pa, at_), s) => match s.strongOwn u va z 2 with
        | (some f, s) => (f, s)
        | (none, s) => s.issueStrong { mkReq s u kind va z with
            pa := pa, attr := at_, ord := ord, scope := sc, data := data, cmp := cmp, dest := dest, win := ((s.thread u).pos, la),
            bnd := if rel then s.lastBnd u else [] }
    | r => r

/-- What an atomic asks of its operands. -/
def atomSpec (m : AtMemF) (ty : ATy) (srcs : List Src) (dsts : List (RegF × Nat)) (la : Nat) (ord : MOrd) (sc : Scope) : Spec :=
  { ctl := aCtl ty, srcs := srcs ++ [⟨4, m.base, .addr⟩, ⟨5, m.src, aKind ty⟩], dsts := dsts, qdst := false, la := la, primary := true,
    bnd := if ord == .rel || ord == .acqrel then some (sc, .atomic) else none }

def execAtom (g : Guard) (la : BitVec 4) (d : RegF) (m : AtMemF) (op : AOp) (ty : ATy) (ord : MOrd) (sc : Scope) (s : State) :
    Result :=
  .next (s.isa g (atomSpec m ty [] [(d, aWidth ty)] la.toNat ord sc) fun u s =>
    s.atomAt u (s.eaA u m (aSize ty)) (.atomic op ty true) ty ord sc (bytesLE (aSize ty) (s.aVal u m.src ty)) []
      (destOf s u d (aWidth ty)) la.toNat)

def execRed (g : Guard) (m : AtMemF) (op : AOp) (ty : ATy) (ord : MOrd) (sc : Scope) (s : State) : Result :=
  .next (s.isa g (atomSpec m ty [] [] 0 ord sc) fun u s =>
    s.atomAt u (s.eaA u m (aSize ty)) (.atomic op ty false) ty ord sc (bytesLE (aSize ty) (s.aVal u m.src ty)) [] [] 0)

def execCas (g : Guard) (la : BitVec 4) (d : RegF) (m : AtMemF) (ty : ATy) (ord : MOrd) (sc : Scope) (s : State) : Result :=
  .next (s.isa g (atomSpec m ty [⟨0, d, aKind ty⟩] [(d, aWidth ty)] la.toNat ord sc) fun u s =>
    s.atomAt u (s.eaA u m (aSize ty)) (.cas ty) ty ord sc (bytesLE (aSize ty) (s.aVal u m.src ty))
      (bytesLE (aSize ty) (s.aVal u d ty)) (destOf s u d (aWidth ty)) la.toNat)

def execAtoms (g : Guard) (la : BitVec 4) (d : RegF) (m : AtMemF) (op : AOp) (ty : ATy) (s : State) : Result :=
  let z := aSize ty
  let ds : List Src := if op == .cas then [⟨0, d, aKind ty⟩] else []
  let srcs : List Src := ds ++ [⟨4, m.base, .int⟩, ⟨5, m.src, aKind ty⟩]
  .next (s.isa g { ctl := false, srcs := srcs, dsts := [(d, aWidth ty)], qdst := false, la := la.toNat, primary := true } fun u s =>
    let a := s.eaAS u m z
    match s.scrAlign u a z with
    | some f => (f, s)
    | none => (.next, s.issue { mkReq s u (.atoms op ty) a z with
        data := bytesLE z (s.aVal u m.src ty), cmp := bytesLE z (s.aVal u d ty), dest := destOf s u d (aWidth ty),
        win := ((s.thread u).pos, la.toNat) }))

end Sys2Proof.Machine
end

