-- ==== Sys2Proof/Machine/ReqEv.lean ====
section
/-! DEFINITION. What becomes of requests: the miss leaves the core, its home slice or bank unit acts, the reply arrives (spec/02
R61; spec/10 R228; spec/11 R245 to R250; spec/16 R349, R350). -/

namespace Sys2Proof.Machine

/-- The fold that an atomic's write makes in both copies (R322, R324): an answered atomic holds what it wrote. -/
def Req.folds (r : Req) : Word :=
  if r.writesHome && !r.data.isEmpty then assayFold 0 r.va r.size (ofBytesLE r.data) else 0

/-- A reply arrives: the destination is written, flags are set, the twin is told, the request is gone. -/
def State.reply (s0 : State) (r : Req) : State :=
  let s := s0
  let s := s.modThread r.thr fun t =>
    { (r.dest.zip r.res).foldl (fun (t : Thread) (n, x) => if n < 0xFFFF then t.setReg n x else t) t with fflags := t.fflags ||| r.flags }
  let s := match r.plog, s.crew? (s.thread r.thr).id.crew with
    | some (n, key), some c => s.tellTwin c ⟨n, key, r.dest.zip r.res, (s.thread r.thr).preds, none, r.folds⟩
    | _, _ => s
  s0.touch (s.onCore fun k => { k with reqs := k.reqs.filter fun q => q.id != r.id }) r.thr

/-- After an outage of a link the messages that it held cross it in the order they were sent (R62). -/
def State.sentInTurn (s : State) (r : Req) : Bool :=
  match s.plat.links.dl.find (linkOf (dieOf r.dom.core) (s.reqHome r)) with
  | none => true
  | some l => !l.queue.contains r.id || (l.queue.find? fun id => s.core.reqs.any fun q =>
      q.id == id && q.st == .issued && !s.isHeld (.req q.id) && dieOf q.dom.core == dieOf r.dom.core) == some r.id

def State.issued (s : State) : List Req := s.core.reqs.filter fun r =>
  r.st == .issued && s.wayOpen r && !s.isHeld (.req r.id) && s.turnOf (.req r.id) && s.sentInTurn r
def State.answered (s : State) : List Req := s.core.reqs.filter fun r => r.st == .done && s.wayOpen r

/-- L1_MISS_REQUEST (R61, R217): a request leaves the core for its home, or gets the offline reply (R71). -/
def execL1MissRequest (s : State) : Result :=
  .next (match s.issued with
    | [] => s
    | r :: rs =>
      let (q, s) := chooseFrom (r :: rs) r s
      if q.toHome && offHome s (s.reqHome q) then s.holdReq q (s.reqHome q) else (s.setReq { q with st := .home }).unOrder (.req q.id))

/-- HOME_SLICE_ACCESS (R228): one of the requests that may act is performed at its home or bank unit. -/
def execHomeSliceAccess (s : State) : Result :=
  .next (match s.performable with
    | [] => s
    | r :: rs => let (q, s) := chooseFrom (r :: rs) r s; s.performReq q)

/-- REPLY_ARRIVAL (R61): a result is written to its destination. -/
def execReplyArrival (s : State) : Result :=
  .next (match s.answered with
    | [] => s
    | r :: rs => let (q, s) := chooseFrom (r :: rs) r s; s.reply q)

end Sys2Proof.Machine
end

