-- ==== Sys2Proof/Machine/CacheFam.lean ====
section
/-! DEFINITION. Cache and order instructions and watches: majors 0x16 and 0x17 (spec/19 R413 to R421; spec/10 R222, R231;
spec/11 R242, R243, R247). -/

namespace Sys2Proof.Machine

/-! PREF (R414). -/

/-- A line is taken into L2, and without `l2only` its four sectors into L1, where nothing forbids it (R414); the translation is cached as that of any
access (R229). -/
def State.prefetch (s : State) (u va ep : Nat) (l2only : Bool) : State :=
  let t := s.thread u
  let home := homeIn s t.space t.id.core va
  let go (s : State) (pa : Nat) (at_ : Attr) : State :=
    if offHome s home.1 || (paFault s pa).isSome || isHost pa || offMem s (bitsOf pa 38 37) || s.wayHeld t.id.core home.1 pa 128 ||
        (s.plat.host.own.find (pa / 128)).isSome || !permOk at_ t.lvl .r then s
    else
      let s := if at_.allocL2 then s.fillTraced home t.space (va / 128) (pa / 128) ep at_ true else s
      s.l1Fill (s.agent t .ls) (va / 128 * 128) 128 at_ l2only
  if t.vaLim ≤ va then s
  else match t.space with
    | .phys => go s va (Attr.phys va)
    | .asid a => match walkFrom s home.1 t.id.fn a va with
      | .error _ => s
      | .ok e => go (if s.mem.tlb.contains e || offHome s home.1 then s else s.onMem fun m => { m with tlb := e :: m.tlb }) (e.pa + va % e.size) e.attr

def execPref (g : Guard) (m : MemF) (ty : MemTy) (ep : Fin 4) (l2only : Bool) (s : State) : Result :=
  .next (s.isa g { srcs := memSrcs m false } fun u s =>
    let va := s.ea u m (memSize ty)
    (.next, if va % memSize ty = 0 then s.prefetch u va ep.val l2only else s))

/-! DISCARD (R415, R231). -/

/-- Half-lines of host memory leave their slices: what a slice has of them is written back, then each is given back to the host; a line stays where
its other half is held (R120). -/
def State.dropHalves (s : State) (halves : List Nat) : State :=
  let cut (m : MemSys) (l : L2Line) : MemSys :=
    let mine (e : Nat × Byte) : Bool := halves.contains (2 * l.pline + e.1 / 64)
    let m := if l.wr then m.writeBack { l with dirty := l.dirty.filter mine } else m
    let other := [2 * l.pline, 2 * l.pline + 1].any fun h => !halves.contains h && s.plat.host.mesi.getD 0 h != 0
    let rest := if other then [{ l with dirty := l.dirty.filter fun e => !mine e }] else []
    { m with l2 := m.l2.flatMap fun k => if k == l then rest else [k] }
  let s := s.onMem fun m => (m.l2.filter fun l => halves.any fun h => h / 2 == l.pline).reverse.foldl cut m
  halves.foldl State.evictHalf s

/-- One line of a DISCARD at its home: a write whose bytes are what is kept, what memory holds, or zero. Of host memory a modified line is written
back first (R415): the bytes stay, and the half-lines leave. -/
def State.discardPiece (s : State) (ag : Agent) (va n pa : Nat) (at_ : Attr) : State :=
  let home := homeIn s ag.dom.space ag.dom.core va
  let (k, s) := if isHost pa then (0, s) else choose 3 s
  let old := s.mem.read pa n
  let bs : List Byte := match k with
    | 0 => old
    | 1 => (rangeFrom pa n).map fun a => s.mem.bytes.getD memDefault a
    | _ => List.replicate n 0
  let s := if isHost pa then (s.dropHalves (rangeFrom (pa / 64) ((pa + n - 1) / 64 + 1 - pa / 64))).fire (pa / 128)
    else
      let w : Wr := ⟨s.mem.seq, some ag.dom, ag.thr, .ls, none, ag.dom.core, [], (1, 0), (s.thread ag.thr).seen.know⟩
      (s.homeWrite w ag.dom.space home va pa at_ false bs false).onMem fun m => { m with seq := m.seq + 1 }
  s.traceWrite ag (s.thread ag.thr).ltid (scopeCode .dev) 1 ag.pc va old bs home.1

/-- The checks of a line of a DISCARD: those of a write; of host memory no half is fetched, since the line is evicted (R120). -/
def State.discardCheck (s : State) (ag : Agent) (va n : Nat) : PubRes × State :=
  match s.xlate ag va .w with
  | (.ok pa at_, s') =>
    if isHost pa && !(s.counterAt pa n) then
      if !s.plat.host.up then (.drop pa, s')
      else if s.linkHeld (dieOf ag.dom.core) (homeIn s ag.dom.space ag.dom.core va).1 || s.dropHeld (fun l => l.pline == pa / 128) then (.wait, s')
      else (.ok pa at_, s')
    else s.writeCheck ag va n
  | _ => s.writeCheck ag va n

/-- The pieces of a DISCARD that pass their checks up to the first that does not, and what stopped it. -/
def State.discardChecks (s : State) (ag : Agent) : List (Nat × Nat) → List (Nat × Nat × Nat × Attr) × Option PubRes × State
  | [] => ([], none, s)
  | (va, n) :: rest => match s.discardCheck ag va n with
    | (.ok pa at_, s) =>
      let (l, r, s) := State.discardChecks s ag rest
      ((va, n, pa, at_) :: l, r, s)
    | (.drop _, s) => State.discardChecks s ag rest
    | (r, s) => ([], some r, s)

/-- The unpublished bytes of a range are dropped. -/
def State.dropOwn (s : State) (k : DomKey) (va n : Nat) : State :=
  s.modDom k fun d => d.keep fun e => !(decide (va ≤ e.1) && decide (e.1 < va + n))

def State.discard (s : State) (u va len : Nat) : Flow × State :=
  let t := s.thread u
  let ag := s.agent t .ls
  if len = 0 then (.next, s)
  else if t.vaLim < va + len then (.trap 7 (BitVec.ofNat 64 va) false, s)
  else
    let fold (s : State) := s.modCrew t.id.crew fun c => if c.peer.isNone then c else
      { c with assay := { c.assay with sig := assayFold c.assay.sig va 0 len } }
    if s.isTwin u then (.next, fold (s.dropOwn ag.dom va len))
    else
      let (l, r, s) := s.discardChecks ag (piecesOf va len)
      let act (s : State) (l : List (Nat × Nat × Nat × Attr)) := l.foldl (fun s e => s.discardPiece ag e.1 e.2.1 e.2.2.1 e.2.2.2) s
      match r with
      | none => (.next, fold ((act s l).dropOwn ag.dom va len))
      | some .wait => (.stall, s)
      | some (.fault c s2) =>
        let (some_, s) := chooseSubset (l.map (·.1)) s
        let bad := (l.getLast?.map fun e => e.1 + e.2.1).getD va
        (.left, (act s (l.filter fun e => some_.contains e.1)).transFault u 1 bad c s2)
      | some (.offline d) =>
        let (some_, s) := chooseSubset (l.map (·.1)) s
        (.left, (act s (l.filter fun e => some_.contains e.1)).offlineFault u d va 1)
      | some _ => (.next, s)

def execDiscard (g : Guard) (m : MemF) (d : RegF) (s : State) : Result :=
  .next (s.isa g { srcs := ⟨0, d, .int⟩ :: memSrcs m false } fun u s =>
    if s.inFlight u (s.ea u m 1) (s.src32 u d) then (.stall, s) else s.discard u (s.ea u m 1) (s.src32 u d))

/-! CLEAN (R416). -/

/-- The physical lines that a slice holds under a name of a range (R416). -/
def State.cleanedLines (s : State) (sp : Space) (va n : Nat) : List Nat :=
  ((s.mem.l2.filter fun l => l.space == sp && decide (va / 128 ≤ l.vline) && decide (l.vline * 128 < va + n)).map (·.pline)).eraseDups

/-- A write-back that a CLEAN of a range causes cannot be written now: CLEAN waits for it (R416, R47, R62, R71). -/
def State.cleanHeld (s : State) (sp : Space) (va n : Nat) : Bool :=
  let pls := s.cleanedLines sp va n
  s.dropHeld fun l => pls.contains l.pline

/-- Lines of a space from va on are written back and clean. -/
def State.cleanRange (s : State) (sp : Space) (va n : Nat) : State :=
  let pls := s.cleanedLines sp va n
  let s := s.onMem fun m =>
    let m := (m.l2.filter fun l => l.wr && pls.contains l.pline).foldl MemSys.writeBack m
    { m with l2 := (m.l2.map fun l => if pls.contains l.pline then { l with wr := false, dirty := [] } else l).filter fun l =>
        !(isHost (l.pline * 128) && pls.contains l.pline) }
  (pls.filter fun p => isHost (p * 128)).foldl (fun s p => (s.evictHalf (2 * p)).evictHalf (2 * p + 1)) s

def execClean (g : Guard) (m : MemF) (d : RegF) (s : State) : Result :=
  .next (s.isa g { srcs := ⟨0, d, .int⟩ :: memSrcs m false } fun u s =>
    let t := s.thread u
    let va := s.ea u m 1
    let len := s.src32 u d
    if len = 0 then (.next, s)
    else if t.vaLim < va + len then (.trap 7 (BitVec.ofNat 64 va) false, s)
    else if s.cleanHeld t.space va len then (.stall, s)
    else (.next, s.cleanRange t.space va len))

/-! PUBLISH, REFRESH, FENCE (R417). -/

def execPublish (g : Guard) (sc : Scope) (s : State) : Result :=
  .next (s.isa g {} fun u s => s.doBoundary u sc .publish)

def execRefresh (g : Guard) (sc : Scope) (s : State) : Result :=
  .next (s.isa g {} fun u s => if s.pending u then (.stall, s) else (.next, s.snapshot u sc))

def execFence (g : Guard) (sc : Scope) (s : State) : Result :=
  .next (s.isa g {} fun u s => if s.writesPending u then (.stall, s) else s.doBoundary u sc .fence)

/-! XFENCE (R418). -/

/-- An access of a thread on a path has not completed. -/
def State.pathBusy (s : State) (u : Nat) (p : Path) : Bool :=
  let t := s.thread u
  let k := s.clusterAt (clusterOf t.id.core)
  match p with
  | .ls => s.core.reqs.any fun r => r.thr == u && r.kind != .alu && r.kind != .acpy && r.st != .done
  | .ac => s.core.acpys.any fun a => a.thr == u
  | .sh => k.shq.any (fun q => q.thr == u) || k.shLate.any fun e => e.1 == (s.thread u).id.crew
  | .mx => t.isCtl && !k.mx.queue.isEmpty
  | .cl => s.plat.nor.ops.any fun (_, o) => o.thr == u && !o.written
  | .bt => s.task.channels.any fun (id, c) => c.thr == u && (c.state == 2 || c.state == 4 || c.work.isSome || s.isHeld (.channel id))

def execXfence (g : Guard) (p1 p2 : Path) (s : State) : Result :=
  .next (s.isa g {} fun u s => if s.pathBusy u p1 then (.stall, s) else (.next, s.xfence u p1 p2))

/-! Watches (R419 to R421). -/

/-- A watch of a thread is armed on the line of an address, once the host has given it back, or, on host memory, once its halves have been
fetched (R419, R112, R126). -/
def State.armWatch (s : State) (u va : Nat) : Flow × State :=
  let t := s.thread u
  match s.place u va 1 0 .r with
  | (.error f, s) => (f, s)
  | (.ok (pa, at_), s) => match s.prepareAt (s.agent t .ls) (va / 128 * 128) (pa / 128 * 128) 128 false at_ with
    | (.wait, s) => (.stall, s)
    | (_, s) =>
      let s := s.disarm u
      let full := decide (512 ≤ s.tableUsed (clusterOf t.id.core))
      (.next, s.modThread u fun t => { t with watch := some ⟨t.space, va / 128, pa / 128, false, full, s.now t⟩ })

def execLinearm (g : Guard) (m : MemF) (ty : MemTy) (_sc : Scope) (s : State) : Result :=
  .next (s.isa g { srcs := memSrcs m false } fun u s =>
    let va := s.ea u m (memSize ty)
    match s.vaCheck u va (memSize ty) with
    | some f => (f, s)
    | none => s.armWatch u va)

/-- The wake reason of a LINEWAIT that began at a cycle, with a timeout (R421). -/
def State.wakeReason (s : State) (t : Thread) (start : Nat) (tmo : Option Nat) : Option Nat :=
  let now := s.now t
  match t.watch with
  | none => some 2
  | some w =>
    if w.fired then some 0
    else if (tmo.map fun n => decide (n ≤ (now + 2 ^ 64 - start) % 2 ^ 64)) == some true then some 1
    else if w.poll && decide (512 ≤ (now + 2 ^ 64 - w.armed) % 2 ^ 64) then some 4
    else none

/-- The operands of a wait that has a timeout: the timeout plus one, the code of d plus one. -/
def execLinewait (g : Guard) (d a : RegF) (s : State) : Result :=
  let srcs : List Src := if a == .vz then [] else [⟨1, a, .int⟩]
  .next (s.isa g { srcs := srcs, dsts := [(d, 1)] } fun u s =>
    let t := s.thread u
    let tmo := if a == .vz then none else some (s.src32 u a)
    match s.wakeReason t (s.now t) tmo with
    | some r => (.next, (s.dst u d (BitVec.ofNat 64 r) .i32).disarm u)
    | none => (.left, s.wait u .line true (match tmo with
        | some n => n + 1
        | none => 0) (codeOf d)))

/-- A waiting LINEWAIT returns with a reason. -/
def State.endLinewait (s : State) (u code reason : Nat) : State :=
  let d : RegF := if h : code < 224 then .gpr ⟨code, h⟩ else if h : 0xE0 ≤ code ∧ code < 0xF0 then .que ⟨code - 0xE0, by omega⟩ else .vz
  let s := ((s.dst u d (BitVec.ofNat 64 reason) .i32).disarm u).flushPushes (clusterOf (s.thread u).id.core) []
  s.modThread u fun t => t.wake (s.now t) t.after

/-- The threads whose LINEWAIT has timed out. -/
def State.timedOut (s : State) : List (Nat × Nat) :=
  s.core.threads.filterMap fun t => match t.run with
    | .waiting w => if w.kind == .line && w.a != 0 && s.wakeReason t w.start (some (w.a - 1)) == some 1 then some (t.uid, w.b) else none
    | _ => none

/-- LINEWAIT_TIMEOUT (R421): a wait whose time has passed returns with reason 1. -/
def execLinewaitTimeout (s : State) : Result :=
  .next (match s.timedOut with
    | [] => s
    | x :: xs => let (y, s) := chooseFrom (x :: xs) x s; s.endLinewait y.1 y.2 1)

end Sys2Proof.Machine
end

