-- ==== Sys2Proof/Machine/Ports.lean ====
section
/-! DEFINITION. The port unit of a cluster: handles, messages, and the firing of join patterns (spec/08 R166 to R177). A port's
key is 256 · cluster + port, a pattern's or template's 64 · cluster + index. -/

namespace Sys2Proof.Machine

/-- The cluster of a die is enabled (R21). -/
def State.clusterOn (s : State) (die cl : Nat) : Bool := decide (cl < 40) && bitOf (s.pkg.die die).umclu cl

/-- The cluster that a handle or a selector names. -/
def namedCluster (h : Nat) : Nat := 40 * (h % 4) + bitsOf h 7 2

/-- The trap of an illegal operand. -/
def State.badOperand (s : State) : Flow := .trap 0x19 s.ext.iword false

/-- The trap of a protection check at issue: TVAL is the operand. -/
def protFault (v : Nat) : Flow := .trap 7 (BitVec.ofNat 64 v) false

/-- A handle of a thread (R167): the port it names, or what stops the instruction. -/
def State.handle (s : State) (u h : Nat) (strict : Bool) : Except Flow (Nat × Port) × State :=
  let t := s.thread u
  if offHome s (h % 4) then (.error .left, s.offlineFault u (h % 4) h 0)
  else if !s.clusterOn (h % 4) (bitsOf h 7 2) then (.error s.badOperand, s)
  else
    let p := 256 * namedCluster h + bitsOf h 15 8
    let q := s.task.ports.getD Port.reset p
    if !q.open_ || q.gen != h / 2 ^ 16 % 2 ^ 16 then (.error s.badOperand, s)
    else if (q.asid == t.id.asid && q.fn == t.id.fn) || (!strict && q.share && q.fn == t.id.fn) then (.ok (p, q), s)
    else (.error (protFault h), s)

/-- A selector of a thread (R171): the key it names. -/
def State.selector (s : State) (u v : Nat) : Except Flow Nat × State :=
  if v / 2 ^ 14 != 0 then (.error s.badOperand, s)
  else if offHome s (v % 4) then (.error .left, s.offlineFault u (v % 4) v 0)
  else if !s.clusterOn (v % 4) (bitsOf v 7 2) then (.error s.badOperand, s)
  else (.ok (64 * namedCluster v + bitsOf v 13 8), s)

/-! Events of the port unit (R170). -/

/-- A message is accepted by a port. -/
def State.putMessage (s : State) (p : Nat) (msg : List Byte) : State :=
  match s.task.ports.find p with
  | none => s
  | some q => s.onTask fun k => { k with ports := k.ports.put p { q with queue := q.queue ++ [msg] } }

/-- The oldest waiting sender's message is admitted where a port has room (R184); a sender that is swapped out waits (R165). -/
def State.admitSender (s : State) (p : Nat) : State :=
  match s.task.ports.find p with
  | none => s
  | some q => match q.sendq.find? fun e => s.resident (s.thread e.1) with
    | none => s
    | some (u, msg) =>
      if q.depth ≤ q.queue.length then s
      else
        let rest := q.sendq.filter fun e => e.1 != u
        let s := s.onTask fun k => { k with ports := k.ports.put p { q with queue := q.queue ++ [msg], sendq := rest } }
        s.markWaiters 1 fun t _ => t.uid == u

/-- The head of a port is removed. -/
def State.takeMessage (s : State) (p : Nat) : State :=
  match s.task.ports.find p with
  | none => s
  | some q => s.onTask fun k => { k with ports := k.ports.put p { q with queue := q.queue.tail } }

/-! Firing (R175 to R177). -/

/-- A pattern's port holds a message. -/
def State.portReady (s : State) (e : Nat × Nat) : Bool :=
  let q := s.task.ports.getD Port.reset e.1
  q.open_ && q.gen == e.2 && !q.queue.isEmpty

/-- An entry is satisfiable (R175). -/
def State.satisfiable (s : State) (e : Pattern) : Bool :=
  e.armed && !e.brk && e.ports.all s.portReady && e.busy != BitVec.allOnes 16 && s.slotRoom e.fn && s.journalRoom e.fn &&
    s.plat.power.st != .shutdown

/-- The satisfiable entries of a cluster. -/
def State.fireable (s : State) (cluster : Nat) : List (Nat × Pattern) :=
  s.task.patterns.filter fun e => e.1 / 64 == cluster && s.satisfiable e.2

/-- The port unit has a firing to complete before its next event (R170). -/
def State.unitBusy (s : State) (cluster : Nat) : Bool := (s.clusterAt cluster).firing.isSome

/-- The entry that the port unit takes next: the one whose firing waits, else highest PRIO, then first from S on (R177). -/
def State.nextFiring (s : State) (cluster : Nat) : Option (Nat × Pattern) :=
  let l := (s.fireable cluster).filter fun e => (s.clusterAt cluster).firing.all (· == e.1)
  let top := (l.map fun e => e.2.prio).foldl Nat.max 0
  let st := (s.clusterAt cluster).start
  let far (e : Nat × Pattern) : Nat := (e.1 % 64 + 64 - st) % 64
  (l.filter fun e => e.2.prio == top).foldl (fun (b : Option (Nat × Pattern)) e => match b with
    | none => some e
    | some x => if far e < far x then some e else b) none

/-- An entry that cannot fire becomes broken, and its function's journal says so (R176). -/
def State.breakFiring (s : State) (i : Nat) (e : Pattern) (cause blk : Nat) : State :=
  let s := s.onTask fun k => { k with patterns := k.patterns.put i { e with brk := true } }
  s.journal e.fn ⟨0, []⟩ ⟨4, cause, 0, 0xFFFF, blk, i / 2560, false, 0⟩

/-- The first free block of an entry from its cursor on. -/
def Pattern.block (e : Pattern) : Nat :=
  (((rangeFrom 0 16).map fun k => (e.cursor + k) % 16).find? fun k => !e.busy.getLsbD k).getD 0

/-- The bytes of a ring block (R176). -/
def State.blockBytes (s : State) (e : Pattern) : List Byte :=
  let msg (p : Nat × Nat) : List Byte := (s.task.ports.getD Port.reset p.1).queue.headD []
  let b := (e.ports.map msg).flatten
  b ++ List.replicate (256 - b.length) 0

/-- The home's checks of the two lines of a ring block: what stops the write, if anything. -/
def State.ringCheck (s : State) (ag : Agent) (blk : Nat) : Except (Option Nat) (List (Nat × Nat × Attr)) × State :=
  [blk, blk + 128].foldl (fun (acc : Except (Option Nat) (List (Nat × Nat × Attr)) × State) va => match acc.1 with
    | .error _ => acc
    | .ok l =>
      if 2 ^ 48 ≤ va then (.error (some 7), acc.2)
      else match acc.2.writeCheck ag va 128 with
        | (.ok pa at_, s) => (.ok (l ++ [(va, pa, at_)]), s)
        | (.drop pa, s) => (.ok l, s.dropWrite pa)
        | (.fault c _, s) => (.error (some c), s)
        | (.offline _, s) => (.error (some 0x0C), s)
        | (.wait, s) => (.error none, s)) (.ok [], s)

/-- FIRE (R176). Where the host still owns a line of the block the firing waits. -/
def State.fire1 (s : State) (i : Nat) (e : Pattern) : State :=
  let cluster := i / 64
  let core := cluster * 5 + 4
  let k := e.block
  let blk := e.ring + 256 * k
  match s.task.tmpls.find (64 * cluster + e.tmpl) with
  | none => s.breakFiring i e 0x19 blk
  | some tm =>
    if s.recordBad tm.fn tm.rec_ 7 then s.breakFiring i e 0x19 blk
    else
      let ag := Agent.dev ⟨core, .asid e.asid, 0⟩ e.fn e.lvl
      match s.ringCheck ag blk with
      | (.error none, s) => s
      | (.error (some c), s) => s.breakFiring i e c blk
      | (.ok l, s) =>
        let bs := s.blockBytes e
        let (id, s) := s.release ⟨0, []⟩ .dev core
        let s := l.foldl (fun (s : State) (va, pa, at_) =>
          let w : Wr := { Wr.base with seq := s.mem.seq, pubs := [id], core := core }
          let s := s.homeWrite w ag.dom.space (homeIn s ag.dom.space core va) va pa at_ false ((bs.drop (va - blk)).take 128) false
          s.onMem fun m => { m with seq := m.seq + 1 }) s
        let s := e.ports.foldl (fun (s : State) p => s.takeMessage p.1) s
        let e' := { e with busy := BitVec.ofNat 16 (setBits e.busy.toNat k k 1), cursor := (k + 1) % 16 }
        let s := s.onTask fun x => { x with patterns := x.patterns.put i e' }
        let s := s.modCluster cluster fun c => { c with start := (i % 64 + 1) % 64 }
        let s := s.accept {
          slot := 0, rec_ := { tm.rec_ with args := blk }, fn := tm.fn, queue := none, lq := 0xFFFF, launch := 0,
          die := cluster / 40, lvl := tm.lvl, asid := tm.asid, exkm := false, exkv := 0, st := .waiting, edges := [],
          popped := false, handler := some (i, k), binds := [] }
        e.ports.foldl (fun (s : State) p => s.admitSender p.1) s

/-- The port unit has completed its firings, and takes the breaks that waited for that. -/
def State.unitFree (s : State) (cluster : Nat) : State :=
  let l := (s.clusterAt cluster).breaks
  l.foldl State.breakPort (s.modCluster cluster fun k => { k with firing := none, breaks := [] })

/-- Every firing that is possible is completed (R170, R177). One that waits for the host's copy of a line of its ring holds the port unit: no event
is taken before it is made. -/
def State.settlePorts (s : State) (cluster : Nat) : Nat → State
  | 0 => s
  | n + 1 => match s.nextFiring cluster with
    | none => if s.unitBusy cluster then s.unitFree cluster else s
    | some (i, e) =>
      let s' := s.fire1 i e
      let waits := s'.task.patterns.find i == some e
      let s' := if waits != s'.unitBusy cluster then s'.modCluster cluster fun k => { k with firing := if waits then some i else none } else s'
      if waits then s' else State.settlePorts (if (s'.clusterAt cluster).breaks.isEmpty || (s'.nextFiring cluster).isSome then s' else s'.unitFree cluster) cluster n

/-- How many firings a cluster's ports could still allow. -/
def State.portFuel (s : State) (cluster : Nat) : Nat :=
  s.task.patterns.length + 1 + ((s.task.ports.filter fun e => e.1 / 256 == cluster).map fun e => e.2.queue.length + e.2.sendq.length).foldl (· + ·) 0

/-- A port has room for the message of a resident sender that waits (R184, R165). -/
def State.admits (s : State) (q : Port) : Bool := decide (q.queue.length < q.depth) && q.sendq.any fun e => s.resident (s.thread e.1)

/-- An event of the port unit and all that it makes possible. -/
def State.portEvent (s : State) (cluster : Nat) : State :=
  let s := if s.unitBusy cluster then s
    else (s.task.ports.filter fun e => e.1 / 256 == cluster && s.admits e.2).foldl (fun (s : State) e => s.admitSender e.1) s
  s.settlePorts cluster (s.portFuel cluster)

/-- The clusters whose port unit has something to do. -/
def State.portClusters (s : State) : List Nat :=
  let fires := (s.task.patterns.filter fun e => s.satisfiable e.2).map fun e => e.1 / 64
  let rooms := (s.task.ports.filter fun e => s.admits e.2).map fun e => e.1 / 256
  let waits := (s.core.clusters.filter fun e => e.2.firing.isSome).map fun e => e.1
  (fires ++ rooms ++ waits).eraseDups

/-- PORT_UNIT_EVENT (R170): a slot, journal room or a ring block has become free; the firings that this makes possible are
made. -/
def execPortUnitEvent (s : State) : Host.Outcome State Fault Refusal :=
  .next (match s.portClusters with
    | [] => s
    | c :: cs => let (k, s) := chooseFrom (c :: cs) c s; s.portEvent k)

end Sys2Proof.Machine
end

