-- ==== Sys2Proof/Machine/SyncFam.lean ====
section
/-! DEFINITION. Synchronisation instructions: majors 0x1A and 0x1B (spec/08 R166 to R189; spec/19 R423). -/

namespace Sys2Proof.Machine

/-! Barriers (R178 to R180). A barrier's key is 32 · context + number. -/

def barKey (t : Thread) (n : Nat) : Nat := 32 * t.id.ctx + n

def State.barrier (s : State) (t : Thread) (n : Nat) : Barrier := s.core.barriers.getD Barrier.reset (barKey t n)

def State.setBarrier (s : State) (t : Thread) (n : Nat) (b : Barrier) : State :=
  s.onCore fun k => { k with barriers := k.barriers.put (barKey t n) b }

/-- Another ASID owns the barrier. -/
def Barrier.foreign (b : Barrier) (t : Thread) : Bool := b.init && (b.owner != t.id.asid || b.ownerFn != t.id.fn)

/-- The checks that a use of a barrier makes (R178): owner, then initialised. -/
def State.barCheck (s : State) (u n v : Nat) : Option Flow :=
  let t := s.thread u
  let b := s.barrier t n
  if b.foreign t then some (protFault v) else if !b.init then some s.badOperand else none

/-- Some thread waits on the barrier. -/
def State.barWaiter (s : State) (key : Nat) : Bool :=
  s.core.threads.any fun t => match t.run with
    | .waiting w => w.kind.atBarrier && w.a == key && t.mark == some 0
    | _ => false

def execBarinit (g : Guard) (n : Fin 32) (a : RegF) (bk : PredF) (s : State) : Result :=
  .next (s.isa g { ctl := false, srcs := [⟨1, a, .int⟩] } fun u s =>
    let t := s.thread u
    let b := s.barrier t n.val
    let e := s.src32 u a
    let idle := b.arrived == 0 && !s.barWaiter (barKey t n.val)
    if b.foreign t then (protFault n.val, s)
    else if e = 0 || decide (2048 < e) then (s.badOperand, s)
    else if !b.init then
      (.next, (s.setBarrier t n.val ⟨t.id.asid, t.id.fn, true, false, e, 0, 0, 0, [t.id.crew], []⟩).statusOk u bk)
    else if b.brk then
      let b := { b with brk := false, arrived := 0, drops := 0, expect := e, phase := (b.phase + 2) % 2 ^ 16, parts := [t.id.crew] }
      (.next, (s.setBarrier t n.val b).statusOk u bk)
    else if idle then (.next, (s.setBarrier t n.val { b with expect := e, parts := [t.id.crew] }).statusOk u bk)
    else (s.badOperand, s))

def execBarinitFree (g : Guard) (n : Fin 32) (bk : PredF) (s : State) : Result :=
  .next (s.isa g { ctl := false } fun u s =>
    let t := s.thread u
    let b := s.barrier t n.val
    if b.foreign t then (protFault n.val, s)
    else if b.init && (b.brk || (b.arrived == 0 && !s.barWaiter (barKey t n.val))) then
      (.next, (s.onCore fun k => { k with barriers := k.barriers.del (barKey t n.val) }).statusOk u bk)
    else (s.badOperand, s))

/-- One arrival of BARRIER_STEP (R179): the phase it counts toward. -/
def State.barrierStep (s : State) (u n : Nat) (drop : Bool) : Nat × State :=
  let t := s.thread u
  let b := s.barrier t n
  let ph := b.phase
  let b := { b with arrived := b.arrived + 1, drops := b.drops + drop.toNat, parts := setIns b.parts t.id.crew }
  if b.arrived = b.expect then
    let b := { b with phase := (ph + 1) % 2 ^ 16, arrived := 0, expect := b.expect - b.drops, drops := 0 }
    (ph, (s.setBarrier t n b).markWaiters 1 fun _ w => w.kind.atBarrier && w.a == barKey t n)
  else (ph, s.setBarrier t n b)

/-- The barrier and the kind of an arrival that a word makes. -/
def arrivalOf (w : Word) : Option (Nat × Bool) :=
  match decode w with
  | .ok (.arrive _ _ n _) => some (n.val, false)
  | .ok (.arrdrop _ _ n _) => some (n.val, true)
  | .ok (.bsync _ n _) => some (n.val, false)
  | _ => none

/-- The arrival that a group's next instruction makes. -/
def Group.arrival (g : Group) : Option (Nat × Bool) := ((g.clause.drop 1)[g.pos.i]?).bind arrivalOf

/-- Another group of the core is about to arrive at a barrier, so that the barrier may receive its arrivals and the present group's in one cycle (R179). -/
def State.coArrives (s : State) (core n : Nat) : Bool :=
  s.core.groups.any fun g => g.core == core && s.ext.cur.all (fun c => !g.members.any c.members.contains) && (g.arrival.map (·.1)) == some n

/-- The arrivals on their way to a barrier that still stand: their threads are at the instruction that made them. -/
def State.arriving (s : State) (core n : Nat) (b : Barrier) : List (Nat × Bool) :=
  b.pend.filter fun e => s.core.groups.any fun g => g.core == core && g.members.contains e.1 && g.arrival == some (n, e.2)

/-- An arrival that its checks let through at issue. -/
def State.arrivalOk (s : State) (n : Nat) (u : Nat) : Bool :=
  let b := s.barrier (s.thread u) n
  (s.thread u).mark == none && (s.barCheck u n n).isNone && !b.brk && b.expect != 0 && (s.crew? (s.thread u).id.crew).all fun c => c.copy != 1

/-- BARRIER_STEP for the arrivals of several instructions (R179): every ARRDROP first, then the rest, lane order within each. A mark tells each
thread its phase (4 + phase), or that the barrier expected none (3). -/
def State.stepAll (s : State) (n : Nat) (xs : List (Nat × Bool)) : State :=
  let byLane (l : List (Nat × Bool)) : List (Nat × Bool) := (rangeFrom 0 32).flatMap fun k => l.filter fun e => (s.thread e.1).id.lane == k
  (byLane (xs.filter (·.2)) ++ byLane (xs.filter (!·.2))).foldl (fun (s : State) e =>
    if (s.barrier (s.thread e.1) n).expect = 0 then s.modThread e.1 fun t => { t with mark := some 3 }
    else
      let (ph, s) := s.barrierStep e.1 n e.2
      s.modThread e.1 fun t => { t with mark := some (4 + ph) }) s

/-- Whether the arrivals of an instruction are on their way while those of another one issue, and reach the barrier in one cycle with them, is free
(DESIGN CHOICE, log 138). -/
def State.meetArrivals (n : Nat) (drop : Bool) (us : List Nat) (s : State) : List Nat × State :=
  match us with
  | [] => (us, s)
  | u0 :: _ =>
    let t := s.thread u0
    let b := s.barrier t n
    let co := s.coArrives t.id.core n
    if !co && b.pend.isEmpty then (us, s)
    else
      let on := s.arriving t.id.core n b
      let mine := (us.filter fun u => s.arrivalOk n u && !on.any (·.1 == u)).map fun u => (u, drop)
      let (late, s) := if co then chooseBool s else (false, s)
      let set (l : List (Nat × Bool)) (s : State) : State := s.setBarrier t n { s.barrier t n with pend := l }
      if late then (us, set (on ++ mine) s)
      else if on.isEmpty then (us, set [] s)
      else (us, (set [] s).stepAll n (on ++ mine))

/-- The arrival of ARRIVE, ARRDROP and BSYNC with its checks; `f` goes on with the phase. -/
def State.arrival (s : State) (u n : Nat) (drop : Bool) (bk : PredF) (f : Nat → State → Flow × State) : Flow × State :=
  match (s.thread u).mark with
  | some 3 => (s.badOperand, s.unmark u)
  | some (ph + 4) => f ph (s.unmark u)
  | _ => match s.barCheck u n n with
    | some fl => (fl, s)
    | none =>
      let b := s.barrier (s.thread u) n
      if b.brk then s.brokenStatus u bk 0
      else if b.expect = 0 then (s.badOperand, s)
      else if b.pend.any (·.1 == u) then (.stall, s)
      else
        let (ph, s) := s.barrierStep u n drop
        f ph s

/-- ARRIVE and ARRDROP. -/
def State.arriveOp (s : State) (g : Guard) (d : RegF) (n : Fin 32) (drop : Bool) (bk : PredF) : State :=
  s.isaAll g { ctl := false, dsts := [(d, 1)], primary := true } (State.meetArrivals n.val drop) (fun _ u s =>
    s.arrival u n.val drop bk fun ph s => (.next, (s.dst u d (BitVec.ofNat 64 (ph * 2 ^ 16 + n.val)) .i32).statusOk u bk)) fun _ s => (.next, s)

def execArrive (g : Guard) (d : RegF) (n : Fin 32) (bk : PredF) (s : State) : Result := .next (s.arriveOp g d n false bk)
def execArrdrop (g : Guard) (d : RegF) (n : Fin 32) (bk : PredF) (s : State) : Result := .next (s.arriveOp g d n true bk)

/-- A marked wait at a barrier goes on: over, broken, or it still waits. -/
def State.barResume (s : State) (u : Nat) (k : WaitKind) (key : Nat) (bk : PredF) (v : Word) : Option (Flow × State) :=
  match (s.thread u).mark with
  | none => none
  | some 0 => some (.left, s.waitMark u k true key 0)
  | some 1 => some (.next, (s.unmark u).statusOk u bk)
  | some _ => some ((s.unmark u).brokenStatus u bk v)

def execBwait (g : Guard) (p : PredF) (a : RegF) (bk : PredF) (s : State) : Result :=
  .next (s.isa g { ctl := false, srcs := [⟨1, a, .int⟩] } fun u s =>
    let t := s.thread u
    let tok := s.src32 u a
    let n := tok % 32
    match s.barResume u .bwait (barKey t n) bk (BitVec.ofNat 64 tok) with
    | some (.next, s) => (.next, if t.mark == some 1 then s.pset u p.val false else s)
    | some r => r
    | none =>
      if bitsOf tok 15 5 != 0 then (s.badOperand, s)
      else match s.barCheck u n tok with
        | some fl => (fl, s)
        | none =>
          let b := s.barrier t n
          if b.brk then s.brokenStatus u bk (BitVec.ofNat 64 tok)
          else
            let δ := (b.phase + 2 ^ 16 - bitsOf tok 31 16) % 2 ^ 16
            if δ = 0 then (.left, s.waitMark u .bwait true (barKey t n) 0)
            else (.next, (s.statusOk u bk).pset u p.val (decide (2 ≤ δ))))

def execBpwait (g : Guard) (n : Fin 32) (q : Bool) (bk : PredF) (s : State) : Result :=
  .next (s.isa g { ctl := false } fun u s =>
    let t := s.thread u
    match s.barResume u .bpwait (barKey t n.val) bk 0 with
    | some r => r
    | none => match s.barCheck u n.val n.val with
      | some fl => (fl, s)
      | none =>
        let b := s.barrier t n.val
        if b.brk then s.brokenStatus u bk 0
        else if b.phase % 2 != q.toNat then (.next, s.statusOk u bk)
        else (.left, s.waitMark u .bpwait true (barKey t n.val) 0))

def execBsync (g : Guard) (n : Fin 32) (bk : PredF) (s : State) : Result :=
  .next (s.isaAll g { ctl := false, primary := true } (State.meetArrivals n.val false) (fun _ u s =>
    let t := s.thread u
    match if t.mark.all (· < 3) then s.barResume u .bsync (barKey t n.val) bk 0 else none with
    | some r => r
    | none => s.arrival u n.val false bk fun ph s =>
      if (s.barrier t n.val).phase != ph then (.next, s.statusOk u bk)
      else (.left, s.waitMark u .bsync true (barKey t n.val) 0)) fun _ s => (.next, s))

/-! Futures (R181, R182). -/

/-- A future at its home: where it is, its value and state word, and what the newest writes there carry. -/
structure FutAt where
  pa    : Nat
  at_   : Attr
  value : Nat
  word  : Nat
  pubs  : List Nat
  down  : Bool
deriving DecidableEq, Repr

/-- The access of a future instruction (R423): its checks, that of R248 among them, then the 16 bytes as its home slice finds them; an acquire reads them
as a strong load does, the others read the newest. While the host's port is down a future in host memory gives nothing, and is written
nowhere, without a fault (R127); nor does a poisoned one give a value to FGET (R290). -/
def State.future (s : State) (u va : Nat) (sc : Scope) (a : Acc) : Except Flow FutAt × State :=
  let t := s.thread u
  let ag := s.agent t .ls
  if s.inFlight u va 16 then (.error .stall, s)
  else match s.place u va 16 2 a with
  | (.error f, s) => (.error f, s)
  | (.ok (pa, at_), s) => match s.strongOwn u va 16 2 with
    | (some f, s) => (.error f, s)
    | (none, s) => match s.prepareAt ag va pa 16 (a == .w) at_ with
      | (.wait, s) => (.error .stall, s)
      | (rd, s) =>
        let home := homeIn s t.space t.id.core va
        if rd == .down then (.ok ⟨pa, at_, 0, 0, [], true⟩, s)
        else if s.mixed t.id.fn home.1 pa 16 then (.error (.trap 0x0A (BitVec.ofNat 64 va) false), s)
        else
        let s := (s.noteStrong home.1 pa 16).readNames ag home va pa at_
        if s.mem.poisoned pa 16 then
          if a == .r then (.ok ⟨pa, at_, 0, 0, [], true⟩, s) else let (f, s) := s.poisonAt u va; (.error f, s)
        else
          let tops := (rangeFrom pa 16).map fun x => ((s.mem.versions x).headD (memDefault, Wr.base)).2
          let pubs := tops.foldl (fun p w => setUnion p w.pubs) []
          let (bs, s) := if a == .r then s.readHome ag (some sc) va pa 16 else (s.mem.read pa 16, s)
          let w := ofBytesLE (bs.drop 8)
          if bitsOf w 61 48 != 0 then (.error s.badOperand, s)
          else (.ok ⟨pa, at_, ofBytesLE (bs.take 8), w, pubs, false⟩, s)

/-- What a waiter of a future has read when it wakes: the releases that its newest write carries. -/
def State.waitersRead (s : State) (pa : Nat) (pubs : List Nat) : State :=
  s.onCore fun k => { k with threads := k.threads.map fun t => match t.run with
    | .waiting w => if w.kind == .fget && t.mark == some 0 && s.futurePa t w.a == some pa then { t with seen := { t.seen with pubs := setUnion t.seen.pubs pubs } }
      else t
    | _ => t }

/-- A future takes a value and a state word; one that becomes full or broken wakes its waiters (R182, R185). -/
def State.putFuture (s : State) (u va : Nat) (sc : Scope) (f : FutAt) (pubs : List Nat) (v w : Nat) : State :=
  let ag := s.agent (s.thread u) .ls
  let bs := bytesLE 8 v ++ bytesLE 8 w
  let pubs := setUnion f.pubs pubs
  let s := (s.strongWrite ag sc pubs (homeIn s ag.dom.space ag.dom.core va) va f.pa f.at_ false bs false).fold u va bs
  match bitsOf w 63 62 with
  | 2 => (s.waitersRead f.pa pubs).wakeFuture f.pa (v + 4)
  | 3 => s.wakeFuture f.pa 2
  | _ => s

def execFget (g : Guard) (d a : RegF) (sc : Scope) (bk : PredF) (s : State) : Result :=
  .next (s.isa g { ctl := false, srcs := [⟨1, a, .addr⟩], dsts := [(d, 2)], primary := true } fun u s =>
    let va := (s.src64 u a).toNat
    let got (n : Nat) (s : State) : Flow × State :=
      (.next, ((s.snapshot u sc).dst64 u d (BitVec.ofNat 64 n) .w64lo .w64hi).statusOk u bk)
    match (s.thread u).mark with
    | some 2 => (s.unmark u).brokenStatus u bk (BitVec.ofNat 64 va)
    | some (n + 4) => got n (s.unmark u)
    | _ => match s.vaCheck u va 16 with
      | some f => (f, s)
      | none =>
        if s.pending u then (.stall, s)
        else match s.future u va sc .r with
          | (.error f, s) => (f, s)
          | (.ok f, s) =>
            if f.down then
              (.next, (((s.unmark u).snapshot u sc).dstPoison u d 2).statusOk u bk)
            else match bitsOf f.word 63 62 with
            | 2 => got f.value (s.unmark u)
            | 3 => (s.unmark u).brokenStatus u bk (BitVec.ofNat 64 va)
            | _ => (.left, s.waitMark u .fget true va (scopeCode sc)))

def execFput (g : Guard) (a b : RegF) (sc : Scope) (bk : PredF) (s : State) : Result :=
  .next (s.isa g { ctl := false, srcs := [⟨1, a, .addr⟩, ⟨2, b, .i64⟩], primary := true, bnd := some (sc, .fput) } fun u s =>
    let t := s.thread u
    let va := (s.src64 u a).toNat
    match s.vaCheck u va 16 with
    | some f => (f, s)
    | none => match s.future u va sc .w with
      | (.error f, s) => (f, s)
      | (.ok f, s) =>
        let st := bitsOf f.word 63 62
        let mine := bitsOf f.word 47 0 == t.ltid.toNat % 2 ^ 48
        if f.down then match s.doBoundary u sc .fput with
          | (.next, s) => (.next, (s.dropWrite f.pa).statusOk u bk)
          | r => r
        else if st = 3 then s.brokenStatus u bk (BitVec.ofNat 64 va)
        else if st = 2 || (st = 1 && !mine) then (s.badOperand, s)
        else match s.doBoundary u sc .fput with
          | (.next, s) =>
            let s := s.putFuture u va sc f (s.lastBnd u) (s.src64 u b).toNat (setBits f.word 63 62 2)
            let s := s.modCrew t.id.crew fun c => { c with claims := c.claims.filter (· != (t.space, va)) }
            (.next, s.statusOk u bk)
          | r => r)

def execFclaim (g : Guard) (p : PredF) (a : RegF) (sc : Scope) (bk : PredF) (s : State) : Result :=
  .next (s.isa g { ctl := false, srcs := [⟨1, a, .addr⟩], primary := true } fun u s =>
    let t := s.thread u
    let va := (s.src64 u a).toNat
    match s.vaCheck u va 16 with
    | some f => (f, s)
    | none => match s.future u va sc .w with
      | (.error f, s) => (f, s)
      | (.ok f, s) =>
        let held := match s.crew? t.id.crew with
          | some c => c.claims.length
          | none => 0
        if 16 ≤ held then (s.badOperand, s)
        else if f.down then
          let (b, s) := chooseBool (s.dropWrite f.pa)
          (.next, (s.statusOk u bk).pset u p.val b)
        else match bitsOf f.word 63 62 with
          | 3 => s.brokenStatus u bk (BitVec.ofNat 64 va)
          | 0 =>
            let w := 2 ^ 62 + t.ltid.toNat % 2 ^ 48
            let s := s.putFuture u va sc f [] f.value w
            let s := s.modCrew t.id.crew fun c => { c with claims := c.claims ++ [(t.space, va)] }
            (.next, (s.statusOk u bk).pset u p.val true)
          | _ => (.next, (s.statusOk u bk).pset u p.val false))

/-! SEND (R169, R184). -/

/-- The 32 bytes of a message: registers b to b + 7. -/
def State.message (s : State) (u : Nat) (b : RegF) : List Byte :=
  match b with
  | .gpr n => ((rangeFrom n.val 8).map fun r => bytesLE 4 ((s.thread u).reg r).val.toNat).flatten
  | _ => List.replicate 32 0

/-- The port unit examines the port for one message. -/
def State.sendTo (s : State) (u h : Nat) (e : Nat × Port) (mode : SendMode) (p bk : PredF) (msg : List Byte) : Flow × State :=
  let test (b : Bool) (s : State) : State := if mode == .test then s.pset u p.val b else s
  if e.2.brk then
    match s.brokenStatus u bk (BitVec.ofNat 64 h) with
    | (.next, s) => (.next, test false s)
    | r => r
  else if e.2.queue.length < e.2.depth then
    (.next, test true (((s.putMessage e.1 msg).portEvent (e.1 / 256)).statusOk u bk))
  else match mode with
    | .plain => (.trap 0x0D (BitVec.ofNat 64 h) false, s)
    | .test => (.next, test false (s.statusOk u bk))
    | .wait =>
      let s := s.onTask fun k => { k with ports := k.ports.put e.1 { e.2 with sendq := e.2.sendq ++ [(u, msg)] } }
      (.left, s.waitMark u .send true e.1 0)

def execSend (g : Guard) (mode : SendMode) (p : PredF) (a b : RegF) (bk : PredF) (s : State) : Result :=
  .next (s.isa g { ctl := false, srcs := [⟨1, a, .int⟩, ⟨2, b, .oct⟩], primary := true, bnd := some (.dev, .send), inOrder := true } fun u s =>
    let h := s.src32 u a
    match (s.thread u).mark with
    | some 0 => (.left, s.waitMark u .send true (256 * namedCluster h + bitsOf h 15 8) 0)
    | some 1 => (.next, (s.unmark u).statusOk u bk)
    | some _ => (s.unmark u).brokenStatus u bk (BitVec.ofNat 64 h)
    | none => match s.handle u h false with
      | (.error f, s) => (f, s)
      | (.ok e, s) => if s.unitBusy (e.1 / 256) then (.stall, s) else match s.doBoundary u .dev .send with
        | (.next, s) => s.sendTo u h (e.1, s.task.ports.getD Port.reset e.1) mode p bk (s.message u b)
        | r => r)

/-! PORTCFG (R168). -/

def execPortcfgOpen (g : Guard) (d a : RegF) (bk : PredF) (s : State) : Result :=
  .next (s.isa g { ctl := false, srcs := [⟨1, a, .addr⟩], dsts := [(d, 1)], primary := true } fun u s =>
    let t := s.thread u
    let va := (s.src64 u a).toNat
    match s.vaCheck u va 16 with
    | some f => (f, s)
    | none => match s.readPlain (s.agent t .ls) va 16 with
      | (.ok bs, s) =>
        let v := ofBytesLE bs
        let sel := v % 2 ^ 16
        let depth := bitsOf v 23 16
        let key := 256 * namedCluster sel + bitsOf sel 15 8
        let q := s.task.ports.getD Port.reset key
        if v / 2 ^ 25 != 0 || depth = 0 || decide (4 < depth) then (s.badOperand, s)
        else if offHome s (sel % 4) then (.left, s.offlineFault u (sel % 4) sel 0)
        else if !s.clusterOn (sel % 4) (bitsOf sel 7 2) || q.open_ then (s.badOperand, s)
        else
          let gen := q.gen % 0xFFFF + 1
          let s := s.onTask fun k => { k with ports := k.ports.put key ⟨true, gen, t.id.asid, t.id.fn, depth, bitOf v 24, [], [], false, []⟩ }
          (.next, (s.dst u d (BitVec.ofNat 64 (gen * 2 ^ 16 + sel)) .b32).statusOk u bk)
      | (.down, s) => (.next, (s.dstPoison u d 1).statusOk u bk)
      | (r, s) => s.readStop u 0 r)

def execPortcfgReg (g : Guard) (a : RegF) (bk : PredF) (s : State) : Result :=
  .next (s.isa g { ctl := false, srcs := [⟨1, a, .int⟩], primary := true } fun u s =>
    let c := (s.thread u).id.crew
    let h := s.src32 u a
    match s.handle u h false with
    | (.error f, s) => (f, s)
    | (.ok (p, q), s) =>
      if q.brk then s.brokenStatus u bk (BitVec.ofNat 64 h)
      else if q.prods.contains c then (.next, s.statusOk u bk)
      else if 4 ≤ q.prods.length then (s.badOperand, s)
      else (.next, (s.onTask fun k => { k with ports := k.ports.put p { q with prods := setIns q.prods c } }).statusOk u bk))

def execPortcfgClose (g : Guard) (a : RegF) (bk : PredF) (s : State) : Result :=
  .next (s.isa g { ctl := false, srcs := [⟨1, a, .int⟩], primary := true } fun u s =>
    match s.handle u (s.src32 u a) true with
    | (.error f, s) => (f, s)
    | (.ok (p, q), s) =>
      if s.task.patterns.any fun e => e.2.armed && e.2.ports.contains (p, q.gen) then (s.badOperand, s)
      else if s.unitBusy (p / 256) then (.stall, s)
      else
        let s := s.endSenders p
        (.next, (s.onTask fun k => { k with ports := k.ports.put p { Port.reset with gen := q.gen } }).statusOk u bk))

/-! PATSET and PATARM (R172 to R174). -/

/-- The ports that the handles of a pattern image name, none where a handle may not be used (R172). -/
def State.patPorts (s : State) (cluster : Nat) (hs : List Nat) : Option (List (Nat × Nat)) :=
  hs.foldr (fun h (acc : Option (List (Nat × Nat))) =>
    let p := 256 * namedCluster h + bitsOf h 15 8
    let q := s.task.ports.getD Port.reset p
    match acc with
    | none => none
    | some l =>
      if namedCluster h != cluster || !s.clusterOn (h % 4) (bitsOf h 7 2) || !q.open_ || q.gen != h / 2 ^ 16 % 2 ^ 16 || q.brk || l.contains (p, q.gen) then none
      else some ((p, q.gen) :: l)) (some [])

/-- A pattern entry takes a checked image. -/
def State.patSet (s : State) (u key : Nat) (img : List Byte) : Flow × State :=
  let t := s.thread u
  let f (o n : Nat) : Nat := ofBytesLE ((img.drop o).take n)
  let cluster := key / 64
  let n := f 0x20 1
  let hs := (rangeFrom 0 8).map fun j => f (4 * j) 4
  let armed := match s.task.patterns.find key with
    | some e => e.armed
    | none => false
  if n = 0 || decide (8 < n) || decide (7 < f 0x21 1) || f 0x23 5 != 0 || f 0x30 16 != 0 || (hs.drop n).any (· != 0) ||
      f 0x28 8 % 4096 != 0 || armed then (s.badOperand, s)
  else match s.patPorts cluster (hs.take n), s.task.tmpls.find (64 * cluster + f 0x22 1), decide (f 0x22 1 < 64) with
    | some ps, some tm, true =>
      let own (a fn : Nat) : Bool := a == t.id.asid && fn == t.id.fn
      let portOwn (p : Nat × Nat) : Bool := let q := s.task.ports.getD Port.reset p.1; own q.asid q.fn
      let entryOwn := match s.task.patterns.find key with
        | some e => own e.asid e.fn
        | none => true
      if !entryOwn || !own tm.asid tm.fn || !ps.all portOwn then (protFault 0, s)
      else
        let e : Pattern := ⟨t.id.asid, t.id.fn, t.lvl, false, false, ps, f 0x21 1, f 0x22 1, f 0x28 8, 0, 0⟩
        let forget (x : Nat × TaskSlot) : Nat × TaskSlot :=
          if (x.2.handler.map (·.1)) == some key then (x.1, { x.2 with handler := none }) else x
        (.next, s.onTask fun k => { k with patterns := k.patterns.put key e, slots := k.slots.map forget })
    | _, _, _ => (s.badOperand, s)

/-- A handler template takes a checked record (R173). -/
def State.tmplSet (s : State) (u key : Nat) (img : List Byte) : Flow × State :=
  let t := s.thread u
  let r := TaskRec.ofBytes img
  let armed := s.task.patterns.any fun e => e.2.armed && e.1 / 64 == key / 64 && e.2.tmpl == key % 64
  if r.args != 0 || r.rbase != 0 || r.wbase != 0 || r.rlen != 0 || r.wlen != 0 || s.ctrlBad t.id.fn r 7 || armed then (s.badOperand, s)
  else
    let own := match s.task.tmpls.find key with
      | some e => e.asid == t.id.asid && e.fn == t.id.fn
      | none => true
    if own then (.next, s.onTask fun k => { k with tmpls := k.tmpls.put key ⟨t.id.asid, t.id.fn, t.lvl, r⟩ })
    else (protFault 0, s)

/-- PATSET of an entry or a template: selector, alignment, image, checks. -/
def State.patsetOp (s : State) (g : Guard) (a b : RegF) (bk : PredF) (z : Nat) (f : State → Nat → Nat → List Byte → Flow × State) :
    State :=
  s.isa g { ctl := false, srcs := [⟨1, a, .addr⟩, ⟨2, b, .int⟩], primary := true } fun u s =>
    let va := (s.src64 u a).toNat
    let sel := s.src32 u b
    match s.selector u sel with
    | (.error fl, s) => (fl, s)
    | (.ok key, s) => match s.vaCheck u va z with
      | some fl => (fl, s)
      | none => if s.unitBusy (key / 64) then (.stall, s) else match s.readPlain (s.agent (s.thread u) .ls) va 64 with
        | (.ok img, s) => match f s u key img with
          | (.next, s) => (.next, s.statusOk u bk)
          | (.trap 7 _ _, s) => (protFault sel, s)
          | r => r
        | (.down, s) => (.next, s.statusOk u bk)
        | (r, s) => s.readStop u 0 r

def execPatset (g : Guard) (a b : RegF) (bk : PredF) (s : State) : Result := .next (s.patsetOp g a b bk 64 State.patSet)
def execPatsetTmpl (g : Guard) (a b : RegF) (bk : PredF) (s : State) : Result := .next (s.patsetOp g a b bk 8 State.tmplSet)

/-- An entry of another owner. -/
def Pattern.foreign (e : Pattern) (t : Thread) : Bool := e.asid != t.id.asid || e.fn != t.id.fn

/-- PATARM.on (R174): the ring's page is translated under the owner's ASID, also for an H handler (R444). -/
def execPatarmOn (g : Guard) (a : RegF) (bk : PredF) (s : State) : Result :=
  .next (s.isa g { ctl := false, srcs := [⟨1, a, .int⟩], primary := true } fun u s =>
    let t := s.thread u
    let sel := s.src32 u a
    match s.selector u sel with
    | (.error f, s) => (f, s)
    | (.ok key, s) => match s.task.patterns.find key with
      | none => (s.badOperand, s)
      | some e =>
        if e.foreign t then (protFault sel, s)
        else if e.brk then (s.badOperand, s)
        else if 2 ^ 48 ≤ e.ring then (protFault e.ring, s)
        else if s.unitBusy (key / 64) then (.stall, s)
        else match s.placeFor { s.agent t .ls with dom := { s.domKey t with space := .asid e.asid } } u e.ring 1 0 .r with
          | (.error f, s) => (f, s)
          | (.ok _, s) =>
            let s := s.onTask fun k => { k with patterns := k.patterns.put key { e with armed := true } }
            (.next, (s.portEvent (key / 64)).statusOk u bk))

def execPatarmOff (g : Guard) (a : RegF) (bk : PredF) (s : State) : Result :=
  .next (s.isa g { ctl := false, srcs := [⟨1, a, .int⟩], primary := true } fun u s =>
    let sel := s.src32 u a
    match s.selector u sel with
    | (.error f, s) => (f, s)
    | (.ok key, s) => match s.task.patterns.find key with
      | none => (.next, s.statusOk u bk)
      | some e =>
        if e.foreign (s.thread u) then (protFault sel, s)
        else if e.brk then s.brokenStatus u bk (BitVec.ofNat 64 sel)
        else if s.unitBusy (key / 64) then (.stall, s)
        else (.next, (s.onTask fun k => { k with patterns := k.patterns.put key { e with armed := false } }).statusOk u bk))

/-! BREAKOBJ and OBJSTAT (R187, R188). -/

/-- The objects that BREAKOBJ and OBJSTAT name. -/
inductive Obj where
  | port (key : Nat) (q : Port)
  | pattern (key : Nat) (e : Pattern)
  | barrier (key : Nat) (b : Barrier)
  | future (va : Nat)
  | counter (ix : Nat) (c : Counter)
deriving DecidableEq, Repr

/-- The object that an operand names: it exists, and for kinds 0 to 2 the caller owns it. -/
def State.object (s : State) (u k : Nat) (a : RegF) : Except Flow Obj × State :=
  let t := s.thread u
  let v := s.src32 u a
  let va := (s.src64 u a).toNat
  match k with
  | 0 => match s.handle u v true with
    | (.error f, s) => (.error f, s)
    | (.ok (p, q), s) => (.ok (.port p q), s)
  | 1 => match s.selector u v with
    | (.error f, s) => (.error f, s)
    | (.ok key, s) => match s.task.patterns.find key with
      | none => (.error s.badOperand, s)
      | some e => if e.foreign t then (.error (protFault v), s) else (.ok (.pattern key e), s)
  | 2 =>
    let b := s.barrier t v
    if 31 < v || !b.init then (.error s.badOperand, s)
    else if b.foreign t then (.error (protFault v), s)
    else (.ok (.barrier (barKey t v) b), s)
  | 3 => match s.vaCheck u va 16 with
    | some f => (.error f, s)
    | none => (.ok (.future va), s)
  | _ => match s.counterOf t.id.fn va with
    | none => (.error s.badOperand, s)
    | some (ix, c) => (.ok (.counter ix c), s)

/-- The operand of kind k: a register, or a pair for a VA. -/
def objSrc (k : Nat) (a : RegF) : Src := ⟨1, a, if 3 ≤ k then .addr else .int⟩

/-- BREAKOBJ (R187): on an object that is broken already it has no effect but the broken status (R185). -/
def execBreakobj (g : Guard) (k : Fin 5) (a : RegF) (bk : PredF) (s : State) : Result :=
  .next (s.isa g { ctl := false, srcs := [objSrc k.val a], primary := true } fun u s =>
    let v := if 3 ≤ k.val then s.src64 u a else BitVec.ofNat 64 (s.src32 u a)
    match s.object u k.val a with
    | (.error f, s) => (f, s)
    | (.ok o, s) => match o with
      | .port p q =>
        if q.brk then s.brokenStatus u bk v else if s.unitBusy (p / 256) then (.stall, s) else (.next, (s.breakPort p).statusOk u bk)
      | .pattern key e =>
        if e.brk then s.brokenStatus u bk v else if s.unitBusy (key / 64) then (.stall, s)
        else (.next, (s.onTask fun x => { x with patterns := x.patterns.put key { e with brk := true } }).statusOk u bk)
      | .barrier key b => if b.brk then s.brokenStatus u bk v else (.next, (s.breakBarrier key).statusOk u bk)
      | .future va => match s.future u va .sys .w with
        | (.error f, s) => (f, s)
        | (.ok f, s) =>
          if f.down then (.next, (s.dropWrite f.pa).statusOk u bk)
          else if bitsOf f.word 63 62 = 3 then s.brokenStatus u bk v
          else (.next, (s.putFuture u va .sys f [] f.value (setBits f.word 63 62 3)).statusOk u bk)
      | .counter ix c =>
        let t := s.thread u
        let die := (homeIn s t.space t.id.core c.va).1
        if offHome s die then (.left, s.offlineFault u die c.va 2)
        else if bitOf (s.counterWord c) 63 then s.brokenStatus u bk v
        else (.next, (s.chore (.brk ix t.id.core)).statusOk u bk))

/-- A field of a result word. -/
def fieldAt (v lo : Nat) : Nat := v * 2 ^ lo

/-- The result of OBJSTAT for the objects of the device (R188). -/
def State.objWord (s : State) (o : Obj) : Nat :=
  match o with
  | .port _ q => fieldAt q.brk.toNat 63 + fieldAt q.open_.toNat 62 + fieldAt q.queue.length 59 + fieldAt q.depth 56 +
      fieldAt q.prods.length 53 + fieldAt q.gen 32 + Nat.min (q.sendq.filter fun e => s.resident (s.thread e.1)).length (2 ^ 32 - 1)
  | .pattern key e => fieldAt e.brk.toNat 63 + fieldAt e.armed.toNat 62 + fieldAt 1 61 + fieldAt e.prio 58 +
      fieldAt (e.ports.length - 1) 55 + fieldAt e.tmpl 49 + fieldAt e.busy.toNat 32 + fieldAt e.cursor 28 + (s.clusterAt (key / 64)).start
  | .barrier _ b => fieldAt b.brk.toNat 63 + fieldAt b.init.toNat 62 + fieldAt b.expect 48 + fieldAt b.arrived 32 + b.phase
  | .counter _ c => s.counterWord c
  | .future _ => 0

/-- OBJSTAT (R188). Of a broken object p(PS) is true beside the result, whose BRK says so too, and PS = 7 raises 0x0E (R185; log 19). -/
def execObjstat (g : Guard) (k : Fin 5) (d a : RegF) (bk : PredF) (s : State) : Result :=
  .next (s.isa g { ctl := false, srcs := [objSrc k.val a], dsts := [(d, 2)] } fun u s =>
    let v := if 3 ≤ k.val then s.src64 u a else BitVec.ofNat 64 (s.src32 u a)
    let write (w : Nat) (brk : Bool) (s : State) : Flow × State :=
      if brk then match s.brokenStatus u bk v with
        | (.next, s) => (.next, s.dst64 u d (BitVec.ofNat 64 w) .w64lo .w64hi)
        | r => r
      else (.next, (s.dst64 u d (BitVec.ofNat 64 w) .w64lo .w64hi).statusOk u bk)
    let strong (va : Nat) (brk : Nat → Bool) (s : State) : Flow × State := match s.readStrong (s.agent (s.thread u) .ls) .sys va 8 with
      | (.ok bs, s) => write (ofBytesLE bs) (brk (ofBytesLE bs)) s
      | (.poison _, s) => (.next, (s.dstPoison u d 2).statusOk u bk)
      | (.down, s) => (.next, (s.dstPoison u d 2).statusOk u bk)
      | (r, s) => s.readStop u 0 r
    match s.object u k.val a with
    | (.error f, s) => (f, s)
    | (.ok (.future va), s) => strong (va + 8) (fun w => bitsOf w 63 62 == 3) s
    | (.ok (.counter _ c), s) => strong c.va (bitOf · 63) s
    | (.ok o, s) => write (s.objWord o) (bitOf (s.objWord o) 63) s)

end Sys2Proof.Machine
end

