-- ==== Sys2Proof/Machine/CopyFam.lean ====
section
/-! DEFINITION. Asynchronous copies: ACPY, block-transfer channels and the shuffle engine, major 0x18 (spec/12 R252 to R279; spec/19
R422). A channel's key is 64 · die + channel. -/

namespace Sys2Proof.Machine

/-! Per-thread copies (R252 to R261). -/

/-- An active member of the present group has a tag counter that meets a condition. -/
def State.anyActive (s : State) (g : Guard) (p : Thread → Bool) : Bool :=
  match s.ext.cur with
  | none => false
  | some gr => (gr.todo.getD gr.members).any fun u => let t := s.thread u; t.guardOk g && p t

/-- Bytes of a span S (R279). -/
def spanOf (sz : Fin 4) : Nat := 4 * 2 ^ sz.val

def execAcpy (g : Guard) (la : BitVec 4) (d a b c : RegF) (tag : Fin 3) (sz : Fin 4) (s : State) : Result :=
  let n := spanOf sz
  let sp : Spec := { ctl := false, srcs := [⟨1, a, .int⟩, ⟨2, b, .addr⟩, ⟨3, c, .int⟩], dsts := [(d, 1)], qdst := false, la := la.toNat }
  .next (s.isaAll g sp (fun us s => (us, s)) (fun s0 u s =>
    if s0.anyActive g fun t => t.cntOf tag.val == 15 then (.stall, s)
    else
      let t := s.thread u
      let v := s.src32 u c
      let dst := s.src32 u a
      let src := (s.src64 u b).toNat
      if n < v || decide (2 ^ 21 ≤ dst) then (s.badOperand, s)
      else if t.vaLim ≤ src then (.trap 7 (BitVec.ofNat 64 src) false, s)
      else if dst % n != 0 then (.trap 5 (BitVec.ofNat 64 dst) false, s)
      else if src % 4 != 0 || decide (128 < src % 128 + v) then (.trap 5 (BitVec.ofNat 64 src) false, s)
      else match s.scrCheck u dst n with
        | some f => (f, s)
        | none =>
          let ag := s.agent t .ac
          let poi := s.mem.ownPoison ag.dom src v
          let (own, s) := s.ownBytes ag src v
          let (id, s) := s.newReq
          let r : Req := { mkReq s u .acpy src v with id := id, st := .home, dest := destOf s u d 1, win := (t.pos, la.toNat) }
          let cp : Acpy := ⟨id, u, ag.dom, ag.fn, ag.lvl, tag.val, dst, src, n, v, s.mem.seq, (s.mem.dom ag.dom).snap, own, poi, t.rgn, t.pos, .unread, none⟩
          let s := s.onCore fun k => { k with reqs := k.reqs ++ [r], acpys := k.acpys ++ [cp] }
          (.next, s.modThread u fun t => t.modCnt tag.val (· + 1))) (fun _ s => (.next, s)))

def execAcwait (g : Guard) (a : RegF) (tag : Fin 3) (s : State) : Result :=
  .next (s.isaAll g { ctl := false, srcs := [⟨1, a, .int⟩] } (fun us s => (us, s)) (fun s0 _ s =>
    if s0.anyActive g fun t => decide (s0.src32 t.uid a < t.cntOf tag.val) then (.stall, s) else (.next, s))
    (fun _ s => (.next, s)))

/-- What a copy's source read gives: bytes or a code (R254, R256); none when it waits. -/
inductive CopyRd where
  | ok (bs : List Byte)
  | code (c : Nat)
  | hold (die : Nat)
  | wait
deriving DecidableEq, Repr

/-- The source read of a copy: a plain read of its domain as that stood when the copy was issued (R260, R261). -/
def State.copyRead (s : State) (c : Acpy) : CopyRd × State :=
  if c.v = 0 then (.ok [], s)
  else
    let ag : Agent := { thr := c.thr, dom := c.dom, fn := c.fn, lvl := c.lvl, path := .ac, pc := c.pc, asOf := some c.seq }
    match s.xlate ag c.src .r with
    | (.fault k _, s) => (.code k, s)
    | (.offline d, s) => if (s.pkg.die d).drst = 8 then (.code 0x0C, s) else (.hold d, s)
    | (.wait, s) => (.wait, s)
    | (.ok pa at_, s) => match s.prepareAt ag c.src pa c.v false at_ with
      | (.wait, s) => (.wait, s)
      | (.down, s) => (.code 0x0B, s)
      | (.go, s) =>
        if c.rgn != 0 && !isHost pa && s.plat.health.atRisk.contains (pa / 4096) then (.code 0x10, s)
        else if c.ownPoi || (s.mem.poisoned pa c.v && decide (c.own.length < c.v)) then (.code 0x0B, s)
        else
          let snap := (s.mem.dom c.dom).snap
          let s := s.modDom c.dom fun d => { d with snap := c.snap }
          let (bs, s) := s.readHome ag none c.src pa c.v at_.noL1
          let s := s.modDom c.dom fun d => { d with snap := snap }
          let home := homeIn s c.dom.space c.dom.core c.src
          let s := s.readNames ag home c.src pa at_
          (.ok (overlay c.own bs), s)

/-- The bytes of a copy land in its scratchpad (R255), and the copy is over. -/
def State.copyLand (s : State) (c : Acpy) (bs : List Byte) : State :=
  let s := s.onMem fun m => m.scrWrite (scrKey (clusterOf c.dom.core) c.dst) (bs ++ List.replicate (c.span - bs.length) 0) false
  s.onCore fun k => { k with acpys := k.acpys.filter fun a => a.id != c.id }

/-- A copy completes for its thread: the status register, then the counter. -/
def State.copyStatus (s0 : State) (c : Acpy) (status : Nat) : State :=
  let s := s0
  let dest := match s.core.reqs.find? fun r => r.id == c.id with
    | some r => r.dest.filter (· < 0xFFFF)
    | none => []
  let s := s.modThread c.thr fun t =>
    (dest.foldl (fun (t : Thread) n => t.setReg n ⟨BitVec.ofNat 64 status, .i32⟩) t).modCnt c.tag (· - 1)
  s0.touch (s.onCore fun k => { k with reqs := k.reqs.filter fun r => r.id != c.id }) c.thr

def State.setCopy (s : State) (c : Acpy) : State :=
  s.onCore fun k => { k with acpys := k.acpys.map fun a => if a.id == c.id then c else a }

/-- The source read of a copy is performed (R254). An event of its containment region ends it with nothing written (R54, R326). -/
def State.copyTake (s : State) (c : Acpy) : State :=
  match s.copyRead c with
  | (.wait, s) => s
  | (.hold d, s) => s.holdFor d (.acpy c.id) c.src (s.now (s.thread c.thr))
  | (.code k, s) =>
    let s := s.unOrder (.acpy c.id)
    if k = 0x10 then (s.abandon c.thr [c.id]).regionEvent c.thr c.rgn k c.src else s.setCopy { c with rd := .stopped k }
  | (.ok bs, s) => (s.unOrder (.acpy c.id)).setCopy { c with rd := .bytes bs }

/-- A copy whose source has been read completes (R254): its bytes land with the status or later (R259). -/
def State.copyDo (s : State) (c : Acpy) : State :=
  match c.rd with
  | .unread => s.copyTake c
  | .stopped k =>
    let s := s.copyStatus c (2 ^ 31 + 2 ^ 30 + c.tag * 2 ^ 24 + k)
    let s := s.onCore fun x => { x with acpys := x.acpys.filter fun a => a.id != c.id }
    if k = 0x17 then s.regionEvent c.thr c.rgn k c.src else s
  | .bytes bs =>
    let s := s.copyStatus c (2 ^ 31 + c.tag * 2 ^ 24 + c.v * 2 ^ 16)
    let (late, s) := chooseBool s
    if late then s.setCopy { c with data := some bs } else s.copyLand c bs

/-- An earlier copy of the same thread has still to read bytes that this one reads: they are read in the order of issue (R250). -/
def Acpy.before (a c : Acpy) : Bool :=
  a.thr == c.thr && decide (a.id < c.id) && a.rd == .unread && c.rd == .unread && decide (a.src < c.src + c.v) && decide (c.src < a.src + a.v)

/-- The copies that may go on. -/
def State.copiesReady (s : State) : List Acpy :=
  s.core.acpys.filter fun c => !s.isHeld (.acpy c.id) && s.turnOf (.acpy c.id) && !s.core.acpys.any fun a => a.before c

/-- ACPY_COMPLETE (R254): a copy reads its source, completes, or its bytes land. -/
def execAcpyComplete (s : State) : Result :=
  .next (match s.copiesReady with
    | [] => s
    | c :: cs =>
      let (c, s) := chooseFrom (c :: cs) c s
      match c.data with
      | some bs => s.copyLand c bs
      | none => s.copyDo c)

/-! Block-transfer channels (R262 to R272). -/

def chanKey (t : Thread) (ch : Nat) : Nat := 64 * dieOf t.id.core + ch

def State.setChan (s : State) (id : Nat) (c : Channel) : State := s.onTask fun k => { k with channels := k.channels.put id c }

/-- The channel is not in state 0. -/
def State.chanBusy (s : State) (id : Nat) : Option Channel :=
  match s.task.channels.find id with
  | some c => if c.state = 0 then none else some c
  | none => none

/-- A thread takes a channel with a head and a gate (R264). The chain's accesses belong to the thread's domain (R241). -/
def State.chanTake (s : State) (u id head : Nat) (gate : Option Nat) : State :=
  let t := s.thread u
  let c : Channel := ⟨t.id.fn, s.domKey t, u, t.ltid, t.lvl, if gate.isSome then 1 else 2, 0, head, gate, none, none, s.knowOf u, s.mem.seq,
    none, false⟩
  let s := s.setChan id c
  match gate with
  | none => s
  | some ix => s.parkNode ix (.channel id)

/-- The channel was taken by a member that has acted in the present instruction (R264). -/
def State.justTaken (s0 s : State) (gd : Guard) (id : Nat) (c : Channel) : Bool :=
  (s0.chanBusy id).isNone || s.ext.cur.any fun g =>
    g.members.contains c.thr && !(g.todo.getD g.members).contains c.thr && (s.thread c.thr).guardOk gd

def execChstart (g : Guard) (a b c : RegF) (s : State) : Result :=
  let cs : List Src := if c == .vz then [] else [⟨3, c, .int⟩]
  let sp : Spec := { ctl := false, srcs := [⟨1, a, .int⟩, ⟨2, b, .addr⟩] ++ cs, primary := true, bnd := some (.dev, .chstart) }
  .next (s.isaAll g sp (fun us s => (us, s)) (fun s0 u s =>
    let t := s.thread u
    let ch := s.src32 u a
    let head := (s.src64 u b).toNat
    let h := s.src32 u c
    let gate := if c == .vz then none else some (s.counterByHandle t.id.fn h)
    let id := chanKey t ch
    if 63 < ch || (c != .vz && decide (2 ^ 24 ≤ h)) || gate == some none then (s.badOperand, s)
    else match s.chanBusy id with
      | some x => if (x.dom.space == t.space && x.fn == t.id.fn) || State.justTaken s0 s g id x then (s.badOperand, s) else (protFault ch, s)
      | none =>
        if head % 32 != 0 then (.trap 5 (BitVec.ofNat 64 head) false, s)
        else if s.pathBusy u .ls then (.stall, s)
        else match s.doBoundary u .dev .chstart with
          | (.next, s) => (.next, (s.xfence u .ls .bt).chanTake u id head (gate.bind fun x => x.map (·.1)))
          | r => r) fun _ s => (.next, s))

/-- The owner of a channel, or level H, may act on it (R269, R271). -/
def Channel.allowed (c : Channel) (t : Thread) : Bool := t.lvl == .h || (c.dom.space == t.space && c.fn == t.id.fn)

def execChstat (g : Guard) (d a : RegF) (s : State) : Result :=
  .next (s.isa g { ctl := false, srcs := [⟨1, a, .int⟩], dsts := [(d, 2)], primary := true } fun u s =>
    let t := s.thread u
    let ch := s.src32 u a
    if 63 < ch then (s.badOperand, s)
    else match s.chanBusy (chanKey t ch) with
      | none => (.next, s.dst64 u d 0 .w64lo .w64hi)
      | some c =>
        if c.allowed t then
          let v := fieldAt c.state 60 + fieldAt (if c.state = 5 then c.code else 0) 52 + bitsOf c.rec_ 47 5 * 32
          (.next, s.dst64 u d (BitVec.ofNat 64 v) .w64lo .w64hi)
        else (protFault ch, s))

/-- A record from its bytes (R262). -/
def XferRec.ofBytes (b : List Byte) : XferRec :=
  let f (o n : Nat) : Nat := ofBytesLE ((b.drop o).take n)
  ⟨f 0 8, f 8 8, f 16 8, f 24 4, f 28 1, f 29 3⟩

/-- Who makes a channel's accesses: the thread that started it, on the BT path, its stores before that fenced from them (R241, R264). -/
def Channel.agent (c : Channel) (id : Nat) : Agent :=
  { thr := c.thr, dom := c.dom, fn := c.fn, lvl := c.lvl, path := .bt, eng := 1 + id, fence := c.start }

/-- What a copy within memory writes (R266): byte i is source byte i; where an earlier byte of the same copy has changed it, the
value before or the value written. -/
def overlapCopy (src dst : Nat) (bs : List (Byte × Bool)) (s : State) : List (Byte × Bool) × State :=
  let n := bs.length
  let order := if src < dst then rangeFrom 0 n else (rangeFrom 0 n).reverse
  let (m, s) := order.foldl (fun (acc : Map (Byte × Bool) × State) i =>
    let old := bs.getD i (0, false)
    let j := src + i - dst
    if dst ≤ src + i && decide (j < n) && src != dst then match acc.1.find j with
      | some w =>
        let (b, s) := chooseBool acc.2
        (acc.1.put i (if b then w else old), s)
      | none => (acc.1.put i old, acc.2)
    else (acc.1.put i old, acc.2)) ([], s)
  (m.vals, s)

/-- A channel stops with a code (R265). -/
def State.chanStop (s : State) (id code : Nat) : State :=
  match s.task.channels.find id with
  | none => s
  | some c => s.setChan id { c with state := 5, code := code, watch := none, work := none, ending := false }

/-- A channel is idle and unowned, and parked and held no more. -/
def State.chanIdle (s : State) (id : Nat) (c : Channel) : State :=
  let unpark (e : Nat × Counter) : Nat × Counter := (e.1, { e.2 with parked := e.2.parked.filter (· != .channel id) })
  let s := s.onTask fun k => { k with counters := k.counters.map unpark }
  let s := s.onLinks fun l => { l with held := l.held.filter fun h => h.who != .channel id }
  s.setChan id { c with state := 0, watch := none, gate := none, seq := none, work := none, ending := false }

/-- The counter of the channel's record has been decremented. -/
def Channel.counted (c : Channel) : Bool := c.work.any (·.dec)

/-- An access of a channel did not succeed: a fault record and state 4, a hold, or a wait. A record whose chain is being aborted is abandoned,
unless its counter has been decremented (R271). -/
def State.chanFault (s : State) (id : Nat) (c : Channel) (p : PubStop) : State :=
  match p with
  | .wait => s
  | .offline va d =>
    if (s.pkg.die d).drst = 8 then (if c.ending then s.chanIdle id c else s.chanStop id 0x0C)
    else (s.holdFor d (.channel id) va (s.cycleOf (id / 64))).setChan id { c with state := 6 }
  | .fault va k s2 =>
    if c.ending && !c.counted then s.chanIdle id c
    else if (c.agent id).lim ≤ va then s.chanStop id 7
    else match s.engineRecord c.fn va c.dom.space.asidOf c.ltid c.thr k s2 (.channel id) with
      | (none, s) => s.chanStop id k
      | (some q, s) => s.setChan id { c with state := 4, seq := some q }

/-- What a channel knows once its writes have been published by a boundary. -/
def State.chanKnow (s : State) (c : Channel) (k : Nat) : Channel :=
  { c with know := ((s.mem.bnds.find? (·.id == k)).map fun b => b.know.add b).getD c.know }

/-- The source bytes of a piece: a byte that the record has overwritten is the one before it or the one written (R266). -/
def XferWork.source (w : XferWork) (a : Nat) (bs : List (Byte × Bool)) (s : State) : List (Byte × Bool) × State :=
  ((rangeFrom a bs.length).zip bs).foldl (fun (acc : List (Byte × Bool) × State) (x, b) => match w.old.find x with
    | none => (acc.1 ++ [b], acc.2)
    | some o => let (k, s) := chooseBool acc.2; (acc.1 ++ [if k then o else b], s)) ([], s)

/-- The source bytes of a record that the write of a range changes for the first time are remembered. -/
def XferWork.remember (w : XferWork) (a : Nat) (bs : List (Byte × Bool)) : Map (Byte × Bool) :=
  ((rangeFrom a bs.length).zip bs).foldl (fun m (x, b) =>
    if decide (w.rec_.src ≤ x) && decide (x < w.rec_.src + w.rec_.len) && (m.find x).isNone then m.put x b else m) w.old

/-- Where the next piece of a record lies, and its length (R265). The pieces run upward; where SOURCE and DEST overlap, from either end by a free
choice (DESIGN CHOICE, log 160: R265 and R266 give the pieces no order). -/
def XferWork.piece (w : XferWork) : Nat × Nat :=
  let n := Nat.min 256 (w.rec_.len - w.prog)
  (if w.down then w.rec_.len - w.prog - n else w.prog, n)

/-- Bytes of a piece are stored in the channel's domain, a block with a poisoned byte poisoned (R266); what the host's port drops is not. -/
def State.chanStore (s : State) (ag : Agent) (va0 : Nat) (l : List (Nat × Nat × Option Nat × Attr)) (bs : List (Byte × Bool)) : State :=
  l.foldl (fun (s : State) (va, n, pa?, _) => match pa? with
    | none => s
    | some _ =>
      let mine := (bs.drop (va - va0)).take n
      s.plainStore ag va (mine.map (·.1)) (mine.any (·.2))) s

/-- What a piece writes, where it goes, and what it overwrites. -/
def State.chanGather (s : State) (ag : Agent) (w : XferWork) :
    Except PubStop (List (Nat × Nat × Option Nat × Attr) × List (Byte × Bool) × Map (Byte × Bool)) × State :=
  let r := w.rec_
  let (o, n) := w.piece
  match s.gather ag (r.src + o) n with
  | (.error p, s) => (.error p, s)
  | (.ok bs, s) => match s.spread ag (r.dst + o) n with
    | (.error p, s) => (.error p, s)
    | (.ok l, s) =>
      let (bs, s) := w.source (r.src + o) bs s
      let (bs, s) := overlapCopy (r.src + o) (r.dst + o) bs s
      if decide (r.dst + o < r.src + r.len) && decide (r.src < r.dst + o + n) then match s.gather ag (r.dst + o) n with
        | (.error p, s) => (.error p, s)
        | (.ok old, s) => (.ok (l, bs, w.remember (r.dst + o) old), s)
      else (.ok (l, bs, w.old), s)

/-- The next piece of a record is copied. -/
def State.chanPiece (s : State) (id : Nat) (c : Channel) (w : XferWork) : State :=
  let ag := c.agent id
  match s.chanGather ag w with
  | (.error p, s) => s.chanFault id c p
  | (.ok (l, bs, old), s) =>
    let (o, n) := w.piece
    (s.chanStore ag (w.rec_.dst + o) l bs).setChan id { c with work := some { w with prog := w.prog + n, old := old } }

/-- PUBLISH of R265: the writes of the record, at device scope. -/
def State.chanPublish (s : State) (id : Nat) (c : Channel) (w : XferWork) : State :=
  let mine := (s.mem.dom c.dom).stores.filter fun e => e.2.thr == c.thr && e.2.path == .bt && decide (w.rec_.dst ≤ e.1) && decide (e.1 < w.rec_.dst + w.rec_.len)
  match s.publish (c.agent id) .dev [] mine with
  | (some p, s) => s.chanFault id c p
  | (none, s) =>
    let (k, s) := s.seal 0 c.dom c.know .dev fun x => x.thr == c.thr && x.path == .bt
    s.setChan id { s.chanKnow c k with work := some { w with pub := true } }

/-- DECREMENT of R265: a boundary at device scope of the domain (R242), then the decrement at the counter's home (R151). -/
def State.chanDec (s : State) (id : Nat) (c : Channel) (w : XferWork) : State :=
  match s.counterByHandle c.fn w.rec_.cnt with
  | none => s.setChan id { c with work := some { w with dec := true } }
  | some (ix, ctr) => match s.publish (c.agent id) .dev [] ((s.mem.dom c.dom).stores.filter fun e => !(e.2.late || e.2.store)) with
    | (some p, s) => s.chanFault id c p
    | (none, s) =>
      let (k, s) := s.seal 0 c.dom c.know .dev
      let c := s.chanKnow c k
      let done (s : State) : State := s.setChan id { c with work := some { w with dec := true } }
      let home := (homeIn s (.asid ctr.asid) c.dom.core ctr.va).1
      if offHome s home then s.chanFault id c (.offline ctr.va home)
      else match s.choreTarget (.dec ix c.know c.dom.core) with
        | .error true => s
        | .error false => done s
        | .ok (sp, core, va, pa) => match s.choreAt core sp va pa 8 with
          | (.ok _ _, s) => done (s.decrement c.thr ix c.know c.dom.core)
          | (.drop pa, s) => done (s.dropWrite pa)
          | (.wait, s) => s
          | (.offline d, s) => s.chanFault id c (.offline va d)
          | (.fault k s2, s) => (s.smqPut ⟨2, pa / 128, stackOfLine (pa / 128)⟩).chanFault id c (.fault va k s2)

/-- WRITE_RELEASE of R265: OWN becomes 0, and the channel goes to the next record or to state 0. -/
def State.chanRelease (s : State) (id : Nat) (c : Channel) (r : XferRec) : State :=
  let ag := c.agent id
  let va := c.rec_ + 0x1C
  match s.writeCheck ag va 1 with
  | (.fault k s2, s) => s.chanFault id c (.fault va k s2)
  | (.offline d, s) => s.chanFault id c (.offline va d)
  | (.wait, s) => s
  | (x, s) =>
    let (k, s) := s.release c.know .dev c.dom.core
    let s := match x with
      | .ok pa at_ => s.strongWrite ag .dev [k] (homeIn s c.dom.space c.dom.core va) va pa at_ false [BitVec.ofNat 8 (r.flags / 2 * 2)] false
      | .drop pa => s.dropWrite pa
      | _ => s
    let c := { s.chanKnow c k with work := none }
    if r.next = 0 || c.ending then s.chanIdle id c else s.setChan id { c with rec_ := r.next, state := 2 }

/-- A record that is being processed goes on. -/
def State.chanWork (s : State) (id : Nat) (c : Channel) (w : XferWork) : State :=
  if w.prog < w.rec_.len then s.chanPiece id c w
  else if !w.pub then s.chanPublish id c w
  else if bitOf w.rec_.flags 1 && !w.dec then s.chanDec id c w
  else s.chanRelease id c w.rec_

/-- A record whose OWN is 1 is taken; where its ranges overlap either end may be copied first (R266). -/
def State.chanRecord (s : State) (id : Nat) (c : Channel) (r : XferRec) : State :=
  if r.flags / 4 != 0 || (bitOf r.flags 1 && (s.counterByHandle c.fn r.cnt).isNone) then s.chanStop id 0x19
  else
    let (down, s) := if decide (r.src < r.dst + r.len) && decide (r.dst < r.src + r.len) then chooseBool s else (false, s)
    s.setChan id { c with work := some ⟨r, 0, down, [], false, false⟩ }

/-- The pubs that a read has met. -/
def pubsOf (l : List (Byte × Wr)) : List Nat := l.foldl (fun p b => setUnion p b.2.pubs) []

/-- The time at which OWN of a record became 1: that of the first of the writes of its byte with OWN 1 that no other parts from now. -/
def State.ownedAt (s : State) (pa : Nat) : Nat :=
  (((s.mem.versions (pa + 0x1C)).takeWhile fun v => bitOf v.1.toNat 0).getLast?.map (·.2.seq)).getD 0

/-- A field of a record: what it holds, or what it held at some time since OWN became 1 (R263, R266). -/
def State.xferField (s : State) (pa from_ : Nat) (bs : List Byte) (f : Nat × Nat) : List Byte × State :=
  let (o, n) := f
  let now := (bs.drop o).take n
  let seqs := ((rangeFrom (pa + o) n).flatMap fun a => ((s.mem.versions a).map (·.2.seq)).filter fun q => decide (from_ < q)).eraseDups
  if seqs.isEmpty then (now, s)
  else
    let at_ (q a : Nat) : Byte := (((s.mem.versions a).find? fun v => decide (v.2.seq ≤ q)).map (·.1)).getD ((s.mem.versions a).getLastD (memDefault, Wr.base)).1
    chooseFrom (now :: (from_ :: seqs).map fun q => (rangeFrom (pa + o) n).map (at_ q)).eraseDups now s

/-- The 32 bytes of a record, field by field. -/
def State.xferBytes (s : State) (pa : Nat) (bs : List Byte) : List Byte × State :=
  let q := s.ownedAt pa
  [(0, 8), (8, 8), (16, 8), (24, 4), (28, 1), (29, 3)].foldl (fun (acc : List Byte × State) f =>
    let (b, s) := acc.2.xferField pa q bs f; (acc.1 ++ b, s)) ([], s)

/-- CHANNEL_RECORD for one channel (R265): its watch is armed, the record is read by an acquire, and taken when its OWN is 1. The
fields of a record in a poisoned block, or read while the host's port is down (R127), are free (log 130). -/
def State.chanStep (s : State) (id : Nat) (c : Channel) : State :=
  match c.work with
  | some w => s.chanWork id c w
  | none =>
    let p := c.rec_
    let ag := c.agent id
    if p % 32 != 0 then s.chanStop id 5
    else if ag.lim ≤ p then s.chanStop id 7
    else match s.xlate ag p .r with
      | (.fault k s2, s) => s.chanFault id c (.fault p k s2)
      | (.offline d, s) => s.chanFault id c (.offline p d)
      | (.wait, s) => s
      | (.ok pa at_, s) => match s.prepareAt ag p pa 32 false at_ with
        | (.wait, s) => s
        | (rd, s) =>
          let now := s.cycleOf (id / 64)
          let (bs, s) := s.homeRead ag (some .dev) pa 32
          let c := { c with state := 2, know := s.mem.learn c.know (pubsOf bs) .dev c.dom.core }
          let s := (s.readNames ag (homeIn s c.dom.space c.dom.core p) p pa at_).snapTo c.dom c.know
          let own := bitOf ((bs.getD 28 (0, Wr.base)).1.toNat) 0
          let (raw, s) := if rd == .down || s.mem.poisoned pa 32 then freeBytes 32 s
            else if own then s.xferBytes pa (bs.map (·.1)) else (bs.map (·.1), s)
          let r := XferRec.ofBytes raw
          if r.flags % 2 = 0 then s.setChan id { c with state := 3, watch := some ⟨c.dom.space, p / 128, pa / 128, false, false, now⟩ }
          else
            let c := { c with watch := none }
            (s.setChan id c).chanRecord id c r

/-- A channel can go on: running, or its watch fired. -/
def Channel.ready (c : Channel) : Bool :=
  c.state = 2 || (c.state = 3 && match c.watch with
    | some w => w.fired
    | none => true)

/-- The oldest element at each endpoint of a kind: crew, queue register, unit (a channel, a cluster, a die), value, pusher (R161, R272). -/
def State.headsFor (s : State) (ep : Nat) : List (Nat × Nat × Nat × Nat × Nat) :=
  let ends := ((s.core.crews.flatMap fun c => c.qb.filterMap fun e => if e.2.ep == ep && !e.2.heads.isEmpty then some (endpointAt c e.2) else none)).eraseDups
  ends.filterMap fun a => (s.endpoint a).head?.map fun h => (h.1, h.2.1, a.2, h.2.2.1, h.2.2.2.1)

/-- The head of a binding's queue is taken. -/
def State.dropHead (s : State) (crew q : Nat) : State := s.modBinding crew q fun b => { b with heads := b.heads.tail }

/-- A chain head acts as CHSTART without a gate (R272), the XFENCE among it: it waits for the pusher's accesses on LS. A check that fails stops
the channel with its code. -/
def State.headStart (s : State) (crew q id head u : Nat) : State :=
  if head % 32 != 0 then ((s.dropHead crew q).chanTake u id head none).chanStop id 5
  else if s.pathBusy u .ls then s
  else match s.boundary u .dev with
  | (some _, s) => s
  | (none, s) => ((s.xfence u .ls .bt).dropHead crew q).chanTake u id head none

/-- The steps a block-transfer engine can take: a channel's record, or a head. -/
inductive BtStep where
  | rec_ (id : Nat) (c : Channel)
  | head (crew q id head u : Nat)
deriving DecidableEq, Repr

/-- The engine of a die works: the die is in service, and QUIESCE stops a channel between records (R64). -/
def State.btOn (s : State) (id : Nat) (c : Channel) : Bool :=
  s.inService (id / 64) || (s.stepping (id / 64) 1 && c.work.isSome)

def State.btSteps (s : State) : List BtStep :=
  ((s.task.channels.filter fun e => s.btOn e.1 e.2 && e.2.ready).map fun e => .rec_ e.1 e.2) ++
    ((s.headsFor 2).filter fun e => (s.chanBusy e.2.2.1).isNone && s.inService (e.2.2.1 / 64)).map fun (c, q, id, v, u) => .head c q id v u

/-- CHANNEL_RECORD (R265): a channel processes a record, or takes a pushed head. -/
def execChannelRecord (s : State) : Result :=
  .next (match s.btSteps with
    | [] => s
    | x :: xs => match chooseFrom (x :: xs) x s with
      | (.rec_ id c, s) => s.chanStep id c
      | (.head c q id v u, s) => s.headStart c q id v u)

/-- What an abandoned copy leaves (R271): of the bytes that it has not copied some may have been written. -/
def State.chanTorn (s : State) (id : Nat) (c : Channel) (w : XferWork) : State :=
  let s0 := s
  let ag := c.agent id
  let r := w.rec_
  let (a, n) := (if w.down then 0 else w.prog, r.len - w.prog)
  match s.gather ag (r.src + a) n with
  | (.error _, _) => s0
  | (.ok bs, s) => match s.spread ag (r.dst + a) n with
    | (.error _, _) => s0
    | (.ok l, s) =>
      let (bs, s) := w.source (r.src + a) bs s
      let (bs, s) := overlapCopy (r.src + a) (r.dst + a) bs s
      let (some_, s) := chooseSubset (rangeFrom 0 n) s
      l.foldl (fun (s : State) (va, k, pa?, _) => match pa? with
        | none => s
        | some _ => (rangeFrom va k).foldl (fun (s : State) x =>
            if some_.contains (x - (r.dst + a)) then
              let b := bs.getD (x - (r.dst + a)) (0, false)
              s.plainStore ag x [b.1] b.2
            else s) s) s

/-- A channel is aborted (R271). Between records it is idle at once; the record that it is copying completes whole, which it must once its
counter has been decremented, or is abandoned. -/
def State.chanAbort (s : State) (id : Nat) : State :=
  match s.chanBusy id with
  | none => s
  | some c => match c.work with
    | none => s.chanIdle id c
    | some w =>
      let (whole, s) := if w.dec then (true, s) else if c.state = 2 then chooseBool s else (false, s)
      if whole then s.setChan id { c with ending := true } else (s.chanTorn id c w).chanIdle id c

def execChabort (g : Guard) (a : RegF) (s : State) : Result :=
  .next (s.isa g { ctl := false, srcs := [⟨1, a, .int⟩], primary := true } fun u s =>
    let t := s.thread u
    let ch := s.src32 u a
    if 63 < ch then (s.badOperand, s)
    else match s.chanBusy (chanKey t ch) with
      | none => (.next, s)
      | some c =>
        if !c.allowed t then (protFault ch, s)
        else if c.ending then (.stall, s)
        else
          let s := s.chanAbort (chanKey t ch)
          (if (s.chanBusy (chanKey t ch)).isSome then .stall else .next, s))

/-! The shuffle engine (R273 to R277). -/

/-- A command from its descriptor (R273). -/
def ShufCmd.ofBytes (b : List Byte) (t : Thread) : ShufCmd :=
  let f (o n : Nat) : Nat := ofBytesLE ((b.drop o).take n)
  ⟨0, t.uid, t.id.crew, t.id.asid, clusterOf t.id.core, f 0 1, f 1 1, f 2 2, f 4 2, f 8 4, f 12 4, f 16 4, f 20 4, f 24 4, []⟩

/-- Bytes of an element, or of a field's packed row. -/
def ShufCmd.e (c : ShufCmd) : Nat := 2 ^ c.esize

/-- Bytes of a packed row of C fields. -/
def ShufCmd.packed (c : ShufCmd) : Nat := if c.esize = 0 then (c.cols + 4) / 5 * 4 else (c.cols + 7) / 8 * 4

/-- The source extent as ranges; OP 1's are found when it runs. -/
def ShufCmd.srcExt (c : ShufCmd) : List (Nat × Nat) :=
  let n := match c.op with
    | 0 => c.cols * c.e
    | 2 => c.cols
    | _ => c.packed
  if c.op = 1 then [] else (rangeFrom 0 c.rows).map fun r => (c.src + r * c.ss, n)

def ShufCmd.dstExt (c : ShufCmd) : List (Nat × Nat) :=
  match c.op with
  | 0 => (rangeFrom 0 c.cols).map fun j => (c.dst + j * c.ds, c.rows * c.e)
  | 1 => (rangeFrom 0 c.rows).map fun r => (c.dst + r * c.ds, c.cols * c.e)
  | 2 => (rangeFrom 0 c.rows).map fun r => (c.dst + r * c.ds, c.packed)
  | _ => (rangeFrom 0 c.rows).map fun r => (c.dst + r * c.ds, c.cols)

/-- Every byte of a scratch range lies in units that a thread's ASID owns. -/
def State.ownsScr (s : State) (t : Thread) (cluster a n : Nat) : Bool :=
  decide (a + n ≤ 2 ^ 21) && (rangeFrom (a / 8192) ((a + n - 1) / 8192 + 1 - a / 8192)).all fun k =>
    s.unitOwner t (scrCore cluster (k * 8192)) (k % 64) == some t.id.asid

/-- The checks of SHFGO (R275): the cause of the first that fails. -/
def State.shufCheck (s : State) (va : Nat) (b : List Byte) (c : ShufCmd) : Option Nat :=
  let f (o n : Nat) : Nat := ofBytesLE ((b.drop o).take n)
  let size (x : Nat) : Bool := decide (1 ≤ x) && decide (x ≤ 256)
  let idxs := if c.op = 1 then [(c.idx, 4 * c.rows)] else []
  if 3 < c.op || decide ((if c.op < 2 then 3 else 1) < c.esize) || !size c.rows || !size c.cols || f 6 2 != 0 || f 28 4 != 0 ||
      decide (2 ^ 21 ≤ c.src) || decide (2 ^ 21 ≤ c.dst) || decide (2 ^ 21 ≤ c.idx) || (c.op != 1 && c.idx != 0) then some 0x19
  else if va % 32 != 0 || (c.op < 2 && (c.src % c.e != 0 || c.dst % c.e != 0 || c.ss % c.e != 0 || c.ds % c.e != 0)) ||
      (c.op = 1 && c.idx % 4 != 0) || (c.op = 2 && (c.dst % 4 != 0 || c.ds % 4 != 0)) ||
      (c.op = 3 && (c.src % 4 != 0 || c.ss % 4 != 0)) then some 5
  else if (c.dstExt ++ idxs ++ c.srcExt).all fun e => s.ownsScr (s.thread c.thr) c.cluster e.1 e.2 then none
  else some 8

/-- A scratch byte of a cluster. -/
def State.scrByte (s : State) (cluster a : Nat) : Byte := s.mem.scr.getD 0 (scrKey cluster a)

/-- The scratch addresses of a cluster whose byte is not zero. -/
def State.scrOf (s : State) (cluster : Nat) : Map Byte :=
  s.mem.scr.filterMap fun e => if e.1 / 2 ^ 19 / 5 == cluster then some (e.1 - cluster * 5 * 2 ^ 19, e.2) else none

/-- A command enters the queue (R273): its token. The bytes that it may read are remembered as they stand (R277); for OP 1, whose rows the
indices name, those are the whole of the cluster's scratch space. -/
def State.shufQueue (s : State) (c : ShufCmd) : Nat × State :=
  let tok := (s.clusterAt c.cluster).shTok
  let old : Map Byte := if c.op = 1 then s.scrOf c.cluster
    else c.srcExt.foldl (fun m e => (rangeFrom e.1 e.2).foldl (fun (m : Map Byte) a => m.put a (s.scrByte c.cluster a)) m) []
  (tok % 2 ^ 32, s.modCluster c.cluster fun k => { k with shq := k.shq ++ [{ c with token := tok % 2 ^ 32, old := old }], shTok := tok + 1 })

def execShfgo (g : Guard) (d a : RegF) (s : State) : Result :=
  .next (s.isa g { ctl := false, srcs := [⟨1, a, .addr⟩], dsts := [(d, 1)] } fun u s =>
    let t := s.thread u
    let va := (s.src64 u a).toNat
    if 16 ≤ (s.clusterAt (clusterOf t.id.core)).shq.length then (.stall, s)
    else if t.vaLim ≤ va then (.trap 7 (BitVec.ofNat 64 va) false, s)
    else match s.readPlain (s.agent t .ls) va 32 with
      | (.ok bs, s) =>
        let c := ShufCmd.ofBytes bs t
        match s.shufCheck va bs c with
        | some 0x19 => (s.badOperand, s)
        | some k => (.trap k (BitVec.ofNat 64 (if k = 5 then va else c.dst)) false, s)
        | none =>
          let (tok, s) := s.shufQueue c
          (.next, s.dst u d (BitVec.ofNat 64 tok) .i32)
      | (.down, s) => (.next, s.dstPoison u d 1)
      | (r, s) => s.readStop u 0 r)

/-- A source byte of a command: as it stands, or as it stood when the command was queued (R277). -/
def State.shufRead (s : State) (c : ShufCmd) (a : Nat) : Byte × State :=
  let now := s.scrByte c.cluster a
  match if c.op = 1 then some (c.old.getD 0 a) else c.old.find a with
  | some o => if o = now then (now, s) else let (b, s) := chooseBool s; (if b then o else now, s)
  | none => (now, s)

/-- Bytes of a range as a command reads them. -/
def State.shufBytes (s : State) (c : ShufCmd) (a n : Nat) : List Byte × State :=
  (rangeFrom a n).foldl (fun (acc : List Byte × State) x => let (b, s) := acc.2.shufRead c x; (acc.1 ++ [b], s)) ([], s)

/-- Fields packed into words (R274): w bits each, k to a word. -/
def packFields (w k : Nat) (l : List Nat) : List Byte :=
  let word (i : Nat) : Nat := ((rangeFrom 0 k).map fun j => l.getD (k * i + j) 0 % 2 ^ w * 2 ^ (w * j)).foldl (· + ·) 0
  ((rangeFrom 0 ((l.length + k - 1) / k)).map fun i => bytesLE 4 (word i)).flatten

/-- Field m of packed words. -/
def packedField (w k : Nat) (b : List Byte) (m : Nat) : Nat :=
  elem w (m % k) (ofBytesLE ((b.drop (4 * (m / k))).take 4))

/-- What a row or column of a command writes: address, bytes and source addresses; none where a gather row may not be read. -/
def State.shufRow (s : State) (c : ShufCmd) (r : Nat) : Option (Nat × List Byte × List Nat) × State :=
  let (w, k) := if c.esize = 0 then (6, 5) else (4, 8)
  match c.op with
  | 0 =>
    let l := (rangeFrom 0 c.rows).flatMap fun i => rangeFrom (c.src + i * c.ss + r * c.e) c.e
    let (bs, s) := l.foldl (fun (acc : List Byte × State) x => let (b, s) := acc.2.shufRead c x; (acc.1 ++ [b], s)) ([], s)
    (some (c.dst + r * c.ds, bs, l), s)
  | 1 =>
    let (ib, s) := s.shufBytes c (c.idx + 4 * r) 4
    let a := c.src + ofBytesLE ib * c.ss
    let n := c.cols * c.e
    if s.ownsScr (s.thread c.thr) c.cluster a n then
      let (bs, s) := s.shufBytes c a n
      (some (c.dst + r * c.ds, bs, rangeFrom a n), s)
    else (none, s)
  | 2 =>
    let (bs, s) := s.shufBytes c (c.src + r * c.ss) c.cols
    (some (c.dst + r * c.ds, packFields w k (bs.map fun b => b.toNat), rangeFrom (c.src + r * c.ss) c.cols), s)
  | _ =>
    let (bs, s) := s.shufBytes c (c.src + r * c.ss) c.packed
    (some (c.dst + r * c.ds, (rangeFrom 0 c.cols).map fun m => BitVec.ofNat 8 (packedField w k bs m), rangeFrom (c.src + r * c.ss) c.packed), s)

/-- What the rows of a command write, and its code. -/
def State.shufRows (s : State) (c : ShufCmd) : List (Nat × List Byte × List Nat) × Nat × State :=
  (rangeFrom 0 (if c.op = 0 then c.cols else c.rows)).foldl (fun (acc : List (Nat × List Byte × List Nat) × Nat × State) r =>
    match acc.2.2.shufRow c r with
    | (none, s) => (acc.1, 8, s)
    | (some x, s) => (acc.1 ++ [x], acc.2.1, s)) ([], 0, s)

/-- The scratch bytes that a command writes, by key, and its code; where its own source and destination overlap, each byte is one
of those R277 names. -/
def State.shufRun (s : State) (c : ShufCmd) : List (Nat × Byte) × Nat × State :=
  let (rows, code, s) := s.shufRows c
  let src := (rows.flatMap fun r => r.2.2).eraseDups
  let (l, s) := (rows.flatMap fun r => (rangeFrom r.1 r.2.1.length).zip r.2.1).foldl (fun (q : List (Nat × Byte) × State) (x, b) =>
    if src.contains x then
      let all := (b :: q.2.scrByte c.cluster x :: src.map (q.2.scrByte c.cluster)).eraseDups
      let (v, s) := chooseFrom all b q.2
      (q.1 ++ [(scrKey c.cluster x, v)], s)
    else (q.1 ++ [(scrKey c.cluster x, b)], q.2)) ([], s)
  (l, code, s)

/-- A queued command reads nothing from before the writes of the commands before it (R273). -/
def ShufCmd.after (c : ShufCmd) (l : List (Nat × Byte)) : ShufCmd :=
  { c with old := l.foldl (fun (m : Map Byte) e =>
      let a := e.1 - c.cluster * 5 * 2 ^ 19
      if c.op = 1 then m.setD 0 a e.2 else if (m.find a).isSome then m.put a e.2 else m) c.old }

/-- Scratch bytes of a command land. A word that takes a byte while a source word of the command is poisoned keeps its own mark. -/
def State.shufLand (s : State) (cluster : Nat) (l : List (Nat × Byte)) : State :=
  (s.onMem fun m => { m with
    scr := l.foldl (fun (x : Map Byte) e => x.setD 0 e.1 e.2) m.scr
    scrPoi := m.scrPoi.filter fun w => !((rangeFrom (4 * w) 4).all fun k => l.any fun e => e.1 == k) }).modCluster cluster fun k =>
      { k with shq := k.shq.map fun c => c.after l }

/-- The engine executes its oldest command: some of its bytes land now, the others later (R259, R276). -/
def State.shufCommand (s : State) (cluster : Nat) (c : ShufCmd) : State :=
  let (l, code, s) := s.shufRun c
  let (late, s) := chooseSubset (l.map (·.1)).eraseDups s
  let s := s.shufLand cluster (l.filter fun e => !late.contains e.1)
  s.modCluster cluster fun k => { k with
    shq := k.shq.tail
    shDone := ((c.token, code) :: k.shDone).take 64
    shLate := (l.filter fun e => late.contains e.1).map fun e => (c.crew, e.1, e.2) }

/-- What a shuffle engine can do: land bytes, execute a command, or take a pushed descriptor. -/
inductive ShStep where
  | land (cluster : Nat)
  | cmd (cluster : Nat) (c : ShufCmd)
  | head (crew q va u : Nat)
deriving DecidableEq, Repr

def State.shSteps (s : State) : List ShStep :=
  (s.core.clusters.filterMap fun (i, k) =>
    if !k.shLate.isEmpty then some (ShStep.land i) else k.shq.head?.map fun c => ShStep.cmd i c) ++
  ((s.headsFor 3).filter fun e => decide ((s.clusterAt e.2.2.1).shq.length < 16)).map
    fun (c, q, _, v, u) => .head c q v u

/-- A pushed descriptor acts as SHFGO (R272); one that fails a check queues no command. -/
def State.shufHead (s : State) (crew q va u : Nat) : State :=
  let t := s.thread u
  if t.vaLim ≤ va then s.dropHead crew q
  else match s.readPlain (s.agent t .ls) va 32 with
    | (.ok bs, s) =>
      let s := s.dropHead crew q
      let c := ShufCmd.ofBytes bs t
      if (s.shufCheck va bs c).isSome then s else (s.shufQueue c).2
    | (.wait, s) => s
    | (.offline _ d, s) => if (s.pkg.die d).drst = 8 then s.dropHead crew q else s
    | (_, s) => s.dropHead crew q

/-- SHUFFLE_COMMAND (R274). -/
def execShuffleCommand (s : State) : Result :=
  .next (match s.shSteps with
    | [] => s
    | x :: xs => match chooseFrom (x :: xs) x s with
      | (.land i, s) =>
        let l := (s.clusterAt i).shLate.map fun e => (e.2.1, e.2.2)
        (s.shufLand i l).modCluster i fun k => { k with shLate := [] }
      | (.cmd i c, s) => s.shufCommand i c
      | (.head c q v u, s) => s.shufHead c q v u)

/-- What SHFWAIT finds for a token (R276): not assigned, still queued, or its status. -/
def Cluster.shuffled (k : Cluster) (tok : Nat) : Option (Option Nat) :=
  if k.shTok ≤ tok && decide (k.shTok < 2 ^ 32) then none
  else if k.shq.any fun q => q.token == tok then some none
  else match k.shDone.find? fun e => e.1 == tok with
    | some (_, code) => some (some (2 ^ 31 + (if code = 0 then 0 else 2 ^ 30) + code))
    | none => some (some (2 ^ 31 + 2 ^ 29))

def execShfwait (g : Guard) (d a : RegF) (s : State) : Result :=
  .next (s.isaAll g { ctl := false, srcs := [⟨1, a, .int⟩], dsts := [(d, 1)] } (fun us s => (us, s)) (fun s0 u s =>
    let at_ (t : Thread) : Option (Option Nat) := (s0.clusterAt (clusterOf t.id.core)).shuffled (s0.src32 t.uid a)
    match at_ (s.thread u) with
    | none => (s.badOperand, s)
    | some r =>
      if s0.anyActive g fun t => at_ t == some none then (.stall, s)
      else match r with
        | some st => (.next, s.dst u d (BitVec.ofNat 64 st) .i32)
        | none => (.stall, s)) (fun _ s => (.next, s)))

end Sys2Proof.Machine
end

