-- ==== Sys2Proof/Machine/QueueFam.lean ====
section
/-! DEFINITION. Queue registers, tasks and counters: major 0x1C (spec/20 R424 to R432; spec/07 R149 to R161; spec/14 R303). -/

namespace Sys2Proof.Machine

/-- The number of a queue register field; a field that names no queue register is refused (R424). -/
def queNo : RegF → Option Nat
  | .que n => some n.val
  | _ => none

/-- The queue-misuse trap (R161, R449): TVAL is the register code. -/
def misuse (q : Nat) : Flow := .trap 0x18 (BitVec.ofNat 64 (0xE0 + q)) false

/-- The other active members of a thread's crew in the present group, itself among them. -/
def State.crewMates (s : State) (g : Guard) (sp : Spec) (u : Nat) : List Nat :=
  match s.ext.cur with
  | none => [u]
  | some gr => (gr.todo.getD gr.members).filter fun v =>
      let t := s.thread v
      t.guardOk g && t.id.crew == (s.thread u).id.crew && (sp.check s t).isNone

/-- The unit of a binding is in its range (R425). -/
def State.unitOk (s : State) (ep v : Nat) : Bool :=
  match ep with
  | 2 => decide (v ≤ 63)
  | 4 => s.dieOn v
  | _ => true

/-- The inbox and outbox of a cluster belong to another ASID (R303). -/
def State.boxForeign (s : State) (cluster asid : Nat) : Bool :=
  s.core.crews.any (fun c => clusterOf c.core == cluster && c.qb.any fun e => e.2.ep < 2) && (s.clusterAt cluster).ioOwn != some asid

/-- QBIND (R425): the direction follows from the core; an inbox or outbox without a binding takes its owner. -/
def State.bindQueue (s : State) (t : Thread) (q ep v : Nat) : State :=
  let cluster := clusterOf t.id.core
  let push := if ep = 0 then !t.isCtl else if ep = 1 then t.isCtl else true
  let s := if ep < 2 then s.modCluster cluster fun k => { k with ioOwn := some t.id.asid } else s
  s.modCrew t.id.crew fun c => { c with qb := c.qb.put q ⟨ep, v, push, false, []⟩ }

def execQbind (g : Guard) (q a : RegF) (ep : Fin 5) (s : State) : Result :=
  let sp : Spec := { srcs := [⟨1, a, .int⟩] }
  .next (s.isaAll g sp (fun us s => (us, s)) (fun s0 u s =>
    match queNo q with
    | none => (s.badOperand, s)
    | some n =>
      let t := s.thread u
      let v := (s.src u a).toNat
      if (s0.crewMates g sp u).any fun w => s0.src w a != s0.src u a then (misuse n, s)
      else if !s.unitOk ep.val v then (s.badOperand, s)
      else if ep.val < 2 && s.boxForeign (clusterOf t.id.core) t.id.asid then (protFault (0xE0 + n), s)
      else if (s0.binding t.id.crew n).isSome then (misuse n, s)
      else (.next, s.bindQueue t n ep.val v)) (fun _ s => (.next, s)))

def execQunbind (g : Guard) (q : RegF) (s : State) : Result :=
  .next (s.isaAll g {} (fun us s => (us, s)) (fun s0 u s =>
    match queNo q with
    | none => (s.badOperand, s)
    | some n =>
      let t := s.thread u
      match s0.binding t.id.crew n with
      | none => (misuse n, s)
      | some b =>
        if !b.brk && (!b.heads.isEmpty || (b.ep = 1 && b.push && s.drains (clusterOf t.id.core))) then (.stall, s)
        else (.next, (s.modCrew t.id.crew fun c => { c with qb := c.qb.del n }).settleBox (clusterOf t.id.core)))
    (fun _ s => (.next, s)))

/-- The elements that QSTAT counts (R427). -/
def State.queueElems (s : State) (crew cluster : Nat) (b : QBind) : Nat :=
  if b.ep < 2 then rowCount ((s.clusterAt cluster).rows b.ep) else s.endLoad crew b

/-- The status word of a binding (R427). -/
def State.queueStatus (s : State) (t : Thread) (n : Nat) : Nat :=
  match s.binding t.id.crew n with
  | none => 0
  | some b =>
    let unit := if b.ep = 2 || b.ep = 4 then b.unit else 0
    2 ^ 31 + (if b.brk then 2 ^ 30 else 0) + b.ep * 2 ^ 27 + unit * 2 ^ 21 + s.queueElems t.id.crew (clusterOf t.id.core) b

def execQstat (g : Guard) (d q : RegF) (s : State) : Result :=
  .next (s.isa g { dsts := [(d, 1)] } fun u s =>
    match queNo q with
    | none => (s.badOperand, s)
    | some n => (.next, s.dst u d (BitVec.ofNat 64 (s.queueStatus (s.thread u) n)) .i32))

/-- The rows that QTRY pops before its members act: one for each crew whose binding has one (R428). -/
def qtryHold (sp : Spec) (q : RegF) : Hold := fun us s =>
  match queNo q with
  | none => (us, s)
  | some n =>
    let good := us.filter fun u => (sp.check s (s.thread u)).isNone
    let crews := (good.map fun u => (s.thread u).id.crew).eraseDups
    (us, crews.foldl (fun (s : State) c =>
      let mine := good.filter fun u => (s.thread u).id.crew == c
      let cluster := clusterOf (s.thread (mine.headD 0)).id.core
      if s.popTest c cluster n == .ok then s.popRow c cluster n mine else s) s)

def execQtry (g : Guard) (d q : RegF) (p bk : PredF) (s : State) : Result :=
  let sp : Spec := { dsts := [(d, 1)], qdst := false }
  .next (s.isaAll g sp (qtryHold sp q) (fun _ u s =>
    match queNo q with
    | none => (s.badOperand, s)
    | some n =>
      match s.binding (s.thread u).id.crew n with
      | none => (misuse n, s)
      | some b =>
        if b.push then (misuse n, s)
        else if b.brk then s.brokenStatus u bk (BitVec.ofNat 64 (0xE0 + n))
        else match s.ext.pops.find u with
          | some v => (.next, ((s.statusOk u bk).dst u d v .b32).pset u p.val true)
          | none => (.next, (s.statusOk u bk).pset u p.val false)) (fun _ s => (.next, s)))

/-! Tasks (R429). -/

/-- The result of TASKQ as one value. -/
def EnqRes.word : EnqRes → Nat
  | .accepted l => l
  | .retry => 2 ^ 32
  | .failed c => c * 2 ^ 40 + 2 * 2 ^ 32

def execTaskq (g : Guard) (d a b : RegF) (s : State) : Result :=
  .next (s.isa g { srcs := [⟨1, a, .addr⟩, ⟨2, b, .int⟩], dsts := [(d, 2)], primary := true } fun u s =>
    let t := s.thread u
    let lq := s.src32 u b
    let va := (s.src64 u a).toNat
    if 32768 ≤ lq then (s.badOperand, s)
    else match s.vaCheck u va 8 with
      | some f => (f, s)
      | none => match s.readPlain (s.agent t .ls) va 64 with
        | (.ok bs, s) =>
          let (r, s) := s.enqueue (if t.lvl == .h then 0 else t.id.fn) lq (some t.lvl) (TaskRec.ofBytes bs)
          (.next, s.dst64 u d (BitVec.ofNat 64 r.word) .w64lo .w64hi)
        | (.down, s) => (.next, s.dstPoison u d 2)
        | (r, s) => s.readStop u 0 r)

/-! Dependence counters (R431, R432). -/

/-- The home of a counter's word is reached under a space with write permission (R54, R116, R120); a fault is of kind 2. With the host's port
down it is written nowhere (R127): the address comes with `true`. -/
def State.counterPlace (s : State) (u va : Nat) (sp : Space) : Except Flow (Nat × Bool) × State :=
  let t := s.thread u
  let ag := { s.agent t .ls with dom := { s.domKey t with space := sp } }
  if s.inFlight u va 8 then (.error .stall, s)
  else match s.xlate ag va .w with
  | (.fault c s2, s) => (.error .left, s.transFault u 2 va c s2)
  | (.offline d, s) => (.error .left, s.offlineFault u d va 2)
  | (.wait, s) => (.error .stall, s)
  | (.ok pa at_, s) =>
    if s.swShared pa then (.error .left, (s.smqPut ⟨2, pa / 128, stackOfLine (pa / 128)⟩).transFault u 2 va 6 true)
    else match s.prepareAt ag va pa 8 true at_ true with
      | (.wait, s) => (.error .stall, s)
      | (.down, s) => (.ok (pa, true), s)
      | (.go, s) => (.ok (pa, false), s)

/-- A thread writes a counter's word (R431), or with the host's port down nowhere (R127). -/
def State.putCounter (s : State) (u : Nat) (c : Counter) (v : Nat) (down : Bool) : State :=
  if down then s.dropWrite c.pa else s.setCounter u (s.thread u).id.core c [] v

/-- A counter's entry changed by f. -/
def State.modCounter (s : State) (ix : Nat) (f : Counter → Counter) : State :=
  s.onTask fun k => { k with counters := k.counters.modD Counter.reset ix f }

/-- The handle of a counter (R149). -/
def handleOf (ix : Nat) (c : Counter) : Nat := ix + c.gen * 2 ^ 18

/-- A registration (R149, R431): the lowest free index, its next generation, the word written. -/
def State.registerCounter (s : State) (u va pa n : Nat) (down : Bool) : Nat × State :=
  let t := s.thread u
  let ix := lowestFree 0 ((s.task.counters.filter fun e => e.2.live).map (·.1))
  let c : Counter := ⟨(s.task.counters.getD Counter.reset ix).gen % 63 + 1, true, t.id.fn, t.id.asid, va, pa, []⟩
  let s := s.modCounter ix fun _ => c
  let s := s.modFn t.id.fn fun f => { f with uCnts := f.uCnts + 1 }
  (handleOf ix c, s.putCounter u c (handleOf ix c * 2 ^ 32 + n) down)

/-- The counter of any function at a VA. -/
def State.counterAnywhere (s : State) (va : Nat) : Option (Nat × Counter) := s.task.counters.find? fun e => e.2.live && e.2.va == va

/-- The space in which the home translates what DEPNEW names: that of the recorded ASID where the function has it registered (R431). -/
def State.counterSpace (s : State) (u va : Nat) : Space :=
  match s.counterOf (s.thread u).id.fn va with
  | some (_, c) => .asid c.asid
  | none => (s.thread u).space

/-- DEPNEW (R431). While the host's port is down the word of a counter in host memory is taken as it last stood (DESIGN CHOICE, log 145). -/
def execDepnew (g : Guard) (d a b : RegF) (s : State) : Result :=
  .next (s.isa g { srcs := [⟨1, a, .addr⟩, ⟨2, b, .int⟩], dsts := [(d, 1)], primary := true } fun u s =>
    let t := s.thread u
    let va := (s.src64 u a).toNat
    let n := s.src32 u b
    match s.vaCheck u va 8 with
    | some f => (f, s)
    | none => match s.counterPlace u va (s.counterSpace u va) with
      | (.error f, s) => (f, s)
      | (.ok (pa, down), s) =>
        let put (h : Nat) (s : State) : Flow × State := (.next, s.dst u d (BitVec.ofNat 64 h) .i32)
        match s.counterAnywhere va with
        | some (ix, c) =>
          let w := s.counterWord c
          if c.fn != t.id.fn then (protFault va, s)
          else if bitOf w 63 || !c.parked.isEmpty then (s.badOperand, s)
          else put (handleOf ix c) ((s.modCounter ix fun c => { c with pa := pa }).putCounter u { c with pa := pa } (handleOf ix c * 2 ^ 32 + n) down)
        | none =>
          let f := s.fnAt t.id.fn
          if f.qCnts ≤ f.uCnts then put 0x80000000 s
          else let (h, s) := s.registerCounter u va pa n down; put h s)

/-- The counter that DEPDEC and DEPFREE name, with the checks before their effect (R432), and whether its word can be written nowhere. -/
def State.namedCounter (s : State) (u va : Nat) : Except Flow (Nat × Counter × Bool) × State :=
  match s.vaCheck u va 8 with
  | some f => (.error f, s)
  | none => match s.counterOf (s.thread u).id.fn va with
    | none => (.error s.badOperand, s)
    | some (ix, c) => match s.counterPlace u va (.asid c.asid) with
      | (.error f, s) => (.error f, s)
      | (.ok (pa, down), s) => (.ok (ix, { c with pa := pa }, down), s.modCounter ix fun c => { c with pa := pa })

def execDepdec (g : Guard) (a : RegF) (bk : PredF) (s : State) : Result :=
  .next (s.isa g { srcs := [⟨1, a, .addr⟩], primary := true, bnd := some (.dev, .depdec) } fun u s =>
    let va := (s.src64 u a).toNat
    match s.namedCounter u va with
    | (.error f, s) => (f, s)
    | (.ok (ix, c, down), s) =>
      if bitOf (s.counterWord c) 63 then s.brokenStatus u bk (BitVec.ofNat 64 va)
      else match s.doBoundary u .dev .depdec with
        | (.next, s) =>
          let s := s.xfenceAll u
          let s := if down then s.dropWrite c.pa else s.decrement u ix (s.knowOf u) (s.thread u).id.core
          (.next, s.statusOk u bk)
        | r => r)

def execDepfree (g : Guard) (a : RegF) (s : State) : Result :=
  .next (s.isa g { srcs := [⟨1, a, .addr⟩], primary := true } fun u s =>
    match s.namedCounter u (s.src64 u a).toNat with
    | (.error f, s) => (f, s)
    | (.ok (ix, c, _), s) => if c.parked.isEmpty then (.next, s.freeCounter ix) else (s.badOperand, s))

end Sys2Proof.Machine
end

