-- ==== Sys2Proof/Machine/MatrixFam.lean ====
section
/-! DEFINITION. Issue of the matrix commands and MXWAIT: majors 0x20 and 0x21 (spec/14 R304 to R313, R319; spec/20 R433). -/

namespace Sys2Proof.Machine

/-- The operands that a queue of commands leaves set (R306 to R308). -/
def Mx.after (m : Mx) : List MxJob → Mx
  | [] => m
  | j :: js => Mx.after (match j.cmd with
    | .opA o => { m with a := some o }
    | .opB o => { m with b := some o }
    | .scale mode sa sb => { m with mode := mode, sa := sa, sb := sb }
    | .sparse base stride => { m with meta_ := some (base, stride) }
    | _ => m) js

/-- The operands as a command issued now finds them. -/
def Mx.view (m : Mx) : Mx := m.after m.queue

/-- A command that passed its checks enters the queue, waits for room, or is discarded after a deferred error (R304, R305). -/
def State.mxIssue (s : State) (u : Nat) (c : MxCmd) : Flow × State :=
  let t := s.thread u
  let cl := clusterOf t.id.core
  let m := (s.clusterAt cl).mx
  if m.defer.isSome then (.next, s)
  else if 16 ≤ m.queue.length then (.left, s.wait u .mx false 1 0)
  else (.next, s.modCluster cl fun k => { k with mx := { k.mx with
    queue := k.mx.queue ++ [⟨c, u, s.domKey t, t.lvl, t.pos, t.rgn⟩] } })

/-- The unit of a matrix operand format (R306). -/
def mxUnit (fmt : Nat) : Nat :=
  match fmt with
  | 0 => 2
  | 1 => 2
  | 2 => 1
  | 3 => 1
  | _ => 4

/-- The bytes of an element of MXLOAD and MXSTORE (R311, R312). -/
def mxSize (fmt : Nat) : Nat :=
  match fmt with
  | 0 => 2
  | 1 => 2
  | 2 => 4
  | _ => 1

/-- The checks of values that must be multiples of a unit, then of base addresses (R433 steps 2 and 3). -/
def State.mxCheck (s : State) (u unit : Nat) (vals bases : List Nat) : Option Flow :=
  match vals.find? fun v => v % unit != 0 with
  | some v => some (.trap 5 (BitVec.ofNat 64 v) false)
  | none => (bases.find? fun v => decide ((s.thread u).vaLim ≤ v)).map fun v => protFault v

/-- The checks of a base and a row stride. -/
def State.mxBase (s : State) (u unit base stride : Nat) : Option Flow :=
  match s.mxCheck u unit [base, stride] [base] with
  | some f => some f
  | none => if 2 ^ 32 ≤ stride then some s.badOperand else none

/-- M and N from the dimension operand (R309). -/
def mxDims (c : Nat) : Option (Nat × Nat) :=
  let d (x : Nat) : Nat := if x = 0 then 128 else x
  if c / 2 ^ 15 != 0 || bitOf c 7 then none else some (d (c % 128), d (bitsOf c 14 8))

/-- A matrix instruction: legal on the control core only (R300). -/
def State.mxOp (s : State) (g : Guard) (srcs : List Src) (f : Nat → State → Flow × State) : State :=
  s.isa g { simt := false, srcs := srcs } f

/-- The value of an s operand. -/
def State.sval (s : State) (u : Nat) (r : RegF) : Nat := (s.src u r).toNat

def execMxa (g : Guard) (a b : RegF) (fmt : Fin 7) (sp : Bool) (s : State) : Result :=
  .next (s.mxOp g [⟨1, a, .int⟩, ⟨2, b, .int⟩] fun u s =>
    match s.mxBase u (mxUnit fmt.val) (s.sval u a) (s.sval u b) with
    | some f => (f, s)
    | none => s.mxIssue u (.opA ⟨fmt.val, sp, s.sval u a, s.sval u b⟩))

def execMxb (g : Guard) (a b : RegF) (fmt : Fin 7) (s : State) : Result :=
  .next (s.mxOp g [⟨1, a, .int⟩, ⟨2, b, .int⟩] fun u s =>
    match s.mxBase u (mxUnit fmt.val) (s.sval u a) (s.sval u b) with
    | some f => (f, s)
    | none => s.mxIssue u (.opB ⟨fmt.val, false, s.sval u a, s.sval u b⟩))

def execMxscale (g : Guard) (a b : RegF) (mode : Fin 3) (s : State) : Result :=
  .next (s.mxOp g [⟨1, a, .int⟩, ⟨2, b, .int⟩] fun u s =>
    let unit := match mode.val with
      | 0 => 1
      | 1 => 4
      | _ => 2
    match s.mxCheck u unit [s.sval u a, s.sval u b] [s.sval u a, s.sval u b] with
    | some f => (f, s)
    | none => s.mxIssue u (.scale mode.val (s.sval u a) (s.sval u b)))

def execMxsparse (g : Guard) (a b : RegF) (s : State) : Result :=
  .next (s.mxOp g [⟨1, a, .int⟩, ⟨2, b, .int⟩] fun u s =>
    match s.mxCheck u 4 [s.sval u a, s.sval u b] [s.sval u a] with
    | some f => (f, s)
    | none => s.mxIssue u (.sparse (s.sval u a) (s.sval u b)))

def execMxzero (g : Guard) (t : Fin 4) (s : State) : Result := .next (s.mxOp g [] fun u s => s.mxIssue u (.zero t.val))

/-- The issue checks of MXMMA (R309). -/
def Mx.mmaBad (m : Mx) (k p : Nat) : Bool :=
  k = 0 || decide (65536 < k) || k % 32 != 0 || match m.a, m.b with
    | some a, some b =>
      (a.sp && m.meta_.isNone) || ((a.fmt < 2 || b.fmt < 2) && (a.fmt != b.fmt || p != 0 || m.mode == 2)) ||
        (m.mode == 1 && (k % 128 != 0 || decide (2 < p)))
    | _, _ => true

def execMxmma (g : Guard) (t : Fin 4) (b c : RegF) (p : Fin 6) (s : State) : Result :=
  .next (s.mxOp g [⟨2, b, .int⟩, ⟨3, c, .int⟩] fun u s =>
    let k := s.sval u b
    match mxDims (s.sval u c) with
    | none => (s.badOperand, s)
    | some (m, n) =>
      if (s.clusterAt (clusterOf (s.thread u).id.core)).mx.view.mmaBad k p.val then (s.badOperand, s)
      else s.mxIssue u (.mma t.val k (2 ^ p.val) m n))

/-- The checks of MXLOAD and MXSTORE (R311, R312). -/
def State.mxMove (s : State) (u fmt : Nat) (a b c : RegF) (f : Nat → Nat → MxCmd) : Flow × State :=
  match s.mxBase u (mxSize fmt) (s.sval u a) (s.sval u b), mxDims (s.sval u c) with
  | some f, _ => (f, s)
  | none, none => (s.badOperand, s)
  | none, some (m, n) => s.mxIssue u (f m n)

def execMxload (g : Guard) (t : Fin 4) (a b c : RegF) (fmt : Fin 3) (s : State) : Result :=
  .next (s.mxOp g [⟨1, a, .int⟩, ⟨2, b, .int⟩, ⟨3, c, .int⟩] fun u s =>
    s.mxMove u fmt.val a b c fun m n => .load t.val fmt.val (s.sval u a) (s.sval u b) m n)

def execMxstore (g : Guard) (t : Fin 4) (a b c : RegF) (fmt : Fin 5) (s : State) : Result :=
  .next (s.mxOp g [⟨1, a, .int⟩, ⟨2, b, .int⟩, ⟨3, c, .int⟩] fun u s =>
    s.mxMove u fmt.val a b c fun m n => .store t.val fmt.val (s.sval u a) (s.sval u b) m n)

def execMxdrain (g : Guard) (t : Fin 4) (q : RegF) (s : State) : Result :=
  .next (s.mxOp g [] fun u s =>
    match queNo q with
    | none => (.trap 1 s.ext.iword false, s)
    | some n => match s.binding (s.thread u).id.crew n with
      | none => (misuse n, s)
      | some b => if b.ep = 1 && b.push then s.mxIssue u (.drain t.val n) else (misuse n, s))

/-- MXWAIT (R305): it waits until the queue is empty and the engine idle; a deferred error is raised and cleared. -/
def execMxwait (g : Guard) (s : State) : Result :=
  .next (s.mxOp g [] fun u s =>
    let cl := clusterOf (s.thread u).id.core
    let m := (s.clusterAt cl).mx
    if !m.queue.isEmpty then (.left, s.wait u .mx false 0 0)
    else match m.defer with
      | none => (.next, s)
      | some (c, v) => (.trap c v false, s.modCluster cl fun k => { k with mx := { k.mx with defer := none } }))

end Sys2Proof.Machine
end

