-- ==== Sys2Proof/Machine/Engine.lean ====
section
/-! DEFINITION. The matrix engine at work: MATRIX_ENGINE_COMMAND (spec/14 R306 to R318). -/

namespace Sys2Proof.Machine

/-! Elements in memory (R306). -/

/-- The float format of an operand code. -/
def mxFmt (code : Nat) : Fmt :=
  match code with
  | 0 => bf16
  | 1 => fp16
  | 2 => fpE4M3
  | 3 => fpE5M2
  | 4 => fpE3M2
  | 5 => fpE2M3
  | _ => fpE2M1

/-- Where element c of a row of w-bit elements stands: its byte offset, its lowest bit, and the bytes it is read from. -/
def mxPos (w c : Nat) : Nat × Nat × Nat :=
  match w with
  | 6 => (4 * (c / 5), 6 * (c % 5), 4)
  | 4 => (4 * (c / 8), 4 * (c % 8), 4)
  | _ => (w / 8 * c, 0, w / 8)

/-- Why a command does not go on: an access that did not succeed, or a deferred error. -/
inductive MxStop where
  | pub (p : PubStop)
  | defer (cause tval : Nat)
deriving DecidableEq, Repr

/-- An element read: its code and whether it is poisoned. -/
abbrev MxElem := Nat × Bool

/-- Elements c0 to c0 + n - 1 of the row at an address, up to the first whose address is beyond the limit (R306, R316). -/
def State.mxElems (s : State) (ag : Agent) (w va c0 n : Nat) : List MxElem × Option MxStop × State :=
  let addr (c : Nat) : Nat := va + (mxPos w c).1
  let ok := (rangeFrom c0 n).takeWhile fun c => decide (addr c < ag.lim)
  let stop := if ok.length < n then some (MxStop.defer 7 (addr (c0 + ok.length))) else none
  match ok.getLast? with
  | none => ([], stop, s)
  | some l =>
    let b0 := addr c0
    match s.gather ag b0 (addr l + (mxPos w l).2.2 - b0) with
    | (.error p, s) => ([], some (.pub p), s)
    | (.ok bs, s) =>
      let elem (c : Nat) : MxElem :=
        let mine := (bs.drop (addr c - b0)).take (mxPos w c).2.2
        (ofBytesLE (mine.map (·.1)) / 2 ^ (mxPos w c).2.1 % 2 ^ w, mine.any (·.2))
      (ok.map elem, stop, s)

/-- Elements that must all be read. -/
def State.mxRow (s : State) (ag : Agent) (w va c0 n : Nat) : Except MxStop (List MxElem) × State :=
  match s.mxElems ag w va c0 n with
  | (_, some p, s) => (.error p, s)
  | (l, none, s) => (.ok l, s)

/-- Reads for each number of a list, up to the first that does not succeed. -/
def mxAll {α : Type} (f : Nat → State → Except MxStop α × State) : List Nat → State → Except MxStop (List α) × State
  | [], s => (.ok [], s)
  | k :: ks, s => match f k s with
    | (.error p, s) => (.error p, s)
    | (.ok x, s) => match mxAll f ks s with
      | (.error p, s) => (.error p, s)
      | (.ok xs, s) => (.ok (x :: xs), s)

/-! A window of MXMMA (R307 to R310). -/

/-- A term of a row of A: its k, its code, whether it or its metadata is poisoned. -/
abbrev MxTerm := Nat × Nat × Bool

/-- The terms of row i of A for k from k0 to k1 - 1; a sparse row takes their places from its metadata (R307). Poisoned metadata is not
used: its terms stand outside the window. -/
def State.mxRowA (s : State) (ag : Agent) (o : MxOp) (md : Nat × Nat) (k0 k1 i : Nat) : Except MxStop (List MxTerm) × State :=
  let w := (mxFmt o.fmt).w
  let va := o.base + i * o.stride
  if !o.sp then match s.mxRow ag w va k0 (k1 - k0) with
    | (.error p, s) => (.error p, s)
    | (.ok l, s) => (.ok ((rangeFrom k0 (k1 - k0)).zip l), s)
  else match s.mxRow ag w va (k0 / 2) ((k1 - k0) / 2) with
    | (.error p, s) => (.error p, s)
    | (.ok l, s) => match s.mxRow ag 8 (md.1 + i * md.2) (k0 / 8) ((k1 - k0) / 8) with
      | (.error p, s) => (.error p, s)
      | (.ok m, s) =>
        let term (e : Nat × MxElem) : MxTerm :=
          let g := e.1 / 2
          let b := m.getD (g / 2 - k0 / 8) (0, false)
          (if b.2 then k1 else 4 * g + b.1 / 2 ^ (4 * (g % 2) + 2 * (e.1 % 2)) % 4, e.2.1, e.2.2 || b.2)
        (.ok (((rangeFrom (k0 / 2) ((k1 - k0) / 2)).zip l).map term), s)

/-- What a window has read: the rows of A, the rows of B by k, the tile scales, the block scales by k-step. -/
structure MxWin where
  rows : List (List MxTerm)
  cols : Map (List MxElem)
  sa   : List MxElem
  sb   : MxElem
  ba   : Map (List MxElem)
  bb   : Map (List MxElem)

/-- The reads of a window of the k-steps given, for M rows and N columns. -/
def State.mxRead (s : State) (ag : Agent) (m : Mx) (a b : MxOp) (steps : List Nat) (rows cols : Nat) :
    Except MxStop MxWin × State :=
  let k0 := 32 * steps.headD 0
  let k1 := k0 + 32 * steps.length
  let md := m.meta_.getD (0, 0)
  match mxAll (fun i s => s.mxRowA ag a md k0 k1 i) (rangeFrom 0 rows) s with
  | (.error p, s) => (.error p, s)
  | (.ok ra, s) =>
    let ks := setUnion [] ((ra.flatten.map (·.1)).filter (· < k1))
    match mxAll (fun k s => s.mxRow ag (mxFmt b.fmt).w (b.base + k * b.stride) 0 cols) ks s with
    | (.error p, s) => (.error p, s)
    | (.ok rb, s) =>
      let win : MxWin := ⟨ra, ks.zip rb, [], (0, false), [], []⟩
      let c := k0 / 128
      match m.mode with
      | 1 => match s.mxRow ag 32 (m.sa + 512 * c) 0 rows with
        | (.error p, s) => (.error p, s)
        | (.ok sa, s) => match s.mxRow ag 32 (m.sb + 4 * c) 0 1 with
          | (.error p, s) => (.error p, s)
          | (.ok sb, s) => (.ok { win with sa := sa, sb := sb.headD (0, false) }, s)
      | 2 => match mxAll (fun k s => s.mxRow ag 16 (m.sa + 256 * k) 0 rows) steps s with
        | (.error p, s) => (.error p, s)
        | (.ok ba, s) => match mxAll (fun k s => s.mxRow ag 16 (m.sb + 256 * k) 0 cols) steps s with
          | (.error p, s) => (.error p, s)
          | (.ok bb, s) => (.ok { win with ba := steps.zip ba, bb := steps.zip bb }, s)
      | _ => (.ok win, s)

/-- An element of a list by index. -/
def mxAt (l : List MxElem) (k : Nat) : MxElem := l.getD k (0, false)

/-- Element (i, j) depends on something poisoned (R307, R316). -/
def MxWin.poisoned (w : MxWin) (i j : Nat) : Bool :=
  (w.rows.getD i []).any (fun t => t.2.2 || (mxAt (w.cols.getD [] t.1) j).2) || (mxAt w.sa i).2 || w.sb.2 ||
    w.ba.any (fun e => (mxAt e.2 i).2) || w.bb.any (fun e => (mxAt e.2 j).2)

/-- The value of a block scale: nonzero bits 15:10 read as 0x3FF (R308). -/
def blockScale (h : Nat) : FV := s10Val (if h < 0x400 then h else 0x3FF)

/-- A product that is exact, with NV where it is 0 × ∞. -/
def FV.times (a b : FV) : FV × Fl :=
  let (p, inv) := a.mul b
  (p, if inv then 16 else 0)

/-- The exact sum of a k-step for element (i, j), scaled in block mode (R310). -/
def MxWin.stepSum (w : MxWin) (fa fb : Fmt) (mode i j st : Nat) : FV × Fl :=
  let ps := ((w.rows.getD i []).filter fun t => t.1 / 32 == st).map fun t => (fa.widen t.2.1).mul (fb.widen (mxAt (w.cols.getD [] t.1) j).1)
  let (v, f) := sumFV (ps.map (·.1)) (ps.any (·.2))
  if mode != 2 then (v, f)
  else
    let (v, f1) := v.times (blockScale (mxAt (w.ba.getD [] st) i).1)
    let (v, f2) := v.times (blockScale (mxAt (w.bb.getD [] st) j).1)
    (v, f ||| f1 ||| f2)

/-- The window's sum for element (i, j) in the inner format. -/
def MxWin.winSum (w : MxWin) (fa fb inner : Fmt) (mode i j : Nat) (steps : List Nat) : Nat × Fl :=
  (steps.foldl (fun (acc : Option Nat × Fl) st =>
    let (v, f) := w.stepSum fa fb mode i j st
    let (c, f1) := inner.ofFV v
    match acc.1 with
    | none => (some c, acc.2 ||| f ||| f1)
    | some x =>
      let (y, f2) := inner.add x c
      (some y, acc.2 ||| f ||| f1 ||| f2)) (none, 0)).map (fun o => o.getD 0) id

/-- The accumulator element (i, j) after the window (R310). -/
def MxWin.element (w : MxWin) (fa fb : Fmt) (mode i j : Nat) (steps : List Nat) (t : Nat) : Nat × Fl :=
  let inner := if fa.w = 16 then fp32 else fp22
  let (x, f) := w.winSum fa fb inner mode i j steps
  let one := fp32.widen 0x3F800000
  let (p, f1) := (inner.widen x).times (if mode = 1 then fp32.widen (mxAt w.sa i).1 else one)
  let (p, f2) := p.times (if mode = 1 then fp32.widen w.sb.1 else one)
  let (r, f3) := fp32.sum [fp32.widen t, p] ((f1 ||| f2) != 0)
  (r, f ||| f1 ||| f2 ||| f3)

/-- The key of element (i, j) of a tile. -/
def tileKey (t i j : Nat) : Nat := 16384 * t + 128 * i + j

def Mx.elem (m : Mx) (t i j : Nat) : Word × Bool := m.tiles.getD (0, false) (tileKey t i j)

def Mx.setElem (m : Mx) (t i j v : Nat) (p : Bool) : Mx :=
  { m with tiles := m.tiles.setD (0, false) (tileKey t i j) (BitVec.ofNat 64 v, p) }

/-- The command in progress sets flags (R296, R298). -/
def Mx.flag (m : Mx) (f : Fl) : Mx := { m with flags := m.flags ||| f, cur := m.cur ||| f }

/-- A window is folded into a tile (R310, R316). -/
def Mx.window (m : Mx) (w : MxWin) (a b : MxOp) (t : Nat) (steps : List Nat) (rows cols : Nat) : Mx :=
  let idx := (rangeFrom 0 rows).flatMap fun i => (rangeFrom 0 cols).map fun j => (i, j)
  idx.foldl (fun (m : Mx) (i, j) =>
    let e := m.elem t i j
    if w.poisoned i j then m.setElem t i j e.1.toNat true
    else if e.2 then m
    else
      let (r, f) := w.element (mxFmt a.fmt) (mxFmt b.fmt) m.mode i j steps e.1.toNat
      (m.setElem t i j r false).flag f) m

/-! Commands. -/

def MxJob.agent (s : State) (j : MxJob) : Agent :=
  { thr := j.thr, dom := j.dom, fn := (s.thread j.thr).id.fn, lvl := j.lvl, path := .mx, pc := j.pc }

def State.modMx (s : State) (cl : Nat) (f : Mx → Mx) : State := s.modCluster cl fun k => { k with mx := f k.mx }

/-- The command at the head is over. -/
def State.mxDone (s : State) (cl : Nat) : State :=
  s.modMx cl fun m => { m with queue := m.queue.tail, prog := 0, row := 0, stop := none, cur := 0 }

/-- A command ends in a deferred error: the later ones are discarded (R305, R316). -/
def State.mxDefer (s : State) (cl cause tval : Nat) : State :=
  s.modMx cl fun m => { m with queue := [], prog := 0, row := 0, stop := none, cur := 0, defer := some (cause, BitVec.ofNat 64 tval) }

/-- A command does not go on (R314 to R316). -/
def State.mxStop (s : State) (cl : Nat) (j : MxJob) (p : MxStop) : State :=
  let t := s.thread j.thr
  match p with
  | .defer c v => s.mxDefer cl c v
  | .pub .wait => s
  | .pub (.offline va d) =>
    if (s.pkg.die d).drst = 8 then s.mxDefer cl 0x0C 0 else s.holdFor d (.matrix cl) va (s.cycleOf (cl / 40))
  | .pub (.fault va c s2) =>
    if (c = 0x17 || c = 0x10) && j.rgn != 0 then (s.mxDone cl).regionEvent j.thr j.rgn c va
    else match s.engineRecord t.id.fn va t.id.asid t.ltid j.thr c s2 (.matrix cl) with
      | (none, s) => s.failCrew t.id.crew c
      | (some q, s) => s.modMx cl fun m => { m with stop := some q, fseq := if q = noSeq then m.fseq else q }

/-- The VA of a poisoned operand is not told apart among those of the window: any address. -/
def State.mxPoisonEvent (s : State) (j : MxJob) (hit : Bool) : State :=
  if hit && j.rgn != 0 then
    let (va, s) := choose (2 ^ 48) s
    s.regionEvent j.thr j.rgn 0x0B va
  else s

/-- The next window of MXMMA. -/
def State.mxMma (s : State) (cl : Nat) (j : MxJob) (t k p rows cols : Nat) : State :=
  let m := (s.clusterAt cl).mx
  match m.a, m.b with
  | some a, some b =>
    let w := m.prog / (32 * p)
    let steps := rangeFrom (w * p) (Nat.min p (k / 32 - w * p))
    match s.mxRead (j.agent s) m a b steps rows cols with
    | (.error e, s) => s.mxStop cl j e
    | (.ok win, s) =>
      let hit := (rangeFrom 0 rows).any fun i => (rangeFrom 0 cols).any fun c => win.poisoned i c
      let s := s.modMx cl fun m => { m.window win a b t steps rows cols with prog := 32 * p * (w + 1) }
      let s := if k ≤ 32 * p * (w + 1) then s.mxDone cl else s
      s.mxPoisonEvent j hit
  | _, _ => s.mxDone cl

/-- An element of MXLOAD as FP32 (R311). -/
def mxWiden (fmt c : Nat) : Nat := if fmt = 2 then c else (fp32.convert ((mxFmt fmt).widen c)).1

/-- The rows of MXLOAD from row i on: what stops them, if anything. -/
def State.mxLoadRows (s : State) (cl : Nat) (j : MxJob) (t fmt base stride n : Nat) : List Nat → Option MxStop × State
  | [] => (none, s)
  | i :: is =>
    match s.mxElems (j.agent s) (8 * mxSize fmt) (base + i * stride) 0 n with
    | (l, stop, s) =>
      let s := s.modMx cl fun m => (l.zip (rangeFrom 0 n)).foldl (fun (m : Mx) e => m.setElem t i e.2 (mxWiden fmt e.1.1) e.1.2) m
      match stop with
      | some p => (some p, s)
      | none => State.mxLoadRows s cl j t fmt base stride n is

/-- An element as MXSTORE writes it, with its flags (R312). -/
def mxNarrow (fmt v : Nat) : Nat × Fl :=
  match fmt with
  | 0 => bf16.convert (fp32.widen v)
  | 1 => fp16.convert (fp32.widen v)
  | 2 => (v, 0)
  | 3 => fpE4M3.convert (fp32.widen v)
  | _ => fpE5M2.convert (fp32.widen v)

/-- One element of MXSTORE: a plain store on the MX path, folded into the signature (R312, R322). -/
def State.mxPut (s : State) (cl : Nat) (j : MxJob) (fmt va : Nat) (e : Word × Bool) : State :=
  let (c, f) := mxNarrow fmt e.1.toNat
  let bs := bytesLE (mxSize fmt) c
  let s := (s.plainStore (j.agent s) va bs e.2).fold j.thr va bs
  if e.2 then s else s.modMx cl fun m => m.flag f

/-- The rows of MXSTORE: what stops them, if anything. -/
def State.mxStoreRows (s : State) (cl : Nat) (j : MxJob) (t fmt base stride n : Nat) : List Nat → Option MxStop × State
  | [] => (none, s)
  | i :: is =>
    let z := mxSize fmt
    let va := base + i * stride
    let ag := j.agent s
    let k := ((rangeFrom 0 n).takeWhile fun c => decide (va + c * z < ag.lim)).length
    match s.canWrite ag va (k * z) with
    | (some p, s) => (some (.pub p), s)
    | (none, s) =>
      let s := (rangeFrom 0 k).foldl (fun (s : State) c => s.mxPut cl j fmt (va + c * z) ((s.clusterAt cl).mx.elem t i c)) s
      if k < n then (some (.defer 7 (va + k * z)), s) else State.mxStoreRows s cl j t fmt base stride n is

/-- The next row of MXDRAIN (R313). -/
def State.mxDrainRow (s : State) (cl : Nat) (t : Nat) : State :=
  let m := (s.clusterAt cl).mx
  let poi := m.tiles.any fun e => e.1 / 16384 == t && e.2.2
  if m.row = 0 && poi then s.mxDefer cl 0x0B t
  else
    let row := (rangeFrom 0 32).map fun c => (m.elem t (m.row / 4) (32 * (m.row % 4) + c)).1
    let s := s.modCluster cl fun k => { k with outbox := k.outbox ++ [row] }
    if m.row = 511 then s.mxDone cl else s.modMx cl fun m => { m with row := m.row + 1 }

/-- The command at the head of a cluster's queue goes on. -/
def State.mxStep (s : State) (cl : Nat) : State :=
  match (s.clusterAt cl).mx.queue with
  | [] => s
  | j :: _ => match j.cmd with
    | .opA _ => (s.modMx cl fun m => m.after [j]).mxDone cl
    | .opB _ => (s.modMx cl fun m => m.after [j]).mxDone cl
    | .scale _ _ _ => (s.modMx cl fun m => m.after [j]).mxDone cl
    | .sparse _ _ => (s.modMx cl fun m => m.after [j]).mxDone cl
    | .zero t => (s.modMx cl fun m => { m with tiles := m.tiles.filter fun e => e.1 / 16384 != t }).mxDone cl
    | .load t fmt base stride m n => match s.mxLoadRows cl j t fmt base stride n (rangeFrom 0 m) with
      | (some p, s) => s.mxStop cl j p
      | (none, s) => s.mxDone cl
    | .mma t k p m n => s.mxMma cl j t k p m n
    | .store t fmt base stride m n => match s.mxStoreRows cl j t fmt base stride n (rangeFrom 0 m) with
      | (some p, s) => s.mxStop cl j p
      | (none, s) => s.mxDone cl
    | .drain t _ => s.mxDrainRow cl t

/-- The engine of a cluster has something to do now. -/
def State.mxReady (s : State) (cl : Nat) : Bool :=
  let k := s.clusterAt cl
  match k.mx.queue with
  | [] => false
  | j :: _ => k.mx.stop.isNone && !s.isHeld (.matrix cl) && match j.cmd with
    | .drain t _ => rowCount k.outbox + 32 ≤ 256 || (k.mx.row = 0 && k.mx.tiles.any fun e => e.1 / 16384 == t && e.2.2)
    | _ => true

/-- The clusters whose engine can go on. -/
def State.mxClusters (s : State) : List Nat := (s.core.clusters.map (·.1)).filter fun k => s.mxReady k && s.turnOf (.matrix k)

/-- MATRIX_ENGINE_COMMAND (R304): an engine goes on with its command: a window of MXMMA, a row of MXDRAIN, or a whole command of
another kind. -/
def execMatrixEngineCommand (s : State) : Result :=
  .next (match s.mxClusters with
    | [] => s
    | c :: cs => let (k, s) := chooseFrom (c :: cs) c s; (s.unOrder (.matrix k)).mxStep k)

end Sys2Proof.Machine
end

