-- ==== Sys2Proof/Machine/CollFam.lean ====
section
/-! DEFINITION. Collectives: major 0x22 and the collective engine (spec/04 R86 to R95, R100 to R103; spec/20 R434 to R438). -/

namespace Sys2Proof.Machine

/-! Descriptors (R87, R88). -/

/-- A descriptor's fields. -/
structure CDesc where
  ctl    : Nat
  src    : Nat
  dst    : Nat
  count  : Nat
  weight : Nat
  vtag   : Nat
  key    : Nat
  status : Nat
  offset : Nat
  zero   : Nat
deriving DecidableEq, Repr

def CDesc.ofBytes (b : List Byte) : CDesc :=
  let f (o n : Nat) : Nat := ofBytesLE ((b.drop o).take n)
  ⟨f 0 8, f 8 8, f 0x10 8, f 0x18 4, f 0x1C 4, f 0x20 4, f 0x24 4, f 0x28 8, f 0x30 4, f 0x34 12⟩

def CDesc.op (d : CDesc) : Nat := bitsOf d.ctl 3 0
def CDesc.red (d : CDesc) : Nat := bitsOf d.ctl 5 4
def CDesc.fmt (d : CDesc) : Nat := bitsOf d.ctl 7 6
def CDesc.mode (d : CDesc) : Nat := bitsOf d.ctl 9 8
def CDesc.peer (d : CDesc) : Nat := bitsOf d.ctl 21 11

/-- The bytes of an element of a format. -/
def cSize (fmt : Nat) : Nat :=
  match fmt with
  | 0 => 4
  | 1 => 2
  | _ => 1

def cFmt (fmt : Nat) : Fmt :=
  match fmt with
  | 0 => fp32
  | 1 => bf16
  | 2 => fpE4M3
  | _ => fpE5M2

/-- The smallest L with 2^L ≥ n (R88). -/
def ceilLog (n : Nat) : Nat := ((rangeFrom 0 12).find? fun l => decide (n ≤ 2 ^ l)).getD 12

/-- The step count of an operation over n members (R88). -/
def stepCount (op n : Nat) : Nat :=
  match op with
  | 0 => 2 * ceilLog n
  | 1 => ceilLog n
  | _ => 1

/-! What an operation does at a member (R88, R91). -/

/-- An action of a run: read elements of the source; send elements of the contribution or of the result (those of the contribution of a
reduction as FP32); take a partial result and combine it; take elements of the result; place own elements; compute the
result at the root; choose the role of a put or get; tell the partner the sizes, and compare them with the partner's; write DST; end a
step. -/
inductive CAct where
  | load (lo n : Nat)
  | give (step to_ lo n : Nat) (wide final : Bool)
  | comb (step from_ : Nat)
  | take (step from_ lo n : Nat)
  | own (lo dst n : Nat)
  | root
  | role
  | hello
  | peer
  | out
  | mark (step : Nat)
deriving DecidableEq, Repr

/-- The position of a module in a set. -/
def posOf (set : List Nat) (m : Nat) : Nat := (set.takeWhile (· != m)).length

/-- The reduce steps of the binomial tree of R91 at position i of n. -/
def reduceActs (set : List Nat) (i len : Nat) : List CAct :=
  let n := set.length
  let j := n - 1 - i
  (rangeFrom 1 (ceilLog n)).flatMap fun st =>
    let h := 2 ^ (st - 1)
    (if j % 2 ^ st = h then [CAct.give st (set.getD (i + h) 0) 0 len true false]
      else if j % 2 ^ st = 0 && decide (h ≤ i) then [CAct.comb st (set.getD (i - h) 0)] else [])

/-- Marks of the steps from 1 on, each after its actions. -/
def stepActs (f : Nat → List CAct) (from_ n : Nat) : List CAct := (rangeFrom from_ n).flatMap fun st => f st ++ [CAct.mark st]

/-- The actions of an operation at a module that is a member of its set. -/
def planOf (op count : Nat) (role : Option (Bool × Nat × Nat)) (set : List Nat) (self peer : Nat) : List CAct :=
  let n := set.length
  let i := posOf set self
  let j := n - 1 - i
  let l := ceilLog n
  let others := set.filter (· != self)
  match op with
  | 0 =>
    let up (st : Nat) : List CAct := (reduceActs set i count).filter fun a => match a with
      | .give k _ _ _ _ _ => k == st
      | .comb k _ => k == st
      | _ => false
    let down (k : Nat) : List CAct :=
      let st := 2 * l + 1 - k
      let h := 2 ^ (st - 1)
      if j % 2 ^ st = h then [.take k (set.getD (i + h) 0) 0 count, .out]
      else if j % 2 ^ st = 0 && decide (h ≤ i) then [.give k (set.getD (i - h) 0) 0 count false true] else []
    [.load 0 count] ++ stepActs up 1 l ++ (if j = 0 then [.root, .out] else []) ++ stepActs down (l + 1) l
  | 1 =>
    let up (st : Nat) : List CAct := (reduceActs set i (n * count)).filter fun a => match a with
      | .give k _ _ _ _ _ => k == st
      | .comb k _ => k == st
      | _ => false
    let last : List CAct := if j = 0 then
        [.root] ++ others.map (fun m => .give l m (count * posOf set m) count false true) ++ [.own (count * i) 0 count, .out]
      else [.take l (set.getD (n - 1) 0) 0 count, .out]
    [.load 0 (n * count)] ++ stepActs up 1 (l - 1) ++ up l ++ last ++ (if l = 0 then [] else [.mark l])
  | 2 => [.load 0 count, .own 0 (count * i) count] ++ others.map (fun m => .give 1 m 0 count false false) ++
      others.map (fun m => .take 1 m (count * posOf set m) count) ++ [.out, .mark 1]
  | 3 => [.load 0 (n * count), .own (count * i) (count * i) count] ++
      others.map (fun m => .give 1 m (count * posOf set m) count false false) ++
      others.map (fun m => .take 1 m (count * posOf set m) count) ++ [.out, .mark 1]
  | 4 => if peer = self then [.load 0 count, .own 0 0 count] ++ others.map (fun m => .give 1 m 0 count false false) ++ [.out, .mark 1]
      else [.take 1 peer 0 count, .out, .mark 1]
  | 5 => [.hello, .load 0 count, .give 1 peer 0 count false false, .peer, .mark 1]
  | 6 => [.hello, .peer, .take 1 peer 0 count, .out, .mark 1]
  | _ => match role with
    | none => [.role]
    | some (init, lo, m) =>
      if (op == 7) == init then [.hello, .peer, .load (if init then 0 else lo) m, .give 1 peer 0 m false false, .mark 1]
      else [.hello, .peer, .take 1 peer 0 m, .out, .mark 1]

def CollOp.plan (o : CollOp) (self : Nat) : List CAct := planOf o.op o.count o.win o.set self o.peer

def CollOp.agent (o : CollOp) : Agent := { thr := o.thr, dom := o.dom, fn := o.fn, lvl := o.lvl, path := .cl, eng := 1 + o.thr, unit := cSize o.fmt }

/-! Data (R91, R92). -/

/-- The elements that a flit carries (R81). -/
def chunkElems (size : Nat) : Nat := 224 / size

/-- The key of received data. -/
def gotKey (src step chunk : Nat) : Nat := (src * 64 + step) * 2 ^ 30 + chunk

/-- The elements received from a module for a step and what came beside them, when all n are here. -/
def CollOp.message (o : CollOp) (src step n size : Nat) : Option (List CVal × FlitInfo) :=
  let per := chunkElems size
  let part (k : Nat) : Option (List CVal × FlitInfo) := (o.got.find (gotKey src step k)).map fun m =>
    ((rangeFrom 0 (Nat.min per (n - k * per))).map fun j => (ofBytesLE ((m.1.drop (j * size)).take size), m.2.bad.contains j), m.2)
  let parts := (rangeFrom 0 ((n + per - 1) / per)).map part
  match parts.head?.join with
  | some p => if parts.all Option.isSome then some (parts.flatMap fun p => (p.map (·.1)).getD [], p.2) else none
  | none => none

/-- What travels beside the flits of an operation. -/
def CollOp.beside (o : CollOp) : FlitInfo :=
  { FlitInfo.none with
    count := o.count, off := o.offset, init := (o.win.map (·.1)).getD false, weights := o.ws, div := o.div, flags := o.flags.toNat }

/-- A data flit of an operation (R81): the transport header, then the elements; bytes after the last element are free. -/
def State.sendChunk (s : State) (o : CollOp) (step chunk to_ size : Nat) (l : List CVal) : State :=
  let bs := bytesLE 4 o.key ++ bytesLE 4 o.tag ++ bytesLE 4 step ++ bytesLE 4 chunk ++ l.flatMap fun e => bytesLE size e.1
  let (pad, s) := freeBytes (240 - bs.length) s
  s.post ⟨1, to_, bs ++ pad, o.tag, { o.beside with bad := (rangeFrom 0 l.length).filter fun k => (l.getD k (0, false)).2 }⟩

/-- Elements leave for a module, in chunks (R81, R84). -/
def State.sendElems (s : State) (o : CollOp) (step to_ size : Nat) (l : List CVal) : State :=
  let per := chunkElems size
  (rangeFrom 0 ((l.length + per - 1) / per)).foldl (fun (s : State) k => s.sendChunk o step k to_ size ((l.drop (k * per)).take per)) s

/-- A source element as a contribution (R92): a reduction converts it to FP32, and sum and mean weigh it. -/
def CollOp.contribution (o : CollOp) (c : Nat) : Nat × Fl :=
  if 2 ≤ o.op then (c, 0)
  else
    let x := if o.fmt = 0 then c else (fp32.convert ((cFmt o.fmt).widen c)).1
    if o.red < 2 then fp32.mul o.weight x else (x, 0)

/-- ⊕ of R92: the sender's value on the left. -/
def CollOp.join (o : CollOp) (a b : CVal) : CVal × Fl :=
  if a.2 || b.2 then ((b.1, true), 0)
  else if o.red < 2 then let (c, f) := fp32.add a.1 b.1; ((c, false), f)
  else ((fp32.minmax (o.red == 3) a.1 b.1, false), 0)

/-- A quotient of FP32 values, correctly rounded. -/
def fdiv32 (a b : Nat) : Nat × Fl :=
  match fp32.widen a, fp32.widen b with
  | .nan _, _ => (fp32.nanCode, 0)
  | _, .nan _ => (fp32.nanCode, 0)
  | .inf _, .inf _ => (fp32.nanCode, 16)
  | .inf x, .fin y _ _ => (fp32.signed (x != y) fp32.infCode, 0)
  | .fin x _ _, .inf y => (fp32.signed (x != y) 0, 0)
  | .fin x m e, .fin y n g => if n = 0 then (fp32.nanCode, 16) else fp32.narrowQ false (x != y) m n (e - g)

/-- The result at the root of one element: divided for mean, narrowed to the format (R92). -/
def CollOp.result (o : CollOp) (c : Nat) : Nat × Fl :=
  let (q, f) := if o.red = 1 then
      (if (fp32.widen o.div).isNegZero || fp32.widen o.div == .fin false 0 (1 - 127 - 23) then (fp32.nanCode, (16 : Fl)) else fdiv32 c o.div)
    else (c, 0)
  if o.fmt = 0 then (q, f)
  else let (r, g) := (cFmt o.fmt).convert (fp32.widen q); (r, f ||| g)

/-- D of R92 and its flags. -/
def sumWeights : List Nat → Nat × Fl
  | [] => (0, 0)
  | w :: ws => ws.foldl (fun (a : Nat × Fl) x => let (c, f) := fp32.add a.1 x; (c, a.2 ||| f)) (w, 0)

/-- A list with values written from index lo on. -/
def putAt (l : List CVal) (lo : Nat) (vs : List CVal) : List CVal := l.take lo ++ List.replicate (lo - l.length) (0, false) ++ vs ++ l.drop (lo + vs.length)

/-! The end of an operation (R94, R95). -/

/-- An entry of a table fires (R94): its counter is decremented by a node that knows the release of the completion (R90). -/
def State.fireEntry (s : State) (o : CollOp) (e : StepEnt) : State :=
  match s.counterOf o.fn e.va with
  | some (ix, _) => s.chore (.step ix { o.know with ids := setUnion o.know.ids o.rel } o.dom o.fn)
  | none => s

/-- The entries of an operation that meet a condition and have not fired fire, in table order. -/
def State.fireEntries (s : State) (id : Nat) (p : StepEnt → Bool) : State :=
  match s.plat.nor.ops.find id with
  | none => s
  | some o =>
    let s := s.modOp id fun o => { o with steps := o.steps.map fun e => (e.1, e.2 || p e.1) }
    (o.steps.filter fun e => !e.2 && p e.1).foldl (fun (s : State) e => s.fireEntry o e.1) s

/-- FLAGS of R95. -/
def CollOp.flagBits (o : CollOp) : Nat :=
  let b (f : BitVec 5) (k : Nat) : Nat := if o.flags &&& f != 0 then 2 ^ k else 0
  o.rerun.toNat + 2 * o.rebc.toNat + b flNV 2 + b flOF 3 + b flUF 4 + b flNX 5

/-- The status word of R95. -/
def CollOp.word (o : CollOp) : Nat :=
  if o.written then o.tag * 2 ^ 32 + o.runs * 2 ^ 24 + o.flagBits * 2 ^ 16 + o.code.getD 0 else 0xFFFF

/-- The status record of R95. MEMBERS of an operation that ends with no completing run is the size of the set of its last run, 0 with none (DESIGN
CHOICE, log 156). -/
def CollOp.record (o : CollOp) : List Byte :=
  bytesLE 2 (o.code.getD 0) ++ bytesLE 1 o.flagBits ++ bytesLE 1 o.runs ++ bytesLE 4 o.tag ++ bytesLE 4 o.set.length ++
    bytesLE 4 (if o.op < 2 && o.red = 1 then o.div else 0)

/-- The unpublished DST writes of an operation are published by a release (R90). -/
def State.publishCl (s : State) (o : CollOp) (rel : Nat) : State :=
  let f (w : Wr) : Wr := if w.dom == some o.dom && w.thr == o.thr && w.path == .cl && w.pubs.isEmpty then { w with pubs := [rel] } else w
  s.onMem fun m => { m with hist := m.hist.map fun e => (e.1, e.2.map fun v => (v.1, f v.2)) }

/-- The operation is over: the release, then the entries that have not fired. The slot of one that nobody waits for is free. -/
def State.collOver (s : State) (id rel : Nat) : State :=
  let s := s.modOp id fun o => { o with written := true, rel := [rel], fseq := none }
  let s := s.fireEntries id fun _ => true
  match s.plat.nor.ops.find id with
  | some o => if o.crew = 0 then s.freeOp id o else s
  | none => s

/-- The operation completes without a status record (R95): the release still publishes its DST writes. -/
def State.collFinish (s : State) (id : Nat) : State :=
  match s.plat.nor.ops.find id with
  | none => s
  | some o =>
    let (k, s) := s.release o.know .dev o.dom.core
    (s.publishCl o k).collOver id k

/-- The loss of a die ends what waits for it: the operation with 0x0C, or the write of its record (R74, R95). -/
def State.collLost (s : State) (id : Nat) : State :=
  match s.plat.nor.ops.find id with
  | some o => if o.code.isSome then s.collFinish id else s.collEnd id 0x0C
  | none => s

/-- An access of the engine did not succeed (R95, R74). With the fault queue disabled the spec names no outcome: the fault then acts as one
that FAIL answers (DESIGN CHOICE, log 28). -/
def State.collStop (s : State) (id : Nat) (o : CollOp) (p : PubStop) : State :=
  match p with
  | .wait => s
  | .offline va d =>
    if (s.pkg.die d).drst = 8 then s.collLost id
    else s.holdFor d (.coll id) va (s.cycleOf o.die)
  | .fault va c s2 =>
    match s.engineRecord o.fn va o.asid o.ltid o.thr c s2 (.coll o.die (id % 256)) with
    | (none, s) => if o.code.isSome then (s.modOp id fun o => { o with code := some c }).collFinish id else (s.collEnd id c).breakNotice o
    | (some q, s) => s.modOp id fun o => { o with fseq := some q }

/-- The release of the completion and the status record (R95). -/
def State.collRecord (s : State) (id : Nat) (o : CollOp) : State :=
  if o.status = 0 then s.collFinish id
  else match s.spread o.agent o.status 16 with
    | (.error p, s) => s.collStop id o p
    | (.ok l, s) =>
      let (k, s) := s.release o.know .dev o.dom.core
      let s := s.publishCl o k
      (s.scatter o.agent o.ltid [k] o.status l (o.record.map fun b => (b, false))).collOver id k

/-! The engine's actions. -/

/-- DST is written, once (R90); a poisoned element poisons its block. -/
def State.collOut (s : State) (id : Nat) (o : CollOp) : Bool × State :=
  let z := cSize o.fmt
  let off := match o.op, o.win with
    | 7, some (false, k, _) => k
    | _, _ => 0
  let va := o.dst + off * z
  let bs := o.buf.flatMap fun e => (bytesLE z e.1).map fun b => (b, e.2)
  match s.spread o.agent va bs.length with
  | (.error p, s) => (false, (s.modOp id fun o => { o with final := some o.buf }).collStop id o p)
  | (.ok l, s) =>
    let s := s.scatter o.agent o.ltid [] va l bs
    (true, s.modOp id fun o => { o with final := some o.buf })

/-- The source is read and becomes the contribution (R90, R92). -/
def State.collLoad (s : State) (id : Nat) (o : CollOp) (lo n : Nat) : Bool × State :=
  let z := cSize o.fmt
  match s.gather o.agent (o.src + lo * z) (n * z) with
  | (.error p, s) => (false, s.collStop id o p)
  | (.ok bs, s) =>
    let elem (k : Nat) : CVal × Fl :=
      let mine := (bs.drop (k * z)).take z
      let c := ofBytesLE (mine.map (·.1))
      if mine.any (·.2) then ((c, true), 0) else let (v, f) := o.contribution c; ((v, false), f)
    let es := (rangeFrom 0 n).map elem
    (true, s.modOp id fun o => { o with part := es.map (·.1), flags := o.flags ||| orFl (es.map (·.2)) })

/-- The sizes of the partner are here (R88): a put or get past its window, or a send and a receive of different COUNTs, ends with 0x19. -/
def State.collPeer (s : State) (id : Nat) (o : CollOp) (x : FlitInfo) : State :=
  match o.win with
  | none => if x.count != o.count then s.collEnd id 0x19 else s
  | some (init, _, _) =>
    let off := if init then o.offset else x.off
    let n := if init then o.count else x.count
    if (if init then x.count else o.count) < off + n then s.collEnd id 0x19 else s.modOp id fun o => { o with win := some (init, off, n) }

/-- One action of an operation; whether it is done. -/
def State.collAct (s : State) (id : Nat) (o : CollOp) (a : CAct) : Bool × State :=
  match a with
  | .load lo n => s.collLoad id o lo n
  | .give st to_ lo n wide fin_ =>
    let src := if fin_ then o.buf else o.part
    (true, s.sendElems o st to_ (if wide then 4 else cSize o.fmt) ((src.drop lo).take n))
  | .comb st m => match o.message m st o.part.length 4 with
    | none => (false, s)
    | some (es, x) =>
      let rs := (es.zip o.part).map fun e => o.join e.1 e.2
      (true, s.modOp id fun o => { o with
        part := rs.map (·.1), flags := o.flags ||| orFl (rs.map (·.2)) ||| BitVec.ofNat 5 x.flags
        ws := x.weights.foldl (fun w e => w.put e.1 e.2) o.ws })
  | .take st m lo n => match o.message m st n (cSize o.fmt) with
    | none => (false, s)
    | some (es, x) =>
      (true, s.modOp id fun o => { o with
        buf := putAt o.buf lo es, flags := if o.op < 2 then o.flags ||| BitVec.ofNat 5 x.flags else o.flags
        div := if o.op < 2 then x.div else o.div })
  | .own lo dst n =>
    let src := if o.op = 1 then o.buf else o.part
    (true, s.modOp id fun o => { o with buf := if o.op = 1 then (src.drop lo).take n else putAt o.buf dst ((src.drop lo).take n) })
  | .root =>
    let (d, f0) := if o.red = 1 then sumWeights (o.set.map (o.ws.getD 0)) else (0, 0)
    let o := { o with div := d }
    let rs := o.part.map fun e => if e.2 then (e, (0 : Fl)) else let (c, f) := o.result e.1; ((c, false), f)
    (true, s.modOp id fun o => { o with div := d, buf := rs.map (·.1), whole := rs.map (·.1), flags := o.flags ||| f0 ||| orFl (rs.map (·.2)) })
  | .role =>
    -- no field of a descriptor says which side opens the window: the partner's word, if it is here, else a free choice (log 122)
    let (b, s) := match o.got.find (gotKey o.peer 0 0) with
      | some m => (!m.2.init, s)
      | none => chooseBool s
    (true, s.modOp id fun o => { o with win := some (b, 0, 0) })
  | .hello => (true, s.sendChunk o 0 0 o.peer 1 [])
  | .peer => match o.got.find (gotKey o.peer 0 0) with
    | none => (false, s)
    | some m => (true, s.collPeer id o m.2)
  | .out => s.collOut id o
  | .mark st =>
    let s := s.modOp id fun o => { o with past := setIns o.past st }
    (true, s.fireEntries id fun e => e.step == st)

/-- The engine goes on with an operation: one action, the end of the run, or the status record. -/
def State.collStep (s : State) (id : Nat) : State :=
  match s.plat.nor.ops.find id with
  | none => s
  | some o =>
    if o.written then s
    else if o.code.isSome then s.collRecord id o
    else match (o.plan s.plat.nor.view.self_).drop o.next with
      | [] => s.collEnd id (if (o.final.getD []).any (·.2) then 0x0B else 0)
      | a :: _ =>
        let (ok, s) := s.collAct id o a
        if ok then s.modOp id fun o => { o with next := if a == .role then 0 else o.next + 1 } else s

/-- The data that an action waits for is here. -/
def CollOp.ready (o : CollOp) (self : Nat) : Bool :=
  !o.written && o.fseq.isNone && (o.code.isSome || (o.wait = 0 && match (o.plan self).drop o.next with
    | .comb st m :: _ => (o.message m st o.part.length 4).isSome
    | .take st m _ n :: _ => (o.message m st n (cSize o.fmt)).isSome
    | .peer :: _ => (o.got.find (gotKey o.peer 0 0)).isSome
    | _ => true))

/-- A result stays as this module has reported it: from its acknowledgement of a proposal until the view installs, no result becomes final here
(DESIGN CHOICE, log 156: R100 takes the acknowledgements for what is held at installation). -/
def State.resultHeld (s : State) (o : CollOp) : Bool :=
  s.plat.nor.view.prop.isSome && o.final.isNone && o.code.isNone && ((o.plan s.plat.nor.view.self_).drop o.next).head? == some .out

/-- The operations that can go on; those of a lost die have ended and have their status still to be written (R101). -/
def State.collsReady (s : State) : List Nat :=
  (s.plat.nor.ops.filter fun e => e.2.ready s.plat.nor.view.self_ && !s.isHeld (.coll e.1) && !s.resultHeld e.2 &&
    ((s.pkg.die e.2.die).drst == 0 || ((s.pkg.die e.2.die).drst == 8 && e.2.code.isSome))).map (·.1)

/-- A delivered flit is taken (R91, R100): an older tag is discarded, a newer one stays; for an operation that waits for a fixed
result its data complete the result. -/
def State.takeFlit (s : State) (f : CFlit) : State :=
  match s.plat.nor.ops.find? fun e => e.2.key == f.key && !e.2.written && e.2.tag == f.tag with
  | none => s
  | some (id, _) =>
    if f.step = 0 && f.chunk = 1 then s.collEnd id 0x0E
    else s.modOp id fun o => { o with got := o.got.put (gotKey f.src f.step f.chunk) (f.data, f.x) }

/-- The flits that the engines can take now: their view is installed, and an operation of their KEY is here or their view is
older. -/
def State.flitsReady (s : State) : List CFlit :=
  s.plat.nor.inq.filter fun f => decide (f.tag < s.plat.nor.view.num) ||
    s.plat.nor.ops.any fun e => e.2.key == f.key && e.2.tag == f.tag && e.2.wait != 1 && !e.2.written

/-! Runs under views (R100, R101). -/

/-- A run starts over a set under the present view. -/
def State.collRun (s : State) (id : Nat) (set : List Nat) (again : Bool) : State :=
  let v := s.plat.nor.view
  s.modOp id fun o => { o with
    set := set, tag := v.num, runs := Nat.min (o.runs + 1) 255, next := 0, wait := 0, part := [], got := [], ws := [(v.self_, o.weight)]
    buf := [], final := none, whole := []
    win := none, flags := 0, div := 0, rerun := o.rerun || again, fseq := none }

/-- The member set of an operation under a view (R88, R101). -/
def CollOp.setUnder (o : CollOp) (members : List Nat) (self : Nat) : List Nat :=
  if 5 ≤ o.op then setUnion [] [self, o.peer] else members

/-- A fixed result: the data come from the lowest-positioned survivor that holds it (R100); entries of `fixed` are
2^32 · member + KEY. -/
def holders (fixed members : List Nat) (key : Nat) : List Nat :=
  members.filter fun m => fixed.contains (2 ^ 32 * m + key)

/-- An operation at the installation of a view. -/
def State.collInstall (s : State) (members fixed : List Nat) (id : Nat) (o : CollOp) : State :=
  let self := s.plat.nor.view.self_
  let hs := holders fixed members o.key
  if o.written || o.code.isSome then s
  else if o.wait = 1 then
    let set := o.setUnder members self
    (s.modOp id fun o => { o with orig := set }).collRun id set false
  else if o.final.isSome then s
  else if !hs.isEmpty then
    let n := o.setUnder members self
    s.modOp id fun o => { o with wait := 3, tag := s.plat.nor.view.num, rebc := true, got := [], fseq := none, set := if o.set.isEmpty then n else o.set }
  else if o.orig.all members.contains then s.collRun id o.orig true
  else match o.mode with
    | 0 => s.modOp id fun o => { o with wait := 2, fseq := none }
    | 1 => s.collRun id (o.orig.filter members.contains) true
    | _ => s.collEnd id 0x0F

/-- The module that sends a fixed result: the lowest-positioned survivor that holds it (R100). What the members of a reduce-scatter lack is the
whole result, which the root of its tree holds. -/
def CollOp.sender (o : CollOp) (hs : List Nat) : Option Nat :=
  match o.op, o.set.getLast? with
  | 1, some r => if hs.contains r then some r else hs.head?
  | _, _ => hs.head?

/-- The elements that a member lacks of a fixed result that is held here (R100): for a reduce-scatter its own block, where the whole result is here.
Blocks that no survivor holds, of a reduce-scatter whose root is gone and of an all-to-all, are free (DESIGN CHOICE, log 156). -/
def CollOp.share (o : CollOp) (l : List CVal) (m : Nat) (s : State) : List CVal × State :=
  let none_ (n : Nat) : List CVal × State :=
    let (bs, s) := freeBytes (n * cSize o.fmt) s
    ((rangeFrom 0 n).map fun k => (ofBytesLE ((bs.drop (k * cSize o.fmt)).take (cSize o.fmt)), false), s)
  match o.op with
  | 1 => if o.whole.isEmpty then none_ o.count else ((o.whole.drop (o.count * posOf o.set m)).take o.count, s)
  | 3 => none_ (o.count * o.set.length)
  | _ => (l, s)

/-- The results that this module holds and others lack are sent (R100). -/
def State.rebroadcast (s : State) (members fixed : List Nat) : State :=
  let self := s.plat.nor.view.self_
  let have_ (key : Nat) : Option (CollOp × List CVal) :=
    match s.plat.nor.ops.find? fun e => e.2.key == key && e.2.final.isSome with
    | some (_, o) => some (o, o.final.getD [])
    | none => (s.plat.nor.finals.find key).map fun o => (o, o.final.getD [])
  (fixed.filter fun x => x / 2 ^ 32 == self).foldl (fun (s : State) x =>
    let hs := holders fixed members (x % 2 ^ 32)
    match have_ (x % 2 ^ 32) with
    | none => s
    | some (o, l) => if o.sender hs != some self then s
      else (members.filter fun m => !hs.contains m).foldl (fun (s : State) m =>
        let (es, s) := o.share l m s
        s.sendElems { o with tag := s.plat.nor.view.num } (stepCount o.op o.set.length) m (cSize o.fmt) es) s) s

/-- Every operation of a module that leaves its view, or has no quorum, ends with 0x0F (R101). -/
def State.collRemoved (s : State) : State := s.plat.nor.ops.foldl (fun (s : State) e => s.collEnd e.1 0x0F) s

/-- The data of a fixed result that has arrived whole is the result (R100). -/
def State.takeFixed (s : State) (id : Nat) (o : CollOp) (holder : Nat) : State :=
  let z := cSize o.fmt
  let n := if o.op = 2 || o.op = 3 then o.count * o.set.length else o.count
  match o.message holder (stepCount o.op o.set.length) n z with
  | none => s
  | some (es, x) =>
    let at_ := ((o.plan s.plat.nor.view.self_).takeWhile (· != .out)).length
    s.modOp id fun o => { o with buf := es, flags := BitVec.ofNat 5 x.flags, div := x.div, wait := 0, next := at_ }

/-- The module from which some data of an operation came, for a fixed result. -/
def CollOp.fixedFrom (o : CollOp) : Option Nat := o.got.head?.map fun e => e.1 / 2 ^ 30 / 64

/-! COLL (R89). -/

/-- The operation that a handle names (R86). -/
def State.opOf (s : State) (h : Nat) : Option (Nat × CollOp) :=
  let id := 256 * (h % 4) + bitsOf h 9 2
  match s.plat.nor.ops.find id with
  | some o => if h / 2 ^ 26 = 0 && o.gen == bitsOf h 25 10 then some (id, o) else none
  | none => none

/-- The engine of a die takes no operation: from the start of QUIESCE until ADMIT completes, or with the die lost (R89). -/
def State.engineOff (s : State) (d : Nat) : Bool := (s.pkg.die d).drst != 0 || s.stepping d 1

/-- A table entry that R93 refuses. -/
def State.entryBad (s : State) (fn steps : Nat) (e : StepEnt) : Bool :=
  e.fl != 0 || !((decide (1 ≤ e.step) && decide (e.step ≤ steps)) || e.step == 0xFFFF) || (s.counterOf fn e.va).isNone

/-- The checks of a descriptor, in the order of R89. The trap of a module that is not a member has TVAL 0 (DESIGN CHOICE, log 155: R449 gives a
status word, and there is no operation to have one). -/
def State.descCheck (s : State) (u va : Nat) (d : CDesc) : Option Flow × State :=
  let v := s.plat.nor.view
  let t := s.thread u
  let z := cSize d.fmt
  let n := if 5 ≤ d.op then 2 else v.members.length
  if d.src % z != 0 then (some (.trap 5 (BitVec.ofNat 64 d.src) false), s)
  else if d.dst % z != 0 then (some (.trap 5 (BitVec.ofNat 64 d.dst) false), s)
  else if decide (8 < d.op) || d.mode = 3 || (2 ≤ d.op && d.red != 0) || d.ctl / 2 ^ 22 != 0 || d.zero != 0 || d.count = 0 ||
      decide (2 ^ 26 < d.count) || (d.mode = 1 && d.op != 0) || (d.op < 4 && d.peer != 0) ||
      (4 ≤ d.op && !v.members.contains d.peer) || (5 ≤ d.op && d.peer == v.self_) || (d.vtag != 0 && d.vtag != v.num) ||
      s.plat.nor.ops.any (fun e => e.2.key == d.key && !e.2.written) || t.steps.any (s.entryBad t.id.fn (stepCount d.op n)) then
    (some s.badOperand, s)
  else if s.engineOff (d.key % 4) then (some .left, s.offlineFault u (d.key % 4) va 0)
  else if v.state = 0 || v.state = 5 then (some (.trap 0x0F 0 false), s)
  else (none, s)

/-- The lowest free slot of an engine. -/
def State.freeSlot (s : State) (die : Nat) : Nat := lowestFree 0 ((s.plat.nor.ops.filter fun e => e.1 / 256 == die).map fun e => e.1 % 256)

/-- The operation enters its engine (R86, R90, R93): its handle. -/
def State.startColl (s : State) (u : Nat) (d : CDesc) : Nat × State :=
  let t := s.thread u
  let die := d.key % 4
  let id := 256 * die + s.freeSlot die
  let gen := s.plat.nor.gens.getD 0 id % 0xFFFF + 1
  let v := s.plat.nor.view
  let steps := t.steps.map fun e => (e, false)
  let o : CollOp := {
    gen := gen, thr := u, crew := t.id.crew, fn := t.id.fn, asid := t.id.asid, dom := s.domKey t, lvl := t.lvl, ltid := t.ltid
    die := die, op := d.op, red := d.red, fmt := d.fmt, mode := d.mode, vtrap := bitOf d.ctl 10, peer := d.peer
    src := d.src, dst := d.dst, count := d.count, weight := if d.weight = 0 then 0x3F800000 else d.weight, key := d.key
    status := d.status, offset := d.offset, orig := [], set := [], tag := v.num, runs := 0, next := 0, wait := 1, part := []
    got := [], ws := [], buf := [], final := none, whole := [], win := none, div := 0, flags := 0, rerun := false, rebc := false, code := none
    steps := steps, past := [], fseq := none, written := false, know := s.knowOf u, rel := [], rgn := t.rgn }
  let s := s.onNor fun n => { n with ops := n.ops.put id o, gens := n.gens.put id gen, finals := n.finals.del d.key }
  let s := s.modThread u fun t => { t with steps := [] }
  let s := if v.state = 1 then s.collInstall v.members [] id o else s
  (die + 4 * (id % 256) + gen * 2 ^ 10, s)

def execColl (g : Guard) (d a : RegF) (s : State) : Result :=
  .next (s.isa g { srcs := [⟨1, a, .addr⟩], dsts := [(d, 1)], primary := true, bnd := some (.dev, .coll) } fun u s =>
    let t := s.thread u
    let va := (s.src64 u a).toNat
    match s.vaCheck u va 64 with
    | some f => (f, s)
    | none => match s.readPlain (s.agent t .ls) va 64 with
      | (.ok bs, s) =>
        let ds := CDesc.ofBytes bs
        match s.descCheck u va ds with
        | (some f, s) => (f, s)
        | (none, s) =>
          if 256 ≤ s.freeSlot (ds.key % 4) || s.pathBusy u .ls then (.stall, s)
          else match s.doBoundary u .dev .coll with
            | (.next, s) =>
              let (h, s) := (s.xfence u .ls .cl).startColl u ds
              (.next, s.dst u d (BitVec.ofNat 64 h) .i32)
            | r => r
      | (.down, s) => (.next, s.dstPoison u d 1)
      | (r, s) => s.readStop u 0 r)

/-- A descriptor pushed to a collective binding acts as COLL (R425), its XFENCE and its wait for an offline home (R72) among it; one that a check
refuses is dropped. -/
def State.headColl (s : State) (crew q va u : Nat) : State :=
  let t := s.thread u
  if va % 64 != 0 || decide (t.vaLim ≤ va) then s.dropHead crew q
  else if s.pathBusy u .ls then s
  else match s.readPlain (s.agent t .ls) va 64 with
    | (.ok bs, s) =>
      let ds := CDesc.ofBytes bs
      if s.engineOff (ds.key % 4) then s
      else match s.descCheck u va ds with
        | (some _, s) => s.dropHead crew q
        | (none, s) =>
          if 256 ≤ s.freeSlot (ds.key % 4) then s
          else match s.boundary u .dev with
            | (some _, s) => s
            | (none, s) => (((s.xfence u .ls .cl).dropHead crew q).startColl u ds).2
    | (.wait, s) => s
    | (.offline _ d, s) => if (s.pkg.die d).drst = 8 then s.dropHead crew q else s
    | (_, s) => s.dropHead crew q

/-- What a collective engine may do next: take a delivered flit, go on with an operation, take a fixed result, start an operation
that a binding's head names. -/
def State.collSteps (s : State) : List (Nat × Nat) :=
  let flits : List (Nat × Nat) := (rangeFrom 0 s.flitsReady.length).map fun k => (0, k)
  let ops : List (Nat × Nat) := s.collsReady.map fun i => (1, i)
  let fixed : List (Nat × Nat) := (s.plat.nor.ops.filter fun e => e.2.wait = 3 && !e.2.got.isEmpty && e.2.code.isNone).map fun e => (2, e.1)
  let heads : List (Nat × Nat) := (rangeFrom 0 (s.headsFor 4).length).map fun k => (3, k)
  flits ++ ops ++ fixed ++ heads

/-- DATA_FLIT_RECEIVE (R91): a collective engine takes a delivered flit, goes on with an operation whose data is there, or starts
one that a binding's head names. -/
def execDataFlitReceive (s : State) : Result :=
  .next (match s.collSteps with
    | [] => s
    | c :: cs =>
      let (x, s) := chooseFrom (c :: cs) c s
      match x.1 with
      | 0 => match s.flitsReady[x.2]? with
        | none => s
        | some f => (s.onNor fun n => { n with inq := n.inq.erase f }).takeFlit f
      | 1 => s.collStep x.2
      | 2 => match s.plat.nor.ops.find x.2 with
        | none => s
        | some o => match o.fixedFrom with
          | none => s
          | some m => s.takeFixed x.2 o m
      | _ => match (s.headsFor 4)[x.2]? with
        | none => s
        | some (crew, q, _, v, u) => s.headColl crew q v u)

/-! CWAIT and CSTAT (R435, R102). -/

/-- A completed status is returned: an acquire, XFENCE naming CL then LS, and the slot is free. -/
def State.takeStatus (s : State) (u id : Nat) (o : CollOp) : State :=
  let s := s.freeOp id o
  let s := s.modThread u fun t => { t with seen := { t.seen with pubs := setUnion t.seen.pubs o.rel } }
  (s.snapshot u .dev).xfence u .cl .ls

def execCwait (g : Guard) (d a : RegF) (s : State) : Result :=
  .next (s.isa g { srcs := [⟨1, a, .int⟩], dsts := [(d, 2)], primary := true } fun u s =>
    let h := (s.src u a).toNat
    match s.opOf h with
    | none => (s.badOperand, s)
    | some (id, o) =>
      if !o.written then (.left, s.wait u .cwait true h 0)
      else
        let s := s.takeStatus u id o
        if o.vtrap && (o.code == some 0x0F || o.rerun) then (.trap 0x0F (BitVec.ofNat 64 o.word) false, s)
        else (.next, s.dst64 u d (BitVec.ofNat 64 o.word) .w64lo .w64hi))

def execCstat (g : Guard) (d a : RegF) (s : State) : Result :=
  .next (s.isa g { srcs := [⟨1, a, .int⟩], dsts := [(d, 2)], primary := true } fun u s =>
    match s.opOf (s.src u a).toNat with
    | none => (s.badOperand, s)
    | some (id, o) =>
      let s := if o.written then s.takeStatus u id o else s
      (.next, s.dst64 u d (BitVec.ofNat 64 o.word) .w64lo .w64hi))

/-! Views (R436, R96). -/

/-- VIEWSETk (R96). -/
def View.setWord (v : View) (k : Nat) : Nat :=
  ((v.members.filter fun m => m / 64 == k).map fun m => 2 ^ (m % 64)).foldl (· + ·) 0

def execViewrd (g : Guard) (d a : RegF) (s : State) : Result :=
  .next (s.isa g { srcs := [⟨1, a, .int⟩], dsts := [(d, 2)] } fun u s =>
    let v := s.plat.nor.view
    let sel := s.src32 u a
    let r := if sel = 0 then v.self_ * 2 ^ 48 + v.state * 2 ^ 44 + v.members.length * 2 ^ 32 + v.num else v.setWord (sel - 1)
    if 32 < sel then (s.badOperand, s)
    else (.next, s.dst64 u d (BitVec.ofNat 64 r) .w64lo .w64hi))

/-! STEPSET (R437, R93). -/

/-- The entries of a table. -/
def stepTable (bs : List Byte) (n : Nat) : List StepEnt :=
  (rangeFrom 0 n).map fun k =>
    let b := (bs.drop (16 * k)).take 16
    ⟨ofBytesLE (b.take 2), ofBytesLE (b.drop 8), ofBytesLE ((b.drop 2).take 6)⟩

/-- Entries join an operation in flight (R437): those of steps already completed, and all of an operation that is over, fire at
once. -/
def State.joinSteps (s : State) (id : Nat) (o : CollOp) (es : List StepEnt) : State :=
  let s := s.modOp id fun o => { o with steps := o.steps ++ es.map fun e => (e, false) }
  s.fireEntries id fun e => o.written || o.past.contains e.step

def execStepset (g : Guard) (a b c : RegF) (s : State) : Result :=
  let cs : List Src := if c == .vz then [] else [⟨3, c, .int⟩]
  .next (s.isa g { srcs := [⟨1, a, .addr⟩, ⟨2, b, .int⟩] ++ cs, primary := true } fun u s =>
    let t := s.thread u
    let va := (s.src64 u a).toNat
    let n := (s.src u b).toNat
    match s.vaCheck u va 16 with
    | some f => (f, s)
    | none =>
      if n = 0 || decide (16 < n) then (s.badOperand, s)
      else
        let op := if c == .vz then none else some (s.opOf (s.src u c).toNat)
        if op == some none then (s.badOperand, s)
        else match s.readPlain (s.agent t .ls) va (16 * n) with
          | (.ok bs, s) =>
            let es := stepTable bs n
            match op with
            | some (some (id, o)) =>
              let v := s.plat.nor.view
              let m := if o.set.isEmpty then v.members.length else o.set.length
              if es.any (s.entryBad o.fn (stepCount o.op m)) || decide (16 < o.steps.length + n) then (s.badOperand, s)
              else (.next, s.joinSteps id o es)
            | _ => (.next, s.modThread u fun t => { t with steps := es })
          | (r, s) => s.readStop u 0 r)

/-! REJOIN (R103, R438). -/

/-- The modules that the route table reaches through a port that is up (R84), ascending. -/
def State.reachable (s : State) : List Nat :=
  (rangeFrom 0 2048).filter fun m => m != s.plat.nor.view.self_ && !(s.routes m s.portUp).isEmpty

def execRejoin (g : Guard) (d a b : RegF) (s : State) : Result :=
  .next (s.isa g { lvl := .h, srcs := [⟨1, a, .addr⟩, ⟨2, b, .int⟩], dsts := [(d, 1)] } fun u s =>
    let t := s.thread u
    let va := (s.src64 u a).toNat
    let len := (s.src u b).toNat
    let v := s.plat.nor.view
    match t.mark with
    | some 1 => (.next, (s.unmark u).dst u d 0 .i32)
    | some 2 => (.next, (s.unmark u).dst u d 0x0F .i32)
    | some _ => (.left, s.waitMark u .rejoin false 0 0)
    | none =>
      if va % 4096 != 0 then (.trap 5 (BitVec.ofNat 64 va) false, s)
      else if len % 4096 != 0 then (.trap 5 (BitVec.ofNat 64 len) false, s)
      else if t.vaLim ≤ va then (protFault va, s)
      else if v.state != 0 && v.state != 5 then (s.badOperand, s)
      else match s.reachable with
        | [] => (.next, s.dst u d 0x0F .i32)
        | m :: _ =>
          let s := (s.onNor fun n => { n with view := { n.view with rejoin := some ⟨u, va, len, m, false⟩ } }).sendMsg 7 len [] m
          (.left, s.waitMark u .rejoin false 0 0))

end Sys2Proof.Machine
end

