-- ==== Sys2Proof/Machine/View.lean ====
section
/-! DEFINITION. Membership (spec/04 R97 to R105): suspicion, proposals, agreement, installation, leaving and forming a view. -/

namespace Sys2Proof.Machine

def State.view (s : State) : View := s.plat.nor.view

def State.modView (s : State) (f : View → View) : State := s.onNor fun n => { n with view := f n.view }

/-- The cycle that the timers of membership count: HD's (R97). -/
def State.viewNow (s : State) : Nat := s.cycleOf 4

/-- Cycles since a time. -/
def State.since (s : State) (t : Nat) : Nat := (s.viewNow + 2 ^ 64 - t) % 2 ^ 64

/-- The module is a member, whatever it is doing about it (R96). -/
def View.member (v : View) : Bool := v.state == 1 || v.state == 2 || v.state == 3

/-- The old view of an agreement: the members, or the bitmap of a formation (R104). -/
def View.old (v : View) : List Nat := v.forming.getD v.members

/-- The member that agreement takes as proposer (R99). -/
def View.proposer (v : View) : Option Nat := v.old.find? fun m => !v.suspects.contains m

/-- The results that this module holds (R100), as 2^32 · member + KEY. -/
def Norano.fixedHere (n : Norano) : List Nat :=
  let ops := (n.ops.filter fun e => e.2.final.isSome).map fun e => e.2.key
  (setUnion (n.finals.map (·.1)) ops).map fun k => 2 ^ 32 * n.view.self_ + k

/-- The thread that waits in REJOIN learns how it ended: 1 for result 0, 2 for 0x0F (R103). -/
def State.endRejoin (s : State) (code : Nat) : State :=
  let s := match s.view.rejoin with
    | some r => if r.donor then s else s.markWaiters code fun t w => t.uid == r.thr && w.kind == WaitKind.rejoin
    | none => s
  s.modView fun v => { v with rejoin := none }

/-- A donor that will not propose the view with the rejoiner says so (R103). -/
def State.donorEnds (s : State) : State :=
  match s.view.rejoin with
  | some r => if r.donor then (s.sendMsg 10 s.view.num [] r.peer).modView fun v => { v with rejoin := none } else s
  | none => s

/-- The module is in no view that can commit (R99, R101): STATE 5. -/
def State.noQuorum (s : State) : State :=
  (s.donorEnds.modView fun v => { v with state := 5, prop := none }).collRemoved.endRejoin 2

/-- The module is removed, or has left (R98, R101): STATE 0 and no view. -/
def State.removed (s : State) : State :=
  (s.donorEnds.modView fun v => { v with state := 0, num := 0, members := [], suspects := [], prop := none }).collRemoved

/-- A leave notice goes to every member, and the module is removed (R98). -/
def State.leaveView (s : State) : State :=
  if s.view.member then (s.tell 3 s.view.num s.view.members []).removed else s

/-- A view is installed (R99, R100, R103): what is fixed goes to those who lack it, every other operation goes on as R101 says. -/
def State.installView (s : State) (num : Nat) (set fixed : List Nat) : State :=
  let now := s.viewNow
  let s := s.modView fun v => { v with
    num := num, members := set, state := 1, changes := Nat.min (v.changes + 1) (2 ^ 32 - 1), suspects := []
    heard := set.map fun m => (m, now)
    prop := none, forming := none }
  let s := (s.dropOldFlits num).endRejoin 1
  let s := s.rebroadcast set fixed
  s.plat.nor.ops.foldl (fun (s : State) e => s.collInstall set fixed e.1 e.2) s

/-- A commit takes effect here. -/
def State.takeCommit (s : State) (num : Nat) (set fixed : List Nat) : State :=
  if set.contains s.view.self_ then s.installView num set fixed else s.removed

/-- The commit of the proposal at hand once every member of its set has acknowledged it (R99). -/
def State.commitIf (s : State) : State :=
  match s.view.prop with
  | none => s
  | some p =>
    if p.from_ == s.view.self_ && p.set.all p.acks.contains then ((s.tell 8 p.num p.set p.set).tell 11 p.num p.set p.fixed).takeCommit p.num p.set p.fixed
    else s

/-- A proposal of a set (R99): with no majority, or past the last number (R101), nothing is proposed; the module enters STATE 5, and tells those
that take it as proposer. -/
def State.propose (s : State) (num : Nat) (set : List Nat) : State :=
  let v := s.view
  if 2 ^ 32 ≤ num || set.length * 2 ≤ v.old.length then (s.tell 12 v.num set []).noQuorum
  else
    let s := s.modView fun v => { v with
      prop := some ⟨num, set, v.self_, [v.self_], s.plat.nor.fixedHere⟩, agrAt := s.viewNow, state := if v.forming.isSome then v.state else 3 }
    (s.tell 4 num set set).commitIf

/-- The proposer proposes the view minus its suspects, unless it has (R99). -/
def State.proposeView (s : State) : State :=
  let v := s.view
  let set := v.members.filter fun m => !v.suspects.contains m
  let done := match v.prop with
    | some p => p.set == set && p.from_ == v.self_
    | none => false
  if v.member && !v.suspects.isEmpty && v.proposer == some v.self_ && !done then s.propose (v.num + 1) set else s

/-- Suspects join the suspect set (R97); with `own` the module has found them itself and tells every member. -/
def State.suspect (s : State) (ms : List Nat) (own : Bool) : State :=
  let v := s.view
  let new := ms.filter fun m => v.members.contains m && m != v.self_ && !v.suspects.contains m
  if !v.member || new.isEmpty then s
  else
    let now := s.viewNow
    let s := s.modView fun v => { v with
      suspects := setUnion v.suspects new
      state := if v.state = 1 then 2 else v.state
      agrAt := if v.state = 1 then now else v.agrAt }
    let s := if own then s.tell 2 v.num v.members new else s
    s.proposeView

/-- The watched members: positions i ± 1 and i ± 2 (R97). -/
def View.watched (v : View) : List Nat :=
  let n := v.members.length
  let i := posOf v.members v.self_
  let at_ (k : Nat) : Nat := v.members.getD ((i + k) % n) v.self_
  if n = 0 then [] else ([at_ 1, at_ (n - 1), at_ 2, at_ (2 * n - 2)].filter (· != v.self_)).eraseDups

/-- A flit of any type has arrived from a module (R97). -/
def State.heardFrom (s : State) (m : Nat) : State :=
  if s.view.members.contains m then
    let now := s.viewNow
    s.modView fun v => { v with heard := v.heard.put m now }
  else s

/-- The members of a bitmap of 256 bytes. -/
def bitmapMembers (bs : List Byte) : List Nat := (rangeFrom 0 2048).filter fun m => ((bs.getD (m / 8) 0).getLsbD (m % 8))

/-- VIEWINIT (R104, R98): a member leaves first; the lowest-indexed module of the bitmap proposes view 1 with it as the old
view. STATE 5 is left only when the view forms (R105). -/
def State.viewInit (s : State) (base : Nat) : State :=
  let s := s.leaveView
  let (bs, s) := s.physRead base 256
  let set := bitmapMembers bs
  let now := s.viewNow
  let s := s.modView fun v => { v with state := if v.state = 5 then 5 else 0, forming := some set, prop := none, suspects := [], agrAt := now }
  if set.head? == some s.view.self_ then s.propose 1 set else s

end Sys2Proof.Machine
end

