-- ==== Sys2Proof/Machine/Commands.lean ====
section
/-! DEFINITION. Commands that a write of a system register gives: rings (spec/20 R450, R452), queues (spec/06 R131, R132), parked
faults (spec/10 R233, R237), debug commands (spec/15 R328 to R331), HCCMD (spec/05 R117), the home map (spec/02 R39, R65), TLBINV
(spec/20 R447), the top-down snapshot (spec/15 R335). -/

namespace Sys2Proof.Machine

/-! Rings. -/

/-- The frames of a ring (R450): none where one does not translate, is not writable, or is retired. -/
def ringFrames (s : State) (fn base : Nat) : Nat → Option (List Nat)
  | 0 => some []
  | n + 1 => match walk2 s 5 fn base with
    | .error _ => none
    | .ok l => if !l.w || (paFault s l.pa).isSome then none
      else (ringFrames s fn (base + 4096) n).map fun fs => l.pa / 4096 * 4096 :: fs

/-- A ring register is written: with EN the ring is translated, none where that fails (R450). -/
def ringWrite (s : State) (fn base : Nat) (en : Bool) (size : Nat) : Option Ring :=
  if en then (ringFrames s fn base ((size + 4095) / 4096)).map fun fs => ⟨base, true, fs⟩ else some ⟨base, false, []⟩

/-- A TAIL write is accepted (R452). -/
def tailOk (w head t0 t : Nat) : Bool := decide ((t + 2 ^ w - t0) % 2 ^ w ≤ (head + 2 ^ w - t0) % 2 ^ w)

/-! L2 lines that leave. -/

/-- Lines leave L2: a dirty one is written back to its recorded frame, once that can be; watches fire, and host memory is given back (R229,
R65, R222). -/
def State.dropLines (s : State) (p : L2Line → Bool) : State :=
  let goes (l : L2Line) : Bool := p l && !s.wbHeld l
  let gone := s.mem.l2.filter goes
  let s0 := s
  let s := s.onMem fun m => { (gone.filter (·.wr)).reverse.foldl MemSys.writeBack m with l2 := m.l2.filter fun l => !goes l }
  ((gone.map (·.pline)).eraseDups).foldl (fun (s : State) pl =>
    let s := (s0.traceNames s pl 3 none).fire pl
    if isHost (pl * 128) && !s.mem.l2.any (fun l => l.pline == pl) then (s.evictHalf (2 * pl)).evictHalf (2 * pl + 1) else s) s

/-- A line whose home under the present map is not the slice that holds it. -/
def State.misplaced (s : State) (l : L2Line) : Bool :=
  match l.space with
  | .asid _ => (l.die, l.slice) != homeOf s (l.vline * 128)
  | .phys => false

/-- A compute die is part way through a warm reset (R63, R65). -/
def State.inReset (s : State) : Bool := s.pkg.dies.any fun d => decide (1 ≤ d.drst) && decide (d.drst ≤ 5)


/-- The map of homes changes (R65): in a warm reset the lines whose home moves are written back for their new homes. -/
def State.rehome (s : State) (f : Pkg → Pkg) : State :=
  let s := (s.onLinks fun l => { l with maps := (s.pkg.homemap, s.pkg.hmdies) :: l.maps }).onPkg f
  if s.inReset then s.dropLines s.misplaced else s

/-! TLBINV (R447, R229). -/

/-- An L1 sector lies in a named page. -/
def Inval.names (i : Inval) (x : L1Sec) : Bool :=
  (match x.space, i.asid with
    | .asid a, some b => a == b
    | .asid a, none => (asidFns a).contains i.fn
    | .phys, _ => false) && decide (i.va ≤ x.sec * 32 + 31) && decide (x.sec * 32 < i.va + i.size)

/-- Which translations a TLBINV names: of a function, those that `p` picks. -/
def State.tlbDrop (s : State) (p : TlbE → Bool) (line : L2Line → Bool) (named : List Inval := []) : State :=
  let gone := s.mem.tlb.filter p
  let now := s.mem.seq
  let invs := gone.map (fun e => ⟨e.fn, some e.asid, e.va, e.size, now⟩) ++ named.map fun i => { i with seq := now }
  let s := s.onMem fun m => { m with
    tlb := m.tlb.filter fun e => !p e
    invs := invs ++ m.invs.filter fun i => !invs.any fun k => { k with seq := 0 } == { i with seq := 0 } }
  let s := s.onCore fun k => { k with cores := k.cores.map fun (n, c) => (n, { c with l1 := c.l1.filter fun x => !invs.any fun i => i.names x }) }
  s.dropLines fun l => line l || gone.any fun e => l.space == .asid e.asid && decide (e.va ≤ l.vline * 128) && decide (l.vline * 128 < e.va + e.size)

/-- A translation that TLBINV names: m of R447, the function, the ASID, the address. -/
def tlbNamed (m fn asid a : Nat) (e : TlbE) : Bool :=
  e.fn == fn && match m with
    | 0 => e.asid == asid && decide (e.va ≤ a) && decide (a < e.va + e.size)
    | 1 => e.asid == asid
    | 2 => true
    | _ => decide (e.ipa ≤ a) && decide (a < e.ipa + e.size)

/-- The lines that TLBINV names apart from those of the cached translations. -/
def lineNamed (m asid a : Nat) (l : L2Line) : Bool :=
  match m with
  | 0 => l.space == .asid asid && l.vline / 32 == a / 4096
  | 1 => l.space == .asid asid
  | _ => false

/-- The pages that TLBINV names by their addresses. -/
def pagesNamed (m fn asid a : Nat) : List Inval :=
  match m with
  | 0 => [⟨fn, some asid, a / 4096 * 4096, 4096, 0⟩]
  | 1 => [⟨fn, some asid, 0, 2 ^ 48, 0⟩]
  | 2 => [⟨fn, none, 0, 2 ^ 48, 0⟩]
  | _ => []

/-- A request in flight that may use a translation TLBINV names, or a line that waits to be written back (R229). -/
def State.tlbBusy (s : State) (m fn asid a : Nat) : Bool :=
  s.dropHeld (lineNamed m asid a) || s.core.reqs.any fun r => r.st != .done && r.kind != .alu && (s.thread r.thr).id.fn == fn && match m with
    | 0 => r.dom.space == .asid asid && r.va / 4096 == a / 4096
    | 1 => r.dom.space == .asid asid
    | _ => true

/-! Queues (R131, R132). -/

/-- ENABLE of the table entry with an index: none where it raises 0x19. -/
def State.queueEnable (s : State) (i : Nat) : Option State :=
  if (s.task.queues.find i).map (·.enabled) == some true then some s
  else
    let (b, s) := s.physRead (s.task.qtbase + 16 * i) 16
    let f (o n : Nat) : Nat := ofBytesLE ((b.drop o).take n)
    let fn := f 0 2
    let lq := f 2 2
    let mode := f 11 1
    let exkm := mode % 4
    let lv := bitsOf mode 3 2
    let lvl : Level := if lv = 0 then .u else if lv = 1 then .g else .h
    let bad := 512 < fn || 32767 < lq || 2 ^ 20 ≤ f 4 4 || 1 < exkm || (exkm = 1 && 0x8000 ≤ f 8 2) || 7 < f 10 1 ||
      lv = 3 || (lv = 2 && fn != 0) || 16 ≤ mode || f 12 4 != 0
    let taken := s.task.queues.any fun e => e.2.enabled && e.2.fn == fn && e.2.lq == lq
    let q := s.fnAt fn
    if bad || taken || q.qQueues ≤ q.uQueues then none
    else
      let s := s.modFn fn fun g => { g with uQueues := g.uQueues + 1 }
      some (s.onTask fun k => { k with
        queues := k.queues.put i ⟨true, fn, lq, f 4 4, exkm == 1, f 8 2, f 10 1, lvl⟩
        qnames := k.qnames.put (32768 * fn + lq) i })

/-- DISABLE of the queue that (function, LQ) names. -/
def State.queueDisable (s : State) (fn lq : Nat) : State :=
  match s.queueOf fn lq with
  | none => s
  | some (i, q) =>
    if !q.enabled then s
    else
      let s := s.modFn q.fn fun g => { g with uQueues := g.uQueues - 1 }
      s.onTask fun k => { k with queues := k.queues.put i { q with enabled := false } }

/-- An unbound task is removed and journalled (R132). -/
def State.cancelTask (s : State) (slot : Nat) : State :=
  let cut (c : Counter) : Counter := { c with parked := c.parked.filter (· != .task slot) }
  let s := s.onTask fun k => { k with counters := k.counters.map fun e => (e.1, cut e.2) }
  s.endTask slot 5 0 ⟨0, []⟩

/-- A task put among others, the older first. -/
def insertTask (s : State) (t : TaskSlot) : List TaskSlot → List TaskSlot
  | [] => [t]
  | u :: us => if s.taskAge u < s.taskAge t then t :: u :: us else u :: insertTask s t us

/-- The unbound tasks that meet a condition, in the order they were accepted. -/
def State.unbound (s : State) (p : TaskSlot → Bool) : List TaskSlot :=
  ((s.task.slots.map (·.2)).filter fun t => t.st != .bound && p t).foldr (insertTask s) []

/-- CANCEL of the queue that (function, LQ) names. -/
def State.queueCancel (s : State) (fn lq : Nat) : State :=
  match s.queueOf fn lq with
  | none => s
  | some (i, _) => (s.unbound fun t => t.queue == some i).foldl (fun (s : State) t => s.cancelTask t.slot) s

/-! Parked faults (R233, R236, R237). -/

/-- A parked thread's access is issued again: the whole instruction is executed again where it is a publication, a stack access or
a fetch; else its access is re-issued alone, at its position (R237). -/
def State.resumePark (s : State) (u : Nat) : State :=
  let t := s.thread u
  match t.run with
  | .parked p =>
    if p.kind % 8 = pubKind || p.kind % 8 = 3 || p.kind % 8 = 4 then s.postAt u t.pos
    else s.modThread u fun t => { t with run := .ready, ready := s.now t, reissue := true }
  | _ => s

/-- The thread of a record is parked on it. -/
def State.parkedOn (s : State) (u seq : Nat) : Bool :=
  match (s.thread u).run with
  | .parked p => p.seq == some seq
  | _ => false

/-- RESUME of a record (R237). -/
def State.resumeRec (s : State) (r : FaultRec) : State :=
  match r.who with
  | .thread u => if s.parkedOn u r.seq then s.resumePark u else s
  | .channel id => match s.task.channels.find id with
    | some c => if c.state = 4 && c.seq == some r.seq then s.setChan id { c with state := if s.inService (id / 64) then 2 else 6, seq := none } else s
    | none => s
  | .matrix cl => s.modMx cl fun m => if m.stop == some r.seq then { m with stop := none } else m
  | .coll die slot => s.modOp (256 * die + slot) fun o => if o.fseq == some r.seq then { o with fseq := none } else o

/-- FAIL of a record (R237, R266, R314, R95). -/
def State.failRec (s : State) (r : FaultRec) : State :=
  match r.who with
  | .thread u => if s.parkedOn u r.seq then s.failCrew (s.thread u).id.crew r.cause else s
  | .channel id => match s.task.channels.find id with
    | some c => if c.state = 4 && c.seq == some r.seq then s.chanStop id r.cause else s
    | none => s
  | .matrix cl =>
    let m := (s.clusterAt cl).mx
    match m.queue with
    | j :: _ => if m.stop == some r.seq then s.failCrew (s.thread j.thr).id.crew r.cause else s
    | [] => s
  | .coll die slot =>
    let id := 256 * die + slot
    match s.plat.nor.ops.find id with
    | some o =>
      if o.fseq != some r.seq then s
      else if o.code.isSome then (s.modOp id fun o => { o with code := some r.cause }).collFinish id
      else (s.collEnd id r.cause).breakNotice o
    | none => s

/-- Records of a function that meet a condition are taken out and handled in SEQ order. -/
def State.takeRecs (s : State) (fn : Nat) (p : FaultRec → Bool) (f : State → FaultRec → State) : State :=
  let l := (s.fnAt fn).mem.recs.filter p
  let s := s.modFn fn fun g => { g with mem := { g.mem with recs := g.mem.recs.filter fun r => !p r } }
  l.foldl f s

/-- FLTRES for a function (R237). -/
def State.fltres (s : State) (fn cmd seq asid : Nat) : State :=
  match cmd with
  | 1 => s.takeRecs fn (fun r => r.seq == seq) State.resumeRec
  | 2 =>
    let s := s.modFn fn fun g => { g with mem := { g.mem with pparks := g.mem.pparks.filter (·.asid != asid) } }
    s.takeRecs fn (fun r => r.asid == asid) State.resumeRec
  | _ => s.takeRecs fn (fun r => r.seq == seq) State.failRec

/-- The threads whose fault waits for room in the fault queue of a function. -/
def State.parkedFull (s : State) (fn : Nat) : List (Nat × Park) :=
  s.core.threads.filterMap fun t => match t.run with
    | .parked p => if t.id.fn == fn && p.seq.isNone && p.cause != 0x0C then some (t.uid, p) else none
    | _ => none

/-- The engine's record has a SEQ. -/
def State.engineSeq (s : State) (who : FaultWho) (q : Nat) : State :=
  match who with
  | .thread _ => s
  | .channel id => s.onTask fun k => { k with channels := k.channels.map fun e => if e.1 == id then (e.1, { e.2 with seq := some q }) else e }
  | .matrix cl => s.modMx cl fun m => { m with stop := some q, fseq := q }
  | .coll die slot => s.modOp (256 * die + slot) fun o => { o with fseq := some q }

/-- An engine is still stopped on a fault whose record waits for room. -/
def State.engineWaits (s : State) (who : FaultWho) : Bool :=
  match who with
  | .thread _ => false
  | .channel id => (s.task.channels.find id).any fun c => c.state = 4 && c.seq == some noSeq
  | .matrix cl => (s.clusterAt cl).mx.stop == some noSeq
  | .coll die slot => (s.plat.nor.ops.find (256 * die + slot)).any fun o => o.fseq == some noSeq

/-- The kind-5 records that waited for room are written, or act as FAIL once the queue is disabled (R236). -/
def State.engineRoom (s : State) (fn : Nat) : State :=
  let l := (s.fnAt fn).mem.waits
  l.foldl (fun (s : State) w =>
    let f := (s.fnAt fn).mem
    if f.pfq.en && f.full then s
    else
      let s := s.modFn fn fun g => { g with mem := { g.mem with waits := g.mem.waits.filter (· != w) } }
      if !s.engineWaits w.who then s
      else if !f.pfq.en then s.failRec ⟨noSeq, w.cause, w.asid, w.who⟩
      else (s.faultRecord fn w.va w.asid w.ltid w.cwa w.cause w.flags w.who).engineSeq w.who f.pfqHead) s

/-- Room in the fault queue: the faults that waited for it go on by R233 (R236). -/
def State.faultRoom (s : State) (fn : Nat) : State :=
  State.engineRoom (fn := fn) <| (s.parkedFull fn).foldl (fun (s : State) e =>
    if (s.fnAt fn).mem.full && (s.fnAt fn).mem.pfq.en then s
    else if (s.thread? e.1).isNone then s
    else s.transFault e.1 (e.2.kind % 8) e.2.va e.2.cause (decide (8 ≤ e.2.kind))) s

/-! Debug commands (R329, R330). -/

/-- A thread of a function is named by its LTID. -/
def State.byLtid (s : State) (fn : Nat) (l : Word) : Option Thread := s.core.threads.find? fun t => t.id.fn == fn && t.ltid == l

/-- A thread is to stop: at once where it stands at a boundary, else at its next one (R329). -/
def State.askStop (s : State) (u : Nat) : State :=
  let t := s.thread u
  match t.run with
  | .stopped _ => s
  | .ready => s.stop u 0x12 t.pos t.pos
  | _ => s.modThread u fun t => { t with stopReq := true }

/-- STEP (R330): a stopped thread executes one instruction; a running one stops before its next, with cause 0x13. -/
def State.debugStep (s : State) (u : Nat) : State :=
  let t := s.thread u
  match t.run with
  | .stopped _ => s.modThread u fun t => { t with run := .ready, ready := s.now t, stepping := true }
  | .ready => s.stop u 0x13 t.pos t.pos
  | _ => s.modThread u fun t => { t with stopReq := true, stepping := true }

/-- RUN (R329). -/
def State.debugRun (s : State) (u : Nat) : State :=
  match (s.thread u).run with
  | .stopped _ => s.modThread u fun t => { t with run := .ready, ready := s.now t }
  | _ => s

/-- DBGCMD (R328): 1 STOP, 2 STEP, 3 RUN, 4 RUN crew, 5 STOP crew, on the target of a function. -/
def State.debugCmd (s : State) (fn cmd : Nat) : State :=
  match s.byLtid fn (s.fnAt fn).dbg.tgt with
  | none => s
  | some t =>
    let mates := (s.crewThreads t.id.crew).map (·.uid)
    match cmd with
    | 1 => s.askStop t.uid
    | 2 => s.debugStep t.uid
    | 3 => s.debugRun t.uid
    | 4 => mates.foldl State.debugRun s
    | _ => mates.foldl State.askStop s

/-- DBGEVT (R331): the oldest event is popped and its fields latched. -/
def State.debugPop (s : State) (fn : Nat) : Word × State :=
  let d := (s.fnAt fn).dbg
  match d.events with
  | [] => (BitVec.allOnes 64, s.modFn fn fun g => { g with dbg := { g.dbg with evt := BitVec.allOnes 64, eva := none } })
  | e :: es => (e.ltid, s.modFn fn fun g => { g with dbg := { g.dbg with events := es, evt := e.ltid, eva := some e } })

/-! HCCMD (R117). -/

/-- A frame of device memory that exists (R38, R118). -/
def State.frameOk (s : State) (pa : Nat) : Bool := decide (pa < 2 ^ 39) && frameExists s pa

/-- INVFRAME: BISnpInvBlk for every line of the frame, whatever the filter says. -/
def State.invFrame (s : State) (pa : Nat) : State := (rangeFrom (pa / 128) 32).foldl (fun (s : State) l => s.snoopLine l) s

/-- A snoop of a line of a frame is outstanding. -/
def State.frameBusy (s : State) (pa : Nat) : Bool := s.plat.host.snoops.any fun e => e.1 / 32 == pa / 4096

/-- A write to a frame has passed its check and is not performed: a RELOAD waits for it, so that every write meets the bit as it stands
when it is performed (R116; DESIGN CHOICE, log 121). -/
def State.frameWrites (s : State) (pa : Nat) : Bool := s.core.reqs.any fun r => r.st != .done && r.writesHome && r.pa / 4096 == pa / 4096

/-- RELOAD: the frame's bit is read. -/
def State.reloadFrame (s : State) (pa : Nat) : State :=
  let f := pa / 4096
  let (b, s) := s.physRead (s.plat.host.ssBase + f / 8) 1
  let on := (b.headD 0).getLsbD (f % 8)
  s.onHost fun h => { h with shared := if on then setIns h.shared f else setDel h.shared f }

/-! Top-down counters (R334, R335). -/

/-- The slots of a core in a cycle: two on a SIMT core, one on a control core. -/
def slotsOf (core : Nat) : Nat := if isCtl core then 1 else 2

/-- The leaves of a core: what was charged, the slots with no resident thread, and the sum in leaf 31. -/
def State.leaves (s : State) (core : Nat) : Map Nat :=
  let td := (s.coreAt core).td
  let l := (rangeFrom 0 23).map fun k => (k, td.getD 0 k)
  let sum := (l.map (·.2)).foldl (· + ·) 0
  let rest := slotsOf core * ((s.cycleOf (dieOf core) + 2 ^ 64 - (s.pkg.die (dieOf core)).tdBase) % 2 ^ 64) - sum
  l.map (fun e => (e.1, (if e.1 = 6 then e.2 + rest else e.2) % 2 ^ 64)) ++ [(31, (sum + rest) % 2 ^ 64)]

/-- The unit that TDSEL names is enabled in the unit map. -/
def State.coreOn (s : State) (die cl : Nat) : Bool := bitOf (s.pkg.die die).umclu cl

/-- SNAP (R335). -/
def State.snap (s : State) (sel : Nat) : State :=
  let die := bitsOf sel 14 13
  let cl := bitsOf sel 12 7
  let core := coreNo die cl (if bitOf sel 4 then 4 else bitsOf sel 6 5)
  if cl < 40 && s.coreOn die cl then
    s.onPlat fun p => { p with tdsnap := s.leaves core }
  else s.onPlat fun p => { p with tdsnap := [] }

end Sys2Proof.Machine
end

