-- ==== Sys2Proof/Machine/SysReg.lean ====
section
/-! DEFINITION. The system registers (spec/20 R442, R443, R448; access codes of spec/00 R6 to R8): for each number its levels and
fields, what a read gives, and what a write does. -/

namespace Sys2Proof.Machine

/-! Levels and fields. -/

/-- A register: the lowest level that reads it, the lowest that writes it, and the masks of its fields by access code. -/
structure RegInfo where
  rd  : Level
  wr  : Level
  ro  : Nat := 0
  rw  : Nat := 0
  rwh : Nat := 0
  w1c : Nat := 0
  wo  : Nat := 0

/-- The mask of bits hi..lo. -/
def mk (hi lo : Nat) : Nat := 2 ^ (hi + 1) - 2 ^ lo

/-- A register all of whose fields are RO. -/
def RegInfo.allRo (r : RegInfo) : Bool := r.rw + r.rwh + r.w1c + r.wo == 0

/-- The register's fields. -/
def RegInfo.named (r : RegInfo) : Nat := r.ro ||| r.rw ||| r.rwh ||| r.w1c ||| r.wo

/-- Every field RO. -/
def roReg (rd wr : Level) : RegInfo := { rd := rd, wr := wr, ro := mk 63 0 }

/-- Thread state and trap state, 0x000 to 0x20F. -/
def regInfo0 (n : Nat) : Option RegInfo :=
  if n ≤ 0x007 then some (roReg .u .u)
  else match n with
    | 0x008 => some { rd := .u, wr := .u, rw := mk 4 0 }
    | 0x010 => some { rd := .u, wr := .u, rw := mk 47 5 }
    | 0x011 => some { rd := .u, wr := .u, rw := mk 47 3 ||| 1 }
    | 0x012 => some (roReg .u .u)
    | 0x013 => some (roReg .u .u)
    | 0x014 => some (roReg .u .u)
    | 0x015 => some (roReg .u .u)
    | 0x016 => some { rd := .u, wr := .u, rw := mk 47 3 }
    | 0x017 => some (roReg .u .u)
    | 0x020 => some (roReg .u .u)
    | 0x100 => some (roReg .g .g)
    | 0x101 => some { rd := .g, wr := .g, rw := mk 63 60 ||| mk 47 3 }
    | 0x102 => some (roReg .g .g)
    | 0x103 => some (roReg .g .g)
    | 0x104 => some { rd := .g, wr := .g, rw := mk 47 3 ||| 1 }
    | 0x105 => some { rd := .g, wr := .g, rwh := mk 25 1 }
    | 0x108 => some (roReg .h .h)
    | 0x109 => some { rd := .h, wr := .h, rw := mk 63 60 ||| mk 47 3 }
    | 0x10A => some (roReg .h .h)
    | 0x10B => some (roReg .h .h)
    | 0x10C => some { rd := .h, wr := .h, rwh := mk 51 3 ||| 1 }
    | 0x200 => some { rd := .u, wr := .u, rw := mk 4 0 }
    | 0x201 => some (roReg .u .u)
    | 0x202 => some (roReg .u .u)
    | 0x210 => some (roReg .u .u)
    | _ => none

/-- Memory health, views and fabric, 0x300 to 0x43F. -/
def regInfo3 (n : Nat) : Option RegInfo :=
  if 0x410 ≤ n && n ≤ 0x42F then some (roReg .u .h)
  else match n with
    | 0x300 => some { rd := .g, wr := .g, rw := mk 7 0 }
    | 0x301 => some (roReg .g .g)
    | 0x302 => some (roReg .g .g)
    | 0x303 => some (roReg .g .g)
    | 0x304 => some (roReg .g .g)
    | 0x305 => some { rd := .g, wr := .g, rwh := mk 8 0 }
    | 0x310 => some { rd := .g, wr := .g, rwh := mk 51 12 ||| 1 }
    | 0x311 => some { rd := .g, wr := .g, ro := mk 31 0, w1c := mk 32 32 }
    | 0x312 => some { rd := .g, wr := .g, rw := mk 31 0 }
    | 0x400 => some (roReg .u .h)
    | 0x401 => some { rd := .u, wr := .h, rwh := mk 10 0 }
    | 0x402 => some { rd := .u, wr := .h, rwh := mk 47 0 }
    | 0x403 => some (roReg .u .h)
    | 0x404 => some { rd := .g, wr := .g, rwh := mk 51 14 }
    | 0x405 => some { rd := .g, wr := .g, rw := mk 5 0 }
    | 0x406 => some (roReg .g .g)
    | 0x407 => some { rd := .u, wr := .h, rwh := mk 51 12 }
    | 0x408 => some { rd := .u, wr := .h, rwh := mk 31 0 }
    | 0x409 => some { rd := .u, wr := .h, wo := mk 51 8 }
    | _ => none

/-- Die and package, 0x800 to 0x8A4. -/
def regInfo8 (n : Nat) : Option RegInfo :=
  if n ≤ 0x80F then some (roReg .u .u)
  else if 0x824 ≤ n && n ≤ 0x827 then some (roReg .g .h)
  else if 0x828 ≤ n && n ≤ 0x82B then some (roReg .h .h)
  else if 0x830 ≤ n && n ≤ 0x839 then some (roReg .g .u)
  else if 0x840 ≤ n && n ≤ 0x8A4 then (if (n - 0x840) % 8 ≤ 4 then some (roReg .g .u) else none)
  else match n with
    | 0x818 => some { rd := .g, wr := .g, rwh := mk 15 0 }
    | 0x81A => some (roReg .g .u)
    | 0x820 => some { rd := .h, wr := .h, wo := mk 6 0 }
    | _ => none

/-- Package control, 0xA00 to 0xA47. -/
def regInfoA (n : Nat) : Option RegInfo :=
  match n with
  | 0xA00 => some { rd := .g, wr := .g, rwh := mk 3 0 }
  | 0xA10 => some { rd := .g, wr := .g, rwh := mk 39 24 ||| mk 15 0 }
  | 0xA11 => some { rd := .g, wr := .g, rwh := mk 51 16 ||| 1 }
  | 0xA12 => some { rd := .g, wr := .g, ro := mk 31 0, w1c := mk 32 32 }
  | 0xA13 => some { rd := .g, wr := .g, rwh := mk 31 0 }
  | 0xA14 => some { rd := .g, wr := .g, rwh := mk 51 24 ||| 1 }
  | 0xA15 => some { rd := .g, wr := .g, wo := mk 51 12 ||| mk 1 0 }
  | 0xA18 => some (roReg .g .g)
  | 0xA19 => some (roReg .g .g)
  | 0xA20 => some { rd := .g, wr := .g, rwh := mk 9 0 }
  | 0xA21 => some { rd := .g, wr := .g, rwh := mk 58 19 ||| mk 15 0 }
  | 0xA22 => some (roReg .g .g)
  | 0xA23 => some { rd := .g, wr := .g, rwh := mk 51 19 }
  | 0xA24 => some { rd := .g, wr := .g, wo := mk 17 0 }
  | 0xA25 => some { rd := .g, wr := .g, rwh := mk 51 12 ||| mk 5 0 }
  | 0xA26 => some (roReg .g .g)
  | 0xA27 => some { rd := .g, wr := .g, rw := mk 63 0 }
  | 0xA28 => some { rd := .g, wr := .g, ro := mk 42 22, w1c := 1 }
  | 0xA30 => some { rd := .g, wr := .g, rwh := mk 51 14 ||| 1 }
  | 0xA31 => some (roReg .g .g)
  | 0xA40 => some { rd := .g, wr := .g, rw := mk 47 15 ||| 1 }
  | 0xA41 => some { rd := .g, wr := .g, rwh := mk 51 12 ||| 1 }
  | 0xA42 => some { rd := .g, wr := .g, rw := mk 51 17 ||| mk 11 0 }
  | 0xA43 => some (roReg .g .g)
  | 0xA44 => some { rd := .g, wr := .g, rw := mk 31 0 }
  | 0xA45 => some { rd := .g, wr := .g, wo := mk 63 12 ||| mk 1 0 }
  | 0xA46 => some { rd := .g, wr := .g, rw := mk 32 32 ||| mk 15 0 }
  | 0xA47 => some { rd := .g, wr := .g, rw := 1 }
  | _ => none

/-- Debug, trace and top-down counters, 0xA50 to 0xA92. -/
def regInfoD (n : Nat) : Option RegInfo :=
  if 0xA50 ≤ n && n ≤ 0xA57 then some { rd := .g, wr := .g, rw := mk 63 60 ||| mk 47 3 ||| mk 1 0 }
  else if 0xA60 ≤ n && n ≤ 0xA6F then some { rd := .g, wr := .g, rw := mk 47 7 ||| 1 }
  else if 0xA70 ≤ n && n ≤ 0xA7F then some { rd := .g, wr := .g, rw := mk 31 0 }
  else match n with
    | 0xA58 => some { rd := .g, wr := .g, rw := mk 40 20 ||| 1 }
    | 0xA59 => some { rd := .g, wr := .g, rw := mk 63 0 }
    | 0xA5A => some { rd := .g, wr := .g, wo := mk 2 0 }
    | 0xA5B => some (roReg .g .g)
    | 0xA5C => some { rd := .g, wr := .g, ro := mk 63 60 ||| mk 56 48 ||| mk 47 3, w1c := mk 57 57 }
    | 0xA5D => some { rd := .g, wr := .g, rw := mk 16 0 }
    | 0xA5E => some { rd := .g, wr := .g, rw := mk 63 0 }
    | 0xA5F => some (roReg .g .g)
    | 0xA80 => some { rd := .g, wr := .g, rw := mk 51 16 ||| 1 }
    | 0xA81 => some { rd := .g, wr := .g, ro := mk 31 0, w1c := mk 32 32 }
    | 0xA82 => some { rd := .g, wr := .g, rw := mk 31 0 }
    | 0xA90 => some { rd := .h, wr := .h, rw := mk 14 4, wo := mk 15 15 }
    | 0xA91 => some { rd := .h, wr := .h, rw := mk 4 0 }
    | 0xA92 => some (roReg .h .h)
    | _ => none

/-- The register with a number (R448); none for an unassigned number. -/
def regInfo (n : Nat) : Option RegInfo :=
  if n < 0x300 then regInfo0 n
  else if n < 0x800 then regInfo3 n
  else if n < 0x900 then regInfo8 n
  else if n < 0xA00 then some { rd := .g, wr := .g, rwh := mk 2 0 }
  else if n < 0xA50 then regInfoA n
  else if n < 0x1000 then regInfoD n
  else none

/-! Agents. -/

/-- Who reads or writes a register: a thread, or a page of the window of R140 (thread 0); its level, its function, its
selectors. -/
structure RegAg where
  thr  : Nat
  page : Nat
  lvl  : Level
  fn   : Nat
  sel  : Sel

/-- The agent that a thread is. -/
def State.regAg (s : State) (u : Nat) : RegAg := let t := s.thread u; ⟨u, 0, t.lvl, t.id.fn, t.sel⟩

/-- The function that a register following FQSEL shows (R130). -/
def RegAg.fq (a : RegAg) : Nat := if a.lvl == .h then a.sel.fq else a.fn

/-- The function whose retirement log is shown (R57). -/
def RegAg.rl (a : RegAg) : Nat := if a.lvl == .h then a.sel.mhf else a.fn

/-- The selectors of an agent change. -/
def State.setSel (s : State) (a : RegAg) (f : Sel → Sel) : State :=
  if a.thr = 0 then s.modPage a.page fun w => { w with sel := f w.sel }
  else s.modThread a.thr fun t => { t with sel := f t.sel }

/-! Reads. -/

/-- A bank of trap state (R443). -/
def TrapBank.read (b : TrapBank) (k : Nat) : Nat :=
  match k with
  | 0 => b.cause
  | 1 => b.pcIdx * 2 ^ 60 + b.pcA
  | 2 => b.val.toNat
  | _ => b.plvl.num + 4 * b.inh.toNat

/-- Thread state, trap state and cluster engines. -/
def State.read0 (s : State) (a : RegAg) (n : Nat) : Nat :=
  let t := s.thread a.thr
  let f := s.fnAt a.fq
  let cl := clusterOf t.id.core
  let mx := (s.clusterAt cl).mx
  match n with
  | 0x000 => t.ltid.toNat
  | 0x001 => t.id.lane
  | 0x002 => t.id.row
  | 0x003 => t.id.asid
  | 0x004 => t.id.exk
  | 0x005 => t.id.prio
  | 0x006 => t.id.csid.getD 0
  | 0x007 => (s.coreAt t.id.core).spk
  | 0x008 => t.fflags.toNat
  | 0x010 => t.tls
  | 0x011 => t.fr.target + t.fr.en.toNat
  | 0x012 => t.fr.tokSeq * 2 ^ 32 + t.fr.tokCause * 2 ^ 24 + t.fr.tokKind * 2 ^ 20
  | 0x013 => t.fr.fpIdx * 2 ^ 60 + t.fr.fpA + t.fr.pend.toNat
  | 0x014 => t.ct.length
  | 0x015 => t.rsd * 2 ^ 16 + t.rstk.length
  | 0x016 => t.fr.cwa
  | 0x017 => t.ctinfo.1 * 2 ^ 56 + t.ctinfo.2.1 * 2 ^ 48 + t.ctinfo.2.2 % 2 ^ 48
  | 0x020 => s.cycleOf (dieOf t.id.core)
  | 0x104 => f.tvecg + f.tvecgEn.toNat
  | 0x105 => f.troute.toNat
  | 0x10C => f.tvech + f.tvechEn.toNat
  | 0x200 => mx.flags.toNat
  | 0x201 => mx.prog
  | 0x202 => mx.fseq * 2 ^ 32 + Nat.min mx.queue.length 16 * 16 +
      (if mx.defer.isSome then 4 else if mx.stop.isSome then 2 else if s.isHeld (.matrix cl) then 3 else if mx.queue.isEmpty then 0 else 1)
  | 0x210 =>
    let polls := s.core.threads.filter fun t => clusterOf t.id.core == cl && ((match t.watch with
      | some w => w.poll
      | none => false) || match t.run with
      | .waiting w => w.poll && w.kind != .line
      | _ => false)
    Nat.min polls.length 1023 * 2 ^ 32 + s.tableUsed cl
  | _ => if n < 0x108 then t.bankG.read (n - 0x100) else t.bankH.read (n - 0x108)

/-- A channel of a stack is enabled in the unit map. -/
def State.chanOn (s : State) (ch : Nat) : Bool := bitOf (s.pkg.die (ch / 64)).umchn (ch % 64)

def State.chanAt (s : State) (ch : Nat) : Chan := s.plat.health.chans.getD Chan.reset ch

/-- The known-bad positions of a SID in MHERAS (R52). -/
def erasBits (l : List Nat) : Nat :=
  let g (k : Nat) : Nat := match l[k]? with
    | some p => 128 + p
    | none => 0
  g 0 + 256 * g 1

/-- Memory health (R52, R57). -/
def State.readHealth (s : State) (a : RegAg) (n : Nat) : Nat :=
  let on := s.chanOn a.sel.mh
  let c := s.chanAt a.sel.mh
  let f := s.fnAt a.rl
  let z (v : Nat) : Nat := if on then v else 0
  let four (l : List Nat) (w : Nat) : Nat := ((l.zip (rangeFrom 0 4)).map fun e => e.1 * 2 ^ (w * e.2)).foldl (· + ·) 0
  match n with
  | 0x300 => a.sel.mh
  | 0x301 => z (c.sp.banks * 2 ^ 40 + c.sp.lanes * 2 ^ 32 + four c.sp.rows 8)
  | 0x302 =>
    let st := if !on then 2 else c.chst
    st * 2 ^ 62 + z ((match c.active with
      | some a => a.rep.kind * 2 ^ 60 + (if a.rep.kind = 3 then 0 else a.rep.sid) * 2 ^ 58
      | none => 0) + c.queue.length * 2 ^ 48 + c.done * 2 ^ 32 + c.stallc)
  | 0x303 => z (four (c.sp.bad.map erasBits) 16)
  | 0x304 => z (c.ue * 2 ^ 32 + c.ce)
  | 0x305 => a.sel.mhf
  | 0x310 => f.rl.base + f.rl.en.toNat
  | 0x311 => f.rlOvf.toNat * 2 ^ 32 + f.rlHead
  | _ => f.rlTail

/-- Views and fabric (R96, R85). -/
def State.readView (s : State) (a : RegAg) (n : Nat) : Nat :=
  let v := s.view
  let p := s.plat.nor.ports.getD NPort.reset a.sel.np
  let lanes := bitsOf (s.pkg.die (a.sel.np / 12)).umnor (4 * (a.sel.np % 12) + 3) (4 * (a.sel.np % 12))
  match n with
  | 0x400 => v.num
  | 0x401 => v.self_
  | 0x402 => v.agrtmo * 2 ^ 32 + v.susp * 2 ^ 16 + v.hbper
  | 0x403 => v.changes * 2 ^ 32 + v.members.length * 2 ^ 8 + v.state
  | 0x404 => s.plat.nor.nrtbase
  | 0x405 => a.sel.np
  | 0x406 => p.peer * 2 ^ 53 + p.fecunc * 2 ^ 32 + p.retry * 2 ^ 16 + (bitList lanes 4).length * 16 + p.state
  | 0x407 => v.syncbase
  | 0x408 => v.synclen
  | 0x409 => 0
  | _ => v.setWord (n - 0x410)

/-- Die and package (R21, R25, R32, R35, R62, R63, R70). The bits of an absent die's units read 0. -/
def State.readDie (s : State) (n : Nat) : Nat :=
  let d := s.pkg.die (n % 4)
  let w := s.plat.power
  let l := s.plat.links.dl.getD Link.reset (n - 0x830)
  if n < 0x810 && d.drst = 15 then 0
  else if n < 0x804 then d.umclu
  else if n < 0x808 then d.umslc
  else if n < 0x80C then d.umchn
  else if n < 0x810 then d.umnor
  else if n = 0x818 then w.capw
  else if n = 0x81A then w.siten.toNat * 2 ^ 48 + w.unitoff * 2 ^ 32 + w.retrain * 2 ^ 16 + w.firstms
  else if n = 0x820 then 0
  else if n < 0x828 then d.resets * 2 ^ 32 + d.drerr * 2 ^ 8 + d.drst
  else if n < 0x82C then Nat.min (2 ^ 32 - 1) ((s.plat.links.held.filter fun h => h.die == n % 4).length + (s.choresHeld (n % 4)).length)
  else if n < 0x83A then l.retry * 2 ^ 48 + l.crcerr * 2 ^ 32 + l.train * 2 ^ 16 + l.lrep * 2 ^ 8 + l.state
  else w.wear.getD 0 (n - 0x840)

/-- FQUOTA and FQUSE (R130). -/
def quotaWord (c l q : Nat) : Nat := c * 2 ^ 40 + l * 2 ^ 19 + q

/-- Package control (R39, R118, R130 to R132, R137, R158, R200, R227, R236, R248, R350). -/
def State.readPkg (s : State) (a : RegAg) (n : Nat) : Nat :=
  let h := s.plat.host
  let f := s.fnAt a.fq
  let m := f.mem
  match n with
  | 0xA00 => s.pkg.hmdies
  | 0xA10 => h.tgt * 2 ^ 36 + h.iid * 2 ^ 24 + h.bitmo
  | 0xA11 => h.smqBase + h.smqEn.toNat
  | 0xA12 => h.smqOvf.toNat * 2 ^ 32 + h.smqHead
  | 0xA13 => h.smqTail
  | 0xA14 => h.ssBase + h.ssEn.toNat
  | 0xA18 => let p := h.port 0; p.bisnp * 2 ^ 32 + p.dropw * 2 ^ 16 + p.width * 2 ^ 8 + p.gen * 2 ^ 4 + p.state
  | 0xA19 => let p := h.port 1; p.bisnp * 2 ^ 32 + p.width * 2 ^ 8 + p.gen * 2 ^ 4 + p.state
  | 0xA20 => a.sel.fq
  | 0xA21 => quotaWord f.qCnts f.qSlots f.qQueues
  | 0xA22 => quotaWord f.uCnts f.uSlots f.uQueues
  | 0xA23 => s.task.qtbase
  | 0xA25 => f.jnl.ring.base + f.jnl.logsz * 2 + f.jnl.ring.en.toNat
  | 0xA26 => f.jnl.head
  | 0xA27 => f.jnl.tail
  | 0xA28 => f.jnl.open_ * 2 ^ 22 + f.jnl.ovf.toNat
  | 0xA30 => s.task.schbase + s.task.schEn.toNat
  | 0xA31 => f.fissue
  | 0xA40 => m.asctx + m.asctxEn.toNat
  | 0xA41 => m.s2root + m.s2En.toNat
  | 0xA42 => m.pfq.base + m.pfqVec * 2 + m.pfq.en.toNat
  | 0xA43 => m.pfqHead
  | 0xA44 => m.pfqTail
  | 0xA46 => m.mixsz.toNat * 2 ^ 32 + m.win
  | 0xA47 => m.lachk.toNat
  | _ => 0

/-- Debug, trace and top-down counters (R328, R331, R332, R335). -/
def State.readDbg (s : State) (a : RegAg) (n : Nat) : Nat :=
  let d := (s.fnAt a.fq).dbg
  let t := (s.fnAt a.fq).trace
  if n < 0xA58 then match d.bps[n - 0xA50]? with
    | some b => b.idx * 2 ^ 60 + b.va + b.crew.toNat * 2 + b.en.toNat
    | none => 0
  else if 0xA60 ≤ n && n < 0xA80 then match t.regions[n % 16]? with
    | some (b, en, len) => if n < 0xA70 then b + en.toNat else len
    | none => 0
  else match n with
    | 0xA58 => d.any.toNat * 2 ^ 40 + d.asid * 2 ^ 20 + d.en.toNat
    | 0xA59 => d.tgt.toNat
    | 0xA5C => d.ovf.toNat * 2 ^ 57 + match d.eva with
        | some e => e.idx * 2 ^ 60 + 2 ^ 56 + e.cause * 2 ^ 48 + e.a % 2 ^ 48
        | none => 0
    | 0xA5D => d.space.toNat * 2 ^ 16 + d.num
    | 0xA5F => match d.eva with
        | some e => if e.hpos then 16 + e.a / 2 ^ 48 % 16 else 0
        | none => 0
    | 0xA80 => t.ring.base + t.ring.en.toNat
    | 0xA81 => t.ovf.toNat * 2 ^ 32 + t.head
    | 0xA82 => t.tail
    | 0xA90 => s.plat.tdsel
    | 0xA91 => s.plat.tdleaf
    | 0xA92 => s.plat.tdsnap.getD 0 s.plat.tdleaf
    | _ => 0

/-- The value of a register, side effects apart. -/
def State.regValue (s : State) (a : RegAg) (n : Nat) : Nat :=
  if n < 0x300 then s.read0 a n
  else if n < 0x400 then s.readHealth a n
  else if n < 0x800 then s.readView a n
  else if n < 0x900 then s.readDie n
  else if n < 0xA00 then s.pkg.homemap.getD 4 (n - 0x900)
  else if n < 0xA50 then s.readPkg a n
  else s.readDbg a n

/-- The checks of steps 1 and 2 of R442, for a thread: an assigned number, of its kind of core. -/
def State.regKnown (s : State) (a : RegAg) (n : Nat) : Option RegInfo :=
  if a.thr != 0 && (if (s.thread a.thr).isCtl then n == 1 || n == 2 else decide (0x200 ≤ n) && decide (n ≤ 0x202)) then none
  else regInfo n

/-- What an access to a register gives: a value, a trap, or a wait in place. -/
inductive RegRes where
  | ok (v : Word) (s : State)
  | trap (c : Nat)
  | hold (s : State)

/-! DBGDATA (R328). -/

/-- The binding of a queue register as DBGDATA shows it: BOUND, BRK, KIND, UNIT of R427. -/
def QBind.word (b : QBind) : Nat := 2 ^ 31 + b.brk.toNat * 2 ^ 30 + b.ep * 2 ^ 27 + b.unit * 2 ^ 21

/-- A thread register by its code: on a SIMT core the tag in bits 35:32, on the control core all 64 bits. -/
def State.dbgReg (s : State) (t : Thread) (code : Nat) : Option Nat :=
  if 0xE0 ≤ code && code < 0xF0 then some (match s.binding t.id.crew (code - 0xE0) with
    | some b => b.word
    | none => 0)
  else if s.nregs t ≤ code then none
  else
    let r := t.reg code
    some (if t.isCtl then r.val.toNat else r.val.toNat % 2 ^ 32 + tagCode r.tag * 2 ^ 32)

/-- The stopped target of a function's debug registers. -/
def State.dbgTarget (s : State) (fn : Nat) : Option Thread :=
  match s.byLtid fn (s.fnAt fn).dbg.tgt with
  | some t => match t.run with
    | .stopped _ => some t
    | _ => none
  | none => none

/-! Reads and writes whole. -/

/-- The trap of a number that is no register: below H those among the die-reset registers raise the privilege trap (R63). -/
def unassigned (a : RegAg) (n : Nat) : Nat := if 0x821 ≤ n && n ≤ 0x823 && a.lvl != .h then 3 else 0x19

/-- A read of a register (R442). -/
def State.regRead (s : State) (a : RegAg) (n : Nat) : RegRes :=
  match s.regKnown a n with
  | none => .trap (unassigned a n)
  | some r =>
    if a.lvl.num < r.rd.num then .trap 3
    else if n = 0xA5B then let (v, s) := s.debugPop a.fq; .ok v s
    else if n = 0xA5E then
      match s.dbgTarget a.fq with
        | none => .trap 0x19
        | some t =>
          let d := (s.fnAt a.fq).dbg
          if d.space then
            let b : RegAg := ⟨t.uid, 0, a.lvl, a.fn, t.sel⟩
            match s.regKnown b d.num with
            | none => .trap 0x19
            | some r => if a.lvl.num < r.rd.num || d.num = 0xA5E then .trap 3
              else if d.num = 0xA5B then let (v, s) := s.debugPop b.fq; .ok v s
              else .ok (BitVec.ofNat 64 (s.regValue b d.num)) s
          else match s.dbgReg t d.num with
            | some v => .ok (BitVec.ofNat 64 v) s
            | none => .trap 0x19
    else .ok (BitVec.ofNat 64 (s.regValue a n)) s

/-- A write that is done. -/
def RegRes.done (s : State) : RegRes := .ok 0 s

/-- A write that changes a function. -/
def State.fnDone (s : State) (fn : Nat) (f : Fn → Fn) : RegRes := .done (s.modFn fn f)

/-- Thread state, trap state and MXFLAGS are written. -/
def State.write0 (s : State) (a : RegAg) (n v : Nat) : RegRes :=
  let th (f : Thread → Thread) : RegRes := .done (s.modThread a.thr f)
  let p (b : TrapBank) : TrapBank := { b with pcIdx := v / 2 ^ 60, pcA := v % 2 ^ 48 }
  match n with
  | 0x008 => th fun t => { t with fflags := BitVec.ofNat 5 v }
  | 0x010 => th fun t => { t with tls := v }
  | 0x011 => th fun t => { t with fr := { t.fr with target := v / 8 * 8, en := bitOf v 0 } }
  | 0x016 => th fun t => { t with fr := { t.fr with cwa := v } }
  | 0x101 => th fun t => { t with bankG := p t.bankG }
  | 0x104 => s.fnDone a.fq fun f => { f with tvecg := v / 8 * 8, tvecgEn := bitOf v 0 }
  | 0x105 => s.fnDone a.fq fun f => { f with troute := BitVec.ofNat 26 v }
  | 0x109 => th fun t => { t with bankH := p t.bankH }
  | 0x10C => s.fnDone a.fq fun f => { f with tvech := v / 8 * 8, tvechEn := bitOf v 0 }
  | _ =>
    let cl := clusterOf (s.thread a.thr).id.core
    let m := (s.clusterAt cl).mx
    let (k, s) := if m.queue.isEmpty then (0, s) else choose 32 s
    .done (s.modMx cl fun m => { m with flags := BitVec.ofNat 5 v ||| (m.cur &&& BitVec.ofNat 5 k) })

/-- Memory health (R52, R57). -/
def State.writeHealth (s : State) (a : RegAg) (n v : Nat) : RegRes :=
  let f := s.fnAt a.rl
  match n with
  | 0x300 => .done (s.setSel a fun x => { x with mh := v })
  | 0x305 => if 512 < v then .trap 0x19 else .done (s.setSel a fun x => { x with mhf := v })
  | 0x310 => match ringWrite s a.rl (v / 4096 * 4096) (bitOf v 0) 4096 with
    | none => .trap 0x19
    | some r => s.fnDone a.rl fun f => { f with rl := r }
  | 0x311 => s.fnDone a.rl fun f => { f with rlOvf := f.rlOvf && !bitOf v 32 }
  | _ => if tailOk 32 f.rlHead f.rlTail v then s.fnDone a.rl fun f => { f with rlTail := v } else .trap 0x19

/-- Views and fabric (R85, R96). -/
def State.writeView (s : State) (a : RegAg) (n v : Nat) : RegRes :=
  match n with
  | 0x401 => if s.view.state = 0 then .done (s.modView fun w => { w with self_ := v }) else .trap 0x19
  | 0x402 =>
    let hb := v % 2 ^ 16
    let su := bitsOf v 31 16
    let ag := bitsOf v 47 32
    if hb = 0 || su = 0 || ag = 0 || su < 4 * hb then .trap 0x19
    else .done (s.modView fun w => { w with agrtmo := ag, susp := su, hbper := hb })
  | 0x404 => .done (s.onNor fun k => { k with nrtbase := v })
  | 0x405 => if 47 < v then .trap 0x19 else .done (s.setSel a fun x => { x with np := v })
  | 0x407 => .done (s.modView fun w => { w with syncbase := v })
  | 0x408 => .done (s.modView fun w => { w with synclen := v })
  | _ => .done (s.viewInit v)

/-- The writer of DRCTL or HCCMD waits in place, and its mark says so (R63, R117). -/
def State.markHold (s : State) (a : RegAg) : State :=
  if a.thr = 0 then s.modPage a.page fun w => { w with mark := some 0 } else s.modThread a.thr fun t => { t with mark := some 0 }

def State.unmarkAg (s : State) (a : RegAg) : State :=
  if a.thr = 0 then s.modPage a.page fun w => { w with mark := none } else s.unmark a.thr

/-- What a waiting write has already done. -/
def State.markOf (s : State) (a : RegAg) : Option Nat := if a.thr = 0 then (s.page a.page).mark else (s.thread a.thr).mark

/-- DRCTL (R63): the command starts, and the writer waits until it has ended. -/
def State.drctl (s : State) (a : RegAg) (v : Nat) : RegRes :=
  let d := v % 4
  let cmd := bitsOf v 5 2
  let kill := bitOf v 6
  match s.markOf a with
  | some 0 => .hold s
  | some _ => .done (s.unmarkAg a)
  | none =>
    let other := (rangeFrom 0 4).any fun e => e != d && decide (1 ≤ (s.pkg.die e).drst) && decide ((s.pkg.die e).drst ≤ 5)
    if cmd = 0 || 7 ≤ cmd || !s.dieOn d || (kill && cmd != 1) || (s.pkg.die d).drst != cmd - 1 || other ||
        (a.thr != 0 && dieOf (s.thread a.thr).id.core == d) then .trap 0x19
    else if s.plat.links.cur.isSome then .hold s
    else
      .hold ((s.onLinks fun l => { l with cur := some ⟨d, cmd, kill, a.thr, a.page⟩ }).markHold a)

/-- HCCMD (R117, R118). -/
def State.hccmd (s : State) (a : RegAg) (v : Nat) : RegRes :=
  let cmd := v % 4
  let pa := v / 4096 * 4096
  match s.markOf a with
  | some _ => if s.frameBusy pa then .hold s else .done (s.unmarkAg a)
  | none =>
    if cmd = 0 || cmd = 3 || !s.frameOk pa then .trap 0x19
    else if cmd = 2 then (if s.frameWrites pa then .hold s else .done (s.reloadFrame pa))
    else .hold ((s.invFrame pa).markHold a)

/-- The sum of a field of every function's quota with one function's replaced. -/
def State.quotaSum (s : State) (fn v : Nat) (f : Fn → Nat) : Nat :=
  ((s.task.fns.filter fun e => e.1 != fn).map fun e => f e.2).foldl (· + ·) v

/-- FQUOTA (R130). -/
def State.setQuota (s : State) (fn v : Nat) : RegRes :=
  let c := bitsOf v 58 40
  let l := bitsOf v 39 19
  let q := v % 2 ^ 16
  let f := s.fnAt fn
  if c < f.uCnts || l < f.uSlots || q < f.uQueues || 262144 < s.quotaSum fn c (·.qCnts) || 1048576 < s.quotaSum fn l (·.qSlots) ||
      32768 < s.quotaSum fn q (·.qQueues) then .trap 0x19
  else s.fnDone fn fun f => { f with qCnts := c, qSlots := l, qQueues := q }

/-- QCMD (R132). A reserved field that is not zero has raised 0x19 before this (`RegInfo.check`), so a write of CMD 1 at G with such a field traps
with 0x19 and not with 0x03 (DESIGN CHOICE, log 154: R7 and R132 do not order the two). -/
def State.qcmd (s : State) (a : RegAg) (v : Nat) : RegRes :=
  let lq := bitsOf v 17 3
  match v % 8 with
  | 1 => if a.lvl != .h then .trap 3 else match s.queueEnable lq with
    | some s => .done s
    | none => .trap 0x19
  | 2 => .done (s.queueDisable a.fq lq)
  | 3 => .done (s.queueCancel a.fq lq)
  | _ => .trap 0x19

/-- The host side (R118). -/
def State.writeHost (s : State) (a : RegAg) (n v : Nat) : RegRes :=
  let h := s.plat.host
  match n with
  | 0xA10 =>
    if v % 2 ^ 16 = 0 || 2047 < bitsOf v 35 24 then .trap 0x19
    else .done (s.onHost fun h => { h with tgt := bitsOf v 39 36, iid := bitsOf v 35 24, bitmo := v % 2 ^ 16 })
  | 0xA11 => .done (s.onHost fun h => { h with smqBase := v / 2 ^ 16 * 2 ^ 16, smqEn := bitOf v 0 }).smqFlush
  | 0xA12 => .done (s.onHost fun h => { h with smqOvf := h.smqOvf && !bitOf v 32 })
  | 0xA13 => if tailOk 32 h.smqHead h.smqTail v then .done (s.onHost fun h => { h with smqTail := v }).smqFlush else .trap 0x19
  | 0xA14 => .done (s.onHost fun h => { h with ssBase := v / 2 ^ 24 * 2 ^ 24, ssEn := bitOf v 0 })
  | _ => s.hccmd a v

/-- FLTRES (R237). -/
def State.writeFltres (s : State) (a : RegAg) (v : Nat) : RegRes :=
  let asid := bitsOf v 31 12
  let cmd := v % 4
  if cmd = 0 || (cmd = 2 && a.lvl != .h && a.fq != 0 && asid / 2048 + 1 != a.fq) then .trap 0x19
  else .done (s.fltres a.fq cmd (v / 2 ^ 32) asid)

/-- Package control. -/
def State.writePkg (s : State) (a : RegAg) (n v : Nat) : RegRes :=
  let fn := a.fq
  let f := s.fnAt fn
  let m (g : FnMem → FnMem) : RegRes := s.fnDone fn fun f => { f with mem := g f.mem }
  match n with
  | 0xA00 =>
    if v = 0 || (bitList v 4).any fun d => !s.dieOn d then .trap 0x19 else .done (s.rehome fun p => { p with hmdies := v })
  | 0xA20 => if 512 < v then .trap 0x19 else .done (s.setSel a fun x => { x with fq := v })
  | 0xA21 => s.setQuota fn v
  | 0xA23 => .done (s.onTask fun k => { k with qtbase := v })
  | 0xA24 => s.qcmd a v
  | 0xA25 =>
    let lg := bitsOf v 5 1
    if bitOf v 0 && !(decide (7 ≤ lg) && decide (lg ≤ 26)) then .trap 0x19
    else match ringWrite s fn (v / 4096 * 4096) (bitOf v 0) (32 * 2 ^ lg) with
      | none => .trap 0x19
      | some r => s.fnDone fn fun f => { f with jnl := { f.jnl with ring := r, logsz := lg } }
  | 0xA27 => if tailOk 64 f.jnl.head f.jnl.tail v then s.fnDone fn fun f => { f with jnl := { f.jnl with tail := v } } else .trap 0x19
  | 0xA28 => s.fnDone fn fun f => { f with jnl := { f.jnl with ovf := f.jnl.ovf && !bitOf v 0 } }
  | 0xA30 =>
    -- with EN = 0 the default policy is in force at once; the reread time begins where EN is set (R158)
    let f (e : Nat × Dispatch) : Nat × Dispatch := (e.1, if bitOf v 0 && s.task.schEn then e.2 else { e.2 with policy := [], polAt := s.cycleOf e.1 })
    let d := (rangeFrom 0 4).foldl (fun (m : Map Dispatch) k => m.modD Dispatch.reset k id) s.task.disp
    .done (s.onTask fun k => { k with schbase := v / 2 ^ 14 * 2 ^ 14, schEn := bitOf v 0, disp := d.map f })
  | 0xA40 => m fun x => { x with asctx := v / 2 ^ 15 * 2 ^ 15, asctxEn := bitOf v 0 }
  | 0xA41 => m fun x => { x with s2root := v / 4096 * 4096, s2En := bitOf v 0 }
  | 0xA42 => match ringWrite s fn (v / 2 ^ 17 * 2 ^ 17) (bitOf v 0) (2 ^ 17) with
    | none => .trap 0x19
    | some r => .done ((s.modFn fn fun f => { f with mem := { f.mem with pfq := r, pfqVec := bitsOf v 11 1 } }).faultRoom fn)
  | 0xA44 =>
    if tailOk 32 f.mem.pfqHead f.mem.pfqTail v then .done ((s.modFn fn fun f => { f with mem := { f.mem with pfqTail := v } }).faultRoom fn)
    else .trap 0x19
  | 0xA45 => s.writeFltres a v
  | 0xA46 => if v % 2 ^ 16 = 0 then .trap 0x19 else m fun x => { x with mixsz := bitOf v 32, win := v % 2 ^ 16 }
  | 0xA47 => m fun x => { x with lachk := bitOf v 0 }
  | _ => s.writeHost a n v

/-- Trace registers (R332). -/
def State.writeTrace (s : State) (fn n v : Nat) : RegRes :=
  let t := (s.fnAt fn).trace
  let set (g : FnTrace → FnTrace) : RegRes := s.fnDone fn fun f => { f with trace := g f.trace }
  if n < 0xA70 then set fun t => { t with regions := modNth (fun r => (v / 128 * 128, bitOf v 0, r.2.2)) t.regions (n - 0xA60) }
  else if n < 0xA80 then set fun t => { t with regions := modNth (fun r => (r.1, r.2.1, v)) t.regions (n - 0xA70) }
  else match n with
    | 0xA80 => match ringWrite s fn (v / 2 ^ 16 * 2 ^ 16) (bitOf v 0) (2 ^ 16) with
      | none => .trap 0x19
      | some r => set fun t => { t with ring := r }
    | 0xA81 => set fun t => { t with ovf := t.ovf && !bitOf v 32 }
    | _ => if tailOk 32 t.head t.tail v then set fun t => { t with tail := v } else .trap 0x19

/-- A register of the stopped target is written through DBGDATA. -/
def State.dbgSet (s : State) (t : Thread) (code v : Nat) : RegRes :=
  if 0xE0 ≤ code && code < 0xF0 then .done s
  else if s.nregs t ≤ code then .trap 0x19
  else if t.isCtl then .done (s.modThread t.uid fun t => t.setReg code ⟨BitVec.ofNat 64 v, .b32⟩)
  else if bitsOf v 35 32 = 14 then .trap 0x19
  else .done (s.modThread t.uid fun t => t.setReg code ⟨BitVec.ofNat 64 (v % 2 ^ 32), tagOf (bitsOf v 35 32)⟩)

/-- Debug, trace and top-down registers. -/
def State.writeDbg (s : State) (a : RegAg) (n v : Nat) : RegRes :=
  let fn := a.fq
  let d (g : FnDbg → FnDbg) : RegRes := s.fnDone fn fun f => { f with dbg := g f.dbg }
  if n < 0xA58 then d fun x => { x with bps := modNth (fun _ => ⟨v / 2 ^ 60, v % 2 ^ 48 / 8 * 8, bitOf v 1, bitOf v 0⟩) x.bps (n - 0xA50) }
  else if 0xA60 ≤ n && n < 0xA90 then s.writeTrace fn n v
  else match n with
    | 0xA58 => d fun x => { x with any := bitOf v 40, asid := bitsOf v 39 20, en := bitOf v 0 }
    | 0xA59 => d fun x => { x with tgt := BitVec.ofNat 64 v }
    | 0xA5A => if v = 0 || 5 < v then .trap 0x19 else .done (s.debugCmd fn v)
    | 0xA5C => d fun x => { x with ovf := x.ovf && !bitOf v 57 }
    | 0xA5D => d fun x => { x with space := bitOf v 16, num := v % 2 ^ 16 }
    | 0xA90 =>
      let s := s.onPlat fun p => { p with tdsel := v % 2 ^ 15 }
      .done (if bitOf v 15 then s.snap v else s)
    | _ => if v ≤ 22 || v = 31 then .done (s.onPlat fun p => { p with tdleaf := v }) else .trap 0x19

/-- A write of a register whose checks by level and reserved fields have passed. -/
def State.regSet (s : State) (a : RegAg) (n v : Nat) : RegRes :=
  if n < 0x300 then s.write0 a n v
  else if n < 0x400 then s.writeHealth a n v
  else if n < 0x800 then s.writeView a n v
  else if n = 0x818 then (if 1500 ≤ v && v ≤ 4000 then .done (s.onPower fun w => { w with capw := v }) else .trap 0x19)
  else if n < 0x900 then s.drctl a v
  else if n < 0xA00 then (if 4 < v then .trap 0x19 else .done (s.rehome fun p => { p with homemap := p.homemap.setD 4 (n - 0x900) v }))
  else if n < 0xA50 then s.writePkg a n v
  else s.writeDbg a n v

/-- The checks of a write (R442, R6, R7): what it raises, or that it is ignored, or that it goes on. -/
def RegInfo.check (r : RegInfo) (lvl : Level) (v : Nat) : Option Nat :=
  if lvl.num < r.wr.num then some 3
  else if r.allRo then some 0
  else if r.rwh != 0 && lvl != .h then some 3
  else if v &&& (2 ^ 64 - 1 - r.named) != 0 then some 0x19
  else none

/-- A write of DBGDATA (R328): the selected register of the stopped target, at the writer's level. -/
def State.writeDbgData (s : State) (a : RegAg) (v : Nat) : RegRes :=
  match s.dbgTarget a.fq with
  | none => .trap 0x19
  | some t =>
    let d := (s.fnAt a.fq).dbg
    if !d.space then s.dbgSet t d.num v
    else
      let b : RegAg := ⟨t.uid, 0, a.lvl, a.fn, t.sel⟩
      match s.regKnown b d.num with
      | none => .trap 0x19
      | some r => if d.num = 0xA5E then .trap 0x19 else match r.check a.lvl v with
        | some 0 => .done s
        | some c => .trap c
        | none => s.regSet b d.num v

/-- A write of a register (R442). -/
def State.regWrite (s : State) (a : RegAg) (n : Nat) (w : Word) : RegRes :=
  let v := w.toNat
  match s.regKnown a n with
  | none => .trap (unassigned a n)
  | some r => match r.check a.lvl v with
    | some 0 => .done s
    | some c => .trap c
    | none => if n = 0xA5E then s.writeDbgData a v else s.regSet a n v

end Sys2Proof.Machine
end

