-- ==== Sys2Proof/Machine/SysFam.lean ====
section
/-! DEFINITION. Containment and signatures, major 0x24, and the system instructions, major 0x3E (spec/20 R439 to R447; spec/15 R325,
R322; spec/10 R233). -/

namespace Sys2Proof.Machine

/-! CTOPEN, CTCLOSE, ASSAYSIG. -/

def execCtopen (g : Guard) (a : RegF) (s : State) : Result :=
  .next (s.isa g { srcs := [⟨1, a, .addr⟩] } fun u s =>
    if 4 ≤ (s.thread u).ct.length then (s.badOperand, s)
    else
      let va := (s.src64 u a).toNat
      match s.target u va with
      | (.error f, s) => (f, s)
      | (.ok _, s) =>
        let (id, s) := s.newReq
        (.next, s.modThread u fun t => { t with ct := ⟨va, none, id, t.lvl, t.bankG.inh, t.bankH.inh⟩ :: t.ct }))

/-- Accesses and engine commands that a thread started in its innermost region have not completed (R325). -/
def State.regionBusy (s : State) (u : Nat) : Bool :=
  let t := s.thread u
  let k := s.clusterAt (clusterOf t.id.core)
  let d := t.rgn
  s.core.reqs.any (fun r => r.thr == u && r.kind != .alu && r.st != .done && decide (d ≤ r.id)) ||
    s.core.acpys.any (fun a => a.thr == u && decide (d ≤ a.rgn)) || k.mx.queue.any (fun j => j.thr == u && decide (d ≤ j.rgn)) ||
    k.shq.any (fun q => q.thr == u) || k.shLate.any (fun e => e.1 == (s.thread u).id.crew) ||
    s.plat.nor.ops.any (fun e => e.2.thr == u && decide (d ≤ e.2.rgn) && !e.2.written) ||
    s.plat.links.held.any fun h => h.who == .pub u

def execCtclose (g : Guard) (s : State) : Result :=
  .next (s.isa g {} fun u s =>
    if (s.thread u).ct.isEmpty then (s.badOperand, s)
    else if s.regionBusy u then (.stall, s)
    else (.next, s.modThread u fun t => { t with ct := t.ct.tail }))

def execAssaysig (g : Guard) (d : RegF) (sel : Bool) (s : State) : Result :=
  .next (s.isa g { dsts := [(d, if sel then 1 else 2)] } fun u s =>
    let a := match s.crew? (s.thread u).id.crew with
      | some c => if c.peer.isSome then c.assay else Assay.reset
      | none => Assay.reset
    (.next, if sel then s.dst u d (BitVec.ofNat 64 a.bseq) .i32 else s.dst64 u d a.sig .w64lo .w64hi))

/-! SRD and SWR (R442). -/

/-- An earlier instruction of the thread that can set flags has not completed (R298). -/
def State.flagsPending (s : State) (u : Nat) : Bool := s.core.reqs.any fun r => r.thr == u && r.kind == .alu

def execSrd (g : Guard) (d : RegF) (n : BitVec 16) (w : Bool) (s : State) : Result :=
  .next (s.isa g { ctl := !w, dsts := [(d, if w then 2 else 1)] } fun u s =>
    if n == 8 && s.flagsPending u then (.stall, s)
    else match s.regRead (s.regAg u) n.toNat with
      | .ok v s => (.next, if w then s.dst64 u d v .w64lo .w64hi else s.dst u d v .b32)
      | .trap c => (.trap c s.ext.iword false, s)
      | .hold s => (.stall, s))

def execSwr (g : Guard) (n : BitVec 16) (a : RegF) (w : Bool) (s : State) : Result :=
  .next (s.isa g { ctl := !w, srcs := [⟨1, a, if w then .i64 else .int⟩] } fun u s =>
    if n == 8 && s.flagsPending u then (.stall, s)
    else match s.regWrite (s.regAg u) n.toNat (if w then s.src64 u a else s.src u a) with
      | .ok _ s => (.next, s)
      | .trap c => (.trap c s.ext.iword false, s)
      | .hold s => (.stall, s))

/-! TRET, FRESUME, HALT (R445, R446). -/

def execTret (g : Guard) (s : State) : Result :=
  .next (s.isa g { lvl := .g } fun u s => match s.trapReturn u with
    | none => (s.badOperand, s)
    | some s => (.left, s))

def execFresume (g : Guard) (s : State) : Result :=
  .next (s.isa g {} fun u s =>
    let f := (s.thread u).fr
    if !f.pend then (s.badOperand, s)
    else
      let s := (s.leave u).modThread u fun t => { t with fr := { t.fr with pend := false, en := true }, clause := [] }
      (.left, s.postAt u ⟨f.fpA, f.fpIdx⟩))

def execHalt (g : Guard) (s : State) : Result :=
  .next (s.isa g { lvl := .g } fun u s => let p := (s.thread u).after; (.left, s.stop u 0x12 p p))

/-! TLBINV (R447). -/

def execTlbinv (g : Guard) (a d : RegF) (m : Fin 4) (s : State) : Result :=
  let va : List Src := if m.val = 0 || m.val = 3 then [⟨1, a, .addr⟩] else []
  let id : List Src := if m.val < 2 then [⟨0, d, .int⟩] else []
  .next (s.isa g { lvl := if m.val = 3 then .h else .g, srcs := id ++ va } fun u s =>
    let t := s.thread u
    let addr := if m.val = 0 || m.val = 3 then (s.src64 u a).toNat else 0
    let asid := if m.val < 2 then s.src32 u d else 0
    let fn := (s.regAg u).fq
    if 2 ^ 20 ≤ asid || t.vaLim ≤ addr || (m.val < 2 && t.lvl != .h && fn != 0 && asid / 2048 + 1 != fn) then (s.badOperand, s)
    else if s.tlbBusy m.val fn asid addr then (.stall, s)
    else (.next, s.tlbDrop (tlbNamed m.val fn asid addr) (lineNamed m.val asid addr) (pagesNamed m.val fn asid addr)))

/-! TRACEMK (R446). -/

def execTracemk (g : Guard) (a : RegF) (w : Bool) (s : State) : Result :=
  .next (s.isa g { ctl := !w, srcs := [⟨1, a, .i64⟩] } fun u s =>
    let t := s.thread u
    let v := s.src64 u a
    let s := s.traceRec t.id.fn t.ltid 0 (tracePc t.pos 0 0) [] (bytesLE 8 v.toNat) (dieOf t.id.core) 8
    if w then (.trap 0x14 v true, s) else (.next, s))

end Sys2Proof.Machine
end

