-- ==== Sys2Proof/Machine/PowerEv.lean ====
section
/-! DEFINITION. Power, boot and the configuration record (spec/01 R18 to R35). -/

namespace Sys2Proof.Machine

/-! Signed objects (R28, R29). -/

/-- n bytes from an offset. -/
def bytesAt (b : List Byte) (o n : Nat) : List Byte := (b.drop o).take n

/-- A field of n bytes at an offset. -/
def fieldOf (b : List Byte) (o n : Nat) : Nat := ofBytesLE (bytesAt b o n)

/-- The checks of R29 on an object of a kind. -/
def State.accepted (s : State) (b : List Byte) (kind : Nat) : Bool :=
  let msg := bytesAt b 0 0x7D8 ++ b.drop 0x1600
  let ed := bytesAt b 0x18 32
  let ml := bytesAt b 0x38 1952
  let zero (l : List Byte) : Bool := l.all (· == 0)
  fieldOf b 0 4 == 0x49474C53 && fieldOf b 4 4 == kind && decide (1 ≤ kind) && decide (kind ≤ 7) &&
    fieldOf b 8 8 == (b.drop 0x1600).length && decide (0x1600 ≤ b.length) &&
    Config.edVerify ed msg (bytesAt b 0x7D8 64) && Config.mlVerify ml msg (bytesAt b 0x818 3309) &&
    (if kind ≤ 5 then Config.isRoot (Config.sha384 (ed ++ ml)) else ed == Config.idEd && ml == Config.idMl) &&
    decide (s.plat.power.svn.getD 0 kind ≤ fieldOf b 0x10 4) && zero (bytesAt b 0x14 4) && zero (bytesAt b 0x1505 251)

/-- The factory part that an image holds (R27). -/
def Factory.ofImage (img : List Byte) : Factory :=
  let mask (u n : Nat) : List Nat := (rangeFrom 0 4).map fun d => Config.factoryMask img d u % 2 ^ n
  let field (k : Nat) : Nat := Config.factoryMask img k 4
  ⟨Config.factorySeq img % 2 ^ 64, mask 0 40, mask 1 64, mask 2 64, mask 3 48,
    ⟨1500 + field 0 % 2501, field 1 % 2 ^ 11, field 2 % 2 ^ 16, field 3 % 2 ^ 16, field 4 % 2 ^ 16, field 5 % 2 ^ 16⟩⟩

/-- RECOVERY_IMAGE_WRITE (R30): in Recovery the host writes an image of kind 1 to 5 into a slot, if it is accepted. -/
def execRecoveryImageWrite (slotB : Bool) (img : List Byte) (s : State) : Result :=
  let kind := fieldOf img 4 4
  .next (if s.plat.power.st == .recovery && decide (1 ≤ kind) && decide (kind ≤ 5) && s.accepted img kind then
    s.onPower fun p => { p with
      slots := p.slots.put (2 * kind + slotB.toNat) (fieldOf img 0x10 4, some (Config.sha384 img))
      fact := if kind = 5 then p.fact.put slotB.toNat (Factory.ofImage img) else p.fact }
  else s)

/-! The site part (R27). -/

/-- The copy in force: the one with the higher sequence number. -/
def Power.site (p : Power) : Site := if p.siteA.seq < p.siteB.seq then p.siteB else p.siteA

/-- The repair map as it stands. -/
def State.spares (s : State) : Map Spare := s.plat.health.chans.map fun e => (e.1, e.2.sp)

/-- A save: the older copy is written with a higher sequence number. -/
def State.saveSite (s : State) : State :=
  let sp := s.spares
  s.onPower fun p =>
    let new : Site := ⟨(p.site.seq + 1) % 2 ^ 64, p.wear, p.train, sp⟩
    if p.siteA.seq < p.siteB.seq then { p with siteA := new } else { p with siteB := new }

/-- CONFIG_SAVE (R27): the save that waits longest runs. -/
def execConfigSave (s : State) : Result :=
  .next (if s.plat.power.saves = 0 then s else s.saveSite.onPower fun p => { p with saves := p.saves - 1 })

/-- WEAR_COUNTER_SAVE (R33): the counters are saved, after any save that is waiting. -/
def execWearCounterSave (s : State) : Result :=
  .next (if s.plat.power.st != .run then s
  else if s.plat.power.saves = 0 then s.saveSite else s.onPower fun p => { p with saves := p.saves + 1 })

/-! Wear counters (R33, R34). -/

/-- A counter of a unit goes up by one, saturating. -/
def Power.count (p : Power) (unit c : Nat) : Power :=
  { p with wear := p.wear.put (8 * unit + c) (Nat.min (p.wear.getD 0 (8 * unit + c) + 1) (2 ^ 32 - 1)) }

/-- The counter of an amplitude. -/
def ampBin (a : Int) : Nat := if a < 20 then 0 else if a < 40 then 1 else if a < 60 then 2 else 3

/-- A sample of one unit's temperature. -/
def Power.sample (p : Power) (unit : Nat) (t : Int) : Power :=
  let set (h : Therm) (p : Power) : Power := { p with therm := p.therm.put unit h }
  match p.therm.find unit with
  | none => set ⟨t, t, true⟩ p
  | some h =>
    if h.rise then
      if h.x < t then set { h with x := t } p
      else if 3 ≤ h.x - t then
        let a := h.x - h.e
        set ⟨h.x, t, false⟩ (if 10 ≤ a then p.count unit (ampBin a) else p)
      else p
    else if t < h.x then set { h with x := t } p
    else if 3 ≤ t - h.x then set ⟨h.x, t, true⟩ p
    else p

/-- TEMPERATURE_SAMPLE (R34): the temperatures of the thirteen units. -/
def execTemperatureSample (t : List Int) (s : State) : Result :=
  .next (if s.plat.power.st == .off then s
  else s.onPower fun p => ((t.take 13).zip (rangeFrom 0 13)).foldl (fun p e => p.sample e.2 e.1) p)

/-- POWER_SAMPLE (R25): above the cap only timing is throttled. -/
def execPowerSample (w : Nat) (s : State) : Result := .next (s.onPower fun p => { p with thr := decide (p.capw < w) })

/-- THERMAL_THROTTLE (R26): throttled whatever the cap. -/
def execThermalThrottle (s : State) : Result := .next (s.onPower fun p => { p with thr := true })

/-! The five states (R23). -/

/-- A machine whose volatile state is lost: what is to come, and what flash and the security block hold, stays. -/
def State.wiped (s : State) (st : PwSt) : State :=
  let w := s.plat.power
  { State.reset with
    ext := { s.ext with cur := none, iword := 0, inst := 0, pops := [], pushes := [], placed := [] }
    plat := { Plat.reset with power := { Power.reset with
      st := st, slots := w.slots, booted := w.booted, svn := w.svn, fact := w.fact, siteA := w.siteA, siteB := w.siteB, wear := w.wear } } }

/-- POWER_LOSS: Off; the cycle counters are lost. -/
def execPowerLoss (s : State) : Result := .next (s.wiped .off)

/-- POWER_APPLIED: Boot. -/
def execPowerApplied (s : State) : Result :=
  .next (if s.plat.power.st == .off then s.onPower fun p => { p with st := .boot } else s)

/-- COLD_RESET_REQUEST: Recovery and Shutdown are left for Boot, Shutdown once its saves have completed. -/
def execColdResetRequest (s : State) : Result :=
  .next (match s.plat.power.st with
    | .recovery => s.wiped .boot
    | .shutdown => if s.plat.power.saved then s.wiped .boot else s.onPower fun p => { p with coldReq := true }
    | _ => s)

/-- Queued repairs are discarded (R50). -/
def State.dropRepairs (s : State) : State := s.onHealth fun h => { h with chans := h.chans.map fun e => (e.1, { e.2 with queue := [] }) }

/-- SHUTDOWN_REQUEST: Shutdown is entered, queued repairs are discarded (R50), and the module leaves its view (R98). -/
def execShutdownRequest (s : State) : Result :=
  .next (if s.plat.power.st == .run then
    (s.onPower fun p => { p with st := .shutdown, saved := false, coldReq := false, hot := false }).dropRepairs.leaveView else s)

/-- Shutdown has saved and put the stacks into self-refresh; a waiting cold reset is taken. -/
def State.shutDown (s : State) : State :=
  let s := s.saveSite.dropRepairs
  if s.plat.power.coldReq then s.wiped .boot else s.onPower fun p => { p with saved := true, saves := 0 }

/-- No repair is active: the stacks may enter self-refresh (R50). -/
def State.noRepair (s : State) : Bool := !s.plat.health.chans.any fun e => e.2.active.isSome

/-- Shutdown can complete: no crew runs and no repair is active. -/
def State.drained (s : State) : Bool :=
  s.plat.power.st == .shutdown && !s.plat.power.saved && s.core.crews.isEmpty && s.noRepair

/-- SHUTDOWN_DRAINED. -/
def execShutdownDrained (s : State) : Result := .next (if s.drained then s.shutDown else s)

/-- THERMAL_SHUTDOWN (R26): Shutdown without draining; running tasks are abandoned and journalled as failed, with cause 0x0E (DESIGN CHOICE,
log 118), and the wear counters are saved. Self-refresh waits for an active repair (R50): SHUTDOWN_DRAINED completes it then. -/
def execThermalShutdown (s : State) : Result :=
  .next (if s.plat.power.st == .run || (s.plat.power.st == .shutdown && !s.plat.power.saved) then
    let s := s.leaveView
    let s := s.core.crews.foldl (fun (s : State) c => s.failCrew c.uid 0x0E) s
    let s := (s.onPower fun p => { p with st := .shutdown, hot := true }).dropRepairs
    if s.noRepair then s.shutDown else s.saveSite
  else s)

/-! Unit maps (R19, R22). -/

/-- The units of a mask that are bad. -/
def countBits (m : Nat) : Nat := (bitList m 64).length

/-- The image of a kind that boots: slot A unless it is refused (R30). -/
def Power.pick (p : Power) (kind : Nat) : Option (Nat × Option (List Byte)) :=
  let ok (k : Nat) : Option (Nat × Option (List Byte)) := match p.slots.find k with
    | some (v, h) => if p.svn.getD 0 kind ≤ v then some (v, h) else none
    | none => none
  (ok (2 * kind)).orElse fun _ => ok (2 * kind + 1)

/-- A mask less the units that failed. -/
def less (m bad n : Nat) : Nat := m &&& (2 ^ n - 1 - bad % 2 ^ n)

/-- A mask of Norano lanes with each port at 4, 2, 1 or no lanes (R22): of the lanes that passed the largest group from lane 0 on, so lanes above a
failed one stay off (DESIGN CHOICE, log 143). -/
def laneGroups (m : Nat) : Nat :=
  let g (v : Nat) : Nat := if v = 15 then 15 else if v % 4 = 3 then 3 else v % 2
  ((rangeFrom 0 12).map fun j => g (bitsOf m (4 * j + 3) (4 * j)) * 2 ^ (4 * j)).foldl (· + ·) 0

/-- The channels that the repair map keeps disabled on a die. -/
def offMask (m : Map Spare) (d : Nat) : Nat := ((m.filter fun e => e.2.off && e.1 / 64 == d).map fun e => 2 ^ (e.1 % 64)).foldl (· + ·) 0

/-- A die with the record's units, each ANDed with those that passed their self-test (R19). -/
def Die.withUnits (d : Die) (r : Factory) (k clu slc chn nor : Nat) : Die := { d with
  umclu := less (r.clu.getD k 0) clu 40
  umslc := less (r.slc.getD k 0) slc 64
  umchn := less (r.chn.getD k 0) chn 64
  umnor := laneGroups (less (r.nor.getD k 0) nor 48) }

/-! Training (R32). -/

/-- The die-to-die links, Norano ports and memory channels that are enabled. -/
def trainLinks (dies : List Die) : List Nat :=
  let d (k : Nat) : Die := dies.getD k Die.reset
  let here (k : Nat) : Bool := k = 4 || (d k).drst != 15
  ((rangeFrom 0 10).filter fun k => here (linkEnds k).1 && here (linkEnds k).2) ++
    (((rangeFrom 0 48).filter fun p => here (p / 12) && bitsOf (d (p / 12)).umnor (4 * (p % 12) + 3) (4 * (p % 12)) != 0).map (10 + ·)) ++
    (((rangeFrom 0 256).filter fun c => here (c / 64) && bitOf (d (c / 64)).umchn (c % 64)).map (58 + ·))

/-- The links that are trained in full: their stored result for the bin is for other ends, or there is none. -/
def untrained (train : Map LinkEnds) (ends : List LinkEnds) (bin : Nat) (l : List Nat) : List Nat :=
  l.filter fun k => train.find (4 * k + bin % 4) != some (ends.getD k ⟨0, 0, 0⟩)

/-- Full trainings leave their results, which the next save keeps. -/
def putTrain (train : Map LinkEnds) (ends : List LinkEnds) (bin : Nat) (l : List Nat) : Map LinkEnds :=
  l.foldl (fun t k => t.put (4 * k + bin % 4) (ends.getD k ⟨0, 0, 0⟩)) train

/-! Clusters and slices (R24). -/

/-- A cluster may be power-gated: no crew or half-bound task names it, its scratchpad units are vacated, and its L1s hold no store that is
still to be written back to its home. -/
def State.vacated (s : State) (k : Nat) : Bool :=
  !s.core.crews.any (fun c => clusterOf c.core == k && s.banked c) && !(s.task.slots.any fun e => e.2.binds.any fun b => b.cluster == k) &&
    ((rangeFrom (5 * k) 4).all fun c => (s.coreAt c).units.isEmpty) &&
    s.mem.doms.all fun d => clusterOf d.key.core != k || d.stores.isEmpty

/-- CLUSTER_POWER_GATE: scratchpad contents are discarded; dirty L1 data has gone to its homes. -/
def execClusterPowerGate (k : Nat) (s : State) : Result :=
  .next (if k < 160 && s.vacated k then
    let s := s.onMem fun m => { m with
      scr := m.scr.filter fun e => e.1 / 2 ^ 19 / 5 != k
      scrPoi := m.scrPoi.filter fun w => w / 2 ^ 17 / 5 != k }
    s.modCluster k fun c => { c with power := 2 }
  else s)

/-- CLUSTER_CLOCK_GATE: everything is kept. -/
def execClusterClockGate (k : Nat) (s : State) : Result :=
  .next (if k < 160 then s.modCluster k fun c => { c with power := if c.power = 0 then 1 else c.power } else s)

/-- CLUSTER_WAKE. -/
def execClusterWake (k : Nat) (s : State) : Result :=
  .next (if k < 160 then s.modCluster k fun c => { c with power := 0 } else s)

/-- L2_SLICE_POWER_DOWN: its dirty lines are written back first. -/
def execL2SlicePowerDown (die slice : Nat) (s : State) : Result :=
  let here (l : L2Line) : Bool := l.die == die && l.slice == slice
  .next (if s.dropHeld here then s.dropLines here
  else (s.dropLines here).onPower fun p => { p with slcOff := setIns p.slcOff (64 * die + slice) })

end Sys2Proof.Machine
end

