-- ==== Sys2Proof/Machine/RepairEv.lean ====
section
/-! DEFINITION. The memory controllers, in-service repair and page retirement (spec/02 R42 to R58). -/

namespace Sys2Proof.Machine

/-- The address of a host request; one of an application core comes with bit 52 set. -/
def hostReqPa : HostReq → Nat
  | .rd a => a % 2 ^ 52
  | .inv a => a % 2 ^ 52
  | .release a => a % 2 ^ 52
  | .wr a _ _ _ => a % 2 ^ 52

/-- Cycles of a channel's die since a time. -/
def State.chanSince (s : State) (ch t : Nat) : Nat := (s.chanNow ch + 2 ^ 64 - t) % 2 ^ 64

/-! Requests (R46, R47). -/

/-- Two requests are the same. A TSV-lane repair is that of its channel and SID. -/
def Repair.same (a b : Repair) : Bool := a.kind == b.kind && a.sid == b.sid && (a.kind == 3 || (a.bank == b.bank && (a.kind == 2 || a.row == b.row)))

/-- A repair is requested: dropped as a duplicate or with sixteen queued. -/
def State.askRepair (s : State) (ch : Nat) (r : Repair) : State :=
  let c := s.chanAt ch
  let dup := c.queue.any r.same || match c.active with
    | some a => r.same a.rep
    | none => false
  if dup || 16 ≤ c.queue.length then s else s.modChan ch fun c => { c with queue := c.queue ++ [r] }

/-- A row repair is requested; with four distinct rows of the bank in 2^30 cycles, a bank repair in place of the queued ones. -/
def State.askRow (s : State) (ch : Nat) (p : Place) : State :=
  let e : Evid := ⟨ch, p.sid, p.bank, p.row, 0, s.chanNow ch⟩
  let s := s.onHealth fun h => { h with reqs := e :: h.reqs.filter fun q => q.ch != ch || decide (s.chanSince ch q.at_ ≤ 2 ^ 30) }
  let rows := (s.plat.health.reqs.filter fun q => q.ch == ch && q.sid == p.sid && q.bank == p.bank).map (·.row)
  let s := s.askRepair ch ⟨1, p.sid, p.bank, p.row⟩
  if rows.eraseDups.length < 4 then s
  else
    let s := s.modChan ch fun c => { c with queue := c.queue.filter fun r => !(r.kind == 1 && r.sid == p.sid && r.bank == p.bank) }
    s.askRepair ch ⟨2, p.sid, p.bank, 0⟩

/-- A symbol position of a channel and SID has failed: it is recorded as known-bad if a record is free, and a TSV-lane repair requested (R46). -/
def State.badSymbol (s : State) (ch sid k : Nat) : State :=
  let known := (s.chanAt ch).sp.bad.getD sid []
  let s := if known.contains k || 2 ≤ known.length then s
    else s.modChan ch fun c => { c with sp := { c.sp with bad := modNth (fun l => l ++ [k]) c.sp.bad sid } }
  s.askRepair ch ⟨3, sid, 0, k⟩

/-- A position is corrected in a read: the first two rows of R46. -/
def State.corrected (s : State) (ch : Nat) (p : Place) (k : Nat) : State :=
  let e : Evid := ⟨ch, p.sid, p.bank, p.row, k, s.chanNow ch⟩
  let s := s.onHealth fun h => { h with ces := e :: h.ces.filter fun q => q.ch != ch || decide (s.chanSince ch q.at_ ≤ 2 ^ 24) }
  let mine := s.plat.health.ces.filter fun q => q.ch == ch && q.sid == p.sid && q.pos == k
  let known := (s.chanAt ch).sp.bad.getD p.sid []
  let s := if decide ((mine.map fun q => (q.bank, q.row)).eraseDups.length < 8) then s else s.badSymbol ch p.sid k
  let inRow := mine.filter fun q => q.bank == p.bank && q.row == p.row
  if !known.contains k && 3 ≤ inRow.length then s.askRow ch p else s

/-! Outcomes of a read (R43 to R45). -/

/-- Saturating add to a 32-bit count. -/
def sat32 (n : Nat) : Nat := Nat.min n (2 ^ 32 - 1)

/-! The symbol code (R42): a shortened Reed–Solomon code of 68 symbols over GF(2^8), field polynomial x^8 + x^4 + x^3 + x^2 + 1. -/

/-- A field element times α = x. -/
def gfTwice (a : Nat) : Nat := if a < 128 then 2 * a else (2 * a) ^^^ 0x11D

/-- The product of field elements, by the low n bits of b. -/
def gfMulGo : Nat → Nat → Nat → Nat
  | 0, _, _ => 0
  | n + 1, a, b => (if b % 2 = 1 then a else 0) ^^^ gfMulGo n (gfTwice a) (b / 2)

def gfMul (a b : Nat) : Nat := gfMulGo 8 a b

/-- α^n. -/
def gfPow : Nat → Nat
  | 0 => 1
  | n + 1 => gfTwice (gfPow n)

/-- The coefficients of the generator polynomial (x − α⁰)(x − α¹)(x − α²)(x − α³) below x⁴, from x³ down. -/
def generator : List Nat :=
  (((rangeFrom 0 4).map gfPow).foldl (fun p r => List.zipWith (· ^^^ ·) (p ++ [0]) (0 :: p.map (gfMul r))) [1]).tail

/-- One step of the division by the generator. Symbol 0 is the coefficient of the highest power, symbol 67 that of x⁰ (DESIGN CHOICE, log 147). -/
def checkStep (r : List Nat) (d : Nat) : List Nat :=
  let q := r.headD 0 ^^^ d
  List.zipWith (· ^^^ ·) (r.tail ++ [0]) (generator.map (gfMul q))

/-- The check symbols 64 to 67 of the data symbols 0 to 63. -/
def checkSymbols (data : List Byte) : List Nat := (data.map BitVec.toNat).foldl checkStep [0, 0, 0, 0]

/-- The codeword of a block: its data bytes and check symbols. -/
def codeword (data : List Byte) : List Nat := data.map BitVec.toNat ++ checkSymbols data

/-- The four syndromes of a word of 68 symbols: its values at the roots of the generator. -/
def syndromes (w : List Nat) : List Nat :=
  (rangeFrom 0 4).map fun j => w.foldl (fun a c => gfMul a (gfPow j) ^^^ c) 0

/-- The codeword that memory stores for a block. -/
def MemSys.stored (m : MemSys) (b : Nat) : List Nat := codeword ((rangeFrom (64 * b) 64).map fun a => m.bytes.getD memDefault a)

/-- The word that the decoder receives: each failing data path changes its symbol by an error pattern. -/
def received (w : List Nat) (err : List (Nat × Byte)) : List Nat :=
  err.foldl (fun w e => modNth (· ^^^ e.2.toNat) w e.1) w

/-- The positions where two words differ. -/
def differ (a b : List Nat) : List Nat := ((a.zip b).zip (rangeFrom 0 a.length)).filterMap fun e => if e.1.1 = e.1.2 then none else some e.2

/-- The bytes of a block that memory gives are not all held dirty in L2. -/
def State.fromMemory (s : State) (b : Nat) : Bool :=
  match s.mem.dirtyLine (b / 2) with
  | some l => (rangeFrom (64 * (b % 2)) 64).any fun o => (l.dirty.find o).isNone
  | none => true

/-- A read is uncorrectable: the block is delivered, and stays, poisoned. Where L2 holds all of its bytes newer, the mark stands in memory under
them (`deep`) until the write-back stores a fresh codeword. -/
def State.uncorrectable (s : State) (b : Nat) : State :=
  let ch := chanOf (64 * b)
  let s := s.modChan ch fun c => { c with ue := sat32 (c.ue + 1) }
  let s := s.onHealth fun h => { h with ues := b :: h.ues }
  (s.onMem fun m => if s.fromMemory b then { m with poison := setIns m.poison b } else { m with deep := setIns m.deep b }).askRow ch (placeOf b)

/-- A block gives data that differ from what was written. -/
def State.miscorrect (s : State) (b : Nat) : State :=
  let (bs, s) := freeBytes 64 s
  let old := (rangeFrom (64 * b) 64).map (s.mem.bytes.getD memDefault ·)
  let bs := if bs = old then modNth (· ^^^ 1) bs 0 else bs
  s.onMem fun m => { m.store (64 * b) bs with hist := (rangeFrom (64 * b) 64).foldl Map.del m.hist }

/-- A controller reads a block and receives its codeword with errors (R43). -/
def State.decodeBlock (s : State) (b : Nat) (err : List (Nat × Byte)) : State :=
  let ch := chanOf (64 * b)
  let w := s.mem.stored b
  let bad := if err.isEmpty then [] else differ w (received w err)
  let fix (s : State) : State := bad.foldl (fun (s : State) k => s.corrected ch (placeOf b) k) (s.modChan ch fun c => { c with ce := sat32 (c.ce + 1) })
  if bad.isEmpty then s
  else
    let known := (s.chanAt ch).sp.bad.getD (placeOf b).sid []
    let t := (bad.filter fun k => !known.contains k).length
    if 2 * t + known.length ≤ 4 then fix s
    else
      let (ue, s) := chooseBool s
      if ue then s.uncorrectable b else (fix s).miscorrect b

/-- MEMORY_REQUEST: a controller serves a read of a block, or a write of bytes within one (R44). A write to what a repair stalls takes effect
after the copy (R48). The reads of a repair's own copy are such reads too. -/
def execMemoryRequest (pa : Nat) (wr : Option (List Byte)) (err : List (Nat × Byte)) (s : State) : Result :=
  let b := pa / 64
  .next (if !s.live || !s.frameOk pa then s
  else match wr with
    | some bs => s.physWrite Wr.base pa (bs.take (64 - pa % 64))
    | none => if !s.fromMemory b then s
      else if s.mem.poison.contains b then s.uncorrectable b else s.decodeBlock b err)

/-- PATROL_SCRUB (R45): of every block, what L2 holds newer or not. -/
def execPatrolScrub (pa : Nat) (err : List (Nat × Byte)) (s : State) : Result :=
  let b := pa / 64
  .next (if s.live && s.frameOk pa && !s.mem.poison.contains b && !s.mem.deep.contains b then s.decodeBlock b err else s)

/-! Stage-2 entries of frames (R55, R56, R225). -/

/-- A stage-2 leaf in use: its input address, frame address, size, and the addresses of its entries. -/
structure S2Use where
  ipa  : Nat
  pa   : Nat
  size : Nat
  ents : List Nat
deriving DecidableEq, Repr

/-- The leaves below an entry of a table at a level; fuel counts levels left. -/
def s2Uses (m : MemSys) : Nat → Nat → Nat → Nat → List S2Use
  | 0, _, _, _ => []
  | fuel + 1, lvl, table, ipa =>
    ((rangeFrom 0 512).map fun ix =>
      let at_ := table + 8 * ix
      let here := ipa + ix * 2 ^ (39 - 9 * lvl)
      match m.entry at_ with
      | none => []
      | some e =>
        let frame := bitsOf e 51 12 * 2 ^ 12
        if !bitOf e 0 then []
        else if lvl = 3 then
          if !bitOf e 1 then [⟨here, frame, 2 ^ 12, [at_]⟩]
          else if ix % 16 = 0 then [⟨here, frame, 2 ^ 16, (rangeFrom 0 16).map fun k => at_ + 8 * k⟩]
          else []
        else if bitOf e 1 then (if lvl = 0 then [] else [⟨here, frame, leafSize lvl true, [at_]⟩])
        else s2Uses m fuel (lvl + 1) frame here).flatten

/-- The leaves of a function's stage 2. -/
def State.s2Leaves (s : State) (fn : Nat) : List S2Use :=
  let f := (s.fnAt fn).mem
  if f.s2En then s2Uses s.mem 4 0 f.s2root 0 else []

/-- The frames of a leaf that are named. -/
def S2Use.frames (u : S2Use) (p : Nat → Bool) : List Nat := (rangeFrom (u.pa / 4096) (u.size / 4096)).filter p

/-! The retirement log (R57). -/

/-- An entry of a retirement log, or OVF. -/
def State.rlEntry (s : State) (fn ipa cause : Nat) (lost : Bool) : State :=
  let f := s.fnAt fn
  if !f.rl.en || 256 ≤ (f.rlHead + 2 ^ 32 - f.rlTail) % 2 ^ 32 then s.modFn fn fun f => { f with rlOvf := true }
  else
    let bs := bytesLE 8 ipa ++ bytesLE 4 f.rlHead ++ bytesLE 1 cause ++ bytesLE 1 lost.toNat ++ bytesLE 2 0
    (s.ringRecord ⟨0, []⟩ f.rl (16 * (f.rlHead % 256)) bs 8 4).modFn fn fun f => { f with rlHead := (f.rlHead + 1) % 2 ^ 32 }

/-- Entries for every use of named frames by a function. -/
def State.rlNotice (s : State) (p : Nat → Bool) (cause : Nat) (lost : Bool) (fn : Nat) : State :=
  (s.s2Leaves fn).foldl (fun (s : State) u =>
    (u.frames p).foldl (fun (s : State) f => s.rlEntry fn (u.ipa + (4096 * f - u.pa)) cause lost) s) s

/-- A larger page that contains a named frame is retired whole (R55): the frames that leave a function's stage 2. -/
def State.wholeLeaves (s : State) (p : Nat → Bool) (fn f : Nat) : Bool :=
  p f || (s.s2Leaves fn).any fun u => decide (u.pa ≤ 4096 * f) && decide (4096 * f < u.pa + u.size) && !(u.frames p).isEmpty

/-- The functions with any state. -/
def State.fnKeys (s : State) : List Nat := s.task.fns.map (·.1)

/-- A ring whose frames are to be retired loses EN (R450). -/
def Ring.retire (r : Ring) (p : Nat → Bool) : Ring :=
  if r.en && r.frames.any fun a => p (a / 4096) then { r with en := false, frames := [] } else r

def Fn.retireRings (f : Fn) (p : Nat → Bool) : Fn := { f with
  rl := f.rl.retire p
  jnl := { f.jnl with ring := f.jnl.ring.retire p }
  mem := { f.mem with pfq := f.mem.pfq.retire p }
  trace := { f.trace with ring := f.trace.ring.retire p } }

/-- The retired form of a stage-2 entry: V = 0, RET = 1. -/
def retiredForm (e : Nat) : Nat := setBits (setBits e 0 0 0) 11 11 1

/-- The entries of a function that map named frames are rewritten, and the translations invalidated (R56). -/
def State.retireIn (s : State) (p : Nat → Bool) (fn : Nat) : State :=
  let hit := (s.s2Leaves fn).filter fun u => !(u.frames p).isEmpty
  let inHit (pa : Nat) : Bool := hit.any fun u => decide (u.pa ≤ pa) && decide (pa < u.pa + u.size)
  let s := hit.foldl (fun (s : State) u => u.ents.foldl (fun (s : State) a =>
    s.physWrite Wr.base a (bytesLE 8 (retiredForm (ofBytesLE (s.mem.read a 8))))) s) s
  s.tlbDrop (fun e => e.fn == fn && hit.any fun u => decide (e.pa < u.pa + u.size) && decide (u.pa < e.pa + e.size))
    fun l => l.space != .phys && (p (l.pline / 32) || inHit (128 * l.pline))

/-- The management core retires frames: rings cleared, entries logged, stage 2 rewritten. -/
def State.retire (s : State) (p : Nat → Bool) (cause : Nat) (lost : Bool) : State :=
  let fns := s.fnKeys
  let all := fns.map fun fn => (fn, s.wholeLeaves p fn)
  let s := all.foldl (fun (s : State) e => s.modFn e.1 fun f => f.retireRings e.2) s
  let s := all.foldl (fun (s : State) e => s.rlNotice e.2 cause lost e.1) s
  fns.foldl (fun (s : State) fn => s.retireIn p fn) s

/-- A block of the frame has given an uncorrectable read twice (R55). -/
def State.twiceBad (s : State) (frame : Nat) : Bool :=
  let l := s.plat.health.ues.filter fun b => b / 64 == frame
  decide (l.eraseDups.length < l.length)

/-- PAGE_RETIRE: cause 1 where the evidence stands, cause 4 at the request of H software. -/
def execPageRetire (frame cause : Nat) (s : State) : Result :=
  .next (if s.frameOk (4096 * frame) && (cause == 4 || (cause == 1 && s.twiceBad frame)) then
    (s.retire (· == frame) cause false).onHealth fun h => { h with ues := h.ues.filter fun b => b / 64 != frame }
  else s)

/-! Losing a channel (R58). -/

/-- A channel starts to drain. -/
def State.startDrain (s : State) (ch : Nat) : State :=
  if s.chanOn ch && (s.chanAt ch).chst == 0 then
    let now := s.chanNow ch
    s.modChan ch fun c => { c with chst := 1, drain := now }
  else s

/-- CHANNEL_DISABLE_START: at the request of H software, or by REPAIR_START below. -/
def execChannelDisableStart (ch : Nat) (s : State) : Result := .next (if ch < 256 then s.startDrain ch else s)

/-- The channels that drain. -/
def State.draining (s : State) : List Nat := (s.plat.health.chans.filter fun e => e.2.chst == 1).map (·.1)

/-- A channel is lost. -/
def State.loseChannel (s : State) (ch : Nat) : State :=
  let s := s.retire (fun f => f < 2 ^ 27 && chanOf (4096 * f) == ch) 3 true
  let s := s.modDie (ch / 64) fun d => { d with umchn := setBits d.umchn (ch % 64) (ch % 64) 0 }
  (s.modChan ch fun c => { c with chst := 2, sp := { c.sp with off := true } }).saveSite

/-- CHANNEL_DRAIN_END. -/
def execChannelDrainEnd (s : State) : Result :=
  .next (match s.draining with
    | [] => s
    | c :: cs => let (ch, s) := chooseFrom (c :: cs) c s; s.loseChannel ch)

/-! Repairs (R47 to R54). -/

/-- A spare of a repair's kind is left (R51). -/
def Spare.has (sp : Spare) (r : Repair) : Bool :=
  match r.kind with
  | 1 => decide (0 < sp.rows.getD r.sid 0)
  | 2 => decide (0 < sp.banks)
  | _ => decide (0 < sp.lanes)

/-- A spare is used; a new lane frees the record of the position it carries (R49). A second record then stands first, as POS0 (DESIGN CHOICE, log
149). -/
def Spare.use (sp : Spare) (r : Repair) : Spare :=
  match r.kind with
  | 1 => { sp with rows := modNth (· - 1) sp.rows r.sid }
  | 2 => { sp with banks := sp.banks - 1 }
  | _ => { sp with lanes := sp.lanes - 1, bad := modNth (fun l => l.filter (· != r.row)) sp.bad r.sid }

/-- The fields of R54's TVAL. -/
def Repair.tval (r : Repair) (ch : Nat) : Nat :=
  r.kind * 2 ^ 14 + (if r.kind == 3 then 0 else r.sid) * 2 ^ 12 + ch / 32 * 2 ^ 8 + ch % 32

/-- The frames of a stack. -/
def stackFrames (stk : Nat) : List Nat := rangeFrom (stk * 2 ^ 24) (2 ^ 24)

/-- No spare is left (R54): frames at risk, the trap to H, notices; a channel without lanes and with two recorded positions is lost
(R58). -/
def State.exhausted (s : State) (ch : Nat) (r : Repair) : State :=
  let risk := (stackFrames (ch / 32)).filter fun f => chanOf (4096 * f) == ch && (rangeFrom (64 * f) 64).any (r.covers ch)
  let s := s.onHealth fun h => { h with atRisk := setUnion h.atRisk risk }
  let s := s.emit (.engine 0x10 (r.tval ch))
  let s := s.fnKeys.foldl (fun (s : State) fn => s.rlNotice risk.contains 2 false fn) s
  if r.kind == 3 && (s.chanAt ch).sp.bad.any fun l => 2 ≤ l.length then s.startDrain ch else s

/-- The channels whose engine may take a request: not in self-refresh, and not in Shutdown (R50). -/
def State.repairable (s : State) : List Nat :=
  if s.plat.power.st == .shutdown then [] else (s.plat.health.chans.filter fun e => e.2.active.isNone && !e.2.queue.isEmpty && !offMem s (e.1 / 64) && s.chanOn e.1).map (·.1)

/-- A channel's engine takes its oldest request. -/
def State.startRepair (s : State) (ch : Nat) : State :=
  match (s.chanAt ch).queue with
  | [] => s
  | r :: rs =>
    let now := s.chanNow ch
    let s := s.modChan ch fun c => { c with queue := rs }
    if (s.chanAt ch).sp.has r then s.modChan ch fun c => { c with active := some ⟨r, now, if r.kind = 1 then r.row else 0, now⟩ } else s.exhausted ch r

/-- REPAIR_START. -/
def execRepairStart (s : State) : Result :=
  .next (match s.repairable with
    | [] => s
    | c :: cs => let (ch, s) := chooseFrom (c :: cs) c s; s.startRepair ch)

/-- The record that trace gives of a repair (R53, R333). -/
def State.traceRepair (s : State) (ch : Nat) (r : Repair) (start : Nat) : State :=
  let old := bytesLE 2 (r.tval ch) ++ List.replicate 6 0 ++ bytesLE 6 start ++ bytesLE 1 (ch / 64)
  s.fnKeys.foldl (fun (s : State) fn => s.traceRec fn 0 0 0 old [] (ch / 64) 7) s

/-- What is at its home, or at HD, and meets a stall is noted (R53). -/
def State.noteStalls (s : State) : State :=
  (s.core.reqs.filter fun r => r.st == .home && r.toHome && !s.mem.inL2 r.pa).foldl
    (fun (s : State) r => s.noteStall (r.id, 802, r.pa) r.pa r.size) s

/-- A row has been copied, or a lane switched: the cycles of every stalled access are counted (R53), and the stores that waited take effect in their
order (R48). -/
def State.endCopy (s : State) (ch : Nat) : State :=
  let c := (s.noteStalls).chanAt ch
  let n := (c.stuck.map fun e => s.chanSince ch e.2).foldl (· + ·) 0 + (c.waits.map fun w => s.chanSince ch w.at_).foldl (· + ·) 0
  let s := s.modChan ch fun c => { c with stallc := sat32 (c.stallc + n), waits := [], stuck := [] }
  c.waits.foldl (fun (s : State) w => s.physPoison w.w w.pa w.bs w.poison) s

/-- A repair is done: the spare, the count, the map, the record. -/
def State.endRepair (s : State) (ch : Nat) (a : Active) : State :=
  let s := s.modChan ch fun c => { c with active := none, sp := c.sp.use a.rep, done := Nat.min (c.done + 1) 0xFFFF }
  let s := s.onHealth fun h => { h with ues := h.ues.filter fun b => a.rep.kind == 3 || !a.rep.covers ch b }
  s.saveSite.traceRepair ch a.rep a.start

/-- A bank is copied row by row, from row 0 upward (DESIGN CHOICE, log 148): the rows after the present one that are copied in this step (all but a
free number), or the end. -/
def State.copyOn (s : State) (ch : Nat) (a : Active) : State :=
  let s := s.endCopy ch
  if a.rep.kind != 2 then s.endRepair ch a
  else
    let (n, s) := choose (8192 - a.row) s
    let row := a.row + n + 1
    let now := s.chanNow ch
    if 8192 ≤ row then s.endRepair ch a else s.modChan ch fun c => { c with active := some { a with row := row, since := now } }

/-- The channels with a repair active. -/
def State.repairing (s : State) : List (Nat × Active) := s.plat.health.chans.filterMap fun e => e.2.active.map fun a => (e.1, a)

/-- REPAIR_COMPLETE: the copy of a row, or the switch of a lane, is over; the repair too after its last row. -/
def execRepairComplete (s : State) : Result :=
  .next (match s.repairing with
    | [] => s
    | c :: cs => let (x, s) := chooseFrom (c :: cs) c s; s.copyOn x.1 x.2)

end Sys2Proof.Machine
end

