-- ==== Sys2Proof/Machine/HostEv.lean ====
section
/-! DEFINITION. The host side (spec/05 R107 to R127): host requests to device memory, back-invalidate snoops, CXL.cache, ports. -/

namespace Sys2Proof.Machine

/-! Requests of the host (R111, R113). -/

def reqLine (r : HostReq) : Nat := hostReqPa r / 128

/-- A request of an application core, which reaches device memory through HD as CXL.mem does, by no port (R139). The accesses of those cores are
coherent with the host's: the filter knows one owner for all of them (DESIGN CHOICE, log 146). -/
def hostReqApp : HostReq → Bool
  | .rd a => 2 ^ 52 ≤ a
  | .inv a => 2 ^ 52 ≤ a
  | .release a => 2 ^ 52 ≤ a
  | .wr a _ _ _ => 2 ^ 52 ≤ a

/-- A grant of E, or its renewal (R110). -/
def State.grantE (s : State) (line : Nat) : State :=
  let s0 := s
  let had := (s.plat.host.own.find line).isSome
  let s := s.onHost fun h => { h with own := h.own.put line h.grants, grants := h.grants + 1 }
  if had then s else (s0.traceNames s line 4 none).moved line

/-- A line leaves E, with its names recorded. -/
def State.leaveE (s : State) (line : Nat) : State := s.traceNames (s.toI line) line 4 none

/-- The internal snoop of a line (R111): copies under host-coherent names leave, and watches fire (R126). -/
def State.internalSnoop (s : State) (line : Nat) : State := (s.dropLines fun l => l.pline == line && l.attr.cl == 3).fire line

/-- A dirty host-coherent copy is written back and kept clean. -/
def State.cleanLine (s : State) (line : Nat) : State :=
  s.onMem fun m =>
    let hit (l : L2Line) : Bool := l.pline == line && l.attr.cl == 3 && l.wr
    { (m.l2.filter hit).foldl MemSys.writeBack m with l2 := m.l2.map fun l => if hit l then { l with wr := false, dirty := [] } else l }

/-- The 64 bytes that the host reads: memory's, or what a name that is not host-coherent holds newer (R113). -/
def State.hostBytes (s : State) (pa : Nat) : List Byte × State :=
  let a := pa / 64 * 64
  let old := (rangeFrom a 64).map fun k => s.mem.bytes.getD memDefault k
  let new := s.mem.read a 64
  if old = new then (new, s)
  else let (b, s) := chooseBool s; (if b then old else new, s)

/-- Each enabled byte of a host write. -/
def writeEach (w : Wr) (poison : Bool) (s : State) : List (Nat × Option Byte) → State
  | [] => s
  | (_, none) :: l => writeEach w poison s l
  | (a, some b) :: l => writeEach w poison (s.physWrite w a [b] poison) l

/-- A host write of the enabled bytes of a half-line, a system-scope release of the writes before it (R125). -/
def State.hostWrite (s : State) (pa : Nat) (b : List (Option Byte)) (poison : Bool) : State :=
  let a := pa / 64 * 64
  let (id, s) := s.release ⟨s.mem.seq, []⟩ .sys hostCore
  let w : Wr := { Wr.base with pubs := [id], strong := some .sys, core := hostCore, acc := (a, 64) }
  let b := b.take 64
  if b.length = 64 && b.all Option.isSome then s.physWrite w a (b.filterMap fun o => o) poison
  else if poison && b.all Option.isNone then s.onMem fun m => m.markPoison a 64 true
  else writeEach w poison s ((rangeFrom a b.length).zip b)

/-- Two lines share a set of the filter of a stack: 262,144 sets of 16 entries (R110). -/
def sameSet (a b : Nat) : Bool := stackOfLine a == stackOfLine b && Config.filterSet a % 2 ^ 18 == Config.filterSet b % 2 ^ 18

/-- The line that a grant evicts: the least recently granted entry of a full set (R110). -/
def State.victim (s : State) (line : Nat) : Option Nat :=
  let set := s.plat.host.own.filter fun e => sameSet line e.1
  if set.length < 16 then none
  else (set.find? fun e => set.all fun f => decide (e.2 ≤ f.2)).map (·.1)

/-- A request waits behind the snoop of a line. -/
def State.holdBehind (s : State) (line : Nat) (r : HostReq) : State :=
  s.onHost fun h => { h with snoops := h.snoops.map fun e => if e.1 == line then (e.1, { e.2 with held := e.2.held ++ [r] }) else e }

/-- A grant of E for a request: where the set is full its oldest line is snooped first. -/
def State.grantFor (s : State) (r : HostReq) (f : State → State) : State :=
  if (s.plat.host.own.find (reqLine r)).isSome then f (s.grantE (reqLine r))
  else
    match s.victim (reqLine r) with
    | none => f (s.grantE (reqLine r))
    | some l => (s.snoopLine l).holdBehind l r

/-- The frame of a request exists and its die is not lost (R109, R75). -/
def State.hostFrame (s : State) (pa : Nat) : Bool := s.frameOk pa && (s.pkg.die (bitsOf pa 38 37)).drst != 8

/-- A request is carried out (R111). Completions: 0 Cmp, 1 Cmp-S, 2 Cmp-E. -/
def State.hostServe (s : State) (r : HostReq) : State :=
  let pa := hostReqPa r
  let line := reqLine r
  if !s.hostFrame pa then s.emit (.cmp pa 0 [] true)
  else
    let poison (s : State) : Bool := s.mem.poisoned (pa / 64 * 64) 64
    match r with
    | .rd _ =>
      if s.plat.host.ssEn && s.plat.host.shared.contains (pa / 4096) then
        let s := s.cleanLine line
        let (b, s) := s.hostBytes pa
        s.emit (.cmp pa 1 b (poison s))
      else s.grantFor r fun s =>
        let s := s.internalSnoop line
        let (b, s) := s.hostBytes pa
        s.emit (.cmp pa 2 b (poison s))
    | .inv _ => s.grantFor r fun s => (s.internalSnoop line).emit (.cmp pa 2 [] false)
    | .release _ => ((s.internalSnoop line).leaveE line).emit (.cmp pa 0 [] false)
    | .wr _ b grant p =>
      let put (s : State) : State := (s.internalSnoop line).hostWrite pa b p
      if grant then s.grantFor r fun s => (put s).emit (.cmp pa 2 [] false)
      else ((put s).leaveE line).emit (.cmp pa 0 [] false)

/-- The request is dirty data that the host gives back for a snoop (R112). -/
def reqFlush : HostReq → Bool
  | .wr _ _ grant _ => !grant
  | _ => false

/-- A host request for a device address reaches the device (R108): the port that its HPA selects is up as CXL, and its decoder is
programmed. -/
def HostSys.reaches (h : HostSys) (r : HostReq) : Bool :=
  let p := h.port (h.wayOf (hostReqPa r))
  hostReqApp r || (p.state == 2 && p.ways != 0)

/-- A host request meets a row or channel under repair (R47, R112), unless a slice holds the line. -/
def State.wouldStall (s : State) (pa : Nat) : Bool := s.frameOk pa && s.blockStalls (pa / 64) && !s.mem.inL2 pa

/-- A host request is held at HD: its die is offline (R75), or the link there is down (R61, R62). -/
def State.hdHolds (s : State) (pa : Nat) : Bool :=
  let d := bitsOf pa 38 37
  decide (pa < 2 ^ 39) && (s.pkg.die d).drst != 8 && (offHome s d || s.linkHeld d 4)

/-- A host request (R113, R75): dirty data that come back for a snoop are taken at once; else it is held at HD, or while a snoop of its line is
outstanding, else served. -/
def State.hostReq (s : State) (r : HostReq) : State :=
  let h := s.plat.host
  let s := s.onHost fun h => { h with heldReq := h.heldReq.erase r }
  let keep (s : State) : State := s.onHost fun h => { h with heldReq := h.heldReq ++ [r] }
  if !s.live || !h.reaches r then s
  else if s.hdHolds (hostReqPa r) then keep s
  else if (h.snoops.find (reqLine r)).isSome && reqFlush r && s.hostFrame (hostReqPa r) then match r with
    | .wr _ b _ p => s.hostWrite (hostReqPa r) b p
    | _ => s
  else if (h.snoops.find (reqLine r)).isSome then s.holdBehind (reqLine r) r
  else if s.wouldStall (hostReqPa r) then keep (s.noteStall (0, 800, hostReqPa r) (hostReqPa r) 64)
  else s.hostServe r

def execHostMemrd (pa : Nat) (s : State) : Result := .next (s.hostReq (.rd pa))
def execHostMeminv (pa : Nat) (s : State) : Result := .next (s.hostReq (.inv pa))
def execHostMeminvRelease (pa : Nat) (s : State) : Result := .next (s.hostReq (.release pa))
def execHostMemwr (pa : Nat) (b : List (Option Byte)) (grant poison : Bool) (s : State) : Result :=
  .next (s.hostReq (.wr pa b grant poison))

/-- HOST_MEMSPECRD: no action. -/
def execHostMemspecrd (s : State) : Result := .next s

/-- The access that caused a snoop of a line is still to be served (R113): its thread waits at its instruction, or has a request for the
line on its way; its engine has still to make it. -/
def State.owes (s : State) (line : Nat) : Bool :=
  match s.plat.host.owed.find line with
  | none => false
  | some w =>
    if w.path = pathCode .ac then s.core.acpys.any fun a => a.thr == w.thr && a.data.isNone
    else if w.path = pathCode .bt then (s.task.channels.find (64 * dieOf w.core + (w.eng - 1))).any fun c => c.state == 2 || c.state == 3
    else if w.path = pathCode .mx then !(s.clusterAt (clusterOf w.core)).mx.queue.isEmpty && (s.clusterAt (clusterOf w.core)).mx.stop.isNone
    else if w.path = pathCode .cl then s.plat.nor.ops.any fun e => e.2.thr == w.thr && !e.2.written
    else if w.thr = 0 then (s.clusterAt (clusterOf w.core)).firing.isSome
    else s.core.reqs.any (fun r => r.thr == w.thr && r.st != .done && r.pa / 128 == line) ||
      s.core.groups.any (fun g => (g.todo.getD []).contains w.thr) || (s.headsFor 3).any fun e => e.2.2.2.2 == w.thr

/-- The held requests that may be served now. -/
def State.hostReady (s : State) : List HostReq :=
  s.plat.host.heldReq.filter fun r => s.live && s.plat.host.reaches r && (s.plat.host.snoops.find (reqLine r)).isNone &&
    !s.owes (reqLine r) && !s.wouldStall (hostReqPa r) && !s.hdHolds (hostReqPa r)

/-! Back-invalidate snoops (R112, R113). -/

/-- A snoop is over: the line is in I, conflicts are acknowledged; the access that caused it comes before the requests held behind it
(R113). -/
def State.endSnoop (s : State) (line : Nat) (q : Snoop) : State :=
  let s := s.leaveE line
  let s := s.onHost fun h => { h with
    snoops := h.snoops.del line, heldReq := h.heldReq ++ q.held
    owed := if q.held.isEmpty then h.owed else h.owed.put line q.by_ }
  let s := s.settleChores
  if q.held.isEmpty then s else s.emit (.biack line)

/-- BIRSP: BIRspI for a line. -/
def execBirsp (line : Nat) (s : State) : Result :=
  .next (match s.plat.host.snoops.find line with
    | none => s
    | some q => s.endSnoop line q)

/-- The snoops that have had no answer in time. -/
def State.lateSnoops (s : State) : List (Nat × Snoop) :=
  s.plat.host.snoops.filter fun e =>
    decide (s.plat.host.bitmo * 65536 ≤ (s.cycleOf (stackOfLine e.1 / 2) + 2 ^ 64 - e.2.start) % 2 ^ 64)

/-- BISNP_TIMEOUT: the line is poisoned in memory, in I, and reported. -/
def execBisnpTimeout (s : State) : Result :=
  .next (match s.lateSnoops with
    | [] => s
    | e :: es =>
      let (x, s) := chooseFrom (e :: es) e s
      let s := s.onMem fun m => m.markPoison (128 * x.1) 128 true
      (s.endSnoop x.1 x.2).smqPut ⟨3, x.1, stackOfLine x.1⟩)

/-- BICONFLICT: a host request met a snoop of its line. -/
def execBiconflict (line : Nat) (held : HostReq) (s : State) : Result :=
  .next (if (s.plat.host.snoops.find line).isSome && reqLine held == line then s.holdBehind line held else s.hostReq held)

/-! Host memory in the device (R119 to R121). -/

/-- The host's data for a half-line arrive. -/
def State.hostFill (s : State) (half : Nat) (b : List Byte) (poison : Bool) : State :=
  let a := 64 * half
  if b.length ≠ 64 then s.onMem fun m => if poison then m.markPoison a 64 true else m
  else
    let (id, s) := s.release ⟨s.mem.seq, []⟩ .sys hostCore
    let w : Wr := { Wr.base with seq := s.mem.seq, pubs := [id], strong := some .sys, core := hostCore, acc := (a, 64) }
    s.onMem fun m =>
      let m := if m.read a 64 = b then m else m.record w a b
      ({ m with seq := m.seq + 1 }.store a b).markPoison a 64 poison

/-- D2H_GO: the host's answer to a request of a half: 1 RdShared, 2 RdOwn, 3 RdCurr, 4 WrCur, 5 DirtyEvict, 6 CleanEvictNoData (the
half goes to I); `st` 1 S or 2 E. -/
def execD2hGo (half st : Nat) (b : List Byte) (poison : Bool) (s : State) : Result :=
  let toS (m d : Nat) (s : State) : State := s.onHost fun h => { h with
    mesi := if m = 0 then h.mesi else h.mesi.setD 0 half m
    d2h := if d = 0 then h.d2h.del half else h.d2h.put half d }
  .next (match s.plat.host.d2h.find half with
    | some 1 => toS (if st = 2 then 2 else 1) 0 (s.hostFill half b poison)
    | some 2 => toS 2 0 (s.hostFill half b poison)
    | some 3 => toS 0 8 (s.hostFill half b poison)
    | some 4 => toS 0 9 s
    | some 5 => s.onHost fun h => { h with mesi := h.mesi.setD 0 half 0, d2h := h.d2h.del half }
    | some 6 => s.onHost fun h => { h with mesi := h.mesi.setD 0 half 0, d2h := h.d2h.del half }
    | _ => s)

/-- Half-line data leave L2: written back; dropped where the half goes to I (R121). -/
def State.forwardHalf (s : State) (half : Nat) (drop : Bool) : State :=
  let line := half / 2
  let s0 := s
  let other := s.plat.host.mesi.getD 0 (2 * line + (1 - half % 2))
  let s := s.onMem fun m =>
    let m := (m.l2.filter fun l => l.pline == line && l.wr).foldl MemSys.writeBack m
    let cut (l : L2Line) : L2Line := { l with dirty := l.dirty.filter fun e => e.1 / 64 != half % 2, wr := l.wr && other == 3 }
    { m with l2 := (m.l2.map fun l => if l.pline == line then cut l else l).filter fun l => !(drop && l.pline == line && other == 0) }
  if drop then (s0.traceNames s line 3 none).fire line else s

/-- An H2D snoop of a half (R121); a half with a request that waits for GO is in the state from before it. A SnpInv wakes the watches on
its line (R126); poisoned data are marked (R127). Responses: 0 RspIHitI, 1 RspIHitSE, 2 RspIFwdM, 3 RspSHitSE, 4 RspSFwdM, 5 RspVHitV,
6 RspVFwdV. -/
def State.h2dSnoop (s : State) (half : Nat) (kind : Nat) : State :=
  let data := s.mem.read (64 * half) 64
  let toM (m : Nat) (s : State) : State := s.onHost fun h => { h with mesi := h.mesi.setD 0 half m }
  let poison := s.mem.poison.contains half
  let rsp (c : Nat) (b : List Byte) (s : State) : State := s.emit (.rsp half c b (!b.isEmpty && poison))
  match s.plat.host.mesi.getD 0 half, kind with
  | 0, 0 => (rsp 0 [] s).fire (half / 2)
  | 0, _ => rsp 0 [] s
  | 3, 0 => rsp 2 data ((toM 0 s).forwardHalf half true)
  | _, 0 => rsp 1 [] ((toM 0 s).forwardHalf half true)
  | 3, 1 => rsp 4 data ((toM 1 s).forwardHalf half false)
  | _, 1 => rsp 3 [] (toM 1 s)
  | 3, _ => rsp 6 data s
  | _, _ => rsp 5 [] s

def execSnpinv (half : Nat) (s : State) : Result := .next (s.h2dSnoop half 0)
def execSnpdata (half : Nat) (s : State) : Result := .next (s.h2dSnoop half 1)
def execSnpcur (half : Nat) (s : State) : Result := .next (s.h2dSnoop half 2)

/-! Ports (R118, R127). -/

/-- CXL_PORT_DOWN: requests that wait on port 0 are answered no more. The host's decoders stay as they are: frames whose way goes through the
port are out of the host's reach (R108). -/
def execCxlPortDown (p : Nat) (s : State) : Result :=
  .next (if p < 2 then s.onHost fun h => { h.modPort p fun q => { q with state := 0, width := 0, gen := 0 } with
    d2h := if p = 0 then [] else h.d2h }
  else s)

/-- The channels whose frames the mailbox lists as excluded (R109, R38). -/
def State.excluded (s : State) : List Nat := (rangeFrom 0 256).filter fun ch => !s.chanOn ch

/-- CXL_PORT_UP: a port that is not up trains (STATE 1), or comes up as CXL (2) or as PCIe only (3); the host programs its decoder (R107) with
ways 1 or 2, or not (0), also while the port is up. The device reports its memory (R109). -/
def execCxlPortUp (p width : Nat) (gen : CxlMode) (s : State) : Result :=
  let q := s.plat.host.port p
  .next (if p < 2 && decide (gen.ways ≤ 2) then
    if gen.st = 1 && q.state != 2 && q.state != 3 then s.onHost fun h => h.modPort p fun q => { q with state := 1, width := 0, gen := 0 }
    else if (gen.st = 2 || gen.st = 3) && [1, 2, 4, 8, 16].contains width && decide (1 ≤ gen.gen) && decide (gen.gen ≤ 7) &&
        (q.state == 0 || q.state == 1 || (q.state == gen.st && q.width == width && q.gen == gen.gen)) then
      let s := s.onHost fun h => h.modPort p fun q => { q with state := gen.st, width := width, gen := gen.gen, ways := gen.ways, base := gen.base }
      (s.emit (.cdat 0 (2 ^ 39))).emit (.excluded s.excluded)
    else s
  else s)

end Sys2Proof.Machine
end

