-- ==== Sys2Proof/Machine/LinkEv.lean ====
section
/-! DEFINITION. Die-to-die links, warm reset of a compute die, loss of a die (spec/03 R59 to R77). -/

namespace Sys2Proof.Machine

def State.modLink (s : State) (k : Nat) (f : Link → Link) : State :=
  s.onLinks fun l => { l with dl := l.dl.modD Link.reset k f }

/-- The links of a die. -/
def linksOf (d : Nat) : List Nat := (rangeFrom 0 10).filter fun k => (linkEnds k).1 == d || (linkEnds k).2 == d

/-! Held accesses (R69, R76). -/

/-- The home die of an unpublished byte of a domain. -/
def State.homeDie (s : State) (k : DomKey) (va : Nat) : Nat := (homeIn s k.space k.core va).1

/-- A held byte of a domain whose home is a die. -/
def State.heldAt (s : State) (k : DomKey) (d va : Nat) (u : UByte) : Bool := u.held && s.homeDie k va == d

/-- The bytes of a domain held past their window whose home is not offline. -/
def State.lateBytes (s : State) (k : Domain) : List (Nat × UByte) := k.stores.filter fun e => e.2.late && !offHome s (s.homeDie k.key e.1)

/-- The bytes held past their window are published (R69); a line that waits for the host or a link comes again (`lateReady`), one that faults is
left to the next boundary. -/
def State.publishLate (s : State) (k : Domain) : State :=
  match s.lateBytes k with
  | [] => s
  | e :: l =>
    let ag := Agent.dev k.key (s.thread e.2.thr).id.fn
    match s.publish ag .sys [] (e :: l) with
    | (some (.fault va _ _), s) => s.modDom k.key fun d => { d with
        stores := d.stores.map fun e => if e.1 / 128 == va / 128 then (e.1, { e.2 with late := false }) else e }
    | (_, s) => s

def State.publishAllLate (s : State) : State := s.mem.doms.foldl State.publishLate s

/-- Some domain has bytes past their window that may be published. -/
def State.lateReady (s : State) : Bool := s.mem.doms.any fun k => !(s.lateBytes k).isEmpty

/-- What is held or parked for a die goes on: what one core had issued is issued again in the order it first was (R69). With the die lost each
meets the loss (R72 to R76). -/
def State.reissueHeld (s : State) (d : Nat) : State :=
  let l := s.plat.links.held.filter fun h => h.die == d
  let lost := (s.pkg.die d).drst == 8
  let s := s.onLinks fun x => { x with
    held := x.held.filter fun h => h.die != d
    order := if lost then x.order else (x.order.filter s.dueAgain) ++ l.map (·.who) }
  let s := l.foldl (fun (s : State) h => match h.who with
    | .thread u => s.resumePark u
    | .req id => match s.core.reqs.find? fun r => r.id == id with
      | some r => if lost then s.reqLost r else s
      | none => s
    | .channel id => match s.task.channels.find id with
      | some c => if c.state = 6 && s.inService (id / 64) then s.setChan id { c with state := 2 } else s
      | none => s
    | .coll id => if lost then s.collLost id else s
    | _ => s) s
  s.publishAllLate

/-! The end of a step (R63). -/

/-- The step in progress is over: the writer goes on. -/
def State.endStepOf (s : State) (c : Drctl) : State :=
  let s := s.onLinks fun l => { l with cur := none }
  if c.thr = 0 then s.modPage c.page fun w => { w with mark := if w.mark == some 0 then some 1 else w.mark }
  else s.modThread c.thr fun t => { t with mark := if t.mark == some 0 then some 1 else t.mark }

/-- The step has succeeded. -/
def State.stepOk (s : State) (c : Drctl) (st : Nat) : State :=
  (s.modDie c.die fun d => { d with drst := st, drerr := 0 }).endStepOf c

/-- The step has failed. -/
def State.stepFail (s : State) (c : Drctl) : State := (s.modDie c.die fun d => { d with drerr := c.cmd }).endStepOf c

/-- The command in progress, when it is the one named. -/
def State.drNow (s : State) (cmd : Nat) : Option Drctl := s.plat.links.cur.filter fun c => c.cmd == cmd

/-- The Norano ports of a die whose state is one become another; a disabled port stays disabled. -/
def State.portsTo (s : State) (d a b : Nat) : State :=
  s.onNor fun n => { n with ports := n.ports.map fun e =>
    if e.1 / 12 == d && e.2.state == a then (e.1, { e.2 with state := if s.lanesOf e.1 = 0 then 4 else b }) else e }

/-! Loss (R76). -/

/-- A task that has no crew fails: it leaves its counter, and its failure is journalled (R144, R152). -/
def State.failTask (s : State) (slot cause : Nat) : State :=
  let cut (c : Counter) : Counter := { c with parked := c.parked.filter (· != .task slot) }
  let s := s.onTask fun k => { k with counters := k.counters.map fun e => (e.1, cut e.2) }
  s.endTask slot 4 cause ⟨0, []⟩

/-- The unterminated tasks of a die fail with 0x0C (R144). -/
def State.failTasks (s : State) (d : Nat) : State :=
  let mine (c : Crew) : Bool := (s.task.slots.find c.slot).any fun t => t.die == d
  let s := (s.core.crews.filter mine).foldl (fun (s : State) c => s.failCrew c.uid 0x0C) s
  (s.unbound fun t => t.die == d).foldl (fun (s : State) t => s.failTask t.slot 0x0C) s

/-- Lines of unpublished bytes of other dies' domains that are staged at the slices of a die (R77, R221): staging is the cache's own choice,
so which they are is free. Held stores are at their cores (R73). -/
def State.loseStaged (s : State) (d : Nat) : State :=
  s.mem.doms.foldl (fun (s : State) k =>
    if dieOf k.key.core == d then s
    else
      let there (e : Nat × UByte) : Bool := !e.2.held && s.homeDie k.key e.1 == d
      let (gone, s) := chooseSubset (linesOf (k.stores.filter there)) s
      s.modDom k.key fun x => x.keep fun e => !(there e && gone.contains (e.1 / 128))) s

/-- The requests that homes of a die have accepted meet its loss (R76). -/
def State.loseRequests (s : State) (d : Nat) : State :=
  ((s.core.reqs.filter fun r => r.toHome && r.st == .home && s.reqHome r == d).map (·.id)).foldl (fun (s : State) id =>
    match s.core.reqs.find? fun r => r.id == id with
    | some r => s.reqLost r
    | none => s) s

/-- A die is lost: the data its homes held and memory does not, the stores of its cores, and what was staged at its slices, are gone; its
slices hold no host line any more (R122). A block that is poisoned under a lost line is poisoned (R45). -/
def State.loseDie (s : State) (d : Nat) : State :=
  let s := s.modDie d fun k => { k with drst := 8 }
  let here := s.mem.l2.filter fun l => l.die == d
  let lost := (here.filter (·.wr)).flatMap fun l => l.dirty.map fun e => l.pline * 128 + e.1
  let halves := (here.filter fun l => isHost (128 * l.pline)).flatMap fun l => [2 * l.pline, 2 * l.pline + 1]
  let s := (s.loseStaged d).onMem fun m => { m with
    l2 := m.l2.filter fun l => l.die != d
    tlb := m.tlb.filter fun e => e.die != d
    hist := lost.foldl Map.del m.hist
    poison := setUnion m.poison (m.deep.filter fun b => here.any fun l => l.wr && l.pline == b / 2)
    deep := m.deep.filter fun b => !here.any fun l => l.wr && l.pline == b / 2
    doms := m.doms.map fun k => if dieOf k.key.core == d then k.clear else k }
  let s := s.onHost fun h => { h with mesi := h.mesi.filter fun e => !(halves.contains e.1 && !s.mem.inL2 (64 * e.1)) }
  let s := (s.loseRequests d).reissueHeld d
  let s := s.onMem fun m => { m with doms := m.doms.map fun k => k.keep fun e =>
    !(s.heldAt k.key d e.1 e.2 && (e.2.late || e.2.store)) }
  let s := match s.plat.links.cur with
    | some c => if c.die == d then s.stepFail c else s
    | none => s
  (s.failTasks d).leaveView

/-- DIE_LOST: the die signals an internal fatal error. -/
def execDieLost (d : Nat) (s : State) : Result :=
  .next (if s.dieOn d && (s.pkg.die d).drst != 8 then s.loseDie d else s)

/-! Links (R62). -/

/-- A link goes down (R62). -/
def State.linkDrop (s : State) (k : Nat) : State := s.modLink k fun l => { l with state := 0, fails := 0 }

/-- The management core trains the links that are down, each once it will (R62): STATE 1 meanwhile. -/
def State.trainDown (s : State) : State :=
  let alive (d : Nat) : Bool := d = 4 || (s.dieOn d && (s.pkg.die d).drst != 8)
  ((s.plat.links.dl.filter fun e => e.2.state == 0 && alive (linkEnds e.1).1 && alive (linkEnds e.1).2).map (·.1)).foldl (fun (s : State) k =>
    let (b, s) := chooseBool s
    if b then s.modLink k fun l => { l with state := 1 } else s) s

/-- A link that no event has changed is up. -/
def State.linkUp (s : State) (k : Nat) : Bool :=
  match s.plat.links.dl.find k with
  | some l => l.state == 2
  | none => true

/-- FLIT_REPLAY: a replay that fails in its turn, or not; the 64th that fails takes the link down. -/
def execFlitReplay (k : Nat) (s : State) : Result :=
  .next (if 10 ≤ k || !s.linkUp k then s
  else
    let s := s.modLink k fun l => { l with retry := sat16 l.retry, crcerr := sat16 l.crcerr, state := 2 }
    let (bad, s) := chooseBool s
    let s := s.modLink k fun l => { l with fails := if bad then l.fails + 1 else 0 }
    if 64 ≤ (s.plat.links.dl.getD Link.reset k).fails then s.modLink k fun l => { l with state := 0, fails := 0 } else s)

/-- DIE_LINK_DOWN: loss of lock. -/
def execDieLinkDown (k : Nat) (s : State) : Result := .next (if k < 10 then s.linkDrop k else s)

/-- A training of a link ends: TRAIN counts, LREP tells the lanes that lane repair remapped, a free number. -/
def State.trained (s : State) (k st : Nat) : State :=
  let (n, s) := choose 256 s
  s.modLink k fun l => { l with train := sat16 l.train, lrep := n, fails := 0, state := st }

/-- DIE_LINK_RETRAIN_DONE: traffic resumes, what was held in the order it was sent, or a die is lost. -/
def execDieLinkRetrainDone (k : Nat) (ok : Bool) (s : State) : Result :=
  .next (if 10 ≤ k || 2 ≤ (s.plat.links.dl.getD Link.reset k).state then s
  else
    let waiting := (s.core.reqs.filter fun r => r.st == .issued && r.toHome && linkOf (dieOf r.dom.core) (s.reqHome r) == k && dieOf r.dom.core != s.reqHome r).map (·.id)
    let s := (s.trained k (if ok then 2 else 0)).modLink k fun l => { l with queue := waiting }
    let e := linkEnds k
    let d := if e.2 = 4 then e.1 else e.2
    if ok || !s.dieOn d || (s.pkg.die d).drst = 8 then s else s.loseDie d)

/-! Warm reset (R64 to R69). -/

/-- The control crews of a die. -/
def State.ctlCrews (s : State) (d : Nat) : List Crew := s.core.crews.filter fun c => isCtl c.core && dieOf c.core == d

/-- Nothing of a die runs: no crew or context on it, no scratchpad unit of one, no channel running or inside a record, no collective in flight. -/
def State.quiet (s : State) (d : Nat) : Bool :=
  !s.core.crews.any (fun c => dieOf c.core == d && s.banked c) &&
    !s.core.cores.any (fun e => dieOf e.1 == d && (e.2.active.isSome || e.2.shadow.isSome || !e.2.units.isEmpty)) &&
    !s.task.channels.any (fun e => e.1 / 64 == d && (e.2.work.isSome || e.2.state == 2 || e.2.state == 3)) &&
    !s.plat.nor.ops.any fun e => e.2.die == d && !e.2.written

/-- Requests that the homes or stacks of a die have accepted. -/
def State.homeBusy (s : State) (d : Nat) : Bool :=
  s.core.reqs.any fun r => r.toHome && r.st == .home && !s.isHeld (.req r.id) &&
    ((homeIn s r.dom.space r.dom.core r.va).1 == d || (!isHost r.pa && bitsOf r.pa 38 37 == d))

/-- Lines of a die's stacks that the host owns. -/
def State.hostLines (s : State) (d : Nat) : List Nat := (s.plat.host.own.map (·.1)).filter fun l => stackOfLine l / 2 == d

/-- The lines that CLEAN writes back and invalidates: those of the die, and the misplaced ones (R66). -/
def State.cleanLines (s : State) (d : Nat) (l : L2Line) : Bool := l.die == d || s.misplaced l

/-- Half-lines of host memory are being given back. -/
def State.evicting (s : State) : Bool := s.plat.host.d2h.any fun e => e.2 == 5 || e.2 == 6

/-- CLEAN can act: it has a snoop to send or a line to write back, or is done. -/
def State.cleanReady (s : State) : Bool :=
  match s.drNow 2 with
  | some c => !s.homeBusy c.die && match s.hostLines c.die with
    | [] => s.mem.l2.any (fun l => s.cleanLines c.die l && !s.wbHeld l) || (!s.dropHeld (s.cleanLines c.die) && !s.evicting)
    | ls => ls.any fun l => (s.plat.host.snoops.find l).isNone
  | none => false

/-- A map of homes that was in force since the last CLEAN or ADMIT gave an address another home than the present one. -/
def State.homeMoved (s : State) (va : Nat) : Bool :=
  s.plat.links.maps.any fun m => homeOf (s.onPkg fun k => { k with homemap := m.1, hmdies := m.2 }) va != homeOf s va

/-- Every L1 drops its clean copies of lines homed on a die and of lines whose home moved (R66). -/
def State.dropCopies (s : State) (d : Nat) : State :=
  let goes (core : Nat) (x : L1Sec) : Bool := (homeIn s x.space core (32 * x.sec)).1 == d || (x.space != .phys && s.homeMoved (32 * x.sec))
  s.onCore fun k => { k with cores := k.cores.map fun e => (e.1, { e.2 with l1 := e.2.l1.filter fun x => !goes e.1 x }) }

/-- The maps since the last CLEAN or ADMIT are done with (R65). -/
def State.forgetMaps (s : State) : State := s.onLinks fun l => { l with maps := [] }

/-- DIE_CLEAN (R66): what the host owns is taken back, then every line of the die, and every moved line, is written back, its half-lines of host
memory given back (R122), and the L1s drop their copies. -/
def execDieClean (s : State) : Result :=
  .next (match s.drNow 2 with
    | none => s
    | some c =>
      if s.homeBusy c.die then s
      else match s.hostLines c.die with
      | [] =>
        let s := s.dropLines (s.cleanLines c.die)
        if s.dropHeld (s.cleanLines c.die) || s.evicting then s else ((s.dropCopies c.die).forgetMaps).stepOk c 2
      | ls => ls.foldl (fun (s : State) l => s.snoopLine l) s)

/-- SELFREF can act: no repair of the die's channels is active (R50). -/
def State.selfrefReady (s : State) : Bool :=
  match s.drNow 3 with
  | some c => !s.plat.health.chans.any fun e => e.1 / 64 == c.die && e.2.active.isSome
  | none => false

/-- SELFREF. -/
def execSelfref (s : State) : Result :=
  .next (match s.drNow 3 with
    | none => s
    | some c => if s.selfrefReady then s.stepOk c 3 else s)

/-- The state of a die's logic is gone (R67; what a copy of an assay pair that has been swapped out has still to publish was saved with it): clusters, cores, port units but the GEN of each port (R166), scratchpads, dispatch
interface. -/
def State.clearDie (s : State) (d : Nat) : State :=
  let s := (s.task.ports.filter fun e => e.1 / 10240 == d).foldl (fun (s : State) e => s.endSenders e.1) s
  let s := s.modDie d fun k => { k with tdBase := k.cycle }
  let s := s.onTask fun t => { t with
    ports := t.ports.map fun e => if e.1 / 10240 == d then (e.1, { Port.reset with gen := e.2.gen }) else e
    patterns := t.patterns.filter fun e => e.1 / 2560 != d
    tmpls := t.tmpls.filter fun e => e.1 / 2560 != d
    disp := t.disp.del d }
  let s := s.onCore fun k => { k with
    clusters := k.clusters.filter fun e => e.1 / 40 != d
    cores := k.cores.map fun e => if dieOf e.1 == d then (e.1, { Core.reset with swaps := e.2.swaps }) else e }
  s.onMem fun m => { m with
    scr := m.scr.filter fun e => dieOf (e.1 / 2 ^ 19) != d
    scrPoi := m.scrPoi.filter fun w => dieOf (w / 2 ^ 17) != d
    strong := m.strong.filter fun e => e.2.2.2 != d
    tlb := m.tlb.filter fun e => e.die != d
    doms := m.doms.filter fun k => dieOf k.key.core != d || k.key.copy != 0 }

/-- A mask of failed units: given, or free. -/
def failedUnits (bad : List Nat) (i n : Nat) (s : State) : Nat × State :=
  match bad with
  | [] => choose (2 ^ n) s
  | _ => (bad.getD i 0, s)

/-- DIE_RESET (R67): the unit map is the record's units, each ANDed with those that pass (R19); `bad` holds the self-test's failed clusters, slices, channels and Norano lanes; with no list they are free. -/
def execDieReset (bad : List Nat) (s : State) : Result :=
  .next (match s.drNow 4 with
    | none => s
    | some c =>
      let (clu, s) := failedUnits bad 0 40 s
      let (slc, s) := failedUnits bad 1 64 s
      let (chn, s) := failedUnits bad 2 64 s
      let (nor, s) := failedUnits bad 3 48 s
      let off := offMask (s.plat.health.chans.map fun e => (e.1, e.2.sp)) c.die
      let s := (s.clearDie c.die).modDie c.die fun k =>
        { k.withUnits s.plat.power.record c.die clu slc (chn ||| off) nor with resets := sat16 k.resets }
      let s := s.onPower fun p => { p with lanes := modNth (fun _ => (s.pkg.die c.die).umnor) p.lanes c.die }
      let s := s.onNor fun n => { n with ports := n.ports.map fun e => if e.1 / 12 == c.die then (e.1, { e.2 with state := 3 }) else e }
      let s := ((rangeFrom (12 * c.die) 12).filter fun p => s.lanesOf p == 0).foldl State.portDisable s
      let s := (linksOf c.die).foldl (fun (s : State) k => s.modLink k fun l => { l with state := 3 }) s
      if (s.pkg.die c.die).umclu = 0 then s.loseDie c.die else s.stepOk c 4)

/-- The links that RETRAIN must bring up: to HD, and to the admitted dies (R68). -/
def State.needed (s : State) (d : Nat) : List Nat :=
  (linksOf d).filter fun k =>
    let e := linkEnds k
    let o := if e.1 = d then e.2 else e.1
    o = 4 || (s.pkg.die o).drst = 0

/-- The die's ports and channels, by link number. -/
def dieUnits (d : Nat) : List Nat := (rangeFrom 0 12).map (fun j => 10 + 12 * d + j) ++ (rangeFrom 0 64).map fun c => 58 + 64 * d + c

/-- DIE_RETRAIN (R68): the die's links, ports and stacks come up, those without a stored result trained in full; `bad` holds the links that
train at no width. A port stays held offline until ADMIT, or fails and is down. -/
def execDieRetrain (bad : List Nat) (s : State) : Result :=
  .next (match s.drNow 5 with
    | none => s
    | some c =>
      let w := s.plat.power
      let mine := (trainLinks s.pkg.dies).filter fun k => (linksOf c.die).contains k || (dieUnits c.die).contains k
      let s := s.onPower fun p => { p with train := putTrain p.train w.ends w.bin ((untrained p.train w.ends w.bin mine).filter fun k => !bad.contains k) }
      let s := (linksOf c.die).foldl (fun (s : State) k => s.trained k (if bad.contains k then 0 else 2)) s
      let s := s.onNor fun n => { n with ports := n.ports.map fun e =>
        if e.1 / 12 == c.die && e.2.state != 4 then (e.1, { e.2 with state := if bad.contains (10 + e.1) then 0 else 3 }) else e }
      if (s.needed c.die).any bad.contains then s.stepFail c else s.stepOk c 5)

/-- The channels of a die that its quiesce has stopped go on; one that waits for an offline home does not yet. -/
def State.resumeChannels (s : State) (d : Nat) : State :=
  s.onTask fun k => { k with channels := k.channels.map fun e =>
    if e.1 / 64 == d && e.2.state == 6 && !s.isHeld (.channel e.1) then (e.1, { e.2 with state := 2 }) else e }

/-- ADMIT (R69); with no command it goes on with publications past their window that had to wait. -/
def execAdmit (s : State) : Result :=
  .next (match s.drNow 6 with
    | none => if s.lateReady then s.publishAllLate else s
    | some c =>
      let s := s.dropLines s.misplaced
      if s.dropHeld s.misplaced then s
      else
      let s := s.forgetMaps.stepOk c 0
      let s := ((s.reissueHeld c.die).resumeChannels c.die).portsTo c.die 3 2
      (rangeFrom (12 * c.die) 12).foldl (fun (s : State) p => if s.portUp p then (s.replay p 0).pump p else s) s)

/-! Windows (R72, R73). -/

/-- The window of an offline access, in cycles of the requester's die. -/
def parkWindow : Nat := 3800000

/-- A thread has been held since a time for at least the window. -/
def State.windowOver (s : State) (u start : Nat) : Bool :=
  decide (parkWindow ≤ (s.now (s.thread u) + 2 ^ 64 - start) % 2 ^ 64)

/-- The thread whose LS access is parked or held. -/
def State.heldThread (s : State) (h : Held) : Option Nat :=
  match h.who with
  | .thread u => some u
  | .req id => (s.core.reqs.find? fun r => r.id == id).map (·.thr)
  | _ => none

/-- The region of a held access: that of its request, or the thread's own (R326). -/
def State.heldRegion (s : State) (u : Nat) (h : Held) : Nat :=
  match h.who with
  | .req id => (s.thread u).rgnOf id
  | _ => (s.thread u).rgn

/-- Threads parked for an offline home inside a region, past the window. -/
def State.parksOver (s : State) : List Held :=
  s.plat.links.held.filter fun h => match s.heldThread h with
    | some u => s.heldRegion u h != 0 && s.windowOver u h.start
    | none => false

/-- PARK_WINDOW_EXPIRY: the region unwinds, and the access is dropped. -/
def execParkWindowExpiry (s : State) : Result :=
  .next (match s.parksOver with
    | [] => s
    | h :: hs =>
      let (x, s) := chooseFrom (h :: hs) h s
      match s.heldThread x with
      | some u =>
        let g := s.heldRegion u x
        let s := match x.who with
          | .req id => (s.onCore fun k => { k with reqs := k.reqs.filter fun q => q.id != id }).sweepHeld
          | _ => s
        s.unwindTo u g 0x0C x.va
      | none => s)

/-- Publications held past the window. -/
def State.pubsOver (s : State) : List Held :=
  s.plat.links.held.filter fun h => match h.who with
    | .pub u => s.windowOver u h.start
    | _ => false

/-- A held publication's window expires, for what is held of both of the thread's domains (R73). -/
def State.expirePub (s : State) (u d va : Nat) : State :=
  let t := s.thread u
  let (drop, s) := if t.ct.isEmpty then (false, s) else chooseBool s
  let s0 := s
  let f (k : DomKey) (e : Nat × UByte) : Option (Nat × UByte) :=
    if s0.heldAt k d e.1 e.2 then (if drop then none else some (e.1, { e.2 with late := true, store := false })) else some e
  let s := [s.domKey t, s.otherDom t].foldl (fun (s : State) key => s.modDom key fun k =>
    ({ k with stores := k.stores.filterMap (f key) } : Domain).keep fun _ => true) s
  let s := s.onLinks fun l => { l with held := l.held.filter fun h => h.who != .pub u }
  if t.ct.isEmpty then s.trapEntry u 0x0C (BitVec.ofNat 64 va) t.pos else s.unwind u 0x0C va

/-- HELD_PUBLICATION_EXPIRY. -/
def execHeldPublicationExpiry (s : State) : Result :=
  .next (match s.pubsOver with
    | [] => s
    | h :: hs =>
      let (x, s) := chooseFrom (h :: hs) h s
      match x.who with
      | .pub u => s.expirePub u x.die x.va
      | _ => s)

end Sys2Proof.Machine
end

