-- ==== Sys2Proof/Machine/BootEv.lean ====
section
/-! DEFINITION. Cold boot (spec/01 R27 to R33; spec/02 R46). -/

namespace Sys2Proof.Machine

/-- Of two copies of a part, those that verify: the one with the higher sequence number is in force (R27). -/
def newerOf {α : Type} (seq : α → Nat) (a b : Option α) : Option α :=
  match a, b with
  | some x, some y => if seq x < seq y then some y else some x
  | some x, none => some x
  | none, y => y

/-- The copy of the factory part in force, and its slot: it verifies (R29), and its image is not below the counter of kind 5. -/
def Power.factoryCopy (w : Power) (ok : Bool × Bool) : Option (Nat × Factory) :=
  let copy (slot : Nat) (v : Bool) : Option (Nat × Factory) := match w.slots.find (10 + slot) with
    | some i => if v && decide (w.svn.getD 0 5 ≤ i.1) then (w.fact.find slot).map fun f => (slot, f) else none
    | none => none
  newerOf (fun e => e.2.seq) (copy 0 ok.1) (copy 1 ok.2)

/-- The copy of the site part in force. -/
def Power.siteCopy (w : Power) (ok : Bool × Bool) : Option Site :=
  newerOf Site.seq (if ok.1 then some w.siteA else none) (if ok.2 then some w.siteB else none)

/-- A die as boot finds it (R19, R70): the record's units that passed, less the channels the repair map keeps disabled; a die with no cluster is
absent. -/
def bootDie (b : BootIn) (r : Factory) (m : Map Spare) (d : Nat) : Die :=
  let bad (l : List Nat) : Nat := l.getD d 0
  let k := Die.reset.withUnits r d (bad b.cluBad) (bad b.slcBad) (bad b.chnBad ||| offMask m d) (bad b.norBad)
  { k with drst := if k.umclu = 0 then 15 else 0 }

/-- The units that the self-test disabled: those of the record that are not enabled, but for channels that the repair map keeps off (R19, R32, R58). -/
def unitsOff (r : Factory) (m : Map Spare) (dies : List Die) : Nat :=
  (((rangeFrom 0 4).zip dies).map fun e =>
    let f (m n : Nat) : Nat := countBits m - countBits n
    f (r.clu.getD e.1 0) e.2.umclu + f (r.slc.getD e.1 0) e.2.umslc + f (less (r.chn.getD e.1 0) (offMask m e.1) 64) e.2.umchn +
      f (r.nor.getD e.1 0) e.2.umnor).foldl (· + ·) 0

/-- The bin of a coolant inlet temperature (R32). -/
def coolantBin (t : Int) : Nat := if t < 20 then 0 else if t < 30 then 1 else if t < 40 then 2 else 3

/-- The self-test of stage 4 reports failing symbols and rows to the repair engines (R31, R46). -/
def State.selfTest (s : State) (b : BootIn) : State :=
  let here (ch : Nat) : Bool := bitOf (s.pkg.die (ch / 64)).umchn (ch % 64)
  let s := (b.symBad.filter fun e => here e.1 && decide (e.2.1 < 4) && decide (e.2.2 < 68)).foldl
    (fun (s : State) e => s.badSymbol e.1 e.2.1 e.2.2) s
  (b.rowBad.filter fun e => here e.1).foldl (fun (s : State) e => s.askRow e.1 ⟨e.2.1 % 4, e.2.2.1 % 64, e.2.2.2 % 2 ^ 13⟩) s

/-- The links come up: those between two dies that are there, and the ports that have lanes, each with the partner it found (R31, R32, R85). -/
def State.bootLinks (s : State) (b : BootIn) : State :=
  let links := (rangeFrom 0 10).map fun k => (k, Link.reset)
  let ports := (rangeFrom 0 48).map fun p => (p, { NPort.reset with
    state := if s.lanesOf p = 0 || !s.dieOn (p / 12) then 4 else 2
    peer := if s.lanesOf p = 0 || !s.dieOn (p / 12) then 0x7FF else b.peers.getD p 0x7FF % 2048 })
  let s := (s.onLinks fun l => { l with dl := links }).onNor fun n => { n with ports := ports }
  let up (d : Nat) : Bool := d == 4 || s.dieOn d
  let s := ((rangeFrom 0 10).filter fun k => up (linkEnds k).1 && up (linkEnds k).2).foldl (fun (s : State) k => s.trained k 2) s
  (rangeFrom 0 48).foldl (fun (s : State) p =>
    if s.portUp p then
      let (crd, s) := choose 4096 s
      s.modPort p fun q => { q with crd := crd }
    else s) s

/-- The stages of a cold boot (R27 to R33). With an image of kinds 1 to 4, or the factory part, refused it ends in Recovery, and no power cycle is
counted (DESIGN CHOICE, log 117: stage 2 is not complete). A new site part, where no copy verifies, is written without this boot's training results,
which go into the next save (DESIGN CHOICE, log 144). -/
def State.coldBoot (s : State) (b : BootIn) : State :=
  let w := s.plat.power
  let picks := (rangeFrom 1 4).map fun k => (k, w.pick k)
  match w.factoryCopy b.factory, picks.any fun e => e.2.isNone with
  | some (slot, rec_), false =>
    let verified := w.siteCopy b.site
    let site := verified.getD ⟨1, [], [], []⟩
    let dies := (rangeFrom 0 4).map (bootDie b rec_ site.spare)
    let booted : Map (Nat × Option (List Byte)) := (picks.filterMap fun e => e.2.map fun v => (e.1, v)) ++
      ((w.slots.find (10 + slot)).toList.map fun v => (5, v))
    let wear := ((rangeFrom 0 13).foldl (fun (p : Power) u => p.count u 4) { w with wear := site.wear }).wear
    let bin := coolantBin b.temp
    let full := untrained site.train b.ends bin (trainLinks dies)
    let blank : Site := ⟨0, [], [], []⟩
    let fresh : Site := ⟨1, wear, [], []⟩
    let s := s.wiped .run
    let s := s.onPkg fun _ => ⟨dies, 0, [], (((rangeFrom 0 4).filter fun d => (dies.getD d Die.reset).drst == 0).map (2 ^ ·)).foldl (· + ·) 0⟩
    let s := s.onPower fun p => { p with
      booted := booted, wear := wear, siten := verified.isNone, unitoff := unitsOff rec_ site.spare dies % 2 ^ 16, retrain := full.length % 2 ^ 16
      firstms := Nat.min b.ms 0xFFFF
      svn := booted.foldl (fun m e => m.put e.1 (Nat.max (m.getD 0 e.1) e.2.1)) p.svn
      record := rec_, train := putTrain site.train b.ends bin full, ends := b.ends, bin := bin, capw := rec_.cfg.capw
      lanes := dies.map Die.umnor
      siteA := if verified.isNone then fresh else if b.site.1 then p.siteA else blank
      siteB := if verified.isNone then fresh else if b.site.2 then p.siteB else blank }
    let s := (s.onHost fun h => { h with bitmo := rec_.cfg.bitmo }).onNor fun n => { n with
      view := { n.view with self_ := rec_.cfg.index, agrtmo := rec_.cfg.agrtmo, susp := rec_.cfg.susp, hbper := rec_.cfg.hbper } }
    let s := s.onHealth fun h => { h with chans := site.spare.map fun e => (e.1, { Chan.reset with sp := e.2, chst := if e.2.off then 2 else 0 }) }
    let s := (s.bootLinks b).selfTest b
    if verified.isSome then s.saveSite else s
  | _, _ => s.wiped .recovery

def execColdBoot (b : BootIn) (s : State) : Result := .next (if s.plat.power.st == .boot then s.coldBoot b else s)

end Sys2Proof.Machine
end

