-- ==== Sys2Proof/Machine/NoranoEv.lean ====
section
/-! DEFINITION. Norano flits and the messages of membership (spec/04 R81 to R83, R97 to R105). -/

namespace Sys2Proof.Machine

/-! Flits (R81, R83). -/

/-- A flit passes (R81): its CRC, its TYPE, its reserved bits. -/
def flitOk (f : List Byte) : Bool :=
  let h := fieldOf f 0 8
  f.length == 256 && fieldOf f 0xF8 8 == crc64 (f.take 0xF8) && decide (h % 16 ≤ 4) && bitsOf h 63 54 == 0

/-- An acknowledge-only flit is sent (R81), which says x. Where the partner is a switch, or no partner is known, its DST is 0 (DESIGN CHOICE,
log 157). -/
def State.ackFlit (s : State) (p : Nat) (x : FlitInfo) : State :=
  let (bs, s) := freeBytes 240 s
  (s.modPort p fun q => { q with outq := q.outq ++ [⟨4, if q.peer = 0x7FF then 0 else q.peer, bs, 0, x⟩] }).pump p

/-- The receiver returns the SEQ it expects (R83). -/
def State.expects (s : State) (p : Nat) : State := s.ackFlit p { FlitInfo.none with kind := 14, num := (s.portAt p).exp }

/-- A flit is dropped: the receiver returns the SEQ it expects. Whether the correction found the flit beyond repair is free (FECUNC). -/
def State.dropFlit (s : State) (p : Nat) : State :=
  let (unc, s) := chooseBool s
  (s.modPort p fun q => { q with fecunc := if unc then sat16 q.fecunc else q.fecunc }).expects p

/-- The acknowledgement and the credits of a good flit go out with the next flit; a port that holds none may send an acknowledge-only flit for
them (R81; DESIGN CHOICE, log 157: the spec does not say when, so each time is free). -/
def State.ackGood (s : State) (p : Nat) : State :=
  if (s.portAt p).outq.isEmpty then
    let (b, s) := chooseBool s
    if b then s.ackFlit p FlitInfo.none else s
  else s

/-- A data flit for the collective engines: the transport header is KEY, view tag, step and chunk index (log 32). -/
def dataFlit (src : Nat) (f : List Byte) (x : FlitInfo) : CFlit :=
  ⟨src, fieldOf f 0x08 4, fieldOf f 0x0C 4, fieldOf f 0x10 4, fieldOf f 0x14 4, bytesAt f 0x18 224, x⟩

/-- What a received flit says of those sent (R81, R83): they are acknowledged up to ACK, credits return, and room sends more. -/
def State.acked (s : State) (p ack crd : Nat) : State :=
  let q := s.portAt p
  let n := match q.sent with
    | [] => 0
    | e :: _ => (ack + 4097 - e.1) % 4096
  let n := if n ≤ q.sent.length then n else 0
  (s.modPort p fun q => { q with
    sent := q.sent.drop n, crd := q.crd + crd, tries := if n = 0 then q.tries else 0
    skip := if n = 0 then q.skip else 0 }).pump p

/-- The partner returns the SEQ of the oldest flit that it has not accepted: the sender replays from it on; the 32nd replay of one flit that fails
takes the port down (R83). The flits sent after it were out of order too, and the partner returns the same SEQ for each of them: those answers
call for nothing more. -/
def State.nacked (s : State) (p num : Nat) : State :=
  let q := s.portAt p
  if q.sent.head?.map (·.1) != some num then s
  else if 0 < q.skip then s.modPort p fun q => { q with skip := q.skip - 1 }
  else if 32 ≤ q.tries then s.portDrop p
  else (s.modPort p fun q => { q with tries := q.tries + 1, skip := q.sent.length - 1 }).replay p 0

/-- A rejoiner asks the next module that its route table reaches; with none the request is refused (R103). -/
def State.askNext (s : State) (r : Rejoin) : State :=
  match s.reachable.filter fun m => decide (r.peer < m) with
  | [] => s.endRejoin 2
  | m :: _ => (s.modView fun v => { v with rejoin := some { r with peer := m } }).sendMsg 7 r.len [] m

/-- A rejoin fails after its admission: the thread learns it, and the module is where it was, in STATE 0 or 5. -/
def State.rejoinFail (s : State) : State :=
  (s.endRejoin 2).modView fun v => { v with state := if v.members.isEmpty then 0 else 5, prop := none }

/-- This module is rejoining (R103), and the module is its donor. -/
def State.donorIs (s : State) (m : Nat) : Bool := s.view.state == 4 && s.view.rejoin.any fun r => !r.donor && r.peer == m

/-- A message that no other event carries (log 31): a break notice for an operation, here or to come (R95); the answer to this module's REJOIN
(R103); a proposer without a majority (R99). -/
def State.control (s : State) (src : Nat) (x : FlitInfo) : State :=
  let from_ := s.view.rejoin.filter fun r => !r.donor && r.peer == src
  let asked := from_.filter fun _ => s.view.state != 4
  match x.kind, asked with
  | 6, _ => match s.plat.nor.ops.find? fun e => e.2.key == x.num && !e.2.written with
    | some e => s.collEnd e.1 0x0E
    | none => s.onNor fun n => { n with inq := n.inq ++ [⟨src, x.num, n.view.num, 0, 1, [], x⟩] }
  | 9, some _ => s.modView fun v => { v with state := 4 }
  | 10, some _ => s.endRejoin 2
  | 10, none => if from_.isSome then s.rejoinFail else s
  | 12, _ => if from_.isSome && s.view.state == 4 then s.rejoinFail else if s.view.member && s.view.proposer == some src then s.noQuorum else s
  | 13, some r => s.askNext r
  | _, _ => s

/-- NORANO_FLIT_RECEIVE (R83): dropped, or passed on in SEQ order, with what travels beside it. -/
def execNoranoFlitReceive (p : Nat) (f : RxFlit) (s : State) : Result :=
  let h := fieldOf f.bytes 0 8
  let src := bitsOf h 49 39
  .next (if 48 ≤ p || !s.portUp p then s
  else if !flitOk f.bytes then s.dropFlit p
  else if bitsOf h 15 4 != (s.portAt p).exp then s.expects p
  else
    let s := (s.modPort p fun q => { q with exp := (q.exp + 1) % 4096 }).acked p (bitsOf h 27 16) (bitsOf h 53 50)
    let s := if h % 16 = 4 && f.x.kind = 14 then s.nacked p f.x.num else s
    let s := s.ackGood p
    if bitsOf h 38 28 != s.view.self_ then s
    else
      let s := s.heardFrom src
      match h % 16 with
      | 1 => s.onNor fun n => { n with inq := n.inq ++ [dataFlit src f.bytes f.x] }
      | 3 => s.control src f.x
      | _ => s)

/-- NORANO_PORT_DOWN: loss of lock; a further loss of lock while the port is down shows it in training. -/
def execNoranoPortDown (p : Nat) (s : State) : Result :=
  .next (if p < 48 && decide ((s.portAt p).state ≤ 2) && !s.portOff p then
    let st := (s.portAt p).state
    (s.portDrop p).modPort p fun q => { q with state := if st = 0 then 1 else 0 }
  else s)

/-- NORANO_PORT_RETRAIN: the width it reaches, over lanes that passed the boot self-test (R19), is entered in UMNOR, and what the port holds goes
out; with none the port is disabled. The partner tells its module index (0x7FF for a switch); the credits it grants at first are
free (log 123). -/
def execNoranoPortRetrain (p : Nat) (w : PortTrained) (s : State) : Result :=
  let j := p % 12
  let lanes := (if w.width = 4 then 15 else if w.width = 2 then 3 else if w.width = 1 then 1 else 0) &&&
    bitsOf (s.plat.power.lanes.getD (p / 12) 0) (4 * j + 3) (4 * j)
  .next (if p < 48 && decide ((s.portAt p).state ≤ 1) && !s.portOff p then
    let s := s.modDie (p / 12) fun d => { d with umnor := setBits d.umnor (4 * j + 3) (4 * j) lanes }
    if lanes = 0 then s.portDisable p
    else
      let (crd, s) := choose 4096 s
      let s := s.modPort p fun q => { q with state := 2, peer := w.peer % 2048, crd := crd, tries := 0, skip := 0 }
      (s.replay p 0).pump p
  else s)

/-! Detection (R97, R98). -/

/-- A heartbeat is due. -/
def State.beatDue (s : State) : Bool := s.view.member && decide (s.view.hbper * 1024 ≤ s.since s.view.hbAt)

/-- HEARTBEAT_SEND: to the watched members. -/
def execHeartbeatSend (s : State) : Result :=
  .next (if s.beatDue then
    let now := s.viewNow
    (s.tell 1 s.view.num s.view.watched []).modView fun v => { v with hbAt := now }
  else s)

/-- Every port of a member's route-table entry is down or disabled. -/
def State.unreachable (s : State) (m : Nat) : Bool := (s.routes m s.portUp).isEmpty

/-- The watched members that are silent or out of reach, and not yet suspected. -/
def State.silent (s : State) : List Nat :=
  let v := s.view
  if !v.member then []
  else v.watched.filter fun m => !v.suspects.contains m && (decide (v.susp * 1024 ≤ s.since (v.heard.getD 0 m)) || s.unreachable m)

/-- SUSPICION_TIMEOUT. -/
def execSuspicionTimeout (s : State) : Result := .next (s.suspect s.silent true)

/-- SUSPECT_NOTICE from a module. -/
def execSuspectNotice (m : Nat) (sus : List Nat) (s : State) : Result := .next ((s.heardFrom m).suspect sus false)

/-- LEAVE_NOTICE from a module; a donor that leaves admits no rejoiner (R103). -/
def execLeaveNotice (m : Nat) (s : State) : Result :=
  .next ((if s.donorIs m then s.rejoinFail else s).suspect [m] true)

/-! Agreement (R99, R104). -/

/-- A proposal is accepted and acknowledged. -/
def State.acceptProposal (s : State) (m num : Nat) (set : List Nat) : State :=
  let now := s.viewNow
  let s := s.modView fun v => { v with
    prop := some ⟨num, set, m, [], []⟩, agrAt := now, state := if v.member then 3 else v.state }
  s.tell 5 num [m] s.plat.nor.fixedHere

/-- A member takes a proposal: from its proposer, with every suspect of its own left out; or from a donor that adds a module to the
view. -/
def View.takes (v : View) (m num : Nat) (set : List Nat) : Bool :=
  let adds := v.members.all set.contains && set.length == v.members.length + 1
  num == v.num + 1 && v.members.contains m && (v.proposer == some m || adds) && !v.suspects.any set.contains

/-- VIEW_PROPOSAL from a module. -/
def execViewProposal (m num : Nat) (set : List Nat) (s : State) : Result :=
  let v := s.view
  let set := setUnion [] set
  let joins := match v.rejoin with
    | some r => !r.donor && r.peer == m && v.state == 4
    | none => false
  .next (if !set.contains v.self_ then s
  else match v.forming with
    | some b => if num = 1 && set == b && b.head? == some m then s.acceptProposal m num set else s
    | none =>
      if joins then s.acceptProposal m num set
      else if !v.member then s
      else
        let s := s.heardFrom m
        if v.takes m num set then s.acceptProposal m num set else s.tell 2 v.num [m] v.suspects)

/-- PROPOSAL_ACK from a module, with the results it reports fixed. -/
def execProposalAck (m num : Nat) (fixed : List Nat) (s : State) : Result :=
  let s := s.heardFrom m
  .next (match s.view.prop with
    | some p =>
      if p.from_ == s.view.self_ && p.num == num && p.set.contains m then
        (s.modView fun v => { v with prop := some { p with acks := setIns p.acks m, fixed := setUnion p.fixed fixed } }).commitIf
      else s
    | none => s)

/-- VIEW_COMMIT from a module: the proposal that was acknowledged is installed. -/
def execViewCommit (m num : Nat) (set fixed : List Nat) (s : State) : Result :=
  let set := setUnion [] set
  .next (match s.view.prop with
    | some p => if p.from_ == m && p.num == num && p.set == set then s.takeCommit num set fixed else s
    | none => s)

/-- Agreement has gone on for AGRTMO. -/
def State.agreeOver (s : State) : Bool := decide (s.view.agrtmo * 65536 ≤ s.since s.view.agrAt)

/-- Nothing has come from the member's proposer for AGRTMO either (R99). -/
def State.proposerSilent (s : State) : Bool :=
  s.view.proposer.all fun m => decide (s.view.agrtmo * 65536 ≤ s.since (s.view.heard.getD 0 m))

/-- A member has waited for its proposer for AGRTMO, and heard nothing from it; or a rejoiner whose buffer is filled, for agreement on the view that
would contain it (R103). -/
def State.agreeLate (s : State) : Bool :=
  (((s.view.state == 2 || s.view.state == 3) && s.proposerSilent) || (s.view.state == 4 && (s.view.prop.isSome || s.view.rejoin.any fun r => r.len == 0))) &&
    s.view.forming.isNone && s.agreeOver

/-- AGREEMENT_TIMEOUT: the proposer joins the suspects; for a rejoiner agreement has failed. -/
def execAgreementTimeout (s : State) : Result :=
  .next (if s.agreeLate && s.view.state == 4 then s.rejoinFail
  else if s.agreeLate then
    let now := s.viewNow
    let p := s.view.proposer.toList
    (s.modView fun v => { v with agrAt := now }).suspect p true
  else s)

/-- A formation has waited for AGRTMO. -/
def State.formLate (s : State) : Bool := s.view.forming.isSome && s.agreeOver

/-- VIEW_FORMATION_TIMEOUT: no view forms, and STATE is what it was (R104, R105). -/
def execViewFormationTimeout (s : State) : Result :=
  .next (if s.formLate then s.modView fun v => { v with forming := none, prop := none } else s)

/-! Rejoin (R103). -/

/-- ADMISSION_REQUEST from a module: refused, or answered with the view; a module that is not a member says so, and the rejoiner asks the next.
A donor that serves another rejoin refuses (DESIGN CHOICE, log 125: the spec does not say). -/
def execAdmissionRequest (m len : Nat) (s : State) : Result :=
  let v := s.view
  .next (if !v.member then s.tell 13 v.num [m] []
  else if v.synclen = 0 || v.synclen != len || v.rejoin.isSome then s.tell 10 v.num [m] []
  else (s.tell 9 v.num [m] v.members).modView fun v => { v with rejoin := some ⟨0, v.syncbase, len, m, true⟩ })

/-- The bytes of the donated region land in the rejoiner's buffer, on the CL path; what they are comes from the donor. -/
def State.rejoinCopy (s : State) (r : Rejoin) : Option State :=
  let t := s.thread r.thr
  let ag := s.agent t .cl
  match s.spread ag r.va r.len with
  | (.error _, _) => none
  | (.ok l, s) =>
    let (bs, s) := freeBytes r.len s
    let (id, s) := s.release (s.knowOf r.thr) .dev t.id.core
    some (s.scatter ag t.ltid [id] r.va l (bs.map fun b => (b, false)))

/-- A copy of a rejoin can complete here. -/
def State.rejoinReady (s : State) : Bool :=
  match s.view.rejoin with
  | some r => r.donor || (s.view.state == 4 && r.len != 0)
  | none => false

/-- REJOIN_COPY_DONE: the donor has sent its region and proposes the view with the rejoiner; at the rejoiner the buffer is filled. -/
def execRejoinCopyDone (s : State) : Result :=
  .next (match s.view.rejoin with
    | none => s
    | some r =>
      if r.donor then
        let (bs, s) := s.physRead r.va r.len
        let s := (s.emit (.bytes bs)).modView fun v => { v with rejoin := none }
        if s.view.member then s.propose (s.view.num + 1) (setIns s.view.members r.peer) else s.tell 10 s.view.num [r.peer] []
      else if s.view.state != 4 || r.len == 0 then s
      else match s.rejoinCopy r with
        | some s => s.modView fun v => { v with rejoin := some { r with len := 0 }, agrAt := s.viewNow }
        | none => s.rejoinFail)

end Sys2Proof.Machine
end

