-- ==== Sys2Proof/Machine/FnEv.lean ====
section
/-! DEFINITION. Enqueue windows and ports, function level reset, attestation, the system-register window, and the commands that other
agents give through it (spec/06 R134 to R141; spec/02 R39; spec/04 R104; spec/05 R117; spec/10 R237; spec/15 R328 to R335;
spec/20 R450, R452). -/

namespace Sys2Proof.Machine

/-! Enqueue windows (R134). Completions: 0 Successful Completion, 1 Request Retry Status, 2 Unsupported Request. -/

/-- The die that answers for a window (R136). -/
def State.windowDie (s : State) (fn lq : Nat) : Nat :=
  match s.queueOf fn lq with
  | some (i, _) => i / 8192
  | none => s.firstDie

/-- A write to a window that is no enqueue is journalled: failure, cause 0x18, ARGS zero. -/
def State.windowBad (s : State) (fn lq : Nat) : State := s.journal fn ⟨0, []⟩ ⟨4, 0x18, 0, lq, 0, s.windowDie fn lq, false, 0⟩

/-- WINDOW_DMWR: a Deferrable Memory Write of some bytes at an offset of the BAR of a function. -/
def execWindowDmwr (page off : Nat) (b : List Byte) (s : State) : Result :=
  let lq := off / 64
  .next (if 512 < page || 32768 ≤ lq then s.emit (.ur page)
  else if b.length = 64 && off % 64 = 0 then
    match s.enqueue page lq none (TaskRec.ofBytes b) with
    | (.retry, s) => s.emit (.dmwr page 1)
    | (_, s) => s.emit (.dmwr page 0)
  else (s.windowBad page lq).emit (.dmwr page 2))

/-- WINDOW_BAD_WRITE: a posted Memory Write. -/
def execWindowBadWrite (page off : Nat) (s : State) : Result :=
  .next (if page ≤ 512 && off / 64 < 32768 then s.windowBad page (off / 64) else s)

/-- WINDOW_MEMORY_READ: Unsupported Request, no data. -/
def execWindowMemoryRead (s : State) : Result := .next (s.emit (.ur 0))

/-! Enqueue ports (R135). -/

def State.modApp (s : State) (core : Nat) (f : AppPort → AppPort) : State :=
  s.onPlat fun p => { p with apps := p.apps.modD ⟨[], 0⟩ core f }

/-- ENQUEUE_PORT_TRIGGER of an application core: the stores made to its staging buffer (offset, byte), then the trigger. Trigger
bits that R135 says are zero are not read (DESIGN CHOICE, log 158). -/
def execEnqueuePortTrigger (core : Nat) (st : List (Nat × Byte)) (v : Word) (s : State) : Result :=
  .next (if 16 ≤ core then s
  else
    let s := s.modApp core fun p => { p with stage := (st.filter fun e => e.1 < 64).foldl (fun m e => m.setD 0 e.1 e.2) p.stage }
    let bs := (rangeFrom 0 64).map fun k => ((s.plat.apps.getD ⟨[], 0⟩ core).stage).getD (0 : Byte) k
    let fn := bitsOf v.toNat 25 16
    let lq := bitsOf v.toNat 14 0
    let (r, s) := s.enqueue fn lq none (TaskRec.ofBytes bs)
    s.modApp core fun p => { p with result := r.code })

/-- ENQUEUE_PORT_RESULT: a load of the trigger. -/
def execEnqueuePortResult (core : Nat) (s : State) : Result :=
  .next (s.emit (.value core (BitVec.ofNat 64 (s.plat.apps.getD ⟨[], 0⟩ core).result)))

/-! Function level reset (R138, R178, R271). -/

/-- FUNCTION_LEVEL_RESET: with the counters the function's channels are aborted and its barriers are free. -/
def execFunctionLevelReset (f : Nat) (s : State) : Result :=
  .next (if 512 < f then s
  else
    let qs := s.task.queues.filter fun e => e.2.enabled && e.2.fn == f
    let s := s.onTask fun k => { k with queues := k.queues.map fun e => if e.2.fn == f then (e.1, { e.2 with enabled := false }) else e }
    let s := s.modFn f fun g => { g with uQueues := g.uQueues - qs.length }
    let s := (s.unbound fun t => t.fn == f).foldl (fun (s : State) t => s.cancelTask t.slot) s
    let s := (s.core.crews.filter fun c => c.fn == f).foldl (fun (s : State) c => s.failCrew c.uid 0x0E) s
    let s := (s.task.counters.filter fun e => e.2.live && e.2.fn == f).foldl (fun (s : State) e => s.freeCounter e.1) s
    let s := (s.task.channels.filter fun e => e.2.fn == f && e.2.state != 0).foldl (fun (s : State) e => s.chanAbort e.1) s
    let s := s.onCore fun k => { k with barriers := k.barriers.filter fun e => !(e.2.init && e.2.ownerFn == f) }
    s.modFn f fun g => if g.jnl.open_ = 0 then { g with jnl := { g.jnl with ring := { g.jnl.ring with en := false } } } else g)

/-! Attestation (R141, R28). -/

/-- The unit-map field of a die: zero for a die absent from the unit map. -/
def Die.report (d : Die) : List Byte :=
  if d.drst = 15 then List.replicate 32 0
  else bytesLE 5 d.umclu ++ bytesLE 3 0 ++ bytesLE 8 d.umslc ++ bytesLE 8 d.umchn ++ bytesLE 6 d.umnor ++ bytesLE 2 0

/-- The body of a report. -/
def State.reportBody (s : State) (f : Nat) (nonce : List Byte) : List Byte :=
  let w := s.plat.power
  let img (k : Nat) : Nat × Option (List Byte) := w.booted.getD (0, none) k
  let hash (k : Nat) : List Byte := ((img k).2.getD (Config.shippedHash k) ++ List.replicate 48 0).take 48
  let g := s.fnAt f
  nonce ++ bytesLE 8 Config.serial ++ bytesLE 2 f ++ bytesLE 6 0 ++
    (rangeFrom 1 4).flatMap hash ++ (rangeFrom 1 4).flatMap (fun k => bytesLE 4 (img k).1) ++ hash 5 ++
    (s.pkg.dies.take 4).flatMap Die.report ++ bytesLE 8 (g.qCnts * 2 ^ 40 + g.qSlots * 2 ^ 19 + g.qQueues) ++
    bytesLE 4 (s.task.queues.filter fun e => e.2.enabled && e.2.fn == f).length ++ bytesLE 4 0

/-- A signed object (R28) of a kind, under the identity keys. -/
def signedObject (kind : Nat) (body : List Byte) : List Byte :=
  let pad (n : Nat) (l : List Byte) : List Byte := (l ++ List.replicate n 0).take n
  let head := bytesLE 4 0x49474C53 ++ bytesLE 4 kind ++ bytesLE 8 body.length ++ bytesLE 4 0 ++ bytesLE 4 0 ++
    pad 32 Config.idEd ++ pad 1952 Config.idMl
  head ++ pad 64 (Config.edSign (head ++ body)) ++ pad 3309 (Config.mlSign (head ++ body)) ++ List.replicate 251 0 ++ body

/-- ATTESTATION_REQUEST of a function with a nonce; a malformed one gets the mailbox's invalid-input status (no bytes). -/
def execAttestationRequest (f : Nat) (nonce : List Byte) (s : State) : Result :=
  .next (s.emit (.bytes (if f ≤ 512 && nonce.length = 32 then signedObject 7 (s.reportBody f nonce) else [])))

/-! The system-register window (R140). -/

/-- Who a page acts as. -/
def State.pageAg (s : State) (p : Nat) : RegAg := ⟨0, p, if p = 0 then .h else .g, p - 1, (s.page p).sel⟩

/-- An error is recorded: the first one stays, later ones set MORE. -/
def State.pageError (s : State) (p reg cause : Nat) : State :=
  s.modPage p fun w =>
    if w.err.getLsbD 63 then { w with err := w.err ||| BitVec.ofNat 64 (2 ^ 62) }
    else { w with err := BitVec.ofNat 64 (2 ^ 63 + reg % 2 ^ 12 * 2 ^ 16 + cause % 256) }

/-- An access of a page by an agent, and whether it is complete: an access that waits, or whose command runs, is not. -/
def State.pageAccess (s : State) (p : Nat) (a : RegAg) (reg : Nat) (wr : Option Word) : Bool × State :=
  let say (v : Word) (s : State) : State := if wr.isNone then s.emit (.value reg v) else s
  if reg < 0x300 then (true, say 0 s)
  else match (match wr with
    | none => s.regRead a reg
    | some v => s.regWrite a reg v) with
  | .ok v s => (true, say v s)
  | .trap c => (true, say (BitVec.allOnes 64) (s.pageError p reg c))
  | .hold s => (false, s)

/-- An access of a page: of the error doubleword (number 0x1000), which a load clears once it is read and a store clears, or of a register. -/
def State.winTry (s : State) (e : Nat × Nat × Option Word) : Bool × State :=
  if e.2.1 = 0x1000 then
    let s := if e.2.2.isNone then s.emit (.value 0x1000 (s.page e.1).err) else s
    (true, s.modPage e.1 fun w => { w with err := 0 })
  else s.pageAccess e.1 (s.pageAg e.1) e.2.1 e.2.2

/-- An access of a page: it comes after those of the page that wait, for accesses of one core are performed in program order (R140). -/
def State.winAccess (s : State) (e : Nat × Nat × Option Word) : State :=
  let (done, s) := if s.plat.winq.any fun x => x.1 == e.1 then (false, s) else s.winTry e
  if done then s else s.onPlat fun p => { p with winq := p.winq ++ [e] }

/-- The window accesses that wait are tried again, each page's in order. -/
def State.settleWindow (s : State) : State := s.plat.winq.foldl State.winAccess (s.onPlat fun p => { p with winq := [] })

/-- WINDOW_ERROR_READ: the error doubleword, then cleared. -/
def execWindowErrorRead (page : Nat) (s : State) : Result := .next (if page < 514 then s.winAccess (page, 0x1000, none) else s)

/-- SYSREG_WINDOW_ACCESS. -/
def execSysregWindowAccess (page reg : Nat) (wr : Option Word) (s : State) : Result :=
  .next (if 514 ≤ page || 0x1000 < reg then s else s.winAccess (page, reg, wr))

/-! Register accesses that the table names as events: each takes the first of the accesses to come that is its own. -/

/-- Who makes a register access: page 0 for level H with the function shown, else the function's page. -/
def State.cmdAg (s : State) (c : RegCmd) : RegAg :=
  if c.h then ⟨0, 0, .h, 0, { (s.page 0).sel with fq := c.fn, mhf := c.fn }⟩ else s.pageAg (c.fn + 1)

/-- The first access to come that fits is made. -/
def State.command (s : State) (fits : Nat → Option Nat → Bool) : State :=
  let p (c : RegCmd) : Bool := fits c.reg (c.v.map BitVec.toNat) && decide (c.fn ≤ 512)
  match s.ext.cmds.find? p with
  | none => s
  | some c =>
    match s.pageAccess (if c.h then 0 else c.fn + 1) (s.cmdAg c) c.reg c.v with
    | (true, s) => s.onExt fun e => { e with cmds := e.cmds.eraseP p }
    | (false, s) => s

/-- A write of one of some registers whose value fits. -/
def wrote (regs : List Nat) (f : Nat → Bool) (reg : Nat) (v : Option Nat) : Bool :=
  regs.contains reg && match v with
    | some v => f v
    | none => false

/-- QUEUE_ENABLE (R131). -/
def execQueueEnable (s : State) : Result := .next (s.command (wrote [0xA24] fun v => v % 8 == 1))

/-- QUEUE_DISABLE (R132). -/
def execQueueDisable (s : State) : Result := .next (s.command (wrote [0xA24] fun v => v % 8 == 2))

/-- QUEUE_CANCEL (R132). -/
def execQueueCancel (s : State) : Result := .next (s.command (wrote [0xA24] fun v => v % 8 == 3))

/-- FAULT_RESUME (R237). -/
def execFaultResume (s : State) : Result := .next (s.command (wrote [0xA45] fun v => v % 4 == 1))

/-- FAULT_RESUME_ASID (R237). -/
def execFaultResumeAsid (s : State) : Result := .next (s.command (wrote [0xA45] fun v => v % 4 == 2))

/-- FAULT_FAIL (R237). -/
def execFaultFail (s : State) : Result := .next (s.command (wrote [0xA45] fun v => v % 4 == 3))

/-- RING_ENABLE (R450): RLBASE, JNLBASE, PFQCFG, TRBASE with EN. -/
def execRingEnable (s : State) : Result := .next (s.command (wrote [0x310, 0xA25, 0xA42, 0xA80] fun v => v % 2 == 1))

/-- RING_TAIL_WRITE (R452). -/
def execRingTailWrite (s : State) : Result := .next (s.command (wrote [0x312, 0xA13, 0xA27, 0xA44, 0xA82] fun _ => true))

/-- HOME_MAP_WRITE (R39, R65). -/
def execHomeMapWrite (s : State) : Result := .next (s.command (wrote (0xA00 :: rangeFrom 0x900 256) fun _ => true))

/-- INVFRAME (R117). -/
def execInvframe (s : State) : Result := .next (s.command (wrote [0xA15] fun v => v % 4 == 1))

/-- RELOAD (R117). -/
def execReload (s : State) : Result := .next (s.command (wrote [0xA15] fun v => v % 4 == 2))

/-- VIEW_FORMATION (R104). -/
def execViewFormation (s : State) : Result := .next (s.command (wrote [0x409] fun _ => true))

/-- DEBUG_STOP (R329). -/
def execDebugStop (s : State) : Result := .next (s.command (wrote [0xA5A] (· == 1)))

/-- DEBUG_STEP (R330). -/
def execDebugStep (s : State) : Result := .next (s.command (wrote [0xA5A] (· == 2)))

/-- DEBUG_RUN (R329). -/
def execDebugRun (s : State) : Result := .next (s.command (wrote [0xA5A] (· == 3)))

/-- DEBUG_RUN_CREW (R329). -/
def execDebugRunCrew (s : State) : Result := .next (s.command (wrote [0xA5A] (· == 4)))

/-- DEBUG_STOP_CREW (R329). -/
def execDebugStopCrew (s : State) : Result := .next (s.command (wrote [0xA5A] (· == 5)))

/-- DEBUG_EVENT_POP (R331): a read of DBGEVT. -/
def execDebugEventPop (s : State) : Result := .next (s.command fun r v => r == 0xA5B && v.isNone)

/-- DBGDATA_ACCESS (R328): a read or write of DBGDATA. -/
def execDbgdataAccess (s : State) : Result := .next (s.command fun r _ => r == 0xA5E)

/-- TOPDOWN_SNAP (R335). -/
def execTopdownSnap (s : State) : Result := .next (s.command (wrote [0xA90] fun v => bitOf v 15))

end Sys2Proof.Machine
end

