-- ==== Sys2Proof/Machine/TaskEv.lean ====
section
/-! DEFINITION. The dispatch interface of a die: ready tasks, bind records, launches, core contexts (spec/07 R144 to R146 and R154 to
R165; spec/10 R218; spec/14 R301, R302). The firmware's stores and loads are events. -/

namespace Sys2Proof.Machine

def State.disp (s : State) (d : Nat) : Dispatch := s.task.disp.getD Dispatch.reset d

def State.modDisp (s : State) (d : Nat) (f : Dispatch → Dispatch) : State :=
  s.onTask fun t => { t with disp := t.disp.modD Dispatch.reset d f }

/-- The address of a register in a dispatch core's map (R155), with the die above it. -/
def dispatchAt (d off : Nat) : Nat := 2 ^ 40 * d + 2 ^ 32 + off

/-! Ready tasks (R154, R155). -/

/-- Tasks launch: the module is in Run, or in Shutdown while it drains (R23). -/
def State.mayLaunch (s : State) : Bool :=
  let p := s.plat.power
  p.st == .run || (p.st == .shutdown && !p.saved && !p.hot)

/-- The firmware of a die binds tasks: the die is in service (R144), no die is lost (R76), and tasks launch (R23). -/
def State.binding_ (s : State) (d : Nat) : Bool := s.inService d && s.mayLaunch && !s.pkg.dies.any fun k => k.drst == 8

/-- A task is ready (R154). -/
def State.taskReady (s : State) (t : TaskSlot) : Bool := t.st == .waiting && t.edges.isEmpty && s.binding_ t.die

/-- The tasks that READY0 of a die may give next: of each queue the one accepted first. -/
def State.offered (s : State) (d : Nat) : List TaskSlot :=
  let l := s.unbound fun t => t.die == d && !t.popped && s.taskReady t
  l.filter fun t => t.queue.isNone || (l.find? fun u => u.queue == t.queue).map (·.slot) == some t.slot

/-- READY0 (R155). -/
def TaskSlot.readyWord (t : TaskSlot) : Word :=
  BitVec.ofNat 64 (2 ^ 63 + t.rec_.prio * 2 ^ 60 + t.fn * 2 ^ 50 + bitsOf t.rec_.ctrl 9 0 * 2 ^ 40 + t.rec_.regs8 * 2 ^ 35 +
    t.rec_.scratch * 2 ^ 29 + t.rec_.excl.toNat * 2 ^ 28 + t.rec_.assay.toNat * 2 ^ 27 + t.slot)

def State.modSlot (s : State) (slot : Nat) (f : TaskSlot → TaskSlot) : State :=
  s.onTask fun k => { k with slots := k.slots.map fun e => if e.1 == slot then (e.1, f e.2) else e }

/-- READY_POP: a load of READY0. -/
def execReadyPop (die : Nat) (s : State) : Result :=
  .next (match s.offered die with
    | [] => s.emit (.value (dispatchAt die 0) 0)
    | t :: ts =>
      let (t, s) := chooseFrom (t :: ts) t s
      let s := s.modSlot t.slot fun t => { t with popped := true }
      (s.modDisp die fun d => { d with ready1 := t.launch }).emit (.value (dispatchAt die 0) t.readyWord))

/-- BINDRES_READ. -/
def execBindresRead (die : Nat) (s : State) : Result :=
  .next (s.emit (.value (dispatchAt die 0x20) (BitVec.ofNat 64 (s.disp die).bindres)))

/-! Policy (R158). -/

/-- The cost of a task. -/
def laneCost (n : Nat) (excl : Bool) : Nat := if 32 ≤ n || excl then (n + 31) / 32 * 32 else n

def TaskSlot.cost (t : TaskSlot) : Nat := laneCost t.rec_.threads t.rec_.excl

/-- Lanes a function holds bound on a die. -/
def State.lanesHeld (s : State) (d fn : Nat) : Nat :=
  ((s.core.crews.filter fun c => c.fn == fn && dieOf c.core == d && !isCtl c.core).map fun c => laneCost c.n c.excl).foldl (· + ·) 0

/-- QUANTUM, LANECAP and PREEMPT of a function as the firmware of a die has read them; the default policy while EN = 0, and until it has read the
table. -/
def State.policyOf (s : State) (d fn : Nat) : Nat × Nat × Nat :=
  match if s.task.schEn then (s.disp d).policy else [] with
  | [] => (32, 0, 0)
  | p => p.getD fn (0, 0, 0)

/-- The function of a task has a QUANTUM, and LANECAP leaves room for it. -/
def State.hasQuota (s : State) (d : Nat) (t : TaskSlot) : Bool :=
  let (q, cap, _) := s.policyOf d t.fn
  q != 0 && (cap == 0 || decide (s.lanesHeld d t.fn + t.cost ≤ cap))

/-- An entry of the policy table. -/
def policyOfBytes (b : List Byte) : Nat × Nat × Nat :=
  let f (o n : Nat) : Nat := ofBytesLE ((b.drop o).take n)
  if f 9 7 != 0 then (0, 0, 0) else (f 0 4, f 4 4, f 8 1)

/-- The dies whose firmware has a table to read. -/
def State.rereads (s : State) : List Nat := (rangeFrom 0 4).filter fun d => s.task.schEn && (s.pkg.die d).drst == 0

/-- The firmware of a die reads every entry. -/
def State.readPolicy (s : State) (d : Nat) : State :=
  let (b, s) := s.physRead s.task.schbase 8208
  s.modDisp d fun x => { x with policy := (rangeFrom 0 513).map fun f => policyOfBytes ((b.drop (16 * f)).take 16), polAt := s.cycleOf d }

/-- SCHEDULE_POLICY_REREAD: the firmware of a die reads every entry. -/
def execSchedulePolicyReread (s : State) : Result :=
  .next (match s.rereads with
    | [] => s
    | d :: ds => let (d, s) := chooseFrom (d :: ds) d s; s.readPolicy d)

/-- Every entry has been read within the last 1,900,000 cycles of the die (R158). -/
def State.policyDue (s : State) : State :=
  (s.rereads.filter fun d => decide (1900000 ≤ (s.cycleOf d + 2 ^ 64 - (s.disp d).polAt) % 2 ^ 64)).foldl State.readPolicy s

/-! Placement (R145). -/

/-- Where a crew stands on a core: rows, lanes, registers, scratchpad units; `whole` rows take no other crew. -/
structure Spot where
  core    : Nat
  row0    : Nat
  rows    : Nat
  lbase   : Nat
  n       : Nat
  regbase : Nat
  regs    : Nat
  scrbase : Nat
  scr     : Nat
  whole   : Bool
deriving DecidableEq, Repr

def rowsFor (n : Nat) : Nat := (n + 31) / 32

def Crew.spot (c : Crew) : Spot :=
  ⟨c.core, c.row0, rowsFor c.n, c.lbase, c.n, c.regbase, c.nregs / 8, c.scrbase, c.scrUnits, c.excl || decide (32 ≤ c.n)⟩

def BindRec.spot (b : BindRec) (r : TaskRec) : Spot :=
  ⟨b.core, b.row0, rowsFor r.threads, b.lbase, r.threads, b.regbase, r.regs8, b.scrbase, r.scratch, r.excl || decide (32 ≤ r.threads)⟩

/-- Threads of a crew in a lane. -/
def Spot.inLane (p : Spot) (l : Nat) : Nat :=
  if p.n < 32 then (if p.lbase ≤ l && l < p.lbase + p.n then 1 else 0)
  else p.n / 32 + if l < p.n % 32 then 1 else 0

/-- Two placements on a core meet in a slot, or in a row that one holds whole. -/
def Spot.meetSlots (a b : Spot) : Bool :=
  decide (a.row0 < b.row0 + b.rows) && decide (b.row0 < a.row0 + a.rows) &&
    (a.whole || b.whole || (rangeFrom 0 32).any fun l => decide (0 < a.inLane l) && decide (0 < b.inLane l))

/-- Two placements meet in a register. -/
def Spot.meetRegs (a b : Spot) : Bool :=
  (rangeFrom 0 32).any fun l =>
    let x := a.regs * a.inLane l
    let y := b.regs * b.inLane l
    decide (0 < x) && decide (0 < y) && decide (a.regbase < b.regbase + y) && decide (b.regbase < a.regbase + x)

def Spot.meetScr (a b : Spot) : Bool :=
  decide (0 < a.scr) && decide (0 < b.scr) && decide (a.scrbase < b.scrbase + b.scr) && decide (b.scrbase < a.scrbase + a.scr)

def Spot.meets (a b : Spot) : Bool := a.meetSlots b || a.meetRegs b || a.meetScr b

/-- The bind records of assay tasks that wait for the other. -/
def State.halfBound (s : State) : List (TaskSlot × BindRec) :=
  ((s.task.slots.map (·.2)).filter fun t => t.st == .half).flatMap fun t => t.binds.map fun b => (t, b)

/-- A placement names something that is occupied. -/
def State.occupied (s : State) (p : Spot) : Bool :=
  (s.core.crews.any fun c => c.core == p.core && (s.coreAt p.core).active == some c.ctx && p.meets c.spot) ||
    (s.halfBound.any fun e => e.2.core == p.core && p.meets (e.2.spot e.1.rec_)) ||
    (s.coreAt p.core).units.any fun u => decide (p.scrbase ≤ u.1) && decide (u.1 < p.scrbase + p.scr)

/-! Checks of a bind record (R157, R301). -/

/-- BINDW0 as a record. -/
def bindOf (d w : Nat) : BindRec :=
  let cl := 40 * d + bitsOf w 25 20
  ⟨false, bitOf w 53, bitsOf w 52 45, bitsOf w 44 39, bitsOf w 38 33, bitsOf w 32 28, 5 * cl + bitsOf w 27 26, cl⟩

/-- CBIND as a record. -/
def cbindOf (d w : Nat) : BindRec :=
  let cl := 40 * d + bitsOf w 25 20
  ⟨true, bitOf w 53, 0, 0, 0, 0, 5 * cl + 4, cl⟩

/-- The task that a record names: its launch number matches and it may still be bound. -/
def State.bindTask (s : State) (d w w1 : Nat) : Option TaskSlot :=
  (s.task.slots.find (bitsOf w 19 0)).filter fun t =>
    t.launch == bitsOf w1 31 0 && t.die == d && (s.taskReady t || (t.st == .half && s.binding_ d))

/-- The class field of the header at ENTRY, under the task's ASID; none where the read faults. -/
def State.entryClass (s : State) (t : TaskSlot) : Option Nat :=
  if 2 ^ 48 ≤ t.rec_.entry then none
  else match walk s t.fn t.asid t.rec_.entry with
    | .error _ => none
    | .ok e =>
      let pa := e.pa + t.rec_.entry % e.size
      if !permOk e.attr t.lvl .x || (paFault s pa).isSome || offHome s (homeOf s t.rec_.entry).1 then none
      else (s.mem.entry pa).map fun h => bitsOf h 59 57

/-- A TWIN that breaks R157, or a second record of one kind. -/
def TaskSlot.twinBad (t : TaskSlot) (b : BindRec) : Bool :=
  (b.twin && !t.rec_.assay) || t.binds.any fun o => o.twin == b.twin || o.cluster == b.cluster

/-- The cluster takes crews: enabled, not power-gated. -/
def State.clusterTakes (s : State) (d k : Nat) : Bool := s.clusterOn d (k % 40) && (s.clusterAt k).power != 2

/-- CODE 2 for a SIMT record. -/
def State.bindBad (s : State) (d w : Nat) (t : TaskSlot) : Bool :=
  let b := bindOf d w
  let n := t.rec_.threads
  decide (40 ≤ bitsOf w 25 20) || decide (64 < b.row0 + rowsFor n) || (decide (32 ≤ n) && b.lbase != 0) ||
    (decide (n < 32) && decide (32 < b.lbase + n)) || decide (256 < b.regbase + rowsFor n * t.rec_.regs8) ||
    decide (47 < b.scrbase) || (decide (0 < t.rec_.scratch) && decide (8 * (s.coreAt b.core).spk < b.scrbase + t.rec_.scratch)) ||
    t.twinBad b ||
    s.entryClass t == some 1

/-- CODE 2 for a control record. -/
def State.cbindBad (s : State) (d w : Nat) (t : TaskSlot) : Bool :=
  decide (40 ≤ bitsOf w 25 20) || t.rec_.threads != 1 || t.rec_.regs8 != 8 || t.rec_.scratch != 0 || t.twinBad (cbindOf d w) ||
    s.entryClass t == some 0

/-- CODE 1 for a record that names a cluster of the die. -/
def State.bindBusy (s : State) (d : Nat) (t : TaskSlot) (b : BindRec) : Bool :=
  b.cluster / 40 == d && (!s.clusterTakes d b.cluster ||
    if b.ctl then s.core.crews.any (fun c => c.core == b.core) || s.halfBound.any fun e => e.2.core == b.core
    else s.occupied (b.spot t.rec_))

/-! The firmware's choice (R159). -/

/-- A placement on a core that breaks no limit and meets nothing. Rows, registers and scratchpad units do not limit one another. -/
def State.fitsCore (s : State) (core : Nat) (r : TaskRec) : Bool :=
  let at_ (row lb rb sb : Nat) : Spot := ⟨core, row, rowsFor r.threads, lb, r.threads, rb, r.regs8, sb, r.scratch, r.excl || decide (32 ≤ r.threads)⟩
  let others := ((s.core.crews.filter fun c => c.core == core && (s.coreAt core).active == some c.ctx).map Crew.spot) ++
    (s.halfBound.filter fun e => e.2.core == core).map fun e => e.2.spot e.1.rec_
  let scr := (rangeFrom 0 48).any fun sb => r.scratch = 0 || (decide (sb + r.scratch ≤ 8 * (s.coreAt core).spk) &&
    !(others.any (at_ 0 0 0 sb).meetScr || (s.coreAt core).units.any fun u => decide (sb ≤ u.1) && decide (u.1 < sb + r.scratch)))
  scr && (rangeFrom 0 32).any fun lb => (if 32 ≤ r.threads then lb = 0 else lb + r.threads ≤ 32) &&
    ((rangeFrom 0 64).any fun row => decide (row + rowsFor r.threads ≤ 64) && !others.any (at_ row lb 0 0).meetSlots) &&
    (rangeFrom 0 256).any fun rb => decide (rb + rowsFor r.threads * r.regs8 ≤ 256) && !others.any (at_ 0 lb rb 0).meetRegs

/-- A placement for a task exists on its die: a free control core for one whose ENTRY is control code, else a place on a SIMT core. -/
def State.fits (s : State) (t : TaskSlot) : Bool :=
  (rangeFrom 0 40).any fun k =>
    let cl := 40 * t.die + k
    s.clusterTakes t.die cl &&
      (if s.entryClass t == some 1 then
        !(s.core.crews.any (fun c => c.core == 5 * cl + 4) || s.halfBound.any fun e => e.2.core == 5 * cl + 4)
      else (rangeFrom (5 * cl) 4).any fun core => s.fitsCore core t.rec_)

/-- The ready tasks of a die that are not bound, and those that wait for their other record. -/
def State.readyTasks (s : State) (d : Nat) : List TaskSlot := s.unbound fun t => t.die == d && (s.taskReady t || (t.st == .half && s.binding_ d))

/-- The oldest of the ready tasks of a class and function: the one accepted first. -/
def State.oldestTask (s : State) (l : List TaskSlot) (c f : Nat) : Option TaskSlot :=
  (l.filter fun t => t.rec_.prio == c && t.fn == f).foldl (fun (b : Option TaskSlot) t => match b with
    | some o => if s.taskAge o < s.taskAge t then some t else b
    | none => some t) none

/-- A credit of a class and function. -/
def Dispatch.credit (d : Dispatch) (c f : Nat) : Nat := d.deficit.getD 0 (1024 * c + f)

/-- A task of a higher class is ready that fits the free resources (R159). -/
def State.outranked (s : State) (d c : Nat) (l : List TaskSlot) : Bool :=
  l.any fun y => decide (c < y.rec_.prio) && s.hasQuota d y && s.fits y

/-- A task that the firmware could bind as soon as its function's credit covers it. -/
def State.placeable (s : State) (d : Nat) (l : List TaskSlot) (t : TaskSlot) : Bool := s.hasQuota d t && !s.outranked d t.rec_.prio l && s.fits t

/-- The classes and functions with a ready task, in the order of the listing of R159: the rotation goes upward by function (DESIGN CHOICE, log
90), from the visit after the last one on. -/
def State.rotation (s : State) (d : Nat) (l : List TaskSlot) : List (Nat × Nat) :=
  let ps := (rangeFrom 0 8).flatMap fun k => (setUnion [] ((l.filter fun t => t.rec_.prio == 7 - k).map (·.fn))).map fun f => (7 - k, f)
  let key (p : Nat × Nat) : Nat := 1024 * (7 - p.1) + p.2
  (ps.filter fun p => decide (key (s.disp d).turn < key p)) ++ ps.filter fun p => decide (key p ≤ key (s.disp d).turn)

/-- The firmware goes from visit to visit, crediting each function it visits with its QUANTUM, until one whose oldest task it can bind: one of
those that can be placed and whose cost the credit covers. -/
def State.visits (s : State) (d : Nat) (l : List TaskSlot) (ok : List (Nat × Nat)) : Nat → List (Nat × Nat) → Dispatch → Option (Nat × Nat) × Dispatch
  | 0, _, x => (none, x)
  | _, [], x => (none, x)
  | n + 1, p :: ps, x =>
    let x := { x with deficit := x.deficit.put (1024 * p.1 + p.2) (x.credit p.1 p.2 + (s.policyOf d p.2).1) }
    if ok.contains p && (s.oldestTask l p.1 p.2).any fun t => decide (t.cost ≤ x.credit p.1 p.2) then (some p, x) else s.visits d l ok n (ps ++ [p]) x

/-- The visit that goes on, where it can still bind a task. -/
def State.visitHolds (s : State) (d : Nat) (l : List TaskSlot) : Bool :=
  let x := s.disp d
  x.visit && (s.oldestTask l x.turn.1 x.turn.2).any fun y => decide (y.cost ≤ x.credit x.turn.1 x.turn.2) && s.placeable d l y

/-- The credit that the firmware has when it binds a task, or none where the order of R159 has another task before it: of a higher class that
fits, of its own function and class, or of the function whose visit it is. A record that is submitted names a placement for its task. -/
def State.drr (s : State) (d : Nat) (t : TaskSlot) : Option Dispatch :=
  let l := s.readyTasks d
  let c := t.rec_.prio
  let x := s.disp d
  if s.outranked d c l || !s.hasQuota d t || (s.oldestTask l c t.fn).map (·.slot) != some t.slot then none
  else if x.visit && x.turn == (c, t.fn) && t.cost ≤ x.credit c t.fn then some x
  else if s.visitHolds d l then none
  else
    let ps := s.rotation d l
    let ok := ps.filter fun p => p == (c, t.fn) || (s.oldestTask l p.1 p.2).any (s.placeable d l)
    match s.visits d l ok (1025 * ps.length) ps x with
    | (some p, x) => if p = (c, t.fn) then some { x with turn := p, visit := true } else none
    | (none, _) => none

/-- The firmware goes round between two binds (R159): a visit that can bind nothing ends, and while no ready task can be placed it makes as many
visits as it has time for, which is free (DESIGN CHOICE, log 90). -/
def State.goRound (s : State) (d : Nat) : State :=
  let l := s.readyTasks d
  if l.isEmpty then s
  else
    let s := if s.visitHolds d l then s else s.modDisp d fun x => { x with visit := false }
    if l.any (s.placeable d l) then s
    else
      let ps := s.rotation d l
      let (n, s) := choose (2 ^ 32) s
      let (m, s) := choose (ps.length + 1) s
      let credit (x : Dispatch) (k : Nat) (p : Nat × Nat) : Dispatch :=
        { x with deficit := x.deficit.put (1024 * p.1 + p.2) (x.credit p.1 p.2 + k * (s.policyOf d p.2).1) }
      s.modDisp d fun x =>
        let x := (ps.take m).foldl (credit · (n + 1)) ((ps.drop m).foldl (credit · n) x)
        { x with turn := if m = 0 then (if n = 0 then x.turn else ps.getLastD x.turn) else (ps.take m).getLastD x.turn }

/-- The firmware of a die may bind a task now (R158, R159). An assay task whose first record is bound has had its turn. -/
def State.policyAllows (s : State) (d : Nat) (t : TaskSlot) : Bool := s.hasQuota d t && (t.st == .half || (s.drr d t).isSome)

/-- A task is bound: its cost leaves its function's credit, which is dropped with the function's last ready task of the class. -/
def State.spend (s : State) (d : Nat) (t : TaskSlot) : State :=
  match if t.st == .half then none else s.drr d t with
  | none => s
  | some x =>
    let c := t.rec_.prio
    let more := (s.readyTasks d).any fun y => y.slot != t.slot && y.rec_.prio == c && y.fn == t.fn
    s.modDisp d fun _ => { x with deficit := x.deficit.put (1024 * c + t.fn) (if more then x.credit c t.fn - t.cost else 0) }

/-- A ready task may pre-empt the contexts of a core: it cannot be placed, its function's PREEMPT allows it, and every resident crew is of a lower
class (R159). The firmware goes by this when it stores a SWAP; the core obeys any (log 127). -/
def State.preempts (s : State) (d core : Nat) : Bool :=
  let crews := s.core.crews.filter fun c => c.core == core && (s.coreAt core).active == some c.ctx
  (s.readyTasks d).any fun t => bitOf (s.policyOf d t.fn).2.2 t.rec_.prio && crews.all (fun c => decide (c.task.prio < t.rec_.prio)) && !s.fits t

/-! Launch (R146, R302). -/

/-- The context that receives a crew: the core's active one, or a new one where it has none. -/
def State.contextFor (s : State) (core : Nat) : Nat × State :=
  if isCtl core then (0, s)
  else match (s.coreAt core).active with
    | some c => (c, s)
    | none =>
      let c := s.core.nextCtx
      (c, (s.onCore fun k => { k with nextCtx := c + 1 }).modCoreAt core fun k => { k with active := some c })

/-- The exchange keys held in the context of a core that would receive a crew. -/
def State.keysHeld (s : State) (core : Nat) : List Nat :=
  (s.core.crews.filter fun c => c.core == core && (isCtl core || (s.coreAt core).active == some c.ctx)).map (·.exk)

/-- A default key that is free in every receiving context: which of them is free. -/
def State.defaultKey (s : State) (cores : List Nat) : Nat × State :=
  let held := cores.flatMap s.keysHeld
  let (k, s) := choose 32768 s
  (((rangeFrom k (held.length + 1)).map fun i => 0x8000 + i % 32768).find? (fun e => !held.contains e) |>.getD 0x8000, s)

/-- Thread i of a crew at launch. -/
def launched (t : TaskSlot) (b : BindRec) (crew ctx exk now uid i : Nat) : Thread :=
  let n := t.rec_.threads
  let lane := if b.ctl then 0 else if n < 32 then (b.lbase + i) % 32 else i % 32
  { Thread.none_ with
    uid := uid
    id := ⟨b.core, ctx, if b.ctl then 0 else b.row0 + i / 32, lane, crew, i, b.twin.toNat, t.launch, t.asid, exk, t.rec_.prio, none, t.fn⟩
    lvl := t.lvl
    pos := ⟨t.rec_.entry, 0⟩
    ready := now }

/-- The lace bits of a thread at launch: member of L0 only. -/
def State.launchLaces (s : State) (u : Nat) : State :=
  let t := s.thread u
  if t.isCtl then s
  else (rangeFrom 0 12).foldl (fun (s : State) k =>
    if k = 0 || (s.lace t k).mem.getLsbD t.id.lane || (s.lace t k).arr.getLsbD t.id.lane then
      s.modLace t k fun l => { l with mem := setLane l.mem t.id.lane (k == 0), arr := setLane l.arr t.id.lane false }
    else s) s

/-- The scratchpad window of a crew: owned, and every byte zero. -/
def State.launchScr (s : State) (core asid ctx base n : Nat) : State :=
  let lo := core * 2 ^ 19 + base * 8192
  let hi := lo + n * 8192
  let s := s.modCoreAt core fun k => { k with units := (rangeFrom base n).foldl (fun m u => m.put u (asid, ctx)) k.units }
  s.onMem fun m => { m with
    scr := m.scr.filter fun e => !(decide (lo ≤ e.1) && decide (e.1 < hi))
    scrPoi := m.scrPoi.filter fun w => !(decide (lo ≤ 4 * w) && decide (4 * w < hi)) }

/-- One copy of a task is launched from a record. -/
def State.launchCrew (s : State) (t : TaskSlot) (b : BindRec) (exk : Nat) (peer : Option Nat) : State :=
  let (ctx, s) := s.contextFor b.core
  let cu := s.core.nextCrew
  let u0 := s.core.nextThr
  let n := t.rec_.threads
  let units := if b.ctl then 0 else t.rec_.scratch
  let c : Crew := {
    uid := cu, base := u0, slot := t.slot, launch := t.launch, fn := t.fn, asid := t.asid, exk := exk, core := b.core, ctx := ctx, row0 := b.row0,
    lbase := b.lbase, regbase := b.regbase, nregs := 8 * t.rec_.regs8, scrbase := b.scrbase, scrUnits := units, n := n, lvl := t.lvl,
    task := t.rec_, copy := b.twin.toNat, peer := peer, qb := [], claims := [], assay := Assay.reset, excl := t.rec_.excl }
  let now := s.cycleOf (dieOf b.core)
  let s := s.onCore fun k => { k with
    crews := k.crews ++ [c]
    threads := k.threads ++ (rangeFrom 0 n).map fun i => launched t b cu ctx exk now (u0 + i) i
    nextCrew := cu + 1
    nextThr := u0 + n }
  let s := if b.ctl then s.modCluster b.cluster fun k => { k with mx := Mx.reset }
    else if units = 0 then s else s.launchScr b.core t.asid ctx b.scrbase units
  (rangeFrom u0 n).foldl (fun (s : State) u => (s.launchLaces u).knowAll u) s

/-- TASK_LAUNCH (R146): every copy, the primary first, then the journal entry of kind 2. -/
def State.launchTask (s : State) (t : TaskSlot) (bs : List BindRec) : State :=
  let bs := bs.filter (!·.twin) ++ bs.filter (·.twin)
  let (exk, s) := if t.exkm then (t.exkv, s) else s.defaultKey (bs.map (·.core))
  let c0 := s.core.nextCrew
  let s := s.modSlot t.slot fun t => { t with st := .bound, binds := [] }
  let s := bs.foldl (fun (s : State) b => s.launchCrew t b exk (if t.rec_.assay then some (if b.twin then c0 else c0 + 1) else none)) s
  match bs with
  | [] => s
  | b :: _ => s.journal t.fn ⟨0, []⟩ ⟨2, 0, t.launch, t.lq, t.rec_.args, t.die, b.ctl,
      b.cluster % 40 + if b.ctl then 0 else 64 * (b.core % 5)⟩

/-- A record that passed its checks: the task launches, or an assay task waits for its other record. -/
def State.bindAccept (s : State) (t : TaskSlot) (b : BindRec) : State :=
  if t.rec_.assay && t.binds.isEmpty then s.modSlot t.slot fun t => { t with st := .half, binds := [b] }
  else s.launchTask t (t.binds ++ [b])

/-- A submitted record is checked (R157). Where several conditions hold, which CODE is answered is free. A record for which the firmware's
policy and order leave no room is not submitted (R158, R159). -/
def State.submit (s : State) (d w w1 : Nat) (b : BindRec) (reserved : Bool) (bad : TaskSlot → Bool) : State :=
  let t? := s.bindTask d w w1
  if (t?.map (s.policyAllows d)) == some false then s
  else
    let codes := (if reserved || (t?.map bad) == some true then [2] else []) ++ match t? with
      | none => [3]
      | some t => if s.bindBusy d t b then [1] else []
    let (code, s) := chooseFrom codes 0 s
    let s := s.modDisp d fun x => { x with bindres := code }
    match code, t? with
    | 0, some t => (s.spend d t).bindAccept t b
    | _, _ => s

/-- BIND_SUBMIT: stores of BINDW1 and BINDW0. -/
def execBindSubmit (die : Nat) (w w1 : Word) (s : State) : Result :=
  .next (if 4 ≤ die then s
  else
    let s := s.modDisp die fun d => { d with bindw1 := w1 }
    if !bitOf w.toNat 63 then s
    else s.submit die w.toNat w1.toNat (bindOf die w.toNat) (bitsOf w.toNat 62 54 != 0 || decide (2 ^ 32 ≤ w1.toNat)) (s.bindBad die w.toNat))

/-- CBIND_SUBMIT: stores of BINDW1 and CBIND. -/
def execCbindSubmit (die : Nat) (w w1 : Word) (s : State) : Result :=
  .next (if 4 ≤ die then s
  else
    let s := s.modDisp die fun d => { d with bindw1 := w1 }
    if !bitOf w.toNat 63 then s
    else s.submit die w.toNat w1.toNat (cbindOf die w.toNat)
      (bitsOf w.toNat 62 54 != 0 || bitsOf w.toNat 52 26 != 0 || decide (2 ^ 32 ≤ w1.toNat)) (s.cbindBad die w.toNat))

/-! SPLIT (R218). -/

/-- SPLIT_SET: the store takes effect only while no unit of the core is owned and the value is at most 5; before a change the core's L1 is
written back and invalidated (R218). Its dirty sectors, the unpublished stores, go to their homes as staged data of their domains, which keep
them (R221). -/
def execSplitSet (die ix : Nat) (v : Word) (s : State) : Result :=
  let core := coreNo die (ix / 4) (ix % 4)
  let n := bitsOf v.toNat 2 0
  .next (if die < 4 && ix < 160 && (s.coreAt core).units.isEmpty && n ≤ 5 then s.modCoreAt core fun k => if k.spk = n then k else { k with spk := n, l1 := [] } else s)

/-! Core contexts (R162 to R165). -/

/-- The threads of a context of a core. -/
def State.ctxThreads (s : State) (core ctx : Nat) : List Thread :=
  s.core.threads.filter fun t => t.id.core == core && t.id.ctx == ctx && !t.isCtl

def State.ctxCrews (s : State) (core ctx : Nat) : List Crew := s.core.crews.filter fun c => c.core == core && c.ctx == ctx && !isCtl c.core

/-- A group is split at an instruction boundary: members that have executed the instruction stand after it (R165, R199). -/
def State.splitGroup (s : State) (g : Group) : State :=
  let s := g.members.foldl (fun (s : State) u =>
    let done := match g.todo with
      | some l => !l.contains u
      | none => false
    s.modThread u fun t =>
      let p := if done then t.after else g.pos
      { t with run := .ready, yielded := if done then t.hinted else t.yielded, pos := p, ready := s.now t, clause := if p.i = 0 then [] else t.clause }) s
  s.onCore fun k => { k with groups := k.groups.filter (· != g) }

/-- A wait of the wait table (R183). -/
def WaitKind.tabled : WaitKind → Bool
  | .line => true
  | .bwait => true
  | .bpwait => true
  | .bsync => true
  | .fget => true
  | .send => true
  | .cwait => true
  | _ => false

/-- What a swap does to a thread that goes out (R165): LINEWAIT has its reason, the watch is disarmed, table entries are free. -/
def State.threadOut (s : State) (u : Nat) : State :=
  let s := match (s.thread u).run with
    | .waiting w => if w.kind == WaitKind.line then s.endLinewait u w.b 3
        else s.modThread u fun t => { t with run := .waiting { w with table := false, poll := false } }
    | _ => s
  s.disarm u

/-- A publication of a swap that stopped: a fault takes the thread, and its record holds the stores (R238); for the host's copy or a die that is
offline the swap waits. -/
def State.outStop (s : State) (u : Nat) (p : PubStop) : Bool × State :=
  match s.pubStop u p with
  | (.stall, s) => (false, s)
  | (f, s) => (true, s.applyFlow u f)

/-- The swap is a boundary at device scope for every outgoing domain, that of a thread's level and the other of its two (R444), but those of assay
copies (R165, R323). Whether the boundary is made. -/
def State.boundaryOut (s : State) (u : Nat) : Bool × State :=
  match s.crew? (s.thread u).id.crew with
  | none => (true, s)
  | some c =>
    if c.peer.isSome then (true, s)
    else match s.boundary u .dev with
      | (some p, s) => s.outStop u p
      | (none, s) =>
        let s := s.onLinks fun l => { l with held := l.held.filter fun h => h.who != .pub u }
        let t := s.thread u
        let k := s.otherDom t
        match (s.mem.dom k).stores.filter fun e => !(e.2.late || e.2.store) with
        | [] => (true, s)
        | l => match s.publish { s.agent t .ls with dom := k } .dev [] l with
          | (none, s) => (true, (s.seal u k (s.thread u).seen.know .dev).2)
          | (some p, s) => s.outStop u p

/-- The boundaries of an outgoing context, up to one that waits. -/
def State.boundariesOut (s : State) (core : Nat) : Bool × State :=
  match (s.coreAt core).active with
  | none => (true, s)
  | some c => (s.ctxThreads core c).foldl (fun (a : Bool × State) t => if a.1 then a.2.boundaryOut t.uid else a) (true, s)

/-- What becomes of a thread that comes in after the cycle `out` of the die it left: its time out is not counted (R201), and its wait
begins anew (R165). -/
def State.threadIn (s : State) (out u : Nat) : State :=
  let t := s.thread u
  let d := (out + 2 ^ 64 - t.ready) % 2 ^ 64
  let age := if d < 2 ^ 63 then d else 0
  let s := s.modThread u fun t => { t with ready := (s.now t + 2 ^ 64 - age) % 2 ^ 64 }
  match t.run with
  | .waiting w =>
    let full := decide (512 ≤ s.tableUsed (clusterOf t.id.core))
    let tab := w.kind.tabled
    let s := s.modThread u fun t => { t with run := .waiting { w with start := s.now t, table := tab && !full, poll := tab && full } }
    if w.kind == WaitKind.send && t.mark == some 0 then
      let back (q : Port) : Port := { q with sendq := q.sendq.filter (fun e => e.1 != u) ++ q.sendq.filter fun e => e.1 == u }
      let s := s.onTask fun k => { k with ports := k.ports.map fun e => if e.1 == w.a then (e.1, back e.2) else e }
      s.portEvent (w.a / 256)
    else s
  | _ => s

/-- The saved image that holds a context, with its base. -/
def State.imageOf (s : State) (ctx : Nat) : Option (Nat × Saved) := s.core.saved.find? fun e => e.2.ctx == ctx

/-- The context of an image is in some bank. -/
def State.inBank (s : State) (ctx : Nat) : Bool := s.core.cores.any fun e => e.2.active == some ctx || e.2.shadow == some ctx

/-- The save area is homed on the core's die (R162). -/
def badArea (s : State) (core area : Nat) : Bool := (homePa s core area).1 == dieOf core

/-- The units of a core that a context owns. -/
def State.unitsOf (s : State) (core ctx : Nat) : List Nat := ((s.coreAt core).units.filter fun e => e.2.2 == ctx).map (·.1)

/-- CTXSTAT of a core (R162). -/
def Core.stat (k : Core) : Nat := k.swaps * 2 ^ 32 + k.err * 2 ^ 8 + k.active.isSome.toNat * 2 ^ 4 + k.shSt

def State.ctxError (s : State) (core : Nat) (codes : List Nat) : State :=
  let (e, s) := chooseFrom codes 0 s
  s.modCoreAt core fun k => { k with err := e }

/-- The outgoing context goes to the shadow bank and begins to spill; the shadow's context comes in. The outgoing domains have had their
boundary. -/
def State.swapBanks (s : State) (core area mask : Nat) : State :=
  let k := s.coreAt core
  let out := s.cycleOf (dieOf core)
  let s := (s.core.groups.filter fun g => g.core == core).foldl State.splitGroup s
  let s := match k.active with
    | none => s
    | some c =>
      let us := (s.ctxThreads core c).map fun (t : Thread) => t.uid
      let s := us.foldl State.threadOut s
      let mine := s.unitsOf core c
      let sp := mine.filter fun u => bitOf mask u
      s.onCore fun x => { x with saved := x.saved.put area ⟨core, sp == mine, c, out, sp, [], []⟩ }
  let s := s.modCoreAt core fun k => { k with
    active := k.shadow, shadow := k.active, shSt := if k.active.isSome then 3 else 0, err := 0, swaps := Nat.min (k.swaps + 1) (2 ^ 32 - 1),
    td := k.td.put 29 96 }
  match k.shadow with
  | none => s
  | some c => match s.imageOf c with
    | none => s
    | some (base, m) =>
      let s := s.onCore fun x => { x with saved := x.saved.del base }
      (s.ctxThreads core c).foldl (fun (s : State) t => s.threadIn m.at_ t.uid) s

/-- SWAP (R162): it waits while the shadow bank fills or spills, and until its boundary is made (R165). -/
def State.ctxSwap (s : State) (d : Nat) (w area : Word) (core : Nat) : State :=
  let k := s.coreAt core
  let a := bitsOf area.toNat 51 16 * 2 ^ 16
  let later (s : State) : State := s.modDisp d fun x => { x with pend := x.pend ++ [(w, area)] }
  if k.shSt = 1 || k.shSt = 3 then later s
  else
    let codes := (if badArea s core a then [3] else []) ++ if s.halfBound.any fun e => e.2.core == core then [4] else []
    if !codes.isEmpty then s.ctxError core codes
    else match s.boundariesOut core with
      | (true, s) => s.swapBanks core a (bitsOf w.toNat 63 16)
      | (false, s) => later s

/-- FILL (R162, R163). -/
def State.ctxFill (s : State) (core area : Nat) : State :=
  let k := s.coreAt core
  let img := (s.core.saved.find area).filter fun m => !s.inBank m.ctx
  let codes := (if k.shSt != 0 then [1] else []) ++ match img with
    | none => [3]
    | some m => (if !m.complete && m.core != core then [2] else []) ++ if badArea s core area then [3] else []
  match codes, img with
  | [], some m => s.modCoreAt core fun k => { k with shadow := some m.ctx, shSt := 1, err := 0 }
  | _, _ => s.ctxError core codes

/-- A store of CTXCMD after one of CTXAREA. One that names a disabled cluster sets ERR 3, and one that names CLUSTER 40 to 63 does nothing (DESIGN
CHOICE, log 159). -/
def State.ctxCommand (s : State) (d : Nat) (w area : Word) : State :=
  let v := w.toNat
  let core := coreNo d (bitsOf v 10 5) (bitsOf v 4 3)
  let s := s.modDisp d fun x => { x with ctxarea := bitsOf area.toNat 51 16 * 2 ^ 16, pend := x.pend.filter (· != (w, area)) }
  if 40 ≤ bitsOf v 10 5 then s
  else if !s.clusterOn d (bitsOf v 10 5) then s.ctxError core [3]
  else match bitsOf v 2 0 with
    | 1 => s.ctxFill core (bitsOf area.toNat 51 16 * 2 ^ 16)
    | 2 => s.ctxSwap d w area core
    | _ => s.ctxError core [3]

/-- CONTEXT_FILL. -/
def execContextFill (die : Nat) (w area : Word) (s : State) : Result := .next (if 4 ≤ die then s else s.ctxCommand die w area)

/-- CONTEXT_SWAP. -/
def execContextSwap (die : Nat) (w area : Word) (s : State) : Result := .next (if 4 ≤ die then s else s.ctxCommand die w area)

/-- The held SWAPs that may go on: die and words. -/
def State.swapsHeld (s : State) : List (Nat × Word × Word) :=
  (s.task.disp.map fun e => (e.2.pend.map fun p => (e.1, p.1, p.2))).flatten.filter fun e =>
    let v := e.2.1.toNat
    let st := (s.coreAt (coreNo e.1 (bitsOf v 10 5) (bitsOf v 4 3))).shSt
    st != 1 && st != 3

/-- A store, a copy or a shuffle command of any thread of the cluster has still to write a scratchpad unit of a core (R165). -/
def State.unitWritten (s : State) (core u : Nat) : Bool :=
  let cl := clusterOf core
  let meets (a n : Nat) : Bool := decide (0 < n) && (rangeFrom (a / 8192) ((a + n - 1) / 8192 + 1 - a / 8192)).any fun k =>
    scrCore cl (k * 8192) == core && k % 64 == u
  s.core.reqs.any (fun r => r.scratch && r.st != .done && clusterOf r.dom.core == cl && meets r.va r.size) ||
    s.core.acpys.any (fun a => clusterOf a.dom.core == cl && meets a.dst a.span) ||
    (s.clusterAt cl).shq.any fun q => q.dstExt.any fun e => meets e.1 e.2

/-- Work in flight toward the registers and scratchpad of a context (R165). -/
def State.ctxBusy (s : State) (core ctx : Nat) : Bool :=
  let mine (u : Nat) : Bool := (s.ctxThreads core ctx).any fun t => t.uid == u
  let k := s.clusterAt (clusterOf core)
  let crew (u : Nat) : Bool := (s.ctxCrews core ctx).any fun c => c.holds u
  s.core.reqs.any (fun r => mine r.thr) || s.core.acpys.any (fun a => crew a.thr) || k.shq.any (fun q => crew q.thr) ||
    k.shLate.any fun e => (s.ctxCrews core ctx).any fun c => c.uid == e.1

/-- The cores whose spill may end. -/
def State.spillsReady (s : State) : List Nat :=
  (s.core.cores.filter fun e => e.2.shSt == 3 && match e.2.shadow with
    | some c => !s.ctxBusy e.1 c && !((s.imageOf c).any fun m => m.2.units.any (s.unitWritten e.1))
    | none => true).map (·.1)

/-- The bytes of a unit of a core's scratchpad. -/
def State.unitBytes (s : State) (core u : Nat) : List Byte := (rangeFrom (core * 2 ^ 19 + u * 8192) 8192).map fun a => s.mem.scr.getD 0 a

/-- The place of a thread's register in the bank and among the tags of an image: 2,048 registers for each lane, lane by lane (DESIGN CHOICE, log
128: R163 says 'register bank' and 'in register order'). -/
def State.bankIndex (s : State) (t : Thread) (r : Nat) : Nat :=
  let (b, n) := match s.crew? t.id.crew with
    | some c => (8 * c.regbase + t.id.tid / 32 * c.nregs, c.nregs)
    | none => (0, 0)
  2048 * t.id.lane + b + if r < n then r else 0

/-- The values and the tags of a thread's registers, as bytes of the image by offset. Two registers share a byte of tags: an even number of
them is allocated. -/
def State.regBytes (s : State) (t : Thread) : List (Nat × List Byte) :=
  let n := s.nregs t
  let i := s.bankIndex t 0
  [(4 * i, (rangeFrom 0 n).flatMap fun r => bytesLE 4 (t.reg r).val.toNat),
    (0x40000 + i / 2, (rangeFrom 0 (n / 2)).map fun k => BitVec.ofNat 8 (tagCode (t.reg (2 * k)).tag + 16 * tagCode (t.reg (2 * k + 1)).tag))]

/-- The image of a context is written at its area (R163). Where the header's and the slots' fields lie is not given: their bytes are free, as are
those of registers that no thread of the context holds. -/
def State.writeImage (s : State) (core area : Nat) (m : Saved) : State :=
  let put (s : State) (a : Nat) (b : List Byte) : State := s.physWrite Wr.base (area + a) b
  let (b, s) := freeBytes 0x4A000 s
  let s := put s 0 b
  let s := (s.ctxThreads core m.ctx).foldl (fun (s : State) t =>
    let (b, s) := freeBytes 256 s
    let s := put s (0x4A000 + 256 * (32 * t.id.row + t.id.lane)) b
    (s.regBytes t).foldl (fun (s : State) e => put s e.1 e.2) s) s
  m.units.foldl (fun (s : State) u => put s (0xCA000 + 8192 * u) (s.unitBytes core u)) s

/-- A thread's registers as the image at an area holds them. -/
def State.readRegs (s : State) (area : Nat) (t : Thread) : State :=
  let n := s.nregs t
  let i := s.bankIndex t 0
  let (b, s) := s.physRead (area + 4 * i) (4 * n)
  let (g, s) := s.physRead (area + 0x40000 + i / 2) (n / 2)
  let reg (r : Nat) : Reg :=
    ⟨BitVec.ofNat 64 (ofBytesLE ((b.drop (4 * r)).take 4)), let c := (g.getD (r / 2) 0).toNat / 16 ^ (r % 2) % 16; if c = 15 then .poison else tagOf c⟩
  s.modThread t.uid fun t => { t with regs := (rangeFrom 0 n).foldl (fun m r => m.setD Reg.zero r (reg r)) [] }

/-- A unit of a core is kept in an image and no longer owned. -/
def State.spillUnit (core base : Nat) (s : State) (u : Nat) : State :=
  let lo := core * 2 ^ 19 + u * 8192
  let here (a : Nat) : Bool := decide (lo ≤ a) && decide (a < lo + 8192)
  let f (m : Saved) : Saved := { m with
    scr := (s.mem.scr.filter fun e => here e.1).foldl (fun x e => x.put (e.1 - core * 2 ^ 19) e.2) m.scr
    scrPoi := m.scrPoi ++ (s.mem.scrPoi.filter fun w => here (4 * w)).map fun w => w - core * 2 ^ 17 }
  let s := s.onCore fun x => { x with saved := x.saved.map fun e => if e.1 == base then (e.1, f e.2) else e }
  let s := s.onMem fun m => { m with scr := m.scr.filter fun e => !here e.1, scrPoi := m.scrPoi.filter fun w => !here (4 * w) }
  s.modCoreAt core fun k => { k with units := k.units.del u }

/-- SPILL_COMPLETE. -/
def execSpillComplete (s : State) : Result :=
  .next (match s.spillsReady with
    | [] => s
    | c :: cs =>
      let (core, s) := chooseFrom (c :: cs) c s
      let s := match (s.coreAt core).shadow.bind s.imageOf with
        | none => s
        | some (base, m) => m.units.foldl (State.spillUnit core base) (s.writeImage core base m)
      s.modCoreAt core fun k => { k with shadow := none, shSt := 0 })

/-- The cores whose fill may end: the units the image brings are free there. -/
def State.fillsReady (s : State) : List Nat :=
  (s.core.cores.filter fun e => e.2.shSt == 1 && match e.2.shadow.bind s.imageOf with
    | some (_, m) => m.units.all fun u => (e.2.units.find u).isNone
    | none => true).map (·.1)

/-- A domain of a context that comes to another core takes what it has not published with it (R323). -/
def State.moveDomain (s : State) (d : Domain) (core : Nat) : State :=
  let s := s.onMem fun m => { m with doms := m.doms.filter fun e => e.key != d.key }
  s.modDom { d.key with core := core } fun e => { e with stores := d.stores.foldl (fun x y => x.put y.1 y.2) e.stores, poi := setUnion e.poi d.poi }

/-- A context comes to a core (R163, R165): its registers, its threads and crews, its domains, its spilled units, whose bytes the image holds. -/
def State.fillCore (s : State) (core area : Nat) (m : Saved) : State :=
  let s := (s.ctxThreads m.core m.ctx).foldl (State.readRegs · area) s
  let cs := s.ctxCrews m.core m.ctx
  let other (k : DomKey) : Bool := s.core.crews.any fun c => c.core == m.core && c.ctx != m.ctx && k.space == .asid c.asid &&
    k.copy == if c.peer.isSome then c.uid else 0
  let mine (k : DomKey) : Bool := k.core == m.core && cs.any fun c => k.space == .asid c.asid && k.copy == if c.peer.isSome then c.uid else 0
  let ds := if core == m.core then [] else s.mem.doms.filter fun d => mine d.key && !other d.key
  let us := (s.ctxThreads m.core m.ctx).map (·.uid)
  let s := s.onCore fun k => { k with
    threads := k.threads.map fun t => if us.contains t.uid then { t with id := { t.id with core := core } } else t
    crews := k.crews.map fun c => if cs.any (fun e => e.uid == c.uid) then { c with core := core } else c }
  let s := ds.foldl (fun (s : State) d => s.moveDomain d core) s
  let holder (u : Nat) : Option Crew := cs.find? fun c => decide (c.scrbase ≤ u) && decide (u < c.scrbase + c.scrUnits)
  let give (x : Map (Nat × Nat)) (u : Nat) : Map (Nat × Nat) := match holder u with
    | some c => x.put u (c.asid, m.ctx)
    | none => x
  let s := s.modCoreAt core fun k => { k with units := m.units.foldl give k.units }
  let s := m.units.foldl (fun (s : State) u =>
    let (b, s) := s.physRead (area + 0xCA000 + 8192 * u) 8192
    s.onMem fun x => { x with scr := ((rangeFrom 0 8192).zip b).foldl (fun y e => y.setD 0 (core * 2 ^ 19 + 8192 * u + e.1) e.2) x.scr }) s
  let s := s.onMem fun x => { x with
    scrPoi := m.scrPoi.foldl (fun y w => setIns y (core * 2 ^ 17 + w)) x.scrPoi }
  us.foldl (fun (s : State) u => s.snapshot u .dev) s

/-- FILL_COMPLETE: the shadow bank is full; for the context's domains it is a REFRESH (R165). -/
def execFillComplete (s : State) : Result :=
  .next (match s.fillsReady with
    | [] => s
    | c :: cs =>
      let (core, s) := chooseFrom (c :: cs) c s
      let s := match (s.coreAt core).shadow.bind s.imageOf with
        | none => s
        | some (area, m) => s.fillCore core area m
      s.modCoreAt core fun k => { k with shSt := 2 })

/-! QUIESCE (R64). -/

/-- A core's contexts and units have still to leave it. -/
def Core.loaded (k : Core) : Bool := k.active.isSome || k.shadow.isSome || !k.units.isEmpty

/-- The next thing that takes a core's contexts away: its active context is swapped out whole, to an area that is not homed on the die and holds
no image (which one is free, log 129); units that an image of the core does not hold yet come back with it first. -/
def State.preempt (s : State) (core : Nat) : State :=
  let k := s.coreAt core
  if k.shSt = 1 || k.shSt = 3 then s
  else if k.active.isSome || k.shadow.isSome then
    let (a, s) := choose (2 ^ 36) s
    if badArea s core (2 ^ 16 * a) || (s.core.saved.find (2 ^ 16 * a)).isSome then s
    else match s.boundariesOut core with
      | (true, s) => s.swapBanks core (2 ^ 16 * a) (2 ^ 48 - 1)
      | (false, s) => s
  else match s.core.saved.find? fun e => e.2.core == core && !(s.unitsOf core e.2.ctx).isEmpty with
    | some (area, _) => s.ctxFill core area
    | none => s

/-- The channels of a die stop between records (R64, R264). -/
def State.stopChannels (s : State) (d : Nat) : State :=
  s.onTask fun k => { k with channels := k.channels.map fun e =>
    if e.1 / 64 == d && (e.2.state == 2 || e.2.state == 3) && e.2.work.isNone then (e.1, { e.2 with state := 6, watch := none }) else e }

/-- QUIESCE can act. -/
def State.quiesceReady (s : State) : Bool :=
  match s.drNow 1 with
  | some c => s.quiet c.die || (c.kill && !(s.ctlCrews c.die).isEmpty) ||
      s.task.channels.any (fun e => e.1 / 64 == c.die && (e.2.state == 2 || e.2.state == 3) && e.2.work.isNone) ||
      s.core.cores.any fun e => dieOf e.1 == c.die && e.2.loaded && e.2.shSt != 1 && e.2.shSt != 3
  | none => false

/-- What QUIESCE makes of a die: control crews are failed when KILLCTL says so, channels stop, contexts leave the cores. -/
def State.stopDie (s : State) (c : Drctl) : State :=
  let s := if c.kill then (s.ctlCrews c.die).foldl (fun (s : State) k => s.failCrew k.uid 0x0C) s else s
  let s := s.stopChannels c.die
  ((s.core.cores.filter fun e => dieOf e.1 == c.die).map (·.1)).foldl State.preempt s

/-- QUIESCE: the step ends once the contexts are spilled and the engines are at rest. -/
def execQuiesce (s : State) : Result :=
  .next (match s.drNow 1 with
    | none => s
    | some c =>
      let s := s.stopDie c
      if s.quiet c.die then (s.portsTo c.die 2 3).stepOk c 1 else s)

end Sys2Proof.Machine
end

