-- ==== Sys2Proof/Machine/IssueEv.lean ====
section
/-! DEFINITION. Issue groups: which threads may go on, the key that is chosen, the clause fetched at entry (spec/09 R191 to R203; spec/16
R338, R339); waits that end (spec/08 R183, R184; spec/09 R211); what stops a group before an instruction (spec/15 R326, R329). -/

namespace Sys2Proof.Machine

/-! Ready threads (R195). -/

/-- A core of a die that is lost or absent issues nothing. -/
def State.frozen (s : State) (core : Nat) : Bool :=
  let d := (s.pkg.die (dieOf core)).drst
  d == 8 || d == 15

/-- The park of a thread's process has reached its core, as it has after 4,096 cycles at the latest (R235). -/
def State.processParked (s : State) (t : Thread) : Bool :=
  (s.fnAt t.id.fn).mem.pparks.any fun p => p.asid == t.id.asid && (p.cores.contains t.id.core ||
    decide (4096 ≤ (s.now t + 2 ^ 64 - p.at_.getD (dieOf t.id.core) 0) % 2 ^ 64))

/-- A thread's context is in the shadow bank of its core: an access that is issued again takes place at the FILL (R237). -/
def State.filled (s : State) (t : Thread) : Bool := (s.coreAt t.id.core).shadow == some t.id.ctx

/-- A thread that may fetch its clause or be taken into a group: ready, its context active, its process not parked (R235), no request of it held
(R72), its turn come (R69). An access that RESUME issues again alone waits for neither bank nor process park (R237). -/
def State.mayRun (s : State) (t : Thread) : Bool :=
  t.run == .ready && s.turnOf (.thread t.uid) && (s.resident t || (t.reissue && s.filled t)) && !s.frozen t.id.core &&
    (t.reissue || !s.processParked t) && !s.reqParked t

/-- A thread that may be taken into a group: it has fetched its clause, whose start condition holds. -/
def State.mayIssue (s : State) (t : Thread) : Bool := s.mayRun t && s.startOk t

/-- A thread that has still to fetch the clause it stands before. -/
def State.mustFetch (s : State) (t : Thread) : Bool := s.mayRun t && t.clause.isEmpty

/-- The ready threads of a core that form keys. -/
def State.readyOn (s : State) (core : Nat) : List Thread :=
  s.core.threads.filter fun t => t.id.core == core && t.id.csid.isSome && s.mayIssue t

/-! The key (R196, R197, R215). -/

/-- A thread that shares its group with none: in its handler, or its access is issued again. -/
def Thread.solo (t : Thread) : Bool := t.inHandler || t.reissue

/-- A thread of a cross-lane rendezvous that has gathered (R211): its mark until it is in a group again. -/
def Thread.met (t : Thread) : Bool := t.mark == some 3

/-- Two threads have one key. -/
def keyEq (a b : Thread) : Bool :=
  if a.solo || b.solo then a.uid == b.uid
  else a.id.csid == b.id.csid && a.lvl == b.lvl && a.pos == b.pos

/-- Two threads of one key have gathered at one rendezvous. -/
def metWith (a b : Thread) : Bool := a.met && b.met && a.id.ctx == b.id.ctx && a.id.row == b.id.row && a.id.exk == b.id.exk

/-- Cycles since a thread became ready. -/
def State.age (s : State) (t : Thread) : Nat := (s.now t + 2 ^ 64 - t.ready) % 2 ^ 64

def Thread.slot (t : Thread) : Nat := 32 * t.id.row + t.id.lane

/-- Thread a stands before thread b: earlier ready, a thread that yielded last among equals (R202), then by slot. -/
def State.older (s : State) (a b : Thread) : Bool :=
  decide (s.age b < s.age a) || (s.age a == s.age b && ((!a.yielded && b.yielded) || (a.yielded == b.yielded && decide (a.slot < b.slot))))

/-- The thread that stands before all others. -/
def State.oldest (s : State) : List Thread → Option Thread
  | [] => none
  | t :: ts => match State.oldest s ts with
    | none => some t
    | some u => if s.older u t then some u else some t

/-- The thread whose key is chosen (R197). -/
def State.leader (s : State) (l : List Thread) : Option Thread :=
  match s.oldest (l.filter fun t => decide (2048 ≤ s.age t)) with
  | some t => some t
  | none =>
    let top := (l.map fun t => t.id.prio).foldl Nat.max 0
    let best := l.filter fun t => t.id.prio == top
    s.oldest (l.filter fun t => best.any (keyEq t))

/-- The members of a group of a key: in each lane the thread that stands first (R196). The threads of a rendezvous that has gathered execute as one
group (R211): they take their lanes where the leader is one of them, and where each of them stands first, and otherwise stay for another group. -/
def State.membersOf (s : State) (l : List Thread) (ld : Thread) : List Nat :=
  let key := l.filter (keyEq ld)
  let mine := key.filter (metWith ld)
  let first (k : Nat) : Option Thread := match mine.find? fun t => t.id.lane == k with
    | some t => some t
    | none => s.oldest (key.filter fun t => t.id.lane == k)
  let whole (t : Thread) : Bool := !t.met || (key.filter (metWith t)).all fun v => (first v.id.lane).map (·.uid) == some v.uid
  let member (k : Nat) : Option Thread := match first k with
    | some t => if whole t then some t else s.oldest (key.filter fun t => t.id.lane == k && whole t)
    | none => none
  (rangeFrom 0 32).filterMap fun k => (member k).map fun t => t.uid

/-! Entering a clause (R146, R339). -/

/-- The first fetch of a thread has translated: its code space is fixed; it acts as an acquire at device scope and an XFENCE naming
every path (R146). -/
def State.firstFetch (s : State) (u csid : Nat) : State :=
  let s := s.modThread u fun t => { t with id := { t.id with csid := some csid }, ready := s.now t }
  (s.snapshot u .dev).xfenceAll u

/-- A thread fetches the clause it enters: it has it, or the fetch takes the thread. -/
def State.enter (s : State) (u : Nat) : Bool × State :=
  let t := s.thread u
  if !t.clause.isEmpty then (true, s)
  else match s.fetch t t.pos.a with
    | (.ok ws csid, s) =>
      let s := s.modThread u fun t => { t with clause := ws }
      (true, if t.id.csid.isNone then s.firstFetch u csid else s)
    | (.trap c v, s) =>
      if c = 0x0B && !t.ct.isEmpty then (false, (s.unwind u 0x0B v).endStep u)
      else (false, (s.raise u c (BitVec.ofNat 64 v) ⟨t.pos.a, 0⟩).endStep u)
    | (.fault va c s2, s) => (false, s.transFault u 4 va c s2)
    | (.offline d va, s) => (false, s.offlineFault u d va 4)
    | (.wait, s) => (false, s)

/-- A request of a thread that starts a clause anew has no lookahead window left, be the clause the same one entered again (R350). -/
def Req.closed (r : Req) (us : List Nat) (p : Pos) : Req :=
  if p.i = 0 && us.contains r.thr then { r with win := (⟨0, 0⟩, 0) } else r

/-- Threads form a group. -/
def State.putGroup (s : State) (us : List Nat) : State :=
  match us with
  | [] => s
  | u :: _ =>
    let t := s.thread u
    s.onCore fun k => { k with
      threads := k.threads.map fun v =>
        if us.contains v.uid then { v with run := .grouped, yielded := false, mark := if v.met then none else v.mark } else v
      reqs := k.reqs.map fun r => r.closed us t.pos
      groups := k.groups ++ [⟨t.id.core, t.lvl, t.pos, t.clause, us, none⟩] }

/-- The threads of a core that stand before a clause fetch it, each when it comes to form keys. -/
def State.fetchAll (s : State) (core : Nat) : State :=
  ((s.core.threads.filter fun t => t.id.core == core && t.id.csid.isSome && s.mustFetch t).map (·.uid)).foldl
    (fun (s : State) u => if (s.thread? u).isSome then (s.enter u).2 else s) s

/-- A core's threads fetch their clauses, and its selector forms a group of one key (R196, R197). -/
def State.formGroup (s : State) (core : Nat) : State :=
  let s := s.fetchAll core
  match s.leader (s.readyOn core) with
  | none => s
  | some ld => s.putGroup (s.membersOf (s.readyOn core) ld)

/-- The cores that may form a group: they have a thread that is ready or has still to fetch, and fewer than four groups execute. -/
def State.coresReady (s : State) : List Nat :=
  (((s.core.threads.filter fun t => t.id.csid.isSome && (s.mayIssue t || s.mustFetch t)).map fun t => t.id.core).eraseDups).filter fun c =>
    decide ((s.core.groups.filter fun g => g.core == c).length < 4)

/-- The crews with threads that have not made their first fetch. -/
def State.newCrews (s : State) : List Nat :=
  ((s.core.threads.filter fun t => t.id.csid.isNone && s.mustFetch t).map fun t => t.id.crew).eraseDups

/-- The threads of a crew make their first fetch, all in the cycle of the launch (R146, R196). -/
def State.firstFetches (s : State) (crew : Nat) : State :=
  ((s.core.threads.filter fun t => t.id.crew == crew && t.id.csid.isNone && s.mustFetch t).map (·.uid)).foldl
    (fun (s : State) u => if (s.thread? u).isSome then (s.enter u).2 else s) s

/-- ISSUE_GROUP_FORM. -/
def execIssueGroupForm (s : State) : Result :=
  .next (
    let l : List (Bool × Nat) := s.coresReady.map (fun c => (true, c)) ++ s.newCrews.map fun c => (false, c)
    match l with
    | [] => s
    | x :: xs =>
      let (y, s) := chooseFrom (x :: xs) x s
      if y.1 then s.formGroup y.2 else s.firstFetches y.2)

/-! Waits that end (R183, R184, R211, R216). -/

/-- The threads at a cross-lane rendezvous with a waiting thread: all its participants, standing where it stands. -/
def State.gathered (s : State) (t : Thread) (k : Nat) : Bool :=
  (s.participants t k).all fun v =>
    let x := s.thread v
    x.pos == t.pos && match x.run with
      | .waiting w => w.kind == WaitKind.rdv && w.a == k && x.mark.isNone
      | _ => false

/-- The future that a thread waits for is full or broken, or cannot be read. -/
def State.futureReady (s : State) (t : Thread) (va : Nat) : Bool :=
  match s.futurePa t va with
  | some pa => decide (2 ≤ bitsOf (ofBytesLE (s.mem.read (pa + 8) 8)) 63 62)
  | none => true

/-- A wait whose condition holds, so that its instruction may be tried again or completes. -/
def State.waitOver (s : State) (t : Thread) (w : WaitRec) : Bool :=
  let cl := clusterOf t.id.core
  match t.mark with
  | some 0 => w.kind == .fget && s.futureReady t w.a
  | some _ => true
  | none => match w.kind with
    | .lace => s.laceBroken t w.a
    | .rdv => s.gathered t w.a
    | .line => match s.wakeReason t w.start (if w.a = 0 then none else some (w.a - 1)) with
      | some r => r != 1
      | none => false
    | .cwait => match s.opOf w.a with
      | some (_, o) => o.written
      | none => true
    | .qpop => s.popTest t.id.crew cl w.a != .wait
    | .qpush => s.pushTest t.id.crew cl w.a 1 != .wait
    | .mx => if w.a = 0 then (s.clusterAt cl).mx.queue.isEmpty else decide ((s.clusterAt cl).mx.queue.length < 16)
    | _ => false

/-- The waiting threads whose wait is over. -/
def State.wakeable (s : State) : List (Nat × WaitRec) :=
  s.core.threads.filterMap fun t => match t.run with
    | .waiting w => if s.resident t && !s.frozen t.id.core && s.waitOver t w then some (t.uid, w) else none
    | _ => none

/-- A waiting thread becomes ready at its instruction, which it executes again; what its mark says stays. -/
def State.retry (s : State) (u : Nat) : State := s.modThread u fun t => { t with run := .ready, ready := s.now t }

/-- A wait ends: a rendezvous for all its participants at once, a push or pop for the waiting threads of the crew, a LINEWAIT with its reason. -/
def State.endWait (s : State) (u : Nat) (w : WaitRec) : State :=
  let t := s.thread u
  match w.kind with
  | .rdv => if t.mark == some 2 then s.retry u
    else (s.participants t w.a).foldl (fun (s : State) v => s.modThread v fun x => { x with run := .ready, ready := s.now x, mark := some 3 }) s
  | .line => match s.wakeReason t w.start (if w.a = 0 then none else some (w.a - 1)) with
    | some r => s.endLinewait u w.b r
    | none => s
  | .qpop => (mates s t).foldl State.retry s
  | .qpush => (mates s t).foldl State.retry s
  | _ => s.retry u
where
  /-- The threads of the crew that wait for the same row. -/
  mates (s : State) (t : Thread) : List Nat := ((s.crewThreads t.id.crew).filter fun v => v.pos == t.pos && match v.run with
    | .waiting x => x.kind == w.kind && x.a == w.a
    | _ => false).map (·.uid)

/-- POLL_RECHECK: a waiter finds its condition met. Poll-mode waiters look at most 512 cycles apart (R184); how soon a waiter with an
entry wakes is not given either. -/
def execPollRecheck (s : State) : Result :=
  .next (match s.wakeable with
    | [] => s
    | x :: xs => let (y, s) := chooseFrom (x :: xs) x s; s.endWait y.1 y.2)

/-! Before a group executes an instruction (R326, R329, R330). -/

/-- The pending events of a thread's regions: number, cause, VA. -/
def Thread.regionEvents (t : Thread) : List (Nat × Nat × Nat) := t.ct.filterMap fun r => r.event.map fun x => (r.id, x.1, x.2)

/-- A pending event of a thread's regions takes effect. -/
def State.takeRegion (s : State) (u : Nat) : State :=
  match (s.thread u).regionEvents with
  | [] => s
  | e :: es => let (x, s) := chooseFrom (e :: es) e s; s.unwindTo u x.1 x.2.1 x.2.2

/-- What a member meets before an instruction: a region event, a comparator. -/
def State.beforeInstr (s : State) (fresh : Bool) (u : Nat) : State :=
  match s.thread? u with
  | none => s
  | some t =>
    if !t.regionEvents.isEmpty then s.takeRegion u
    else if !fresh || t.reissue || t.stepping || t.stopReq then s
    else match s.breakpoints t t.pos with
      | [] => s
      | l => let s := s.stop u 0x12 t.pos t.pos; if l.any (·.crew) then s.stopCrew t.id.crew u else s

/-- A member that is to stop stops (R329, R330). -/
def State.stopAsked (s : State) (u : Nat) : State :=
  match s.thread? u with
  | none => s
  | some t => if t.stopReq && t.run == .grouped then s.stop u (if t.stepping then 0x13 else 0x12) t.pos t.pos else s

/-- The members that have still to execute the instruction. -/
def Group.due (g : Group) : List Nat := g.todo.getD g.members

/-- What happens before a group executes an instruction. -/
def State.beforeGroup (s : State) (g : Group) : State :=
  let fresh := g.todo.isNone
  let s := g.due.foldl (fun (s : State) u => s.beforeInstr fresh u) s
  if fresh then g.due.foldl State.stopAsked s else s

/-- The class of an instruction by its major (R198). -/
def classOf (w : Word) : Option Nat :=
  let m := w.toNat / 2 ^ 58
  if m = 0 then none
  else if m ≤ 0x0E then some 0
  else if m = 0x0F then some 3
  else if m = 0x10 || m = 0x11 || m = 0x3E then some 2
  else if 0x14 ≤ m && m ≤ 0x17 then some 1
  else if m = 0x1A || m = 0x1B then some 4
  else if m = 0x18 || m = 0x1C || (0x20 ≤ m && m ≤ 0x24) then some 5
  else none

/-! Encodings that the map does not assign, and register-file errors. -/

/-- UNASSIGNED_ENCODING (R353): the illegal-instruction trap in every member. -/
def execUnassignedEncoding (w : Word) (s : State) : Result :=
  .next (match s.ext.cur with
    | none => s
    | some g => let s := s.chargeIssue g; g.due.foldl (fun (s : State) u => s.applyFlow u (.trap 0x01 w false)) s)

/-- REGISTER_FILE_ERROR (R290): an uncorrectable error struck registers of a thread; their bits are free. -/
def execRegisterFileError (u : Nat) (rs : List Nat) (s : State) : Result :=
  .next (match s.thread? u with
    | none => s
    | some t => (rs.filter fun r => decide (r < s.nregs t)).foldl (fun (s : State) r =>
        let (v, s) := choose (if t.isCtl then 2 ^ 64 else 2 ^ 32) s
        s.modThread u fun t => t.setReg r ⟨BitVec.ofNat 64 v, .poison⟩) s)

end Sys2Proof.Machine
end

