-- ==== Sys2Proof/Machine/EngineEv.lean ====
section
/-! DEFINITION. The verdict on an assay pair (spec/15 R323), and the unwinding of a region by an event that is not the thread's own
(R326). -/

namespace Sys2Proof.Machine

/-- The copies whose comparison can be decided: they wait with a tuple, and the other copy has presented its own, or is gone. -/
def State.verdictsDue (s : State) : List Crew :=
  s.core.crews.filter fun c => c.assay.tuple.isSome && c.assay.verdict.isNone && match c.peer.bind s.crew? with
    | some p => p.assay.tuple.isSome && p.assay.verdict.isNone
    | none => c.peer.isSome

/-- ASSAY_VERDICT: equal tuples, or not. -/
def execAssayVerdict (s : State) : Result :=
  .next (match s.verdictsDue with
    | [] => s
    | c :: cs =>
      let (c, s) := chooseFrom (c :: cs) c s
      let p := c.peer.bind s.crew?
      let ok := match p with
        | some p => p.assay.tuple == c.assay.tuple
        | none => false
      let set (s : State) (u : Nat) : State := s.modCrew u fun c => { c with assay := { c.assay with verdict := some ok } }
      match p with
      | some p => set (set s c.uid) p.uid
      | none => set s c.uid)

/-- The threads with a region event that can take effect now: they are at an instruction boundary or they wait. -/
def State.unwindsDue (s : State) : List Nat :=
  (s.core.threads.filter fun t => !t.regionEvents.isEmpty && s.resident t && !s.frozen t.id.core && match t.run with
    | .grouped => false
    | .stopped _ => false
    | _ => true).map (·.uid)

/-- CONTAINMENT_UNWIND. -/
def execContainmentUnwind (s : State) : Result :=
  .next (match s.unwindsDue with
    | [] => s
    | u :: us => let (u, s) := chooseFrom (u :: us) u s; s.takeRegion u)

end Sys2Proof.Machine
end

