-- ==== Sys2Proof/Machine/Dispatch.lean ====
section
/-! DEFINITION. One arm per instruction: the meaning that it calls. -/

namespace Sys2Proof.Machine

def exec (i : Instr) (s : State) : Host.Outcome State Fault Refusal :=
  match i with
  | .coldBoot b => Sys2Proof.Machine.execColdBoot b s
  | .recoveryImageWrite slotB img => Sys2Proof.Machine.execRecoveryImageWrite slotB img s
  | .powerSample w => Sys2Proof.Machine.execPowerSample w s
  | .temperatureSample t => Sys2Proof.Machine.execTemperatureSample t s
  | .clusterPowerGate k => Sys2Proof.Machine.execClusterPowerGate k s
  | .clusterWake k => Sys2Proof.Machine.execClusterWake k s
  | .l2SlicePowerDown die slice => Sys2Proof.Machine.execL2SlicePowerDown die slice s
  | .memoryRequest pa wr err => Sys2Proof.Machine.execMemoryRequest pa wr err s
  | .patrolScrub pa err => Sys2Proof.Machine.execPatrolScrub pa err s
  | .pageRetire frame cause => Sys2Proof.Machine.execPageRetire frame cause s
  | .channelDisableStart ch => Sys2Proof.Machine.execChannelDisableStart ch s
  | .flitReplay k => Sys2Proof.Machine.execFlitReplay k s
  | .dieLinkDown k => Sys2Proof.Machine.execDieLinkDown k s
  | .dieLinkRetrainDone k ok => Sys2Proof.Machine.execDieLinkRetrainDone k ok s
  | .dieLost d => Sys2Proof.Machine.execDieLost d s
  | .dieReset bad => Sys2Proof.Machine.execDieReset bad s
  | .dieRetrain bad => Sys2Proof.Machine.execDieRetrain bad s
  | .noranoFlitReceive p f => Sys2Proof.Machine.execNoranoFlitReceive p f s
  | .noranoPortDown p => Sys2Proof.Machine.execNoranoPortDown p s
  | .noranoPortRetrain p w => Sys2Proof.Machine.execNoranoPortRetrain p w s
  | .suspectNotice m sus => Sys2Proof.Machine.execSuspectNotice m sus s
  | .leaveNotice m => Sys2Proof.Machine.execLeaveNotice m s
  | .viewProposal m num set => Sys2Proof.Machine.execViewProposal m num set s
  | .proposalAck m num fixed => Sys2Proof.Machine.execProposalAck m num fixed s
  | .viewCommit m num set fixed => Sys2Proof.Machine.execViewCommit m num set fixed s
  | .admissionRequest m len => Sys2Proof.Machine.execAdmissionRequest m len s
  | .hostMemrd pa => Sys2Proof.Machine.execHostMemrd pa s
  | .hostMeminv pa => Sys2Proof.Machine.execHostMeminv pa s
  | .hostMeminvRelease pa => Sys2Proof.Machine.execHostMeminvRelease pa s
  | .hostMemwr pa b grant poison => Sys2Proof.Machine.execHostMemwr pa b grant poison s
  | .birsp line => Sys2Proof.Machine.execBirsp line s
  | .biconflict line held => Sys2Proof.Machine.execBiconflict line held s
  | .d2hGo half st b poison => Sys2Proof.Machine.execD2hGo half st b poison s
  | .snpinv half => Sys2Proof.Machine.execSnpinv half s
  | .snpdata half => Sys2Proof.Machine.execSnpdata half s
  | .snpcur half => Sys2Proof.Machine.execSnpcur half s
  | .cxlPortDown p => Sys2Proof.Machine.execCxlPortDown p s
  | .windowDmwr page off b => Sys2Proof.Machine.execWindowDmwr page off b s
  | .windowBadWrite page off => Sys2Proof.Machine.execWindowBadWrite page off s
  | .enqueuePortTrigger core st v => Sys2Proof.Machine.execEnqueuePortTrigger core st v s
  | .enqueuePortResult core => Sys2Proof.Machine.execEnqueuePortResult core s
  | .functionLevelReset f => Sys2Proof.Machine.execFunctionLevelReset f s
  | .attestationRequest f nonce => Sys2Proof.Machine.execAttestationRequest f nonce s
  | .sysregWindowAccess page reg wr => Sys2Proof.Machine.execSysregWindowAccess page reg wr s
  | .windowErrorRead page => Sys2Proof.Machine.execWindowErrorRead page s
  | .readyPop die => Sys2Proof.Machine.execReadyPop die s
  | .bindSubmit die w w1 => Sys2Proof.Machine.execBindSubmit die w w1 s
  | .cbindSubmit die w w1 => Sys2Proof.Machine.execCbindSubmit die w w1 s
  | .bindresRead die => Sys2Proof.Machine.execBindresRead die s
  | .splitSet die ix v => Sys2Proof.Machine.execSplitSet die ix v s
  | .contextFill die w area => Sys2Proof.Machine.execContextFill die w area s
  | .contextSwap die w area => Sys2Proof.Machine.execContextSwap die w area s
  | .iadd g d a b u sat => Sys2Proof.Machine.execIadd g d a b u sat s
  | .isub g d a b u sat => Sys2Proof.Machine.execIsub g d a b u sat s
  | .imul g d a b => Sys2Proof.Machine.execImul g d a b s
  | .imulh g d a b u => Sys2Proof.Machine.execImulh g d a b u s
  | .imad g d a b c u sat => Sys2Proof.Machine.execImad g d a b c u sat s
  | .imadw g d a b c u => Sys2Proof.Machine.execImadw g d a b c u s
  | .idiv g la d a b u => Sys2Proof.Machine.execIdiv g la d a b u s
  | .irem g la d a b u => Sys2Proof.Machine.execIrem g la d a b u s
  | .imin g d a b u => Sys2Proof.Machine.execImin g d a b u s
  | .imax g d a b u => Sys2Proof.Machine.execImax g d a b u s
  | .iabs g d a sat => Sys2Proof.Machine.execIabs g d a sat s
  | .lea g d a b sc u => Sys2Proof.Machine.execLea g d a b sc u s
  | .and g d a b => Sys2Proof.Machine.execAnd g d a b s
  | .or g d a b => Sys2Proof.Machine.execOr g d a b s
  | .xor g d a b => Sys2Proof.Machine.execXor g d a b s
  | .andn g d a b => Sys2Proof.Machine.execAndn g d a b s
  | .shl g d a b => Sys2Proof.Machine.execShl g d a b s
  | .shr g d a b => Sys2Proof.Machine.execShr g d a b s
  | .sar g d a b => Sys2Proof.Machine.execSar g d a b s
  | .rotr g d a b => Sys2Proof.Machine.execRotr g d a b s
  | .bfx g d a b u => Sys2Proof.Machine.execBfx g d a b u s
  | .bfi g d a b c => Sys2Proof.Machine.execBfi g d a b c s
  | .popc g d a => Sys2Proof.Machine.execPopc g d a s
  | .clz g d a => Sys2Proof.Machine.execClz g d a s
  | .ctz g d a => Sys2Proof.Machine.execCtz g d a s
  | .brev g d a => Sys2Proof.Machine.execBrev g d a s
  | .perm g d a b c => Sys2Proof.Machine.execPerm g d a b c s
  | .iset g d a b cond wide u => Sys2Proof.Machine.execIset g d a b cond wide u s
  | .isel g d a b p neg => Sys2Proof.Machine.execIsel g d a b p neg s
  | .iadd64 g d a b => Sys2Proof.Machine.execIadd64 g d a b s
  | .isub64 g d a b => Sys2Proof.Machine.execIsub64 g d a b s
  | .iset64 g d a b cond u => Sys2Proof.Machine.execIset64 g d a b cond u s
  | .shl64 g d a b => Sys2Proof.Machine.execShl64 g d a b s
  | .shr64 g d a b => Sys2Proof.Machine.execShr64 g d a b s
  | .sar64 g d a b => Sys2Proof.Machine.execSar64 g d a b s
  | .imul64 g d a b => Sys2Proof.Machine.execImul64 g d a b s
  | .mov g d a w => Sys2Proof.Machine.execMov g d a w s
  | .movi g d x imm => Sys2Proof.Machine.execMovi g d x imm s
  | .iaddImm g d a x imm => Sys2Proof.Machine.execIaddImm g d a x imm s
  | .isubImm g d a x imm => Sys2Proof.Machine.execIsubImm g d a x imm s
  | .imulImm g d a x imm => Sys2Proof.Machine.execImulImm g d a x imm s
  | .andImm g d a x imm => Sys2Proof.Machine.execAndImm g d a x imm s
  | .orImm g d a x imm => Sys2Proof.Machine.execOrImm g d a x imm s
  | .xorImm g d a x imm => Sys2Proof.Machine.execXorImm g d a x imm s
  | .andnImm g d a x imm => Sys2Proof.Machine.execAndnImm g d a x imm s
  | .shlImm g d a x imm => Sys2Proof.Machine.execShlImm g d a x imm s
  | .shrImm g d a x imm => Sys2Proof.Machine.execShrImm g d a x imm s
  | .sarImm g d a x imm => Sys2Proof.Machine.execSarImm g d a x imm s
  | .rotrImm g d a x imm => Sys2Proof.Machine.execRotrImm g d a x imm s
  | .iminImm g d a x imm => Sys2Proof.Machine.execIminImm g d a x imm s
  | .imaxImm g d a x imm => Sys2Proof.Machine.execImaxImm g d a x imm s
  | .plog g d a b c lut => Sys2Proof.Machine.execPlog g d a b c lut s
  | .pmovGet g d => Sys2Proof.Machine.execPmovGet g d s
  | .pmovSet g a mask => Sys2Proof.Machine.execPmovSet g a mask s
  | .fadd g d a b ma mb => Sys2Proof.Machine.execFadd g d a b ma mb s
  | .fmul g d a b ma mb => Sys2Proof.Machine.execFmul g d a b ma mb s
  | .ffma g d a b c ma mb mc => Sys2Proof.Machine.execFfma g d a b c ma mb mc s
  | .fmin g d a b ma mb => Sys2Proof.Machine.execFmin g d a b ma mb s
  | .fmax g d a b ma mb => Sys2Proof.Machine.execFmax g d a b ma mb s
  | .fset g d a b ma mb cond => Sys2Proof.Machine.execFset g d a b ma mb cond s
  | .fclass g d a => Sys2Proof.Machine.execFclass g d a s
  | .frcp g la d a ma => Sys2Proof.Machine.execFrcp g la d a ma s
  | .frsq g la d a ma => Sys2Proof.Machine.execFrsq g la d a ma s
  | .fsqrt g la d a ma => Sys2Proof.Machine.execFsqrt g la d a ma s
  | .fex2 g la d a ma => Sys2Proof.Machine.execFex2 g la d a ma s
  | .flg2 g la d a ma => Sys2Proof.Machine.execFlg2 g la d a ma s
  | .fsin g la d a ma => Sys2Proof.Machine.execFsin g la d a ma s
  | .fcos g la d a ma => Sys2Proof.Machine.execFcos g la d a ma s
  | .ftanh g la d a ma => Sys2Proof.Machine.execFtanh g la d a ma s
  | .f2add g d a b ma mb bf => Sys2Proof.Machine.execF2add g d a b ma mb bf s
  | .f2mul g d a b ma mb bf => Sys2Proof.Machine.execF2mul g d a b ma mb bf s
  | .f2fma g d a b c ma mb mc bf => Sys2Proof.Machine.execF2fma g d a b c ma mb mc bf s
  | .f2min g d a b ma mb bf => Sys2Proof.Machine.execF2min g d a b ma mb bf s
  | .f2max g d a b ma mb bf => Sys2Proof.Machine.execF2max g d a b ma mb bf s
  | .f2set g d a b ma mb cond bf => Sys2Proof.Machine.execF2set g d a b ma mb cond bf s
  | .hdot g d a b c ea eb => Sys2Proof.Machine.execHdot g d a b c ea eb s
  | .dadd g la d a b ma mb => Sys2Proof.Machine.execDadd g la d a b ma mb s
  | .dmul g la d a b ma mb => Sys2Proof.Machine.execDmul g la d a b ma mb s
  | .dfma g la d a b c ma mb mc => Sys2Proof.Machine.execDfma g la d a b c ma mb mc s
  | .dset g d a b ma mb cond => Sys2Proof.Machine.execDset g d a b ma mb cond s
  | .cvt g d a dst src => Sys2Proof.Machine.execCvt g d a dst src s
  | .cvti g d a dst src rz => Sys2Proof.Machine.execCvti g d a dst src rz s
  | .pack g d a b c fmt k one => Sys2Proof.Machine.execPack g d a b c fmt k one s
  | .unpack g d a fmt k => Sys2Proof.Machine.execUnpack g d a fmt k s
  | .scaleq g d a c fmt k => Sys2Proof.Machine.execScaleq g d a c fmt k s
  | .tagset g d a t pair => Sys2Proof.Machine.execTagset g d a t pair s
  | .tagget g d a => Sys2Proof.Machine.execTagget g d a s
  | .lnget g d a b mode sw w64 k bk pf => Sys2Proof.Machine.execLnget g d a b mode sw w64 k bk pf s
  | .lnpoll g d a neg cnt mode k bk pf => Sys2Proof.Machine.execLnpoll g d a neg cnt mode k bk pf s
  | .lneq g d a uni w64 k bk pf => Sys2Proof.Machine.execLneq g d a uni w64 k bk pf s
  | .lncomb g d a op ty k bk pf => Sys2Proof.Machine.execLncomb g d a op ty k bk pf s
  | .lnpfx g d a op ty excl k bk pf => Sys2Proof.Machine.execLnpfx g d a op ty excl k bk pf s
  | .bra g off lace => Sys2Proof.Machine.execBra g off lace s
  | .brx g a lace => Sys2Proof.Machine.execBrx g a lace s
  | .call g off lace => Sys2Proof.Machine.execCall g off lace s
  | .callx g a lace => Sys2Proof.Machine.execCallx g a lace s
  | .ret g => Sys2Proof.Machine.execRet g s
  | .exit g => Sys2Proof.Machine.execExit g s
  | .join g k => Sys2Proof.Machine.execJoin g k s
  | .leave g k => Sys2Proof.Machine.execLeave g k s
  | .waitm g k bk => Sys2Proof.Machine.execWaitm g k bk s
  | .laceset g k a => Sys2Proof.Machine.execLaceset g k a s
  | .laceget g d k => Sys2Proof.Machine.execLaceget g d k s
  | .yield g => Sys2Proof.Machine.execYield g s
  | .nop g => Sys2Proof.Machine.execNop g s
  | .brk g code => Sys2Proof.Machine.execBrk g code s
  | .trap g code => Sys2Proof.Machine.execTrap g code s
  | .svc g code => Sys2Proof.Machine.execSvc g code s
  | .ld g la d m ty ord sc na => Sys2Proof.Machine.execLd g la d m ty ord sc na s
  | .st g d m ty ord sc na => Sys2Proof.Machine.execSt g d m ty ord sc na s
  | .lds g la d m ty => Sys2Proof.Machine.execLds g la d m ty s
  | .sts g d m ty => Sys2Proof.Machine.execSts g d m ty s
  | .ldk g la d index off ty => Sys2Proof.Machine.execLdk g la d index off ty s
  | .atom g la d m op ty ord sc => Sys2Proof.Machine.execAtom g la d m op ty ord sc s
  | .atoms g la d m op ty => Sys2Proof.Machine.execAtoms g la d m op ty s
  | .red g m op ty ord sc => Sys2Proof.Machine.execRed g m op ty ord sc s
  | .cas g la d m ty ord sc => Sys2Proof.Machine.execCas g la d m ty ord sc s
  | .pref g m ty ep l2only => Sys2Proof.Machine.execPref g m ty ep l2only s
  | .discard g m d => Sys2Proof.Machine.execDiscard g m d s
  | .clean g m d => Sys2Proof.Machine.execClean g m d s
  | .publish g sc => Sys2Proof.Machine.execPublish g sc s
  | .refresh g sc => Sys2Proof.Machine.execRefresh g sc s
  | .xfence g p1 p2 => Sys2Proof.Machine.execXfence g p1 p2 s
  | .fence g sc => Sys2Proof.Machine.execFence g sc s
  | .linearm g m ty sc => Sys2Proof.Machine.execLinearm g m ty sc s
  | .linewait g d a => Sys2Proof.Machine.execLinewait g d a s
  | .acpy g la d a b c tag sz => Sys2Proof.Machine.execAcpy g la d a b c tag sz s
  | .acwait g a tag => Sys2Proof.Machine.execAcwait g a tag s
  | .chstart g a b c => Sys2Proof.Machine.execChstart g a b c s
  | .chstat g d a => Sys2Proof.Machine.execChstat g d a s
  | .chabort g a => Sys2Proof.Machine.execChabort g a s
  | .shfgo g d a => Sys2Proof.Machine.execShfgo g d a s
  | .shfwait g d a => Sys2Proof.Machine.execShfwait g d a s
  | .barinit g n a bk => Sys2Proof.Machine.execBarinit g n a bk s
  | .barinitFree g n bk => Sys2Proof.Machine.execBarinitFree g n bk s
  | .arrive g d n bk => Sys2Proof.Machine.execArrive g d n bk s
  | .arrdrop g d n bk => Sys2Proof.Machine.execArrdrop g d n bk s
  | .bwait g p a bk => Sys2Proof.Machine.execBwait g p a bk s
  | .bpwait g n q bk => Sys2Proof.Machine.execBpwait g n q bk s
  | .bsync g n bk => Sys2Proof.Machine.execBsync g n bk s
  | .fget g d a sc bk => Sys2Proof.Machine.execFget g d a sc bk s
  | .fput g a b sc bk => Sys2Proof.Machine.execFput g a b sc bk s
  | .fclaim g p a sc bk => Sys2Proof.Machine.execFclaim g p a sc bk s
  | .send g mode p a b bk => Sys2Proof.Machine.execSend g mode p a b bk s
  | .portcfgOpen g d a bk => Sys2Proof.Machine.execPortcfgOpen g d a bk s
  | .portcfgReg g a bk => Sys2Proof.Machine.execPortcfgReg g a bk s
  | .portcfgClose g a bk => Sys2Proof.Machine.execPortcfgClose g a bk s
  | .patset g a b bk => Sys2Proof.Machine.execPatset g a b bk s
  | .patsetTmpl g a b bk => Sys2Proof.Machine.execPatsetTmpl g a b bk s
  | .patarmOn g a bk => Sys2Proof.Machine.execPatarmOn g a bk s
  | .patarmOff g a bk => Sys2Proof.Machine.execPatarmOff g a bk s
  | .breakobj g k a bk => Sys2Proof.Machine.execBreakobj g k a bk s
  | .objstat g k d a bk => Sys2Proof.Machine.execObjstat g k d a bk s
  | .qbind g q a ep => Sys2Proof.Machine.execQbind g q a ep s
  | .qunbind g q => Sys2Proof.Machine.execQunbind g q s
  | .qstat g d q => Sys2Proof.Machine.execQstat g d q s
  | .qtry g d q p bk => Sys2Proof.Machine.execQtry g d q p bk s
  | .taskq g d a b => Sys2Proof.Machine.execTaskq g d a b s
  | .depdec g a bk => Sys2Proof.Machine.execDepdec g a bk s
  | .depnew g d a b => Sys2Proof.Machine.execDepnew g d a b s
  | .depfree g a => Sys2Proof.Machine.execDepfree g a s
  | .mxa g a b fmt sp => Sys2Proof.Machine.execMxa g a b fmt sp s
  | .mxb g a b fmt => Sys2Proof.Machine.execMxb g a b fmt s
  | .mxscale g a b mode => Sys2Proof.Machine.execMxscale g a b mode s
  | .mxsparse g a b => Sys2Proof.Machine.execMxsparse g a b s
  | .mxzero g t => Sys2Proof.Machine.execMxzero g t s
  | .mxload g t a b c fmt => Sys2Proof.Machine.execMxload g t a b c fmt s
  | .mxmma g t b c p => Sys2Proof.Machine.execMxmma g t b c p s
  | .mxstore g t a b c fmt => Sys2Proof.Machine.execMxstore g t a b c fmt s
  | .mxdrain g t q => Sys2Proof.Machine.execMxdrain g t q s
  | .mxwait g => Sys2Proof.Machine.execMxwait g s
  | .coll g d a => Sys2Proof.Machine.execColl g d a s
  | .cwait g d a => Sys2Proof.Machine.execCwait g d a s
  | .cstat g d a => Sys2Proof.Machine.execCstat g d a s
  | .viewrd g d a => Sys2Proof.Machine.execViewrd g d a s
  | .stepset g a b c => Sys2Proof.Machine.execStepset g a b c s
  | .rejoin g d a b => Sys2Proof.Machine.execRejoin g d a b s
  | .ctopen g a => Sys2Proof.Machine.execCtopen g a s
  | .ctclose g => Sys2Proof.Machine.execCtclose g s
  | .assaysig g d sel => Sys2Proof.Machine.execAssaysig g d sel s
  | .srd g d n w => Sys2Proof.Machine.execSrd g d n w s
  | .swr g n a w => Sys2Proof.Machine.execSwr g n a w s
  | .tret g => Sys2Proof.Machine.execTret g s
  | .fresume g => Sys2Proof.Machine.execFresume g s
  | .halt g => Sys2Proof.Machine.execHalt g s
  | .tlbinv g a d m => Sys2Proof.Machine.execTlbinv g a d m s
  | .tracemk g a w => Sys2Proof.Machine.execTracemk g a w s
  | .registerFileError u rs => Sys2Proof.Machine.execRegisterFileError u rs s
  | .cxlPortUp p width gen => Sys2Proof.Machine.execCxlPortUp p width gen s
  | .clusterClockGate k => Sys2Proof.Machine.execClusterClockGate k s
  | .unassignedEncoding w => Sys2Proof.Machine.execUnassignedEncoding w s
  | .powerLoss => Sys2Proof.Machine.execPowerLoss s
  | .powerApplied => Sys2Proof.Machine.execPowerApplied s
  | .coldResetRequest => Sys2Proof.Machine.execColdResetRequest s
  | .shutdownRequest => Sys2Proof.Machine.execShutdownRequest s
  | .shutdownDrained => Sys2Proof.Machine.execShutdownDrained s
  | .configSave => Sys2Proof.Machine.execConfigSave s
  | .thermalThrottle => Sys2Proof.Machine.execThermalThrottle s
  | .thermalShutdown => Sys2Proof.Machine.execThermalShutdown s
  | .wearCounterSave => Sys2Proof.Machine.execWearCounterSave s
  | .repairStart => Sys2Proof.Machine.execRepairStart s
  | .repairComplete => Sys2Proof.Machine.execRepairComplete s
  | .channelDrainEnd => Sys2Proof.Machine.execChannelDrainEnd s
  | .l1MissRequest => Sys2Proof.Machine.execL1MissRequest s
  | .homeSliceAccess => Sys2Proof.Machine.execHomeSliceAccess s
  | .quiesce => Sys2Proof.Machine.execQuiesce s
  | .dieClean => Sys2Proof.Machine.execDieClean s
  | .selfref => Sys2Proof.Machine.execSelfref s
  | .admitDie => Sys2Proof.Machine.execAdmit s
  | .homeMapWrite => Sys2Proof.Machine.execHomeMapWrite s
  | .parkWindowExpiry => Sys2Proof.Machine.execParkWindowExpiry s
  | .heldPublicationExpiry => Sys2Proof.Machine.execHeldPublicationExpiry s
  | .dataFlitReceive => Sys2Proof.Machine.execDataFlitReceive s
  | .heartbeatSend => Sys2Proof.Machine.execHeartbeatSend s
  | .suspicionTimeout => Sys2Proof.Machine.execSuspicionTimeout s
  | .agreementTimeout => Sys2Proof.Machine.execAgreementTimeout s
  | .viewFormation => Sys2Proof.Machine.execViewFormation s
  | .rejoinCopyDone => Sys2Proof.Machine.execRejoinCopyDone s
  | .hostMemspecrd => Sys2Proof.Machine.execHostMemspecrd s
  | .bisnpTimeout => Sys2Proof.Machine.execBisnpTimeout s
  | .invframe => Sys2Proof.Machine.execInvframe s
  | .reload => Sys2Proof.Machine.execReload s
  | .windowMemoryRead => Sys2Proof.Machine.execWindowMemoryRead s
  | .queueEnable => Sys2Proof.Machine.execQueueEnable s
  | .queueDisable => Sys2Proof.Machine.execQueueDisable s
  | .queueCancel => Sys2Proof.Machine.execQueueCancel s
  | .schedulePolicyReread => Sys2Proof.Machine.execSchedulePolicyReread s
  | .spillComplete => Sys2Proof.Machine.execSpillComplete s
  | .fillComplete => Sys2Proof.Machine.execFillComplete s
  | .portUnitEvent => Sys2Proof.Machine.execPortUnitEvent s
  | .pollRecheck => Sys2Proof.Machine.execPollRecheck s
  | .issueGroupForm => Sys2Proof.Machine.execIssueGroupForm s
  | .faultResume => Sys2Proof.Machine.execFaultResume s
  | .faultResumeAsid => Sys2Proof.Machine.execFaultResumeAsid s
  | .faultFail => Sys2Proof.Machine.execFaultFail s
  | .ringEnable => Sys2Proof.Machine.execRingEnable s
  | .ringTailWrite => Sys2Proof.Machine.execRingTailWrite s
  | .acpyComplete => Sys2Proof.Machine.execAcpyComplete s
  | .channelRecord => Sys2Proof.Machine.execChannelRecord s
  | .linewaitTimeout => Sys2Proof.Machine.execLinewaitTimeout s
  | .shuffleCommand => Sys2Proof.Machine.execShuffleCommand s
  | .matrixEngineCommand => Sys2Proof.Machine.execMatrixEngineCommand s
  | .assayVerdict => Sys2Proof.Machine.execAssayVerdict s
  | .containmentUnwind => Sys2Proof.Machine.execContainmentUnwind s
  | .debugStop => Sys2Proof.Machine.execDebugStop s
  | .debugStep => Sys2Proof.Machine.execDebugStep s
  | .debugRun => Sys2Proof.Machine.execDebugRun s
  | .debugRunCrew => Sys2Proof.Machine.execDebugRunCrew s
  | .debugStopCrew => Sys2Proof.Machine.execDebugStopCrew s
  | .debugEventPop => Sys2Proof.Machine.execDebugEventPop s
  | .dbgdataAccess => Sys2Proof.Machine.execDbgdataAccess s
  | .topdownSnap => Sys2Proof.Machine.execTopdownSnap s
  | .viewFormationTimeout => Sys2Proof.Machine.execViewFormationTimeout s
  | .replyArrival => Sys2Proof.Machine.execReplyArrival s

end Sys2Proof.Machine
end

