-- ==== Sys2Proof/Machine/TopDown.lean ====
section
/-! DEFINITION. The top-down counters: the leaf of each issue slot (spec/15 R334, R335; spec/08 R184; spec/03 R63; log 41). -/

namespace Sys2Proof.Machine

/-- The threads whose context is in a core's active bank. -/
def State.residents (s : State) (core : Nat) : List Thread := s.core.threads.filter fun t => t.id.core == core && s.resident t

/-- When a thread's present wait began. -/
def Thread.since (t : Thread) : Nat :=
  match t.run with
  | .waiting w => w.start
  | _ => t.ready

/-- A byte of a load is one that its domain stored or that its core's L1 holds. -/
def State.inOwnL1 (s : State) (r : Req) (a : Nat) : Bool :=
  ((s.mem.dom r.dom).stores.find a).isSome || (!r.isStrong && (s.l1Sec (s.reqAgent r) a).isSome)

/-- The level that serves a load (R334). -/
def State.loadLeaf (s : State) (r : Req) : Nat :=
  if r.isLds then 11
  else if isHost r.pa then 10
  else if (rangeFrom r.va r.size).all (s.inOwnL1 r) then 7
  else if s.mem.inL2 r.pa then 8
  else 9

/-- The instruction word of a group's position, none where its index lies past the clause. -/
def Group.word (g : Group) : Option Word := (g.clause.drop 1)[g.pos.i]?

/-- A group's next instruction is an ACPY that waits at issue for a full counter (R254). -/
def State.copyFull (s : State) (g : Group) : Bool :=
  match g.word.map decode with
  | some (.ok (.acpy _ _ _ _ _ _ tag _)) => g.due.any fun u => (s.thread u).cntOf tag.val == 15
  | _ => false

/-- The group of a thread that waits at issue for a full ACPY counter. -/
def State.copyGroup (s : State) (u : Nat) : Option Group := s.core.groups.find? fun g => g.due.contains u && s.copyFull g

/-- The leaf of a thread's wait: one with a request held for a die offline as parked (R72), one that holds an entry of the wait table by its
cause, one that polls as polling (R184), a system-register command as synchronisation (R63), an ACPY that meets a full counter as scratchpad (R254), a start mask by its oldest load. -/
def State.waitLeaf (s : State) (t : Thread) : Nat :=
  if s.reqParked t then 16 else match t.run with
  | .waiting w => if (if w.kind == .line then t.watch.any (·.poll) else w.poll) then 14 else match w.kind with
    | .lace | .rdv | .bwait | .bpwait | .bsync | .rejoin => 12
    | .qpop | .qpush | .mx => 15
    | .line | .fget | .send | .cwait => 13
  | .parked _ => 16
  | .stopped _ => 22
  | _ => if s.ext.entering.contains t.uid then 17 else if (s.copyGroup t.uid).isSome then 11 else if t.mark == some 0 then 12 else match s.core.reqs.find? fun r => r.thr == t.uid && (r.isLd || r.isLds) with
    | some r => s.loadLeaf r
    | none => if t.cnt != (0, 0, 0) then 11 else 19

/-- A group waits in place for a command that it gave through a system register (R63). -/
def State.commanding (s : State) (g : Group) : Bool := g.due.all fun u => (s.thread u).mark == some 0

/-- The port of an instruction (R198); a control core has one slot. -/
def portOf (core : Nat) (w : Option Word) : Nat :=
  if isCtl core then 0 else match w.bind classOf with
    | some 0 => 0
    | _ => 1

def Group.port (g : Group) : Nat := portOf g.core g.word

/-- The leaf of a slot of a core's port that issues nothing: the first rule of R334 that applies. A thread whose trap entry or return the last step
performed is not ready yet. -/
def State.idleLeaf (s : State) (core port : Nat) (ts : List Thread) : Nat :=
  let gs := s.core.groups.filter fun g => g.core == core && !s.commanding g && !s.copyFull g
  if !gs.isEmpty then (if gs.any fun g => g.port == port then 19 else 20)
  else if (ts.filter fun t => !s.ext.entering.contains t.uid).any s.mustFetch then 21
  else if (ts.filter fun t => !s.ext.entering.contains t.uid).any s.mayIssue then 19
  else
    let age (t : Thread) : Nat := (s.now t + 2 ^ 64 - t.since) % 2 ^ 64
    match ts.foldl (fun (b : Option Thread) t => match b with
      | some o => if age o < age t then some t else b
      | none => some t) none with
    | some t => s.waitLeaf t
    | none => 6

/-- Slots are added to a leaf. -/
def Core.addSlots (c : Core) (k n : Nat) : Core := { c with td := c.td.put k (c.td.getD 0 k + n) }

/-- The cycles of a swap still to come on a core: key 29. -/
def Core.swapping (c : Core) : Nat := c.td.getD 0 29

/-- What the last step issued: core and word; nothing where its group stands as it stood. -/
def State.issuedLast (s : State) : Option (Nat × Word) :=
  match s.ext.cur with
  | none => none
  | some g => if g.todo.isSome || s.core.groups.contains g then none else some (g.core, s.ext.iword)

/-- The slots of a core in n cycles: one of a port is the last step's instruction, the first of a swap are its own (R334). -/
def State.chargeCore (s : State) (n core : Nat) : State :=
  let ts := s.residents core
  let last := s.issuedLast.filter fun e => e.1 == core
  let sw := Nat.min n (s.coreAt core).swapping
  (if isCtl core then [0] else [0, 1]).foldl (fun (s : State) p =>
    let used := match last with
      | some e => if portOf core (some e.2) = p then 1 else 0
      | none => 0
    let own := Nat.min sw (n - used)
    let leaf := s.idleLeaf core p ts
    s.modCoreAt core fun c =>
      let c := c.addSlots leaf (n - used - own)
      let c := if own = 0 then c else c.addSlots 18 own
      if used = 0 then c else c.addSlots ((last.bind fun e => classOf e.2).getD 1) 1)
    (if sw = 0 then s else s.modCoreAt core fun c => { c with td := c.td.put 29 (c.swapping - sw) })

/-- The cores whose slots are not all without a resident thread: with threads, with a swap going on, with an instruction in the last step. -/
def State.slotCores (s : State) : List Nat :=
  (s.core.threads.map (·.id.core) ++ (s.core.cores.filter fun e => e.2.swapping != 0).map (·.1) ++
    (s.issuedLast.map (·.1)).toList).eraseDups

/-- The slots of those cores, in the cycles that a tick took from `before`. -/
def State.chargeSlots (before s : State) : State :=
  s.slotCores.foldl (fun (s : State) core =>
    s.chargeCore ((s.cycleOf (dieOf core) + 2 ^ 64 - before.cycleOf (dieOf core)) % 2 ^ 64) core) s

end Sys2Proof.Machine
end

