-- ==== Sys2Proof/Machine/Pick.lean ====
section
/-! DEFINITION. What a step does: the next of the events to come, else one of the things that the machine can do now, the choice among
several being free (spec/01 R9; spec/09 R198; log 6). -/

namespace Sys2Proof.Machine

/-- All sublists of a list. -/
def sublists : List Nat → List (List Nat)
  | [] => [[]]
  | x :: xs => sublists xs ++ (sublists xs).map (x :: ·)

/-- The event of a held host request that may now be served. -/
def reqEvent : HostReq → Instr
  | .rd pa => .hostMemrd pa
  | .inv pa => .hostMeminv pa
  | .release pa => .hostMeminvRelease pa
  | .wr pa b grant poison => .hostMemwr pa b grant poison

def when_ (b : Bool) (l : List Instr) : List Instr := if b then l else []

/-- What the cores, their requests and their engines can do of themselves. -/
def State.coreEvents (s : State) : List Instr :=
  when_ (!s.coresReady.isEmpty || !s.newCrews.isEmpty) [.issueGroupForm] ++ when_ (!s.wakeable.isEmpty) [.pollRecheck] ++
  when_ (!s.timedOut.isEmpty) [.linewaitTimeout] ++ when_ (!s.unwindsDue.isEmpty) [.containmentUnwind] ++
  when_ (!s.issued.isEmpty) [.l1MissRequest] ++ when_ (!s.performable.isEmpty) [.homeSliceAccess] ++
  when_ (!s.answered.isEmpty) [.replyArrival] ++ when_ (!s.copiesReady.isEmpty) [.acpyComplete] ++
  when_ (!s.btSteps.isEmpty) [.channelRecord] ++ when_ (!s.shSteps.isEmpty) [.shuffleCommand] ++
  when_ (!s.mxClusters.isEmpty) [.matrixEngineCommand] ++ when_ (!s.collSteps.isEmpty) [.dataFlitReceive] ++
  when_ (!s.portClusters.isEmpty) [.portUnitEvent] ++ when_ (!s.verdictsDue.isEmpty) [.assayVerdict]

/-- What the dispatch firmware and the context banks can do. -/
def State.taskEvents (s : State) : List Instr :=
  when_ (!s.rereads.isEmpty) [.schedulePolicyReread] ++ when_ (!s.spillsReady.isEmpty) [.spillComplete] ++
  when_ (!s.fillsReady.isEmpty) [.fillComplete] ++ s.swapsHeld.map fun e => .contextSwap e.1 e.2.1 e.2.2

/-- What a warm reset, and the windows of accesses to an offline die, can do. -/
def State.linkEvents (s : State) : List Instr :=
  when_ s.quiesceReady [.quiesce] ++ when_ s.cleanReady [.dieClean] ++ when_ s.selfrefReady [.selfref] ++
  when_ (s.drNow 4).isSome [.dieReset []] ++
  (match s.drNow 5 with
    | some c => (sublists (linksOf c.die)).map .dieRetrain
    | none => []) ++
  when_ ((s.drNow 6).isSome || s.lateReady) [.admitDie] ++ when_ (!s.parksOver.isEmpty) [.parkWindowExpiry] ++
  when_ (!s.pubsOver.isEmpty) [.heldPublicationExpiry]

/-- What the memory controllers and the management core can do. -/
def State.healthEvents (s : State) : List Instr :=
  when_ (!s.repairable.isEmpty) [.repairStart] ++ when_ (!s.repairing.isEmpty) [.repairComplete] ++
  when_ (!s.draining.isEmpty) [.channelDrainEnd] ++
  (((s.plat.health.ues.map (· / 64)).eraseDups).filter s.twiceBad).map fun f => .pageRetire f 1

/-- What the management core can do for the state that it keeps, in every state of the module. -/
def State.powerEvents (s : State) : List Instr :=
  when_ (s.plat.power.saves != 0) [.configSave] ++ when_ s.drained [.shutdownDrained]

/-- What membership timers and the host's side can do. -/
def State.outerEvents (s : State) : List Instr :=
  when_ s.beatDue [.heartbeatSend] ++ when_ (!s.silent.isEmpty) [.suspicionTimeout] ++ when_ s.agreeLate [.agreementTimeout] ++
  when_ s.formLate [.viewFormationTimeout] ++ when_ s.rejoinReady [.rejoinCopyDone] ++
  when_ (!s.lateSnoops.isEmpty) [.bisnpTimeout] ++ s.hostReady.map reqEvent

/-- Something the machine can do now: a group executes its next instruction, or an event of its own. -/
inductive Cand where
  | group (g : Group)
  | ev (i : Instr)
deriving DecidableEq, Repr

/-- A group as it still is. -/
def State.still (s : State) (g : Group) : Option Group :=
  s.core.groups.find? fun h => h.core == g.core && h.pos == g.pos && h.members.any g.members.contains

/-- A group met an instruction that could not go on, and nothing has happened since. -/
def State.passedBy (s : State) (g : Group) : Bool :=
  s.ext.passed.any fun h => h.core == g.core && h.pos == g.pos && h.members.any g.members.contains

/-- The groups that may issue: on each port of a core the one formed earliest of those not found waiting (R198). -/
def State.issuers (s : State) : List Group :=
  let l := s.core.groups.filter fun g => !s.frozen g.core && !s.passedBy g
  l.filter fun g => (l.find? fun h => h.core == g.core && h.port == g.port) == some g

/-- What the machine can do of itself: once Shutdown has saved the state, only what the management core does (R23). -/
def State.candidates (s : State) : List Cand :=
  (if s.live then s.issuers.map Cand.group ++ (s.coreEvents ++ s.taskEvents ++ s.linkEvents ++ s.healthEvents ++ s.outerEvents).map .ev else []) ++
    s.powerEvents.map .ev

/-- The instruction of a word: a word that is no instruction raises 0x01 (R353). -/
def instrOf (w : Word) : Instr :=
  match decode w with
  | .ok i => i
  | .error _ => .unassignedEncoding w

/-- The state in which a group executes a word. -/
def State.issueAs (s : State) (g : Group) (w : Word) : State :=
  (s.onExt fun e => { e with cur := some g, iword := w }).onLinks fun l => { l with order := l.order.filter fun w => match w with
    | .thread u => !g.due.contains u
    | _ => true }

/-- A group's next instruction: none where events stopped every member, or its position is past its clause (0x02, log 8). -/
def State.groupInstr (s : State) (g : Group) : Option Instr × State :=
  let s := s.beforeGroup g
  match s.still g with
  | none => (none, s)
  | some g => match g.word with
    | none => (none, g.due.foldl (fun (s : State) u => s.applyFlow u (.trap 0x02 (BitVec.ofNat 64 g.pos.a) false)) s)
    | some w => (some (instrOf w), s.issueAs g w)

/-- One of the things the machine can do; none when there is nothing. -/
def State.ownInstr (s : State) : Option Instr × State :=
  match s.candidates with
  | [] => (none, s)
  | c :: cs => match chooseFrom (c :: cs) c s with
    | (.ev i, s) => (some i, s)
    | (.group g, s) => s.groupInstr g

/-- The groups found waiting, with the one that the last step tried where it stands as it stood; anything else that happened clears them. -/
def State.passed (s : State) : List Group :=
  match s.ext.cur with
  | some g => if (s.still g).isSome then g :: s.ext.passed else []
  | none => []

/-- The port units complete what the last step's events made possible (R170). -/
def State.settleUnits (s : State) : State := s.portClusters.foldl State.portEvent s

/-- Process parks reach further cores, each when it will (R235). -/
def State.spreadParks (s : State) : State :=
  (s.task.fns.filter fun e => !e.2.mem.pparks.isEmpty).foldl (fun (s : State) e =>
    let (ps, s) := e.2.mem.pparks.foldl (fun (acc : List PPark × State) p =>
      let cores := ((s.core.threads.filter fun t => t.id.fn == e.1 && t.id.asid == p.asid).map (·.id.core)).eraseDups
      let (more, s) := chooseSubset (cores.filter fun c => !p.cores.contains c) acc.2
      (acc.1 ++ [{ p with cores := p.cores ++ more }], s)) ([], s)
    s.modFn e.1 fun g => { g with mem := { g.mem with pparks := ps } }) s

/-- Time passes, what waited for its way or its turn is tried again, and no group executes yet. -/
def State.begin_ (s : State) : State :=
  let s := s.chargeSlots s.tick
  (if s.live then (rangeFrom 0 4).foldl State.goRound s.settleChores.settleUnits.settleWindow.trainDown.noteStalls.spreadParks.policyDue else s).onExt fun e => { e with cur := none, iword := 0, inst := s.core.nextReq, pushes := [], entering := [], passed := s.passed }

/-- What a step executes, and the state in which it does: the next event to come, or something of the machine's own. -/
def State.nextInstr (s : State) : Option Instr × State :=
  let s := s.begin_
  match s.ext.agenda with
  | some i :: r => (some i, s.onExt fun e => { e with agenda := r })
  | none :: r => (s.onExt fun e => { e with agenda := r }).ownInstr
  | [] => s.ownInstr

/-- Nothing is powered and nothing is to come (R23). -/
def State.dead (s : State) : Bool := s.plat.power.st == .off && s.ext.agenda.isEmpty

/-! A word placed where the next step runs it (log 1). -/

/-- The core that runs a word: the control core for the matrix majors, else a SIMT core (R300). -/
def coreFor (w : Nat) : Nat := if w / 2 ^ 58 = 0x20 || w / 2 ^ 58 = 0x21 then 4 else 0

/-- The header of a clause of one instruction on a core (R337). -/
def oneHeader (core : Nat) : Word := BitVec.ofNat 64 (0xC * 2 ^ 60 + (if isCtl core then 1 else 0) * 2 ^ 57)

/-- The crew and thread that run a placed word, as a launch and the first fetch would leave them; the thread is at level H. -/
def placedCrew (core : Nat) : Crew where
  uid := 1
  base := 1
  slot := 0
  launch := 1
  fn := 0
  asid := 0
  exk := 0x8000
  core := core
  ctx := 1
  row0 := 0
  lbase := 0
  regbase := 0
  nregs := 224
  scrbase := 0
  scrUnits := 0
  n := 1
  lvl := .h
  task := ⟨0x1000, 0, 0, 0, 0, 0, 0, 0, 0⟩
  copy := 0
  peer := none
  qb := []
  claims := []
  assay := Assay.reset
  excl := false

def placedThread (core : Nat) (clause : List Word) : Thread :=
  { Thread.none_ with
    uid := 1, id := ⟨core, 1, 0, 0, 1, 0, 0, 1, 0, 0x8000, 0, some 0, 0⟩, lvl := .h, pos := ⟨0x1000, 0⟩, clause := clause, run := .grouped }

/-- The cores run one thread, in a group at a clause of one word, and nothing else is to come or to be done. -/
def State.place1 (s : State) (w : Word) : State :=
  let core := coreFor w.toNat
  let cl := [oneHeader core, w]
  { s with
    ext := { s.ext with agenda := [], cur := none, passed := [] }
    mem := { s.mem with doms := [] }
    core := { CoreSys.reset with
      threads := [placedThread core cl]
      groups := [⟨core, .h, ⟨0x1000, 0⟩, cl, [1], none⟩]
      crews := [placedCrew core]
      cores := [(core, { Core.reset with active := some 1 })]
      nextThr := 2
      nextCrew := 2
      nextCtx := 2 }
    task := { s.task with channels := [], patterns := [], ports := [], chores := [], disp := [], schEn := false }
    plat := { s.plat with
      winq := []
      power := { s.plat.power with st := .run, saves := 0 }
      health := Health.reset
      links := Links.reset
      nor := Norano.reset
      host := HostSys.reset } }

end Sys2Proof.Machine
end

