-- ==== Sys2Proof/Machine/Step.lean ====
section
/-! DEFINITION. One step of the machine, and a word placed where the next step runs it. -/

namespace Sys2Proof.Machine

/-- One step: the next of the events to come or one thing that the machine does of itself; a step in which it can do nothing lets
time pass. -/
def step (s : State) : Host.Outcome State Fault Refusal :=
  if s.dead then .fault .powerOff
  else match s.nextInstr with
    | (some i, s) => exec i s
    | (none, s) => .next s

/-- The next step runs the word w alone (log 1). -/
def State.withFetchWord (s : State) (nbits w : Nat) : State := s.place1 (BitVec.ofNat 64 (w % 2 ^ nbits))

end Sys2Proof.Machine
end

