-- ==== Sys2Proof/Safety.lean ====
section
/-! DEFINITION. What claims are made in terms of: a safe run, the canonical form of memory, a group that passes the checks of
R351, and what an instruction must leave alone. -/

namespace Sys2Proof.Machine

/-- Memory is in canonical form: addresses strictly rising, no entry equal to what an unlisted byte reads as. -/
def Memory.wf (m : MemSys) : Bool := m.bytes.canon memDefault

/-- The members of every executing group are distinct. -/
def State.groupsOk (s : State) : Bool := s.core.groups.all fun g => decide g.members.Nodup

/-- A state of a safe run: memory is canonical and no thread executes twice in a group. -/
def State.Safe (s : State) : Prop := Memory.wf s.mem = true ∧ s.groupsOk = true

/-- A run of k steps is safe: no step of it stops the machine, and its states are safe. -/
def SafeRun : Nat → State → Prop
  | 0, s => s.Safe
  | k + 1, s => s.Safe ∧ ∃ t, step s = .next t ∧ SafeRun k t

/-- The group's members that execute an instruction with a guard: the others skip it (R340). -/
def State.activeIn (s : State) (g : Group) (gd : Guard) : List Nat := g.members.filter fun u => (s.thread u).guardOk gd

/-- No thread of a list is being stepped or re-issued, has waited at its instruction or holds an element popped for it. -/
structure State.Calm (s : State) (l : List Nat) : Prop where
  threads : ∀ t ∈ s.core.threads, t.uid ∈ l → t.stepping = false ∧ t.reissue = false ∧ t.mark = none
  bare    : ∀ u ∈ l, s.ext.pops.find u = none ∧ s.ext.placed.contains u = false

/-- The group `g` executes an instruction from its start: no member is being stepped or re-issued or has waited at it. -/
structure State.Issues (s : State) (g : Group) : Prop where
  cur      : s.ext.cur = some g
  here     : s.core.groups.find? (fun h => h.core == g.core && h.members.any g.members.contains) = some g
  whole    : g.todo = none
  distinct : g.members.Nodup
  fresh    : s.ext.pushes = []
  calm     : s.Calm g.members
  grouped  : ∀ t ∈ s.core.threads, t.uid ∈ g.members → t.run = .grouped
  present  : ∀ u ∈ g.members, (s.thread? u).isSome = true

/-- The instruction, with the guard `gd` and the operand demands `sp`, may stand where it stands, and every member whose predicate holds
passes the checks of R351 and meets no outstanding result; for an instruction that the primary of an assay pair alone performs no
active member is of a pair. -/
structure State.Passes (s : State) (g : Group) (gd : Guard) (sp : Spec) : Prop extends s.Issues g where
  encoded  : sp.encodingOk (isCtl g.core) (g.clause.length - 2) g.pos.i = true
  clear    : ∀ u ∈ s.activeIn g gd, s.conflicts u (sp.reads (s.thread u).isCtl ++ sp.writes (s.thread u).isCtl) = []
  checked  : ∀ u ∈ s.activeIn g gd, sp.check s (s.thread u) = none
  unpaired : sp.primary = true → ∀ u ∈ s.activeIn g gd, ∀ c, s.crew? (s.thread u).id.crew = some c → c.peer = none

/-- The instruction moreover names no queue register. -/
structure State.Runs (s : State) (g : Group) (gd : Guard) (sp : Spec) : Prop extends s.Passes g gd sp where
  direct   : sp.queueSrc = none ∧ sp.queueDst = none

/-- A group of one thread, whose predicate holds, executes an instruction. -/
structure State.RunsAlone (s : State) (g : Group) (u : Nat) (gd : Guard) (sp : Spec) : Prop extends s.Runs g gd sp where
  one   : g.members = [u]
  holds : (s.thread u).guardOk gd = true

/-- A thread without what only places it: where it stands and how it is scheduled. -/
def Thread.content (t : Thread) : Thread :=
  { t with pos := ⟨0, 0⟩, clause := [], run := .ready, ready := 0, yielded := false }

/-- A function without its count of issue slots (R200). -/
def Fn.content (f : Fn) : Fn := { f with fissue := 0 }

/-- The functions are the same but for their issue counts. -/
def State.sameFns (s t : State) : Prop := ∀ f, (t.fnAt f).content = (s.fnAt f).content

/-- A state without what only places and schedules its threads: positions, groups and windows of outstanding requests; without
the issue counts of its functions (see `sameFns`). -/
def State.arch (s : State) : State :=
  { s with
    core := { s.core with
      threads := s.core.threads.map Thread.content
      groups := []
      reqs := s.core.reqs.map fun r => { r with win := (⟨0, 0⟩, 0) } }
    task := { s.task with fns := [] } }

/-- `t` is `r` but for where its threads stand, how they are scheduled, and issue counts. -/
structure State.Like (r t : State) : Prop where
  arch : t.arch = r.arch
  fns  : r.sameFns t

/-- `t` is `r` but for the issue counts of its functions (R200). -/
structure State.Charged (r t : State) : Prop where
  rest : { t with task := { t.task with fns := [] } } = { r with task := { r.task with fns := [] } }
  fns  : r.sameFns t

/-- The state in which the context of each active member `u` is changed by `f u`, and nothing else. -/
def State.onActive (s : State) (g : Group) (gd : Guard) (f : Nat → Thread → Thread) : State :=
  s.onCore fun k => { k with threads := k.threads.map fun t => if (s.activeIn g gd).contains t.uid then f t.uid t else t }

/-- The context of a thread that enters a trap handler (R444). -/
def Thread.trapped (t : Thread) (h : Bool) (c : Nat) (v : Word) (p : Pos) (vec now : Nat) : Thread :=
  { t.setBank h ⟨c, p.i, p.a, v, true, t.lvl⟩ with
    lvl := if h then .h else .g
    watch := none
    run := .ready
    pos := ⟨vec, 0⟩
    ready := now
    clause := []
    mark := none }

/-! The words in which results of instructions are claimed. -/

/-- The position that follows an instruction of a group (R339). -/
def Group.next (g : Group) : Pos :=
  let n := g.clause.length - 2
  if g.pos.i < n then ⟨g.pos.a, g.pos.i + 1⟩ else ⟨g.pos.a + 16 + 8 * n, 0⟩

/-- In `t` the group that executes in `s` is past its instruction: every member of it stands at the position that follows. -/
def State.WentOn (s t : State) : Prop := ∀ g, s.ext.cur = some g → ∀ u ∈ g.members, (t.thread u).pos = g.next

/-- The instruction completes: the group goes on to what follows it, and its whole effect is that the context of each active member
`u` is changed by `f u`. -/
def State.Local (s : State) (g : Group) (gd : Guard) (i : Instr) (f : Nat → Thread → Thread) : Prop :=
  ∃ t, exec i s = .next t ∧ (s.onActive g gd f).Like t ∧ s.WentOn t

/-- The instruction completes for a group of the thread `u` alone, which goes on to what follows it, and its whole effect is that of `f`,
which takes the state after the issue charge (R200). -/
def State.Alone (s : State) (u : Nat) (i : Instr) (f : State → State) : Prop :=
  ∃ t, exec i s = .next t ∧ (f (s.charge [u])).Like t ∧ s.WentOn t

/-- The instruction completes for a group of the thread `u` alone, and leaves exactly what `f` makes of the state after the charge. -/
def State.Exactly (s : State) (u : Nat) (i : Instr) (f : State → State) : Prop := exec i s = .next (f (s.charge [u]))

/-- The low w bits of an operand. -/
def State.bits (s : State) (u : Nat) (r : RegF) (w : Nat) : BitVec w := (s.readR (s.thread u) r).val.setWidth w

/-- The 64 bits of a pair operand: two registers on a SIMT core, one on a control core. -/
def State.pairBits (s : State) (u : Nat) (r : RegF) : BitVec 64 :=
  if (s.thread u).isCtl then s.bits u r 64
  else match r with
    | .gpr n => ((s.thread u).reg (n.val + 1)).val.setWidth 32 ++ ((s.thread u).reg n.val).val.setWidth 32
    | _ => 0

/-- A thread whose destination register has taken a value with a tag; a control core keeps no tags, and a destination that is no
numbered register takes nothing. -/
def State.wrote (s : State) (u : Nat) (d : RegF) (tg : Tag) {w : Nat} (v : BitVec w) (t : Thread) : Thread :=
  match d with
  | .gpr n => t.setReg n.val ⟨v.setWidth 64, if (s.thread u).isCtl then .b32 else tg⟩
  | _ => t

/-- A thread whose destination pair has taken 64 bits. -/
def State.wrotePair (s : State) (u : Nat) (d : RegF) (v : BitVec 64) (t : Thread) : Thread :=
  match d with
  | .gpr n =>
    if (s.thread u).isCtl then t.setReg n.val ⟨v, .b32⟩
    else (t.setReg n.val ⟨(v.extractLsb' 0 32).setWidth 64, .w64lo⟩).setReg (n.val + 1) ⟨(v.extractLsb' 32 32).setWidth 64, .w64hi⟩
  | _ => t

/-- A thread whose destination register or predicate has taken a truth value. -/
def State.wroteBool (s : State) (u : Nat) (d : DestP) (b : Bool) (t : Thread) : Thread :=
  match d with
  | .reg r => s.wrote u r .i32 (BitVec.ofNat 32 b.toNat) t
  | .pred p => t.setPred p.val b

/-- A thread whose destination register has taken a register, tag and all. -/
def Thread.took (t : Thread) (d : RegF) (x : Reg) : Thread :=
  match d with
  | .gpr n => t.setReg n.val x
  | _ => t

/-- What the operands of a form must be: sources of one kind, one destination. -/
def needs (k : Kind) (srcs : List RegF) (d : RegF) : Spec :=
  { srcs := (srcs.zip (rangeFrom 1 3)).map fun e => ⟨e.2, e.1, k⟩, dsts := [(d, 1)] }

/-- The result of an instruction with one source: the destination takes `f`, at the thread's width. -/
def State.Gives1 (s : State) (g : Group) (gd : Guard) (d : RegF) (tg : Tag) (a : RegF) (f : (w : Nat) → BitVec w → BitVec w)
    (i : Instr) : Prop :=
  s.Local g gd i fun u => s.wrote u d tg (f (s.width u) (s.bits u a _))

/-- The result of an instruction with two sources. -/
def State.Gives2 (s : State) (g : Group) (gd : Guard) (d : RegF) (tg : Tag) (a b : RegF)
    (f : (w : Nat) → BitVec w → BitVec w → BitVec w) (i : Instr) : Prop :=
  s.Local g gd i fun u => s.wrote u d tg (f (s.width u) (s.bits u a _) (s.bits u b _))

/-- The result of an instruction with three sources. -/
def State.Gives3 (s : State) (g : Group) (gd : Guard) (d : RegF) (tg : Tag) (a b c : RegF)
    (f : (w : Nat) → BitVec w → BitVec w → BitVec w → BitVec w) (i : Instr) : Prop :=
  s.Local g gd i fun u => s.wrote u d tg (f (s.width u) (s.bits u a _) (s.bits u b _) (s.bits u c _))

/-- An integer held to the range of a width, signed or unsigned. -/
def clampTo (w : Nat) (u : Bool) (v : Int) : BitVec w :=
  if u then BitVec.ofInt w (max 0 (min v (2 ^ w - 1))) else BitVec.ofInt w (max (-(2 ^ (w - 1))) (min v (2 ^ (w - 1) - 1)))

/-- A bit pattern read as signed or unsigned. -/
def asInt {w : Nat} (u : Bool) (x : BitVec w) : Int := if u then (x.toNat : Int) else x.toInt

/-- A result that wraps or saturates. -/
def narrowed (w : Nat) (u sat : Bool) (v : Int) : BitVec w := if sat then clampTo w u v else BitVec.ofInt w v

/-- The bits of a field of n bits at p, cut at the width. -/
def fieldMask (w p n : Nat) : BitVec w := BitVec.ofNat w ((2 ^ (min (p + n) w - p) - 1) * 2 ^ p)

/-- A thread that has taken a 32-bit result and ORed flags into FFLAGS. -/
def State.wroteF (s : State) (u : Nat) (d : RegF) (tg : Tag) (r : Nat × Fl) (t : Thread) : Thread :=
  { s.wrote u d tg (BitVec.ofNat 32 r.1) t with fflags := t.fflags ||| r.2 }

/-- Operand demands of a SIMT instruction. -/
def onSimt (sp : Spec) : Spec := { sp with ctl := false }

/-- A thread has left its group and stands, ready, at a position, with the clause it has fetched there; the yield hint of the clause it
left holds for it (R202). -/
def State.wentTo (s : State) (u : Nat) (p : Pos) (ws : List Word) : State :=
  let hint := ((s.thread u).clause.headD 0).getLsbD 44
  (s.leave u).modThread u fun t => { t with
    run := .ready, pos := p, ready := s.now t, clause := ws, mark := none, yielded := t.yielded || hint }

/-- A thread has left its group and entered the trap handler of level G, or H: the bank holds cause, value, position and level; the step notes that
it entered (R334). -/
def State.tookTrap (s : State) (u : Nat) (h : Bool) (c : Nat) (v : Word) (p : Pos) : State :=
  let f := s.fnAt (s.thread u).id.fn
  ((s.leave u).entering u).modThread u fun t => t.trapped h c v p (if h then f.tvech else f.tvecg) (s.now t)

/-- A trap of a cause by a thread goes to level H, or G, and its handler is free and enabled. -/
def State.TrapOpen (s : State) (u : Nat) (c : Nat) (h : Bool) : Prop :=
  let t := s.thread u
  s.trapToH t c = h ∧ (t.bank h).inh = false ∧ (if h then (s.fnAt t.id.fn).tvechEn else (s.fnAt t.id.fn).tvecgEn) = true ∧
    (c = 0x0B → t.ct = [])

/-- The thread u may go on in its group: groups are as they were, the thread stands where it stood with its registers and is neither
stepped nor re-issued, and the step has moved no element of a queue register. -/
structure State.Steady (s : State) (u : Nat) (r : State) : Prop where
  there  : (r.thread? u).isSome = true
  groups : r.core.groups = s.core.groups
  calm   : r.Calm [u]
  elems  : r.ext.pushes = []
  same   : (r.thread u).id = (s.thread u).id ∧ (r.thread u).regs = (s.thread u).regs ∧ (r.thread u).pos = (s.thread u).pos

/-- No function's accesses are traced. -/
def State.Untraced (s : State) : Prop := ∀ f, (s.fnAt f).trace.ring.en = false

/-- The thread u is in no group, and the step has moved no element of a queue register. -/
def State.Gone (r : State) (u : Nat) : Prop := (∀ g ∈ r.core.groups, u ∉ g.members) ∧ r.ext.pushes = []

/-- The instruction completes: its group goes on to what follows it, and it leaves the state r but for places, schedules and issue counts. -/
def State.Becomes (s : State) (i : Instr) (r : State) : Prop := ∃ t, exec i s = .next t ∧ r.Like t ∧ s.WentOn t

/-- The instruction completes, and leaves exactly what `f` makes of the state for one member of a list; with several it is a free choice. -/
def State.Picks {α : Type} (s : State) (i : Instr) (l : List α) (f : α → State → State) : Prop :=
  ∃ x ∈ l, ∃ n, exec i s = .next (f x (s.onExt fun e => { e with fresh := n }))

/-- The instruction completes, and its next state has a property. -/
def State.Leads (s : State) (i : Instr) (p : State → Prop) : Prop := ∃ r, exec i s = .next r ∧ p r

/-- A thread's destination has taken a value with a tag. -/
def State.gave (s : State) (u : Nat) (d : RegF) (tg : Tag) (v : Nat) : State :=
  s.modThread u (s.wrote u d tg (BitVec.ofNat (s.width u) v))

/-- A thread's destination pair has taken 64 bits. -/
def State.gave64 (s : State) (u : Nat) (d : RegF) (v : Nat) : State := s.modThread u (s.wrotePair u d (BitVec.ofNat 64 v))

/-- A thread's predicate has taken a truth value. -/
def State.gaveP (s : State) (u : Nat) (p : PredF) (b : Bool) : State := s.modThread u fun t => t.setPred p.val b

/-! Cross-lane instructions. -/

/-- Every active member outside a trap handler is a member of the unbroken lace k, and every thread of its key there is in the group. -/
structure State.Meets (s : State) (g : Group) (gd : Guard) (sp : Spec) (k : Nat) : Prop extends s.Runs g gd sp where
  member   : ∀ u ∈ s.activeIn g gd, (s.thread u).inHandler = false →
    s.laceBroken (s.thread u) k = false ∧ (s.lace (s.thread u) k).mem.getLsbD (s.thread u).id.lane = true
  together : ∀ u ∈ s.activeIn g gd, ∀ v ∈ s.participants (s.thread u) k, v ∈ g.members

/-- The active participants of a thread (R399). -/
def State.acting (s : State) (g : Group) (gd : Guard) (u k : Nat) : List Nat :=
  (s.participants (s.thread u) k).filter (s.activeIn g gd).contains

/-- The active participants in lane order. -/
def State.partners (s : State) (g : Group) (gd : Guard) (u k : Nat) : List Nat :=
  (List.range 32).flatMap fun l => (s.acting g gd u k).filter fun v => (s.thread v).id.lane == l

/-- Some participant of a thread is not active (R399). -/
def State.foreign (s : State) (g : Group) (gd : Guard) (u k : Nat) : Bool :=
  (s.acting g gd u k).length != (s.participants (s.thread u) k).length

/-- The mask of the lanes of threads in different lanes. -/
def State.lanesIn (s : State) (us : List Nat) : BitVec 32 := us.foldl (fun m v => m + (1 : BitVec 32) <<< (s.thread v).id.lane) 0

/-! Exact values as rational numbers. -/

/-- The rational number of a finite value; 0 of the others. -/
def FV.val : FV → Rat
  | .fin neg m e => (if neg then -1 else 1) * (m : Rat) * (2 : Rat) ^ e
  | _ => 0

/-- The value is finite. -/
def FV.finite : FV → Bool
  | .fin _ _ _ => true
  | _ => false

/-- The distance of a code of a format from a number. -/
def Fmt.dist (f : Fmt) (c : Nat) (x : Rat) : Rat := ((f.widen c).val - x).abs

/-- The code is the number correctly rounded to the format (R292): finite, no finite code is nearer, and of two that are equally near
it is the even one, or the one farther from zero where the format's ties go away. -/
def Fmt.Rounds (f : Fmt) (x : Rat) (c : Nat) : Prop :=
  c < 2 ^ f.w ∧ (f.widen c).finite = true ∧ ∀ b < 2 ^ f.w, (f.widen b).finite = true →
    f.dist c x ≤ f.dist b x ∧
    (f.dist c x = f.dist b x → (f.widen b).val = (f.widen c).val ∨ if f.away then (f.widen b).val.abs < (f.widen c).val.abs else c % 2 = 0)

/-- A result with its flags is the number correctly rounded, NX says whether it is inexact; or it has overflowed, which OF says. -/
def Fmt.Correct (f : Fmt) (x : Rat) (r : Nat × Fl) : Prop :=
  if r.2.getLsbD 2 then (∀ b < 2 ^ f.w, (f.widen b).finite = true → (f.widen b).val.abs < x.abs) ∧ r.2.getLsbD 0 = true
  else f.Rounds x r.1 ∧ (r.2.getLsbD 0 = true ↔ (f.widen r.1).val ≠ x)

end Sys2Proof.Machine
end

