-- ==== Sys2Proof/Certificates/Slice0/Obligations.lean ====
section
/-! DEFINITION. What is claimed of the machine: one statement per definition. -/

open Sys2Proof Sys2Proof.Machine

/-- R361, R362, on any core: the arithmetic of major 0x01 with two register operands; a group's every active member gets its result
in the destination, tagged I32 on a SIMT core, and nothing else changes but positions and issue counts. -/
def Obligations.IntegerArithmeticGivesTheExactResult : Prop :=
  ∀ (s : State) (g : Group) (gd : Guard) (a b d : RegF), s.Runs g gd (needs .int [a, b] d) → ∀ u sat : Bool,
    s.Gives2 g gd d .i32 a b (fun w x y => narrowed w u sat (asInt u x + asInt u y)) (.iadd gd d a b u sat) ∧
    s.Gives2 g gd d .i32 a b (fun w x y => narrowed w u sat (asInt u x - asInt u y)) (.isub gd d a b u sat) ∧
    s.Gives2 g gd d .i32 a b (fun _ x y => x * y) (.imul gd d a b) ∧
    s.Gives2 g gd d .i32 a b (fun w x y => BitVec.ofInt w (asInt u x * asInt u y / 2 ^ w)) (.imulh gd d a b u) ∧
    s.Gives2 g gd d .i32 a b (fun _ x y => if asInt u x ≤ asInt u y then x else y) (.imin gd d a b u) ∧
    s.Gives2 g gd d .i32 a b (fun _ x y => if asInt u x ≤ asInt u y then y else x) (.imax gd d a b u)

/-- R361, R362, R364, R365: the two-operand instructions of major 0x02; the forms with one and three operands of majors 0x01 and 0x02. -/
def Obligations.BitwiseShiftsCountsAndFieldsGiveTheirResults : Prop :=
  (∀ (s : State) (g : Group) (gd : Guard) (a b d : RegF), s.Runs g gd (needs .int [a, b] d) →
     s.Gives2 g gd d .b32 a b (fun _ x y => x &&& y) (.and gd d a b) ∧
     s.Gives2 g gd d .b32 a b (fun _ x y => x ||| y) (.or gd d a b) ∧
     s.Gives2 g gd d .b32 a b (fun _ x y => x ^^^ y) (.xor gd d a b) ∧
     s.Gives2 g gd d .b32 a b (fun _ x y => x &&& ~~~y) (.andn gd d a b) ∧
     s.Gives2 g gd d .b32 a b (fun _ x y => x <<< y.toNat) (.shl gd d a b) ∧
     s.Gives2 g gd d .b32 a b (fun _ x y => x >>> y.toNat) (.shr gd d a b) ∧
     s.Gives2 g gd d .b32 a b (fun _ x y => x.sshiftRight y.toNat) (.sar gd d a b) ∧
     s.Gives2 g gd d .b32 a b (fun _ x y => x.rotateRight y.toNat) (.rotr gd d a b) ∧
     ∀ u : Bool, s.Gives2 g gd d .i32 a b (fun w x y =>
       let p := y.toNat % 256
       let n := y.toNat / 256 % 256
       let k := min (p + n) w - p
       if w ≤ p ∨ n = 0 then 0 else if u then (x.extractLsb' p k).setWidth w else (x.extractLsb' p k).signExtend w) (.bfx gd d a b u)) ∧
  (∀ (s : State) (g : Group) (gd : Guard) (a b c d : RegF),
     (s.Runs g gd (needs .int [a] d) →
       (∀ sat : Bool, s.Gives1 g gd d .i32 a (fun w x => narrowed w false sat x.toInt.natAbs) (.iabs gd d a sat)) ∧
       s.Gives1 g gd d .i32 a (fun w x => BitVec.ofNat w ((List.range w).filter fun k => x.getLsbD k).length) (.popc gd d a) ∧
       s.Gives1 g gd d .i32 a (fun _ x => x.clz) (.clz gd d a) ∧
       s.Gives1 g gd d .i32 a (fun _ x => x.reverse.clz) (.ctz gd d a) ∧
       s.Gives1 g gd d .b32 a (fun _ x => x.reverse) (.brev gd d a)) ∧
     (s.Runs g gd (needs .int [a, b, c] d) →
       (∀ u sat : Bool, s.Gives3 g gd d .i32 a b c (fun w x y z => narrowed w u sat (asInt u x * asInt u y + asInt u z))
         (.imad gd d a b c u sat)) ∧
       s.Gives3 g gd d .b32 a b c (fun w x y z =>
         let p := y.toNat % 256
         let n := y.toNat / 256 % 256
         if w ≤ p ∨ n = 0 then z else (z &&& ~~~(fieldMask w p n)) ||| ((x <<< p) &&& fieldMask w p n)) (.bfi gd d a b c) ∧
       s.Gives3 g gd d .b32 a b c (fun w x y z =>
         let y : BitVec 64 := y.setWidth 32 ++ x.setWidth 32
         let byte (k : Nat) : BitVec 8 :=
           let t := y.extractLsb' (8 * (z.extractLsb' (4 * k) 3).toNat) 8
           if z.getLsbD (4 * k + 3) then (if t.msb then 0xFF else 0) else t
         (byte 3 ++ byte 2 ++ byte 1 ++ byte 0).setWidth w) (.perm gd d a b c)))

/-- R342, R369, R370: MOVI and the immediate forms of major 0x05 take their second operand from the word. -/
def Obligations.ImmediateFormsComputeWithTheImmediate : Prop :=
  ∀ (s : State) (g : Group) (gd : Guard) (a d : RegF) (x : ImmX) (imm : Half),
    let v (w : Nat) : BitVec w := match x with
      | .zext => imm.setWidth w
      | .sext => imm.signExtend w
      | .hi => BitVec.ofNat w (imm.toNat * 2 ^ 32)
    (s.Runs g gd { simt := x != .hi, dsts := [(d, 1)] } →
      s.Local g gd (.movi gd d x imm) fun u => s.wrote u d .i32 (v (s.width u))) ∧
    (s.Runs g gd { needs .int [a] d with simt := x != .hi } →
      s.Gives1 g gd d .i32 a (fun w y => y + v w) (.iaddImm gd d a x imm) ∧
      s.Gives1 g gd d .i32 a (fun w y => y - v w) (.isubImm gd d a x imm) ∧
      s.Gives1 g gd d .i32 a (fun w y => y * v w) (.imulImm gd d a x imm) ∧
      s.Gives1 g gd d .b32 a (fun w y => y &&& v w) (.andImm gd d a x imm) ∧
      s.Gives1 g gd d .b32 a (fun w y => y ||| v w) (.orImm gd d a x imm) ∧
      s.Gives1 g gd d .b32 a (fun w y => y ^^^ v w) (.xorImm gd d a x imm) ∧
      s.Gives1 g gd d .b32 a (fun w y => y &&& ~~~(v w)) (.andnImm gd d a x imm) ∧
      s.Gives1 g gd d .b32 a (fun w y => y <<< (v w).toNat) (.shlImm gd d a x imm) ∧
      s.Gives1 g gd d .b32 a (fun w y => y >>> (v w).toNat) (.shrImm gd d a x imm) ∧
      s.Gives1 g gd d .b32 a (fun w y => y.sshiftRight (v w).toNat) (.sarImm gd d a x imm) ∧
      s.Gives1 g gd d .b32 a (fun w y => y.rotateRight (v w).toNat) (.rotrImm gd d a x imm) ∧
      s.Gives1 g gd d .i32 a (fun w y => if y.toInt ≤ (v w).toInt then y else v w) (.iminImm gd d a x imm) ∧
      s.Gives1 g gd d .i32 a (fun w y => if y.toInt ≤ (v w).toInt then v w else y) (.imaxImm gd d a x imm))

/-- R361, R363, R368: results of 64 bits. -/
def Obligations.PairArithmeticGives64Bits : Prop :=
  ∀ (s : State) (g : Group) (gd : Guard) (a b c d : RegF),
    (s.Runs g gd { ctl := false, srcs := [⟨1, a, .i64⟩, ⟨2, b, .i64⟩], dsts := [(d, 2)] } →
      s.Local g gd (.iadd64 gd d a b) (fun u => s.wrotePair u d (s.pairBits u a + s.pairBits u b)) ∧
      s.Local g gd (.isub64 gd d a b) (fun u => s.wrotePair u d (s.pairBits u a - s.pairBits u b)) ∧
      s.Local g gd (.imul64 gd d a b) (fun u => s.wrotePair u d (s.pairBits u a * s.pairBits u b))) ∧
    (s.Runs g gd { ctl := false, srcs := [⟨1, a, .i64⟩, ⟨2, b, .int⟩], dsts := [(d, 2)] } →
      s.Local g gd (.shl64 gd d a b) (fun u => s.wrotePair u d (s.pairBits u a <<< (s.bits u b 32).toNat)) ∧
      s.Local g gd (.shr64 gd d a b) (fun u => s.wrotePair u d (s.pairBits u a >>> (s.bits u b 32).toNat)) ∧
      s.Local g gd (.sar64 gd d a b) (fun u => s.wrotePair u d ((s.pairBits u a).sshiftRight (s.bits u b 32).toNat))) ∧
    (∀ x : Bool, s.Runs g gd { srcs := [⟨1, a, .int⟩, ⟨2, b, .int⟩, ⟨3, c, .i64⟩], dsts := [(d, 2)] } →
      s.Local g gd (.imadw gd d a b c x) fun u =>
        s.wrotePair u d (BitVec.ofInt 64 (asInt x (s.bits u a 32) * asInt x (s.bits u b 32)) + s.pairBits u c)) ∧
    ∀ (sc : Fin 8) (x : Bool), s.Runs g gd { ctl := !x, srcs := [⟨1, a, .i64⟩, ⟨2, b, .int⟩], dsts := [(d, 2)] } →
      s.Local g gd (.lea gd d a b sc x) fun u => s.wrotePair u d (s.pairBits u a +
        (if (s.thread u).isCtl then s.bits u b 64 else if x then (s.bits u b 32).setWidth 64 else (s.bits u b 32).signExtend 64) <<< sc.val)

/-- R366, R367, R369, R371, R372: comparisons, selections, copies and predicates. -/
def Obligations.ComparesMovesAndPredicatesGiveTheirResults : Prop :=
  ∀ (s : State) (g : Group) (gd : Guard),
    let holds (c : ICond) (x y : Int) : Bool := match c with
      | .eq => x = y
      | .ne => x ≠ y
      | .lt => x < y
      | .le => x ≤ y
      | .gt => x > y
      | .ge => x ≥ y
    (∀ (d : DestP) (a b : RegF) (c : ICond) (wide x : Bool),
      s.Runs g gd { simt := !wide, srcs := [⟨1, a, .int⟩, ⟨2, b, .int⟩], dsts := destRegs d } →
      s.Local g gd (.iset gd d a b c wide x) fun u =>
        s.wroteBool u d (if wide then holds c (asInt x (s.bits u a 64)) (asInt x (s.bits u b 64))
          else holds c (asInt x (s.bits u a 32)) (asInt x (s.bits u b 32)))) ∧
    (∀ (d : DestP) (a b : RegF) (c : ICond) (x : Bool),
      s.Runs g gd { ctl := false, srcs := [⟨1, a, .i64⟩, ⟨2, b, .i64⟩], dsts := destRegs d } →
      s.Local g gd (.iset64 gd d a b c x) fun u =>
        s.wroteBool u d (holds c (asInt x (s.pairBits u a)) (asInt x (s.pairBits u b)))) ∧
    (∀ (d a b : RegF) (p : PredF) (neg : Bool), s.Runs g gd (needs .any [a, b] d) →
      s.Local g gd (.isel gd d a b p neg) fun u t =>
        t.took d (s.readR (s.thread u) (if (s.thread u).pred p.val = !neg then a else b))) ∧
    (∀ d a : RegF, s.Runs g gd (needs .any [a] d) →
      s.Local g gd (.mov gd d a false) fun u t => t.took d (s.readR (s.thread u) a)) ∧
    (∀ d a : RegF, s.Runs g gd { ctl := false, srcs := [⟨1, a, .anyPair⟩], dsts := [(d, 2)] } →
      s.Local g gd (.mov gd d a true) fun u t =>
        (t.took d (s.readR (s.thread u) a)).took (regSucc d) (s.readR (s.thread u) (regSucc a))) ∧
    (∀ (d a b c : PredF) (lut : Byte), s.Runs g gd {} →
      s.Local g gd (.plog gd d a b c lut) fun u t =>
        let p (x : PredF) : Nat := ((s.thread u).pred x.val).toNat
        t.setPred d.val (lut.getLsbD (4 * p a + 2 * p b + p c))) ∧
    (∀ d : RegF, s.Runs g gd { dsts := [(d, 1)] } →
      s.Local g gd (.pmovGet gd d) fun u => s.wrote u d .b32 ((1 : BitVec 1) ++ (s.thread u).preds)) ∧
    ∀ (a : RegF) (mask : BitVec 7), s.Runs g gd { srcs := [⟨1, a, .int⟩] } →
      s.Local g gd (.pmovSet gd a mask) fun u t =>
        { t with preds := (t.preds &&& ~~~mask) ||| (s.bits u a 7 &&& mask) }

/-- R383 to R387: FP32 arithmetic, comparison and classification; each active member takes the result with its flags. -/
def Obligations.SingleFloatsGiveResultsAndFlags : Prop :=
  ∀ (s : State) (g : Group) (gd : Guard) (a b c d : RegF) (ma mb mc : SMod),
    let x u := s.f32 u a ma
    let y u := s.f32 u b mb
    let z u := s.f32 u c mc
    (s.Runs g gd (onSimt (needs (.tag .f32) [a, b] d)) →
      s.Local g gd (.fadd gd d a b ma mb) (fun u => s.wroteF u d .f32 (fp32.add (x u) (y u))) ∧
      s.Local g gd (.fmul gd d a b ma mb) (fun u => s.wroteF u d .f32 (fp32.mul (x u) (y u))) ∧
      s.Local g gd (.fmin gd d a b ma mb) (fun u => s.wroteF u d .f32 (fp32.minmax false (x u) (y u), 0)) ∧
      s.Local g gd (.fmax gd d a b ma mb) (fun u => s.wroteF u d .f32 (fp32.minmax true (x u) (y u), 0))) ∧
    (s.Runs g gd (onSimt (needs (.tag .f32) [a, b, c] d)) →
      s.Local g gd (.ffma gd d a b c ma mb mc) fun u => s.wroteF u d .f32 (fp32.fma (x u) (y u) (z u))) ∧
    (∀ (p : DestP) (cond : FCond),
      s.Runs g gd { ctl := false, srcs := [⟨1, a, .tag .f32⟩, ⟨2, b, .tag .f32⟩], dsts := destRegs p } →
      s.Local g gd (.fset gd p a b ma mb cond) fun u => s.wroteBool u p (fcondV cond (fp32.widen (x u)) (fp32.widen (y u)))) ∧
    (s.Runs g gd (onSimt (needs (.tag .f32) [a] d)) →
      s.Local g gd (.fclass gd d a) fun u => s.wrote u d .i32
        (let v := s.bits u a 32
         let k : Nat := match fp32.widen v.toNat with
           | .nan _ => 8
           | .inf neg => if neg then 0 else 7
           | .fin neg m _ => if m = 0 then (if neg then 3 else 4) else if v.extractLsb' 23 8 = 0 then (if neg then 2 else 5)
             else if neg then 1 else 6
         (1 : BitVec 32) <<< k))

/-- R390, R391: packed 16-bit arithmetic, element by element, and the FP8 dot product. -/
def Obligations.PackedFloatsGiveElementResults : Prop :=
  ∀ (s : State) (g : Group) (gd : Guard) (a b c d : RegF) (ma mb mc : SMod) (bf : Bool),
    let f := f2fmt bf
    let x u k := f.smod ma ((s.bits u a 32).extractLsb' (16 * k) 16).toNat
    let y u k := f.smod mb ((s.bits u b 32).extractLsb' (16 * k) 16).toNat
    let z u k := f.smod mc ((s.bits u c 32).extractLsb' (16 * k) 16).toNat
    let two (r : Nat → Nat × Fl) : Nat × Fl := ((r 0).1 + 2 ^ 16 * (r 1).1, (r 0).2 ||| (r 1).2)
    (s.Runs g gd (onSimt (needs (.tag (f2tag bf)) [a, b] d)) →
      s.Local g gd (.f2add gd d a b ma mb bf) (fun u => s.wroteF u d (f2tag bf) (two fun k => f.add (x u k) (y u k))) ∧
      s.Local g gd (.f2mul gd d a b ma mb bf) (fun u => s.wroteF u d (f2tag bf) (two fun k => f.mul (x u k) (y u k))) ∧
      s.Local g gd (.f2min gd d a b ma mb bf) (fun u => s.wroteF u d (f2tag bf) (two fun k => (f.minmax false (x u k) (y u k), 0))) ∧
      s.Local g gd (.f2max gd d a b ma mb bf) (fun u => s.wroteF u d (f2tag bf) (two fun k => (f.minmax true (x u k) (y u k), 0)))) ∧
    (s.Runs g gd (onSimt (needs (.tag (f2tag bf)) [a, b, c] d)) →
      s.Local g gd (.f2fma gd d a b c ma mb mc bf) fun u =>
        s.wroteF u d (f2tag bf) (two fun k => f.fma (x u k) (y u k) (z u k))) ∧
    (∀ (p : DestP) (cond : FCond),
      s.Runs g gd { ctl := false, srcs := [⟨1, a, .tag (f2tag bf)⟩, ⟨2, b, .tag (f2tag bf)⟩], dsts := destRegs p } →
      s.Local g gd (.f2set gd p a b ma mb cond bf) fun u t =>
        let h k : Bool := fcondV cond (f.widen (x u k)) (f.widen (y u k))
        match p with
        | .reg r => s.wrote u r .b32 ((if h 1 then 0xFFFF#16 else 0) ++ (if h 0 then 0xFFFF#16 else 0)) t
        | .pred q => t.setPred q.val (h 0 && h 1)) ∧
    ∀ ea eb : Bool,
      let fmt (e : Bool) := if e then fpE5M2 else fpE4M3
      let tag (e : Bool) : Tag := if e then .e5m2x4 else .e4m3x4
      s.Runs g gd { ctl := false, srcs := [⟨1, a, .tag (tag ea)⟩, ⟨2, b, .tag (tag eb)⟩, ⟨3, c, .tag .f32⟩], dsts := [(d, 1)] } →
      s.Local g gd (.hdot gd d a b c ea eb) fun u => s.wroteF u d .f32 (
        let p k := ((fmt ea).widen ((s.bits u a 32).extractLsb' (8 * k) 8).toNat).mul ((fmt eb).widen ((s.bits u b 32).extractLsb' (8 * k) 8).toNat)
        fp32.sum [fp32.widen (s.bits u c 32).toNat, (p 0).1, (p 1).1, (p 2).1, (p 3).1] ((p 0).2 || (p 1).2 || (p 2).2 || (p 3).2))

/-- R388, R389, R392: the functions of major 0x09 and the FP64 instructions; all but DSET give their results later. R349, R361, R362: so does a
division by a nonzero divisor, whose quotient is rounded toward zero. -/
def Obligations.LongLatencyResultsComeLater : Prop :=
  (∀ (s : State) (g : Group) (gd : Guard) (u : Nat) (la : BitVec 4) (a b c d : RegF) (ma mb mc : SMod),
     (s.RunsAlone g u gd { onSimt (needs (.tag .f32) [a] d) with la := la.toNat } →
       let fn (op : FFn) (r : State) : State :=
         let v := op.eval (fp32.widen (s.f32 u a ma))
         r.later u la.toNat d 1 [⟨BitVec.ofNat 64 v.1, .f32⟩] true v.2
       s.Alone u (.frcp gd la d a ma) (fn .rcp) ∧ s.Alone u (.frsq gd la d a ma) (fn .rsq) ∧ s.Alone u (.fsqrt gd la d a ma) (fn .sqrt) ∧
       s.Alone u (.fex2 gd la d a ma) (fn .ex2) ∧ s.Alone u (.flg2 gd la d a ma) (fn .lg2) ∧ s.Alone u (.fsin gd la d a ma) (fn .sin) ∧
       s.Alone u (.fcos gd la d a ma) (fn .cos) ∧ s.Alone u (.ftanh gd la d a ma) (fn .tanh)) ∧
     (let x := fp64.smod ma (s.pairBits u a).toNat
      let y := fp64.smod mb (s.pairBits u b).toNat
      let z := fp64.smod mc (s.pairBits u c).toNat
      let pair (v : Nat × Fl) (r : State) : State :=
        r.later u la.toNat d 2 [⟨BitVec.ofNat 64 (v.1 % 2 ^ 32), .w64lo⟩, ⟨BitVec.ofNat 64 (v.1 / 2 ^ 32), .w64hi⟩] false v.2
      (s.RunsAlone g u gd { ctl := false, srcs := [⟨1, a, .f64⟩, ⟨2, b, .f64⟩], dsts := [(d, 2)], la := la.toNat } →
        s.Alone u (.dadd gd la d a b ma mb) (pair (fp64.add x y)) ∧ s.Alone u (.dmul gd la d a b ma mb) (pair (fp64.mul x y))) ∧
      (s.RunsAlone g u gd { ctl := false, srcs := [⟨1, a, .f64⟩, ⟨2, b, .f64⟩, ⟨3, c, .f64⟩], dsts := [(d, 2)], la := la.toNat } →
        s.Alone u (.dfma gd la d a b c ma mb mc) (pair (fp64.fma x y z)))) ∧
     ∀ (p : DestP) (cond : FCond),
       s.Runs g gd { ctl := false, srcs := [⟨1, a, .f64⟩, ⟨2, b, .f64⟩], dsts := destRegs p } →
       s.Local g gd (.dset gd p a b ma mb cond) fun v => s.wroteBool v p
         (fcondV cond (fp64.widen (fp64.smod ma (s.pairBits v a).toNat)) (fp64.widen (fp64.smod mb (s.pairBits v b).toNat)))) ∧
  (∀ (s : State) (g : Group) (gd : Guard) (u : Nat) (la : BitVec 4) (a b d : RegF) (x : Bool),
     s.RunsAlone g u gd { needs .int [a, b] d with la := la.toNat } → s.bits u b (s.width u) ≠ 0 →
       let tg : Tag := if (s.thread u).isCtl then .b32 else .i32
       let p := s.bits u a (s.width u)
       let q := s.bits u b (s.width u)
       s.Alone u (.idiv gd la d a b x) (fun r =>
         r.later u la.toNat d 1 [⟨(if x then p.udiv q else p.sdiv q).setWidth 64, tg⟩] false 0) ∧
       s.Alone u (.irem gd la d a b x) fun r =>
         r.later u la.toNat d 1 [⟨(if x then p.umod q else p.srem q).setWidth 64, tg⟩] false 0)

/-- R292, R293, R383: a sum, a product and a fused multiply-add of finite numbers is the exact number rounded once, to the nearest,
with NX for an inexact result and OF beyond the range. -/
def Obligations.FloatArithmeticIsCorrectlyRounded : Prop :=
  ∀ f ∈ [fp64, fp32, fp16, bf16], ∀ x < 2 ^ f.w, ∀ y < 2 ^ f.w, ∀ z < 2 ^ f.w,
    (f.widen x).finite = true → (f.widen y).finite = true → (f.widen z).finite = true →
    let v (c : Nat) : Rat := (f.widen c).val
    f.Correct (v x + v y) (f.add x y) ∧ f.Correct (v x * v y) (f.mul x y) ∧ f.Correct (v x * v y + v z) (f.fma x y z)

/-- R292, R293, R294: a conversion of a finite number to a format, or of a magnitude to an S10 scale, is the number rounded to the
nearest code. -/
def Obligations.ConversionsAreCorrectlyRounded : Prop :=
  ∀ f ∈ [fp64, fp32, fp22, fp16, bf16, fpE5M2, fpE4M3, fpE3M2, fpE2M3, fpE2M1], ∀ (neg : Bool) (m : Nat) (e : Int),
    f.Correct (FV.fin neg m e).val (f.convert (.fin neg m e)) ∧
    (f = fp32 → ∀ n d : Nat, 0 < d →
      let x := (n : Rat) / (d : Rat) * (2 : Rat) ^ e
      let r := narrowS10 n d e
      r.1 ≤ 0x3FE ∧ (if r.2.getLsbD 2 then r.1 = 0x3FE ∧ (s10Val 0x3FE).val < x
        else (∀ c ≤ 0x3FE, ((s10Val r.1).val - x).abs ≤ ((s10Val c).val - x).abs) ∧ (r.2.getLsbD 0 = true ↔ (s10Val r.1).val ≠ x)))

/-- R384: comparisons order finite numbers by value, −0 equal to +0, and a NaN is unordered. -/
def Obligations.ComparisonsOrderByValue : Prop :=
  ∀ (a b : FV), (a.finite = true → b.finite = true →
      (fcondV .eq a b = true ↔ a.val = b.val) ∧ (fcondV .ne a b = true ↔ a.val ≠ b.val) ∧ (fcondV .lt a b = true ↔ a.val < b.val) ∧
      (fcondV .le a b = true ↔ a.val ≤ b.val) ∧ (fcondV .gt a b = true ↔ b.val < a.val) ∧ (fcondV .ge a b = true ↔ b.val ≤ a.val) ∧
      fcondV .num a b = true ∧ fcondV .nan a b = false) ∧
    (a.isNan = true ∨ b.isNan = true → ∀ c, fcondV c a b = match c with
      | .ne => true
      | .nan => true
      | _ => false)

/-- R393 to R398: conversions between formats, packing, block scales and tags. -/
def Obligations.ConversionsAndTagsGiveTheirResults : Prop :=
  ∀ (s : State) (g : Group) (gd : Guard) (a b c d : RegF),
    let el (u : Nat) (r : RegF) (w k : Nat) : Nat := ((s.bits u r 32).extractLsb' (w * k) w).toNat
    (∀ dst src : CvtT, (src, dst) ∈ [(.f64, .f32), (.f32, .f64), (.f16x2, .bf16x2), (.bf16x2, .f16x2), (.e4m3x4, .e5m2x4), (.e5m2x4, .e4m3x4)] →
      s.Runs g gd { ctl := false, srcs := [⟨1, a, if src = .f64 then .f64 else .tag (cvtTag src)⟩], dsts := [(d, if dst = .f64 then 2 else 1)] } →
      s.Local g gd (.cvt gd d a dst src) fun u t =>
        let cv (c : Nat) : Nat × Fl := (cvtFmt dst).1.convert ((cvtFmt src).1.widen c)
        let w := (cvtFmt src).1.w
        match dst with
        | .f64 => let r := cv (el u a 32 0); { s.wrotePair u d (BitVec.ofNat 64 r.1) t with fflags := t.fflags ||| r.2 }
        | .f32 => s.wroteF u d .f32 (cv (s.pairBits u a).toNat) t
        | .f16x2 => s.wroteF u d .f16x2 ((cv (el u a w 0)).1 + 2 ^ 16 * (cv (el u a w 1)).1, (cv (el u a w 0)).2 ||| (cv (el u a w 1)).2) t
        | .bf16x2 => s.wroteF u d .bf16x2 ((cv (el u a w 0)).1 + 2 ^ 16 * (cv (el u a w 1)).1, (cv (el u a w 0)).2 ||| (cv (el u a w 1)).2) t
        | d8 => s.wroteF u d (cvtTag d8) ((cv (el u a w 0)).1 + 2 ^ 8 * (cv (el u a w 1)).1 + 2 ^ 16 * (cv (el u a w 2)).1 + 2 ^ 24 * (cv (el u a w 3)).1,
            (cv (el u a w 0)).2 ||| (cv (el u a w 1)).2 ||| (cv (el u a w 2)).2 ||| (cv (el u a w 3)).2) t) ∧
    (∀ (dst src : CviT) (rz : Bool),
      s.Runs g gd { ctl := false, srcs := [⟨1, a, cviKind src⟩], dsts := [(d, if (cviInfo dst).1 = 64 then 2 else 1)] } →
      s.Local g gd (.cvti gd d a dst src rz) fun u t =>
        let r := cviV src dst rz (if (cviInfo src).1 = 64 then (s.pairBits u a).toNat else (s.bits u a 32).toNat)
        if (cviInfo dst).1 = 64 then { s.wrotePair u d (BitVec.ofNat 64 r.1) t with fflags := t.fflags ||| r.2 }
        else s.wroteF u d (if dst = .f32 then .f32 else .i32) r t) ∧
    (∀ (fmt : PackT) (k : Fin 8) (one : Bool),
      let w := (packInfo fmt).1
      let tg := (packInfo fmt).2
      let sk : Kind := if fmt = .i8 then .int else .tag .f32
      w * (k.val + if one then 1 else 2) ≤ 32 →
      s.Runs g gd { ctl := false, srcs := if one then [⟨1, a, sk⟩, ⟨3, c, .tag tg⟩] else [⟨1, a, sk⟩, ⟨2, b, sk⟩, ⟨3, c, .tag tg⟩], dsts := [(d, 1)] } →
      s.Local g gd (.pack gd d a b c fmt k one) fun u =>
        let e0 := packElem fmt (s.bits u a 32).toNat
        let e1 := packElem fmt (s.bits u b 32).toNat
        let put (v : BitVec 32) (n x : Nat) : BitVec 32 := (v &&& ~~~(BitVec.ofNat 32 ((2 ^ w - 1) * 2 ^ (w * n)))) ||| BitVec.ofNat 32 (x % 2 ^ w * 2 ^ (w * n))
        let top (v : BitVec 32) : BitVec 32 := if w = 6 ∨ w = 10 then v &&& 0x3FFFFFFF else v
        let v := put (s.bits u c 32) k.val e0.1
        if one then s.wroteF u d tg ((top v).toNat, e0.2) else s.wroteF u d tg ((top (put v (k.val + 1) e1.1)).toNat, e0.2 ||| e1.2)) ∧
    (∀ (fmt : PackT) (k : Fin 8), s.Runs g gd (onSimt (needs (.tag (packInfo fmt).2) [a] d)) →
      s.Local g gd (.unpack gd d a fmt k) fun u =>
        s.wrote u d (if fmt = .i8 then .i32 else .f32) (BitVec.ofNat 32 (unpackElem fmt (el u a (packInfo fmt).1 k.val)))) ∧
    (∀ (fmt : ScaleT) (k : Fin 4), k.val < 3 → s.Runs g gd { ctl := false, srcs := [⟨1, a, .tag .f32⟩, ⟨3, c, .tag .s10x3⟩], dsts := [(d, 1)] } →
      s.Local g gd (.scaleq gd d a c fmt k) fun u =>
        let r : Nat × Fl := match fp32.widen (s.bits u a 32).toNat with
          | .nan _ => (0x3FF, 16)
          | .inf _ => (0x3FE, 4)
          | .fin _ m e => match fmt with
            | .e4m3 => narrowS10 m 448 e
            | .e5m2 => narrowS10 m 57344 e
            | .e3m2 => narrowS10 m 28 e
            | .e2m3 => narrowS10 (2 * m) 15 e
            | .e2m1 => narrowS10 m 6 e
        let v := (s.bits u c 32 &&& ~~~(0x3FF#32 <<< (10 * k.val))) ||| (BitVec.ofNat 32 (r.1 % 1024) <<< (10 * k.val))
        s.wroteF u d .s10x3 ((v &&& 0x3FFFFFFF).toNat, r.2)) ∧
    (s.Runs g gd { ctl := false, srcs := [⟨1, a, .cleanPair⟩], dsts := [(d, 2)] } →
      s.Local g gd (.tagset gd d a 12 true) fun u => s.wrotePair u d (s.pairBits u a)) ∧
    (∀ k : Fin 16, k.val < 12 → s.Runs g gd (onSimt (needs .clean [a] d)) →
      s.Local g gd (.tagset gd d a k false) fun u =>
        s.wrote u d (tagOf k.val) (if k.val = 7 ∨ k.val = 8 ∨ k.val = 11 then s.bits u a 32 &&& 0x3FFFFFFF else s.bits u a 32)) ∧
    (s.Runs g gd (onSimt (needs .any [a] d)) →
      s.Local g gd (.tagget gd d a) fun u => s.wrote u d .i32 (BitVec.ofNat 32 (tagCode (s.readR (s.thread u) a).tag)))

/-- R394: a conversion of a finite number to an integer rounds it (toward zero with RZ, ties to even, or away from zero for 8 bits) and,
beyond the range, gives the nearest end with NV; integers convert to integers by saturation with OF. -/
def Obligations.IntegerConversionsRoundAndSaturate : Prop :=
  (∀ (w : Nat) (sg rz : Bool) (neg : Bool) (m : Nat) (e : Int), w ∈ [8, 16, 32, 64] →
    let x := (FV.fin neg m e).val
    let lo : Int := if sg then -(2 ^ (w - 1)) else 0
    let hi : Int := if sg then 2 ^ (w - 1) - 1 else 2 ^ w - 1
    let r := convInt w sg rz (.fin neg m e)
    ∃ q : Int, (if rz then (q.natAbs : Rat) ≤ x.abs ∧ x.abs < (q.natAbs : Rat) + 1 ∧ 0 ≤ (q : Rat) * x
        else 2 * ((q : Rat) - x).abs ≤ 1 ∧ (2 * ((q : Rat) - x).abs = 1 → if w = 8 then x.abs ≤ (q.natAbs : Rat) else q % 2 = 0)) ∧
      r = if q < lo then ((lo % 2 ^ w).toNat, 16) else if hi < q then ((hi % 2 ^ w).toNat, 16)
        else ((q % 2 ^ w).toNat, if (q : Rat) = x then 0 else 1)) ∧
  ∀ (dst src : CviT) (rz : Bool) (v : Nat), src ∈ [.i32, .i64, .n32, .n64] → dst ∉ [.f32, .f64] → v < 2 ^ (cviInfo src).1 →
    let x : Int := if (cviInfo src).2.1 then (BitVec.ofNat (cviInfo src).1 v).toInt else v
    let w := (cviInfo dst).1
    let lo : Int := if (cviInfo dst).2.1 then -(2 ^ (w - 1)) else 0
    let hi : Int := if (cviInfo dst).2.1 then 2 ^ (w - 1) - 1 else 2 ^ w - 1
    let y := max lo (min x hi)
    cviV src dst rz v = ((y % (if w = 64 then 2 ^ 64 else 2 ^ 32)).toNat, if y = x then 0 else 4)

/-- R399 to R402: LNGET reads a lane of the reader's segment; a source lane that takes no active part gives the reader its own register
and a true foreign predicate; LNPOLL polls a predicate and LNEQ compares bit patterns across the active participants. Every source is
read before any destination is written. -/
def Obligations.LngetLnpollAndLneqLookAcrossLanes : Prop :=
  (∀ (s : State) (g : Group) (gd : Guard) (d a : RegF) (b : LnIdx) (mode : LnMode) (m : Fin 8) (w64 : Bool) (k : LaceF) (bk pf : PredF),
     m.val < 6 →
     s.Meets g gd { ctl := false, dsts := [(d, if w64 then 2 else 1)], srcs := ⟨1, a, if w64 then .cleanPair else .clean⟩ :: match b with
       | .reg r => [⟨2, r, .int⟩]
       | .lit _ => [] } k.val →
     s.Local g gd (.lnget gd d a b mode m w64 k bk pf) fun u t =>
       let w := 2 ^ m.val
       let l := (s.thread u).id.lane
       let base := l / w * w
       let n : BitVec 8 := match b with
         | .reg r => s.bits u r 8
         | .lit n => n
       let j : Int := match mode with
         | .abs => base + n.toNat % w
         | .rot => base + (l % w + n.toNat) % w
         | .off => l + n.toInt
         | .xor => base + ((l % w) ^^^ (n.toNat % w) : Nat)
       let src : Option Nat := if j < base ∨ base + w ≤ j then none else (s.partners g gd u k.val).find? fun v => (s.thread v).id.lane = j.toNat
       let x := s.thread (src.getD u)
       let t := (t.setPred bk.val false).took d (s.readR x a)
       let t := if w64 then t.took (regSucc d) (s.readR x (regSucc a)) else t
       t.setPred pf.val src.isNone) ∧
  (∀ (s : State) (g : Group) (gd : Guard) (k : LaceF) (bk pf : PredF),
     (∀ (d : DestP) (a : PredF) (neg cnt : Bool) (mode : PollMode),
       (mode = .mask ↔ ∃ r, d = .reg r) → (cnt = true → mode = .mask) →
       s.Meets g gd { ctl := false, dsts := destRegs d } k.val →
       s.Local g gd (.lnpoll gd d a neg cnt mode k bk pf) fun u t =>
         let act := s.partners g gd u k.val
         let on (v : Nat) : Bool := (s.thread v).pred a.val != neg
         let t := t.setPred bk.val false
         let t := match d, mode with
           | .pred p, .and => t.setPred p.val (act.all on)
           | .pred p, .or => t.setPred p.val (act.any on)
           | .pred p, .same => t.setPred p.val (act.all on || act.all fun v => !on v)
           | .pred _, .mask => t
           | .reg r, _ => if cnt then s.wrote u r .i32 (BitVec.ofNat 32 (act.filter on).length) t
               else s.wrote u r .b32 (s.lanesIn (act.filter on)) t
         t.setPred pf.val (s.foreign g gd u k.val)) ∧
     ∀ (d a : RegF) (uni w64 : Bool),
       s.Meets g gd { ctl := false, srcs := [⟨1, a, if w64 then .cleanPair else .clean⟩], dsts := [(d, 1)] } k.val →
       s.Local g gd (.lneq gd d a uni w64 k bk pf) fun u t =>
         let act := s.partners g gd u k.val
         let same (v : Nat) : Bool := if w64 then s.pairBits v a == s.pairBits u a else s.bits v a 32 == s.bits u a 32
         let t := t.setPred bk.val false
         let t := s.wrote u d .b32 (if uni then (if act.all same then s.lanesIn act else 0) else s.lanesIn (act.filter same)) t
         t.setPred pf.val (s.foreign g gd u k.val))

/-- R399, R403: LNCOMB combines the values of the active participants, LNPFX those at or below the member's lane, in lane order. -/
def Obligations.LncombAndLnpfxCombineInLaneOrder : Prop :=
  ∀ (s : State) (g : Group) (gd : Guard) (d a : RegF) (op : LnOp) (ty : LnTy) (k : LaceF) (bk pf : PredF),
    (ty = .f32 → op ∈ [.add, .min, .max]) →
    s.Meets g gd { ctl := false, srcs := [⟨1, a, if ty = .f32 then .tag .f32 else .int⟩], dsts := [(d, 1)] } k.val →
    let tg : Tag := if op ∈ [.and, .or, .xor] then .b32 else if ty = .f32 then .f32 else .i32
    let two (x y : BitVec 32) : BitVec 32 × Fl := match op, ty with
      | .add, .f32 => let r := fp32.add x.toNat y.toNat; (BitVec.ofNat 32 r.1, r.2)
      | .min, .f32 => (BitVec.ofNat 32 (fp32.minmax false x.toNat y.toNat), 0)
      | .max, .f32 => (BitVec.ofNat 32 (fp32.minmax true x.toNat y.toNat), 0)
      | .add, _ => (x + y, 0)
      | .min, .i32 => (if y.slt x then y else x, 0)
      | .min, _ => (if y.ult x then y else x, 0)
      | .max, .i32 => (if x.slt y then y else x, 0)
      | .max, _ => (if x.ult y then y else x, 0)
      | .and, _ => (x &&& y, 0)
      | .or, _ => (x ||| y, 0)
      | .xor, _ => (x ^^^ y, 0)
    let none : BitVec 32 := match op, ty with
      | .min, .i32 => 0x7FFFFFFF
      | .min, .n32 => 0xFFFFFFFF
      | .min, .f32 => 0x7F800000
      | .max, .i32 => 0x80000000
      | .max, .f32 => 0xFF800000
      | .and, _ => 0xFFFFFFFF
      | _, _ => 0
    let all (us : List Nat) : BitVec 32 × Fl := match us with
      | [] => (none, 0)
      | v :: vs =>
        let x := s.bits v a 32
        vs.foldl (fun acc v => let r := two acc.1 (s.bits v a 32); (r.1, acc.2 ||| r.2))
          (if ty = .f32 ∧ (fp32.widen x.toNat).isNan = true then 0x7FC00000 else x, 0)
    let gives (keep : Nat → Nat → Bool) (u : Nat) (t : Thread) : Thread :=
      let r := all ((s.partners g gd u k.val).filter fun v => keep (s.thread v).id.lane (s.thread u).id.lane)
      let t := t.setPred bk.val false
      ({ s.wrote u d tg r.1 t with fflags := t.fflags ||| r.2 }).setPred pf.val (s.foreign g gd u k.val)
    s.Local g gd (.lncomb gd d a op ty k bk pf) (gives fun _ _ => true) ∧
    s.Local g gd (.lnpfx gd d a op ty false k bk pf) (gives fun v u => v ≤ u) ∧
    s.Local g gd (.lnpfx gd d a op ty true k bk pf) (gives fun v u => v < u)

/-- R214, R344, R373 to R375: a branch whose target holds a legal clause goes there; a call with room on the return stack also pushes the
clause that follows; a branch with a lace joins it; RET goes to the newest entry of the return stack, when
a legal clause stands there, and takes it off the stack. -/
def Obligations.BranchesCallsAndReturnsGoToTheirTarget : Prop :=
  (∀ (s : State) (g : Group) (gd : Guard) (u : Nat) (off : Half) (a : RegF) (lace : Option LaceF) (ws : List Word) (r : State),
     let rel : Nat := (BitVec.ofNat 64 (s.thread u).pos.a + off.signExtend 64 * 8).toNat
     let reg : Nat := (s.pairBits u a).toNat
     let joined (r : State) : State := match lace with
       | none => r
       | some k => r.modLace (s.thread u) k.val fun l => { l with mem := setLane l.mem (s.thread u).id.lane true }
     let pushed (r : State) : State := r.modThread u fun t => { t with rstk := t.rstk ++ [(s.thread u).after.a % 2 ^ 48] }
     (s.RunsAlone g u gd { ctl := lace.isNone } → (s.charge [u]).target u rel = (.ok ws, r) →
       exec (.bra gd off lace) s = .next ((joined r).wentTo u ⟨rel, 0⟩ ws) ∧
       ((s.thread u).rstk.length < 8 →
         exec (.call gd off lace) s = .next ((joined (pushed r)).wentTo u ⟨rel, 0⟩ ws))) ∧
     (s.RunsAlone g u gd { ctl := lace.isNone, srcs := [⟨1, a, .addr⟩] } → (s.charge [u]).target u reg = (.ok ws, r) →
       exec (.brx gd a lace) s = .next ((joined r).wentTo u ⟨reg, 0⟩ ws) ∧
       ((s.thread u).rstk.length < 8 →
         exec (.callx gd a lace) s = .next ((joined (pushed r)).wentTo u ⟨reg, 0⟩ ws)))) ∧
  (∀ (s : State) (g : Group) (gd : Guard) (u : Nat) (stk : List Nat) (tgt : Nat) (ws : List Word) (r : State),
     s.RunsAlone g u gd {} → (s.thread u).rstk = stk ++ [tgt] → (s.charge [u]).target u tgt = (.ok ws, r) →
     exec (.ret gd) s = .next ((r.modThread u fun t => { t with rstk := stk }).wentTo u ⟨tgt, 0⟩ ws))

/-- R380, R381, R382, R444: SVC and BRK trap with their code and the position after, TRAP with its own word and position; the bank of the
level takes cause, value, position and level, the thread goes to that level's handler, and every register keeps its value. R445: TRET in a
handler leaves the bank and gives the thread the level and the position that the trap saved. -/
def Obligations.TrapsEnterAndTretLeavesTheHandler : Prop :=
  (∀ (s : State) (g : Group) (gd : Guard) (u : Nat) (h : Bool) (code : BitVec 14), s.RunsAlone g u gd {} →
     let t := s.thread u
     let dbg := (s.fnAt t.id.fn).dbg
     (s.TrapOpen u 0x15 h → s.Exactly u (.svc gd code) fun r => r.tookTrap u h 0x15 (code.setWidth 64) t.after) ∧
     (s.TrapOpen u 0x01 h → s.Exactly u (.trap gd code) fun r => r.tookTrap u h 0x01 s.ext.iword t.pos) ∧
     (s.TrapOpen u 0x12 h → (dbg.en && (dbg.any || dbg.asid == t.id.asid)) = false →
       s.Exactly u (.brk gd code) fun r => r.tookTrap u h 0x12 (code.setWidth 64) t.after)) ∧
  (∀ (s : State) (g : Group) (gd : Guard) (u : Nat), s.RunsAlone g u gd { lvl := .g } →
     let t := s.thread u
     let b := if t.lvl = .h then t.bankH else t.bankG
     t.lvl ≠ .u → b.inh = true →
     s.Exactly u (.tret gd) fun r => ((r.leave u).entering u).modThread u fun x =>
       { (if t.lvl = .h then { x with bankH := { b with inh := false } } else { x with bankG := { b with inh := false } }) with
         lvl := b.plvl, run := .ready, pos := ⟨b.pcA, b.pcIdx⟩, ready := r.now x, clause := [], mark := none })

/-- R379, R202: NOP and YIELD complete, and the group goes on to what follows; NOP changes nothing; YIELD marks the active threads of a
SIMT core, which then count as newest among equals at the position they post next, and acts as NOP on a control core. Where no
instruction of the clause is left, its yield hint marks every member. -/
def Obligations.NopAndYieldChangeNoContext : Prop :=
  ∀ (s : State) (g : Group) (gd : Guard), s.Runs g gd {} →
    let hint : Bool := decide (g.clause.length - 2 ≤ g.pos.i) && (g.clause.headD 0).getLsbD 44
    let marked (i : Instr) (m : Nat → Bool) : Prop := ∃ t, exec i s = .next t ∧ (s.onActive g gd fun _ x => x).Like t ∧ s.WentOn t ∧
      ∀ u ∈ g.members, (t.thread u).yielded = ((s.thread u).yielded || m u || hint)
    marked (.nop gd) (fun _ => false) ∧
    marked (.yield gd) (fun u => (s.thread u).guardOk gd && !(s.thread u).isCtl) ∧
    ∀ a b : Thread, s.age a = s.age b → a.yielded = false → b.yielded = true → s.older a b = true ∧ s.older b a = false

/-- R204, R205, R208, R377: JOIN and LEAVE set and clear the thread's member bit, LACEGET reads the member lanes of the thread's key,
LACESET writes them for the lanes of the key. -/
def Obligations.LaceMembershipFollowsItsInstructions : Prop :=
  ∀ (s : State) (g : Group) (gd : Guard) (u : Nat) (k : LaceF) (a d : RegF),
    let t := s.thread u
    let bit : BitVec 32 := 1 <<< t.id.lane
    (s.RunsAlone g u gd { ctl := false } → t.inHandler = false → t.id.lane < 32 →
      s.Alone u (.join gd k) (fun r => r.modLace t k.val fun l => { l with mem := l.mem ||| bit }) ∧
      ((∀ v ∈ s.equalKey t k.val, v.uid = u) →
        s.Alone u (.leave gd k) fun r => r.modLace t k.val fun l => { l with mem := l.mem &&& ~~~bit, arr := l.arr &&& ~~~bit })) ∧
    (s.RunsAlone g u gd { ctl := false, dsts := [(d, 1)] } →
      s.Local g gd (.laceget gd d k) fun u => s.wrote u d .b32 (s.lanesIn ((s.equalKey (s.thread u) k.val).map (·.uid)))) ∧
    (s.RunsAlone g u gd { ctl := false, srcs := [⟨1, a, .int⟩] } → t.inHandler = false →
      ∃ r, exec (.laceset gd k a) s = .next r ∧
        let l := s.lace t k.val
        let m := r.lace t k.val
        m.broken = setDel l.broken t.id.exk ∧
        (∀ lane < 32, if s.sameKey t |>.any fun y => y.id.lane = lane then
            m.mem.getLsbD lane = (s.bits u a 32).getLsbD lane ∧ m.arr.getLsbD lane = false
          else m.mem.getLsbD lane = l.mem.getLsbD lane ∧ m.arr.getLsbD lane = l.arr.getLsbD lane ∧ m.ph.getLsbD lane = l.ph.getLsbD lane) ∧
        r.mem = s.mem ∧ (r.thread u).regs = t.regs ∧ (r.thread u).preds = t.preds)

/-- R206, R207: WAITM by the only member of its set crosses at once: its phase inverts and the thread goes on; while a member has not
arrived, the thread leaves its group and waits, its arrival noted. -/
def Obligations.WaitmCrossesWhenAllHaveArrived : Prop :=
  ∀ (s : State) (g : Group) (gd : Guard) (u : Nat) (k : LaceF) (bk : PredF),
    s.RunsAlone g u gd { ctl := false } →
    let t := s.thread u
    let bit : BitVec 32 := 1 <<< t.id.lane
    t.inHandler = false → s.laceBroken t k.val = false → t.id.lane < 32 → (s.lace t k.val).mem.getLsbD t.id.lane = true →
    ((∀ v ∈ s.core.threads, v.atLace k.val = true → (s.thread v.uid).run ≠ .ready) → (s.equalKey t k.val).map (·.uid) = [u] →
      s.Alone u (.waitm gd k bk) fun r => (r.modLace t k.val fun l => { l with arr := l.arr &&& ~~~bit, ph := l.ph ^^^ bit }).modThread u fun x =>
        x.setPred bk.val false) ∧
    ((∃ v ∈ s.equalKey t k.val, v.id.lane ≠ t.id.lane ∧ (s.lace t k.val).arr.getLsbD v.id.lane = false) →
      ∃ w, w.kind = .lace ∧ w.a = k.val ∧ s.Exactly u (.waitm gd k bk) fun r =>
        (((r.modLace t k.val fun l => { l with arr := l.arr ||| bit }).leave u).modThread u fun x => { x.setPred bk.val false with run := .waiting w }))

/-- R376, R445, R446: EXIT of a thread that is not the last of its crew ends the thread; HALT stops it at the instruction after; FRESUME
with a live token goes back to the position that the fault saved and arms the fault continuation again. -/
def Obligations.ExitHaltAndFresumeLeaveTheGroup : Prop :=
  ∀ (s : State) (g : Group) (gd : Guard) (u : Nat),
    let t := s.thread u
    let c := s.charge [u]
    (s.RunsAlone g u gd {} → t.ct = [] → s.writesPending u = false → 1 < (s.crewThreads t.id.crew).length → (s.crew? t.id.crew).isSome = true →
      (c.exitThread u false).Gone u →
      exec (.exit gd) s = .next (c.exitThread u false) ∧ ∀ v ∈ (c.exitThread u false).core.threads, v.uid ≠ u) ∧
    (∀ (k : Crew) (r : State), s.RunsAlone g u gd {} → t.ct = [] → s.writesPending u = false → (s.crewThreads t.id.crew).length ≤ 1 →
      s.crew? t.id.crew = some k → k.uid = t.id.crew → c.crewBusy k = false → t.isCtl = false →
      c.doBoundaryAfter u .sys .exit (fun x => x.exitOther u k) = (.next, r) → (r.exitThread u true).Gone u →
      exec (.exit gd) s = .next (r.exitThread u true)) ∧
    (s.RunsAlone g u gd { lvl := .g } → s.Exactly u (.halt gd) fun r => r.stop u 0x12 t.after t.after) ∧
    (s.RunsAlone g u gd {} → t.fr.pend = true → s.Exactly u (.fresume gd) fun r => (r.leave u).modThread u fun x =>
      { x with fr := { x.fr with pend := false, en := true }, run := .ready, pos := ⟨t.fr.fpA, t.fr.fpIdx⟩, ready := r.now x,
               clause := [], mark := none })

/-- R405, R407, R408, R249: a load whose checks pass completes by sending a request, with its home address and attributes as the
translation gives them and its registers; a strong load publishes first the bytes of its domain there, and its request is sent alone unless
MIXSZ asks for it in turn (R248). A plain load of an offline home whose bytes its domain has all stored gives those without a request. LDK of a
field of the task record gives it later, without an access; else it loads from the constant bank. -/
def Obligations.LoadsIssueTheirRequests : Prop :=
  ∀ (s : State) (g : Group) (gd : Guard) (u : Nat) (la : BitVec 4) (d : RegF) (ty : MemTy),
    let t := s.thread u
    let c := s.charge [u]
    let z := memSize ty
    let asks (x : State) (va pa : Nat) (at_ : Attr) (strong : Bool) (ord : MOrd) (sc : Scope) (na : Bool) : Req :=
      { mkReq x u (.load ty strong) va z with
        pa := pa, attr := at_, ord := ord, scope := sc, na := na, dest := destOf x u d (tyWidth ty), win := (t.pos, la.toNat) }
    let goes (y r : State) (x : Req) (vaOf kind : Nat) (i : Instr) : Prop := ∀ p q, r.strongOwn u vaOf z kind = (none, p) →
      p.issueStrong x = (.next, q) → y.Steady u q → y.Becomes i q
    (∀ (p : State) (x : Req), (p.fnAt (p.thread x.thr).id.fn).mem.mixsz = false → p.issueStrong x = (.next, p.issue x)) ∧
    (∀ (m : MemF) (ord : MOrd) (sc : Scope) (na : Bool) (pa : Nat) (at_ : Attr) (r : State),
      let va := s.ea u m z
      let kind := if ord = .acq then 2 else 0
      s.RunsAlone g u gd { ctl := ctlTy ty, srcs := memSrcs m false, dsts := [(d, tyWidth ty)], qdst := false, la := la.toNat } →
      va % z = 0 → va < t.vaLim → c.place u va z kind .r = (.ok (pa, at_), r) →
      (ord = .rlx → sc = .core → c.loadHere u va z = false → r.counterAt pa z = false → s.Steady u r →
        s.Becomes (.ld gd la d m ty ord sc na) (r.issue (asks r va pa at_ false .rlx .core na))) ∧
      ((ord ≠ .rlx ∨ sc ≠ .core) → goes s r (asks r va pa at_ true ord sc na) va kind (.ld gd la d m ty ord sc na)) ∧
      (ord = .rlx → sc = .core → c.loadHere u va z = false → r.counterAt pa z = true →
        goes s r (asks r va pa at_ true .rlx .dev na) va 0 (.ld gd la d m ty ord sc na))) ∧
    (∀ (m : MemF) (na : Bool) (own : Map Byte) (r : State),
      let va := s.ea u m z
      s.RunsAlone g u gd { ctl := ctlTy ty, srcs := memSrcs m false, dsts := [(d, tyWidth ty)], qdst := false, la := la.toNat } →
      va % z = 0 → va < t.vaLim → c.loadHere u va z = true → s.storeWaits u va z = false → s.mem.ownPoison (s.domKey t) va z = false →
      c.ownBytes (c.agent t .ls) va z = (own, r) → s.Steady u r →
      s.Becomes (.ld gd la d m ty .rlx .core na)
        (r.later u la.toNat d (tyWidth ty) (loadRegs t.isCtl ty (ofBytesLE (overlay own (List.replicate z 0)))) false 0 (.load ty false))) ∧
    (∀ (x : RegF) (off : BitVec 12) (pa : Nat) (at_ : Attr) (r : State),
      s.RunsAlone g u gd { ctl := ctlTy ty, srcs := [⟨5, x, .int⟩], dsts := [(d, tyWidth ty)], qdst := false, la := la.toNat } →
      (off.toInt < 0 → -8 ≤ off.toInt → ty = .i64 → x = .vz →
        s.Becomes (.ldk gd la d x off ty)
          (c.later u la.toNat d 2 (loadRegs t.isCtl .i64 ((s.taskRec u).field (off.toInt + 8).toNat)) false 0 (.load .i64 false))) ∧
      (let va := (((s.taskRec u).args + (s.bits u x 32).toInt * z + off.toInt * z) % 2 ^ 64).toNat
       0 ≤ off.toInt → va % z = 0 → va < t.vaLim → c.loadHere u va z = false → c.place u va z 0 .r = (.ok (pa, at_), r) →
         r.counterAt pa z = false → s.Steady u r → s.Becomes (.ldk gd la d x off ty) (r.issue (asks r va pa at_ false .rlx .core false)))) ∧
    ∀ m : MemF, s.RunsAlone g u gd { ctl := false, srcs := memSrcs m true, dsts := [(d, tyWidth ty)], qdst := false, la := la.toNat } →
      let a := s.eaS u m z
      s.scrAlign u a z = none →
      s.Becomes (.lds gd la d m ty) (c.issue { mkReq c u (.lds ty) a z with dest := destOf c u d (tyWidth ty), win := (t.pos, la.toNat) })

/-- R242, R406, R407: a plain store that has no earlier load to wait for puts its bytes, little-endian, among the unpublished stores of its
domain, every other byte of which is as it was, and changes no memory; a strong store of any thread but a twin's sends a request with them
(after its boundary, if it is a release), a store to a scratchpad one to its bank unit. -/
def Obligations.StoresPutTheirBytes : Prop :=
  ∀ (s : State) (g : Group) (gd : Guard) (u : Nat) (d : RegF) (m : MemF) (ty : MemTy),
    let t := s.thread u
    let c := s.charge [u]
    let z := memSize ty
    let v : Nat := (if ty = .i64 then s.pairBits u d else s.bits u d 64).toNat
    let bs : List Byte := bytesLE z (if ty = .e3m2 ∨ ty = .e2m3 ∨ ty = .s10 then v % 2 ^ 30 else v)
    let poi : Bool := (s.readR t d).tag == .poison || (ty == .i64 && !t.isCtl && (s.readR t (regSucc d)).tag == .poison)
    let kd : Kind := if ty = .i64 then .anyPair else .any
    (s.RunsAlone g u gd { ctl := ctlTy ty, srcs := ⟨0, d, kd⟩ :: memSrcs m false } →
      let va := s.ea u m z
      va % z = 0 → va < t.vaLim →
      (∀ na, (∀ k ∈ s.core.crews, k.uid = t.id.crew → k.peer = none) → s.storeWaits u va z = false → ∃ r, s.Becomes (.st gd d m ty .rlx .core na) r ∧
        (∀ a, ((r.mem.dom (s.domKey t)).stores.find a).map (fun e => (e.val, e.poison)) =
          if va ≤ a ∧ a < va + z then some (bs.getD (a - va) 0, poi)
          else ((s.mem.dom (s.domKey t)).stores.find a).map fun e => (e.val, e.poison)) ∧
        r.mem.bytes = s.mem.bytes ∧ r.core = c.core) ∧
      ∀ (ord : MOrd) (sc : Scope) (na : Bool) (b r q p : State) (pa : Nat) (at_ : Attr), ord ≠ .rlx ∨ sc ≠ .core →
        (if ord = .rel ∧ c.storeHeld u va z = false then c.doBoundary u sc .store = (.next, b) else b = c) → b.isTwin u = false → b.offWrite u va = none →
        b.place u va z 1 .w = (.ok (pa, at_), r) → (r.unhold u va z).strongOwn u va z 1 = (none, q) →
        let e := q.onLinks fun l => { l with held := l.held.filter fun h => h.who != .pub u }
        e.issueStrong { mkReq e u (.store true) va z with
          pa := pa, attr := at_, ord := ord, scope := sc, na := na, data := bs, poison := poi, bnd := if ord = .rel then e.lastBnd u else [] } = (.next, p) →
        s.Steady u p → s.Becomes (.st gd d m ty ord sc na) (p.fold u va bs)) ∧
    (s.RunsAlone g u gd { ctl := false, srcs := ⟨0, d, kd⟩ :: memSrcs m true } →
      let a := s.eaS u m z
      s.scrAlign u a z = none → s.Becomes (.sts gd d m ty) (c.issue { mkReq c u .sts a z with data := bs, poison := poi }))

/-- R409, R411, R412: an atomic whose checks pass, after its release if it is one, sends a request with its operation and the bytes of its
operands, and for CAS of the value it compares with; it names the registers that take the old value. -/
def Obligations.AtomicsIssueTheirRequests : Prop :=
  ∀ (s : State) (g : Group) (gd : Guard) (u : Nat) (la : BitVec 4) (d : RegF) (m : AtMemF) (op : AOp) (ty : ATy) (ord : MOrd) (sc : Scope),
    let t := s.thread u
    let c := s.charge [u]
    let z := aSize ty
    let src := bytesLE z (s.aVal u m.src ty)
    let old := bytesLE z (s.aVal u d ty)
    (∀ (b r p : State) (pa : Nat) (at_ : Attr),
      let va := (((s.pairBits u m.base).toNat + m.off.toInt * z) % 2 ^ 64).toNat
      let rel := ord = .rel ∨ ord = .acqrel
      let asks (kind : ReqKind) (cmp : List Byte) (dest : List Nat) (la : Nat) : Req := { mkReq p u kind va z with
        pa := pa, attr := at_, ord := ord, scope := sc, data := src, cmp := cmp, dest := dest, win := ((p.thread u).pos, la),
        bnd := if rel then p.lastBnd u else [] }
      let goes (x : Req) (i : Instr) : Prop := ∀ q, p.issueStrong x = (.next, q) → s.Steady u q → s.Becomes i q
      va % z = 0 → va < t.vaLim → (if rel then c.doBoundary u sc .atomic = (.next, b) else b = c) →
      b.place u va z 2 .w = (.ok (pa, at_), r) → r.strongOwn u va z 2 = (none, p) →
      (s.RunsAlone g u gd (atomSpec m ty [] [(d, aWidth ty)] la.toNat ord sc) →
        goes (asks (.atomic op ty true) [] (destOf s u d (aWidth ty)) la.toNat) (.atom gd la d m op ty ord sc)) ∧
      (s.RunsAlone g u gd (atomSpec m ty [] [] 0 ord sc) →
        goes (asks (.atomic op ty false) [] [] 0) (.red gd m op ty ord sc)) ∧
      (s.RunsAlone g u gd (atomSpec m ty [⟨0, d, aKind ty⟩] [(d, aWidth ty)] la.toNat ord sc) →
        goes (asks (.cas ty) old (destOf s u d (aWidth ty)) la.toNat) (.cas gd la d m ty ord sc))) ∧
    let srcs : List Src := (if op = .cas then [⟨0, d, aKind ty⟩] else []) ++ [⟨4, m.base, .int⟩, ⟨5, m.src, aKind ty⟩]
    (s.RunsAlone g u gd { ctl := false, srcs := srcs, dsts := [(d, aWidth ty)], qdst := false, la := la.toNat, primary := true } →
      let a := (((s.bits u m.base 32).toNat + m.off.toInt * z) % 2 ^ 32).toNat
      s.scrAlign u a z = none → s.Becomes (.atoms gd la d m op ty) (c.issue { mkReq c u (.atoms op ty) a z with
        data := src, cmp := old, dest := destOf c u d (aWidth ty), win := (t.pos, la.toNat) }))

/-- R61, R71, R220, R228, R249, R407, R349: a request leaves its core, or gets the offline reply of its home, is performed at its home slice
or bank unit when order allows, and its reply writes the registers it names, ORs its flags into FFLAGS and ends it; which of several
acts is a free choice. A bank unit whose owner the thread's ASID is gives a load the little-endian value of its bytes, and a store's bytes are
there afterwards, every other byte as it was; to another thread it gives the trap 8. A load of bytes that its domain has all written itself gives
those, and a load that publishes nothing gives, over the home's bytes, those that its domain has stored there. -/
def Obligations.RequestsArePerformedAndAnswered : Prop :=
  ∀ s : State,
    let owned (q : Req) : Prop := s.unitOwner (s.thread q.thr) q.bank (q.va % 2 ^ 19 / 8192) = some (s.thread q.thr).id.asid
    (s.issued ≠ [] → s.Picks .l1MissRequest s.issued fun q r =>
      if q.toHome && offHome r (r.reqHome q) then r.holdReq q (r.reqHome q) else (r.setReq { q with st := .home }).unOrder (.req q.id)) ∧
    (s.performable ≠ [] → s.Picks .homeSliceAccess s.performable fun q r => r.performReq q) ∧
    (∀ (q : Req) (ty : MemTy), s.performable = [q] → q.kind = .lds ty →
      let key := scrKey (clusterOf q.dom.core) q.va
      owned q → s.mem.scrPoisoned key q.size = false →
      exec .homeSliceAccess s = .next (s.setReq { q with
        st := .done, res := loadRegs false ty (ofBytesLE ((List.range q.size).map fun k => s.mem.scr.getD 0 (key + k))) })) ∧
    (∀ q : Req, s.performable = [q] → q.scratch = true → ¬ owned q → exec .homeSliceAccess s = .next (s.reqTrap q 8)) ∧
    (∀ q : Req, s.performable = [q] → q.kind = .sts → owned q → s.mem.scr.sorted = true →
      let key := scrKey (clusterOf q.dom.core) q.va
      ∃ r, exec .homeSliceAccess s = .next r ∧ r.core = (s.setReq { q with st := .done, res := [] }).core ∧
        ∀ k, r.mem.scr.getD 0 k = if key ≤ k ∧ k < key + q.data.length then q.data.getD (k - key) 0 else s.mem.scr.getD 0 k) ∧
    (∀ (q : Req) (ty : MemTy) (strong : Bool), s.performable = [q] → q.kind = .load ty strong → isHost q.pa = false →
      s.memOffline q.pa = false → s.plat.host.own = [] → s.plat.host.owed = [] → s.mem.ownPoison q.dom q.va q.size = false →
      (strong = true → (s.mem.dom q.dom).stores = []) → q.acquires = false → q.attr.allocL2 = false → (∀ l ∈ s.mem.l2, l.pline ≠ q.pa / 128) →
      let ag := s.reqAgent q
      let own := if strong then ([], s) else s.ownBytes ag q.va q.size
      let rd := own.2.readHome ag (if strong then some q.scope else none) q.va q.pa q.size (!strong)
      s.mem.poisoned q.pa q.size = false ∨ q.size ≤ own.1.length →
      exec .homeSliceAccess s = .next ((if strong then rd.2.noteStrong (s.reqHome q) q.pa q.size else rd.2).setReq { q with
        st := .done, res := loadRegs (s.thread q.thr).isCtl ty (ofBytesLE (overlay own.1 rd.1)) })) ∧
    (∀ (own : Map Byte) (bs : List Byte), (∀ k < bs.length, (own.find k).isSome = true) → overlay own bs = (List.range bs.length).map (own.getD 0)) ∧
    (s.answered ≠ [] → (∀ q ∈ s.answered, q.plog = none) →
      s.Picks .replyArrival s.answered fun q r =>
        r.touch ((r.modThread q.thr fun t =>
          { (q.dest.zip q.res).foldl (fun (t : Thread) e => if e.1 < 0xFFFF then t.setReg e.1 e.2 else t) t with
            fflags := t.fflags ||| q.flags }).onCore fun k => { k with reqs := k.reqs.filter fun x => x.id != q.id }) q.thr)

/-- R414, R415, R416, R231: PREF completes whatever the address holds, of a misaligned one it does nothing, takes a line that an H handler may read
there into L2, and writes no register; DISCARD and CLEAN of no bytes change nothing; DISCARD of bytes of a line that its home accepts drops the domain's unpublished
bytes of the range and gives every byte of it a new version whose value is open (zero or an earlier one, for each read); after CLEAN,
which waits while a write-back cannot be written, no L2 line of the range is dirty. -/
def Obligations.CacheInstructionsComplete : Prop :=
  ∀ (s : State) (g : Group) (gd : Guard) (u : Nat) (m : MemF) (d : RegF),
    let t := s.thread u
    let c := s.charge [u]
    (∀ (ty : MemTy) (ep : Fin 4) (l2 : Bool), s.RunsAlone g u gd { srcs := memSrcs m false } →
      let va := s.ea u m (memSize ty)
      (t.vaLim ≤ va ∨ va % memSize ty ≠ 0 → s.Becomes (.pref gd m ty ep l2) c) ∧
      (va % memSize ty = 0 → s.Becomes (.pref gd m ty ep l2) (c.prefetch u va ep.val l2)) ∧
      (t.lvl = .h → va < t.vaLim → va % memSize ty = 0 → isHost va = false → paFault s va = none → offHome s (homePa s t.id.core va).1 = false →
        offMem s (bitsOf va 38 37) = false → s.wayHeld t.id.core (homePa s t.id.core va).1 va 128 = false → s.plat.host.own.find (va / 128) = none →
        s.Untraced →
        s.Leads (.pref gd m ty ep l2) fun r => r.mem.inL2 va = true)) ∧
    (s.RunsAlone g u gd { srcs := ⟨0, d, .int⟩ :: memSrcs m false } →
      let va := s.ea u m 1
      let len := (s.bits u d 32).toNat
      (len = 0 → s.Becomes (.discard gd m d) c ∧ s.Becomes (.clean gd m d) c) ∧
      (len ≠ 0 → va + len ≤ t.vaLim → s.inFlight u va len = false →
        (∀ r, c.discard u va len = (.next, r) → s.Steady u r → s.Becomes (.discard gd m d) r) ∧
        ∀ (pa : Nat) (at_ : Attr) (r : State), va % 128 + len ≤ 128 → (∀ k ∈ s.core.crews, k.uid = t.id.crew → k.peer = none) →
          c.discardCheck (c.agent t .ls) va len = (.ok pa at_, r) → s.Untraced →
          let q := (r.discardPiece (c.agent t .ls) va len pa at_).dropOwn (s.domKey t) va len
          s.Becomes (.discard gd m d) q ∧
          (∀ a, va ≤ a → a < va + len → (q.mem.dom (s.domKey t)).stores.find a = none) ∧
          ∀ k < len, ((q.mem.versions (pa + k)).head?.map fun v => v.2.isDiscard) = some true) ∧
      (len ≠ 0 → va + len ≤ t.vaLim → c.cleanHeld t.space va len = false → s.Becomes (.clean gd m d) (c.cleanRange t.space va len) ∧
        ∀ l ∈ (c.cleanRange t.space va len).mem.l2, l.space = t.space → va / 128 ≤ l.vline → l.vline * 128 < va + len →
          l.wr = false ∧ l.dirty = []))

/-- R242, R243, R247, R417, R418: a boundary is performed when the thread's earlier reads have completed: the stores of its domain are
published, it is a snapshot point, and it has a number of its own; REFRESH is a snapshot point; FENCE waits for writes too; XFENCE
orders a path after another. -/
def Obligations.BoundariesAreSnapshotPoints : Prop :=
  ∀ (s : State) (g : Group) (gd : Guard) (u : Nat) (sc : Scope), s.RunsAlone g u gd {} →
    let t := s.thread u
    let c := s.charge [u]
    let key := s.domKey t
    let x := c.snapshot u sc
    let sealed := ((x.seal u key (x.thread u).seen.know sc).2.unOrder (.pub u)).onLinks fun l => { l with
      held := l.held.filter fun h => h.who != .pub u }
    (∀ r, c.doBoundary u sc .publish = (.next, r) → s.Steady u r → s.Becomes (.publish gd sc) r) ∧
    (∀ r, s.writesPending u = false → c.doBoundary u sc .fence = (.next, r) → s.Steady u r → s.Becomes (.fence gd sc) r) ∧
    (s.pending u = false → s.Becomes (.refresh gd sc) x) ∧
    (s.pending u = false → s.turnOf (.pub u) = true → (s.mem.dom key).stores = [] → (∀ k ∈ s.core.crews, k.uid = t.id.crew → k.peer = none) →
      s.Becomes (.publish gd sc) sealed ∧ (s.writesPending u = false → s.Becomes (.fence gd sc) sealed)) ∧
    ∀ p q : Path, s.pathBusy u p = false → s.Becomes (.xfence gd p q) (c.modThread u fun y =>
      { y with seen := { y.seen with xf := y.seen.xf.setD 0 (8 * pathCode p + pathCode q) s.mem.seq } })

/-- R419, R420, R421: LINEARM arms the thread's one watch on the line of its address; LINEWAIT with no watch returns 2, with a watch that
has fired 0, and takes the watch away; with one that has not it waits, until its time has passed: then it returns 1. -/
def Obligations.WatchesWakeTheirThread : Prop :=
  ∀ (s : State) (g : Group) (gd : Guard) (u : Nat),
    let t := s.thread u
    let c := s.charge [u]
    (∀ (m : MemF) (ty : MemTy) (sc : Scope) (pa : Nat) (at_ : Attr) (r q : State), s.RunsAlone g u gd { srcs := memSrcs m false } →
      let va := s.ea u m (memSize ty)
      va % memSize ty = 0 → va < t.vaLim → c.place u va 1 0 .r = (.ok (pa, at_), r) →
      (∃ rd, rd ≠ .wait ∧ r.prepareAt (r.agent t .ls) (va / 128 * 128) (pa / 128 * 128) 128 false at_ = (rd, q)) →
      s.Becomes (.linearm gd m ty sc) (q.modThread u fun x =>
        { x with watch := some ⟨x.space, va / 128, pa / 128, false, decide (512 ≤ (q.disarm u).tableUsed (clusterOf t.id.core)), q.now x⟩ })) ∧
    (∀ d a : RegF, s.RunsAlone g u gd { srcs := if a = .vz then [] else [⟨1, a, .int⟩], dsts := [(d, 1)] } →
      let tmo := (s.bits u a 32).toNat
      let returns (k : Nat) : Prop := s.Becomes (.linewait gd d a) ((c.gave u d .i32 k).modThread u fun x => { x with watch := none })
      (t.watch = none → returns 2) ∧
      (∀ w, t.watch = some w → w.fired = true → returns 0) ∧
      (∀ w, t.watch = some w → w.fired = false → a ≠ .vz → tmo = 0 → returns 1) ∧
      (∀ w, t.watch = some w → w.fired = false → w.poll = false → (a ≠ .vz → tmo ≠ 0) →
        exec (.linewait gd d a) s = .next (c.wait u .line true (if a = .vz then 0 else tmo + 1) (codeOf d)))) ∧
    (s.timedOut ≠ [] → s.Picks .linewaitTimeout s.timedOut fun y r => r.endLinewait y.1 y.2 1)

/-- R252 to R256, R326: ACPY with a free tag counter whose checks pass completes: it queues its copy, with the bytes of its domain as they stand,
and counts it under its tag; ACWAIT completes, and the thread goes on, when no more copies than its operand are outstanding, and waits in
place while there are more. A copy reads its source, or what stops it is noted; then it gives its status word, of its tag and length, or of the
code that stopped it, and is counted no longer; a frame at risk inside a region ends it with no status, as an event of the region. When its bytes
land they stand in its scratchpad, zeros after them to the span. -/
def Obligations.CopiesAreQueuedAndLand : Prop :=
  ∀ (s : State) (g : Group) (gd : Guard) (u : Nat) (la : BitVec 4) (d a b c : RegF) (tag : Fin 3) (sz : Fin 4),
    let t := s.thread u
    let k := s.charge [u]
    (let sp : Spec := { ctl := false, srcs := [⟨1, a, .int⟩, ⟨2, b, .addr⟩, ⟨3, c, .int⟩], dsts := [(d, 1)], qdst := false, la := la.toNat }
     let n := 4 * 2 ^ sz.val
     let dst := (s.bits u a 32).toNat
     let src := (s.pairBits u b).toNat
     let v := (s.bits u c 32).toNat
     s.RunsAlone g u gd sp → t.cntOf tag.val ≠ 15 → v ≤ n → dst < 2 ^ 21 → src < t.vaLim → dst % n = 0 → src % 4 = 0 →
     src % 128 + v ≤ 128 → s.scrCheck u dst n = none →
     let own := k.ownBytes (k.agent t .ac) src v
     let r := own.2
     let id := r.core.nextReq
     let q : Req := { mkReq r u .acpy src v with id := id, st := .home, dest := destOf r u d 1, win := (t.pos, la.toNat) }
     let cp : Acpy := ⟨id, u, s.domKey t, t.id.fn, t.lvl, tag.val, dst, src, n, v, r.mem.seq, (r.mem.dom (s.domKey t)).snap, own.1,
       k.mem.ownPoison (s.domKey t) src v, t.rgn, t.pos, .unread, none⟩
     s.Becomes (.acpy gd la d a b c tag sz) ((r.onCore fun x =>
       { x with nextReq := x.nextReq + 1, reqs := x.reqs ++ [q], acpys := x.acpys ++ [cp] }).modThread u fun x => x.modCnt tag.val (· + 1))) ∧
    (s.RunsAlone g u gd { ctl := false, srcs := [⟨1, a, .int⟩] } →
      (t.cntOf tag.val ≤ (s.bits u a 32).toNat → s.Becomes (.acwait gd a tag) k) ∧
      ((s.bits u a 32).toNat < t.cntOf tag.val → ∃ r, exec (.acwait gd a tag) s = .next r ∧ k.Like r ∧
        (r.thread u).pos = t.pos ∧ (r.thread u).run = t.run)) ∧
    (∀ (x : Acpy) (r : State), s.copiesReady = [x] → x.data = none → x.rd = .unread →
      let y := r.unOrder (.acpy x.id)
      (∀ bs, s.copyRead x = (.ok bs, r) → exec .acpyComplete s = .next (y.setCopy { x with rd := .bytes bs })) ∧
      (∀ code, s.copyRead x = (.code code, r) → code ≠ 0x10 → exec .acpyComplete s = .next (y.setCopy { x with rd := .stopped code })) ∧
      (s.copyRead x = (.code 0x10, r) → exec .acpyComplete s = .next ((y.abandon x.thr [x.id]).regionEvent x.thr x.rgn 0x10 x.src))) ∧
    (∀ (x : Acpy) (bs : List Byte), s.copiesReady = [x] → x.data = none → x.rd = .bytes bs →
      let status := 2 ^ 31 + x.tag * 2 ^ 24 + x.v * 2 ^ 16
      s.Leads .acpyComplete fun y => (y.core.acpys = ((s.copyStatus x status).core.acpys.map fun b =>
          if b.id = x.id then { x with data := some bs } else b) ∧ y.mem = (s.copyStatus x status).mem ∨ ∀ b ∈ y.core.acpys, b.id ≠ x.id) ∧
        y.core.threads = (s.copyStatus x status).core.threads) ∧
    (∀ (x : Acpy) (code : Nat), s.copiesReady = [x] → x.data = none → x.rd = .stopped code →
      let y := (s.copyStatus x (2 ^ 31 + 2 ^ 30 + x.tag * 2 ^ 24 + code)).onCore fun k => { k with acpys := k.acpys.filter fun b => b.id != x.id }
      exec .acpyComplete s = .next (if code = 0x17 then y.regionEvent x.thr x.rgn code x.src else y)) ∧
    (∀ (x : Acpy) (status : Nat) (w : Thread), s.thread? x.thr = some w →
      ((s.copyStatus x status).thread x.thr).cntOf x.tag = w.cntOf x.tag - 1 ∧
      ∀ (q : Req) (n : Nat), s.core.reqs.find? (fun q => q.id == x.id) = some q → q.dest = [n] → n < 0xFFFF →
        ((s.copyStatus x status).thread x.thr).reg n = ⟨BitVec.ofNat 64 status, .i32⟩ ∧
        ∀ m, m ≠ n → ((s.copyStatus x status).thread x.thr).reg m = w.reg m) ∧
    (s.copiesReady ≠ [] → s.Picks .acpyComplete s.copiesReady fun x r => match x.data with
      | some bs => r.copyLand x bs
      | none => r.copyDo x) ∧
    ∀ (x : Acpy) (bs : List Byte), s.copiesReady = [x] → x.data = some bs → bs.length ≤ x.span → s.mem.scr.sorted = true →
      let key := scrKey (clusterOf x.dom.core) x.dst
      ∃ r, exec .acpyComplete s = .next r ∧ (∀ y ∈ r.core.acpys, y.id ≠ x.id) ∧
        ∀ j, r.mem.scr.getD 0 j = if key ≤ j ∧ j < key + x.span then bs.getD (j - key) 0 else s.mem.scr.getD 0 j

/-- R264, R269, R271, R273, R275, R276, R265, R274: CHSTART of an idle channel takes it, after its boundary; CHSTAT gives the state of a
channel to its owner and 0 of an idle one; CHABORT leaves it idle, at once between records and else when its record is abandoned or whole; SHFGO queues a command with the next token; SHFWAIT gives a
finished command's status; the engines act on one channel, or one command, at a time. -/
def Obligations.ChannelsAndShufflesFollowTheirCommands : Prop :=
  ∀ (s : State) (g : Group) (gd : Guard) (u : Nat) (d a b : RegF),
    let t := s.thread u
    let c := s.charge [u]
    let ch := (s.bits u a 32).toNat
    let id := 64 * dieOf t.id.core + ch
    (∀ (h : RegF) (gate : Option (Nat × Counter)) (r : State),
      let srcs : List Src := [⟨1, a, .int⟩, ⟨2, b, .addr⟩] ++ if h = .vz then [] else [⟨3, h, .int⟩]
      let head := (s.pairBits u b).toNat
      s.RunsAlone g u gd { ctl := false, srcs := srcs, primary := true, bnd := some (.dev, .chstart) } → ch ≤ 63 → s.chanBusy id = none →
      (if h = .vz then gate = none else (s.bits u h 32).toNat < 2 ^ 24 ∧ gate.isSome ∧ s.counterByHandle t.id.fn (s.bits u h 32).toNat = gate) →
      head % 32 = 0 → s.pathBusy u .ls = false → c.doBoundary u .dev .chstart = (.next, r) → s.Steady u r →
      s.Becomes (.chstart gd a b h) ((r.xfence u .ls .bt).chanTake u id head (gate.map (·.1)))) ∧
    (s.RunsAlone g u gd { ctl := false, srcs := [⟨1, a, .int⟩], dsts := [(d, 2)], primary := true } → ch ≤ 63 →
      (s.chanBusy id = none → s.Becomes (.chstat gd d a) (c.gave64 u d 0)) ∧
      ∀ k, s.chanBusy id = some k → t.lvl = .h ∨ (k.dom.space = t.space ∧ k.fn = t.id.fn) →
        s.Becomes (.chstat gd d a) (c.gave64 u d (k.state * 2 ^ 60 + (if k.state = 5 then k.code else 0) * 2 ^ 52 + k.rec_ % 2 ^ 48 / 32 * 32))) ∧
    (s.RunsAlone g u gd { ctl := false, srcs := [⟨1, a, .int⟩], primary := true } → ch ≤ 63 →
      (s.chanBusy id = none → s.Becomes (.chabort gd a) c) ∧
      ∀ k, s.chanBusy id = some k → t.lvl = .h ∨ (k.dom.space = t.space ∧ k.fn = t.id.fn) → k.ending = false →
        (k.work = none → c.chanAbort id = c.chanIdle id k ∧ (c.chanAbort id).chanBusy id = none) ∧
        (k.work ≠ none → (c.chanAbort id).chanBusy id = none ∨ ((c.chanAbort id).chanBusy id).map (·.ending) = some true) ∧
        ((c.chanAbort id).chanBusy id = none → s.Steady u (c.chanAbort id) → s.Becomes (.chabort gd a) (c.chanAbort id))) ∧
    (∀ (bs : List Byte) (r : State), s.RunsAlone g u gd { ctl := false, srcs := [⟨1, a, .addr⟩], dsts := [(d, 1)] } →
      let va := (s.pairBits u a).toNat
      let cl := clusterOf t.id.core
      (s.clusterAt cl).shq.length < 16 → va < t.vaLim → c.readPlain (c.agent t .ls) va 32 = (.ok bs, r) →
      r.shufCheck va bs (ShufCmd.ofBytes bs t) = none → s.Steady u r →
      s.Becomes (.shfgo gd d a) ((r.shufQueue (ShufCmd.ofBytes bs t)).2.gave u d .i32 ((r.clusterAt cl).shTok % 2 ^ 32))) ∧
    (∀ st : Nat, s.RunsAlone g u gd { ctl := false, srcs := [⟨1, a, .int⟩], dsts := [(d, 1)] } →
      (s.clusterAt (clusterOf t.id.core)).shuffled ch = some (some st) → s.Becomes (.shfwait gd d a) (c.gave u d .i32 st)) ∧
    (s.btSteps ≠ [] → s.Picks .channelRecord s.btSteps fun x r => match x with
      | .rec_ id k => r.chanStep id k
      | .head w q id v u => r.headStart w q id v u) ∧
    (s.shSteps ≠ [] → s.Picks .shuffleCommand s.shSteps fun x r => match x with
      | .land i => (r.shufLand i ((s.clusterAt i).shLate.map fun e => (e.2.1, e.2.2))).modCluster i fun k => { k with shLate := [] }
      | .cmd i k => r.shufCommand i k
      | .head w q v u => r.shufHead w q v u)

/-- R178, R179, R180: a barrier's life. BARINIT of a barrier that is not in use gives it its owner and expected count in phase 0, its free form gives an
idle one back; ARRIVE, with which no arrival of another group meets, counts an arrival and gives the token of the phase; the last arrival ends the
phase, and then the barrier expects one fewer for each ARRDROP of it. Of arrivals of several instructions that the barrier receives in one cycle the
ARRDROPs come first, each kind in lane order. Which arrivals meet is a free choice of the model (log 138). -/
def Obligations.BarriersCountTheirArrivals : Prop :=
  ∀ (s : State) (g : Group) (gd : Guard) (u : Nat) (n : Fin 32) (bk : PredF),
    let t := s.thread u
    let c := s.charge [u]
    let key := 32 * t.id.ctx + n.val
    let b := s.core.barriers.getD Barrier.reset key
    let put (x : Barrier) (r : State) : State := r.onCore fun k => { k with barriers := k.barriers.put key x }
    (∀ a : RegF, s.RunsAlone g u gd { ctl := false, srcs := [⟨1, a, .int⟩] } →
      let e := (s.bits u a 32).toNat
      1 ≤ e → e ≤ 2048 → b.init = false →
      s.Becomes (.barinit gd n a bk) ((put ⟨t.id.asid, t.id.fn, true, false, e, 0, 0, 0, [t.id.crew], []⟩ c).gaveP u bk false)) ∧
    (s.RunsAlone g u gd { ctl := false } → b.init = true → b.owner = t.id.asid → b.ownerFn = t.id.fn → b.arrived = 0 →
      s.barWaiter key = false →
      s.Becomes (.barinitFree gd n bk) ((c.onCore fun k => { k with barriers := k.barriers.del key }).gaveP u bk false)) ∧
    (∀ d : RegF, s.RunsAlone g u gd { ctl := false, dsts := [(d, 1)], primary := true } →
      b.init = true → b.owner = t.id.asid → b.ownerFn = t.id.fn → b.brk = false → b.expect ≠ 0 → b.pend = [] → s.coArrives t.id.core n.val = false →
      let token := b.phase * 2 ^ 16 + n.val
      let one (drops : Nat) : Barrier := { b with arrived := b.arrived + 1, drops := drops, parts := setIns b.parts t.id.crew }
      let next (drops : Nat) (r : State) : State :=
        (put { b with phase := (b.phase + 1) % 2 ^ 16, arrived := 0, expect := b.expect - drops, drops := 0,
                      parts := setIns b.parts t.id.crew } r).markWaiters 1 fun _ w => w.kind.atBarrier && w.a == key
      let gives (r : State) : State := (r.gave u d .i32 token).gaveP u bk false
      (b.arrived + 1 ≠ b.expect →
        s.Becomes (.arrive gd d n bk) (gives (put (one b.drops) c)) ∧
        s.Becomes (.arrdrop gd d n bk) (gives (put (one (b.drops + 1)) c))) ∧
      (b.arrived + 1 = b.expect →
        s.Becomes (.arrive gd d n bk) (gives (next b.drops c)) ∧
        s.Becomes (.arrdrop gd d n bk) (gives (next (b.drops + 1) c)))) ∧
    (∀ (xs : List (Nat × Bool)) (v w : Nat), v ≠ w → (s.thread w).id.ctx = (s.thread v).id.ctx → (s.thread v).id.lane < 32 → (s.thread w).id.lane < 32 →
      let a := s.barrier (s.thread v) n.val
      let one (x : Nat) (drop : Bool) (r : State) : State :=
        let (ph, r) := r.barrierStep x n.val drop
        r.modThread x fun y => { y with mark := some (4 + ph) }
      a.arrived + 2 ≤ a.expect →
      (xs = [(v, false), (w, true)] → s.stepAll n.val xs = one v false (one w true s)) ∧
      ∀ q : Bool, xs = [(v, q), (w, q)] → (s.thread w).id.lane < (s.thread v).id.lane → s.stepAll n.val xs = one v q (one w q s))

/-- R179, R180, R185: BWAIT on the token of a phase that is over goes on and says whether more than one phase has ended since; BPWAIT on
the parity of a phase that is not the present one goes on; BSYNC by the last thread expected ends the phase and goes on. On the present
phase the thread leaves its group and waits. -/
def Obligations.BarrierWaitsEndWithTheirPhase : Prop :=
  ∀ (s : State) (g : Group) (gd : Guard) (u : Nat) (n : Fin 32) (bk : PredF),
    let t := s.thread u
    let c := s.charge [u]
    let key := 32 * t.id.ctx + n.val
    let b := s.core.barriers.getD Barrier.reset key
    b.init = true → b.owner = t.id.asid → b.ownerFn = t.id.fn → b.brk = false →
    (∀ (a : RegF) (p : PredF) (ph : Nat), s.RunsAlone g u gd { ctl := false, srcs := [⟨1, a, .int⟩] } →
      ph < 2 ^ 16 → b.phase < 2 ^ 16 → (s.bits u a 32).toNat = ph * 2 ^ 16 + n.val →
      (ph ≠ b.phase → s.Becomes (.bwait gd p a bk) ((c.gaveP u bk false).gaveP u p (decide ((ph + 1) % 2 ^ 16 ≠ b.phase)))) ∧
      (ph = b.phase → exec (.bwait gd p a bk) s = .next (c.waitMark u .bwait true key 0))) ∧
    (∀ q : Bool, s.RunsAlone g u gd { ctl := false } →
      (b.phase % 2 ≠ q.toNat → s.Becomes (.bpwait gd n q bk) (c.gaveP u bk false)) ∧
      (b.phase % 2 = q.toNat → exec (.bpwait gd n q bk) s = .next (c.waitMark u .bpwait true key 0))) ∧
    (s.RunsAlone g u gd { ctl := false, primary := true } → b.expect ≠ 0 → b.phase < 2 ^ 16 → b.pend = [] → s.coArrives t.id.core n.val = false →
      let put (x : Barrier) : State := c.onCore fun k => { k with barriers := k.barriers.put key x }
      (b.arrived + 1 = b.expect → s.Becomes (.bsync gd n bk)
        (((put { b with phase := (b.phase + 1) % 2 ^ 16, arrived := 0, expect := b.expect - b.drops, drops := 0,
                        parts := setIns b.parts t.id.crew }).markWaiters 1 fun _ w => w.kind.atBarrier && w.a == key).gaveP u bk false)) ∧
      (b.arrived + 1 ≠ b.expect → exec (.bsync gd n bk) s = .next
        ((put { b with arrived := b.arrived + 1, parts := setIns b.parts t.id.crew }).waitMark u .bsync true key 0)))

/-- R181, R182, R423: FGET of a full future gives its value, a snapshot point, and of one that is not full waits; FPUT after its boundary
fills an empty future, or one that its thread has claimed, and wakes those that wait for it; FCLAIM claims an empty one for its thread,
and says whether it has. (Of a future in host memory, while the host's port is up.) -/
def Obligations.FuturesAreFilledOnce : Prop :=
  ∀ (s : State) (g : Group) (gd : Guard) (u : Nat) (a : RegF) (sc : Scope) (bk : PredF) (f : FutAt) (r : State),
    let t := s.thread u
    let c := s.charge [u]
    let va := (s.pairBits u a).toNat
    let st := f.word / 2 ^ 62
    f.down = false → f.word < 2 ^ 64 → va % 16 = 0 → va < t.vaLim → s.Steady u r →
    (∀ d : RegF, s.RunsAlone g u gd { ctl := false, srcs := [⟨1, a, .addr⟩], dsts := [(d, 2)], primary := true } → s.pending u = false →
      c.future u va sc .r = (.ok f, r) →
      (st = 2 → s.Becomes (.fget gd d a sc bk) (((r.snapshot u sc).gave64 u d f.value).gaveP u bk false)) ∧
      (st < 2 → exec (.fget gd d a sc bk) s = .next (r.waitMark u .fget true va (scopeCode sc))) ∧
      (st = 3 → bk.val ≠ 7 → s.Becomes (.fget gd d a sc bk) (r.gaveP u bk true))) ∧
    (∀ (b : RegF) (x : State),
      s.RunsAlone g u gd { ctl := false, srcs := [⟨1, a, .addr⟩, ⟨2, b, .i64⟩], primary := true, bnd := some (sc, .fput) } →
      c.future u va sc .w = (.ok f, r) → r.doBoundary u sc .fput = (.next, x) → s.Steady u x →
      st = 0 ∨ (st = 1 ∧ f.word % 2 ^ 48 = t.ltid.toNat % 2 ^ 48) →
      let q := (x.putFuture u va sc f (x.lastBnd u) (s.pairBits u b).toNat (f.word % 2 ^ 62 + 2 * 2 ^ 62)).modCrew t.id.crew fun k =>
        { k with claims := k.claims.filter (· != (t.space, va)) }
      s.Steady u q → s.Becomes (.fput gd a b sc bk) (q.gaveP u bk false)) ∧
    (∀ (v n : Nat) (y : Thread) (z : WaitRec), y ∈ s.core.threads → y.run = .waiting z → z.kind = .fget → y.mark = some 0 → s.resident y = true →
      s.futurePa y z.a = some v → { y with mark := some n } ∈ (s.wakeFuture v n).core.threads) ∧
    (∀ p : PredF, s.RunsAlone g u gd { ctl := false, srcs := [⟨1, a, .addr⟩], primary := true } → c.future u va sc .w = (.ok f, r) →
      (∀ k, r.crew? t.id.crew = some k → k.claims.length < 16) →
      let q := (r.putFuture u va sc f [] f.value (2 ^ 62 + t.ltid.toNat % 2 ^ 48)).modCrew t.id.crew fun k =>
        { k with claims := k.claims ++ [(t.space, va)] }
      (st = 0 → s.Steady u q → s.Becomes (.fclaim gd p a sc bk) ((q.gaveP u bk false).gaveP u p true)) ∧
      (st = 1 ∨ st = 2 → s.Becomes (.fclaim gd p a sc bk) ((r.gaveP u bk false).gaveP u p false)))

/-- R166 to R169, R184: OPEN gives a closed port of an enabled cluster its owner and its next generation, and a handle to it; REG counts
the crew among its producers; CLOSE closes it and keeps its generation; SEND of a message to a port with room puts it last in the
queue, and what this makes possible happens; to a full port its test form says false and its waiting form waits in order. -/
def Obligations.PortsTakeMessagesInOrder : Prop :=
  ∀ (s : State) (g : Group) (gd : Guard) (u : Nat) (a b d : RegF) (bk : PredF),
    let t := s.thread u
    let c := s.charge [u]
    let h := (s.bits u a 32).toNat
    let key := 256 * (40 * (h % 4) + h / 4 % 64) + h / 256 % 256
    let put (x : Port) (r : State) : State := r.onTask fun k => { k with ports := k.ports.put key x }
    (∀ (bs : List Byte) (r : State), s.RunsAlone g u gd { ctl := false, srcs := [⟨1, a, .addr⟩], dsts := [(d, 1)], primary := true } →
      let va := (s.pairBits u a).toNat
      let v := ofBytesLE bs
      let sel := v % 2 ^ 16
      let key := 256 * (40 * (sel % 4) + sel / 4 % 64) + sel / 256
      let q := r.task.ports.getD Port.reset key
      va % 16 = 0 → va < t.vaLim → c.readPlain (c.agent t .ls) va 16 = (.ok bs, r) → s.Steady u r → v < 2 ^ 25 →
      1 ≤ v / 2 ^ 16 % 2 ^ 8 → v / 2 ^ 16 % 2 ^ 8 ≤ 4 → offHome r (sel % 4) = false → r.clusterOn (sel % 4) (sel / 4 % 64) = true →
      q.open_ = false →
      let gen := q.gen % 0xFFFF + 1
      let new : Port := ⟨true, gen, t.id.asid, t.id.fn, v / 2 ^ 16 % 2 ^ 8, v / 2 ^ 24 = 1, [], [], false, []⟩
      s.Becomes (.portcfgOpen gd d a bk)
        (((r.onTask fun k => { k with ports := k.ports.put key new }).gave u d .b32 (gen * 2 ^ 16 + sel)).gaveP u bk false)) ∧
    ∀ q : Port, s.task.ports.find key = some q → offHome s (h % 4) = false → s.clusterOn (h % 4) (h / 4 % 64) = true →
      q.open_ = true → q.gen = h / 2 ^ 16 → q.asid = t.id.asid → q.fn = t.id.fn →
      (s.RunsAlone g u gd { ctl := false, srcs := [⟨1, a, .int⟩], primary := true } →
        (q.brk = false → t.id.crew ∉ q.prods → q.prods.length < 4 →
          s.Becomes (.portcfgReg gd a bk) ((put { q with prods := setIns q.prods t.id.crew } c).gaveP u bk false)) ∧
        ((s.task.patterns.any fun e => e.2.armed && e.2.ports.contains (key, q.gen)) = false → s.unitBusy (key / 256) = false →
          s.Becomes (.portcfgClose gd a bk) ((put { Port.reset with gen := q.gen } (c.endSenders key)).gaveP u bk false))) ∧
      ∀ (p : PredF) (r : State),
        s.RunsAlone g u gd { ctl := false, srcs := [⟨1, a, .int⟩, ⟨2, b, .oct⟩], primary := true, bnd := some (.dev, .send) } →
        s.unitBusy (key / 256) = false → c.doBoundary u .dev .send = (.next, r) → s.Steady u r → r.task.ports.find key = some q → q.brk = false →
        let msg : List Byte := match b with
          | .gpr n => (List.range 8).flatMap fun k => bytesLE 4 (t.reg (n.val + k)).val.toNat
          | _ => List.replicate 32 0
        let sent := (put { q with queue := q.queue ++ [msg] } r).portEvent (key / 256)
        (q.queue.length < q.depth → s.Steady u sent →
          s.Becomes (.send gd .plain p a b bk) (sent.gaveP u bk false) ∧ s.Becomes (.send gd .wait p a b bk) (sent.gaveP u bk false) ∧
          s.Becomes (.send gd .test p a b bk) ((sent.gaveP u bk false).gaveP u p true)) ∧
        (q.depth ≤ q.queue.length →
          s.Becomes (.send gd .test p a b bk) ((r.gaveP u bk false).gaveP u p false) ∧
          exec (.send gd .wait p a b bk) s = .next ((put { q with sendq := q.sendq ++ [(u, msg)] } r).waitMark u .send true key 0))

/-- R170, R172 to R174: PATSET and its template form complete with an image that passes the checks, and put it, disarmed, into the entry or
template that the selector names; PATARM arms an entry of the thread's own whose ring its ASID can read, upon which the port unit acts, and
disarms one. (The port unit has no firing to complete first, and the entry is not broken.) -/
def Obligations.PatternsAreSetAndArmed : Prop :=
  ∀ (s : State) (g : Group) (gd : Guard) (u : Nat) (a b : RegF) (bk : PredF) (sel key : Nat),
    let t := s.thread u
    let c := s.charge [u]
    sel < 2 ^ 14 → offHome s (sel % 4) = false → s.clusterOn (sel % 4) (sel / 4 % 64) = true →
    key = 64 * (40 * (sel % 4) + sel / 4 % 64) + sel / 256 →
    (∀ (img : List Byte) (r : State),
      s.RunsAlone g u gd { ctl := false, srcs := [⟨1, a, .addr⟩, ⟨2, b, .int⟩], primary := true } → (s.bits u b 32).toNat = sel →
      let va := (s.pairBits u a).toNat
      va < t.vaLim → s.unitBusy (key / 64) = false → c.readPlain (c.agent t .ls) va 64 = (.ok img, r) → s.Steady u r → r.task = c.task →
      let f (o n : Nat) : Nat := ofBytesLE ((img.drop o).take n)
      let n := f 0x20 1
      let port (j : Nat) : Nat := 256 * (key / 64) + f (4 * j) 4 / 256 % 256
      let gen (j : Nat) : Nat := f (4 * j) 4 / 2 ^ 16 % 2 ^ 16
      (va % 64 = 0 → 1 ≤ n → n ≤ 8 → f 0x21 1 ≤ 7 → f 0x22 1 < 64 → f 0x23 5 = 0 → f 0x30 16 = 0 → f 0x28 8 % 4096 = 0 →
        (∀ j, n ≤ j → j < 8 → f (4 * j) 4 = 0) →
        (∀ j < n, f (4 * j) 4 % 256 = sel % 256 ∧ (∀ k < j, (port k, gen k) ≠ (port j, gen j)) ∧ ∃ q, s.task.ports.find (port j) = some q ∧ q.open_ = true ∧
          q.gen = gen j ∧ q.brk = false ∧ q.asid = t.id.asid ∧ q.fn = t.id.fn) →
        (∀ e, s.task.patterns.find key = some e → e.armed = false ∧ e.asid = t.id.asid ∧ e.fn = t.id.fn) →
        (∃ m, s.task.tmpls.find (64 * (key / 64) + f 0x22 1) = some m ∧ m.asid = t.id.asid ∧ m.fn = t.id.fn) →
        s.Leads (.patset gd a b bk) fun x => s.WentOn x ∧ (x.thread u).pred bk.val = (bk.val == 7) ∧ x.mem = r.mem ∧
          x.task.patterns = s.task.patterns.put key ⟨t.id.asid, t.id.fn, t.lvl, false, false, (List.range n).map fun j => (port j, gen j),
            f 0x21 1, f 0x22 1, f 0x28 8, 0, 0⟩) ∧
      (va % 8 = 0 → (let m := TaskRec.ofBytes img; m.args = 0 ∧ m.rbase = 0 ∧ m.wbase = 0 ∧ m.rlen = 0 ∧ m.wlen = 0 ∧ r.ctrlBad t.id.fn m 7 = false) →
        (∀ e ∈ s.task.patterns, e.2.armed = true → e.1 / 64 = key / 64 → e.2.tmpl ≠ key % 64) →
        (∀ e, s.task.tmpls.find key = some e → e.asid = t.id.asid ∧ e.fn = t.id.fn) →
        s.Becomes (.patsetTmpl gd a b bk)
          ((r.onTask fun k => { k with tmpls := k.tmpls.put key ⟨t.id.asid, t.id.fn, t.lvl, TaskRec.ofBytes img⟩ }).gaveP u bk false))) ∧
    (s.RunsAlone g u gd { ctl := false, srcs := [⟨1, a, .int⟩], primary := true } → (s.bits u a 32).toNat = sel →
      ∀ e : Pattern, s.task.patterns.find key = some e → e.asid = t.id.asid → e.fn = t.id.fn → e.brk = false → s.unitBusy (key / 64) = false →
        let put (b : Bool) (r : State) : State := r.onTask fun k => { k with patterns := k.patterns.put key { e with armed := b } }
        (∀ (x : Nat × Attr) (r : State), e.ring < 2 ^ 48 →
          c.placeFor { c.agent t .ls with dom := { s.domKey t with space := .asid t.id.asid } } u e.ring 1 0 .r = (.ok x, r) →
          (s.Steady u ((put true r).portEvent (key / 64)) →
            s.Becomes (.patarmOn gd a bk) (((put true r).portEvent (key / 64)).gaveP u bk false)) ∧
          ((put true r).nextFiring (key / 64) = none → (put true r).unitBusy (key / 64) = false →
            (∀ p ∈ r.task.ports, (put true r).admits p.2 = false) → s.Steady u r → s.Becomes (.patarmOn gd a bk) ((put true r).gaveP u bk false))) ∧
        s.Becomes (.patarmOff gd a bk) ((put false c).gaveP u bk false))

/-- R185 to R188: BREAKOBJ of an object of the thread, a port, a join pattern, a barrier, a future or a dependence counter, breaks it,
and OBJSTAT reads its state; of one that is broken already both say so in their status predicate. -/
def Obligations.ObjectsBreakAndReport : Prop :=
  ∀ (s : State) (g : Group) (gd : Guard) (u : Nat) (a d : RegF) (bk : PredF),
    let t := s.thread u
    let c := s.charge [u]
    let v := (s.bits u a 32).toNat
    let va := (s.pairBits u a).toNat
    let node : Prop := offHome s (v % 4) = false ∧ s.clusterOn (v % 4) (v / 4 % 64) = true
    let breaks (k : Fin 5) : Prop := s.RunsAlone g u gd { ctl := false, srcs := [⟨1, a, if 3 ≤ k.val then .addr else .int⟩], primary := true }
    let reads (k : Fin 5) : Prop := s.RunsAlone g u gd { ctl := false, srcs := [⟨1, a, if 3 ≤ k.val then .addr else .int⟩], dsts := [(d, 2)] }
    let gives (k : Fin 5) (n : Nat) (brk : Bool) (x : State) : Prop := bk.val ≠ 7 ∨ brk = false →
      s.Becomes (.objstat gd k d a bk) ((x.gave64 u d n).gaveP u bk brk)
    let was (k : Fin 5) (x : State) : Prop := bk.val ≠ 7 → s.Becomes (.breakobj gd k a bk) (x.gaveP u bk true)
    (∀ q : Port, node → let key := 256 * (40 * (v % 4) + v / 4 % 64) + v / 256 % 256
      s.task.ports.find key = some q → q.open_ = true → q.gen = v / 2 ^ 16 → q.asid = t.id.asid → q.fn = t.id.fn →
      (breaks 0 → (q.brk = true → was 0 c) ∧
        (q.brk = false → s.unitBusy (key / 256) = false → s.Steady u (c.breakPort key) → s.Becomes (.breakobj gd 0 a bk) ((c.breakPort key).gaveP u bk false))) ∧
      (reads 0 → gives 0 (q.brk.toNat * 2 ^ 63 + q.open_.toNat * 2 ^ 62 + q.queue.length * 2 ^ 59 + q.depth * 2 ^ 56 + q.prods.length * 2 ^ 53 +
        q.gen * 2 ^ 32 + min (q.sendq.filter fun e => s.resident (s.thread e.1)).length (2 ^ 32 - 1)) q.brk c)) ∧
    (∀ e : Pattern, v < 2 ^ 14 → node → let key := 64 * (40 * (v % 4) + v / 4 % 64) + v / 256 % 64
      s.task.patterns.find key = some e → e.asid = t.id.asid → e.fn = t.id.fn →
      (breaks 1 → (e.brk = true → was 1 c) ∧ (e.brk = false → s.unitBusy (key / 64) = false → s.Becomes (.breakobj gd 1 a bk)
        ((c.onTask fun x => { x with patterns := x.patterns.put key { e with brk := true } }).gaveP u bk false))) ∧
      (reads 1 → gives 1 (e.brk.toNat * 2 ^ 63 + e.armed.toNat * 2 ^ 62 + 2 ^ 61 + e.prio * 2 ^ 58 + (e.ports.length - 1) * 2 ^ 55 +
        e.tmpl * 2 ^ 49 + e.busy.toNat * 2 ^ 32 + e.cursor * 2 ^ 28 + (s.clusterAt (key / 64)).start) e.brk c)) ∧
    (v < 32 → let key := 32 * t.id.ctx + v
      let b := s.core.barriers.getD Barrier.reset key
      b.init = true → b.owner = t.id.asid → b.ownerFn = t.id.fn →
      (breaks 2 → (b.brk = true → was 2 c) ∧
        (b.brk = false → s.Steady u (c.breakBarrier key) → s.Becomes (.breakobj gd 2 a bk) ((c.breakBarrier key).gaveP u bk false))) ∧
      (reads 2 → gives 2 (b.brk.toNat * 2 ^ 63 + b.init.toNat * 2 ^ 62 + b.expect * 2 ^ 48 + b.arrived * 2 ^ 32 + b.phase) b.brk c)) ∧
    (va % 16 = 0 → va < t.vaLim →
      (∀ f x, breaks 3 → c.future u va .sys .w = (.ok f, x) → f.down = false → s.Steady u x →
        (f.word / 2 ^ 62 = 3 → f.word < 2 ^ 64 → was 3 x) ∧
        (let q := x.putFuture u va .sys f [] f.value (f.word % 2 ^ 62 + 3 * 2 ^ 62)
         f.word < 3 * 2 ^ 62 → s.Steady u q → s.Becomes (.breakobj gd 3 a bk) (q.gaveP u bk false))) ∧
      ∀ bs x, reads 3 → c.readStrong (c.agent t .ls) .sys (va + 8) 8 = (.ok bs, x) → s.Steady u x → bs.length = 8 → gives 3 (ofBytesLE bs) (decide (ofBytesLE bs / 2 ^ 62 = 3)) x) ∧
    ∀ ix n, s.counterOf t.id.fn va = some (ix, n) →
      (breaks 4 → offHome s (homeIn s t.space t.id.core n.va).1 = false →
        (bitOf (c.counterWord n) 63 = true → was 4 c) ∧
        (bitOf (c.counterWord n) 63 = false → s.Steady u (c.chore (.brk ix t.id.core)) →
          s.Becomes (.breakobj gd 4 a bk) ((c.chore (.brk ix t.id.core)).gaveP u bk false))) ∧
      ∀ bs x, reads 4 → c.readStrong (c.agent t .ls) .sys n.va 8 = (.ok bs, x) → s.Steady u x → gives 4 (ofBytesLE bs) (bitOf (ofBytesLE bs) 63) x

/-- R160, R303, R424 to R428: QBIND binds a free queue register of the crew, in the direction that the endpoint and the core give; QUNBIND undoes
it when nothing that the crew pushed is left; QSTAT reads a binding's status word; QTRY pops a row where there is one, of which a
SIMT thread takes bits 31:0 of its element, and says whether it did. -/
def Obligations.QueueRegistersAreBoundAndRead : Prop :=
  ∀ (s : State) (g : Group) (gd : Guard) (u : Nat) (n : Fin 16) (a d : RegF),
    let t := s.thread u
    let c := s.charge [u]
    let cl := clusterOf t.id.core
    let q : RegF := .que n
    (∀ ep : Fin 5, s.RunsAlone g u gd { srcs := [⟨1, a, .int⟩] } →
      let v := (s.bits u a 64).toNat
      (ep.val = 2 → v ≤ 63) → (ep.val = 4 → v < 4 ∧ (s.pkg.die v).drst ≠ 15) → (ep.val < 2 → s.boxForeign cl t.id.asid = false) →
      s.binding t.id.crew n.val = none →
      let push : Bool := if ep.val = 0 then !t.isCtl else if ep.val = 1 then t.isCtl else true
      let r := if ep.val < 2 then c.modCluster cl fun k => { k with ioOwn := some t.id.asid } else c
      s.Becomes (.qbind gd q a ep) (r.modCrew t.id.crew fun k => { k with qb := k.qb.put n.val ⟨ep.val, v, push, false, []⟩ })) ∧
    (∀ b : QBind, s.RunsAlone g u gd {} → s.binding t.id.crew n.val = some b →
      b.brk = true ∨ (b.heads = [] ∧ (b.ep = 1 → b.push = true → s.drains cl = false)) →
      s.Becomes (.qunbind gd q) ((c.modCrew t.id.crew fun k => { k with qb := k.qb.del n.val }).settleBox cl)) ∧
    (s.RunsAlone g u gd { dsts := [(d, 1)] } →
      (s.binding t.id.crew n.val = none → s.Becomes (.qstat gd d q) (c.gave u d .i32 0)) ∧
      ∀ b : QBind, s.binding t.id.crew n.val = some b →
        s.Becomes (.qstat gd d q) (c.gave u d .i32 (2 ^ 31 + b.brk.toNat * 2 ^ 30 + b.ep * 2 ^ 27 +
          (if b.ep = 2 ∨ b.ep = 4 then b.unit else 0) * 2 ^ 21 +
          (if b.ep < 2 then rowCount ((s.clusterAt cl).rows b.ep) else s.endLoad t.id.crew b)))) ∧
    ∀ (p bk : PredF) (b : QBind), s.RunsAlone g u gd { dsts := [(d, 1)], qdst := false } → s.binding t.id.crew n.val = some b →
      b.push = false →
      (b.brk = true → bk.val ≠ 7 → s.Becomes (.qtry gd d q p bk) (c.gaveP u bk true)) ∧
      (b.brk = false → (s.clusterAt cl).rows b.ep = [] →
        s.Becomes (.qtry gd d q p bk) ((c.gaveP u bk false).gaveP u p false)) ∧
      ∀ (x : Word) (row : List Word) (rest : List (List Word)), b.brk = false → (s.clusterAt cl).rows b.ep = (x :: row) :: rest →
        let v := if t.isCtl = true then x else BitVec.ofNat 64 ((if row = [] then x else (x :: row).getD t.id.lane 0).toNat % 2 ^ 32)
        let left := if t.isCtl = true ∧ row ≠ [] then row :: rest else rest
        s.Becomes (.qtry gd d q p bk)
          ((((c.modCluster cl fun k => k.setRows b.ep left).gaveP u bk false).gave u d .b32 v.toNat).gaveP u p true)

/-- R149 to R151, R429, R431, R432: TASKQ enqueues the record at its address and gives the result; DEPNEW registers a counter, at the
lowest free index with its next generation, writes its word and gives its handle, or says that the quota is used up; DEPDEC, after its
boundary, takes one from a counter; DEPFREE frees one that nothing waits on. R127: what they write to host memory while its port is down is
dropped. -/
def Obligations.TasksAndCountersFollowTheirInstructions : Prop :=
  ∀ (s : State) (g : Group) (gd : Guard) (u : Nat) (a b d : RegF),
    let t := s.thread u
    let c := s.charge [u]
    let va := (s.pairBits u a).toNat
    va % 8 = 0 → va < t.vaLim →
    (∀ (bs : List Byte) (r : State), s.RunsAlone g u gd { srcs := [⟨1, a, .addr⟩, ⟨2, b, .int⟩], dsts := [(d, 2)], primary := true } →
      let lq := (s.bits u b 32).toNat
      lq < 32768 → c.readPlain (c.agent t .ls) va 64 = (.ok bs, r) →
      let x := r.enqueue (if t.lvl = .h then 0 else t.id.fn) lq (some t.lvl) (TaskRec.ofBytes bs)
      let v : Nat := match x.1 with
        | .accepted l => l
        | .retry => 2 ^ 32
        | .failed k => k * 2 ^ 40 + 2 * 2 ^ 32
      s.Steady u x.2 → s.Becomes (.taskq gd d a b) (x.2.gave64 u d v)) ∧
    (∀ (pa : Nat) (down : Bool) (r : State), s.RunsAlone g u gd { srcs := [⟨1, a, .addr⟩, ⟨2, b, .int⟩], dsts := [(d, 1)], primary := true } →
      c.counterPlace u va (c.counterSpace u va) = (.ok (pa, down), r) → r.counterAnywhere va = none → s.Steady u r →
      let n := (s.bits u b 32).toNat
      let f := r.fnAt t.id.fn
      let ix := lowestFree 0 ((r.task.counters.filter fun e => e.2.live).map (·.1))
      let gen := (r.task.counters.getD Counter.reset ix).gen % 63 + 1
      (f.qCnts ≤ f.uCnts → s.Becomes (.depnew gd d a b) (r.gave u d .i32 0x80000000)) ∧
      (f.uCnts < f.qCnts →
        let h := ix + gen * 2 ^ 18
        let k : Counter := ⟨gen, true, t.id.fn, t.id.asid, va, pa, []⟩
        let y := (r.onTask fun x => { x with counters := x.counters.put ix k }).modFn t.id.fn fun f => { f with uCnts := f.uCnts + 1 }
        let q := if down then y.dropWrite pa else y.setCounter u t.id.core k [] (h * 2 ^ 32 + n)
        s.Steady u q → s.Becomes (.depnew gd d a b) (q.gave u d .i32 h))) ∧
    ∀ (ix : Nat) (k : Counter) (down : Bool) (r : State), c.namedCounter u va = (.ok (ix, k, down), r) → s.Steady u r →
      (∀ (bk : PredF) (q : State), s.RunsAlone g u gd { srcs := [⟨1, a, .addr⟩], primary := true, bnd := some (.dev, .depdec) } →
        (r.counterWord k < 2 ^ 63 → r.doBoundary u .dev .depdec = (.next, q) →
          let y := q.xfenceAll u
          let x := if down then y.dropWrite k.pa else y.decrement u ix (y.knowOf u) t.id.core
          (q.thread u).id = t.id → s.Steady u x → s.Becomes (.depdec gd a bk) (x.gaveP u bk false)) ∧
        (bitOf (r.counterWord k) 63 = true → bk.val ≠ 7 → s.Becomes (.depdec gd a bk) (r.gaveP u bk true))) ∧
      (s.RunsAlone g u gd { srcs := [⟨1, a, .addr⟩], primary := true } → k.parked = [] → s.Steady u (r.freeCounter ix) →
        s.Becomes (.depfree gd a) (r.freeCounter ix))

/-- R300, R304 to R313, R433: a matrix instruction of the control core whose checks pass, in a queue with room and with no deferred error,
puts its command last in the queue of its cluster's engine, with the operands as it read them; MXWAIT goes on when the queue is
empty and no error is deferred. -/
def Obligations.MatrixInstructionsQueueTheirCommands : Prop :=
  ∀ (s : State) (g : Group) (gd : Guard) (u : Nat) (a b c : RegF) (tl : Fin 4),
    let t := s.thread u
    let k := s.charge [u]
    let cl := clusterOf t.id.core
    let m := (s.clusterAt cl).mx
    let x := (s.bits u a 64).toNat
    let y := (s.bits u b 64).toNat
    let z := (s.bits u c 64).toNat
    let dim (v : Nat) : Nat := if v = 0 then 128 else v
    let rows := dim (z % 128)
    let cols := dim (z / 2 ^ 8 % 128)
    let dims : Prop := z < 2 ^ 15 ∧ z / 128 % 2 = 0
    let needs (l : List RegF) (f : Nat) : Spec := { simt := false, srcs := (l.zip (rangeFrom f 3)).map fun e => ⟨e.2, e.1, .int⟩ }
    let queued (i : Instr) (cmd : MxCmd) : Prop := s.Becomes i (k.modCluster cl fun h =>
      { h with mx := { h.mx with queue := h.mx.queue ++ [⟨cmd, u, s.domKey t, t.lvl, t.pos, t.rgn⟩] } })
    let based (unit : Nat) : Prop := x % unit = 0 ∧ y % unit = 0 ∧ x < t.vaLim ∧ y < 2 ^ 32
    (m.defer = none → m.queue.length < 16 →
      (s.RunsAlone g u gd (needs [a, b] 1) →
        (∀ (fmt : Fin 7) (sp : Bool), based (if fmt.val < 2 then 2 else if fmt.val < 4 then 1 else 4) →
          queued (.mxa gd a b fmt sp) (.opA ⟨fmt.val, sp, x, y⟩) ∧ queued (.mxb gd a b fmt) (.opB ⟨fmt.val, false, x, y⟩)) ∧
        (∀ mode : Fin 3, let unit := if mode.val = 0 then 1 else if mode.val = 1 then 4 else 2
          x % unit = 0 → y % unit = 0 → x < t.vaLim → y < t.vaLim → queued (.mxscale gd a b mode) (.scale mode.val x y)) ∧
        (x % 4 = 0 → y % 4 = 0 → x < t.vaLim → queued (.mxsparse gd a b) (.sparse x y))) ∧
      (s.RunsAlone g u gd (needs [] 1) →
        queued (.mxzero gd tl) (.zero tl.val) ∧
        ∀ (n : Fin 16) (w : QBind), s.binding t.id.crew n.val = some w → w.ep = 1 → w.push = true →
          queued (.mxdrain gd tl (.que n)) (.drain tl.val n.val)) ∧
      (s.RunsAlone g u gd (needs [b, c] 2) → dims → ∀ p : Fin 6, m.view.mmaBad y p.val = false →
        queued (.mxmma gd tl b c p) (.mma tl.val y (2 ^ p.val) rows cols)) ∧
      (s.RunsAlone g u gd (needs [a, b, c] 1) → dims →
        (∀ fmt : Fin 3, based (if fmt.val < 2 then 2 else 4) → queued (.mxload gd tl a b c fmt) (.load tl.val fmt.val x y rows cols)) ∧
        (∀ fmt : Fin 5, based (if fmt.val < 2 then 2 else if fmt.val = 2 then 4 else 1) →
          queued (.mxstore gd tl a b c fmt) (.store tl.val fmt.val x y rows cols)))) ∧
    (s.RunsAlone g u gd (needs [] 1) → m.queue = [] → m.defer = none → s.Becomes (.mxwait gd) k) ∧
    (s.mxClusters ≠ [] → s.Picks .matrixEngineCommand s.mxClusters fun x r => (r.unOrder (.matrix x)).mxStep x)

/-- R86, R89, R93, R96, R102, R103, R434 to R438: COLL of a checked descriptor, after its boundary, enters an operation and gives its handle;
CWAIT and CSTAT give the status of a handle's operation, and when it has completed free its slot; VIEWRD reads the view; STEPSET keeps a
table for the next COLL, or gives its entries to an operation; REJOIN with no module in reach gives 0x0F, else it asks the lowest
and waits; executed again with the answer, it gives 0 or 0x0F. -/
def Obligations.CollectivesStartAndReport : Prop :=
  ∀ (s : State) (g : Group) (gd : Guard) (u : Nat) (a b d e : RegF),
    let t := s.thread u
    let c := s.charge [u]
    let va := (s.pairBits u a).toNat
    let v := s.plat.nor.view
    (∀ (bs : List Byte) (r q x : State),
      s.RunsAlone g u gd { srcs := [⟨1, a, .addr⟩], dsts := [(d, 1)], primary := true, bnd := some (.dev, .coll) } →
      va % 64 = 0 → va < t.vaLim → c.readPlain (c.agent t .ls) va 64 = (.ok bs, r) → r.descCheck u va (CDesc.ofBytes bs) = (none, q) →
      q.freeSlot ((CDesc.ofBytes bs).key % 4) < 256 → q.pathBusy u .ls = false → q.doBoundary u .dev .coll = (.next, x) →
      let y := (x.xfence u .ls .cl).startColl u (CDesc.ofBytes bs)
      s.Steady u y.2 → s.Becomes (.coll gd d a) (y.2.gave u d .i32 y.1)) ∧
    (∀ (id : Nat) (o : CollOp), s.RunsAlone g u gd { srcs := [⟨1, a, .int⟩], dsts := [(d, 2)], primary := true } →
      let h := (s.bits u a 64).toNat
      s.opOf h = some (id, o) →
      (o.written = false → exec (.cwait gd d a) s = .next (c.wait u .cwait true h 0) ∧ s.Becomes (.cstat gd d a) (c.gave64 u d o.word)) ∧
      (o.written = true → s.Becomes (.cstat gd d a) ((c.takeStatus u id o).gave64 u d o.word) ∧
        ((o.vtrap && (o.code == some 0x0F || o.rerun)) = false → s.Becomes (.cwait gd d a) ((c.takeStatus u id o).gave64 u d o.word)))) ∧
    (s.RunsAlone g u gd { srcs := [⟨1, a, .int⟩], dsts := [(d, 2)] } →
      let sel := (s.bits u a 32).toNat
      (sel = 0 → s.Becomes (.viewrd gd d a)
        (c.gave64 u d (v.self_ * 2 ^ 48 + v.state * 2 ^ 44 + v.members.length * 2 ^ 32 + v.num))) ∧
      (1 ≤ sel → sel ≤ 32 → s.Becomes (.viewrd gd d a) (c.gave64 u d (v.setWord (sel - 1))))) ∧
    (let n := (s.bits u b 64).toNat
     let srcs : List Src := [⟨1, a, .addr⟩, ⟨2, b, .int⟩] ++ if e = .vz then [] else [⟨3, e, .int⟩]
     ∀ (bs : List Byte) (r : State), s.RunsAlone g u gd { srcs := srcs, primary := true } → va % 16 = 0 → va < t.vaLim → 1 ≤ n → n ≤ 16 →
      c.readPlain (c.agent t .ls) va (16 * n) = (.ok bs, r) → s.Steady u r →
      let es : List StepEnt := (List.range n).map fun k =>
        ⟨ofBytesLE ((bs.drop (16 * k)).take 2), ofBytesLE ((bs.drop (16 * k + 8)).take 8), ofBytesLE ((bs.drop (16 * k + 2)).take 6)⟩
      (e = .vz → s.Becomes (.stepset gd a b e) (r.modThread u fun x => { x with steps := es })) ∧
      ∀ (id : Nat) (o : CollOp), e ≠ .vz → s.opOf (s.bits u e 64).toNat = some (id, o) →
        let m := if o.set = [] then r.plat.nor.view.members.length else o.set.length
        (es.any (r.entryBad o.fn (stepCount o.op m))) = false → o.steps.length + n ≤ 16 → s.Steady u (r.joinSteps id o es) →
        s.Becomes (.stepset gd a b e) (r.joinSteps id o es)) ∧
    (let len := (s.bits u b 64).toNat
     s.RunsAlone g u gd { lvl := .h, srcs := [⟨1, a, .addr⟩, ⟨2, b, .int⟩], dsts := [(d, 1)] } → va % 4096 = 0 → len % 4096 = 0 →
      va < t.vaLim → v.state = 0 ∨ v.state = 5 →
      (s.reachable = [] → s.Becomes (.rejoin gd d a b) (c.gave u d .i32 0x0F)) ∧
      ∀ m ms, s.reachable = m :: ms → exec (.rejoin gd d a b) s = .next
        (((c.onNor fun n => { n with view := { n.view with rejoin := some ⟨u, va, len, m, false⟩ } }).sendMsg 7 len [] m).waitMark
          u .rejoin false 0 0)) ∧
    ((s.unmark u).RunsAlone g u gd { lvl := .h, srcs := [⟨1, a, .addr⟩, ⟨2, b, .int⟩], dsts := [(d, 1)] } →
      (t.mark = some 1 → s.Becomes (.rejoin gd d a b) ((c.unmark u).gave u d .i32 0)) ∧
      (t.mark = some 2 → s.Becomes (.rejoin gd d a b) ((c.unmark u).gave u d .i32 0x0F)))

/-- R322, R325, R439, R440: CTOPEN opens a region whose handler has a legal clause, inside the regions the thread is in; CTCLOSE closes the
innermost when the thread's accesses have completed; ASSAYSIG gives the signature, or the boundary number, of a copy of an assay pair, and
0 to other threads. R446, R447: TLBINV leaves no cached translation of the function that it names, and TRACEMK puts its record in the
trace; its waiting form then traps with cause 0x14 and the marker. -/
def Obligations.RegionsSignaturesInvalidationAndMarkers : Prop :=
  (∀ (s : State) (g : Group) (gd : Guard) (u : Nat) (a d : RegF),
     let t := s.thread u
     let c := s.charge [u]
     (∀ (ws : List Word) (r : State), s.RunsAlone g u gd { srcs := [⟨1, a, .addr⟩] } → t.ct.length < 4 →
       c.target u (s.pairBits u a).toNat = (.ok ws, r) →
       s.Becomes (.ctopen gd a) (r.newReq.2.modThread u fun x => { x with
         ct := ⟨(s.pairBits u a).toNat, none, r.core.nextReq, x.lvl, x.bankG.inh, x.bankH.inh⟩ :: x.ct })) ∧
     (s.RunsAlone g u gd {} → t.ct ≠ [] → s.regionBusy u = false →
       s.Becomes (.ctclose gd) (c.modThread u fun x => { x with ct := x.ct.tail })) ∧
     ∀ sel : Bool, s.RunsAlone g u gd { dsts := [(d, if sel then 1 else 2)] } →
       let gives (bseq sig : Nat) : Prop := s.Becomes (.assaysig gd d sel) (if sel then c.gave u d .i32 bseq else c.gave64 u d sig)
       (∀ k, s.crew? t.id.crew = some k → k.peer ≠ none → gives k.assay.bseq k.assay.sig.toNat) ∧
       ((∀ k, s.crew? t.id.crew = some k → k.peer = none) → gives 0 0)) ∧
  (∀ (s : State) (g : Group) (gd : Guard) (u : Nat) (a d : RegF),
     let t := s.thread u
     let c := s.charge [u]
     (∀ m : Fin 4,
       let srcs : List Src := (if m.val < 2 then [⟨0, d, .int⟩] else []) ++ if m.val = 0 ∨ m.val = 3 then [⟨1, a, .addr⟩] else []
       let addr := if m.val = 0 ∨ m.val = 3 then (s.pairBits u a).toNat else 0
       let asid := if m.val < 2 then (s.bits u d 32).toNat else 0
       let fn := (c.regAg u).fq
       s.RunsAlone g u gd { lvl := if m.val = 3 then .h else .g, srcs := srcs } → asid < 2 ^ 20 → addr < t.vaLim →
       (m.val < 2 → t.lvl = .h ∨ fn = 0 ∨ asid / 2048 + 1 = fn) → s.tlbBusy m.val fn asid addr = false →
       let r := c.tlbDrop (tlbNamed m.val fn asid addr) (lineNamed m.val asid addr) (pagesNamed m.val fn asid addr)
       s.Steady u r → s.Becomes (.tlbinv gd a d m) r ∧
         ∀ e ∈ r.mem.tlb, e.fn = fn → (m.val < 2 → e.asid = asid) → (m.val = 0 → ¬(e.va ≤ addr ∧ addr < e.va + e.size)) ∧ m.val ≠ 1 ∧ m.val ≠ 2 ∧
           (m.val = 3 → ¬(e.ipa ≤ addr ∧ addr < e.ipa + e.size))) ∧
     (let marker := s.pairBits u a
      let r := c.traceRec t.id.fn t.ltid 0 (tracePc t.pos 0 0) [] (bytesLE 8 marker.toNat) (dieOf t.id.core) 8
      (s.RunsAlone g u gd { srcs := [⟨1, a, .i64⟩] } →
        (s.Steady u r → s.Becomes (.tracemk gd a false) r) ∧
        ((s.fnAt t.id.fn).trace.ring.en = false → s.Becomes (.tracemk gd a false) c)) ∧
      ∀ h, s.RunsAlone g u gd { ctl := false, srcs := [⟨1, a, .i64⟩] } → s.TrapOpen u 0x14 h → (s.fnAt t.id.fn).trace.ring.en = false →
        s.Exactly u (.tracemk gd a true) fun r => r.tookTrap u h 0x14 marker t.after))

/-- R6, R7, R442, R443: SRD gives the value of a register, SWR writes it; the values of the registers of a thread and of its trap state
are those that State holds, and what is written to its flags, its thread pointer and its trap positions is there afterwards. A
register of a level above the thread's traps with cause 0x03, an unassigned number with 0x19, and the value is the instruction word. -/
def Obligations.SystemRegistersAreReadWrittenAndGuarded : Prop :=
  (∀ (s : State) (g : Group) (gd : Guard) (u : Nat) (a d : RegF) (n : BitVec 16) (w : Bool),
     let t := s.thread u
     let c := s.charge [u]
     let ag := c.regAg u
     (n = 8 → s.flagsPending u = false) →
     (s.RunsAlone g u gd { ctl := !w, dsts := [(d, if w then 2 else 1)] } →
       let gives (v : Nat) (r : State) : Prop := s.Becomes (.srd gd d n w) (if w then r.gave64 u d v else r.gave u d .b32 v)
       (∀ v r, c.regRead ag n.toNat = .ok v r → s.Steady u r → gives v.toNat r) ∧
       (∀ v, (n.toNat, v) ∈ [(0x000, t.ltid.toNat), (0x001, t.id.lane), (0x002, t.id.row), (0x003, t.id.asid), (0x004, t.id.exk),
           (0x005, t.id.prio), (0x008, t.fflags.toNat), (0x010, t.tls), (0x014, t.ct.length), (0x015, t.rsd * 2 ^ 16 + t.rstk.length),
           (0x016, t.fr.cwa), (0x020, s.cycleOf (dieOf t.id.core))] →
         (t.isCtl = true → n ≠ 1 ∧ n ≠ 2) → gives v c) ∧
       (t.lvl ≠ .u → ∀ v, (n.toNat, v) ∈ [(0x100, t.bankG.cause), (0x101, t.bankG.pcIdx * 2 ^ 60 + t.bankG.pcA), (0x102, t.bankG.val.toNat),
           (0x103, t.bankG.plvl.num + 4 * t.bankG.inh.toNat)] → gives v c) ∧
       (t.lvl = .h → ∀ v, (n.toNat, v) ∈ [(0x108, t.bankH.cause), (0x109, t.bankH.pcIdx * 2 ^ 60 + t.bankH.pcA), (0x10A, t.bankH.val.toNat),
           (0x10B, t.bankH.plvl.num + 4 * t.bankH.inh.toNat)] → gives v c)) ∧
     (s.RunsAlone g u gd { ctl := !w, srcs := [⟨1, a, if w then .i64 else .int⟩] } →
       let v : Nat := if w then (s.pairBits u a).toNat else (s.bits u a 64).toNat
       let leaves (f : Thread → Thread) : Prop := s.Becomes (.swr gd n a w) (c.modThread u f)
       (∀ x r, c.regWrite ag n.toNat (BitVec.ofNat 64 v) = .ok x r → s.Steady u r → s.Becomes (.swr gd n a w) r) ∧
       (n = 0x008 → v < 32 → leaves fun x => { x with fflags := BitVec.ofNat 5 v }) ∧
       (n = 0x010 → v % 32 = 0 → v < 2 ^ 48 → leaves fun x => { x with tls := v }) ∧
       (n = 0x101 → t.lvl ≠ .u → v / 2 ^ 48 % 2 ^ 12 = 0 → v % 8 = 0 →
         leaves fun x => { x with bankG := { x.bankG with pcIdx := v / 2 ^ 60, pcA := v % 2 ^ 48 } }) ∧
       (n = 0x109 → t.lvl = .h → v / 2 ^ 48 % 2 ^ 12 = 0 → v % 8 = 0 →
         leaves fun x => { x with bankH := { x.bankH with pcIdx := v / 2 ^ 60, pcA := v % 2 ^ 48 } }))) ∧
  (∀ (s : State) (g : Group) (gd : Guard) (u : Nat) (a d : RegF) (n : BitVec 16) (h : Bool),
     let t := s.thread u
     let k := n.toNat
     let unassigned := k ∈ [0x009, 0x00F, 0x018, 0x021, 0x106, 0x10D, 0x203, 0x211, 0x306, 0x40A, 0x43F, 0x81B, 0xA29, 0xA48, 0xA93, 0x1000, 0xFFFF]
     let above := (t.lvl = .u ∧ k ∈ [0x100, 0x101, 0x102, 0x103, 0x104, 0x105, 0x300, 0x305, 0xA20, 0xA40, 0xA5B]) ∨
       (t.lvl ≠ .h ∧ k ∈ [0x108, 0x109, 0x10A, 0x10B, 0x10C, 0x820, 0xA90, 0xA91])
     (s.RunsAlone g u gd { dsts := [(d, 1)] } →
       (unassigned → s.TrapOpen u 0x19 h → s.Exactly u (.srd gd d n false) fun r => r.tookTrap u h 0x19 s.ext.iword t.pos) ∧
       (above → s.TrapOpen u 0x03 h → s.Exactly u (.srd gd d n false) fun r => r.tookTrap u h 0x03 s.ext.iword t.pos)) ∧
     (s.RunsAlone g u gd { srcs := [⟨1, a, .int⟩] } →
       (unassigned → s.TrapOpen u 0x19 h → s.Exactly u (.swr gd n a false) fun r => r.tookTrap u h 0x19 s.ext.iword t.pos) ∧
       (above → s.TrapOpen u 0x03 h → s.Exactly u (.swr gd n a false) fun r => r.tookTrap u h 0x03 s.ext.iword t.pos)))

/-- R340, R349, R351, R353: what comes before an instruction acts, for every instruction that the group's shared execution runs, here for
a group of one thread: an encoding that the core or the place in the clause does not allow traps with 0x01; a false predicate skips it; an outstanding
result of its registers outside its window holds the group where it is; a failed operand check traps with its cause. An unassigned word
traps with 0x01. -/
def Obligations.ChecksComeBeforeTheInstruction : Prop :=
  ∀ (s : State) (g : Group) (gd : Guard) (u : Nat) (h : Bool) (i : Instr) (sp : Spec) (f : Nat → State → Flow × State),
    (∀ r, exec i r = .next (r.isa gd sp f)) → s.Issues g → g.members = [u] →
    let t := s.thread u
    let ok := sp.encodingOk (isCtl g.core) (g.clause.length - 2) g.pos.i
    (ok = false → s.TrapOpen u 0x01 h → s.Exactly u i fun r => r.tookTrap u h 0x01 s.ext.iword t.pos) ∧
    (ok = true → t.guardOk gd = false → s.Becomes i s) ∧
    (ok = true → t.guardOk gd = true → sp.blocked s u = true → exec i s = .next s) ∧
    (∀ k v, ok = true → t.guardOk gd = true → sp.blocked s u = false → sp.check s t = some (k, v) →
      s.TrapOpen u k h → s.Exactly u i fun r => r.tookTrap u h k v t.pos) ∧
    ∀ w, s.TrapOpen u 0x01 h → s.Exactly u (.unassignedEncoding w) fun r => r.tookTrap u h 0x01 w t.pos

/-- R160, R161, R303, R424, R426, with MOV: a source queue register takes the first row of its binding, one element for all or the element of
the thread's lane, a SIMT thread its bits 31:0; with no row the thread leaves its group and waits, without a binding it traps with 0x18 and the register's code. A
destination queue register appends a row to an inbox or outbox with room. -/
def Obligations.QueueRegistersPopAndPush : Prop :=
  ∀ (s : State) (g : Group) (gd : Guard) (u : Nat) (n : Fin 16) (d a : RegF), g.members = [u] → (s.thread u).guardOk gd = true →
    let t := s.thread u
    let c := s.charge [u]
    let cl := clusterOf t.id.core
    g.core = t.id.core →
    (s.Passes g gd { srcs := [⟨1, .que n, .any⟩], dsts := [(d, 1)] } → (∀ q, d ≠ .que q) →
      (∀ h, s.binding t.id.crew n.val = none → s.TrapOpen u 0x18 h →
        s.Exactly u (.mov gd d (.que n) false) fun r => r.tookTrap u h 0x18 (BitVec.ofNat 64 (0xE0 + n.val)) t.pos) ∧
      ∀ b : QBind, s.binding t.id.crew n.val = some b → b.push = false → b.brk = false →
        ((s.clusterAt cl).rows b.ep = [] → s.Exactly u (.mov gd d (.que n) false) fun r => r.wait u .qpop false n.val 0) ∧
        ∀ (x : Word) (row : List Word) (rest : List (List Word)), (s.clusterAt cl).rows b.ep = (x :: row) :: rest →
          let v := if t.isCtl = true then x else BitVec.ofNat 64 ((if row = [] then x else (x :: row).getD t.id.lane 0).toNat % 2 ^ 32)
          let left := if t.isCtl = true ∧ row ≠ [] then row :: rest else rest
          s.Becomes (.mov gd d (.que n) false) ((c.modCluster cl fun k => k.setRows b.ep left).modThread u fun x => x.took d ⟨v, .b32⟩)) ∧
    (s.Passes g gd { srcs := [⟨1, a, .any⟩], dsts := [(.que n, 1)] } → (∀ q, a ≠ .que q) →
      ∀ b : QBind, s.binding t.id.crew n.val = some b → b.push = true → b.brk = false → b.ep < 2 →
        rowCount ((s.clusterAt cl).rows b.ep) + 1 ≤ 256 → (b.ep = 1 → s.drains cl = false) →
        s.Becomes (.mov gd (.que n) a false) (c.modCluster cl fun k => k.setRows b.ep (k.rows b.ep ++ [[(s.readR t a).val]])))

/-- R23 to R27, R30, R31, R33, R34: what enters and leaves the five power states, what power loss and boot keep, saves of the site part, thermal cycles,
throttling, and gated clusters and slices. The cause 0x0E of a thermal shutdown is the model's choice (log 118), and so is what a boot that ends in
Recovery counts (log 117). -/
def Obligations.PowerStatesAndSavesFollowTheirEvents : Prop :=
  ∀ s : State,
    let w := s.plat.power
    let kept (r : State) : Prop := r.core = CoreSys.reset ∧ r.mem = MemSys.reset ∧ r.task = TaskSys.reset ∧ r.pkg = Pkg.reset ∧
      r.plat.power.slots = w.slots ∧ r.plat.power.fact = w.fact ∧ r.plat.power.svn = w.svn ∧ r.plat.power.siteA = w.siteA ∧ r.plat.power.siteB = w.siteB
    let saved (r : State) : Prop :=
      let n : Site := ⟨(w.site.seq + 1) % 2 ^ 64, w.wear, w.train, s.spares⟩
      (r.plat.power.siteA = n ∧ r.plat.power.siteB = w.siteB) ∨ (r.plat.power.siteB = n ∧ r.plat.power.siteA = w.siteA)
    s.Leads .powerLoss (fun r => r.plat.power.st = .off ∧ kept r) ∧
    (w.st = .off → exec .powerApplied s = .next (s.onPower fun p => { p with st := .boot })) ∧
    (w.st = .recovery ∨ (w.st = .shutdown ∧ w.saved = true) → s.Leads .coldResetRequest fun r => r.plat.power.st = .boot ∧ kept r) ∧
    (w.st = .shutdown → w.saved = false → exec .coldResetRequest s = .next (s.onPower fun p => { p with coldReq := true })) ∧
    (w.st = .run → exec .shutdownRequest s =
      .next (s.onPower fun p => { p with st := .shutdown, saved := false, coldReq := false, hot := false }).dropRepairs.leaveView) ∧
    (w.st = .shutdown → w.saved = false → s.core.crews = [] → (∀ e ∈ s.plat.health.chans, e.2.active = none) →
      s.Leads .shutdownDrained fun r => saved r ∧ (∀ e ∈ r.plat.health.chans, e.2.queue = []) ∧
        if w.coldReq then r.plat.power.st = .boot else r.plat.power.st = .shutdown ∧ r.plat.power.saved = true) ∧
    (w.saves ≠ 0 → s.Leads .configSave fun r => saved r ∧ r.plat.power.saves = w.saves - 1) ∧
    (w.st = .run → (w.saves = 0 → s.Leads .wearCounterSave saved) ∧
      (w.saves ≠ 0 → exec .wearCounterSave s = .next (s.onPower fun p => { p with saves := w.saves + 1 }))) ∧
    (∀ n, exec (.powerSample n) s = .next (s.onPower fun p => { p with thr := decide (w.capw < n) })) ∧
    exec .thermalThrottle s = .next (s.onPower fun p => { p with thr := true }) ∧
    (w.st = .run ∨ w.st = .shutdown ∧ w.saved = false →
      let x := ((s.leaveView.core.crews.foldl (fun (x : State) c => x.failCrew c.uid 0x0E) s.leaveView).onPower fun p =>
        { p with st := .shutdown, hot := true }).dropRepairs
      exec .thermalShutdown s = .next (if x.noRepair then x.shutDown else x.saveSite)) ∧
    (∀ l : List Int, w.st ≠ .off → l.length = 13 → s.Leads (.temperatureSample l) fun r => ∀ u t, l[u]? = some t →
      (w.therm.find u = none → r.plat.power.therm.find u = some ⟨t, t, true⟩) ∧
      ∀ h, w.therm.find u = some h →
        let fell := h.rise = true ∧ 3 ≤ h.x - t
        (fell → r.plat.power.therm.find u = some ⟨h.x, t, false⟩) ∧
        (h.rise = false → 3 ≤ t - h.x → r.plat.power.therm.find u = some ⟨h.x, t, true⟩) ∧
        ∀ c, c ≤ 4 → r.plat.power.wear.getD 0 (8 * u + c) =
          if fell ∧ 10 ≤ h.x - h.e ∧ c = ampBin (h.x - h.e) then min (w.wear.getD 0 (8 * u + c) + 1) (2 ^ 32 - 1)
          else w.wear.getD 0 (8 * u + c)) ∧
    (∀ b : BootIn, w.st = .boot →
      let rec? := w.factoryCopy b.factory
      let site := (w.siteCopy b.site).getD ⟨1, [], [], []⟩
      ((rec? = none ∨ ∃ k, 1 ≤ k ∧ k ≤ 4 ∧ w.pick k = none) →
        s.Leads (.coldBoot b) fun r => r.plat.power.st = .recovery ∧ kept r) ∧
      ∀ e, rec? = some e → (∀ k, 1 ≤ k → k ≤ 4 → w.pick k ≠ none) → s.Leads (.coldBoot b) fun r =>
        r.plat.power.st = .run ∧ r.plat.power.siten = (w.siteCopy b.site).isNone ∧
        r.plat.power.capw = e.2.cfg.capw ∧ r.plat.nor.view.self_ = e.2.cfg.index ∧ r.plat.host.bitmo = e.2.cfg.bitmo ∧
        (∀ d, d < 4 → r.pkg.die d = bootDie b e.2 site.spare d) ∧
        (∀ k v, 1 ≤ k → k ≤ 4 → w.pick k = some v → r.plat.power.svn.getD 0 k = max (w.svn.getD 0 k) v.1) ∧
        (∀ v, w.slots.find (10 + e.1) = some v → r.plat.power.svn.getD 0 5 = max (w.svn.getD 0 5) v.1) ∧
        ∀ u, u < 13 → r.plat.power.wear.getD 0 (8 * u + 4) = min (site.wear.getD 0 (8 * u + 4) + 1) (2 ^ 32 - 1)) ∧
    (∀ (slotB : Bool) (img : List Byte), w.st = .recovery →
      let kind := fieldOf img 4 4
      exec (.recoveryImageWrite slotB img) s = .next (if 1 ≤ kind ∧ kind ≤ 5 ∧ s.accepted img kind = true then
        s.onPower fun p => { p with
          slots := p.slots.put (2 * kind + slotB.toNat) (fieldOf img 0x10 4, some (Config.sha384 img))
          fact := if kind = 5 then p.fact.put slotB.toNat (Factory.ofImage img) else p.fact }
      else s)) ∧
    ∀ k, k < 160 →
      (s.vacated k = true → s.Leads (.clusterPowerGate k) fun r => (r.clusterAt k).power = 2 ∧
        ∀ a, r.mem.scr.find a = if a / 2 ^ 19 / 5 = k then none else s.mem.scr.find a) ∧
      (s.vacated k = false → exec (.clusterPowerGate k) s = .next s) ∧
      s.Leads (.clusterClockGate k) (fun r => r.mem = s.mem ∧ (r.clusterAt k).power = if (s.clusterAt k).power = 0 then 1 else (s.clusterAt k).power) ∧
      s.Leads (.clusterWake k) (fun r => r.mem = s.mem ∧ (r.clusterAt k).power = 0) ∧
      ∀ d i,
        let here (l : L2Line) : Bool := l.die == d && l.slice == i
        (s.dropHeld here = false → exec (.l2SlicePowerDown d i) s =
          .next ((s.dropLines here).onPower fun p => { p with slcOff := setIns p.slcOff (64 * d + i) })) ∧
        (s.dropHeld here = true → exec (.l2SlicePowerDown d i) s = .next (s.dropLines here))

/-- R43 to R47, R50, R51, R53, R55, R56, R58: a controller's read of a good block changes nothing and corrects what it can; a read of a poisoned block is
uncorrectable; a repair takes the oldest request and a spare; a frame retires on its evidence or at H's request; a channel drains and is lost. What a
patrol scrub and a repair leave open follows logs 57 and 148. -/
def Obligations.MemoryControllersCorrectAndRepair : Prop :=
  ∀ s : State,
    (∀ pa, s.live = true → s.frameOk pa = true →
      let b := pa / 64
      let ch := chanOf (64 * b)
      (∀ bs : List Byte,
        let d := bs.take (64 - pa % 64)
        (s.rangeStalls pa d.length = false → exec (.memoryRequest pa (some bs) []) s = .next (s.physPut Wr.base pa d)) ∧
        (s.rangeStalls pa d.length = true → s.Leads (.memoryRequest pa (some bs) []) fun r => r.mem = s.mem ∧
          (r.chanAt (chanOf pa)).waits = (s.chanAt (chanOf pa)).waits ++ [⟨pa, d, s.chanNow (chanOf pa), Wr.base, false⟩])) ∧
      (s.fromMemory b = true → s.mem.poison.contains b = false → s.mem.deep.contains b = false →
        exec (.memoryRequest pa none []) s = .next s ∧ exec (.patrolScrub pa []) s = .next s ∧
        ∀ err : List (Nat × Byte), err ≠ [] → (err.map (·.1)).Nodup → (∀ e ∈ err, e.1 < 68 ∧ e.2 ≠ 0) →
          let known := (s.chanAt ch).sp.bad.getD (placeOf b).sid []
          2 * (err.filter fun e => !known.contains e.1).length + known.length ≤ 4 →
          let ok (r : State) : Prop := r.mem = s.mem ∧ (r.chanAt ch).ce = min ((s.chanAt ch).ce + 1) (2 ^ 32 - 1) ∧ (r.chanAt ch).ue = (s.chanAt ch).ue
          s.Leads (.memoryRequest pa none err) ok ∧ s.Leads (.patrolScrub pa err) ok) ∧
      (s.fromMemory b = true → s.mem.poison.contains b = true → s.Leads (.memoryRequest pa none []) fun r =>
        r.mem.bytes = s.mem.bytes ∧ r.mem.poison.contains b = true ∧ (r.chanAt ch).ue = min ((s.chanAt ch).ue + 1) (2 ^ 32 - 1))) ∧
    (∀ frame cause, s.frameOk (4096 * frame) = true →
      exec (.pageRetire frame cause) s = .next (if cause = 4 ∨ cause = 1 ∧ s.twiceBad frame = true then
        (s.retire (· == frame) cause false).onHealth fun h => { h with ues := h.ues.filter fun b => b / 64 != frame } else s)) ∧
    (∀ ch, ch < 256 → s.chanOn ch = true → (s.chanAt ch).chst = 0 → s.Leads (.channelDisableStart ch) fun r =>
      (r.chanAt ch).chst = 1 ∧ r.draining ≠ []) ∧
    (s.draining ≠ [] → s.Picks .channelDrainEnd s.draining fun ch r => r.loseChannel ch) ∧
    (s.repairable ≠ [] → s.Picks .repairStart s.repairable fun ch r => r.startRepair ch) ∧
    (∀ ch r rs, s.repairable = [ch] → (s.chanAt ch).queue = r :: rs → (s.chanAt ch).sp.has r = true →
      s.Leads .repairStart fun x => (x.chanAt ch).queue = rs ∧
        (x.chanAt ch).active = some ⟨r, s.chanNow ch, if r.kind = 1 then r.row else 0, s.chanNow ch⟩) ∧
    (s.repairing ≠ [] → s.Picks .repairComplete s.repairing fun e r => r.copyOn e.1 e.2)

/-- R61 to R69, R72, R73, R76: the state of a link; the six steps of a warm reset of a die, each of which ends with DRST advanced, and
which leaves no unit enabled that failed, the ports closed with their generations, and the scratchpads clear; windows and loss. -/
def Obligations.LinksAndWarmResetFollowTheirSteps : Prop :=
  ∀ s : State,
    let link (r : State) (k : Nat) : Link := r.plat.links.dl.getD Link.reset k
    let up1 (n : Nat) : Nat := min (n + 1) 0xFFFF
    (∀ k, k < 10 →
      let l := link s k
      let e := linkEnds k
      let d := if e.2 = 4 then e.1 else e.2
      s.Leads (.dieLinkDown k) (fun r => link r k = { l with state := 0, fails := 0 }) ∧
      (s.linkUp k = true →
        s.Leads (.flitReplay k) (fun r => (link r k).retry = up1 l.retry ∧ (link r k).crcerr = up1 l.crcerr ∧
          (((link r k).fails = 0 ∧ (link r k).state = 2) ∨
            ((link r k).fails = l.fails + 1 ∧ l.fails + 1 < 64 ∧ (link r k).state = 2) ∨
            (64 ≤ l.fails + 1 ∧ (link r k).fails = 0 ∧ (link r k).state = 0)))) ∧
      (s.linkUp k = false → exec (.flitReplay k) s = .next s) ∧
      (l.state ≤ 1 →
        s.Leads (.dieLinkRetrainDone k true) (fun r => (link r k).train = up1 l.train ∧ (link r k).state = 2 ∧ (link r k).fails = 0) ∧
        (s.dieOn d = true → (s.pkg.die d).drst ≠ 8 → ∃ x, exec (.dieLinkRetrainDone k false) s = .next (x.loseDie d) ∧
          (link x k).train = up1 l.train ∧ (link x k).state = 0 ∧ (link x k).fails = 0))) ∧
    (∀ d, s.dieOn d = true → (s.pkg.die d).drst ≠ 8 → exec (.dieLost d) s = .next (s.loseDie d)) ∧
    (∀ c : Drctl, c.die < s.pkg.dies.length →
      let die (r : State) : Die := r.pkg.die c.die
      (∀ n, (die (s.stepOk c n)).drst = n ∧ (die (s.stepOk c n)).drerr = 0 ∧ (s.stepOk c n).plat.links.cur = none) ∧
      (s.drNow 1 = some c →
        let k := s.stopDie c
        (k.quiet c.die = true → exec .quiesce s = .next ((k.portsTo c.die 2 3).stepOk c 1)) ∧
        (k.quiet c.die = false → exec .quiesce s = .next k)) ∧
      (s.drNow 2 = some c →
        let x := s.dropLines fun l => l.die == c.die || s.misplaced l
        let done := x.dropHeld (fun l => l.die == c.die || x.misplaced l) = false ∧ x.evicting = false
        (s.homeBusy c.die = true → exec .dieClean s = .next s) ∧
        (s.homeBusy c.die = false →
          (s.hostLines c.die = [] →
            (done → exec .dieClean s = .next ((x.dropCopies c.die).forgetMaps.stepOk c 2)) ∧ (¬done → exec .dieClean s = .next x)) ∧
          (s.hostLines c.die ≠ [] → exec .dieClean s = .next ((s.hostLines c.die).foldl State.snoopLine s)))) ∧
      (s.drNow 3 = some c → (∀ e ∈ s.plat.health.chans, e.1 / 64 = c.die → e.2.active = none) →
        s.Leads .selfref fun r => (die r).drst = 3 ∧ (die r).drerr = 0) ∧
      (s.drNow 4 = some c → ∀ clu slc chn nor : Nat,
        let m := s.plat.power.record
        let off := offMask (s.plat.health.chans.map fun e => (e.1, e.2.sp)) c.die
        less (m.clu.getD c.die 0) clu 40 ≠ 0 → s.Leads (.dieReset [clu, slc, chn, nor]) fun r =>
        (die r).drst = 4 ∧ (die r).drerr = 0 ∧ (die r).umclu = less (m.clu.getD c.die 0) clu 40 ∧
        (die r).umslc = less (m.slc.getD c.die 0) slc 64 ∧ (die r).umchn = less (m.chn.getD c.die 0) (chn ||| off) 64 ∧
        (die r).umnor = laneGroups (less (m.nor.getD c.die 0) nor 48) ∧ (die r).resets = up1 (die s).resets ∧
        (∀ key q, s.task.ports.find key = some q → key / 10240 = c.die → r.task.ports.find key = some { Port.reset with gen := q.gen }) ∧
        ∀ a, dieOf (a / 2 ^ 19) = c.die → r.mem.scr.find a = none) ∧
      (s.drNow 5 = some c → ∀ bad : List Nat,
        ((∀ k ∈ s.needed c.die, k ∉ bad) → s.Leads (.dieRetrain bad) fun r => (die r).drst = 5 ∧ (die r).drerr = 0 ∧
          ∀ k ∈ linksOf c.die, (link r k).state = if k ∈ bad then 0 else 2) ∧
        ((∃ k ∈ s.needed c.die, k ∈ bad) → s.Leads (.dieRetrain bad) fun r => (die r).drst = (die s).drst ∧ (die r).drerr = 5)) ∧
      (s.drNow 6 = some c →
        let x := s.dropLines s.misplaced
        let a := (((x.forgetMaps.stepOk c 0).reissueHeld c.die).resumeChannels c.die).portsTo c.die 3 2
        (x.dropHeld x.misplaced = true → exec .admitDie s = .next x) ∧
        (x.dropHeld x.misplaced = false → exec .admitDie s =
          .next ((rangeFrom (12 * c.die) 12).foldl (fun (x : State) p => if x.portUp p then (x.replay p 0).pump p else x) a)))) ∧
    (s.drNow 6 = none → exec .admitDie s = .next (if s.lateReady then s.publishAllLate else s)) ∧
    (s.parksOver ≠ [] → s.Picks .parkWindowExpiry s.parksOver fun x r => match r.heldThread x with
      | some u => (match x.who with
        | .req id => (r.onCore fun k => { k with reqs := k.reqs.filter fun q => q.id != id }).sweepHeld
        | _ => r).unwindTo u (r.heldRegion u x) 0x0C x.va
      | none => r) ∧
    (s.pubsOver ≠ [] → s.Picks .heldPublicationExpiry s.pubsOver fun x r => match x.who with
      | .pub u => r.expirePub u x.die x.va
      | _ => r)

/-- R81 to R83, R97 to R101, R103, R104: what a flit, a port, a timer or a message of another module does: a good flit in sequence is passed on, any other
is not; a heartbeat goes to the watched members; suspects, proposals, acknowledgements and commits act as agreement says. That a donor refuses a
second admission request, and the bytes of an acknowledge-only flit, are the model's choice (logs 31, 125 and 157). -/
def Obligations.FlitsAndMembershipMessagesAct : Prop :=
  ∀ s : State,
    let v := s.view
    (∀ (p : Nat) (f : RxFlit), p < 48 → s.portUp p = true →
      let h := fieldOf f.bytes 0 8
      let src := bitsOf h 49 39
      let x (r : State) : NPort := r.portAt p
      (flitOk f.bytes = false → s.Leads (.noranoFlitReceive p f) fun r => r.plat.nor.inq = s.plat.nor.inq ∧ (x r).exp = (x s).exp ∧
        (x r).state = 2) ∧
      (flitOk f.bytes = true → bitsOf h 15 4 ≠ (x s).exp → s.Leads (.noranoFlitReceive p f) fun r =>
        r = s.expects p ∧ r.plat.nor.inq = s.plat.nor.inq ∧ (x r).exp = (x s).exp) ∧
      (flitOk f.bytes = true → bitsOf h 15 4 = (x s).exp → h % 16 ≠ 3 → s.Leads (.noranoFlitReceive p f) fun r =>
        (x r).exp = ((x s).exp + 1) % 4096 ∧
        (h % 16 = 1 → r.plat.nor.inq =
          if bitsOf h 38 28 = v.self_ then s.plat.nor.inq ++ [dataFlit src f.bytes f.x] else s.plat.nor.inq))) ∧
    (∀ p, p < 48 → s.portOff p = false →
      ((s.portAt p).state ≤ 2 → s.Leads (.noranoPortDown p) fun r => (r.portAt p).state = if (s.portAt p).state = 0 then 1 else 0) ∧
      ((s.portAt p).state ≤ 1 → ∀ w : PortTrained,
        let lanes := (if w.width = 4 then 15 else if w.width = 2 then 3 else if w.width = 1 then 1 else 0) &&&
          bitsOf (s.plat.power.lanes.getD (p / 12) 0) (4 * (p % 12) + 3) (4 * (p % 12))
        s.Leads (.noranoPortRetrain p w) fun r => (r.portAt p).state = if lanes = 0 then 4 else 2)) ∧
    (s.beatDue = true → exec .heartbeatSend s = .next ((s.tell 1 v.num v.watched []).modView fun y => { y with hbAt := s.viewNow })) ∧
    exec .suspicionTimeout s = .next (s.suspect s.silent true) ∧
    (∀ m, s.donorIs m = false → exec (.leaveNotice m) s = .next (s.suspect [m] true)) ∧
    (∀ m, s.donorIs m = true → exec (.leaveNotice m) s = .next (s.rejoinFail.suspect [m] true)) ∧
    (∀ p num, s.portUp p = true → (s.portAt p).sent.head?.map (·.1) = some num → (s.portAt p).skip = 0 →
      (32 ≤ (s.portAt p).tries → ((s.nacked p num).portAt p).state = 0) ∧
      ((s.portAt p).tries < 32 → ((s.nacked p num).portAt p).state = 2 ∧ ((s.nacked p num).portAt p).tries = (s.portAt p).tries + 1 ∧
        ((s.nacked p num).portAt p).retry = min ((s.portAt p).retry + (s.portAt p).sent.length) 0xFFFF)) ∧
    (∀ m sus, exec (.suspectNotice m sus) s = .next ((s.heardFrom m).suspect sus false)) ∧
    (∀ m num set, setUnion [] set = set → v.self_ ∈ set → v.forming = none → v.rejoin = none → v.member = true →
      (v.takes m num set = true → s.Leads (.viewProposal m num set) fun r => r = (s.heardFrom m).acceptProposal m num set ∧
        r.view.state = 3 ∧ r.view.prop = some ⟨num, set, m, [], []⟩) ∧
      (v.takes m num set = false → exec (.viewProposal m num set) s = .next ((s.heardFrom m).tell 2 v.num [m] v.suspects))) ∧
    (∀ m num fixed p, v.prop = some p → p.from_ = v.self_ → p.num = num → m ∈ p.set →
      exec (.proposalAck m num fixed) s = .next ((s.heardFrom m).modView fun y =>
        { y with prop := some { p with acks := setIns p.acks m, fixed := setUnion p.fixed fixed } }).commitIf) ∧
    (∀ m num set fixed p, setUnion [] set = set → v.prop = some p → p.from_ = m → p.num = num → p.set = set →
      exec (.viewCommit m num set fixed) s = .next (if v.self_ ∈ set then s.installView num set fixed else s.removed)) ∧
    (s.agreeLate = true → v.state ≠ 4 → exec .agreementTimeout s =
      .next ((s.modView fun y => { y with agrAt := s.viewNow }).suspect v.proposer.toList true)) ∧
    (s.agreeLate = true → v.state = 4 → exec .agreementTimeout s = .next s.rejoinFail) ∧
    (s.formLate = true → exec .viewFormationTimeout s = .next (s.modView fun y => { y with forming := none, prop := none })) ∧
    (∀ m len, v.member = false → exec (.admissionRequest m len) s = .next (s.tell 13 v.num [m] [])) ∧
    (∀ m len, v.member = true →
      (v.synclen = 0 ∨ v.synclen ≠ len ∨ v.rejoin ≠ none → exec (.admissionRequest m len) s = .next (s.tell 10 v.num [m] [])) ∧
      (v.synclen ≠ 0 → v.synclen = len → v.rejoin = none → exec (.admissionRequest m len) s =
        .next ((s.tell 9 v.num [m] v.members).modView fun y => { y with rejoin := some ⟨0, v.syncbase, len, m, true⟩ }))) ∧
    ∀ r : Rejoin, v.rejoin = some r →
      (r.donor = true → v.member = true →
        let q := s.physRead r.va r.len
        let t := (q.2.emit (.bytes q.1)).modView fun y => { y with rejoin := none }
        exec .rejoinCopyDone s = .next (t.propose (v.num + 1) (setIns v.members r.peer))) ∧
      (r.donor = false → v.state = 4 → r.len ≠ 0 → exec .rejoinCopyDone s = .next (match s.rejoinCopy r with
        | some t => t.modView fun y => { y with rejoin := some { r with len := 0 }, agrAt := t.viewNow }
        | none => s.rejoinFail))

/-- R108 to R113, R119 to R121, R127, R139: the requests of the host, and of the application cores, to device memory, its snoop responses, its snoops of
the half-lines that the device holds, and its ports. What a snoop counts, the owner of the application cores' lines, and what is left open of the
host's messages, follows logs 65, 119 and 146. -/
def Obligations.HostRequestsAndSnoopsAct : Prop :=
  ∀ s : State,
    let h := s.plat.host
    exec .hostMemspecrd s = .next s ∧
    (∀ at_ : Nat,
      let pa := at_ % 2 ^ 52
      let line := pa / 128
      let r (q : HostReq) : State := s.onHost fun x => { x with heldReq := x.heldReq.erase q }
      (s.live = false ∨ h.reaches (.rd at_) = false → exec (.hostMemrd at_) s = .next (r (.rd at_))) ∧
      (2 ^ 52 ≤ at_ → h.reaches (.rd at_) = true) ∧
      (s.live = true → h.reaches (.rd at_) = true → s.hdHolds pa = true → s.Leads (.hostMemrd at_) fun x =>
        HostReq.rd at_ ∈ x.plat.host.heldReq) ∧
      (s.live = true → h.reaches (.rd at_) = true → s.hdHolds pa = false → h.snoops.find line = none → s.wouldStall pa = false →
      (s.hostFrame pa = false →
        exec (.hostMemrd at_) s = .next ((r (.rd at_)).emit (.cmp pa 0 [] true)) ∧
        exec (.hostMeminv at_) s = .next ((r (.inv at_)).emit (.cmp pa 0 [] true)) ∧
        exec (.hostMeminvRelease at_) s = .next ((r (.release at_)).emit (.cmp pa 0 [] true))) ∧
      (s.hostFrame pa = true →
        exec (.hostMeminvRelease at_) s = .next (((((r (.release at_)).internalSnoop line).leaveE line)).emit (.cmp pa 0 [] false)) ∧
        (∀ b poison, exec (.hostMemwr at_ b false poison) s =
          .next (((((r (.wr at_ b false poison)).internalSnoop line).hostWrite pa b poison).leaveE line).emit (.cmp pa 0 [] false))) ∧
        ((h.own.find line).isSome = true →
          exec (.hostMeminv at_) s = .next ((((r (.inv at_)).grantE line).internalSnoop line).emit (.cmp pa 2 [] false)) ∧
          (∀ b poison, exec (.hostMemwr at_ b true poison) s =
            .next (((((r (.wr at_ b true poison)).grantE line).internalSnoop line).hostWrite pa b poison).emit (.cmp pa 2 [] false))) ∧
          (h.ssEn = false →
            let t := ((r (.rd at_)).grantE line).internalSnoop line
            exec (.hostMemrd at_) s = .next ((t.hostBytes pa).2.emit
              (.cmp pa 2 (t.hostBytes pa).1 ((t.hostBytes pa).2.mem.poisoned (pa / 64 * 64) 64))))) ∧
        (h.own.find line = none →
          (s.victim line = none → exec (.hostMeminv at_) s = .next ((((r (.inv at_)).grantE line).internalSnoop line).emit (.cmp pa 2 [] false))) ∧
          ∀ l, s.victim line = some l → exec (.hostMeminv at_) s = .next (((r (.inv at_)).snoopLine l).holdBehind l (.inv at_)))))) ∧
    (∀ line, (h.snoops.find line = none → exec (.birsp line) s = .next s) ∧
      ∀ q, h.snoops.find line = some q → exec (.birsp line) s = .next (s.endSnoop line q) ∧
        ∀ held, reqLine held = line → exec (.biconflict line held) s = .next (s.holdBehind line held)) ∧
    (s.lateSnoops ≠ [] → s.Picks .bisnpTimeout s.lateSnoops fun x r =>
      ((r.onMem fun m => m.markPoison (128 * x.1) 128 true).endSnoop x.1 x.2).smqPut ⟨3, x.1, stackOfLine x.1⟩) ∧
    (∀ half b poison, b.length = 64 → Memory.wf s.mem = true → s.mem.dirtyLine (half / 2) = none →
      (h.d2h.find half = some 1 → s.Leads (.d2hGo half 1 b poison) (fun r => r.plat.host.mesi.getD 0 half = 1 ∧ r.mem.read (64 * half) 64 = b) ∧
        s.Leads (.d2hGo half 2 b poison) fun r => r.plat.host.mesi.getD 0 half = 2 ∧ r.mem.read (64 * half) 64 = b) ∧
      (h.d2h.find half = some 2 → s.Leads (.d2hGo half 2 b poison) fun r =>
        r.plat.host.mesi.getD 0 half = 2 ∧ r.mem.read (64 * half) 64 = b)) ∧
    (∀ half st b poison, h.d2h.find half = some 5 ∨ h.d2h.find half = some 6 → exec (.d2hGo half st b poison) s =
      .next (s.onHost fun x => { x with mesi := x.mesi.setD 0 half 0, d2h := x.d2h.del half })) ∧
    (∀ half, h.mesi.sorted = true →
      let m := h.mesi.getD 0 half
      let data := s.mem.read (64 * half) 64
      let bad := s.mem.poison.contains half
      let toM (k : Nat) : State := s.onHost fun x => { x with mesi := x.mesi.setD 0 half k }
      (m = 0 → exec (.snpinv half) s = .next ((s.emit (.rsp half 0 [] false)).fire (half / 2)) ∧
        exec (.snpdata half) s = .next (s.emit (.rsp half 0 [] false)) ∧ exec (.snpcur half) s = .next (s.emit (.rsp half 0 [] false))) ∧
      (m = 1 ∨ m = 2 → exec (.snpinv half) s = .next (((toM 0).forwardHalf half true).emit (.rsp half 1 [] false)) ∧
        exec (.snpdata half) s = .next ((toM 1).emit (.rsp half 3 [] false)) ∧
        exec (.snpcur half) s = .next (s.emit (.rsp half 5 [] false))) ∧
      (m = 3 → exec (.snpinv half) s = .next (((toM 0).forwardHalf half true).emit (.rsp half 2 data bad)) ∧
        exec (.snpdata half) s = .next (((toM 1).forwardHalf half false).emit (.rsp half 4 data bad)) ∧
        exec (.snpcur half) s = .next (s.emit (.rsp half 6 data bad))) ∧
      (toM 0).plat.host.mesi.getD 0 half = 0 ∧ (toM 1).plat.host.mesi.getD 0 half = 1) ∧
    ∀ p, p < 2 → p < h.ports.length →
      s.Leads (.cxlPortDown p) (fun r => (r.plat.host.port p).state = 0 ∧ (r.plat.host.port p).width = 0 ∧ (r.plat.host.port p).gen = 0) ∧
      ∀ (w : Nat) (m : CxlMode), m.ways ≤ 2 → (h.port p).state ≤ 1 →
        (m.st = 1 → s.Leads (.cxlPortUp p w m) fun r => (r.plat.host.port p).state = 1) ∧
        (m.st = 2 ∨ m.st = 3 → w ∈ [1, 2, 4, 8, 16] → 1 ≤ m.gen → m.gen ≤ 7 → s.Leads (.cxlPortUp p w m) fun r =>
          r.plat.host.port p = { h.port p with state := m.st, width := w, gen := m.gen, ways := m.ways, base := m.base } ∧
            r.ext.out = .excluded s.excluded :: .cdat 0 (2 ^ 39) :: s.ext.out)

/-- R134, R135, R138, R140, R141: enqueue windows and ports, function level reset, attestation, and the system-register window. -/
def Obligations.WindowsAnswerTheirAccesses : Prop :=
  ∀ s : State,
    (∀ (page off : Nat) (b : List Byte),
      let lq := off / 64
      (512 < page ∨ 32768 ≤ lq → exec (.windowDmwr page off b) s = .next (s.emit (.ur page))) ∧
      (page ≤ 512 → lq < 32768 →
        (b.length ≠ 64 ∨ off % 64 ≠ 0 → exec (.windowDmwr page off b) s = .next ((s.windowBad page lq).emit (.dmwr page 2))) ∧
        (b.length = 64 → off % 64 = 0 →
          let e := s.enqueue page lq none (TaskRec.ofBytes b)
          exec (.windowDmwr page off b) s = .next (e.2.emit (.dmwr page (if e.1 = .retry then 1 else 0)))) ∧
        exec (.windowBadWrite page off) s = .next (s.windowBad page lq))) ∧
    exec .windowMemoryRead s = .next (s.emit (.ur 0)) ∧
    (∀ (core : Nat) (st : List (Nat × Byte)) (v : Word), core < 16 →
      let r := s.modApp core fun p => { p with stage := (st.filter fun e => e.1 < 64).foldl (fun m e => m.setD 0 e.1 e.2) p.stage }
      let bs := (List.range 64).map fun k => (r.plat.apps.getD ⟨[], 0⟩ core).stage.getD (0 : Byte) k
      let e := r.enqueue (bitsOf v.toNat 25 16) (bitsOf v.toNat 14 0) none (TaskRec.ofBytes bs)
      exec (.enqueuePortTrigger core st v) s = .next (e.2.modApp core fun p => { p with result := e.1.code })) ∧
    (∀ core, exec (.enqueuePortResult core) s = .next (s.emit (.value core (BitVec.ofNat 64 (s.plat.apps.getD ⟨[], 0⟩ core).result)))) ∧
    (∀ f, f ≤ 512 →
      let a := (s.onTask fun k => { k with queues := k.queues.map fun e => if e.2.fn == f then (e.1, { e.2 with enabled := false }) else e }).modFn f
        fun g => { g with uQueues := g.uQueues - (s.task.queues.filter fun e => e.2.enabled && e.2.fn == f).length }
      let b := (a.unbound fun t => t.fn == f).foldl (fun (x : State) t => x.cancelTask t.slot) a
      let c := (b.core.crews.filter fun k => k.fn == f).foldl (fun (x : State) k => x.failCrew k.uid 0x0E) b
      let d := (c.task.counters.filter fun e => e.2.live && e.2.fn == f).foldl (fun (x : State) e => x.freeCounter e.1) c
      let e := (d.task.channels.filter fun e => e.2.fn == f && e.2.state != 0).foldl (fun (x : State) e => x.chanAbort e.1) d
      let b := e.onCore fun k => { k with barriers := k.barriers.filter fun e => !(e.2.init && e.2.ownerFn == f) }
      exec (.functionLevelReset f) s = .next (b.modFn f fun g =>
        if g.jnl.open_ = 0 then { g with jnl := { g.jnl with ring := { g.jnl.ring with en := false } } } else g)) ∧
    (∀ f nonce, f ≤ 512 → nonce.length = 32 → ∃ body sig : List Byte,
      exec (.attestationRequest f nonce) s = .next (s.emit (.bytes (signedObject 7 (nonce ++ body)))) ∧
      signedObject 7 (nonce ++ body) = bytesLE 4 0x49474C53 ++ bytesLE 4 7 ++ bytesLE 8 (nonce ++ body).length ++ sig ++ nonce ++ body ∧
      sig.length = 0x1600 - 16) ∧
    (∀ page reg v, s.plat.winq.any (fun x => x.1 == page) = true → page < 514 → reg ≤ 0x1000 →
      exec (.sysregWindowAccess page reg v) s = .next (s.onPlat fun p => { p with winq := p.winq ++ [(page, reg, v)] })) ∧
    (∀ page reg v, s.plat.winq.any (fun x => x.1 == page) = false →
      (page < 514 → exec (.windowErrorRead page) s = .next ((s.emit (.value 0x1000 (s.page page).err)).modPage page fun w => { w with err := 0 }) ∧
        exec (.sysregWindowAccess page 0x1000 none) s = exec (.windowErrorRead page) s ∧
        exec (.sysregWindowAccess page 0x1000 (some v)) s = .next (s.modPage page fun w => { w with err := 0 })) ∧
      (page < 514 → reg < 0x300 → exec (.sysregWindowAccess page reg none) s = .next (s.emit (.value reg 0)) ∧
        exec (.sysregWindowAccess page reg (some v)) s = .next s) ∧
      (page < 514 → 0x300 ≤ reg → reg < 0x1000 →
        (∀ x r, s.regRead (s.pageAg page) reg = .ok x r → exec (.sysregWindowAccess page reg none) s = .next (r.emit (.value reg x))) ∧
        (∀ x r, s.regWrite (s.pageAg page) reg v = .ok x r → exec (.sysregWindowAccess page reg (some v)) s = .next r) ∧
        (∀ r, s.regWrite (s.pageAg page) reg v = .hold r → exec (.sysregWindowAccess page reg (some v)) s =
          .next (r.onPlat fun p => { p with winq := p.winq ++ [(page, reg, some v)] })) ∧
        (∀ k, s.regRead (s.pageAg page) reg = .trap k → exec (.sysregWindowAccess page reg none) s =
          .next ((s.pageError page reg k).emit (.value reg (BitVec.allOnes 64)))) ∧
        ∀ k, s.regWrite (s.pageAg page) reg v = .trap k →
          exec (.sysregWindowAccess page reg (some v)) s = .next (s.pageError page reg k)))

/-- R39, R104, R117, R131, R132, R237, R328 to R331, R335, R450, R452: the register writes, and reads, that are events of their own, by an
agent outside the cores at level H or at G of the function f: the command that is the next to come is carried out. -/
def Obligations.RegisterCommandsAreCarriedOut : Prop :=
  ∀ (s : State) (h : Bool) (f : Nat), f ≤ 512 →
    let next (reg : Nat) (v : Option Nat) : Prop := s.ext.cmds = [⟨h, f, reg, v.map (BitVec.ofNat 64)⟩]
    let done (i : Instr) (r : State) : Prop := ∃ l, exec i s = .next (r.onExt fun e => { e with cmds := l })
    (∀ lq, lq < 2 ^ 15 →
      (∀ r, h = true → next 0xA24 (some (8 * lq + 1)) → s.queueEnable lq = some r →
        done .queueEnable r ∧ (r.task.queues.find lq).map (·.enabled) = some true) ∧
      (next 0xA24 (some (8 * lq + 2)) → done .queueDisable (s.queueDisable f lq) ∧
        ∀ i q, s.queueOf f lq = some (i, q) → q.enabled = true →
          (s.queueDisable f lq).task.queues.find i = some { q with enabled := false }) ∧
      (next 0xA24 (some (8 * lq + 3)) → done .queueCancel (s.queueCancel f lq))) ∧
    (∀ seq, seq < 2 ^ 32 →
      (next 0xA45 (some (2 ^ 32 * seq + 1)) → done .faultResume (s.fltres f 1 seq 0)) ∧
      (next 0xA45 (some (2 ^ 32 * seq + 3)) → done .faultFail (s.fltres f 3 seq 0))) ∧
    (∀ asid, asid < 2 ^ 20 → h = true ∨ f = 0 ∨ asid / 2048 + 1 = f →
      next 0xA45 (some (2 ^ 12 * asid + 2)) → done .faultResumeAsid (s.fltres f 2 0 asid)) ∧
    (∀ base fs, base % 2 ^ 16 = 0 → base < 2 ^ 52 → ringFrames s f base 16 = some fs → next 0xA80 (some (base + 1)) →
      done .ringEnable (s.modFn f fun g => { g with trace := { g.trace with ring := ⟨base, true, fs⟩ } })) ∧
    (∀ v, v < 2 ^ 32 → tailOk 32 (s.fnAt f).trace.head (s.fnAt f).trace.tail v = true → next 0xA82 (some v) →
      done .ringTailWrite (s.modFn f fun g => { g with trace := { g.trace with tail := v } })) ∧
    (h = true →
      (∀ v, 0 < v → v < 16 → (∀ d, d < 4 → v.testBit d = true → s.dieOn d = true) → next 0xA00 (some v) →
        done .homeMapWrite (s.rehome fun p => { p with hmdies := v })) ∧
      (∀ i v, i < 256 → v ≤ 4 → next (0x900 + i) (some v) →
        done .homeMapWrite (s.rehome fun p => { p with homemap := p.homemap.setD 4 i v })) ∧
      (∀ v, v % 256 = 0 → v < 2 ^ 52 → next 0x409 (some v) → done .viewFormation (s.viewInit v)) ∧
      ∀ v, v < 2 ^ 15 → v % 16 = 0 → next 0xA90 (some (2 ^ 15 + v)) →
        done .topdownSnap ((s.onPlat fun p => { p with tdsel := v }).snap (2 ^ 15 + v))) ∧
    (∀ pa, pa % 4096 = 0 → s.frameOk pa = true →
      let page := if h then 0 else f + 1
      let marked (m : Option Nat) (r : State) : State := r.modPage page fun w => { w with mark := m }
      (next 0xA15 (some (pa + 1)) →
        ((s.page page).mark = none → exec .invframe s = .next (marked (some 0) (s.invFrame pa))) ∧
        ((s.page page).mark ≠ none → s.frameBusy pa = true → exec .invframe s = .next s) ∧
        ((s.page page).mark ≠ none → s.frameBusy pa = false → done .invframe (marked none s))) ∧
      (next 0xA15 (some (pa + 2)) → (s.page page).mark = none → s.frameWrites pa = false → done .reload (s.reloadFrame pa))) ∧
    (next 0xA5A (some 1) → done .debugStop (s.debugCmd f 1)) ∧ (next 0xA5A (some 2) → done .debugStep (s.debugCmd f 2)) ∧
    (next 0xA5A (some 3) → done .debugRun (s.debugCmd f 3)) ∧ (next 0xA5A (some 4) → done .debugRunCrew (s.debugCmd f 4)) ∧
    (next 0xA5A (some 5) → done .debugStopCrew (s.debugCmd f 5)) ∧
    (∀ t st, s.byLtid f (s.fnAt f).dbg.tgt = some t → (s.thread t.uid) = t → t.run = .stopped st →
      s.debugCmd f 3 = (s.modThread t.uid fun x => { x with run := .ready, ready := s.now x }) ∧
      s.debugCmd f 2 = (s.modThread t.uid fun x => { x with run := .ready, ready := s.now x, stepping := true })) ∧
    (∀ e es, (s.fnAt f).dbg.events = e :: es → next 0xA5B none →
      done .debugEventPop ((s.modFn f fun g => { g with dbg := { g.dbg with events := es, evt := e.ltid, eva := some e } }).emit
        (.value 0xA5B e.ltid))) ∧
    ∀ t v, s.dbgTarget f = some t → (s.fnAt f).dbg.space = false → s.dbgReg t (s.fnAt f).dbg.num = some v → next 0xA5E none →
      done .dbgdataAccess (s.emit (.value 0xA5E (BitVec.ofNat 64 v)))

/-- R144 to R146, R154 to R159, R162 to R165, R218: READY_POP gives a ready task and its launch number; a bind record is checked, answered in BINDRES and,
good, binds its task; a thread at launch holds what R146 says; SPLIT changes only while no unit is owned; core contexts fill, swap and spill. What the
spec leaves open of binding and of context images follows logs 89, 90, 127 and 159. -/
def Obligations.DispatchBindsLaunchesAndSwaps : Prop :=
  ∀ (s : State) (die : Nat), die < 4 →
    (s.offered die = [] → exec (.readyPop die) s = .next (s.emit (.value (dispatchAt die 0) 0))) ∧
    (s.offered die ≠ [] → s.Picks (.readyPop die) (s.offered die) fun t r =>
      ((r.modSlot t.slot fun t => { t with popped := true }).modDisp die fun d => { d with ready1 := t.launch }).emit
        (.value (dispatchAt die 0) t.readyWord)) ∧
    exec (.bindresRead die) s = .next (s.emit (.value (dispatchAt die 0x20) (BitVec.ofNat 64 (s.disp die).bindres))) ∧
    (∀ (w w1 : Word) (ctl : Bool),
      let i : Instr := if ctl then .cbindSubmit die w w1 else .bindSubmit die w w1
      let b := if ctl then cbindOf die w.toNat else bindOf die w.toNat
      let bad (r : State) (t : TaskSlot) : Bool := if ctl then r.cbindBad die w.toNat t else r.bindBad die w.toNat t
      let zero : Prop := bitsOf w.toNat 62 54 = 0 ∧ w1.toNat < 2 ^ 32 ∧ (ctl = true → bitsOf w.toNat 52 26 = 0)
      let r := s.modDisp die fun d => { d with bindw1 := w1 }
      let answer (k : Nat) : State := r.modDisp die fun d => { d with bindres := k }
      (w.getLsbD 63 = false → exec i s = .next r) ∧
      (w.getLsbD 63 = true → zero →
        (r.bindTask die w.toNat w1.toNat = none → exec i s = .next (answer 3)) ∧
        ∀ t, r.bindTask die w.toNat w1.toNat = some t →
          (r.policyAllows die t = false → exec i s = .next r) ∧
          (r.policyAllows die t = true →
            (bad r t = true → r.bindBusy die t b = false → exec i s = .next (answer 2)) ∧
            (bad r t = false → r.bindBusy die t b = true → exec i s = .next (answer 1)) ∧
            (bad r t = false → r.bindBusy die t b = false → exec i s = .next (((answer 0).spend die t).bindAccept t b))))) ∧
    (∀ t b crew ctx exk now uid i,
      let x := launched t b crew ctx exk now uid i
      x.pos = ⟨t.rec_.entry, 0⟩ ∧ x.id.asid = t.asid ∧ x.id.exk = exk ∧ x.id.prio = t.rec_.prio ∧ x.lvl = t.lvl ∧
        (∀ n, x.reg n = ⟨0, .b32⟩) ∧ (∀ p, p < 7 → x.pred p = false) ∧ x.fflags = 0 ∧ x.tls = 0 ∧ x.rstk = [] ∧ x.ct = [] ∧
        x.ltid = BitVec.ofNat 64 (i * 2 ^ 48 + b.twin.toNat * 2 ^ 32 + t.launch)) ∧
    (∀ ix v, ix < 160 →
      let core := coreNo die (ix / 4) (ix % 4)
      let n := v.toNat % 8
      ((s.coreAt core).units = [] → n ≤ 5 → s.Leads (.splitSet die ix v) fun r => (r.coreAt core).spk = n) ∧
      ((s.coreAt core).units ≠ [] ∨ 5 < n → exec (.splitSet die ix v) s = .next s)) ∧
    (∀ cl n area, cl < 40 → n < 4 → s.clusterOn die cl = true →
      let core := coreNo die cl n
      let a := bitsOf (area : Word).toNat 51 16 * 2 ^ 16
      let w (k : Nat) : Word := BitVec.ofNat 64 (32 * cl + 8 * n + k)
      let r (k : Nat) : State := s.modDisp die fun x => { x with ctxarea := a, pend := x.pend.filter (· != (w k, area)) }
      (∀ m, (s.coreAt core).shSt = 0 → s.core.saved.find a = some m → s.inBank m.ctx = false → m.complete = true ∨ m.core = core →
        badArea s core a = false →
        exec (.contextFill die (w 1) area) s = .next ((r 1).modCoreAt core fun k => { k with shadow := some m.ctx, shSt := 1, err := 0 })) ∧
      ((s.coreAt core).shSt ≠ 0 → (s.core.saved.find a).any (fun m => !s.inBank m.ctx && (m.complete || m.core == core)) = true →
        badArea s core a = false → s.Leads (.contextFill die (w 1) area) fun x => (x.coreAt core).err = 1) ∧
      let later (x : State) : State := x.modDisp die fun y => { y with pend := y.pend ++ [(w 2, area)] }
      ((s.coreAt core).shSt = 1 ∨ (s.coreAt core).shSt = 3 → exec (.contextSwap die (w 2) area) s = .next (later (r 2))) ∧
      ((s.coreAt core).shSt ≠ 1 → (s.coreAt core).shSt ≠ 3 → (∀ e ∈ s.halfBound, e.2.core ≠ core) →
        (badArea s core a = false →
          let x := (r 2).boundariesOut core
          exec (.contextSwap die (w 2) area) s = .next (if x.1 then x.2.swapBanks core a 0 else later x.2)) ∧
        (badArea s core a = true → s.Leads (.contextSwap die (w 2) area) fun x => (x.coreAt core).err = 3))) ∧
    (s.rereads ≠ [] → s.Picks .schedulePolicyReread s.rereads fun d r =>
      let q := r.physRead s.task.schbase 8208
      let p := (rangeFrom 0 513).map fun f => policyOfBytes ((q.1.drop (16 * f)).take 16)
      q.2.modDisp d fun x => { x with policy := p, polAt := q.2.cycleOf d }) ∧
    (s.spillsReady ≠ [] → s.Picks .spillComplete s.spillsReady fun c r =>
      (match (r.coreAt c).shadow.bind r.imageOf with
        | none => r
        | some (base, m) => m.units.foldl (State.spillUnit c base) (r.writeImage c base m)).modCoreAt c fun k =>
          { k with shadow := none, shSt := 0 }) ∧
    (s.fillsReady ≠ [] → s.Picks .fillComplete s.fillsReady fun c r =>
      (match (r.coreAt c).shadow.bind r.imageOf with
        | none => r
        | some (base, m) => r.fillCore c base m).modCoreAt c fun k => { k with shSt := 2 })

/-- R91, R170, R183, R184, R195 to R197, R290, R323, R326: what the cores and engines do between instructions: groups form from ready threads
of one key, waits end, port units fire, verdicts are given, regions unwind, collective engines go on; a register-file error poisons. -/
def Obligations.GroupsFormAndWaitsEnd : Prop :=
  ∀ s : State,
    (let l : List (Bool × Nat) := s.coresReady.map (fun c => (true, c)) ++ s.newCrews.map fun c => (false, c)
     l ≠ [] → s.Picks .issueGroupForm l fun x r => if x.1 then r.formGroup x.2 else r.firstFetches x.2) ∧
    (∀ core t, s.readyOn core = [t] → (∀ x ∈ s.core.threads, s.mustFetch x = false) → s.thread? t.uid = some t → t.id.lane < 32 →
      s.coresReady = [core] → s.newCrews = [] → s.Leads .issueGroupForm fun r =>
        r.core.groups = s.core.groups ++ [⟨t.id.core, t.lvl, t.pos, t.clause, [t.uid], none⟩] ∧ (r.thread t.uid).run = .grouped) ∧
    (∀ l ld, s.leader l = some ld → ld ∈ l ∧
      (∀ v ∈ l, 2048 ≤ s.age v → s.age v ≤ s.age ld) ∧
      ((∀ v ∈ l, s.age v < 2048) → ∃ x ∈ l, keyEq ld x = true ∧ ∀ v ∈ l, v.id.prio ≤ x.id.prio)) ∧
    (s.wakeable ≠ [] → s.Picks .pollRecheck s.wakeable fun x r => r.endWait x.1 x.2) ∧
    (s.portClusters ≠ [] → s.Picks .portUnitEvent s.portClusters fun k r => r.portEvent k) ∧
    (s.unwindsDue ≠ [] → s.Picks .containmentUnwind s.unwindsDue fun u r => r.takeRegion u) ∧
    (∀ c p : Crew, s.verdictsDue.head? = some c → (∀ x ∈ s.verdictsDue, x = c ∨ x = p) → c.peer = some p.uid → p.peer = some c.uid →
      s.crew? p.uid = some p → s.crew? c.uid = some c → p.uid ≠ c.uid → p ∈ s.verdictsDue →
      s.Leads .assayVerdict fun r =>
        (r.crew? c.uid).map (·.assay.verdict) = some (some (p.assay.tuple == c.assay.tuple)) ∧
        (r.crew? p.uid).map (·.assay.verdict) = some (some (p.assay.tuple == c.assay.tuple))) ∧
    (∀ f, s.collSteps = [(0, 0)] → s.flitsReady[0]? = some f →
      exec .dataFlitReceive s = .next ((s.onNor fun n => { n with inq := n.inq.erase f }).takeFlit f)) ∧
    (∀ id, s.collSteps = [(1, id)] → exec .dataFlitReceive s = .next (s.collStep id)) ∧
    ∀ u r t, s.thread? u = some t → r < s.nregs t → s.Leads (.registerFileError u [r]) fun x =>
      ((x.thread u).reg r).tag = .poison ∧ (∀ n, n ≠ r → (x.thread u).reg n = t.reg n) ∧ (x.thread u).pos = t.pos

/-- R6, R452: a tail register takes a value between its old one and its head, and no other: any other traps with cause 0x19 and changes
nothing else. -/
def Obligations.TailRegistersMoveForwardOnly : Prop :=
  ∀ (s : State) (g : Group) (gd : Guard) (u : Nat) (a : RegF) (n bits : Nat) (w h : Bool),
    (n, bits) ∈ [(0x312, 32), (0xA13, 32), (0xA27, 64), (0xA44, 32), (0xA82, 32)] →
    s.RunsAlone g u gd { ctl := !w, srcs := [⟨1, a, if w then .i64 else .int⟩] } →
    let t := s.thread u
    let c := s.charge [u]
    let ag := c.regAg u
    let v : Nat := if w then (s.pairBits u a).toNat else (s.bits u a 64).toNat
    let size := 2 ^ bits
    let old := c.regValue ag n
    let head := c.regValue ag (n - 1) % size
    let i : Instr := .swr gd (BitVec.ofNat 16 n) a w
    t.lvl = .h → old < size → v < size →
    ((v + size - old) % size ≤ (head + size - old) % size →
      ∃ r, c.regWrite ag n (BitVec.ofNat 64 v) = .ok 0 r ∧ r.regValue ag n = v ∧ (s.Steady u r → s.Becomes i r)) ∧
    ((head + size - old) % size < (v + size - old) % size → s.TrapOpen u 0x19 h →
      s.Exactly u i fun r => r.tookTrap u h 0x19 s.ext.iword t.pos)

/-- R353 whole: a word of a major or minor that R352 does not list is no instruction, and no other word is such; it raises 0x01 in the
thread that executes it, as every word does that is refused; no two words are one instruction. -/
def Obligations.UnassignedEncodingsAreIllegal : Prop :=
  let minors : List (Nat × Nat) := [(0x01, 12), (0x02, 15), (0x03, 9), (0x04, 2), (0x05, 13), (0x06, 2), (0x08, 7), (0x09, 8), (0x0A, 6),
    (0x0B, 1), (0x0C, 4), (0x0E, 7), (0x0F, 5), (0x10, 6), (0x11, 10), (0x14, 5), (0x15, 4), (0x16, 7), (0x17, 2), (0x18, 7), (0x1A, 9),
    (0x1B, 6), (0x1C, 8), (0x20, 8), (0x21, 2), (0x22, 6), (0x24, 3), (0x3E, 7)]
  let unassigned := [0x00, 0x07, 0x0D, 0x12, 0x13, 0x19, 0x1D, 0x1E, 0x1F, 0x23, 0x3F] ++ (List.range 25).map (· + 0x25)
  ∀ w : Word,
    let major := w.toNat / 2 ^ 58
    let assigned := minors.any fun e => major == e.1 && w.toNat / 2 ^ 54 % 16 < e.2
    (major ∈ unassigned → assigned = false) ∧
    (decode w = .ok (.unassignedEncoding w) ↔ assigned = false) ∧
    (∀ e, decode w = .error e → instrOf w = .unassignedEncoding w) ∧
    (∀ v i, decode w = .ok i → decode v = .ok i → w = v) ∧
    ∀ (s : State) (g : Group) (u : Nat) (h : Bool), s.Issues g → g.members = [u] → s.TrapOpen u 0x01 h →
      s.Exactly u (.unassignedEncoding w) fun r => r.tookTrap u h 0x01 w (s.thread u).pos

/-- R340 to R345, R352: words written out bit by bit in the spec decode to the instructions that they stand for. -/
def Obligations.WordsOfTheSpecDecode : Prop :=
  let p7 : Guard := ⟨false, 7⟩
  decode 0x385C03037C3C0128 = .ok (.cvti p7 (.gpr 12) (.gpr 13) .i32 .f32 true) ∧
  decode 0x389C038444838022 = .ok (.pack p7 (.gpr 14) (.gpr 17) (.gpr 18) (.gpr 14) .e4m3 2 false) ∧
  decode 0x3C1C0282C0417CE2 = .ok (.lnget p7 (.gpr 10) (.gpr 11) (.lit 1) .off 3 false 2 7 5) ∧
  decode 0x405C800000000180 = .ok (.brx p7 (.gpr 6) (some 2)) ∧
  decode 0x409FC00000030000 = .ok (.call p7 12 none) ∧
  decode 0x449C3C3C3C3C1801 = .ok (.waitm p7 1 3) ∧
  decode 0x465C3C3C3C3C002A = .ok (.svc p7 0x2A) ∧
  decode 0x70DC0138FC00B800 = .ok (.qtry p7 (.gpr 4) (.que 3) 2 7) ∧
  decode 0x891C3C0141BC0000 = .ok (.stepset p7 (.gpr 5) (.gpr 6) .vz) ∧
  decode 0xF89FC3C000000000 = .ok (.tret p7) ∧
  decode 0xF81C13C000000001 = .ok (.srd p7 (.gpr 4) 0 true) ∧
  decode 0xF95C080000000000 = .ok (.tlbinv p7 (.gpr 0) (.gpr 2) 0)

/-- R340 to R353: the encoder and the decoder are inverse to each other: every well-formed instruction has a word, which decodes to
it, and every word that is an instruction is the word of that instruction. -/
def Obligations.DecodingInvertsEncoding : Prop :=
  (∀ i : Instr, i.WellFormed → (i.guard?.isSome = true ∨ ∃ w, i = .unassignedEncoding w) → ∃ w, encode i = some w ∧ decode w = .ok i) ∧
  ∀ (w : Word) (i : Instr), decode w = .ok i → i.WellFormed ∧ encode i = some w

/-- R18, R23, R37: memory keeps its canonical form: from every state in which the addresses listed rise strictly and no byte is listed that an unlisted
address reads as, every step leads to such a state. The canonical form is the model's (log 3). -/
def Obligations.EveryStepKeepsMemoryCanonical : Prop :=
  ∀ s t : State, Memory.wf s.mem = true → step s = .next t → Memory.wf t.mem = true

/-- What reset leaves, as the reset columns of the spec's register tables give it, at level H: HOMEMAP 0b100, MEMDBG.WIN 1,024, DBGCTL.ANY 1, NPSTAT.PEER
0x7FF, SPLIT.SPK 2, and zero in the others listed; no thread runs, and memory is canonical, with no byte listed. That memory lists nothing, and what
an unlisted byte reads as, is the model's choice (log 3). -/
def Obligations.ResetLeavesWhatTheTablesGive : Prop :=
  let ag : RegAg := ⟨0, 0, .h, 0, ⟨0, 0, 0, 0⟩⟩
  (∀ e ∈ [(0x900, 4), (0x97F, 4), (0x9FF, 4), (0xA46, 1024), (0xA58, 2 ^ 40), (0x104, 0), (0x105, 0), (0x10C, 0), (0x310, 0), (0x311, 0),
      (0x312, 0), (0x400, 0), (0x403, 0), (0x404, 0), (0x407, 0), (0x408, 0), (0xA11, 0), (0xA12, 0), (0xA13, 0), (0xA14, 0), (0xA21, 0),
      (0xA23, 0), (0xA25, 0), (0xA26, 0), (0xA27, 0), (0xA28, 0), (0xA30, 0), (0xA40, 0), (0xA41, 0), (0xA42, 0), (0xA43, 0), (0xA44, 0),
      (0xA47, 0), (0xA50, 0), (0xA57, 0), (0xA59, 0), (0xA5C, 0), (0xA5D, 0), (0xA80, 0), (0xA81, 0), (0xA82, 0)],
    State.reset.regValue ag e.1 = e.2) ∧
  State.reset.regValue ag 0x406 / 2 ^ 53 = 0x7FF ∧
  (∀ core, (State.reset.coreAt core).spk = 2) ∧
  (State.reset.debugPop 0).1 = BitVec.allOnes 64 ∧
  State.reset.core.threads = [] ∧ State.reset.core.crews = [] ∧ Memory.wf State.reset.mem = true ∧ State.reset.mem.bytes = []

/-- R9, R195, R198, R338, R353: a step executes what comes next: an event to come; with none, one of the things the machine can do, which for a group is
the instruction that the word at its position decodes to, in the state in which that group executes it; with nothing to do, time passes. The step runs
a word placed by `withFetchWord` (log 1). Which of several things comes next is a free choice (log 6); the agenda and the placed word are the model's
own (log 1). -/
def Obligations.AStepRunsTheDecodedInstruction : Prop :=
  ∀ s : State, s.dead = false →
    let b := s.begin_
    (∀ i l, b.ext.agenda = some i :: l → step s = exec i (b.onExt fun e => { e with agenda := l })) ∧
    (b.ext.agenda = [] → b.candidates = [] → step s = .next b) ∧
    (b.ext.agenda = [] → b.candidates ≠ [] → ∃ x ∈ b.candidates, ∃ n,
      let q := b.onExt fun e => { e with fresh := n }
      match x with
      | .ev i => step s = exec i q
      | .group g =>
        let q := q.beforeGroup g
        ∀ h w, q.still g = some h → h.word = some w →
          (∀ i, decode w = .ok i → step s = exec i (q.issueAs h w)) ∧
          (∀ e, decode w = .error e → step s = exec (.unassignedEncoding w) (q.issueAs h w))) ∧
    ∀ (w : Nat) (i : Instr), w < 2 ^ 64 → (s.pkg.die 0).drst ≠ 8 → (s.pkg.die 0).drst ≠ 15 → (s.fnAt 0).dbg.en = false →
      decode (BitVec.ofNat 64 w) = .ok i → ∃ r, step (s.withFetchWord 64 w) = exec i r ∧
      r.ext.iword = BitVec.ofNat 64 w ∧ r.ext.cur.map (·.members) = some [1] ∧ (r.thread 1).pos = ⟨0x1000, 0⟩
end

