-- ==== Sys2Proof/Laws/Maps.lean ====
section
/-! SUPPORT. Sparse maps: what a lookup finds after an update, and that updates keep the canonical form. -/

namespace Sys2Proof.Machine

variable {α : Type}

theorem Map.find_put (m : Map α) (k j : Nat) (v : α) : (m.put k v).find j = if k = j then some v else m.find j := by
  induction m with
  | nil => simp [Map.put, Map.find]
  | cons e m ih =>
    obtain ⟨i, w⟩ := e
    simp only [Map.put]
    split
    · by_cases h : k = j <;> simp [Map.find, h]
    · split
      · subst_vars
        by_cases h : i = j <;> simp [Map.find, h]
      · simp only [Map.find, ih]
        by_cases h : i = j
        · have : k ≠ j := by omega
          simp [h, this]
        · simp [h]

@[simp] theorem Map.find_put_self (m : Map α) (k : Nat) (v : α) : (m.put k v).find k = some v := by simp [Map.find_put]

theorem Map.getD_put (m : Map α) (d : α) (k j : Nat) (v : α) : (m.put k v).getD d j = if k = j then v else m.getD d j := by
  unfold Map.getD
  rw [Map.find_put]
  split <;> rfl

theorem Map.getD_modD (m : Map α) (d : α) (k j : Nat) (f : α → α) :
    (m.modD d k f).getD d j = if k = j then f (m.getD d k) else m.getD d j := by
  simp [Map.modD, Map.getD_put]

/-- Every key of a map lies above a bound. -/
def Map.above (b : Nat) (m : Map α) : Prop := ∀ e ∈ m, b < e.1

theorem Map.sorted_cons (e : Nat × α) (m : Map α) : Map.sorted (e :: m) = true ↔ Map.above e.1 m ∧ m.sorted = true := by
  induction m generalizing e with
  | nil => simp [Map.sorted, Map.above]
  | cons f m ih =>
    obtain ⟨j, w⟩ := e
    obtain ⟨k, v⟩ := f
    simp only [Map.sorted, Bool.and_eq_true, decide_eq_true_eq]
    constructor
    · rintro ⟨h, hs⟩
      refine ⟨?_, hs⟩
      intro x hx
      rcases List.mem_cons.1 hx with rfl | hx
      · exact h
      · exact Nat.lt_trans h (((ih (k, v)).1 hs).1 x hx)
    · rintro ⟨ha, hs⟩
      exact ⟨ha (k, v) (by simp), hs⟩

theorem Map.mem_put {m : Map α} {k : Nat} {v : α} {e : Nat × α} (h : e ∈ m.put k v) : e = (k, v) ∨ e ∈ m := by
  induction m with
  | nil => simp [Map.put] at h; simp [h]
  | cons f m ih =>
    obtain ⟨j, w⟩ := f
    simp only [Map.put] at h
    split at h
    · simpa using h
    · split at h
      · rcases List.mem_cons.1 h with h | h <;> simp [h]
      · rcases List.mem_cons.1 h with h | h
        · simp [h]
        · rcases ih h with h | h <;> simp [h]

theorem Map.mem_del {m : Map α} {k : Nat} {e : Nat × α} (h : e ∈ m.del k) : e ∈ m := by
  induction m with
  | nil => simpa [Map.del] using h
  | cons f m ih =>
    obtain ⟨j, w⟩ := f
    simp only [Map.del] at h
    split at h
    · simp [h]
    · rcases List.mem_cons.1 h with h | h
      · simp [h]
      · simp [ih h]

theorem Map.sorted_put {m : Map α} (k : Nat) (v : α) (h : m.sorted = true) : (m.put k v).sorted = true := by
  induction m with
  | nil => rfl
  | cons f m ih =>
    obtain ⟨j, w⟩ := f
    obtain ⟨ha, hs⟩ := (Map.sorted_cons _ _).1 h
    simp only [Map.put]
    split
    · exact (Map.sorted_cons _ _).2 ⟨fun e he => by
        rcases List.mem_cons.1 he with rfl | he
        · assumption
        · exact Nat.lt_trans ‹_› (ha e he), h⟩
    · split
      · subst_vars; exact (Map.sorted_cons _ _).2 ⟨ha, hs⟩
      · refine (Map.sorted_cons _ _).2 ⟨fun e he => ?_, ih hs⟩
        rcases Map.mem_put he with rfl | he
        · show j < k; omega
        · exact ha e he

theorem Map.sorted_del {m : Map α} (k : Nat) (h : m.sorted = true) : (m.del k).sorted = true := by
  induction m with
  | nil => rfl
  | cons f m ih =>
    obtain ⟨j, w⟩ := f
    obtain ⟨ha, hs⟩ := (Map.sorted_cons _ _).1 h
    simp only [Map.del]
    split
    · exact hs
    · exact (Map.sorted_cons _ _).2 ⟨fun e he => ha e (Map.mem_del he), ih hs⟩

theorem Map.canon_setD [DecidableEq α] {m : Map α} (d : α) (k : Nat) (v : α) (h : m.canon d = true) :
    (m.setD d k v).canon d = true := by
  simp only [Map.canon, Bool.and_eq_true, List.all_eq_true, bne_iff_ne] at h ⊢
  obtain ⟨hs, hd⟩ := h
  unfold Map.setD
  split
  · exact ⟨Map.sorted_del k hs, fun e he => hd e (Map.mem_del he)⟩
  · refine ⟨Map.sorted_put k v hs, fun e he => ?_⟩
    rcases Map.mem_put he with rfl | he
    · assumption
    · exact hd e he

theorem Map.find_del {m : Map α} (hs : m.sorted = true) (k j : Nat) : (m.del k).find j = if k = j then none else m.find j := by
  induction m with
  | nil => simp [Map.del, Map.find]
  | cons f m ih =>
    obtain ⟨i, w⟩ := f
    obtain ⟨ha, hs⟩ := (Map.sorted_cons _ _).1 hs
    have none_of (b : Nat) (m : Map α) (h : Map.above b m) : m.find b = none := by
      induction m with
      | nil => rfl
      | cons e m ih =>
        have h1 := h e (by simp)
        have : e.1 ≠ b := by omega
        simp only [Map.find, this, if_false]
        exact ih fun x hx => h x (by simp [hx])
    simp only [Map.del]
    split
    · rename_i h
      subst h
      by_cases h : i = j
      · subst h; simpa [Map.find] using none_of i m ha
      · simp [Map.find, h]
    · simp only [Map.find, ih hs]
      by_cases h : i = j
      · have : k ≠ j := by omega
        simp [h, this]
      · simp [h]

theorem Map.getD_setD [DecidableEq α] {m : Map α} (d : α) (hs : m.sorted = true) (k j : Nat) (v : α) :
    (m.setD d k v).getD d j = if k = j then v else m.getD d j := by
  unfold Map.setD
  split
  · rename_i h
    unfold Map.getD
    rw [Map.find_del hs]
    split <;> simp [*]
  · exact Map.getD_put m d k j v

end Sys2Proof.Machine
end

