-- ==== Sys2Proof/Laws/State.lean ====
section
/-! SUPPORT. One lemma per field per update of the state, and what the accessors give after an update. -/

namespace Sys2Proof.Machine

@[simp] theorem State.onExt_ext (s : State) (f : Ext → Ext) : (s.onExt f).ext = f s.ext := rfl
@[simp] theorem State.onExt_pkg (s : State) (f : Ext → Ext) : (s.onExt f).pkg = s.pkg := rfl
@[simp] theorem State.onExt_mem (s : State) (f : Ext → Ext) : (s.onExt f).mem = s.mem := rfl
@[simp] theorem State.onExt_core (s : State) (f : Ext → Ext) : (s.onExt f).core = s.core := rfl
@[simp] theorem State.onExt_task (s : State) (f : Ext → Ext) : (s.onExt f).task = s.task := rfl
@[simp] theorem State.onExt_plat (s : State) (f : Ext → Ext) : (s.onExt f).plat = s.plat := rfl

@[simp] theorem State.onPkg_ext (s : State) (f : Pkg → Pkg) : (s.onPkg f).ext = s.ext := rfl
@[simp] theorem State.onPkg_pkg (s : State) (f : Pkg → Pkg) : (s.onPkg f).pkg = f s.pkg := rfl
@[simp] theorem State.onPkg_mem (s : State) (f : Pkg → Pkg) : (s.onPkg f).mem = s.mem := rfl
@[simp] theorem State.onPkg_core (s : State) (f : Pkg → Pkg) : (s.onPkg f).core = s.core := rfl
@[simp] theorem State.onPkg_task (s : State) (f : Pkg → Pkg) : (s.onPkg f).task = s.task := rfl
@[simp] theorem State.onPkg_plat (s : State) (f : Pkg → Pkg) : (s.onPkg f).plat = s.plat := rfl

@[simp] theorem State.onMem_ext (s : State) (f : MemSys → MemSys) : (s.onMem f).ext = s.ext := rfl
@[simp] theorem State.onMem_pkg (s : State) (f : MemSys → MemSys) : (s.onMem f).pkg = s.pkg := rfl
@[simp] theorem State.onMem_mem (s : State) (f : MemSys → MemSys) : (s.onMem f).mem = f s.mem := rfl
@[simp] theorem State.onMem_core (s : State) (f : MemSys → MemSys) : (s.onMem f).core = s.core := rfl
@[simp] theorem State.onMem_task (s : State) (f : MemSys → MemSys) : (s.onMem f).task = s.task := rfl
@[simp] theorem State.onMem_plat (s : State) (f : MemSys → MemSys) : (s.onMem f).plat = s.plat := rfl

@[simp] theorem State.onCore_ext (s : State) (f : CoreSys → CoreSys) : (s.onCore f).ext = s.ext := rfl
@[simp] theorem State.onCore_pkg (s : State) (f : CoreSys → CoreSys) : (s.onCore f).pkg = s.pkg := rfl
@[simp] theorem State.onCore_mem (s : State) (f : CoreSys → CoreSys) : (s.onCore f).mem = s.mem := rfl
@[simp] theorem State.onCore_core (s : State) (f : CoreSys → CoreSys) : (s.onCore f).core = f s.core := rfl
@[simp] theorem State.onCore_task (s : State) (f : CoreSys → CoreSys) : (s.onCore f).task = s.task := rfl
@[simp] theorem State.onCore_plat (s : State) (f : CoreSys → CoreSys) : (s.onCore f).plat = s.plat := rfl

@[simp] theorem State.onTask_ext (s : State) (f : TaskSys → TaskSys) : (s.onTask f).ext = s.ext := rfl
@[simp] theorem State.onTask_pkg (s : State) (f : TaskSys → TaskSys) : (s.onTask f).pkg = s.pkg := rfl
@[simp] theorem State.onTask_mem (s : State) (f : TaskSys → TaskSys) : (s.onTask f).mem = s.mem := rfl
@[simp] theorem State.onTask_core (s : State) (f : TaskSys → TaskSys) : (s.onTask f).core = s.core := rfl
@[simp] theorem State.onTask_task (s : State) (f : TaskSys → TaskSys) : (s.onTask f).task = f s.task := rfl
@[simp] theorem State.onTask_plat (s : State) (f : TaskSys → TaskSys) : (s.onTask f).plat = s.plat := rfl

@[simp] theorem State.onPlat_ext (s : State) (f : Plat → Plat) : (s.onPlat f).ext = s.ext := rfl
@[simp] theorem State.onPlat_pkg (s : State) (f : Plat → Plat) : (s.onPlat f).pkg = s.pkg := rfl
@[simp] theorem State.onPlat_mem (s : State) (f : Plat → Plat) : (s.onPlat f).mem = s.mem := rfl
@[simp] theorem State.onPlat_core (s : State) (f : Plat → Plat) : (s.onPlat f).core = s.core := rfl
@[simp] theorem State.onPlat_task (s : State) (f : Plat → Plat) : (s.onPlat f).task = s.task := rfl
@[simp] theorem State.onPlat_plat (s : State) (f : Plat → Plat) : (s.onPlat f).plat = f s.plat := rfl

/-! The parts of the platform. -/

@[simp] theorem State.onPower_ext (s : State) (f : Power → Power) : (s.onPower f).ext = s.ext := rfl
@[simp] theorem State.onPower_pkg (s : State) (f : Power → Power) : (s.onPower f).pkg = s.pkg := rfl
@[simp] theorem State.onPower_mem (s : State) (f : Power → Power) : (s.onPower f).mem = s.mem := rfl
@[simp] theorem State.onPower_core (s : State) (f : Power → Power) : (s.onPower f).core = s.core := rfl
@[simp] theorem State.onPower_task (s : State) (f : Power → Power) : (s.onPower f).task = s.task := rfl
@[simp] theorem State.onPower_power (s : State) (f : Power → Power) : (s.onPower f).plat.power = f s.plat.power := rfl
@[simp] theorem State.onPower_health (s : State) (f : Power → Power) : (s.onPower f).plat.health = s.plat.health := rfl
@[simp] theorem State.onPower_links (s : State) (f : Power → Power) : (s.onPower f).plat.links = s.plat.links := rfl
@[simp] theorem State.onPower_nor (s : State) (f : Power → Power) : (s.onPower f).plat.nor = s.plat.nor := rfl
@[simp] theorem State.onPower_host (s : State) (f : Power → Power) : (s.onPower f).plat.host = s.plat.host := rfl
@[simp] theorem State.onPower_pages (s : State) (f : Power → Power) : (s.onPower f).plat.pages = s.plat.pages := rfl
@[simp] theorem State.onPower_apps (s : State) (f : Power → Power) : (s.onPower f).plat.apps = s.plat.apps := rfl

@[simp] theorem State.onHealth_ext (s : State) (f : Health → Health) : (s.onHealth f).ext = s.ext := rfl
@[simp] theorem State.onHealth_pkg (s : State) (f : Health → Health) : (s.onHealth f).pkg = s.pkg := rfl
@[simp] theorem State.onHealth_mem (s : State) (f : Health → Health) : (s.onHealth f).mem = s.mem := rfl
@[simp] theorem State.onHealth_core (s : State) (f : Health → Health) : (s.onHealth f).core = s.core := rfl
@[simp] theorem State.onHealth_task (s : State) (f : Health → Health) : (s.onHealth f).task = s.task := rfl
@[simp] theorem State.onHealth_power (s : State) (f : Health → Health) : (s.onHealth f).plat.power = s.plat.power := rfl
@[simp] theorem State.onHealth_health (s : State) (f : Health → Health) : (s.onHealth f).plat.health = f s.plat.health := rfl
@[simp] theorem State.onHealth_links (s : State) (f : Health → Health) : (s.onHealth f).plat.links = s.plat.links := rfl
@[simp] theorem State.onHealth_nor (s : State) (f : Health → Health) : (s.onHealth f).plat.nor = s.plat.nor := rfl
@[simp] theorem State.onHealth_host (s : State) (f : Health → Health) : (s.onHealth f).plat.host = s.plat.host := rfl
@[simp] theorem State.onHealth_pages (s : State) (f : Health → Health) : (s.onHealth f).plat.pages = s.plat.pages := rfl
@[simp] theorem State.onHealth_apps (s : State) (f : Health → Health) : (s.onHealth f).plat.apps = s.plat.apps := rfl

@[simp] theorem State.onLinks_ext (s : State) (f : Links → Links) : (s.onLinks f).ext = s.ext := rfl
@[simp] theorem State.onLinks_pkg (s : State) (f : Links → Links) : (s.onLinks f).pkg = s.pkg := rfl
@[simp] theorem State.onLinks_mem (s : State) (f : Links → Links) : (s.onLinks f).mem = s.mem := rfl
@[simp] theorem State.onLinks_core (s : State) (f : Links → Links) : (s.onLinks f).core = s.core := rfl
@[simp] theorem State.onLinks_task (s : State) (f : Links → Links) : (s.onLinks f).task = s.task := rfl
@[simp] theorem State.onLinks_power (s : State) (f : Links → Links) : (s.onLinks f).plat.power = s.plat.power := rfl
@[simp] theorem State.onLinks_health (s : State) (f : Links → Links) : (s.onLinks f).plat.health = s.plat.health := rfl
@[simp] theorem State.onLinks_links (s : State) (f : Links → Links) : (s.onLinks f).plat.links = f s.plat.links := rfl
@[simp] theorem State.onLinks_nor (s : State) (f : Links → Links) : (s.onLinks f).plat.nor = s.plat.nor := rfl
@[simp] theorem State.onLinks_host (s : State) (f : Links → Links) : (s.onLinks f).plat.host = s.plat.host := rfl
@[simp] theorem State.onLinks_pages (s : State) (f : Links → Links) : (s.onLinks f).plat.pages = s.plat.pages := rfl
@[simp] theorem State.onLinks_apps (s : State) (f : Links → Links) : (s.onLinks f).plat.apps = s.plat.apps := rfl

@[simp] theorem State.onNor_ext (s : State) (f : Norano → Norano) : (s.onNor f).ext = s.ext := rfl
@[simp] theorem State.onNor_pkg (s : State) (f : Norano → Norano) : (s.onNor f).pkg = s.pkg := rfl
@[simp] theorem State.onNor_mem (s : State) (f : Norano → Norano) : (s.onNor f).mem = s.mem := rfl
@[simp] theorem State.onNor_core (s : State) (f : Norano → Norano) : (s.onNor f).core = s.core := rfl
@[simp] theorem State.onNor_task (s : State) (f : Norano → Norano) : (s.onNor f).task = s.task := rfl
@[simp] theorem State.onNor_power (s : State) (f : Norano → Norano) : (s.onNor f).plat.power = s.plat.power := rfl
@[simp] theorem State.onNor_health (s : State) (f : Norano → Norano) : (s.onNor f).plat.health = s.plat.health := rfl
@[simp] theorem State.onNor_links (s : State) (f : Norano → Norano) : (s.onNor f).plat.links = s.plat.links := rfl
@[simp] theorem State.onNor_nor (s : State) (f : Norano → Norano) : (s.onNor f).plat.nor = f s.plat.nor := rfl
@[simp] theorem State.onNor_host (s : State) (f : Norano → Norano) : (s.onNor f).plat.host = s.plat.host := rfl
@[simp] theorem State.onNor_pages (s : State) (f : Norano → Norano) : (s.onNor f).plat.pages = s.plat.pages := rfl
@[simp] theorem State.onNor_apps (s : State) (f : Norano → Norano) : (s.onNor f).plat.apps = s.plat.apps := rfl

@[simp] theorem State.onHost_ext (s : State) (f : HostSys → HostSys) : (s.onHost f).ext = s.ext := rfl
@[simp] theorem State.onHost_pkg (s : State) (f : HostSys → HostSys) : (s.onHost f).pkg = s.pkg := rfl
@[simp] theorem State.onHost_mem (s : State) (f : HostSys → HostSys) : (s.onHost f).mem = s.mem := rfl
@[simp] theorem State.onHost_core (s : State) (f : HostSys → HostSys) : (s.onHost f).core = s.core := rfl
@[simp] theorem State.onHost_task (s : State) (f : HostSys → HostSys) : (s.onHost f).task = s.task := rfl
@[simp] theorem State.onHost_power (s : State) (f : HostSys → HostSys) : (s.onHost f).plat.power = s.plat.power := rfl
@[simp] theorem State.onHost_health (s : State) (f : HostSys → HostSys) : (s.onHost f).plat.health = s.plat.health := rfl
@[simp] theorem State.onHost_links (s : State) (f : HostSys → HostSys) : (s.onHost f).plat.links = s.plat.links := rfl
@[simp] theorem State.onHost_nor (s : State) (f : HostSys → HostSys) : (s.onHost f).plat.nor = s.plat.nor := rfl
@[simp] theorem State.onHost_host (s : State) (f : HostSys → HostSys) : (s.onHost f).plat.host = f s.plat.host := rfl
@[simp] theorem State.onHost_pages (s : State) (f : HostSys → HostSys) : (s.onHost f).plat.pages = s.plat.pages := rfl
@[simp] theorem State.onHost_apps (s : State) (f : HostSys → HostSys) : (s.onHost f).plat.apps = s.plat.apps := rfl

/-! The parts of the cores, the functions and the dies. -/

@[simp] theorem State.modCluster_ext (s : State) (k : Nat) (f : Cluster → Cluster) : (s.modCluster k f).ext = s.ext := rfl
@[simp] theorem State.modCluster_pkg (s : State) (k : Nat) (f : Cluster → Cluster) : (s.modCluster k f).pkg = s.pkg := rfl
@[simp] theorem State.modCluster_mem (s : State) (k : Nat) (f : Cluster → Cluster) : (s.modCluster k f).mem = s.mem := rfl
@[simp] theorem State.modCluster_task (s : State) (k : Nat) (f : Cluster → Cluster) : (s.modCluster k f).task = s.task := rfl
@[simp] theorem State.modCluster_plat (s : State) (k : Nat) (f : Cluster → Cluster) : (s.modCluster k f).plat = s.plat := rfl
@[simp] theorem State.modCluster_core_threads (s : State) (k : Nat) (f : Cluster → Cluster) : (s.modCluster k f).core.threads = s.core.threads := rfl
@[simp] theorem State.modCluster_core_groups (s : State) (k : Nat) (f : Cluster → Cluster) : (s.modCluster k f).core.groups = s.core.groups := rfl
@[simp] theorem State.modCluster_core_crews (s : State) (k : Nat) (f : Cluster → Cluster) : (s.modCluster k f).core.crews = s.core.crews := rfl
@[simp] theorem State.modCluster_core_laces (s : State) (k : Nat) (f : Cluster → Cluster) : (s.modCluster k f).core.laces = s.core.laces := rfl
@[simp] theorem State.modCluster_core_barriers (s : State) (k : Nat) (f : Cluster → Cluster) : (s.modCluster k f).core.barriers = s.core.barriers := rfl
@[simp] theorem State.modCluster_core_cores (s : State) (k : Nat) (f : Cluster → Cluster) : (s.modCluster k f).core.cores = s.core.cores := rfl
@[simp] theorem State.modCluster_core_reqs (s : State) (k : Nat) (f : Cluster → Cluster) : (s.modCluster k f).core.reqs = s.core.reqs := rfl
@[simp] theorem State.modCluster_core_acpys (s : State) (k : Nat) (f : Cluster → Cluster) : (s.modCluster k f).core.acpys = s.core.acpys := rfl

@[simp] theorem State.modCoreAt_ext (s : State) (k : Nat) (f : Core → Core) : (s.modCoreAt k f).ext = s.ext := rfl
@[simp] theorem State.modCoreAt_pkg (s : State) (k : Nat) (f : Core → Core) : (s.modCoreAt k f).pkg = s.pkg := rfl
@[simp] theorem State.modCoreAt_mem (s : State) (k : Nat) (f : Core → Core) : (s.modCoreAt k f).mem = s.mem := rfl
@[simp] theorem State.modCoreAt_task (s : State) (k : Nat) (f : Core → Core) : (s.modCoreAt k f).task = s.task := rfl
@[simp] theorem State.modCoreAt_plat (s : State) (k : Nat) (f : Core → Core) : (s.modCoreAt k f).plat = s.plat := rfl
@[simp] theorem State.modCoreAt_core_threads (s : State) (k : Nat) (f : Core → Core) : (s.modCoreAt k f).core.threads = s.core.threads := rfl
@[simp] theorem State.modCoreAt_core_groups (s : State) (k : Nat) (f : Core → Core) : (s.modCoreAt k f).core.groups = s.core.groups := rfl
@[simp] theorem State.modCoreAt_core_crews (s : State) (k : Nat) (f : Core → Core) : (s.modCoreAt k f).core.crews = s.core.crews := rfl
@[simp] theorem State.modCoreAt_core_laces (s : State) (k : Nat) (f : Core → Core) : (s.modCoreAt k f).core.laces = s.core.laces := rfl
@[simp] theorem State.modCoreAt_core_barriers (s : State) (k : Nat) (f : Core → Core) : (s.modCoreAt k f).core.barriers = s.core.barriers := rfl
@[simp] theorem State.modCoreAt_core_clusters (s : State) (k : Nat) (f : Core → Core) : (s.modCoreAt k f).core.clusters = s.core.clusters := rfl
@[simp] theorem State.modCoreAt_core_reqs (s : State) (k : Nat) (f : Core → Core) : (s.modCoreAt k f).core.reqs = s.core.reqs := rfl
@[simp] theorem State.modCoreAt_core_acpys (s : State) (k : Nat) (f : Core → Core) : (s.modCoreAt k f).core.acpys = s.core.acpys := rfl

@[simp] theorem State.modCrew_ext (s : State) (u : Nat) (f : Crew → Crew) : (s.modCrew u f).ext = s.ext := rfl
@[simp] theorem State.modCrew_pkg (s : State) (u : Nat) (f : Crew → Crew) : (s.modCrew u f).pkg = s.pkg := rfl
@[simp] theorem State.modCrew_mem (s : State) (u : Nat) (f : Crew → Crew) : (s.modCrew u f).mem = s.mem := rfl
@[simp] theorem State.modCrew_task (s : State) (u : Nat) (f : Crew → Crew) : (s.modCrew u f).task = s.task := rfl
@[simp] theorem State.modCrew_plat (s : State) (u : Nat) (f : Crew → Crew) : (s.modCrew u f).plat = s.plat := rfl
@[simp] theorem State.modCrew_core_threads (s : State) (u : Nat) (f : Crew → Crew) : (s.modCrew u f).core.threads = s.core.threads := rfl
@[simp] theorem State.modCrew_core_groups (s : State) (u : Nat) (f : Crew → Crew) : (s.modCrew u f).core.groups = s.core.groups := rfl
@[simp] theorem State.modCrew_core_laces (s : State) (u : Nat) (f : Crew → Crew) : (s.modCrew u f).core.laces = s.core.laces := rfl
@[simp] theorem State.modCrew_core_barriers (s : State) (u : Nat) (f : Crew → Crew) : (s.modCrew u f).core.barriers = s.core.barriers := rfl
@[simp] theorem State.modCrew_core_cores (s : State) (u : Nat) (f : Crew → Crew) : (s.modCrew u f).core.cores = s.core.cores := rfl
@[simp] theorem State.modCrew_core_clusters (s : State) (u : Nat) (f : Crew → Crew) : (s.modCrew u f).core.clusters = s.core.clusters := rfl
@[simp] theorem State.modCrew_core_reqs (s : State) (u : Nat) (f : Crew → Crew) : (s.modCrew u f).core.reqs = s.core.reqs := rfl
@[simp] theorem State.modCrew_core_acpys (s : State) (u : Nat) (f : Crew → Crew) : (s.modCrew u f).core.acpys = s.core.acpys := rfl

@[simp] theorem State.modFn_ext (s : State) (k : Nat) (f : Fn → Fn) : (s.modFn k f).ext = s.ext := rfl
@[simp] theorem State.modFn_pkg (s : State) (k : Nat) (f : Fn → Fn) : (s.modFn k f).pkg = s.pkg := rfl
@[simp] theorem State.modFn_mem (s : State) (k : Nat) (f : Fn → Fn) : (s.modFn k f).mem = s.mem := rfl
@[simp] theorem State.modFn_core (s : State) (k : Nat) (f : Fn → Fn) : (s.modFn k f).core = s.core := rfl
@[simp] theorem State.modFn_plat (s : State) (k : Nat) (f : Fn → Fn) : (s.modFn k f).plat = s.plat := rfl
@[simp] theorem State.modFn_task_queues (s : State) (k : Nat) (f : Fn → Fn) : (s.modFn k f).task.queues = s.task.queues := rfl
@[simp] theorem State.modFn_task_slots (s : State) (k : Nat) (f : Fn → Fn) : (s.modFn k f).task.slots = s.task.slots := rfl
@[simp] theorem State.modFn_task_counters (s : State) (k : Nat) (f : Fn → Fn) : (s.modFn k f).task.counters = s.task.counters := rfl
@[simp] theorem State.modFn_task_channels (s : State) (k : Nat) (f : Fn → Fn) : (s.modFn k f).task.channels = s.task.channels := rfl
@[simp] theorem State.modFn_task_ports (s : State) (k : Nat) (f : Fn → Fn) : (s.modFn k f).task.ports = s.task.ports := rfl
@[simp] theorem State.modFn_task_patterns (s : State) (k : Nat) (f : Fn → Fn) : (s.modFn k f).task.patterns = s.task.patterns := rfl

@[simp] theorem State.modDie_ext (s : State) (d : Nat) (f : Die → Die) : (s.modDie d f).ext = s.ext := rfl
@[simp] theorem State.modDie_mem (s : State) (d : Nat) (f : Die → Die) : (s.modDie d f).mem = s.mem := rfl
@[simp] theorem State.modDie_core (s : State) (d : Nat) (f : Die → Die) : (s.modDie d f).core = s.core := rfl
@[simp] theorem State.modDie_task (s : State) (d : Nat) (f : Die → Die) : (s.modDie d f).task = s.task := rfl
@[simp] theorem State.modDie_plat (s : State) (d : Nat) (f : Die → Die) : (s.modDie d f).plat = s.plat := rfl
@[simp] theorem State.modDie_pkg_hdCycle (s : State) (d : Nat) (f : Die → Die) : (s.modDie d f).pkg.hdCycle = s.pkg.hdCycle := rfl
@[simp] theorem State.modDie_pkg_homemap (s : State) (d : Nat) (f : Die → Die) : (s.modDie d f).pkg.homemap = s.pkg.homemap := rfl
@[simp] theorem State.modDie_pkg_hmdies (s : State) (d : Nat) (f : Die → Die) : (s.modDie d f).pkg.hmdies = s.pkg.hmdies := rfl

@[simp] theorem State.coreAt_modCoreAt (s : State) (k j : Nat) (f : Core → Core) :
    (s.modCoreAt k f).coreAt j = if k = j then f (s.coreAt k) else s.coreAt j := Map.getD_modD ..
@[simp] theorem State.clusterAt_modCluster (s : State) (k j : Nat) (f : Cluster → Cluster) :
    (s.modCluster k f).clusterAt j = if k = j then f (s.clusterAt k) else s.clusterAt j := Map.getD_modD ..
@[simp] theorem State.fnAt_modFn (s : State) (k j : Nat) (f : Fn → Fn) :
    (s.modFn k f).fnAt j = if k = j then f (s.fnAt k) else s.fnAt j := Map.getD_modD ..

/-! Threads. -/

theorem find_modThread (l : List Thread) (u v : Nat) (f : Thread → Thread) (hf : ∀ t, (f t).uid = t.uid) :
    (l.map fun t => if t.uid == u then f t else t).find? (fun t => t.uid == v) =
      if v = u then (l.find? fun t => t.uid == v).map f else l.find? fun t => t.uid == v := by
  induction l with
  | nil => simp
  | cons t ts ih =>
    rw [List.map_cons, List.find?_cons, List.find?_cons, ih]
    cases hu : t.uid == u <;> cases hv : t.uid == v
    · simp [hv]
    · have : v ≠ u := fun e => by simp_all
      simp [hv, this]
    · have : v ≠ u := fun e => by simp_all
      simp [hf, hv, this]
    · have : v = u := by simp_all
      simp [hf, this]
      simp_all

theorem State.thread?_modThread (s : State) (u v : Nat) (f : Thread → Thread) (hf : ∀ t, (f t).uid = t.uid) :
    (s.modThread u f).thread? v = if v = u then (s.thread? v).map f else s.thread? v :=
  find_modThread s.core.threads u v f hf

theorem State.thread_modThread (s : State) (u v : Nat) (f : Thread → Thread) (hf : ∀ t, (f t).uid = t.uid)
    (h : (s.thread? u).isSome = true) : (s.modThread u f).thread v = if v = u then f (s.thread v) else s.thread v := by
  unfold State.thread
  rw [State.thread?_modThread s u v f hf]
  split
  · subst_vars
    obtain ⟨t, ht⟩ := Option.isSome_iff_exists.1 h
    simp [ht]
  · rfl

theorem State.modThread_modThread (s : State) (u : Nat) (f g : Thread → Thread) (hf : ∀ t, (f t).uid = t.uid) :
    (s.modThread u f).modThread u g = s.modThread u fun t => g (f t) := by
  have : (fun t : Thread => if (if t.uid == u then f t else t).uid == u then g (if t.uid == u then f t else t) else
      (if t.uid == u then f t else t)) = fun t => if t.uid == u then g (f t) else t := by
    funext t
    by_cases e : t.uid = u <;> simp [e, hf]
  simp only [State.modThread, State.onCore, List.map_map, Function.comp_def, this]

@[simp] theorem State.modThread_groups (s : State) (u : Nat) (f : Thread → Thread) :
    (s.modThread u f).core.groups = s.core.groups := rfl
@[simp] theorem State.modThread_reqs (s : State) (u : Nat) (f : Thread → Thread) :
    (s.modThread u f).core.reqs = s.core.reqs := rfl
@[simp] theorem State.modThread_crews (s : State) (u : Nat) (f : Thread → Thread) :
    (s.modThread u f).core.crews = s.core.crews := rfl
@[simp] theorem State.modThread_mem (s : State) (u : Nat) (f : Thread → Thread) : (s.modThread u f).mem = s.mem := rfl
@[simp] theorem State.modThread_ext (s : State) (u : Nat) (f : Thread → Thread) : (s.modThread u f).ext = s.ext := rfl
@[simp] theorem State.modThread_task (s : State) (u : Nat) (f : Thread → Thread) : (s.modThread u f).task = s.task := rfl
@[simp] theorem State.modThread_plat (s : State) (u : Nat) (f : Thread → Thread) : (s.modThread u f).plat = s.plat := rfl
@[simp] theorem State.modThread_pkg (s : State) (u : Nat) (f : Thread → Thread) : (s.modThread u f).pkg = s.pkg := rfl

/-! Free choices change nothing but the counter of free values. -/

@[simp] theorem choose_pkg (n : Nat) (s : State) : (choose n s).2.pkg = s.pkg := by unfold choose; split <;> rfl
@[simp] theorem chooseFrom_pkg {α : Type} (l : List α) (d : α) (s : State) : (chooseFrom l d s).2.pkg = s.pkg := choose_pkg l.length s
@[simp] theorem chooseBool_pkg (s : State) : (chooseBool s).2.pkg = s.pkg := choose_pkg 2 s
@[simp] theorem choose_mem (n : Nat) (s : State) : (choose n s).2.mem = s.mem := by unfold choose; split <;> rfl
@[simp] theorem chooseFrom_mem {α : Type} (l : List α) (d : α) (s : State) : (chooseFrom l d s).2.mem = s.mem := choose_mem l.length s
@[simp] theorem chooseBool_mem (s : State) : (chooseBool s).2.mem = s.mem := choose_mem 2 s
@[simp] theorem choose_core (n : Nat) (s : State) : (choose n s).2.core = s.core := by unfold choose; split <;> rfl
@[simp] theorem chooseFrom_core {α : Type} (l : List α) (d : α) (s : State) : (chooseFrom l d s).2.core = s.core := choose_core l.length s
@[simp] theorem chooseBool_core (s : State) : (chooseBool s).2.core = s.core := choose_core 2 s
@[simp] theorem choose_task (n : Nat) (s : State) : (choose n s).2.task = s.task := by unfold choose; split <;> rfl
@[simp] theorem chooseFrom_task {α : Type} (l : List α) (d : α) (s : State) : (chooseFrom l d s).2.task = s.task := choose_task l.length s
@[simp] theorem chooseBool_task (s : State) : (chooseBool s).2.task = s.task := choose_task 2 s
@[simp] theorem choose_plat (n : Nat) (s : State) : (choose n s).2.plat = s.plat := by unfold choose; split <;> rfl
@[simp] theorem chooseFrom_plat {α : Type} (l : List α) (d : α) (s : State) : (chooseFrom l d s).2.plat = s.plat := choose_plat l.length s
@[simp] theorem chooseBool_plat (s : State) : (chooseBool s).2.plat = s.plat := choose_plat 2 s

/-! Registers. -/

@[simp] theorem Thread.setReg_uid (t : Thread) (n : Nat) (r : Reg) : (t.setReg n r).uid = t.uid := rfl
@[simp] theorem Thread.setReg_id (t : Thread) (n : Nat) (r : Reg) : (t.setReg n r).id = t.id := rfl
@[simp] theorem Thread.setReg_preds (t : Thread) (n : Nat) (r : Reg) : (t.setReg n r).preds = t.preds := rfl
@[simp] theorem Thread.setReg_pos (t : Thread) (n : Nat) (r : Reg) : (t.setReg n r).pos = t.pos := rfl

theorem Thread.setPred_uid (t : Thread) (n : Nat) (b : Bool) : (t.setPred n b).uid = t.uid := by
  unfold Thread.setPred; split <;> rfl

end Sys2Proof.Machine
end

