-- ==== Sys2Proof/Laws/Exec.lean ====
section
/-! SUPPORT. What the shared execution of an instruction by a group does (R198 to R200, R351): `isa_local` for instructions that
only write the context of their own thread, `isaAll_alone` for a group of one thread. -/

namespace Sys2Proof.Machine

/-! Issue charges. -/

theorem State.Charged.refl (s : State) : s.Charged s := ⟨rfl, fun _ => rfl⟩

theorem State.Charged.trans {s t r : State} (h : s.Charged t) (k : t.Charged r) : s.Charged r :=
  ⟨k.rest.trans h.rest, fun f => (k.fns f).trans (h.fns f)⟩

theorem State.Charged.ext {s t : State} (h : s.Charged t) : t.ext = s.ext := by have e := congrArg State.ext h.rest; exact e
theorem State.Charged.pkg {s t : State} (h : s.Charged t) : t.pkg = s.pkg := by have e := congrArg State.pkg h.rest; exact e
theorem State.Charged.mem {s t : State} (h : s.Charged t) : t.mem = s.mem := by have e := congrArg State.mem h.rest; exact e
theorem State.Charged.core {s t : State} (h : s.Charged t) : t.core = s.core := by have e := congrArg State.core h.rest; exact e
theorem State.Charged.plat {s t : State} (h : s.Charged t) : t.plat = s.plat := by have e := congrArg State.plat h.rest; exact e

theorem State.charged_modFn (s : State) (f : Nat) (n : Fn → Nat) : s.Charged (s.modFn f fun x => { x with fissue := n x }) :=
  ⟨rfl, fun k => by
    rw [State.fnAt_modFn]; split
    · subst_vars; rfl
    · rfl⟩

theorem foldl_rel {α β : Type} (R : β → β → Prop) (refl : ∀ b, R b b) (trans : ∀ {a b c}, R a b → R b c → R a c) (f : β → α → β)
    (h : ∀ b a, R b (f b a)) (l : List α) (b : β) : R b (l.foldl f b) := by
  induction l generalizing b with
  | nil => exact refl b
  | cons a l ih => exact trans (h b a) (ih _)

theorem State.charged_charge (s : State) (l : List Nat) : s.Charged (s.charge l) := by
  unfold State.charge
  exact foldl_rel State.Charged State.Charged.refl State.Charged.trans _ (fun s e => State.charged_modFn s _ _) _ _

theorem State.Charged.thread? {s t : State} (h : s.Charged t) (u : Nat) : t.thread? u = s.thread? u := by
  simp [State.thread?, h.core]

theorem State.Charged.thread {s t : State} (h : s.Charged t) (u : Nat) : t.thread u = s.thread u := by
  simp [State.thread, h.thread?]

theorem State.Charged.crew? {s t : State} (h : s.Charged t) (u : Nat) : t.crew? u = s.crew? u := by
  simp [State.crew?, h.core]

theorem State.Charged.conflicts {s t : State} (h : s.Charged t) (u : Nat) (l : List Nat) : t.conflicts u l = s.conflicts u l := by
  simp [State.conflicts, h.core]

theorem State.Charged.check {s t : State} (h : s.Charged t) (sp : Spec) (x : Thread) : sp.check t x = sp.check s x := by
  simp [Spec.check, State.nregs, h.ext, h.crew?]

/-! States that differ in places and schedules alone. -/

theorem State.Like.refl (s : State) : s.Like s := ⟨rfl, fun _ => rfl⟩

theorem State.Like.trans {s t r : State} (h : s.Like t) (k : t.Like r) : s.Like r :=
  ⟨k.arch.trans h.arch, fun f => (k.fns f).trans (h.fns f)⟩

theorem State.Charged.like {s t : State} (h : s.Charged t) : s.Like t :=
  ⟨by
    have he := h.ext; have hp := h.pkg; have hm := h.mem; have hc := h.core; have hl := h.plat
    have ht := congrArg State.task h.rest
    simp only at ht
    simp [State.arch, he, hp, hm, hc, hl, ht], h.fns⟩

theorem find_content (l : List Thread) (u : Nat) :
    (l.map Thread.content).find? (fun t => t.uid == u) = (l.find? fun t => t.uid == u).map Thread.content := by
  induction l with
  | nil => rfl
  | cons t l ih => rw [List.map_cons, List.find?_cons, List.find?_cons, ih]; simp only [Thread.content]; cases t.uid == u <;> rfl

theorem State.Like.thread? {s t : State} (h : s.Like t) (u : Nat) :
    (t.thread? u).map Thread.content = (s.thread? u).map Thread.content := by
  have e : t.core.threads.map Thread.content = s.core.threads.map Thread.content := congrArg (fun x => x.core.threads) h.arch
  unfold State.thread?
  rw [← find_content, ← find_content, e]

theorem State.Like.thread {s t : State} (h : s.Like t) (u : Nat) : (t.thread u).content = (s.thread u).content := by
  have e := h.thread? u
  unfold State.thread
  cases ht : t.thread? u <;> cases hs : s.thread? u <;> simp_all

theorem State.like_modThread (s : State) (u : Nat) (f : Thread → Thread) (hf : ∀ t, (f t).content = t.content) :
    s.Like (s.modThread u f) := by
  refine ⟨?_, fun _ => rfl⟩
  have : (s.core.threads.map fun t => if t.uid == u then f t else t).map Thread.content = s.core.threads.map Thread.content := by
    rw [List.map_map]
    apply List.map_congr_left
    intro t _
    simp only [Function.comp]
    split
    · exact hf t
    · rfl
  simp only [State.arch, State.modThread, State.onCore, this]

theorem State.like_leave (s : State) (u : Nat) : s.Like (s.leave u) := ⟨rfl, fun _ => rfl⟩

/-! Threads that are being neither stepped nor re-issued. -/

theorem State.Like.ext {s t : State} (h : s.Like t) : t.ext = s.ext := by have e := congrArg State.ext h.arch; exact e

theorem State.Like.calm {s t : State} (h : s.Like t) (l : List Nat) (k : s.Calm l) : t.Calm l := by
  refine ⟨fun x hx hl => ?_, by rw [h.ext]; exact k.bare⟩
  have e : t.core.threads.map Thread.content = s.core.threads.map Thread.content := congrArg (fun x => x.core.threads) h.arch
  obtain ⟨y, hy, hc⟩ : ∃ y ∈ s.core.threads, y.content = x.content := by
    have := List.mem_map_of_mem (f := Thread.content) hx
    rw [e] at this
    obtain ⟨y, hy, hc⟩ := List.mem_map.1 this
    exact ⟨y, hy, hc⟩
  have hu : y.uid = x.uid := by have := congrArg Thread.uid hc; exact this
  have h1 : y.stepping = x.stepping := by have := congrArg Thread.stepping hc; exact this
  have h2 : y.reissue = x.reissue := by have := congrArg Thread.reissue hc; exact this
  have h3 : y.mark = x.mark := by have := congrArg Thread.mark hc; exact this
  have := k.threads y hy (hu ▸ hl)
  rwa [h1, h2, h3] at this

theorem State.Calm.thread {s : State} {l : List Nat} (k : s.Calm l) (u : Nat) (hu : u ∈ l) :
    (s.thread u).stepping = false ∧ (s.thread u).reissue = false ∧ (s.thread u).mark = none := by
  unfold State.thread
  cases h : s.thread? u with
  | none => exact ⟨rfl, rfl, rfl⟩
  | some t =>
    have hm := List.mem_of_find?_eq_some h
    have hp := List.find?_some h
    simp only [beq_iff_eq] at hp
    exact k.threads t hm (hp ▸ hu)

theorem Map.del_absent {α : Type} (m : Map α) (k : Nat) (h : m.find k = none) : m.del k = m := by
  induction m with
  | nil => rfl
  | cons e m ih =>
    obtain ⟨j, v⟩ := e
    unfold Map.find at h
    unfold Map.del
    split at h
    · simp at h
    · rename_i hj
      rw [if_neg hj, ih h]

/-- A thread that holds no element has none to give up. -/
theorem State.Calm.unpop {s : State} {l : List Nat} (k : s.Calm l) (u : Nat) (hu : u ∈ l) : s.unpop u = s := by
  obtain ⟨h1, h2⟩ := k.bare u hu
  obtain ⟨e, p, m, c, t, pl⟩ := s
  have h3 : e.placed.filter (· != u) = e.placed := by
    rw [List.filter_eq_self]
    intro x hx
    simp only [List.contains_eq_mem, decide_eq_false_iff_not] at h2
    simp only [bne_iff_ne, ne_eq]
    exact fun hxu => h2 (hxu ▸ hx)
  simp only at h1
  simp only [State.unpop, State.onExt, Map.del_absent _ _ h1, h3]

theorem State.Calm.unpops {s : State} {l : List Nat} (k : s.Calm l) (m : List Nat) (hm : ∀ x ∈ m, x ∈ l) : m.foldl State.unpop s = s := by
  induction m with
  | nil => rfl
  | cons u m ih => rw [List.foldl_cons, k.unpop u (hm u (by simp)), ih fun x hx => hm x (List.mem_cons_of_mem u hx)]

theorem State.Calm.mono {s : State} {l m : List Nat} (k : s.Calm l) (h : ∀ x ∈ m, x ∈ l) : s.Calm m :=
  ⟨fun t ht hm => k.threads t ht (h _ hm), fun u hu => k.bare u (h u hu)⟩

/-- A calm thread becomes ready at a position by a change of its context alone. -/
theorem State.postAt_eq (s : State) (u : Nat) (p : Pos) (k : s.Calm [u]) : s.postAt u p = s.modThread u fun t =>
    { t with run := .ready, pos := p, ready := s.now t, clause := if p.i = 0 then [] else t.clause, mark := none } := by
  simp [State.postAt, (k.thread u (by simp)).2.2, k.unpop u (by simp)]

theorem State.like_postAt (s : State) (u : Nat) (p : Pos) (k : s.Calm [u]) : s.Like (s.postAt u p) := by
  rw [State.postAt_eq s u p k]
  refine ⟨?_, fun _ => rfl⟩
  have : (s.core.threads.map fun t => if t.uid == u then
      { t with run := .ready, pos := p, ready := s.now t, clause := if p.i = 0 then [] else t.clause, mark := none } else t).map
        Thread.content = s.core.threads.map Thread.content := by
    rw [List.map_map]
    apply List.map_congr_left
    intro t ht
    simp only [Function.comp]
    split
    · rename_i e
      simp only [Thread.content, (k.threads t ht (by simpa using e)).2.2]
    · rfl
  simp only [State.arch, State.modThread, State.onCore, this]

/-- A loop over members keeps a state but for places and schedules, if each turn does for calm members. -/
theorem State.like_foldl (f : State → Nat → State) (l m : List Nat) (hf : ∀ (s : State) u, u ∈ l → s.Calm l → s.Like (f s u)) (s : State)
    (k : s.Calm l) (hm : ∀ x ∈ m, x ∈ l) : s.Like (m.foldl f s) := by
  induction m generalizing s with
  | nil => exact .refl s
  | cons u m ih =>
    have h := hf s u (hm u (by simp)) k
    exact h.trans (ih _ (h.calm l k) fun x hx => hm x (List.mem_cons_of_mem u hx))

/-- The end of a group's instruction only places and schedules its members. -/
theorem State.like_advance (s : State) (g : Group) (l : List Nat)
    (k : ∀ h, s.core.groups.find? (fun h => h.core == g.core && h.members.any g.members.contains) = some h → s.Calm h.members) :
    s.Like (s.advance g l) := by
  unfold State.advance
  simp only
  split
  · exact .refl s
  · rename_i h hf
    have kh := k h hf
    split
    · exact ⟨rfl, fun _ => rfl⟩
    · split
      · refine State.Like.trans ?_ (State.like_foldl _ h.members h.members ?_ _ ?_ fun _ => id)
        · exact ⟨rfl, fun _ => rfl⟩
        · intro s u _ _
          exact s.like_modThread u _ fun _ => rfl
        · exact ⟨kh.threads, kh.bare⟩
      · refine State.Like.trans ?_ (State.like_foldl _ h.members h.members ?_ _ ?_ fun _ => id)
        · refine ⟨?_, fun _ => rfl⟩
          have : ∀ l : List Req, (l.map fun r => if h.members.contains r.thr then { r with win := (⟨0, 0⟩, 0) } else r).map
              (fun r => { r with win := (⟨0, 0⟩, 0) }) = l.map fun r => { r with win := (⟨0, 0⟩, 0) } := by
            intro l
            rw [List.map_map]
            apply List.map_congr_left
            intro r _
            simp only [Function.comp]
            split <;> rfl
          simp only [State.arch, State.onCore, this]
        · intro s u hu ks
          have k1 := (s.like_leave u).calm _ ks
          have l2 := (s.leave u).like_postAt u ⟨g.pos.a + 16 + 8 * (g.clause.length - 2), 0⟩ (k1.mono (by simpa using hu))
          exact ((s.like_leave u).trans l2).trans (State.like_modThread _ u _ fun _ => rfl)
        · exact ⟨kh.threads, kh.bare⟩

/-! Where a group stands after its instruction. -/

/-- In `t` the thread u stands at p, if it is there, and every other thread as in `s`. -/
def State.Moves (s : State) (u : Nat) (p : Pos) (t : State) : Prop :=
  ∃ f : Thread → Thread, (∀ x, (f x).pos = p) ∧ ∀ v, t.thread? v = if v = u then (s.thread? v).map f else s.thread? v

theorem State.moves_modThread (s : State) (u : Nat) (p : Pos) (f : Thread → Thread) (hu : ∀ t, (f t).uid = t.uid)
    (hp : ∀ t, (f t).pos = p) : s.Moves u p (s.modThread u f) :=
  ⟨f, hp, fun v => s.thread?_modThread u v f hu⟩

/-- A loop that moves each of the members to p leaves every member there. -/
theorem State.pos_foldl (f : State → Nat → State) (p : Pos) (l m : List Nat)
    (hf : ∀ (s : State) u, u ∈ l → s.Calm l → s.Like (f s u) ∧ s.Moves u p (f s u)) (s : State) (k : s.Calm l)
    (hm : ∀ x ∈ m, x ∈ l) (v : Nat) (hv : (s.thread? v).isSome = true) (hp : v ∈ m ∨ (s.thread v).pos = p) :
    ((m.foldl f s).thread v).pos = p := by
  induction m generalizing s with
  | nil => simpa using hp
  | cons u m ih =>
    obtain ⟨hl, g, hg, hmv⟩ := hf s u (hm u (by simp)) k
    have e := hmv v
    obtain ⟨x, hx⟩ := Option.isSome_iff_exists.1 hv
    refine ih _ (hl.calm l k) (fun y hy => hm y (List.mem_cons_of_mem u hy)) ?_ ?_
    · rw [e]; split <;> simp [hx]
    · by_cases huv : v = u
      · right; unfold State.thread; rw [e]; simp [huv ▸ hx, huv, hg]
      · rcases hp with hp | hp
        · left; simpa [huv] using hp
        · right
          have : (f s u).thread v = s.thread v := by unfold State.thread; rw [e]; simp [huv]
          rw [this]; exact hp

/-- A group that is as it was goes on whole. -/
theorem State.pos_advance (s : State) (g : Group)
    (here : s.core.groups.find? (fun h => h.core == g.core && h.members.any g.members.contains) = some g) (k : s.Calm g.members)
    (v : Nat) (hm : v ∈ g.members) (hv : (s.thread? v).isSome = true) : ((s.advance g []).thread v).pos = g.next := by
  unfold State.advance Group.next
  simp only [here, List.isEmpty_nil, Bool.not_true, Bool.false_eq_true, if_false]
  split
  · refine State.pos_foldl _ _ g.members g.members (fun s u _ _ => ?_) _ ?_ (fun _ => id) v hv (.inl hm)
    · exact ⟨s.like_modThread u _ fun _ => rfl, s.moves_modThread u _ _ (fun _ => rfl) fun _ => rfl⟩
    · exact ⟨k.threads, k.bare⟩
  · refine State.pos_foldl _ _ g.members g.members (fun s u hu ks => ?_) _ ?_ (fun _ => id) v hv (.inl hm)
    · have k1 := ((s.like_leave u).calm _ ks).mono (show ∀ x ∈ [u], x ∈ g.members by simpa using hu)
      have l2 := (s.leave u).like_postAt u ⟨g.pos.a + 16 + 8 * (g.clause.length - 2), 0⟩ k1
      refine ⟨((s.like_leave u).trans l2).trans (State.like_modThread _ u _ fun _ => rfl), ?_⟩
      rw [State.postAt_eq _ _ _ k1, State.modThread_modThread _ _ _ _ (by intro _; rfl)]
      exact (s.leave u).moves_modThread u _ _ (fun _ => rfl) fun _ => rfl
    · exact ⟨k.threads, k.bare⟩

/-! The parts of an execution that the demands of `Runs` make idle. -/

theorem Spec.queues_direct (sp : Spec) (h : sp.queueSrc = none ∧ sp.queueDst = none) (s : State) (c : Nat) (us : List Nat) :
    sp.queues s c us = (us, [], s) := by
  simp [Spec.queues, h.1, h.2]

theorem State.conflicts_append (s : State) (u : Nat) (a b : List Nat) (h : s.conflicts u (a ++ b) = []) :
    s.conflicts u a = [] ∧ s.conflicts u b = [] := by
  simp only [State.conflicts, List.filter_eq_nil_iff, Bool.and_eq_true, not_and, Bool.not_eq_true, List.any_eq_false,
    List.contains_eq_mem, List.mem_append, decide_eq_true_eq] at h ⊢
  exact ⟨fun r hr ht d hd hm => h r hr ht d hd (.inl hm), fun r hr ht d hd hm => h r hr ht d hd (.inr hm)⟩

theorem Spec.window_idle (sp : Spec) (s : State) (u : Nat)
    (h : s.conflicts u (sp.reads (s.thread u).isCtl ++ sp.writes (s.thread u).isCtl) = []) : sp.window s u = s := by
  obtain ⟨h1, h2⟩ := s.conflicts_append u _ _ h
  simp [Spec.window, h1, h2]

theorem Spec.lookahead_idle (sp : Spec) (s : State) (u : Nat)
    (h : s.conflicts u (sp.reads (s.thread u).isCtl ++ sp.writes (s.thread u).isCtl) = []) : sp.lookahead s u = none := by
  simp [Spec.lookahead, h]

theorem Spec.blocked_idle (sp : Spec) (s : State) (u : Nat)
    (h : s.conflicts u (sp.reads (s.thread u).isCtl ++ sp.writes (s.thread u).isCtl) = []) : sp.blocked s u = false := by
  simp [Spec.blocked, h]

/-- A state in the course of an instruction, in which nothing that a member's checks look at has changed. -/
structure State.Mid (s : State) (u : Nat) (t : State) : Prop where
  ext    : t.ext = s.ext
  crews  : t.core.crews = s.core.crews
  groups : t.core.groups = s.core.groups
  reqs   : t.core.reqs = s.core.reqs
  thread : t.thread u = s.thread u

theorem State.Charged.mid {s t : State} (h : s.Charged t) (u : Nat) : s.Mid u t := by
  have e := h.core
  exact ⟨h.ext, by rw [e], by rw [e], by rw [e], h.thread u⟩

theorem State.Mid.conflicts {s t : State} {u : Nat} (h : s.Mid u t) (l : List Nat) : t.conflicts u l = s.conflicts u l := by
  simp [State.conflicts, h.reqs]

theorem State.Mid.check {s t : State} {u : Nat} (h : s.Mid u t) (sp : Spec) : sp.check t (t.thread u) = sp.check s (s.thread u) := by
  simp [Spec.check, State.nregs, State.crew?, h.ext, h.crews, h.thread]

theorem State.Mid.mod {s t : State} {u v : Nat} (h : s.Mid u t) (f : Thread → Thread) (hf : ∀ t, (f t).uid = t.uid) (hv : u ≠ v) :
    s.Mid u (t.modThread v f) := by
  refine ⟨h.ext, h.crews, h.groups, h.reqs, ?_⟩
  rw [← h.thread]
  unfold State.thread
  rw [State.thread?_modThread t v u f hf]
  simp [hv]

section
variable {s t : State} {g : Group} {gd : Guard} {sp : Spec} {u : Nat}

theorem State.Runs.member_eq (h : s.Runs g gd sp) (hu : u ∈ s.activeIn g gd) (ht : s.Mid u t) (f : Nat → State → Flow × State) :
    sp.member f u t = f u t := by
  have hc : t.conflicts u (sp.reads (t.thread u).isCtl ++ sp.writes (t.thread u).isCtl) = [] := by
    rw [ht.conflicts, ht.thread]; exact h.clear u hu
  have hk : sp.check t (t.thread u) = none := by rw [ht.check]; exact h.checked u hu
  unfold Spec.member
  simp only [hk, Spec.lookahead_idle sp t u hc]
  cases hp : sp.primary with
  | false => simp
  | true =>
    simp only [Bool.not_true, Bool.false_eq_true, if_false]
    split
    · rfl
    · rename_i c hcr
      have : c.peer = none := h.unpaired hp u hu c (by
        simpa [State.crew?, ht.crews, ht.thread] using hcr)
      simp [this]

theorem State.Runs.inGroup (h : s.Runs g gd sp) (hg : t.core.groups = s.core.groups) (hu : u ∈ g.members) :
    t.inGroup g.core u = true := by
  have := List.mem_of_find?_eq_some h.here
  simp only [State.inGroup, hg, List.any_eq_true]
  exact ⟨g, this, by simp [hu]⟩

theorem State.mem_activeIn : u ∈ s.activeIn g gd ↔ u ∈ g.members ∧ (s.thread u).guardOk gd = true := by
  simp [State.activeIn]

theorem State.Issues.chargeIssue_eq (h : s.Issues g) : s.chargeIssue g = s.charge g.members := by
  have hr : (g.members.any fun u => (s.thread u).reissue) = false := by
    simp only [List.any_eq_false, Bool.not_eq_true]
    exact fun u hu => (h.calm.thread u hu).2.1
  simp [State.chargeIssue, h.whole, hr]

/-- One turn of the loop over a group's members. -/
def Spec.turn (sp : Spec) (act : List Nat) (g : Group) (f idle : Nat → State → Flow × State) (acc : List Nat × State) (u : Nat) :
    List Nat × State :=
  if !acc.2.inGroup g.core u then acc
  else
    let r := if !act.contains u then idle u acc.2
      else if sp.inOrder && !acc.1.isEmpty then (.stall, acc.2)
      else if acc.2.ext.placed.contains u then (.next, acc.2)
      else sp.member f u acc.2
    (if r.1 == .stall then acc.1 ++ [u] else acc.1, r.2.applyFlow u r.1)

/-- Under `Runs` an execution is the loop over the members, after the charge, and the group's end. -/
theorem State.Runs.isaAll_eq (h : s.Runs g gd sp) (hold : Hold) (f : State → Nat → State → Flow × State)
    (idle : Nat → State → Flow × State)
    (hh : hold (s.activeIn g gd) (s.charge g.members) = (s.activeIn g gd, s.charge g.members)) :
    s.isaAll gd sp hold f idle =
      let r := g.members.foldl (sp.turn (s.activeIn g gd) g (f (s.charge g.members)) idle) ([], s.charge g.members)
      (r.2.flushPushes (clusterOf g.core) (g.members.filter fun u => r.2.inGroup g.core u && !r.1.contains u)).advance g r.1 := by
  have hb : (s.activeIn g gd).any (sp.blocked s) = false := by
    simp only [List.any_eq_false, Bool.not_eq_true]
    exact fun u hu => Spec.blocked_idle sp s u (h.clear u hu)
  have ck := s.charged_charge g.members
  have hw : (s.activeIn g gd).foldl (fun s u => if (sp.check s (s.thread u)).isNone && (sp.lookahead s u).isNone then sp.window s u
      else s) (s.charge g.members) = s.charge g.members := by
    have : ∀ l : List Nat, (∀ u ∈ l, u ∈ s.activeIn g gd) →
        l.foldl (fun s u => if (sp.check s (s.thread u)).isNone && (sp.lookahead s u).isNone then sp.window s u
          else s) (s.charge g.members) = s.charge g.members := by
      intro l
      induction l with
      | nil => intro _; rfl
      | cons u l ih =>
        intro hl
        have hu := hl u (by simp)
        have hc : (s.charge g.members).conflicts u (sp.reads ((s.charge g.members).thread u).isCtl ++
            sp.writes ((s.charge g.members).thread u).isCtl) = [] := by
          rw [ck.conflicts, ck.thread]; exact h.clear u hu
        rw [List.foldl_cons, Spec.window_idle sp _ u hc, ite_self]
        exact ih fun v hv => hl v (List.mem_cons_of_mem u hv)
    exact this _ fun _ => id
  unfold State.isaAll
  simp only [h.cur, h.whole, Option.getD_none, h.encoded, Bool.not_true, Bool.false_eq_true, if_false]
  change (if (s.activeIn g gd).any (sp.blocked s) = true then s else _) = _
  rw [hb]
  simp only [Bool.false_eq_true, if_false, h.toIssues.chargeIssue_eq]
  simp only [State.activeIn] at hh hw
  simp only [Spec.queues_direct sp h.direct, hh, hw, List.contains_nil, Bool.and_not_self, Bool.or_false, Bool.and_false,
    Bool.false_eq_true, if_false]
  rfl

/-- A change of a thread's context that leaves its name and the marks of stepping, re-issue and waiting alone. -/
structure Tame (f : Thread → Thread) : Prop where
  uid      : ∀ t, (f t).uid = t.uid
  stepping : ∀ t, (f t).stepping = t.stepping
  reissue  : ∀ t, (f t).reissue = t.reissue
  mark     : ∀ t, (f t).mark = t.mark

theorem State.Calm.modThread {l : List Nat} (k : s.Calm l) (u : Nat) (f : Thread → Thread) (hf : Tame f) : (s.modThread u f).Calm l := by
  refine ⟨fun t ht hl => ?_, k.bare⟩
  obtain ⟨x, hx, rfl⟩ := List.mem_map.1 ht
  split at hl <;> rename_i e
  · rw [hf.uid] at hl
    simp only [if_pos e, hf.stepping, hf.reissue, hf.mark]
    exact k.threads x hx hl
  · simp only [if_neg e]
    exact k.threads x hx hl

theorem State.applyFlow_next (s : State) (u : Nat) (k : s.Calm [u]) : s.applyFlow u .next = s := by
  obtain ⟨h1, h2, -⟩ := k.thread u (by simp)
  simp [State.applyFlow, h1, h2, k.unpop u (by simp)]

theorem State.flushPushes_none (s : State) (c : Nat) (done : List Nat) (h : s.ext.pushes = []) (k : s.Calm done) :
    s.flushPushes c done = s := by
  have e : (s.onExt fun e => { e with pushes := [] }) = s := by
    obtain ⟨e, p, m, k, t, l⟩ := s
    cases e
    simp only at h
    simp only [State.onExt, h]
  simp [State.flushPushes, h, e, k.unpops done fun _ => id]

theorem State.thread?_onActive (s : State) (g : Group) (gd : Guard) (φ : Nat → Thread → Thread) (hφ : ∀ u t, (φ u t).uid = t.uid) (v : Nat) :
    (s.onActive g gd φ).thread? v = (s.thread? v).map fun t => if (s.activeIn g gd).contains v then φ v t else t := by
  unfold State.thread? State.onActive State.onCore
  dsimp only
  induction s.core.threads with
  | nil => rfl
  | cons t l ih =>
    rw [List.map_cons, List.find?_cons, List.find?_cons, ih]
    have : (if (s.activeIn g gd).contains t.uid then φ t.uid t else t).uid = t.uid := by split <;> simp [hφ]
    rw [this]
    cases e : t.uid == v
    · rfl
    · have : t.uid = v := by simpa using e
      subst this
      rfl

/-- The members of a list that are active have their contexts changed. -/
def State.onList (s : State) (act l : List Nat) (f : Nat → Thread → Thread) : State :=
  s.onCore fun k => { k with threads := k.threads.map fun t => if l.contains t.uid && act.contains t.uid then f t.uid t else t }

theorem State.onList_cons (s : State) (act l : List Nat) (u : Nat) (f : Nat → Thread → Thread) (hf : ∀ u, Tame (f u)) (hu : u ∉ l) :
    (if act.contains u then s.modThread u (f u) else s).onList act l f = s.onList act (u :: l) f := by
  have : ∀ t : Thread, (if l.contains (if act.contains u && t.uid == u then f u t else t).uid &&
      act.contains (if act.contains u && t.uid == u then f u t else t).uid then
        f (if act.contains u && t.uid == u then f u t else t).uid (if act.contains u && t.uid == u then f u t else t)
        else (if act.contains u && t.uid == u then f u t else t)) =
      if (u :: l).contains t.uid && act.contains t.uid then f t.uid t else t := by
    intro t
    by_cases e : t.uid = u
    · subst e
      cases ha : act.contains t.uid <;> simp_all [(hf t.uid).uid]
    · simp [e]
  cases ha : act.contains u
  · simp only [ha, Bool.false_and, Bool.false_eq_true, if_false] at this ⊢
    simp only [State.onList, this]
  · simp only [ha, Bool.true_and, if_true] at this ⊢
    simp only [State.onList, State.modThread, State.onCore, List.map_map, Function.comp_def, this]

theorem State.Runs.turns_local (h : s.Runs g gd sp) (f : Nat → State → Flow × State) (φ : Nat → Thread → Thread)
    (hφ : ∀ u, Tame (φ u)) (hf : ∀ u ∈ s.activeIn g gd, ∀ t, s.Mid u t → f u t = (.next, t.modThread u (φ u)))
    (l : List Nat) (hl : ∀ u ∈ l, u ∈ g.members) (hn : l.Nodup) (k : t.Calm g.members) (hg : t.core.groups = s.core.groups)
    (hm : ∀ u ∈ l, s.Mid u t) :
    l.foldl (sp.turn (s.activeIn g gd) g f fun _ s => (.next, s)) ([], t) = ([], t.onList (s.activeIn g gd) l φ) := by
  induction l generalizing t with
  | nil =>
    have : (t.core.threads.map fun x => if [].contains x.uid && (s.activeIn g gd).contains x.uid then φ x.uid x else x) =
        t.core.threads := by simp
    simp only [List.foldl_nil, State.onList, State.onCore, this]
  | cons u l ih =>
    obtain ⟨hu, hn⟩ := List.nodup_cons.1 hn
    have hug := hl u (by simp)
    rw [List.foldl_cons, ← State.onList_cons t _ l u φ hφ hu]
    have e : sp.turn (s.activeIn g gd) g f (fun _ s => (.next, s)) ([], t) u =
        ([], if (s.activeIn g gd).contains u then t.modThread u (φ u) else t) := by
      unfold Spec.turn
      simp only [h.inGroup hg hug, Bool.not_true, Bool.false_eq_true, if_false]
      by_cases ha : u ∈ s.activeIn g gd
      · have hb : (s.activeIn g gd).contains u = true := by simpa using ha
        simp only [hb, Bool.not_true, List.isEmpty_nil, Bool.and_false, (k.bare u hug).2, Bool.false_eq_true, if_false,
          h.member_eq ha (hm u (by simp)), hf u ha t (hm u (by simp))]
        rw [State.applyFlow_next _ u ((k.modThread u _ (hφ u)).mono (by simpa using hug))]
        rfl
      · have hb : (s.activeIn g gd).contains u = false := by simpa using ha
        simp only [hb, Bool.not_false, if_true]
        rw [State.applyFlow_next _ u (k.mono (by simpa using hug))]
        rfl
    rw [e]
    apply ih (fun v hv => hl v (List.mem_cons_of_mem u hv)) hn
    · split
      · exact k.modThread u _ (hφ u)
      · exact k
    · split
      · exact hg
      · exact hg
    · intro v hv
      have hvm := hm v (List.mem_cons_of_mem u hv)
      split
      · exact hvm.mod _ (hφ u).uid fun e => hu (e ▸ hv)
      · exact hvm

/-- An instruction whose meaning changes the context of the member it runs for, and nothing else, does that for every active
member and nothing else. -/
theorem State.Runs.isa_local (h : s.Runs g gd sp) (f : Nat → State → Flow × State) (φ : Nat → Thread → Thread)
    (hφ : ∀ u, Tame (φ u)) (hf : ∀ u ∈ s.activeIn g gd, ∀ t, s.Mid u t → f u t = (.next, t.modThread u (φ u))) :
    (s.onActive g gd φ).Like (s.isa gd sp f) ∧ s.WentOn (s.isa gd sp f) := by
  have ck := s.charged_charge g.members
  have kc : (s.charge g.members).Calm g.members := ck.like.calm _ h.calm
  unfold State.isa State.isaWith
  rw [h.isaAll_eq _ _ _ rfl, h.turns_local f φ hφ hf g.members (fun _ => id) h.distinct kc (by rw [ck.core]) fun u _ => ck.mid u]
  have e1 : ((s.charge g.members).onList (s.activeIn g gd) g.members φ).ext = s.ext := ck.ext
  have hl : (s.onActive g gd φ).Like ((s.charge g.members).onList (s.activeIn g gd) g.members φ) := by
    have ht := congrArg State.task ck.rest
    refine State.Charged.like ⟨?_, ck.fns⟩
    have : ∀ l : List Thread, (l.map fun t => if g.members.contains t.uid && (s.activeIn g gd).contains t.uid then φ t.uid t else t) =
        l.map fun t => if (s.activeIn g gd).contains t.uid then φ t.uid t else t := by
      intro l
      apply List.map_congr_left
      intro t _
      by_cases ha : t.uid ∈ s.activeIn g gd
      · have := (State.mem_activeIn.1 ha).1
        simp [ha, this]
      · simp [ha]
    simp only [State.onList, State.onActive, State.onCore, ck.core, ck.ext, ck.pkg, ck.mem, ck.plat, this] at ht ⊢
    rw [ht]
  have hg : ((s.charge g.members).onList (s.activeIn g gd) g.members φ).core.groups = s.core.groups := by
    simp only [State.onList, State.onCore, ck.core]
  have kk : (s.onActive g gd φ).Calm g.members := by
    refine ⟨fun t ht hl => ?_, h.calm.bare⟩
    obtain ⟨x, hx, rfl⟩ := List.mem_map.1 ht
    split at hl <;> rename_i e
    · rw [(hφ x.uid).uid] at hl
      simp only [if_pos e, (hφ x.uid).stepping, (hφ x.uid).reissue, (hφ x.uid).mark]
      exact h.calm.threads x hx hl
    · simp only [if_neg e]
      exact h.calm.threads x hx hl
  have hc := hl.calm _ kk
  simp only
  rw [State.flushPushes_none _ _ _ (by rw [e1]; exact h.fresh) (hc.mono fun x hx => (List.mem_filter.1 hx).1)]
  refine ⟨hl.trans (State.like_advance _ g _ fun x hx => ?_), fun x hx v hv => ?_⟩
  · rw [hg, h.here] at hx
    cases hx
    exact hc
  · obtain rfl : g = x := by have := h.cur; simp_all
    refine State.pos_advance _ g (by rw [hg]; exact h.here) hc v hv ?_
    have hs := hl.thread? v
    have : ((s.onActive g gd φ).thread? v).isSome = true := by
      have e := s.thread?_onActive g gd φ (fun u => (hφ u).uid) v
      rw [e]
      simpa using h.present v hv
    cases hq : ((s.charge g.members).onList (s.activeIn g gd) g.members φ).thread? v <;> simp_all

/-! A group of one thread. -/

theorem State.RunsAlone.active (h : s.RunsAlone g u gd sp) : s.activeIn g gd = [u] := by
  simp [State.activeIn, h.one, h.holds]

/-- The execution of an instruction by a group of one thread, from the outcome of its meaning. -/
theorem State.RunsAlone.isaAll_eq (h : s.RunsAlone g u gd sp) (hold : Hold) (f : State → Nat → State → Flow × State)
    (idle : Nat → State → Flow × State) (hh : hold [u] (s.charge [u]) = ([u], s.charge [u])) :
    s.isaAll gd sp hold f idle =
      let r := f (s.charge [u]) u (s.charge [u])
      let x := r.2.applyFlow u r.1
      let late := if r.1 == .stall then [u] else []
      (x.flushPushes (clusterOf g.core) ([u].filter fun v => x.inGroup g.core v && !late.contains v)).advance g late := by
  have ck := s.charged_charge [u]
  have hu : u ∈ s.activeIn g gd := by simp [h.active]
  rw [h.toRuns.isaAll_eq hold f idle (by rw [h.active, h.one]; exact hh), h.one, h.active]
  have hi : (s.charge [u]).inGroup g.core u = true := h.toRuns.inGroup (by rw [ck.core]) (by simp [h.one])
  have hc : [u].contains u = true := by simp
  have hb : (s.charge [u]).ext.placed.contains u = false := by rw [ck.ext]; exact (h.calm.bare u (by simp [h.one])).2
  simp only [List.foldl_cons, List.foldl_nil, Spec.turn, hi, hc, hb, Bool.not_true, List.isEmpty_nil, Bool.and_false, Bool.false_eq_true,
    if_false, h.toRuns.member_eq hu (ck.mid u), List.nil_append]

/-- The thread is in no executing group. -/
def State.Out (s : State) (u : Nat) : Prop := ∀ h ∈ s.core.groups, u ∉ h.members

theorem State.leave_out (s : State) (u : Nat) : (s.leave u).Out u := by
  intro h hm
  simp only [State.leave, State.onCore, CoreSys.ungroup, List.mem_filter, List.mem_map] at hm
  obtain ⟨⟨x, -, rfl⟩, -⟩ := hm
  simp

theorem State.advance_out (h : g.members = [u]) (l : List Nat) (k : s.Out u) : s.advance g l = s := by
  have : s.core.groups.find? (fun x => x.core == g.core && x.members.any g.members.contains) = none := by
    simp only [List.find?_eq_none, h, List.contains_eq_mem, List.mem_singleton, Bool.and_eq_true, List.any_eq_true,
      decide_eq_true_eq, not_and]
    rintro x hx - ⟨y, hy, rfl⟩
    exact k x hx hy
  simp [State.advance, this]

/-- The thread goes on after an effect that leaves the groups alone: what it did, and nothing else. -/
theorem State.RunsAlone.next_like (h : s.RunsAlone g u gd sp) (hold : Hold) (f : State → Nat → State → Flow × State)
    (idle : Nat → State → Flow × State) (hh : hold [u] (s.charge [u]) = ([u], s.charge [u])) (r : State)
    (hf : f (s.charge [u]) u (s.charge [u]) = (.next, r)) (k : r.Calm [u]) (hg : r.core.groups = s.core.groups)
    (hp : r.ext.pushes = []) (ht : (r.thread? u).isSome = true) :
    r.Like (s.isaAll gd sp hold f idle) ∧ s.WentOn (s.isaAll gd sp hold f idle) := by
  rw [h.isaAll_eq hold f idle hh, hf]
  simp only
  rw [State.applyFlow_next r u k, State.flushPushes_none r _ _ hp (k.mono fun x hx => (List.mem_filter.1 hx).1)]
  have hc : r.Calm g.members := by rw [h.one]; exact k
  refine ⟨State.like_advance r g _ fun x hx => ?_, fun x hx v hv => ?_⟩
  · rw [hg, h.here] at hx
    cases hx
    exact hc
  · obtain rfl : g = x := by have := h.cur; simp_all
    refine State.pos_advance r g (by rw [hg]; exact h.here) hc v hv ?_
    have : v = u := by rw [h.one] at hv; simpa using hv
    rw [this]; exact ht

/-- The thread has left its group: what it did, and nothing else. -/
theorem State.RunsAlone.left_eq (h : s.RunsAlone g u gd sp) (hold : Hold) (f : State → Nat → State → Flow × State)
    (idle : Nat → State → Flow × State) (hh : hold [u] (s.charge [u]) = ([u], s.charge [u])) (r : State)
    (hf : f (s.charge [u]) u (s.charge [u]) = (.left, r)) (k : r.Calm [u]) (ho : r.Out u)
    (hp : r.ext.pushes = []) : s.isaAll gd sp hold f idle = r := by
  rw [h.isaAll_eq hold f idle hh, hf]
  simp only
  have e : r.applyFlow u .left = r := by
    obtain ⟨h1, h2, -⟩ := k.thread u (by simp)
    have : r.endStep u = r := by
      unfold State.endStep
      split
      · rfl
      · rename_i t ht
        have : r.thread u = t := by simp [State.thread, ht]
        simp [← this, h1]
    have hl : (Flow.left == Flow.stall || Flow.left == Flow.left) = true := rfl
    simp only [State.applyFlow, h2, Bool.false_and, Bool.false_eq_true, if_false, hl, if_true]
    split
    · rfl
    · rfl
    · exact this
  rw [e, State.flushPushes_none r _ _ hp (k.mono fun x hx => (List.mem_filter.1 hx).1), State.advance_out h.one _ ho]

theorem State.Out.modThread (k : s.Out u) (v : Nat) (f : Thread → Thread) : (s.modThread v f).Out u := k

theorem State.endStep_calm (s : State) (u : Nat) (k : s.Calm [u]) : s.endStep u = s := by
  unfold State.endStep
  split
  · rfl
  · rename_i t ht
    have : s.thread u = t := by simp [State.thread, ht]
    simp [← this, (k.thread u (by simp)).1]

theorem State.calm_leave {l : List Nat} (k : s.Calm l) (v : Nat) : (s.leave v).Calm l := ⟨k.threads, k.bare⟩

theorem State.calm_entering {l : List Nat} (k : s.Calm l) (v : Nat) : (s.entering v).Calm l := ⟨k.threads, k.bare⟩

/-- The thread goes to another position. -/
theorem State.RunsAlone.goto_eq (h : s.RunsAlone g u gd sp) (hold : Hold) (f : State → Nat → State → Flow × State)
    (idle : Nat → State → Flow × State) (hh : hold [u] (s.charge [u]) = ([u], s.charge [u])) (r : State) (p : Pos)
    (hf : f (s.charge [u]) u (s.charge [u]) = (.goto p, r)) (k : r.Calm [u]) (hp : r.ext.pushes = []) :
    s.isaAll gd sp hold f idle = (r.leave u).postAt u p := by
  rw [h.isaAll_eq hold f idle hh, hf]
  simp only
  have k2 : ((r.leave u).postAt u p).Calm [u] := (State.like_postAt _ u p (State.calm_leave k u)).calm _ (State.calm_leave k u)
  have e : r.applyFlow u (.goto p) = (r.leave u).postAt u p := by
    have hl : (Flow.goto p == Flow.stall || Flow.goto p == Flow.left) = false := rfl
    simp only [State.applyFlow, (k.thread u (by simp)).2.1, Bool.false_and, Bool.false_eq_true, if_false, hl, k.unpop u (by simp)]
    exact State.endStep_calm _ u k2
  have ex : ((r.leave u).postAt u p).ext = r.ext := by rw [State.postAt_eq _ u p (State.calm_leave k u)]; rfl
  rw [e, State.flushPushes_none _ _ _ (by rw [ex]; exact hp) (k2.mono fun x hx => (List.mem_filter.1 hx).1), State.advance_out h.one]
  rw [State.postAt_eq _ u p (State.calm_leave k u)]
  exact (State.leave_out r u).modThread _ _

/-- The thread branches to a clause it has fetched. -/
theorem State.RunsAlone.branch_eq (h : s.RunsAlone g u gd sp) (hold : Hold) (f : State → Nat → State → Flow × State)
    (idle : Nat → State → Flow × State) (hh : hold [u] (s.charge [u]) = ([u], s.charge [u])) (r : State) (p : Pos) (ws : List Word)
    (hf : f (s.charge [u]) u (s.charge [u]) = (.branch p ws, r)) (k : r.Calm [u]) (hp : r.ext.pushes = []) :
    s.isaAll gd sp hold f idle = ((r.leave u).postAt u p).modThread u fun t =>
      { t with clause := ws, yielded := t.yielded || bitOf ((r.thread u).clause.headD 0).toNat 44 } := by
  rw [h.isaAll_eq hold f idle hh, hf]
  simp only
  have k1 := State.calm_leave k u
  let φ (t : Thread) : Thread := { t with clause := ws, yielded := t.yielded || bitOf ((r.thread u).clause.headD 0).toNat 44 }
  have k2 : (((r.leave u).postAt u p).modThread u φ).Calm [u] :=
    State.Calm.modThread (State.Like.calm (State.like_postAt _ u p k1) _ k1) u φ ⟨fun _ => rfl, fun _ => rfl, fun _ => rfl, fun _ => rfl⟩
  have e : r.applyFlow u (.branch p ws) = ((r.leave u).postAt u p).modThread u φ := by
    have hl : (Flow.branch p ws == Flow.stall || Flow.branch p ws == Flow.left) = false := rfl
    simp only [State.applyFlow, (k.thread u (by simp)).2.1, Bool.false_and, Bool.false_eq_true, if_false, hl, k.unpop u (by simp)]
    exact State.endStep_calm _ u k2
  have ex : (((r.leave u).postAt u p).modThread u φ).ext = r.ext := by
    rw [State.postAt_eq _ u p k1]; rfl
  rw [e, State.flushPushes_none _ _ _ (by rw [ex]; exact hp) (k2.mono fun x hx => (List.mem_filter.1 hx).1), State.advance_out h.one]
  rw [State.postAt_eq _ u p k1]
  exact ((State.leave_out r u).modThread _ _).modThread _ _

theorem Thread.setBank_tame (h : Bool) (b : TrapBank) : Tame fun t => t.setBank h b := by
  constructor <;> intro t <;> cases h <;> rfl

theorem State.trapEntry_eq (s : State) (u c : Nat) (v : Word) (p : Pos) (h : Bool) (hh : s.trapToH (s.thread u) c = h)
    (vec : Nat) (hv : (if h then ((s.fnAt (s.thread u).id.fn).tvechEn, (s.fnAt (s.thread u).id.fn).tvech)
      else ((s.fnAt (s.thread u).id.fn).tvecgEn, (s.fnAt (s.thread u).id.fn).tvecg)) = (true, vec))
    (hb : ((s.thread u).bank h).inh = false) (k : s.Calm [u]) :
    s.trapEntry u c v p = ((s.leave u).entering u).modThread u fun t => t.trapped h c v p vec (s.now t) := by
  unfold State.trapEntry
  simp only [hh, hv, hb, Bool.not_true, Bool.or_self, Bool.false_eq_true, if_false, State.disarm]
  rw [State.modThread_modThread _ u _ _ (by intro _; rfl), State.postAt_eq]
  · change State.modThread (State.modThread ((s.leave u).entering u) u _) u _ = _
    rw [State.modThread_modThread _ u _ _ (by intro _; cases h <;> rfl)]
    congr 1
    funext t
    cases h <;> rfl
  · exact State.calm_entering (State.Calm.modThread (State.calm_leave k u) u _
      (by constructor <;> intro t <;> cases h <;> rfl)) u

/-- The thread traps. -/
theorem State.RunsAlone.trap_eq (hr : s.RunsAlone g u gd sp) (hold : Hold) (f : State → Nat → State → Flow × State)
    (idle : Nat → State → Flow × State) (hh : hold [u] (s.charge [u]) = ([u], s.charge [u])) (r : State) (c : Nat) (v : Word)
    (after : Bool) (hf : f (s.charge [u]) u (s.charge [u]) = (.trap c v after, r)) (hc : (c == 0x0B && !(r.thread u).ct.isEmpty) = false)
    (h : Bool) (hl : r.trapToH (r.thread u) c = h)
    (vec : Nat) (hv : (if h then ((r.fnAt (r.thread u).id.fn).tvechEn, (r.fnAt (r.thread u).id.fn).tvech)
      else ((r.fnAt (r.thread u).id.fn).tvecgEn, (r.fnAt (r.thread u).id.fn).tvecg)) = (true, vec))
    (hb : ((r.thread u).bank h).inh = false) (k : r.Calm [u]) (hp : r.ext.pushes = []) :
    s.isaAll gd sp hold f idle = ((r.leave u).entering u).modThread u fun t =>
      t.trapped h c v (if after then (r.thread u).after else (r.thread u).pos) vec (r.now t) := by
  rw [hr.isaAll_eq hold f idle hh, hf]
  simp only
  have kt : (((r.leave u).entering u).modThread u fun t =>
      t.trapped h c v (if after then (r.thread u).after else (r.thread u).pos) vec (r.now t)).Calm [u] := by
    refine ⟨fun t ht hu => ?_, k.bare⟩
    obtain ⟨x, hx, rfl⟩ := List.mem_map.1 ht
    split at hu <;> rename_i ex
    · simp only [if_pos ex]
      have := k.threads x hx (by simpa using ex)
      cases h <;> exact ⟨this.1, this.2.1, rfl⟩
    · simp only [if_neg ex]
      exact k.threads x hx hu
  have e : r.applyFlow u (.trap c v after) = ((r.leave u).entering u).modThread u fun t =>
      t.trapped h c v (if after then (r.thread u).after else (r.thread u).pos) vec (r.now t) := by
    have hs : (Flow.trap c v after == Flow.stall || Flow.trap c v after == Flow.left) = false := rfl
    simp only [State.applyFlow, (k.thread u (by simp)).2.1, Bool.false_and, Bool.false_eq_true, if_false, hs, k.unpop u (by simp), State.raise, hc]
    rw [State.trapEntry_eq r u c v _ h hl vec hv hb k]
    exact State.endStep_calm _ u kt
  rw [e, State.flushPushes_none _ _ _ (by exact hp) (kt.mono fun x hx => (List.mem_filter.1 hx).1), State.advance_out hr.one]
  exact (State.leave_out r u).modThread _ _

end

end Sys2Proof.Machine
end

