-- ==== Sys2Proof/Laws/Local.lean ====
section
/-! SUPPORT. Instructions that only write the context of their thread: what the shared operand accessors and writes are in the words
of claims, and the shapes of integer instructions. -/

namespace Sys2Proof.Machine

section
variable {s t : State} {g : Group} {gd : Guard} {sp : Spec} {u : Nat}

/-! Readers look at the thread alone. -/

theorem State.Mid.readR (h : s.Mid u t) (r : RegF) : t.readR (t.thread u) r = s.readR (s.thread u) r := by
  cases r <;> simp [State.readR, h.thread, h.ext]

theorem State.Mid.src (h : s.Mid u t) (r : RegF) : t.src u r = s.src u r := by
  simp [State.src, h.readR]

theorem State.Mid.src32 (h : s.Mid u t) (r : RegF) : t.src32 u r = s.src32 u r := by
  simp [State.src32, h.src]

theorem State.Mid.src64 (h : s.Mid u t) (r : RegF) : t.src64 u r = s.src64 u r := by
  simp only [State.src64, h.thread, h.src]

theorem State.Mid.width (h : s.Mid u t) : t.width u = s.width u := by
  simp [State.width, h.thread]

theorem State.Mid.srcN (h : s.Mid u t) (r : RegF) (w : Nat) : t.srcN u r w = s.srcN u r w := by
  simp [State.srcN, h.src]

/-! Operands in bits. -/

theorem State.srcN_bits (s : State) (u : Nat) (r : RegF) (w : Nat) : s.srcN u r w = (s.bits u r w).toNat := by
  simp [State.srcN, State.src, State.bits]

theorem State.src32_bits (s : State) (u : Nat) (r : RegF) : s.src32 u r = (s.bits u r 32).toNat := by
  simp [State.src32, State.src, State.bits]

theorem pair_bits (lo hi : BitVec 64) :
    BitVec.ofNat 64 (lo.toNat % 2 ^ 32 + 2 ^ 32 * (hi.toNat % 2 ^ 32)) = hi.setWidth 32 ++ lo.setWidth 32 := by
  apply BitVec.eq_of_toNat_eq
  have h1 : lo.toNat % 2 ^ 32 < 2 ^ 32 := Nat.mod_lt _ (by decide)
  have h2 : hi.toNat % 2 ^ 32 < 2 ^ 32 := Nat.mod_lt _ (by decide)
  rw [BitVec.toNat_append, ← Nat.shiftLeft_add_eq_or_of_lt (by simpa using h1), Nat.shiftLeft_eq]
  simp only [BitVec.toNat_ofNat, BitVec.toNat_setWidth]
  omega

theorem State.src64_bits (s : State) (u : Nat) (r : RegF) : s.src64 u r = s.pairBits u r := by
  unfold State.src64 State.pairBits
  simp only [State.src, State.bits, BitVec.setWidth_eq]
  split
  · rfl
  · cases r <;> simp only
    exact pair_bits _ _

/-! Writes. -/

theorem State.wrote_tame (s : State) (u : Nat) (d : RegF) (tg : Tag) {w : Nat} (v : BitVec w) : Tame (s.wrote u d tg v) := by
  constructor <;> intro t <;> cases d <;> rfl

theorem State.wrotePair_tame (s : State) (u : Nat) (d : RegF) (v : BitVec 64) : Tame (s.wrotePair u d v) := by
  constructor <;> intro t <;> cases d <;> simp only [State.wrotePair] <;> split <;> rfl

theorem Thread.setPred_tame (p : Nat) (b : Bool) : Tame fun t => t.setPred p b := by
  constructor <;> intro t <;> simp only [Thread.setPred] <;> split <;> rfl

theorem State.wroteBool_tame (s : State) (u : Nat) (d : DestP) (b : Bool) : Tame (s.wroteBool u d b) := by
  cases d with
  | reg r => exact s.wrote_tame u r .i32 _
  | pred p => exact Thread.setPred_tame p.val b

theorem Thread.took_tame (d : RegF) (x : Reg) : Tame fun t => t.took d x := by
  constructor <;> intro t <;> cases d <;> rfl

theorem Tame.comp {f h : Thread → Thread} (hf : Tame f) (hh : Tame h) : Tame fun t => h (f t) :=
  ⟨fun t => (hh.uid _).trans (hf.uid t), fun t => (hh.stepping _).trans (hf.stepping t),
    fun t => (hh.reissue _).trans (hf.reissue t), fun t => (hh.mark _).trans (hf.mark t)⟩

theorem State.modThread_same (s : State) (u : Nat) : (s.modThread u fun t => t) = s := by
  simp [State.modThread, State.onCore]

/-- DST writes the destination register, for a field that is no queue register. -/
theorem State.Mid.dst (h : s.Mid u t) (d : RegF) (hq : isQueue d = false) (v : Word) (tg : Tag) {w : Nat} (x : BitVec w)
    (hx : x.setWidth 64 = if (s.thread u).isCtl then v else BitVec.ofNat 64 (v.toNat % 2 ^ 32)) :
    t.dst u d v tg = t.modThread u (s.wrote u d tg x) := by
  cases d with
  | gpr n =>
    have e : s.wrote u (.gpr n) tg x = fun y => y.setReg n.val (if (s.thread u).isCtl then ⟨v, .b32⟩ else
        ⟨BitVec.ofNat 64 (v.toNat % 2 ^ 32), tg⟩) := by
      funext y
      simp only [State.wrote, hx]
      split <;> rfl
    simp only [State.dst, h.thread, e]
  | que q => simp [isQueue] at hq
  | vz => exact (t.modThread_same u).symm
  | lane => exact (t.modThread_same u).symm
  | slot => exact (t.modThread_same u).symm

theorem State.Mid.dst64 (h : s.Mid u t) (d : RegF) (hq : isQueue d = false) (v : Word) :
    t.dst64 u d v .w64lo .w64hi = t.modThread u (s.wrotePair u d v) := by
  cases d with
  | gpr n =>
    have e : s.wrotePair u (.gpr n) v = fun y => if (s.thread u).isCtl then y.setReg n.val ⟨v, .b32⟩ else
        (y.setReg n.val ⟨(v.extractLsb' 0 32).setWidth 64, .w64lo⟩).setReg (n.val + 1) ⟨(v.extractLsb' 32 32).setWidth 64, .w64hi⟩ := rfl
    simp only [State.dst64, e, h.thread]
    split
    · rfl
    · have e1 : BitVec.ofNat 64 (v.toNat % 2 ^ 32) = (v.extractLsb' 0 32).setWidth 64 := by
        apply BitVec.eq_of_toNat_eq; simp [BitVec.extractLsb'_toNat]
      have e2 : BitVec.ofNat 64 (v.toNat / 2 ^ 32) = (v.extractLsb' 32 32).setWidth 64 := by
        apply BitVec.eq_of_toNat_eq
        simp [BitVec.extractLsb'_toNat, Nat.shiftRight_eq_div_pow]
        omega
      rw [e1, e2]
  | que q => simp [isQueue] at hq
  | vz => exact (t.modThread_same u).symm
  | lane => exact (t.modThread_same u).symm
  | slot => exact (t.modThread_same u).symm

theorem State.Mid.setDest (h : s.Mid u t) (d : DestP) (hq : ∀ r, d = .reg r → isQueue r = false) (b : Bool) :
    t.setDest u d b = t.modThread u (s.wroteBool u d b) := by
  cases d with
  | reg r =>
    exact h.dst r (hq r rfl) _ .i32 _ (by cases b <;> simp)
  | pred p => rfl

theorem State.copyReg_took (t : State) (u : Nat) (d : RegF) (hq : isQueue d = false) (x : Reg) :
    t.copyReg u d x = t.modThread u fun y => y.took d x := by
  cases d with
  | gpr n => rfl
  | que q => simp [isQueue] at hq
  | vz => exact (t.modThread_same u).symm
  | lane => exact (t.modThread_same u).symm
  | slot => exact (t.modThread_same u).symm

/-- A destination of an instruction with no queue registers is none. -/
theorem Spec.dst_direct (sp : Spec) (h : sp.queueDst = none) (d : RegF) (n : Nat) (hd : (d, n) ∈ sp.dsts) : isQueue d = false := by
  simp only [Spec.queueDst, List.findSome?_eq_none_iff] at h
  have := h _ hd
  cases d <;> simp_all [isQueue]

/-! Shapes of integer instructions. -/

theorem State.width_cases (s : State) (u : Nat) : (s.width u = 64 ∧ (s.thread u).isCtl = true) ∨ (s.width u = 32 ∧ (s.thread u).isCtl = false) := by
  unfold State.width
  cases (s.thread u).isCtl <;> simp

/-- A value below the width is what DST writes. -/
theorem dst_value {s : State} {u w : Nat} (hw : w = s.width u) (x : BitVec w) :
    x.setWidth 64 = if (s.thread u).isCtl then BitVec.ofNat 64 x.toNat else BitVec.ofNat 64 ((BitVec.ofNat 64 x.toNat).toNat % 2 ^ 32) := by
  apply BitVec.eq_of_toNat_eq
  have hx := x.isLt
  obtain ⟨h1, h2⟩ | ⟨h1, h2⟩ := s.width_cases u
  · rw [h1] at hw; subst hw
    simp [h2]
  · rw [h1] at hw; subst hw
    simp only [h2, BitVec.toNat_setWidth, Bool.false_eq_true, if_false, BitVec.toNat_ofNat]
    omega

theorem State.Runs.int1_gives (d a : RegF) (tg : Tag) (f : Nat → Nat → Nat) (φ : (w : Nat) → BitVec w → BitVec w)
    (hf : ∀ w, w = 32 ∨ w = 64 → ∀ x : BitVec w, f w x.toNat = (φ w x).toNat) (i : Instr)
    (h : s.Runs g gd (needs .int [a] d)) (he : exec i s = .next (s.int1 gd d a tg f)) : s.Gives1 g gd d tg a φ i := by
  refine ⟨_, he, h.isa_local _ _ (fun u => s.wrote_tame u d tg _) fun u _ t ht => ?_⟩
  have hd := Spec.dst_direct _ h.direct.2 d 1 (by simp [needs])
  have hw : s.width u = 32 ∨ s.width u = 64 := by have := s.width_cases u; omega
  simp only [ht.width, ht.srcN, State.srcN_bits, hf _ hw]
  rw [ht.dst d hd _ tg _ (dst_value rfl _)]

theorem State.Runs.int2_gives (d a b : RegF) (tg : Tag) (f : Nat → Nat → Nat → Nat) (φ : (w : Nat) → BitVec w → BitVec w → BitVec w)
    (hf : ∀ w, w = 32 ∨ w = 64 → ∀ x y : BitVec w, f w x.toNat y.toNat = (φ w x y).toNat) (i : Instr)
    (h : s.Runs g gd (needs .int [a, b] d)) (he : exec i s = .next (s.int2 gd d a b tg f)) : s.Gives2 g gd d tg a b φ i := by
  refine ⟨_, he, h.isa_local _ _ (fun u => s.wrote_tame u d tg _) fun u _ t ht => ?_⟩
  have hd := Spec.dst_direct _ h.direct.2 d 1 (by simp [needs])
  have hw : s.width u = 32 ∨ s.width u = 64 := by have := s.width_cases u; omega
  simp only [ht.width, ht.srcN, State.srcN_bits, hf _ hw]
  rw [ht.dst d hd _ tg _ (dst_value rfl _)]

theorem State.Runs.int3_gives (d a b c : RegF) (tg : Tag) (f : Nat → Nat → Nat → Nat → Nat)
    (φ : (w : Nat) → BitVec w → BitVec w → BitVec w → BitVec w)
    (hf : ∀ w, w = 32 ∨ w = 64 → ∀ x y z : BitVec w, f w x.toNat y.toNat z.toNat = (φ w x y z).toNat) (i : Instr)
    (h : s.Runs g gd (needs .int [a, b, c] d)) (he : exec i s = .next (s.int3 gd d a b c tg f)) :
    s.Gives3 g gd d tg a b c φ i := by
  refine ⟨_, he, h.isa_local _ _ (fun u => s.wrote_tame u d tg _) fun u _ t ht => ?_⟩
  have hd := Spec.dst_direct _ h.direct.2 d 1 (by simp [needs])
  have hw : s.width u = 32 ∨ s.width u = 64 := by have := s.width_cases u; omega
  simp only [ht.width, ht.srcN, State.srcN_bits, hf _ hw]
  rw [ht.dst d hd _ tg _ (dst_value rfl _)]

theorem State.Runs.intImm_gives (d a : RegF) (x : ImmX) (imm : Half) (tg : Tag) (f : Nat → Nat → Nat → Nat)
    (φ : (w : Nat) → BitVec w → BitVec w)
    (hf : ∀ w, w = 32 ∨ w = 64 → ∀ y : BitVec w, f w y.toNat (immV w x imm) = (φ w y).toNat) (i : Instr)
    (h : s.Runs g gd { needs .int [a] d with simt := x != .hi }) (he : exec i s = .next (s.intImm gd d a x imm tg f)) :
    s.Gives1 g gd d tg a φ i := by
  refine ⟨_, he, h.isa_local _ _ (fun u => s.wrote_tame u d tg _) fun u _ t ht => ?_⟩
  have hd := Spec.dst_direct _ h.direct.2 d 1 (by simp [needs])
  have hw : s.width u = 32 ∨ s.width u = 64 := by have := s.width_cases u; omega
  simp only [ht.width, ht.srcN, State.srcN_bits, hf _ hw]
  rw [ht.dst d hd _ tg _ (dst_value rfl _)]

end

end Sys2Proof.Machine
end

