-- ==== Sys2Proof/Laws/Memory.lean ====
section
/-! SUPPORT. Memory keeps its canonical form: every operation that writes its bytes, the remap filter with its write-backs among
them; and a byte stored is the byte memory then holds, no other changed. -/

namespace Sys2Proof.Machine

/-- Memory is empty at reset, so its form is canonical. -/
theorem Memory.reset_wf : Memory.wf State.reset.mem = true := rfl

/-! Operations that leave the bytes of memory alone. -/

@[simp] theorem MemSys.record_bytes (m : MemSys) (w : Wr) (pa : Nat) (bs : List Byte) : (m.record w pa bs).bytes = m.bytes := by
  induction bs generalizing m pa with
  | nil => rfl
  | cons b bs ih => rw [MemSys.record, ih]

@[simp] theorem MemSys.markPoison_bytes (m : MemSys) (pa n : Nat) (p : Bool) : (m.markPoison pa n p).bytes = m.bytes := by
  unfold MemSys.markPoison
  split <;> rfl

/-! Operations that write them. -/

theorem Memory.wf_store {m : MemSys} (pa : Nat) (bs : List Byte) (h : Memory.wf m = true) : Memory.wf (m.store pa bs) = true := by
  induction bs generalizing m pa with
  | nil => exact h
  | cons b bs ih => exact ih (pa + 1) (Map.canon_setD memDefault pa b h)

theorem Map.canon_foldl_setD (f : Nat × Byte → Nat) (d : Map Byte) {b : Map Byte} (h : b.canon memDefault = true) :
    (d.foldl (fun b e => b.setD memDefault (f e) e.2) b).canon memDefault = true := by
  induction d generalizing b with
  | nil => exact h
  | cons e d ih => exact ih (Map.canon_setD memDefault (f e) e.2 h)

theorem Memory.wf_writeBack {m : MemSys} (l : L2Line) (h : Memory.wf m = true) : Memory.wf (m.writeBack l) = true :=
  Map.canon_foldl_setD (fun e => l.pline * 128 + e.1) l.dirty h

/-- An operation that leaves the bytes of memory alone keeps its form. -/
theorem Memory.wf_bytes {m n : MemSys} (e : n.bytes = m.bytes) (h : Memory.wf m = true) : Memory.wf n = true := by
  simpa [Memory.wf, e] using h

/-- A loop of operations that keep the form keeps it. -/
theorem Memory.wf_foldl {α : Type} {f : MemSys → α → MemSys} (hf : ∀ m k, Memory.wf m = true → Memory.wf (f m k) = true) (l : List α)
    {m : MemSys} (h : Memory.wf m = true) : Memory.wf (l.foldl f m) = true := by
  induction l generalizing m with
  | nil => exact h
  | cons a l ih => exact ih (hf m a h)

theorem Memory.wf_writeBacks {m : MemSys} (l : List L2Line) (h : Memory.wf m = true) : Memory.wf (l.foldl MemSys.writeBack m) = true :=
  Memory.wf_foldl (fun _ k hm => Memory.wf_writeBack k hm) l h

theorem Memory.wf_filterRead {m : MemSys} (pl : Nat) (h : Memory.wf m = true) : Memory.wf (m.filterRead pl) = true :=
  Memory.wf_writeBacks _ h

theorem Memory.wf_filterWrite {m : MemSys} (pl : Nat) (h : Memory.wf m = true) : Memory.wf (m.filterWrite pl) = true :=
  Memory.wf_filterRead pl h

theorem Memory.wf_dropOthers {m : MemSys} (sp : Space) (vl pl : Nat) (h : Memory.wf m = true) : Memory.wf (m.dropOthers sp vl pl) = true :=
  Memory.wf_writeBacks _ h

theorem Memory.wf_dropOld {m : MemSys} (sp : Space) (vl pl : Nat) (h : Memory.wf m = true) : Memory.wf (m.dropOld sp vl pl) = true := by
  unfold MemSys.dropOld
  split
  · exact h
  · show (MemSys.bytes _).canon memDefault = true
    dsimp only
    split
    · exact Memory.wf_writeBack _ h
    · exact h

theorem Memory.wf_nameLine {m : MemSys} (home : Nat × Nat) (sp : Space) (vl pl ep : Nat) (a : Attr) (wr : Bool) (d : Map Byte)
    (set : Bool) (h : Memory.wf m = true) : Memory.wf (m.nameLine home sp vl pl ep a wr d set) = true := by
  unfold MemSys.nameLine
  dsimp only
  split <;> exact Memory.wf_dropOld sp vl pl h

theorem Memory.wf_fill {m : MemSys} (home : Nat × Nat) (sp : Space) (vl pl ep : Nat) (a : Attr) (set : Bool) (h : Memory.wf m = true) :
    Memory.wf (m.fill home sp vl pl ep a set) = true := by
  unfold MemSys.fill
  dsimp only
  split
  · exact h
  · apply Memory.wf_nameLine
    split <;> split <;> try split
    all_goals first | exact h | exact Memory.wf_writeBack _ h

/-! Reads and writes of a state. -/

@[simp] theorem State.fire_mem (s : State) (pl : Nat) : (s.fire pl).mem = s.mem := rfl

theorem State.fires_mem (l : List Nat) (s : State) : (l.foldl State.fire s).mem = s.mem := by
  induction l generalizing s with
  | nil => rfl
  | cons a l ih => rw [List.foldl_cons, ih, State.fire_mem]

theorem State.wf_physStore {s : State} (w : Wr) (pa : Nat) (bs : List Byte) (h : Memory.wf s.mem = true) :
    Memory.wf (s.physStore w pa bs).mem = true := by
  unfold State.physStore
  have key : ∀ m : MemSys, Memory.wf m = true →
      Memory.wf (({ m.record { w with seq := m.seq } pa bs with seq := (m.record { w with seq := m.seq } pa bs).seq + 1 } : MemSys).store pa bs |>.markPoison pa bs.length false) = true := by
    intro m hm
    have h1 : Memory.wf ({ m.record { w with seq := m.seq } pa bs with seq := (m.record { w with seq := m.seq } pa bs).seq + 1 } : MemSys) = true := by
      simpa [Memory.wf] using hm
    simpa [Memory.wf] using Memory.wf_store pa bs h1
  split
  · exact key _ (Memory.wf_foldl (fun m k hm => Memory.wf_filterWrite k hm) _ h)
  · rw [State.fires_mem]
    exact key _ (Memory.wf_foldl (fun m k hm => Memory.wf_filterWrite k hm) _ h)

theorem State.wf_physPut {s : State} (w : Wr) (pa : Nat) (bs : List Byte) (h : Memory.wf s.mem = true) :
    Memory.wf (s.physPut w pa bs).mem = true := by
  unfold State.physPut
  split <;> exact State.wf_physStore _ _ _ h

theorem State.wf_physPoison {s : State} (w : Wr) (pa : Nat) (bs : List Byte) (p : Bool) (h : Memory.wf s.mem = true) :
    Memory.wf (s.physPoison w pa bs p).mem = true := by
  unfold State.physPoison
  dsimp only
  split
  · exact Memory.wf_bytes (MemSys.markPoison_bytes _ _ _ _) (State.wf_physPut w pa bs h)
  · exact State.wf_physPut w pa bs h

/-- A write that waits at its controller leaves memory as it is. -/
theorem State.wf_physWrite {s : State} (w : Wr) (pa : Nat) (bs : List Byte) (p : Bool) (h : Memory.wf s.mem = true) :
    Memory.wf (s.physWrite w pa bs p).mem = true := by
  unfold State.physWrite
  split
  · exact h
  · exact State.wf_physPoison w pa bs p h

theorem State.wf_physRead {s : State} (pa n : Nat) (h : Memory.wf s.mem = true) : Memory.wf (s.physRead pa n).2.mem = true :=
  Memory.wf_foldl (fun _ k hm => Memory.wf_filterRead k hm) _ h

/-! Trace records and writes at a home. -/

theorem State.wf_traceRec {s : State} (fn : Nat) (ltid : Word) (va pc : Nat) (old new : List Byte) (die kind : Nat)
    (h : Memory.wf s.mem = true) : Memory.wf (s.traceRec fn ltid va pc old new die kind).mem = true := by
  unfold State.traceRec
  dsimp only
  split
  · exact h
  · split
    · exact h
    · rw [State.modFn_mem]
      exact State.wf_physWrite _ _ _ _ h

theorem State.wf_foldl {α : Type} {f : State → α → State} (hf : ∀ s x, Memory.wf s.mem = true → Memory.wf (f s x).mem = true) (l : List α)
    {s : State} (h : Memory.wf s.mem = true) : Memory.wf (l.foldl f s).mem = true := by
  induction l generalizing s with
  | nil => exact h
  | cons a l ih => exact ih (hf s a h)

theorem State.wf_traceNames (s0 : State) {s : State} (pl kind : Nat) (skip : Option (Space × Nat)) (h : Memory.wf s.mem = true) :
    Memory.wf (s0.traceNames s pl kind skip).mem = true := by
  refine State.wf_foldl (fun s l hs => ?_) _ h
  dsimp only
  split
  · exact hs
  · split
    · exact hs
    · refine State.wf_foldl (fun s x hx => ?_) _ hs
      split
      · exact State.wf_traceRec _ _ _ _ _ _ _ _ hx
      · exact hx

theorem State.wf_traceWrite {s : State} (ag : Agent) (ltid : Word) (sc kind : Nat) (pc : Pos) (va : Nat) (old new : List Byte)
    (die : Nat) (h : Memory.wf s.mem = true) : Memory.wf (s.traceWrite ag ltid sc kind pc va old new die).mem = true := by
  unfold State.traceWrite
  dsimp only
  split
  · exact h
  · refine State.wf_foldl (fun s k hs => ?_) _ h
    split
    · exact State.wf_traceRec _ _ _ _ _ _ _ _ hs
    · exact hs

/-! Room in a slice and in the remap filter. -/

@[simp] theorem State.evictHalf_mem (s : State) (half : Nat) : (s.evictHalf half).mem = s.mem := by
  unfold State.evictHalf
  dsimp only
  split
  · rfl
  · split
    · rfl
    · split <;> rfl

theorem State.wf_evictLine {s : State} (v : L2Line) (h : Memory.wf s.mem = true) : Memory.wf (s.evictLine v).mem = true := by
  unfold State.evictLine
  have hw := Memory.wf_writeBack v h
  cases hv : v.wr <;> simp only [Bool.false_eq_true, if_false, if_true] <;> split <;> try simp only [State.evictHalf_mem]
  · exact h
  · exact h
  · exact hw
  · exact hw

theorem State.wf_remapRoom {s : State} (pl : Nat) (h : Memory.wf s.mem = true) : Memory.wf (s.remapRoom pl).mem = true := by
  unfold State.remapRoom
  split
  · exact h
  · dsimp only
    split
    · exact h
    · split
      · exact h
      · exact State.wf_traceNames _ _ _ _ (Memory.wf_filterWrite _ h)

theorem State.wf_makeRoom {s : State} (home : Nat × Nat) (sp : Space) (vl pl : Nat) (h : Memory.wf s.mem = true) :
    Memory.wf (s.makeRoom home sp vl pl).mem = true := by
  have h1 := State.wf_remapRoom pl h
  unfold State.makeRoom
  dsimp only
  split
  · exact h1
  · split
    · exact h1
    · exact State.wf_evictLine _ h1

theorem State.wf_fillTraced {s : State} (home : Nat × Nat) (sp : Space) (vl pl ep : Nat) (a : Attr) (set : Bool) (h : Memory.wf s.mem = true) :
    Memory.wf (s.fillTraced home sp vl pl ep a set).mem = true :=
  State.wf_traceNames s pl 5 _ (Memory.wf_fill home sp vl pl ep a set (State.wf_makeRoom home sp vl pl h))

theorem State.wf_readNames {s : State} (ag : Agent) (home : Nat × Nat) (va pa : Nat) (a : Attr) (na : Bool) (h : Memory.wf s.mem = true) :
    Memory.wf (s.readNames ag home va pa a na).mem = true := by
  unfold State.readNames
  split
  · exact State.wf_fillTraced _ _ _ _ _ _ _ h
  · exact State.wf_traceNames _ _ _ _ (Memory.wf_filterRead _ h)

theorem State.wf_homeWrite {s : State} (w : Wr) (sp : Space) (home : Nat × Nat) (va pa : Nat) (a : Attr) (na : Bool) (bs : List Byte)
    (p : Bool) (h : Memory.wf s.mem = true) : Memory.wf (s.homeWrite w sp home va pa a na bs p).mem = true := by
  unfold State.homeWrite
  dsimp only
  rw [State.fire_mem]
  apply State.wf_traceNames
  show Memory.wf (MemSys.markPoison _ _ _ _) = true
  have h0 : Memory.wf (if a.allocL2 then s.makeRoom home sp (va / 128) (pa / 128) else s).mem = true := by
    split
    · exact State.wf_makeRoom _ _ _ _ h
    · exact h
  generalize (if a.allocL2 then s.makeRoom home sp (va / 128) (pa / 128) else s) = r at h0 ⊢
  have h1 : Memory.wf (r.mem.record w pa bs) = true := by simpa [Memory.wf] using h0
  have h2 := Memory.wf_dropOthers sp (va / 128) (pa / 128) h1
  have h3 := Memory.wf_store pa bs (Memory.wf_filterRead (pa / 128) h2)
  apply Memory.wf_bytes (MemSys.markPoison_bytes _ _ _ _)
  split
  · exact Memory.wf_nameLine _ _ _ _ _ _ _ _ _ h2
  · split
    · exact Memory.wf_nameLine _ _ _ _ _ _ _ _ _ h3
    · exact h3

/-! A byte stored is the byte memory holds. -/

/-- A word that the device writes at a home keeps the form. -/
theorem State.wf_homeWord {s : State} (thr fn core : Nat) (sp : Space) (w : Wr) (va pa : Nat) (sc : Scope) (bs : List Byte)
    (h : Memory.wf s.mem = true) : Memory.wf (s.homeWord thr fn core sp w va pa sc bs).mem = true := by
  unfold State.homeWord
  refine State.wf_traceWrite _ _ _ _ _ _ _ _ _ ?_
  exact Memory.wf_bytes (n := (State.noteStrong _ _ pa bs.length).mem) rfl (State.wf_physStore _ pa bs h)

theorem State.wf_setCounter {s : State} (thr core : Nat) (c : Counter) (pubs : List Nat) (v : Nat) (h : Memory.wf s.mem = true) :
    Memory.wf (s.setCounter thr core c pubs v).mem = true := State.wf_homeWord _ _ _ _ _ _ _ _ _ h

/-- Stores of a domain are no bytes of memory. -/
theorem State.wf_modDom {s : State} (k : DomKey) (f : Domain → Domain) (h : Memory.wf s.mem = true) :
    Memory.wf (s.modDom k f).mem = true := by
  refine Memory.wf_bytes ?_ h
  unfold State.modDom State.onMem
  dsimp only
  split <;> rfl

theorem freeBytes_mem (n : Nat) (s : State) : (freeBytes n s).2.mem = s.mem := by
  induction n generalizing s with
  | zero => rfl
  | succ n ih => simp only [freeBytes, ih, choose_mem]

theorem Memory.wf_storeHist {m : MemSys} (pa : Nat) (bs : List Byte) (x : Map (List (Byte × Wr))) (h : Memory.wf m = true) :
    Memory.wf { m.store pa bs with hist := x } = true := Memory.wf_bytes rfl (Memory.wf_store pa bs h)

/-- A miscorrected block is stored as any bytes are (R43). -/
theorem State.wf_miscorrect {s : State} (b : Nat) (h : Memory.wf s.mem = true) : Memory.wf (s.miscorrect b).mem = true := by
  rw [← freeBytes_mem 64] at h
  unfold State.miscorrect
  generalize freeBytes 64 s = p at h ⊢
  obtain ⟨bs, s'⟩ := p
  exact Memory.wf_storeHist _ _ _ h

theorem MemSys.store_getD {m : MemSys} (pa : Nat) (bs : List Byte) (a : Nat) (h : Memory.wf m = true) :
    (m.store pa bs).bytes.getD memDefault a = if pa ≤ a then bs.getD (a - pa) (m.bytes.getD memDefault a) else m.bytes.getD memDefault a := by
  induction bs generalizing m pa with
  | nil => simp [MemSys.store]
  | cons b bs ih =>
    have hs : m.bytes.sorted = true := (Bool.and_eq_true_iff.1 h).1
    have h1 : Memory.wf { m with bytes := m.bytes.setD memDefault pa b } = true := Map.canon_setD memDefault pa b h
    rw [MemSys.store, ih (pa + 1) h1, Map.getD_setD memDefault hs]
    by_cases h0 : pa = a
    · subst h0; simp [show ¬ pa + 1 ≤ pa by omega]
    · by_cases h2 : pa + 1 ≤ a
      · have : a - pa = (a - (pa + 1)) + 1 := by omega
        simp [h0, h2, show pa ≤ a by omega, this]
      · simp [h0, h2, show ¬ pa ≤ a by omega]

end Sys2Proof.Machine
end

