-- ==== Sys2Proof/Tests/Slice0.lean ====
section
/-! SUPPORT. Tests: words written out from the encodings of the spec decode to their instructions, ill-formed terms and words are
refused, results that the spec works out, and for the hypotheses of each obligation a concrete state that meets them. -/

namespace Sys2Proof.Machine

/-- Memory with words at addresses, little-endian. -/
def wordsAt (l : List (Nat × Word)) : Map Byte :=
  l.foldl (fun m e => ((rangeFrom e.1 8).zip (bytesLE 8 e.2.toNat)).foldl (fun m b => m.setD memDefault b.1 b.2) m) []

/-- A state with words in memory. -/
def State.withWords (s : State) (l : List (Nat × Word)) : State := s.onMem fun m => { m with bytes := wordsAt l }

/-- A state with a counter registered at 0x4000, of handle 2^18. -/
def State.withCounter (s : State) : State := s.onTask fun k => { k with counters := [(0, ⟨1, true, 0, 0, 0x4000, 0x4000, []⟩)] }

/-- A state with a record for function 0. -/
def State.withFn (s : State) (f : Fn) : State := s.onTask fun k => { k with fns := [(0, f)] }

end Sys2Proof.Machine

namespace Sys2Proof.Machine.Tests

/-! States and checks that the tests share. -/

def v (n : Fin 224) : RegF := .gpr n
def p7 : Guard := ⟨false, 7⟩

/-- The group of thread 1 alone, at (0x1000, 0) of a clause of one word. -/
def one (core : Nat) : Group := ⟨core, .h, ⟨0x1000, 0⟩, [oneHeader core, 0], [1], none⟩

/-- One thread of one crew, as `place1` leaves them, changed by f, in the group that executes. -/
def lone (core : Nat) (f : Thread → Thread) : State where
  ext := { Ext.reset with cur := some (one core) }
  pkg := Pkg.reset
  mem := MemSys.reset
  core := { CoreSys.reset with
    threads := [f (placedThread core (one core).clause)]
    groups := [one core]
    crews := [placedCrew core]
    cores := [(core, { Core.reset with active := some 1 })]
    nextThr := 2
    nextCrew := 2
    nextCtx := 2 }
  task := TaskSys.reset
  plat := Plat.reset

/-- The thread in its H handler: its addresses are physical. -/
def inH (t : Thread) : Thread := { t with bankH := { t.bankH with inh := true } }

/-- The thread with registers. -/
def holding (l : Map Reg) (t : Thread) : Thread := { t with regs := l }

def issuesB (s : State) (g : Group) : Bool :=
  decide (s.ext.cur = some g) && decide (s.core.groups.find? (fun h => h.core == g.core && h.members.any g.members.contains) = some g) &&
  decide (g.todo = none) && decide g.members.Nodup && decide (s.ext.pushes = []) &&
  (g.members.all fun u => decide (s.ext.pops.find u = none) && !s.ext.placed.contains u) &&
  (s.core.threads.all fun t => !g.members.contains t.uid || (!t.stepping && !t.reissue && decide (t.mark = none) && decide (t.run = .grouped))) &&
  g.members.all fun u => (s.thread? u).isSome

def passesB (s : State) (g : Group) (gd : Guard) (sp : Spec) : Bool :=
  issuesB s g && sp.encodingOk (isCtl g.core) (g.clause.length - 2) g.pos.i &&
  ((s.activeIn g gd).all fun u =>
    decide (s.conflicts u (sp.reads (s.thread u).isCtl ++ sp.writes (s.thread u).isCtl) = []) && decide (sp.check s (s.thread u) = none) &&
    (!sp.primary || match s.crew? (s.thread u).id.crew with
      | some c => decide (c.peer = none)
      | none => true))

def runsB (s : State) (g : Group) (gd : Guard) (sp : Spec) : Bool :=
  passesB s g gd sp && decide (sp.queueSrc = none) && decide (sp.queueDst = none)

/-- The group of thread 1 alone executes an instruction with these demands. -/
def runs1 (s : State) (sp : Spec) : Bool :=
  runsB s (one (s.thread 1).id.core) p7 sp && (s.thread 1).guardOk p7

theorem issues_of {s : State} {g : Group} (h : issuesB s g = true) : s.Issues g := by
  simp only [issuesB, Bool.and_eq_true, decide_eq_true_eq, List.all_eq_true, Bool.or_eq_true, Bool.not_eq_true'] at h
  obtain ⟨⟨⟨⟨⟨⟨⟨a, b⟩, c⟩, d⟩, e⟩, f⟩, k⟩, l⟩ := h
  have m : ∀ u, u ∈ g.members → ¬g.members.contains u = false := fun u hu hc => by simp [hu] at hc
  refine ⟨a, b, c, d, e, ⟨fun t ht hm => ?_, f⟩, fun t ht hm => ?_, l⟩
  all_goals
    rcases k t ht with h | h
    · exact absurd h (m _ hm)
  · exact ⟨h.1.1.1, h.1.1.2, h.1.2⟩
  · exact h.2

theorem passes_of {s : State} {g : Group} {gd : Guard} {sp : Spec} (h : passesB s g gd sp = true) : s.Passes g gd sp := by
  simp only [passesB, Bool.and_eq_true, decide_eq_true_eq, List.all_eq_true, Bool.or_eq_true, Bool.not_eq_true'] at h
  obtain ⟨⟨a, b⟩, c⟩ := h
  refine ⟨issues_of a, b, fun u hu => (c u hu).1.1, fun u hu => (c u hu).1.2, fun hp u hu k hk => ?_⟩
  have := (c u hu).2
  simpa [hp, hk] using this

theorem runs_of {s : State} {g : Group} {gd : Guard} {sp : Spec} (h : runsB s g gd sp = true) : s.Runs g gd sp := by
  simp only [runsB, Bool.and_eq_true, decide_eq_true_eq] at h
  exact ⟨passes_of h.1.1, h.1.2, h.2⟩

theorem alone_of {s : State} {sp : Spec} (h : runs1 s sp = true) : s.RunsAlone (one (s.thread 1).id.core) 1 p7 sp := by
  simp only [runs1, Bool.and_eq_true] at h
  exact ⟨runs_of h.1, rfl, h.2⟩

/-- Group 1 executes each of a list of demands. -/
theorem runsAll_of {s : State} {g : Group} {gd : Guard} {l : List Spec} (h : l.all (runsB s g gd) = true) : ∀ sp ∈ l, s.Runs g gd sp :=
  fun sp hs => runs_of (List.all_eq_true.1 h sp hs)

theorem aloneAll_of {s : State} {l : List Spec} (h : l.all (runs1 s) = true) :
    ∀ sp ∈ l, s.RunsAlone (one (s.thread 1).id.core) 1 p7 sp :=
  fun sp hs => alone_of (List.all_eq_true.1 h sp hs)

/-- A pair whose first part is known. -/
theorem got {α : Type} {x : α × State} {a : α} {p : State → Prop} (h : x.1 = a) (hp : p x.2) : ∃ r, x = (a, r) ∧ p r :=
  ⟨x.2, Prod.ext h rfl, hp⟩

/-- An operand that holds 1.0 in each format, by register. -/
def ones : Map Reg := [(2, ⟨0x3F800000, .f32⟩), (3, ⟨0x40000000, .f32⟩), (4, ⟨0x3C003C00, .f16x2⟩), (6, ⟨0x3F803F80, .bf16x2⟩), (8, ⟨0x38383838, .e4m3x4⟩),
  (9, ⟨0x3C3C3C3C, .e5m2x4⟩), (10, ⟨0, .w64lo⟩), (11, ⟨0x3FF00000, .w64hi⟩), (12, ⟨0x00010001, .s10x3⟩), (13, ⟨7, .i32⟩)]

def floats : State := lone 0 (holding ones)

def okWith {ε α : Type} (x : Except ε α × State) (q : α → State → Bool) : Bool :=
  match x.1 with
  | .ok a => q a x.2
  | .error _ => false

/-- A pair whose first part is some answer, with what holds of both. -/
theorem ok_of {ε α : Type} {x : Except ε α × State} {P : α → State → Prop} (q : α → State → Bool) (hq : ∀ a r, q a r = true → P a r)
    (h : okWith x q = true) : ∃ a r, x = (.ok a, r) ∧ P a r := by
  obtain ⟨y, r⟩ := x
  cases y with
  | ok a => exact ⟨a, r, rfl, hq a r h⟩
  | error e => simp [okWith] at h

def steadyB (s : State) (u : Nat) (r : State) : Bool :=
  (r.thread? u).isSome && decide (r.core.groups = s.core.groups) &&
  (r.core.threads.all fun t => t.uid != u || (!t.stepping && !t.reissue && decide (t.mark = none))) &&
  decide (r.ext.pushes = []) && (decide (r.ext.pops.find u = none) && !r.ext.placed.contains u) && decide ((r.thread u).id = (s.thread u).id) &&
  decide ((r.thread u).regs = (s.thread u).regs) && decide ((r.thread u).pos = (s.thread u).pos)

theorem steady_of {s r : State} {u : Nat} (h : steadyB s u r = true) : s.Steady u r := by
  simp only [steadyB, Bool.and_eq_true, decide_eq_true_eq, List.all_eq_true, Bool.or_eq_true, Bool.not_eq_true', bne_iff_ne] at h
  obtain ⟨⟨⟨⟨⟨⟨⟨i, a⟩, b⟩, c⟩, d⟩, e⟩, f⟩, g⟩ := h
  refine ⟨i, a, ⟨fun t ht hm => ?_, fun w hw => (show w = u by simpa using hw) ▸ d⟩, c, ⟨e, f, g⟩⟩
  rcases b t ht with hb | hb
  · exact absurd (by simpa using hm) hb
  · exact ⟨hb.1.1, hb.1.2, hb.2⟩

theorem fst_snd {α β : Type} {x : α × β} {a : α} (h : x.1 = a) : x = (a, x.2) := Prod.ext h rfl

/-! Words. -/

/-- Every word of a list decodes to the instruction beside it, as the host numbers the bits. -/
def reads (l : List (Nat × Instr)) : Bool := l.all fun e => decide (decodeTableWord 64 e.1 = some e.2)

theorem test_decode_integer : reads [
    (0x041C004080FC0030, .iadd p7 (v 1) (v 2) (v 3) true true),
    (0x046801017C3C0000, .isub ⟨true, 2⟩ (v 4) (v 5) .vz false false),
    (0x049C01C2027C0000, .imul p7 (v 7) (v 8) (v 9)),
    (0x04DC0282C33C0020, .imulh p7 (v 10) (v 11) (v 12) true),
    (0x051C014181C20010, .imad p7 (v 5) (v 6) (v 7) (v 8) false true),
    (0x055C0383C4048020, .imadw p7 (v 14) (v 15) (v 16) (v 18) true),
    (0x059C80C1017C0020, .idiv p7 2 (v 3) (v 4) (v 5) true),
    (0x05DC450545BC0000, .irem p7 1 (v 20) (v 21) (v 22) false),
    (0x061C05C6067C0000, .imin p7 (v 23) (v 24) (v 25) false),
    (0x065C0686C73C0020, .imax p7 (v 26) (v 27) (v 28) true),
    (0x069C0747BC3C0010, .iabs p7 (v 29) (v 30) true),
    (0x06DC008101BC0025, .lea p7 (v 2) (v 4) (v 6) 5 true)] = true := by decide

theorem test_decode_bitwise : reads [
    (0x081C004080FC0000, .and p7 (v 1) (v 2) (v 3)),
    (0x085C007C7CBC0000, .or p7 (v 1) .lane .slot),
    (0x089C390080FC0000, .xor p7 (.que 4) (v 2) (v 3)),
    (0x08DC0040B7FC0000, .andn p7 (v 1) (v 2) (v 223)),
    (0x091C004080FC0000, .shl p7 (v 1) (v 2) (v 3)),
    (0x095C010141BC0000, .shr p7 (v 4) (v 5) (v 6)),
    (0x099C01C2027C0000, .sar p7 (v 7) (v 8) (v 9)),
    (0x09DC0282C33C0000, .rotr p7 (v 10) (v 11) (v 12)),
    (0x0A1C034383FC0020, .bfx p7 (v 13) (v 14) (v 15) true),
    (0x0A5C04044484C000, .bfi p7 (v 16) (v 17) (v 18) (v 19)),
    (0x0A9C05057C3C0000, .popc p7 (v 20) (v 21)),
    (0x0ADC0585FC3C0000, .clz p7 (v 22) (v 23)),
    (0x0B1C06067C3C0000, .ctz p7 (v 24) (v 25)),
    (0x0B5C0686FC3C0000, .brev p7 (v 26) (v 27)),
    (0x0B9C07074787C000, .perm p7 (v 28) (v 29) (v 30) (v 31))] = true := by decide

theorem test_decode_compare : reads [
    (0x0C1C014040BC34A0, .iset p7 (.pred 5) (v 1) (v 2) .ge false true),
    (0x0C1C014040BC04C0, .iset p7 (.reg (v 5)) (v 1) (v 2) .ne true false),
    (0x0C5C004080C10001, .isel p7 (v 1) (v 2) (v 3) 4 true),
    (0x0C9C008101BC0000, .iadd64 p7 (v 2) (v 4) (v 6)),
    (0x0CDC008101BC0000, .isub64 p7 (v 2) (v 4) (v 6)),
    (0x0D1C0202833C08E0, .iset64 p7 (.reg (v 8)) (v 10) (v 12) .lt true),
    (0x0D5C008101FC0000, .shl64 p7 (v 2) (v 4) (v 7)),
    (0x0D9C008101FC0000, .shr64 p7 (v 2) (v 4) (v 7)),
    (0x0DDC008101FC0000, .sar64 p7 (v 2) (v 4) (v 7)),
    (0x0E1C008101BC0000, .imul64 p7 (v 2) (v 4) (v 6)),
    (0x101C00813C3C0001, .mov p7 (v 2) (v 4) true),
    (0x105C0FC200010000, .movi p7 (v 3) .hi 0x00010000),
    (0x181C004080C10096, .plog p7 1 2 3 4 0x96),
    (0x185C027C3C3C0000, .pmovGet p7 (v 9)),
    (0x185C3C027C3C008B, .pmovSet p7 (v 9) 0x45)] = true := by decide

theorem test_decode_immediate : reads [
    (0x141C0408FFFFFFFF, .iaddImm p7 (v 1) (v 2) .zext 0xffffffff),
    (0x145C080DFFFFFFFE, .isubImm p7 (v 2) (v 3) .sext 0xfffffffe),
    (0x149C0C10FFFFFFFD, .imulImm p7 (v 3) (v 4) .zext 0xfffffffd),
    (0x14DC1015FFFFFFFC, .andImm p7 (v 4) (v 5) .sext 0xfffffffc),
    (0x151C1418FFFFFFFB, .orImm p7 (v 5) (v 6) .zext 0xfffffffb),
    (0x155C181DFFFFFFFA, .xorImm p7 (v 6) (v 7) .sext 0xfffffffa),
    (0x159C1C20FFFFFFF9, .andnImm p7 (v 7) (v 8) .zext 0xfffffff9),
    (0x15DC2025FFFFFFF8, .shlImm p7 (v 8) (v 9) .sext 0xfffffff8),
    (0x161C2428FFFFFFF7, .shrImm p7 (v 9) (v 10) .zext 0xfffffff7),
    (0x165C282DFFFFFFF6, .sarImm p7 (v 10) (v 11) .sext 0xfffffff6),
    (0x169C2C30FFFFFFF5, .rotrImm p7 (v 11) (v 12) .zext 0xfffffff5),
    (0x16DC3035FFFFFFF4, .iminImm p7 (v 12) (v 13) .sext 0xfffffff4),
    (0x171C3438FFFFFFF3, .imaxImm p7 (v 13) (v 14) .zext 0xfffffff3)] = true := by decide

theorem test_decode_float : reads [
    (0x201C004080FC0001, .fadd p7 (v 1) (v 2) (v 3) ⟨true, false⟩ ⟨false, false⟩),
    (0x205C004080FC0002, .fmul p7 (v 1) (v 2) (v 3) ⟨false, false⟩ ⟨true, false⟩),
    (0x209C01014181C011, .ffma p7 (v 4) (v 5) (v 6) (v 7) ⟨true, false⟩ ⟨false, true⟩ ⟨false, false⟩),
    (0x20DC004080FC0009, .fmin p7 (v 1) (v 2) (v 3) ⟨true, true⟩ ⟨false, false⟩),
    (0x211C004080FC0010, .fmax p7 (v 1) (v 2) (v 3) ⟨false, false⟩ ⟨false, true⟩),
    (0x215C008080FC3802, .fset p7 (.pred 2) (v 2) (v 3) ⟨false, false⟩ ⟨true, false⟩ .num),
    (0x219C0040BC3C0000, .fclass p7 (v 1) (v 2)),
    (0x241C42027C3C0000, .frcp p7 1 (v 8) (v 9) ⟨false, false⟩),
    (0x245C02027C3C0008, .frsq p7 0 (v 8) (v 9) ⟨false, true⟩),
    (0x249CC2027C3C0001, .fsqrt p7 3 (v 8) (v 9) ⟨true, false⟩),
    (0x24DC02027C3C0000, .fex2 p7 0 (v 8) (v 9) ⟨false, false⟩),
    (0x251C02027C3C0000, .flg2 p7 0 (v 8) (v 9) ⟨false, false⟩),
    (0x255C02027C3C0009, .fsin p7 0 (v 8) (v 9) ⟨true, true⟩),
    (0x259C02027C3C0000, .fcos p7 0 (v 8) (v 9) ⟨false, false⟩),
    (0x25DC02027C3C0000, .ftanh p7 0 (v 8) (v 9) ⟨false, false⟩)] = true := by decide

theorem test_decode_packed : reads [
    (0x281C004080FC0041, .f2add p7 (v 1) (v 2) (v 3) ⟨true, false⟩ ⟨false, false⟩ true),
    (0x285C004080FC0002, .f2mul p7 (v 1) (v 2) (v 3) ⟨false, false⟩ ⟨true, false⟩ false),
    (0x289C004080C10064, .f2fma p7 (v 1) (v 2) (v 3) (v 4) ⟨false, false⟩ ⟨false, false⟩ ⟨true, true⟩ true),
    (0x28DC004080FC0008, .f2min p7 (v 1) (v 2) (v 3) ⟨false, true⟩ ⟨false, false⟩ false),
    (0x291C004080FC0040, .f2max p7 (v 1) (v 2) (v 3) ⟨false, false⟩ ⟨false, false⟩ true),
    (0x295C004080FC1C40, .f2set p7 (.reg (v 1)) (v 2) (v 3) ⟨false, false⟩ ⟨false, false⟩ .nan true),
    (0x2C1C00C101418002, .hdot p7 (v 3) (v 4) (v 5) (v 6) false true),
    (0x301C808101BC0002, .dadd p7 2 (v 2) (v 4) (v 6) ⟨false, false⟩ ⟨true, false⟩),
    (0x305C008101BC0008, .dmul p7 0 (v 2) (v 4) (v 6) ⟨false, true⟩ ⟨false, false⟩),
    (0x309C408101820004, .dfma p7 1 (v 2) (v 4) (v 6) (v 8) ⟨false, false⟩ ⟨false, false⟩ ⟨true, false⟩),
    (0x30DC004101BC2C00, .dset p7 (.pred 1) (v 4) (v 6) ⟨false, false⟩ ⟨false, false⟩ .le)] = true := by decide

theorem test_decode_convert : reads [
    (0x381C0040BC3C0032, .cvt p7 (v 1) (v 2) .bf16x2 .f16x2),
    (0x385C03037C3C0128, .cvti p7 (v 12) (v 13) .i32 .f32 true),
    (0x389C038444838022, .pack p7 (v 14) (v 17) (v 18) (v 14) .e4m3 2 false),
    (0x389C03847C0380B7, .pack p7 (v 14) (v 17) .vz (v 14) .i8 3 true),
    (0x38DC0040BC3C0028, .unpack p7 (v 1) (v 2) .s10 2),
    (0x391C0040BC00C014, .scaleq p7 (v 1) (v 2) (v 3) .e2m1 1),
    (0x395C00813C3C001C, .tagset p7 (v 2) (v 4) 12 true),
    (0x399C0040BC3C0000, .tagget p7 (v 1) (v 2))] = true := by decide

theorem test_decode_lanes : reads [
    (0x3C1C0282C0417CE2, .lnget p7 (v 10) (v 11) (.lit 1) .off 3 false 2 7 5),
    (0x3C1C02830041D37B, .lnget p7 (v 10) (v 12) (.reg (v 1)) .xor 5 true 11 2 7),
    (0x3C5C00C0BC0078F4, .lnpoll p7 (.reg (v 3)) 2 true true .mask 4 7 1),
    (0x3C9C0040BC01BA13, .lneq p7 (v 1) (v 2) true true 3 7 6),
    (0x3CDC0181FC01F900, .lncomb p7 (v 6) (v 7) .add .f32 0 7 7),
    (0x3D1C0181FC000AD9, .lnpfx p7 (v 6) (v 7) .xor .n32 true 9 1 0)] = true := by decide

theorem test_decode_control : reads [
    (0x401FFFFFFFFF8000, .bra p7 0xFFFFFFFE none),
    (0x405C800000000180, .brx p7 (v 6) (some 2)),
    (0x409FC00000030000, .call p7 12 none),
    (0x40DEC00000000200, .callx p7 (v 8) (some 11)),
    (0x411FC00000000000, .ret p7),
    (0x414FC00000000000, .exit ⟨false, 3⟩),
    (0x441C3C3C3C3C0007, .join p7 7),
    (0x445C3C3C3C3C000B, .leave p7 11),
    (0x449C3C3C3C3C1801, .waitm p7 1 3),
    (0x44DC3C027C3C0003, .laceset p7 3 (v 9)),
    (0x451C027C3C3C0004, .laceget p7 (v 9) 4),
    (0x455C3C3C3C3C0000, .yield p7),
    (0x459C3C3C3C3C0000, .nop p7),
    (0x45DC3C3C3C3C3FFF, .brk p7 0x3FFF),
    (0x461C3C3C3C3C1234, .trap p7 0x1234),
    (0x465C3C3C3C3C002A, .svc p7 0x2A)] = true := by decide

theorem test_decode_memory : reads [
    (0x501CC101823FFF97, .ld p7 3 (v 4) ⟨v 6, v 8, 0xFFF⟩ .e2m1 .acq .sys true),
    (0x505C0101BC0004E4, .st p7 (v 4) ⟨v 6, .vz, 1⟩ .i64 .rel .dev false),
    (0x509C01813C0004C0, .lds p7 0 (v 6) ⟨v 4, .vz, 1⟩ .i64),
    (0x50DC018101400900, .sts p7 (v 6) ⟨v 4, v 5, 2⟩ .n8),
    (0x511C003C3C3FFCC0, .ldk p7 0 (v 0) .vz 0xFFF .i64),
    (0x541C4081019204F2, .atom p7 1 (v 2) ⟨v 4, v 6, 0x81⟩ .maxu .i64 .acqrel .clu),
    (0x545C808101A80C80, .atoms p7 2 (v 2) ⟨v 4, v 6, 3⟩ .dec .i32),
    (0x549C3C0101800E64, .red p7 ⟨v 4, v 6, 3⟩ .add .bf16x2 .rel .dev),
    (0x54DC0102030003D0, .cas p7 0 (v 4) ⟨v 8, v 12, 0⟩ .b128 .acq .core),
    (0x581C3C003C040032, .pref p7 ⟨v 0, .vz, 0x100⟩ .i8 3 true),
    (0x585C03003C000000, .discard p7 ⟨v 0, .vz, 0⟩ (v 12)),
    (0x589C030000C01C00, .clean p7 ⟨v 0, v 3, 7⟩ (v 12)),
    (0x58DC3C3C3C000002, .publish p7 .clu),
    (0x591C3C3C3C000006, .refresh p7 .sys),
    (0x595C3C3C3C3C0020, .xfence p7 .mx .ls),
    (0x599C3C3C3C000004, .fence p7 .dev),
    (0x5C1C3C00BC0011C0, .linearm p7 ⟨v 2, .vz, 4⟩ .f32 .core),
    (0x5C5C01C23C3C0000, .linewait p7 (v 7) (v 8))] = true := by decide

theorem test_decode_copies : reads [
    (0x6024C4410003000C, .acpy ⟨true, 1⟩ 3 (v 17) (v 4) (v 0) (v 12) 0 3),
    (0x605C3C00FC3C0002, .acwait p7 (v 3) 2),
    (0x609C3C0081018000, .chstart p7 (v 2) (v 4) (v 6)),
    (0x60DC0080FC3C0000, .chstat p7 (v 2) (v 3)),
    (0x611C3C00FC3C0000, .chabort p7 (v 3)),
    (0x615C0040BC3C0000, .shfgo p7 (v 1) (v 2)),
    (0x619C3C00BC3C0000, .shfwait p7 .vz (v 2))] = true := by decide

theorem test_decode_sync : reads [
    (0x681C3C00BC3C381F, .barinit p7 31 (v 2) 7),
    (0x681C3C3C3C3C1023, .barinitFree p7 3 2),
    (0x685C027C3C3C3800, .arrive p7 (v 9) 0 7),
    (0x689C027C3C3C3805, .arrdrop p7 (v 9) 5 7),
    (0x68DC01C27C3C3800, .bwait p7 7 (v 9) 7),
    (0x691C3C3C3C3C3824, .bpwait p7 4 true 7),
    (0x695C3C3C3C3C0006, .bsync p7 6 0),
    (0x699C00813C3C3806, .fget p7 (v 2) (v 4) .sys 7),
    (0x69DC3C0101BC3804, .fput p7 (v 4) (v 6) .dev 7),
    (0x6A1C00C13C3C3802, .fclaim p7 3 (v 4) .clu 7),
    (0x6C1C3C02003C3800, .send p7 .plain 7 (v 8) (v 0) 7),
    (0x6C1C0082043C0802, .send p7 .test 2 (v 8) (v 16) 1),
    (0x6C5C0040BC3C3800, .portcfgOpen p7 (v 1) (v 2) 7),
    (0x6C5C3C00BC3C3801, .portcfgReg p7 (v 2) 7),
    (0x6C5C3C00BC3C3802, .portcfgClose p7 (v 2) 7),
    (0x6C9C3C0183BC3800, .patset p7 (v 6) (v 14) 7),
    (0x6C9C3C0183BC3801, .patsetTmpl p7 (v 6) (v 14) 7),
    (0x6CDC3C00FC3C3801, .patarmOn p7 (v 3) 7),
    (0x6CDC3C00FC3C3800, .patarmOff p7 (v 3) 7),
    (0x6D1C3C00BC3C3804, .breakobj p7 4 (v 2) 7),
    (0x6D5C0100BC3C3801, .objstat p7 1 (v 4) (v 2) 7)] = true := by decide

theorem test_decode_queues : reads [
    (0x701C3940FC3C0004, .qbind p7 (.que 5) (v 3) 4),
    (0x705C3BFC3C3C0000, .qunbind p7 (.que 15)),
    (0x709C0078BC3C0000, .qstat p7 (v 1) (.que 2)),
    (0x70DC0138FC00B800, .qtry p7 (v 4) (.que 3) 2 7),
    (0x711C0180823C0000, .taskq p7 (v 6) (v 2) (v 8)),
    (0x715C3C00BC3C3800, .depdec p7 (v 2) 7),
    (0x719C004080FC0000, .depnew p7 (v 1) (v 2) (v 3)),
    (0x71DC3C00BC3C0000, .depfree p7 (v 2))] = true := by decide

theorem test_decode_matrix : reads [
    (0x801C3C0040BC0016, .mxa p7 (v 1) (v 2) 6 true),
    (0x805C3C0040BC0005, .mxb p7 (v 1) (v 2) 5),
    (0x809C3C0040BC0002, .mxscale p7 (v 1) (v 2) 2),
    (0x80DC3C0040BC0000, .mxsparse p7 (v 1) (v 2)),
    (0x811C3C3C3C3C0003, .mxzero p7 3),
    (0x815C3C004080C009, .mxload p7 1 (v 1) (v 2) (v 3) 2),
    (0x819C3C3C027C0004, .mxmma p7 0 (v 9) .vz 1),
    (0x81DC3C0040BC0012, .mxstore p7 2 (v 1) (v 2) .vz 4),
    (0x841C3C39FC3C0003, .mxdrain p7 3 (.que 7)),
    (0x845C3C3C3C3C0000, .mxwait p7)] = true := by decide

theorem test_decode_system : reads [
    (0x881C0040BC3C0000, .coll p7 (v 1) (v 2)),
    (0x885C00813C3C0000, .cwait p7 (v 2) (v 4)),
    (0x889C00813C3C0000, .cstat p7 (v 2) (v 4)),
    (0x88DC00813C3C0000, .viewrd p7 (v 2) (v 4)),
    (0x891C3C0141BC0000, .stepset p7 (v 5) (v 6) .vz),
    (0x895C008101BC0000, .rejoin p7 (v 2) (v 4) (v 6)),
    (0x901C3C00BC3C0000, .ctopen p7 (v 2)),
    (0x905C3C3C3C3C0000, .ctclose p7),
    (0x909C00BC3C3C0001, .assaysig p7 (v 2) true),
    (0xF81C13C0291C0001, .srd p7 (v 4) 0x0A47 true),
    (0xF85FC01028440000, .swr p7 0x0A11 (v 4) false),
    (0xF89FC3C000000000, .tret p7),
    (0xF8DFC3C000000000, .fresume p7),
    (0xF91FC3C000000000, .halt p7),
    (0xF95C080000000000, .tlbinv p7 (v 0) (v 2) 0),
    (0xF95FC01000000003, .tlbinv p7 (v 4) .vz 3),
    (0xF99FC00C00000001, .tracemk p7 (v 3) true)] = true := by decide

/-! What the statements suppose can be met: integer and float instructions. -/

theorem test_wit_integer : (∀ sp ∈ [needs .int [v 2, v 3] (v 1), needs .int [v 2] (v 1), needs .int [v 2, v 3, v 4] (v 1)], (lone 0 id).Runs (one 0) p7 sp) ∧
    ∀ sp ∈ [needs .int [v 62, v 63] (v 63), needs .int [v 63] (v 0), needs .int [v 0, v 1, v 2] .vz], (lone 4 id).Runs (one 4) p7 sp :=
  ⟨runsAll_of (by decide), runsAll_of (by decide)⟩

theorem test_wit_immediate : (∀ sp ∈ [{ simt := false, dsts := [(v 1, 1)] }, { needs .int [v 2] (v 1) with simt := false }], (lone 4 id).Runs (one 4) p7 sp) ∧
    ∀ sp ∈ [{ dsts := [(v 1, 1)] }, needs .int [v 2] (v 1)], (lone 0 id).Runs (one 0) p7 sp :=
  ⟨runsAll_of (by decide), runsAll_of (by decide)⟩

theorem test_wit_pairs : ∀ sp ∈ [
    { ctl := false, srcs := [⟨1, v 2, .i64⟩, ⟨2, v 4, .i64⟩], dsts := [(v 6, 2)] }, { ctl := false, srcs := [⟨1, v 2, .i64⟩, ⟨2, v 3, .int⟩], dsts := [(v 222, 2)] },
    { srcs := [⟨1, v 2, .int⟩, ⟨2, v 3, .int⟩, ⟨3, v 4, .i64⟩], dsts := [(v 6, 2)] }, { srcs := [⟨1, v 2, .i64⟩, ⟨2, v 3, .int⟩], dsts := [(v 6, 2)] }],
    (lone 0 id).Runs (one 0) p7 sp := runsAll_of (by decide)

theorem test_wit_compares : (∀ sp ∈ [
    { srcs := [⟨1, v 2, .int⟩, ⟨2, v 3, .int⟩], dsts := destRegs (.pred 7) }, { ctl := false, srcs := [⟨1, v 2, .i64⟩, ⟨2, v 4, .i64⟩], dsts := destRegs (.reg (v 1)) },
    needs .any [v 2, v 3] (v 1), needs .any [v 2] (v 1), { ctl := false, srcs := [⟨1, v 2, .anyPair⟩], dsts := [(v 4, 2)] }, {}, { dsts := [(v 1, 1)] },
    { srcs := [⟨1, v 2, .int⟩] }], (lone 0 id).Runs (one 0) p7 sp) ∧
    (lone 4 id).Runs (one 4) p7 { simt := false, srcs := [⟨1, v 2, .int⟩, ⟨2, v 3, .int⟩], dsts := destRegs (.reg (v 1)) } :=
  ⟨runsAll_of (by decide), runs_of (by decide)⟩

theorem test_wit_floats : ∀ sp ∈ [
    onSimt (needs (.tag .f32) [v 2, v 3] (v 1)), onSimt (needs (.tag .f32) [v 2, v 3, .vz] (v 1)),
    { ctl := false, srcs := [⟨1, v 2, .tag .f32⟩, ⟨2, v 3, .tag .f32⟩], dsts := destRegs (.pred 0) }, onSimt (needs (.tag .f32) [v 2] (v 1)),
    onSimt (needs (.tag (f2tag false)) [v 4, v 4] (v 1)), onSimt (needs (.tag (f2tag true)) [v 6, v 6, .vz] (v 1)),
    { ctl := false, srcs := [⟨1, v 6, .tag (f2tag true)⟩, ⟨2, v 6, .tag (f2tag true)⟩], dsts := destRegs (.pred 7) },
    { ctl := false, srcs := [⟨1, v 8, .tag .e4m3x4⟩, ⟨2, v 9, .tag .e5m2x4⟩, ⟨3, v 2, .tag .f32⟩], dsts := [(v 1, 1)] },
    { ctl := false, srcs := [⟨1, v 10, .f64⟩, ⟨2, .vz, .f64⟩], dsts := destRegs (.pred 0) }], floats.Runs (one 0) p7 sp := runsAll_of (by decide)

theorem test_wit_later : (∀ sp ∈ [
    onSimt (needs (.tag .f32) [v 2] (v 1)), { ctl := false, srcs := [⟨1, v 10, .f64⟩, ⟨2, v 10, .f64⟩], dsts := [(v 14, 2)] },
    { ctl := false, srcs := [⟨1, v 10, .f64⟩, ⟨2, v 10, .f64⟩, ⟨3, .vz, .f64⟩], dsts := [(v 14, 2)] }, needs .int [v 13, v 13] (v 1)],
    floats.RunsAlone (one 0) 1 p7 sp) ∧ floats.bits 1 (v 13) (floats.width 1) ≠ 0 := ⟨aloneAll_of (s := floats) (by decide), by decide⟩

theorem test_wit_finite : (fp64.widen 0x7FEFFFFFFFFFFFFF).finite = true ∧ (fp32.widen 1).finite = true ∧ (bf16.widen 0x8000).finite = true ∧
    (fp16.widen 0xFC00).finite = false ∧ (fp16.widen 0xFE00).isNan = true := by decide

theorem test_wit_conversions : (∀ sp ∈ [
    { ctl := false, srcs := [⟨1, v 10, .f64⟩], dsts := [(v 1, 1)] }, { ctl := false, srcs := [⟨1, v 2, .tag .f32⟩], dsts := [(v 14, 2)] },
    { ctl := false, srcs := [⟨1, v 4, .tag .f16x2⟩], dsts := [(v 1, 1)] }, { ctl := false, srcs := [⟨1, v 9, .tag .e5m2x4⟩], dsts := [(v 1, 1)] },
    { ctl := false, srcs := [⟨1, v 13, cviKind .n8⟩], dsts := [(v 14, 2)] }, { ctl := false, srcs := [⟨1, v 10, cviKind .f64⟩], dsts := [(v 1, 1)] },
    { ctl := false, srcs := [⟨1, v 2, .tag .f32⟩, ⟨2, v 3, .tag .f32⟩, ⟨3, .vz, .tag .s10x3⟩], dsts := [(v 1, 1)] },
    { ctl := false, srcs := [⟨1, v 13, .int⟩, ⟨3, .vz, .tag .i8x4⟩], dsts := [(v 1, 1)] }, onSimt (needs (.tag .s10x3) [v 12] (v 1)),
    { ctl := false, srcs := [⟨1, v 2, .tag .f32⟩, ⟨3, v 12, .tag .s10x3⟩], dsts := [(v 12, 1)] },
    { ctl := false, srcs := [⟨1, v 10, .cleanPair⟩], dsts := [(v 14, 2)] }, onSimt (needs .clean [v 12] (v 1)), onSimt (needs .any [v 12] (v 1))],
    floats.Runs (one 0) p7 sp) ∧ (packInfo .s10).1 * (1 + 2) ≤ 32 ∧ (packInfo .e2m1).1 * (7 + 1) ≤ 32 := ⟨runsAll_of (by decide), by decide, by decide⟩

theorem test_wit_integer_conversions : ((64 : Nat) ∈ [8, 16, 32, 64]) ∧ CviT.i64 ∈ [CviT.i32, .i64, .n32, .n64] ∧ CviT.n8 ∉ [CviT.f32, .f64] ∧
    2 ^ 64 - 1 < 2 ^ (cviInfo .i64).1 := by decide

/-- A group whose clause gives the yield hint, at its last instruction. -/
theorem test_wit_yield : (lone 0 id).Runs (one 0) p7 {} ∧ (lone 4 id).Runs (one 4) p7 {} ∧
    (let g : Group := { one 0 with clause := [0xC000100000000000, 0] }
     let s := ((lone 0 id).onCore fun k => { k with groups := [g] }).onExt fun e => { e with cur := some g }
     s.Runs g p7 {} ∧ (decide (g.clause.length - 2 ≤ g.pos.i) && (g.clause.headD 0).getLsbD 44) = true) ∧
    (let a := (lone 0 id).thread 1
     let b := { a with yielded := true }
     (lone 0 id).age a = (lone 0 id).age b ∧ a.yielded = false ∧ b.yielded = true) := by
  refine ⟨runs_of (by decide), runs_of (by decide), ⟨runs_of (by decide), by decide⟩, by decide⟩

/-! Lanes, laces, control flow, traps. -/

/-- Two threads of one row, lanes 0 and 1, members of lace 3, with one key. -/
def mates (f : Nat → Thread → Thread) : State :=
  let s := lone 0 id
  let t (u lane : Nat) : Thread := { placedThread 0 (one 0).clause with uid := u, id := { (placedThread 0 []).id with lane := lane, tid := lane } }
  s.onCore fun k => { k with threads := [f 1 (t 1 0), f 2 (t 2 1)], laces := [(laceKey (t 1 0) 3, ⟨3, 0, 0, []⟩)] }

/-- A thread whose crew has another thread, which is ready. -/
def mate1 : State := mates fun u => if u = 2 then fun t => { t with run := .ready } else id

/-- Both execute in one group. -/
def together : State :=
  let g : Group := { one 0 with members := [1, 2] }
  ((mates fun _ => holding ones).onCore fun k => { k with groups := [g] }).onExt fun e => { e with cur := some g }

theorem meets_of {s : State} {g : Group} {gd : Guard} {sp : Spec} {k : Nat} (h : runsB s g gd sp = true)
    (m : (s.activeIn g gd).all (fun u => (s.thread u).inHandler ||
      (!s.laceBroken (s.thread u) k && (s.lace (s.thread u) k).mem.getLsbD (s.thread u).id.lane)) = true)
    (t : (s.activeIn g gd).all (fun u => (s.participants (s.thread u) k).all fun v => decide (v ∈ g.members)) = true) : s.Meets g gd sp k := by
  refine ⟨runs_of h, fun u hu hh => ?_, fun u hu w hw => ?_⟩
  · simpa [hh] using List.all_eq_true.1 m u hu
  · simpa using List.all_eq_true.1 (List.all_eq_true.1 t u hu) w hw

theorem test_wit_lanes : ∀ sp ∈ [
    { ctl := false, dsts := [(v 14, 2)], srcs := [⟨1, v 10, .cleanPair⟩, ⟨2, v 13, .int⟩] }, { ctl := false, dsts := [(v 1, 1)], srcs := [⟨1, v 2, .clean⟩] },
    { ctl := false, dsts := destRegs (.reg (v 1)) }, { ctl := false, dsts := destRegs (.pred 4) }, { ctl := false, srcs := [⟨1, v 10, .cleanPair⟩], dsts := [(v 1, 1)] },
    { ctl := false, srcs := [⟨1, v 2, .tag .f32⟩], dsts := [(v 1, 1)] }, { ctl := false, srcs := [⟨1, v 13, .int⟩], dsts := [(v 1, 1)] }],
    together.Meets { one 0 with members := [1, 2] } p7 sp 3 := by
  intro sp hs
  exact meets_of (List.all_eq_true.1 (by decide : List.all _ (runsB together { one 0 with members := [1, 2] } p7) = true) sp hs) (by decide) (by decide)

/-- An H handler that can branch to the clause at 0x1020 and return there. -/
def jumper (core : Nat) : State :=
  (lone core fun t => { inH (holding [(2, ⟨0x1020, .w64lo⟩), (3, ⟨0, .w64hi⟩)] t) with rstk := [0x1020] }).onMem fun m =>
    { m with bytes := wordsAt [(0x1020, oneHeader core)] }

theorem test_wit_branches : (∀ sp ∈ [{}, { ctl := false }, { srcs := [⟨1, v 2, .addr⟩] }], (jumper 0).RunsAlone (one 0) 1 p7 sp) ∧
    (∃ ws r, ((jumper 0).charge [1]).target 1 (BitVec.ofNat 64 ((jumper 0).thread 1).pos.a + (4 : Half).signExtend 64 * 8).toNat = (.ok ws, r) ∧ True) ∧
    (∃ ws r, ((jumper 0).charge [1]).target 1 ((jumper 0).pairBits 1 (v 2)).toNat = (.ok ws, r) ∧ ws = [oneHeader 0, 0]) ∧
    ((jumper 0).thread 1).rstk = [] ++ [0x1020] ∧ ((jumper 0).thread 1).rstk.length < 8 := by
  exact ⟨aloneAll_of (s := jumper 0) (by decide), ok_of (fun _ _ => true) (fun _ _ _ => trivial) (by decide +kernel),
    ok_of (fun ws _ => decide (ws = [oneHeader 0, 0])) (fun _ _ h => by simpa using h) (by decide +kernel), by decide, by decide⟩

/-- A function whose H and G handlers are open. -/
def handlers : Fn := { Fn.reset with tvech := 0x8000, tvechEn := true, tvecg := 0x4000, tvecgEn := true }

/-- A thread at a level whose function has handlers. -/
def trapper (core : Nat) (l : Level) (f : Thread → Thread) : State := (lone core fun t => f { t with lvl := l }).withFn handlers

theorem test_wit_traps : (∀ c ∈ [0x01, 0x03, 0x12, 0x14, 0x15, 0x18, 0x19], (trapper 0 .h id).TrapOpen 1 c true ∧ (trapper 0 .u id).TrapOpen 1 c false) ∧
    (trapper 0 .u id).RunsAlone (one 0) 1 p7 {} ∧ (trapper 0 .h id).RunsAlone (one 0) 1 p7 {} ∧
    ((((trapper 0 .u id).fnAt 0).dbg.en && true) = false) ∧
    (trapper 0 .h inH).RunsAlone (one 0) 1 p7 { lvl := .g } ∧ ((trapper 0 .h inH).thread 1).lvl ≠ .u ∧ ((trapper 0 .h inH).thread 1).bankH.inh = true ∧
    (let s := trapper 0 .g fun t => { t with bankG := { t.bankG with inh := true } }
     s.RunsAlone (one 0) 1 p7 { lvl := .g } ∧ (s.thread 1).bankG.inh = true) := by
  refine ⟨by unfold State.TrapOpen; decide, alone_of (s := trapper 0 .u id) (by decide), alone_of (s := trapper 0 .h id) (by decide), by decide,
    alone_of (s := trapper 0 .h inH) (by decide), by decide, by decide, ?_, by decide⟩
  exact alone_of (s := trapper 0 .g fun t => { t with bankG := { t.bankG with inh := true } }) (by decide)

theorem test_wit_laces : (∀ sp ∈ [{ ctl := false }, { ctl := false, dsts := [(v 1, 1)] }, { ctl := false, srcs := [⟨1, v 2, .int⟩] }],
      (mate1).RunsAlone (one 0) 1 p7 sp) ∧
    ((mates fun _ => id).thread 1).inHandler = false ∧ ((mates fun _ => id).thread 2).id.lane < 32 ∧
    (∀ x ∈ (lone 0 id).equalKey ((lone 0 id).thread 1) 3, x.uid = 1) :=
  ⟨aloneAll_of (s := mate1) (by decide), by decide, by decide, by decide⟩

theorem test_wit_waitm : (let s := (lone 0 id).onCore fun k => { k with laces := [(laceKey (placedThread 0 []) 3, ⟨1, 0, 0, []⟩)] }
      s.RunsAlone (one 0) 1 p7 { ctl := false } ∧ s.laceBroken (s.thread 1) 3 = false ∧ (s.lace (s.thread 1) 3).mem.getLsbD 0 = true ∧
      (∀ x ∈ s.core.threads, x.atLace 3 = true → (s.thread x.uid).run ≠ .ready) ∧ (s.equalKey (s.thread 1) 3).map (·.uid) = [1]) ∧
    (let s := mate1
     s.RunsAlone (one 0) 1 p7 { ctl := false } ∧ s.laceBroken (s.thread 1) 3 = false ∧ (s.lace (s.thread 1) 3).mem.getLsbD 0 = true ∧
     ∃ x ∈ s.equalKey (s.thread 1) 3, x.id.lane ≠ (s.thread 1).id.lane ∧ (s.lace (s.thread 1) 3).arr.getLsbD x.id.lane = false) := by
  refine ⟨⟨?_, by decide, by decide, by decide, by decide⟩, ?_, by decide, by decide, by decide⟩
  · exact alone_of (s := (lone 0 id).onCore fun k => { k with laces := [(laceKey (placedThread 0 []) 3, ⟨1, 0, 0, []⟩)] }) (by decide)
  · exact alone_of (s := mate1) (by decide)

/-- The last thread of its crew, and the state after its exit boundary. -/
def leaver : State := lone 0 inH
def leaver2 : State := ((leaver.charge [1]).doBoundaryAfter 1 .sys .exit fun x => x.exitOther 1 (placedCrew 0)).2

theorem test_wit_exit : (mate1.RunsAlone (one 0) 1 p7 {} ∧ (mate1.thread 1).ct = [] ∧ mate1.writesPending 1 = false ∧
      1 < (mate1.crewThreads 1).length ∧ (mate1.crew? 1).isSome = true ∧ ((mate1.charge [1]).exitThread 1 false).Gone 1) ∧
    (leaver.RunsAlone (one 0) 1 p7 {} ∧ (leaver.crewThreads 1).length ≤ 1 ∧ leaver.crew? 1 = some (placedCrew 0) ∧
      (leaver.charge [1]).crewBusy (placedCrew 0) = false ∧
      (leaver.charge [1]).doBoundaryAfter 1 .sys .exit (fun x => x.exitOther 1 (placedCrew 0)) = (.next, leaver2) ∧
      (leaver2.exitThread 1 true).Gone 1) ∧
    (lone 0 id).RunsAlone (one 0) 1 p7 { lvl := .g } ∧
    (let s := lone 0 fun t => { t with fr := { t.fr with pend := true } }
     s.RunsAlone (one 0) 1 p7 {} ∧ (s.thread 1).fr.pend = true) := by
  refine ⟨⟨alone_of (s := mate1) (by decide), by decide, by decide, by decide, by decide, by decide +kernel, by decide +kernel⟩,
    ⟨alone_of (s := leaver) (by decide), by decide, by decide, by decide, ?_, by decide +kernel, by decide +kernel⟩,
    alone_of (s := lone 0 id) (by decide), ?_, by decide⟩
  · rw [leaver2]; exact fst_snd (by decide +kernel)
  · exact alone_of (s := lone 0 fun t => { t with fr := { t.fr with pend := true } }) (by decide)

/-! Memory. -/

/-- An H handler with 0x2000 in v2 and v3, 64 in v4, the scratch address 8 in v8, and the scratchpad unit 0 of its core. -/
def worker : State :=
  (lone 0 (inH ∘ holding [(2, ⟨0x2000, .w64lo⟩), (3, ⟨0, .w64hi⟩), (4, ⟨64, .i32⟩), (8, ⟨8, .i32⟩)])).onCore fun k =>
    { k with cores := [(0, { Core.reset with active := some 1, units := [(0, (0, 1))] })] }

def workerC : State := worker.charge [1]
def at2 : MemF := ⟨v 2, .vz, 0⟩
def at8 : MemF := ⟨v 8, .vz, 0⟩

/-- It, with a counter registered at 0x2000. -/
def counted : State := worker.onTask fun k => { k with counters := [(0, ⟨1, true, 0, 0, 0x2000, 0x2000, []⟩)] }

/-- It, its domain holding the 8 bytes at 0x2000 and their home offline. -/
def local8 : State := (worker.onMem fun m => { m with doms := [⟨⟨0, .phys, 0⟩, ⟨0, []⟩,
  (rangeFrom 0x2000 8).map fun a => (a, ⟨7, false, 0, 1, .ls, none, false, false, false, ⟨0, 0⟩, 0, ⟨0, []⟩, false⟩), []⟩] }).modDie 0 fun d => { d with drst := 2 }

/-- From the place of a strong access on: its own bytes are published, and its request issues. -/
def issuesStrong (s r : State) (va z kind : Nat) (f : State → State) (x : State → Req) : Bool :=
  match r.strongOwn 1 va z kind with
  | (none, p) => match (f p).issueStrong (x (f p)) with
    | (.next, q) => steadyB s 1 q
    | _ => false
  | _ => false

theorem issuesStrong_of {s r : State} {va z kind : Nat} {f : State → State} {x : State → Req} (h : issuesStrong s r va z kind f x = true) :
    ∃ p q, r.strongOwn 1 va z kind = (none, p) ∧ (f p).issueStrong (x (f p)) = (.next, q) ∧ s.Steady 1 q := by
  unfold issuesStrong at h
  split at h
  · rename_i p hp
    split at h
    · rename_i q hq
      exact ⟨p, q, hp, hq, steady_of h⟩
    · cases h
  · cases h

/-- The request of a strong load of 8 bytes at 0x2000 to v10 and v11. -/
def loadAsk (r : State) (pa : Nat) (at_ : Attr) (ord : MOrd) (sc : Scope) : Req :=
  { mkReq r 1 (.load .i64 true) 0x2000 8 with
    pa := pa, attr := at_, ord := ord, scope := sc, na := false, dest := destOf r 1 (v 10) 2, win := ((worker.thread 1).pos, 0) }

theorem test_wit_loads : (∀ sp ∈ [{ ctl := ctlTy .s10, srcs := memSrcs at2 false, dsts := [(v 1, tyWidth .s10)], qdst := false, la := 0 },
      { ctl := ctlTy .i64, srcs := memSrcs at2 false, dsts := [(v 222, tyWidth .i64)], qdst := false, la := 0 },
      { ctl := ctlTy .i64, srcs := [⟨5, .vz, .int⟩], dsts := [(v 10, tyWidth .i64)], qdst := false, la := 0 },
      { ctl := false, srcs := memSrcs at8 true, dsts := [(v 10, tyWidth .i64)], qdst := false, la := 0 }], worker.RunsAlone (one 0) 1 p7 sp) ∧
    worker.ea 1 at2 8 % 8 = 0 ∧ worker.ea 1 at2 8 < (worker.thread 1).vaLim ∧ workerC.loadHere 1 0x2000 8 = false ∧
    (workerC.fnAt (workerC.thread 1).id.fn).mem.mixsz = false ∧
    (∃ x r, workerC.place 1 0x2000 8 0 .r = (.ok x, r) ∧ r.counterAt x.1 8 = false ∧ worker.Steady 1 r) ∧
    (∃ x r, workerC.place 1 0x2000 8 2 .r = (.ok x, r) ∧
      ∃ p q, r.strongOwn 1 0x2000 8 2 = (none, p) ∧ p.issueStrong (loadAsk r x.1 x.2 .acq .dev) = (.next, q) ∧ worker.Steady 1 q) ∧
    (∃ x r, (counted.charge [1]).place 1 0x2000 8 0 .r = (.ok x, r) ∧ (r.counterAt x.1 8 = true ∧ (counted.charge [1]).loadHere 1 0x2000 8 = false ∧
      ∃ p q, r.strongOwn 1 0x2000 8 0 = (none, p) ∧ p.issueStrong (loadAsk r x.1 x.2 .rlx .dev) = (.next, q) ∧ counted.Steady 1 q)) ∧
    (local8.RunsAlone (one 0) 1 p7 { ctl := ctlTy .i64, srcs := memSrcs at2 false, dsts := [(v 10, tyWidth .i64)], qdst := false, la := 0 } ∧
      (local8.charge [1]).loadHere 1 0x2000 8 = true ∧ local8.storeWaits 1 0x2000 8 = false ∧
      local8.mem.ownPoison (local8.domKey (local8.thread 1)) 0x2000 8 = false ∧
      local8.Steady 1 ((local8.charge [1]).ownBytes ((local8.charge [1]).agent (local8.thread 1) .ls) 0x2000 8).2) ∧
    (-8 : Int) ≤ (0xFF8 : BitVec 12).toInt ∧ (0xFFF : BitVec 12).toInt < 0 ∧
    (∃ x r, workerC.place 1 ((worker.taskRec 1).args + (0 : BitVec 12).toNat) 8 0 .r = (.ok x, r) ∧ r.counterAt x.1 8 = false ∧ worker.Steady 1 r) ∧
    worker.scrAlign 1 (worker.eaS 1 at8 8) 8 = none := by
  have h : ∀ x r, (decide (State.counterAt r x 8 = false) && steadyB worker 1 r) = true → r.counterAt x 8 = false ∧ worker.Steady 1 r :=
    fun _ _ h => by simp only [Bool.and_eq_true, decide_eq_true_eq] at h; exact ⟨h.1, steady_of h.2⟩
  refine ⟨aloneAll_of (s := worker) (by decide), by decide, by decide, by decide +kernel, by decide, ?_, ?_, ?_,
    ⟨alone_of (s := local8) (by decide), by decide +kernel, by decide +kernel, by decide +kernel, steady_of (by decide +kernel)⟩,
    by decide, by decide, ?_, by decide⟩
  · exact ok_of (fun x r => decide (r.counterAt x.1 8 = false) && steadyB worker 1 r) (fun x r => h x.1 r) (by decide +kernel)
  · exact ok_of (fun x r => issuesStrong worker r 0x2000 8 2 id fun _ => loadAsk r x.1 x.2 .acq .dev)
      (fun _ _ h => issuesStrong_of h) (by decide +kernel)
  · exact ok_of (fun x r => r.counterAt x.1 8 && !(counted.charge [1]).loadHere 1 0x2000 8 &&
        issuesStrong counted r 0x2000 8 0 id fun _ => loadAsk r x.1 x.2 .rlx .dev)
      (fun _ _ h => by
        simp only [Bool.and_eq_true, Bool.not_eq_true'] at h
        exact ⟨h.1.1, h.1.2, issuesStrong_of h.2⟩) (by decide +kernel)
  · exact ok_of (fun x r => decide (r.counterAt x.1 8 = false) && steadyB worker 1 r) (fun x r => h x.1 r) (by decide +kernel)

/-- After the boundary of a release. -/
def released : State := (workerC.doBoundary 1 .dev .store).2

/-- The state a strong store issues in, and its request, of 8 bytes at 0x2000. -/
def unheld (q : State) : State := q.onLinks fun l => { l with held := l.held.filter fun h => h.who != .pub 1 }
def storeAsk (pa : Nat) (at_ : Attr) (ord : MOrd) (e : State) : Req :=
  { mkReq e 1 (.store true) 0x2000 8 with
    pa := pa, attr := at_, ord := ord, scope := .dev, na := false, data := List.replicate 8 0, poison := false,
    bnd := if ord = .rel then e.lastBnd 1 else [] }

theorem test_wit_stores : (∀ sp ∈ [{ ctl := ctlTy .i64, srcs := ⟨0, v 10, .anyPair⟩ :: memSrcs at2 false },
      { ctl := ctlTy .s10, srcs := ⟨0, v 10, .any⟩ :: memSrcs at2 false }, { ctl := false, srcs := ⟨0, v 10, .anyPair⟩ :: memSrcs at8 true }],
      worker.RunsAlone (one 0) 1 p7 sp) ∧
    worker.storeWaits 1 0x2000 8 = false ∧ (∀ k ∈ worker.core.crews, k.uid = 1 → k.peer = none) ∧
    workerC.storeHeld 1 0x2000 8 = false ∧ workerC.doBoundary 1 .dev .store = (.next, released) ∧
    (∀ b ∈ [workerC, released], b.isTwin 1 = false ∧ b.offWrite 1 0x2000 = none) ∧
    (∀ e ∈ [(released, MOrd.rel), (workerC, MOrd.rlx)], ∃ x r, e.1.place 1 0x2000 8 1 .w = (.ok x, r) ∧
      ∃ q p, (r.unhold 1 0x2000 8).strongOwn 1 0x2000 8 1 = (none, q) ∧ (unheld q).issueStrong (storeAsk x.1 x.2 e.2 (unheld q)) = (.next, p) ∧
        worker.Steady 1 p) ∧
    worker.scrAlign 1 (worker.eaS 1 at8 8) 8 = none := by
  refine ⟨aloneAll_of (s := worker) (by decide), by decide, by decide, by decide, ?_, by decide +kernel, fun e he => ?_, by decide⟩
  · rw [released]; exact fst_snd (by decide +kernel)
  · have h (e : State × MOrd) : okWith (e.1.place 1 0x2000 8 1 .w)
        (fun x r => issuesStrong worker (r.unhold 1 0x2000 8) 0x2000 8 1 unheld (storeAsk x.1 x.2 e.2)) = true → _ :=
      ok_of _ fun _ _ h => issuesStrong_of h
    rcases List.mem_cons.1 he with rfl | he
    · exact h _ (by decide +kernel)
    rcases List.mem_cons.1 he with rfl | he
    · exact h _ (by decide +kernel)
    · cases he

def atomAt2 : AtMemF := ⟨v 2, v 4, 0⟩
def released2 : State := (workerC.doBoundary 1 .dev .atomic).2

/-- The request of an atomic addition of 64 at 0x2000. -/
def atomAsk (pa : Nat) (at_ : Attr) (ord : MOrd) (p : State) : Req :=
  { mkReq p 1 (.atomic .add .i32 true) 0x2000 4 with
    pa := pa, attr := at_, ord := ord, scope := .dev, data := [64, 0, 0, 0], cmp := [], dest := destOf worker 1 (v 1) 1, win := ((p.thread 1).pos, 0),
    bnd := if ord = .rel then p.lastBnd 1 else [] }

theorem test_wit_atomics : (∀ sp ∈ [atomSpec atomAt2 .i32 [] [(v 1, aWidth .i32)] 0 .rlx .core, atomSpec atomAt2 .i32 [] [(v 1, aWidth .i32)] 0 .acqrel .dev,
      atomSpec atomAt2 .i32 [] [] 0 .rel .dev, atomSpec ⟨v 2, v 12, 0⟩ .b128 [⟨0, v 16, aKind .b128⟩] [(v 16, aWidth .b128)] 0 .rel .dev,
      { ctl := false, srcs := [⟨0, v 10, aKind .i32⟩, ⟨4, v 8, .int⟩, ⟨5, v 4, aKind .i32⟩], dsts := [(v 10, aWidth .i32)], qdst := false, primary := true }],
      worker.RunsAlone (one 0) 1 p7 sp) ∧
    workerC.doBoundary 1 .dev .atomic = (.next, released2) ∧
    (∀ e ∈ [(released2, MOrd.rel), (workerC, MOrd.rlx)], ∃ x r, e.1.place 1 0x2000 4 2 .w = (.ok x, r) ∧
      ∃ p q, r.strongOwn 1 0x2000 4 2 = (none, p) ∧ p.issueStrong (atomAsk x.1 x.2 e.2 p) = (.next, q) ∧ worker.Steady 1 q) ∧
    worker.scrAlign 1 8 4 = none := by
  refine ⟨aloneAll_of (s := worker) (by decide), ?_, fun e he => ?_, by decide⟩
  · rw [released2]; exact fst_snd (by decide +kernel)
  · have h (e : State × MOrd) : okWith (e.1.place 1 0x2000 4 2 .w)
        (fun x r => issuesStrong worker r 0x2000 4 2 id (atomAsk x.1 x.2 e.2)) = true → _ :=
      ok_of _ fun _ _ h => issuesStrong_of h
    rcases List.mem_cons.1 he with rfl | he
    · exact h _ (by decide +kernel)
    rcases List.mem_cons.1 he with rfl | he
    · exact h _ (by decide +kernel)
    · cases he

/-- A request of the worker, and the worker with it alone outstanding. -/
def request (k : ReqKind) (st : ReqSt) : Req :=
  { mkReq worker 1 k 0x2000 8 with id := 1, st := st, pa := 0x2000, attr := { Attr.reset with wp := 2 }, data := List.replicate 8 7 }
def asking (k : ReqKind) (st : ReqSt) : State := worker.onCore fun c => { c with reqs := [request k st] }

theorem test_wit_requests : (asking (.load .i64 false) .issued).issued ≠ [] ∧ (asking (.load .i64 false) .done).answered ≠ [] ∧
    (∀ q ∈ (asking (.load .i64 false) .done).answered, q.plog = none) ∧
    (asking (.lds .i64) .home).performable = [request (.lds .i64) .home] ∧ worker.mem.scrPoisoned (scrKey 0 0x2000) 8 = false ∧
    worker.unitOwner (worker.thread 1) 0 (0x2000 % 2 ^ 19 / 8192) ≠ some (worker.thread 1).id.asid ∧
    (let q := { request (.lds .i64) .home with va := 8 }
     let s := worker.onCore fun c => { c with reqs := [q] }
     s.performable = [q] ∧ q.scratch = true ∧ s.unitOwner (s.thread 1) q.bank (q.va % 2 ^ 19 / 8192) = some (s.thread 1).id.asid) ∧
    (asking .sts .home).performable = [request .sts .home] ∧ worker.mem.scr.sorted = true ∧
    (let q := request (.load .i64 true) .home
     let s := asking (.load .i64 true) .home
     s.performable = [q] ∧ isHost q.pa = false ∧ s.plat.host.own = [] ∧ s.mem.poisoned q.pa q.size = false ∧
      s.mem.ownPoison q.dom q.va q.size = false ∧ (s.mem.dom q.dom).stores = [] ∧ q.acquires = false ∧ q.attr.allocL2 = false ∧
      s.memOffline q.pa = false ∧ s.plat.host.owed = [] ∧ ∀ l ∈ s.mem.l2, l.pline ≠ q.pa / 128) ∧
    (let q := request (.load .i64 false) .home
     let s := { local8 with core := (asking (.load .i64 false) .home).core, pkg := Pkg.reset }
     s.performable = [q] ∧ q.size ≤ (s.ownBytes (s.reqAgent q) q.va q.size).1.length ∧ s.mem.ownPoison q.dom q.va q.size = false) := by
  decide +kernel

/-- A thread whose address in v2:v3 is above its address space. -/
def far : State := lone 0 (holding [(2, ⟨0, .w64lo⟩), (3, ⟨2 ^ 16, .w64hi⟩)])

theorem test_wit_cache : (∀ sp ∈ [{ srcs := memSrcs at2 false }, { srcs := ⟨0, v 4, .int⟩ :: memSrcs at2 false }, { srcs := ⟨0, .vz, .int⟩ :: memSrcs at2 false }],
      worker.RunsAlone (one 0) 1 p7 sp) ∧
    ((far.thread 1).vaLim ≤ far.ea 1 at2 1 ∧ far.RunsAlone (one 0) 1 p7 { srcs := memSrcs at2 false }) ∧
    ((worker.thread 1).lvl = .h ∧ 0x2000 < (worker.thread 1).vaLim ∧ isHost 0x2000 = false ∧ paFault worker 0x2000 = none ∧
      offHome worker (homePa worker 0 0x2000).1 = false ∧ offMem worker (bitsOf 0x2000 38 37) = false ∧ worker.wayHeld 0 (homePa worker 0 0x2000).1 0x2000 128 = false ∧
      worker.plat.host.own.find 64 = none ∧
      worker.Untraced ∧ 0x2000 % memSize .i8 = 0 ∧ workerC.cleanHeld (worker.thread 1).space 0x2000 64 = false) ∧
    worker.bits 1 .vz 32 = 0 ∧ worker.bits 1 (v 4) 32 ≠ 0 ∧ 0x2000 + 64 ≤ (worker.thread 1).vaLim ∧ worker.inFlight 1 0x2000 64 = false ∧
    (∃ r, workerC.discard 1 0x2000 64 = (.next, r) ∧ worker.Steady 1 r) ∧ 0x2000 % 128 + 64 ≤ 128 ∧
    (∀ k ∈ worker.core.crews, k.uid = 1 → k.peer = none) ∧
    ∃ pa at_ r, workerC.discardCheck (workerC.agent (worker.thread 1) .ls) 0x2000 64 = (.ok pa at_, r) := by
  refine ⟨aloneAll_of (s := worker) (by decide), ⟨by decide, alone_of (s := far) (by decide)⟩,
    ⟨by decide, by decide, by decide, by decide, by decide, by decide, by decide, by decide, fun _ => rfl, by decide, by decide⟩, by decide, by decide, by decide, by decide,
    got (by decide +kernel) (steady_of (by decide +kernel)), by decide, by decide, ?_⟩
  have h : (match (workerC.discardCheck (workerC.agent (worker.thread 1) .ls) 0x2000 64).1 with
    | .ok _ _ => true
    | _ => false) = true := by decide +kernel
  generalize workerC.discardCheck (workerC.agent (worker.thread 1) .ls) 0x2000 64 = x at h ⊢
  obtain ⟨a, r⟩ := x
  cases a with
  | ok pa at_ => exact ⟨pa, at_, r, rfl⟩
  | _ => cases h

theorem test_wit_boundaries : worker.RunsAlone (one 0) 1 p7 {} ∧ (∃ r, workerC.doBoundary 1 .dev .publish = (.next, r) ∧ worker.Steady 1 r) ∧
    (∃ r, workerC.doBoundary 1 .dev .fence = (.next, r) ∧ worker.Steady 1 r) ∧ worker.writesPending 1 = false ∧ worker.pending 1 = false ∧ worker.turnOf (.pub 1) = true ∧
    (worker.mem.dom (worker.domKey (worker.thread 1))).stores = [] ∧ worker.pathBusy 1 .mx = false :=
  ⟨alone_of (s := worker) (by decide), got (by decide +kernel) (steady_of (by decide +kernel)), got (by decide +kernel) (steady_of (by decide +kernel)),
    by decide, by decide, by decide, by decide, by decide⟩

/-- The worker with a watch. -/
def watching (fired poll : Bool) : State := worker.modThread 1 fun t => { t with watch := some ⟨.phys, 64, 64, fired, poll, 0⟩ }

theorem test_wit_watches : (∀ sp ∈ [{ srcs := memSrcs at2 false }, { srcs := [], dsts := [(v 1, 1)] }, { srcs := [⟨1, v 4, .int⟩], dsts := [(v 1, 1)] }],
      worker.RunsAlone (one 0) 1 p7 sp) ∧
    (∃ x r, workerC.place 1 0x2000 1 0 .r = (.ok x, r) ∧ (r.prepareAt (r.agent (worker.thread 1) .ls) 0x2000 0x2000 128 false x.2).1 = .go ∧ x.1 = 0x2000) ∧
    (∀ sp ∈ [{ srcs := [], dsts := [(v 1, 1)] }, { srcs := [⟨1, v 4, .int⟩], dsts := [(v 1, 1)] }, { srcs := [⟨1, v 5, .int⟩], dsts := [(v 1, 1)] }],
      (watching false false).RunsAlone (one 0) 1 p7 sp) ∧
    (watching false false).bits 1 (v 5) 32 = 0 ∧ (watching false false).bits 1 (v 4) 32 ≠ 0 ∧ ((watching true false).thread 1).watch.isSome = true ∧
    ((watching false false).modThread 1 fun t => { t with run := .waiting ⟨.line, 0, false, true, 1, 1⟩ }).timedOut ≠ [] := by
  refine ⟨aloneAll_of (s := worker) (by decide), ?_, aloneAll_of (s := watching false false) (by decide), by decide, by decide, by decide, by decide⟩
  exact ok_of (fun x r => decide ((r.prepareAt (r.agent (worker.thread 1) .ls) 0x2000 0x2000 128 false x.2).1 = .go) && decide (x.1 = 0x2000))
    (fun _ _ h => by simpa using h) (by decide +kernel)

/-- A copy of the worker whose bytes are to land. -/
def landing : Acpy := ⟨1, 1, ⟨0, .phys, 0⟩, 0, .h, 0, 8, 0x2000, 32, 16, 0, ⟨0, []⟩, [], false, 0, ⟨0x1000, 0⟩, .bytes (List.replicate 16 9),
  some (List.replicate 16 9)⟩

/-- It before it has read its source. -/
def reading : Acpy := { landing with rd := .unread, data := none }

def copyCode (x : CopyRd × State) : Option Nat := match x.1 with
  | .code k => some k
  | .ok _ => some 0
  | _ => none

theorem copied_of (x : CopyRd × State) (h : (copyCode x == some 0 && !(x.1 matches .code _)) = true) : ∃ bs r, x = (.ok bs, r) := by
  obtain ⟨a, r⟩ := x
  cases a with
  | ok bs => exact ⟨bs, r, rfl⟩
  | _ => simp [copyCode] at h

theorem coded_of (x : CopyRd × State) (h : ((x.1 matches .code _) && copyCode x != some 0x10) = true) :
    ∃ k r, x = (.code k, r) ∧ k ≠ 0x10 := by
  obtain ⟨a, r⟩ := x
  cases a with
  | code k => exact ⟨k, r, rfl, by simpa [copyCode] using h⟩
  | _ => simp at h

theorem test_wit_copies : (∀ sp ∈ [{ ctl := false, srcs := [⟨1, v 8, .int⟩, ⟨2, v 2, .addr⟩, ⟨3, .vz, .int⟩], dsts := [(v 1, 1)], qdst := false },
      { ctl := false, srcs := [⟨1, v 4, .int⟩] }], worker.RunsAlone (one 0) 1 p7 sp) ∧
    (worker.thread 1).cntOf 2 ≠ 15 ∧ 8 % (4 * 2 ^ 1) = 0 ∧ worker.scrCheck 1 8 8 = none ∧ (worker.thread 1).cntOf 0 ≤ (worker.bits 1 (v 4) 32).toNat ∧
    (let s := worker.modThread 1 fun t => { t with cnt := (0, 65, 0) }
     s.RunsAlone (one 0) 1 p7 { ctl := false, srcs := [⟨1, v 4, .int⟩] } ∧ (s.bits 1 (v 4) 32).toNat < (s.thread 1).cntOf 1) ∧
    (let s := worker.onCore fun k => { k with acpys := [reading] }
     s.copiesReady = [reading] ∧ ∃ bs r, s.copyRead reading = (.ok bs, r)) ∧
    (let x : Acpy := { reading with src := 2 ^ 51 }
     let s := worker.onCore fun k => { k with acpys := [x] }
     s.copiesReady = [x] ∧ ∃ k r, s.copyRead x = (.code k, r) ∧ k ≠ 0x10) ∧
    (let x : Acpy := { reading with rgn := 1 }
     let s := (worker.onCore fun k => { k with acpys := [x] }).onPlat fun p => { p with health := { p.health with atRisk := [2] } }
     s.copiesReady = [x] ∧ copyCode (s.copyRead x) = some 0x10) ∧
    (∀ x ∈ [{ landing with data := none }, { reading with rd := .stopped 6 }, { reading with rd := .stopped 0x17 }],
      (worker.onCore fun k => { k with acpys := [x] }).copiesReady = [x]) ∧
    (let s := worker.onCore fun k => { k with acpys := [landing], reqs := [{ request .acpy .home with dest := [9] }] }
     s.thread? landing.thr ≠ none ∧ (s.core.reqs.find? fun q => q.id == landing.id).map (·.dest) = some [9]) ∧
    (worker.onCore fun k => { k with acpys := [landing] }).copiesReady = [landing] ∧ (List.replicate 16 (9 : Byte)).length ≤ landing.span ∧
    worker.mem.scr.sorted = true := by
  refine ⟨aloneAll_of (s := worker) (by decide), by decide, by decide, by decide, by decide, ⟨?_, by decide⟩, ⟨rfl, ?_⟩, ⟨rfl, ?_⟩, by decide, by decide, by decide,
    rfl, by decide, rfl⟩
  · exact alone_of (s := worker.modThread 1 fun t => { t with cnt := (0, 65, 0) }) (by decide)
  · exact copied_of _ (by decide +kernel)
  · exact coded_of _ (by decide +kernel)

/-! Channels, shuffles, synchronisation, ports, patterns, objects. -/

/-- The worker with channel 8 of its die in use by it. -/
def channelled (st : Nat) : State := worker.onTask fun k => { k with
  channels := [(8, ⟨0, ⟨0, .phys, 0⟩, 1, 0, .h, st, 0, 0x2000, none, none, none, ⟨0, []⟩, 0, none, false⟩)] }

/-- The same with a record in progress. -/
def copying : State := (channelled 2).onTask fun k => { k with
  channels := k.channels.map fun e => (e.1, { e.2 with work := some ⟨⟨0, 0x2000, 0x3000, 8, 0, 0⟩, 0, false, [], false, false⟩ }) }

/-- A shuffle descriptor at 0x2000 that moves one byte from scratch address 0 to 4. -/
def shuffling : State := worker.withWords [(0x2000, 0x0000000100010000), (0x2008, 0x0000000400000000)]

/-- The worker with v5 holding the handle of its counter. -/
def gated : State := worker.withCounter.modThread 1 fun t => { t with regs := Map.put t.regs 5 ⟨2 ^ 18, .i32⟩ }

/-- The worker's cluster with one shuffle command done, of token 8, and one queued. -/
def shuffled : State := worker.modCluster 0 fun k => { k with shDone := [(8, 0)], shTok := 9 }

theorem test_wit_channels : (∀ sp ∈ [{ ctl := false, srcs := [⟨1, v 8, .int⟩, ⟨2, v 2, .addr⟩], primary := true, bnd := some (.dev, .chstart) },
      { ctl := false, srcs := [⟨1, v 8, .int⟩, ⟨2, v 2, .addr⟩, ⟨3, v 5, .int⟩], primary := true, bnd := some (.dev, .chstart) },
      { ctl := false, srcs := [⟨1, v 8, .int⟩], dsts := [(v 10, 2)], primary := true }, { ctl := false, srcs := [⟨1, v 8, .int⟩], primary := true },
      { ctl := false, srcs := [⟨1, v 2, .addr⟩], dsts := [(v 1, 1)] }, { ctl := false, srcs := [⟨1, v 8, .int⟩], dsts := [(v 1, 1)] }],
      worker.RunsAlone (one 0) 1 p7 sp) ∧
    worker.chanBusy 8 = none ∧ worker.pathBusy 1 .ls = false ∧ (∃ r, workerC.doBoundary 1 .dev .chstart = (.next, r) ∧ worker.Steady 1 r) ∧
    (gated.counterByHandle 0 (gated.bits 1 (v 5) 32).toNat).isSome = true ∧ (gated.bits 1 (v 5) 32).toNat < 2 ^ 24 ∧
    (((channelled 5).chanBusy 8).map (·.dom.space) = some ((channelled 5).thread 1).space ∧ (channelled 5).Steady 1 (((channelled 5).charge [1]).chanAbort 8)) ∧
    ((channelled 5).chanBusy 8).map (fun k => (k.ending, k.work)) = some (false, none) ∧ (((channelled 5).charge [1]).chanAbort 8).chanBusy 8 = none ∧
    ((copying.chanBusy 8).map fun k => (k.ending, k.work.isSome)) = some (false, true) ∧
    (let x := (shuffling.charge [1]).readPlain ((shuffling.charge [1]).agent (shuffling.thread 1) .ls) 0x2000 32
     let bs := bytesLE 8 0x0000000100010000 ++ bytesLE 8 0x0000000400000000 ++ List.replicate 16 0
     x.1 = .ok bs ∧ x.2.shufCheck 0x2000 bs (ShufCmd.ofBytes bs (shuffling.thread 1)) = none ∧ shuffling.Steady 1 x.2) ∧
    (shuffled.clusterAt 0).shuffled 8 = some (some (2 ^ 31)) ∧ (channelled 2).btSteps ≠ [] ∧
    (worker.modCluster 0 fun k => { k with shLate := [(1, 0, 7)] }).shSteps ≠ [] := by
  refine ⟨aloneAll_of (s := worker) (by decide), by decide, by decide, got (by decide +kernel) (steady_of (by decide +kernel)), by decide, by decide,
    ⟨by decide, steady_of (by decide +kernel)⟩, by decide, by decide, by decide, ⟨by decide +kernel, by decide +kernel, steady_of (by decide +kernel)⟩,
    by decide, by decide, by decide⟩

/-- A thread whose barrier 3 expects n of which a have arrived, in phase 0xFFFF, with a token of phase p in v2. -/
def atBarrier (n a p : Nat) : State := (lone 0 (holding [(2, ⟨BitVec.ofNat 64 (p * 2 ^ 16 + 3), .i32⟩), (4, ⟨2048, .i32⟩)])).onCore fun k =>
  { k with barriers := if n = 0 then [] else [(35, ⟨0, 0, true, false, n, a, 0, 0xFFFF, [], []⟩)] }

theorem test_wit_barriers : (∀ sp ∈ [{ ctl := false, srcs := [⟨1, v 4, .int⟩] }, { ctl := false }, { ctl := false, dsts := [(v 1, 1)], primary := true },
      { ctl := false, primary := true }], (atBarrier 0 0 0).RunsAlone (one 0) 1 p7 sp ∧ (atBarrier 2 0 0xFFFF).RunsAlone (one 0) 1 p7 sp ∧
        (atBarrier 2 1 0xFFFE).RunsAlone (one 0) 1 p7 sp) ∧
    ((atBarrier 0 0 0).core.barriers.getD Barrier.reset (32 * 1 + 3)).init = false ∧ ((atBarrier 0 0 0).bits 1 (v 4) 32).toNat ≤ 2048 ∧
    (atBarrier 2 0 0xFFFF).barWaiter 35 = false ∧ ((atBarrier 2 0 0xFFFF).bits 1 (v 2) 32).toNat = 0xFFFF * 2 ^ 16 + 3 ∧
    (∀ a ∈ [0, 1], let b := (atBarrier 2 a 0).core.barriers.getD Barrier.reset 35
      b.init = true ∧ b.owner = 0 ∧ b.ownerFn = 0 ∧ b.brk = false ∧ b.phase < 2 ^ 16 ∧ b.arrived = a ∧ b.expect = 2 ∧ b.pend = [] ∧
        (atBarrier 2 a 0).coArrives 0 3 = false) ∧
    (((atBarrier 2 0 0).thread 1).id.lane < 32 ∧
      ((mates fun _ => id).thread 2).id.ctx = ((mates fun _ => id).thread 1).id.ctx ∧ ((mates fun _ => id).thread 2).id.lane < 32 ∧
      ((mates fun _ => id).thread 1).id.lane < ((mates fun _ => id).thread 2).id.lane ∧
      (let s := (mates fun _ => id).onCore fun k => { k with barriers := (atBarrier 2 0 0).core.barriers }
       (s.barrier (s.thread 1) 3).arrived + 2 ≤ (s.barrier (s.thread 1) 3).expect)) := by
  refine ⟨fun sp hs => ⟨aloneAll_of (s := atBarrier 0 0 0) (by decide) sp hs, aloneAll_of (s := atBarrier 2 0 0xFFFF) (by decide) sp hs,
    aloneAll_of (s := atBarrier 2 1 0xFFFE) (by decide) sp hs⟩, by decide, by decide, by decide, by decide, by decide, by decide⟩

/-- The worker with a future at 0x2000 of value 5 and the given state word. -/
def futureOf (w : Word) : State := worker.withWords [(0x2000, 5), (0x2008, w)]

/-- A future of the worker as it is read for writing; filled with 0 after the boundary; claimed. -/
def futureW (w : Word) : Except Flow FutAt × State := ((futureOf w).charge [1]).future 1 0x2000 .dev .w
def filled (f : FutAt) (r : State) : State :=
  let b := (r.doBoundary 1 .dev .fput).2
  (b.putFuture 1 0x2000 .dev f (b.lastBnd 1) 0 (f.word % 2 ^ 62 + 2 * 2 ^ 62)).modCrew 1 fun k => { k with claims := k.claims.filter (· != (Space.phys, 0x2000)) }
def claimed (f : FutAt) (r : State) : State :=
  (r.putFuture 1 0x2000 .dev f [] f.value (2 ^ 62 + 1)).modCrew 1 fun k => { k with claims := k.claims ++ [(Space.phys, 0x2000)] }

theorem test_wit_futures : (∀ st ∈ [0, 1, 2, 3], ∃ f r, ((futureOf (BitVec.ofNat 64 (st * 2 ^ 62))).charge [1]).future 1 0x2000 .dev .r = (.ok f, r) ∧
      (f.word / 2 ^ 62 = st ∧ f.down = false ∧ f.word < 2 ^ 64 ∧ (futureOf (BitVec.ofNat 64 (st * 2 ^ 62))).Steady 1 r)) ∧
    (∀ sp ∈ [{ ctl := false, srcs := [⟨1, v 2, .addr⟩], dsts := [(v 10, 2)], primary := true },
      { ctl := false, srcs := [⟨1, v 2, .addr⟩, ⟨2, v 10, .i64⟩], primary := true, bnd := some (.dev, .fput) },
      { ctl := false, srcs := [⟨1, v 2, .addr⟩], primary := true }], worker.RunsAlone (one 0) 1 p7 sp) ∧ worker.pending 1 = false ∧
    (worker.thread 1).ltid.toNat % 2 ^ 48 = 1 ∧
    (okWith (futureW 0) (fun f r => decide (f.word = 0) && !f.down && steadyB (futureOf 0) 1 r && decide ((r.doBoundary 1 .dev .fput).1 = .next)) = true ∧
      okWith (futureW 0) (fun _ r => steadyB (futureOf 0) 1 (r.doBoundary 1 .dev .fput).2) = true ∧
      okWith (futureW 0) (fun f r => steadyB (futureOf 0) 1 (filled f r)) = true ∧
      okWith (futureW 0) (fun f r => steadyB (futureOf 0) 1 (claimed f r)) = true ∧
      okWith (futureW 0) (fun _ r => r.core.crews.all fun k => decide (k.claims.length < 16)) = true) ∧
    okWith (futureW (2 ^ 62 + 1)) (fun f r => decide (f.word = 2 ^ 62 + 1) && !f.down && steadyB (futureOf (2 ^ 62 + 1)) 1 (filled f r)) = true ∧
    (let s := worker.modThread 1 fun t => { t with run := .waiting ⟨.fget, 0, false, true, 0x2000, 0⟩, mark := some 0 }
     s.core.threads = [s.thread 1] ∧ (s.thread 1).mark = some 0 ∧ s.resident (s.thread 1) = true ∧ s.futurePa (s.thread 1) 0x2000 = some 0x2000) := by
  have h : ∀ (s : State) (st : Nat), okWith ((s.charge [1]).future 1 0x2000 .dev .r)
      (fun f r => decide (f.word / 2 ^ 62 = st) && !f.down && decide (f.word < 2 ^ 64) && steadyB s 1 r) = true →
      ∃ f r, (s.charge [1]).future 1 0x2000 .dev .r = (.ok f, r) ∧ (f.word / 2 ^ 62 = st ∧ f.down = false ∧ f.word < 2 ^ 64 ∧ s.Steady 1 r) := fun s st h =>
    ok_of _ (fun _ _ h => by
      simp only [Bool.and_eq_true, Bool.not_eq_true', decide_eq_true_eq] at h; exact ⟨h.1.1.1, h.1.1.2, h.1.2, steady_of h.2⟩) h
  refine ⟨fun st hs => h _ st ?_, aloneAll_of (s := worker) (by decide), by decide, by decide, ⟨by decide +kernel, by decide +kernel, by decide +kernel,
    by decide +kernel, by decide +kernel⟩, by decide +kernel, by decide⟩
  rcases List.mem_cons.1 hs with rfl | hs
  · decide +kernel
  rcases List.mem_cons.1 hs with rfl | hs
  · decide +kernel
  rcases List.mem_cons.1 hs with rfl | hs
  · decide +kernel
  rcases List.mem_cons.1 hs with rfl | hs
  · decide +kernel
  · cases hs

/-- The worker with the image of a port of cluster 0 at 0x2000, and with port 5 of cluster 0 open, holding n messages; its handle in v12. -/
def porter (n : Nat) : State := ((worker.withWords [(0x2000, 0x0000000000020500)]).onTask fun k => { k with
  ports := [(5, ⟨true, 1, 0, 0, 2, false, List.replicate n (List.replicate 32 0), [], false, []⟩)] }).modThread 1 fun t =>
    { t with regs := Map.put t.regs 12 ⟨0x10500, .b32⟩ }

def opener : State := worker.withWords [(0x2000, 0x0000000001040000)]

theorem test_wit_ports : (∀ sp ∈ [{ ctl := false, srcs := [⟨1, v 2, .addr⟩], dsts := [(v 1, 1)], primary := true },
      { ctl := false, srcs := [⟨1, v 12, .int⟩], primary := true },
      { ctl := false, srcs := [⟨1, v 12, .int⟩, ⟨2, v 16, .oct⟩], primary := true, bnd := some (.dev, .send) }],
      opener.RunsAlone (one 0) 1 p7 sp ∧ (porter 1).RunsAlone (one 0) 1 p7 sp) ∧
    (let x := (opener.charge [1]).readPlain ((opener.charge [1]).agent (opener.thread 1) .ls) 0x2000 16
     x.1 = .ok (bytesLE 8 0x01040000 ++ List.replicate 8 0) ∧ opener.Steady 1 x.2 ∧ offHome x.2 0 = false ∧ x.2.clusterOn 0 0 = true) ∧
    (∀ n ∈ [1, 2], let s := porter n
      (s.task.ports.find 5).any (fun q => q.open_ && q.gen == (s.bits 1 (v 12) 32).toNat / 2 ^ 16 && q.queue.length == n && q.depth == 2 && !q.brk &&
        !q.prods.contains 1 && decide (q.prods.length < 4)) = true ∧ offHome s 0 = false ∧ s.clusterOn 0 0 = true ∧
      ∃ r, (s.charge [1]).doBoundary 1 .dev .send = (.next, r) ∧ s.Steady 1 r ∧ s.Steady 1 (r.portEvent 0)) := by
  refine ⟨fun sp hs => ⟨aloneAll_of (s := opener) (by decide) sp hs, aloneAll_of (s := porter 1) (by decide) sp hs⟩,
    ⟨by decide +kernel, steady_of (by decide +kernel), by decide +kernel, by decide +kernel⟩, fun n hn => ⟨?_, by revert n; decide, by revert n; decide, ?_⟩⟩
  · revert n; decide
  · rcases List.mem_cons.1 hn with rfl | hn
    · exact got (by decide +kernel) ⟨steady_of (by decide +kernel), steady_of (by decide +kernel)⟩
    rcases List.mem_cons.1 hn with rfl | hn
    · exact got (by decide +kernel) ⟨steady_of (by decide +kernel), steady_of (by decide +kernel)⟩
    · cases hn

/-- The porter with template 2 of cluster 0 set, the image of an entry over port 5 at 0x2000 and of a template at 0x2040, and entry 0 set. -/
def patterned : State := (((porter 1).withWords [(0x2000, 0x10500), (0x2020, 0x20001), (0x2028, 0x3000), (0x2040, 0x9000), (0x2060, 0), (0x2078, 2 * 2 ^ 12)]).onTask
  fun k => { k with
    tmpls := [(2, ⟨0, 0, .h, ⟨0, 0, 0, 0, 0, 0, 0, 0, 0⟩⟩)]
    patterns := [(0, ⟨0, 0, .h, false, false, [(5, 1)], 0, 2, 0x3000, 0, 0⟩)] }).modThread 1 fun t =>
      { t with regs := Map.put (Map.put t.regs 14 ⟨0x2040, .w64lo⟩) 15 ⟨0, .w64hi⟩ }

def patternedC : State := patterned.charge [1]
def image (va : Nat) : List Byte := (rangeFrom va 64).map fun a => patterned.mem.bytes.getD memDefault a

/-- A field of an image at 0x2000 or 0x2040. -/
def fieldAt (va o n : Nat) : Nat := ofBytesLE (((image va).drop o).take n)

/-- Entry 0 of the patterned thread, armed after its ring was found to be there. -/
def armedThere (r : State) : State :=
  r.onTask fun k => { k with patterns := k.patterns.put 0 ⟨0, 0, .h, true, false, [(5, 1)], 0, 2, 0x3000, 0, 0⟩ }

theorem test_wit_patterns : (∀ sp ∈ [{ ctl := false, srcs := [⟨1, v 2, .addr⟩, ⟨2, .vz, .int⟩], primary := true },
      { ctl := false, srcs := [⟨1, v 14, .addr⟩, ⟨2, .vz, .int⟩], primary := true }, { ctl := false, srcs := [⟨1, .vz, .int⟩], primary := true }],
      patterned.RunsAlone (one 0) 1 p7 sp) ∧
    (offHome patterned 0 = false ∧ patterned.clusterOn 0 0 = true ∧ (patterned.bits 1 .vz 32).toNat = 0) ∧
    (∀ va ∈ [0x2000, 0x2040], let x := patternedC.readPlain (patternedC.agent (patterned.thread 1) .ls) va 64
      x.1 = .ok (image va) ∧ patterned.Steady 1 x.2 ∧ x.2.task = patternedC.task) ∧
    (fieldAt 0x2000 0x20 1 = 1 ∧ fieldAt 0x2000 0x21 1 = 0 ∧ fieldAt 0x2000 0x22 1 = 2 ∧ fieldAt 0x2000 0x23 5 = 0 ∧ fieldAt 0x2000 0x30 16 = 0 ∧
      fieldAt 0x2000 0x28 8 = 0x3000 ∧ (∀ j < 7, fieldAt 0x2000 (4 * (j + 1)) 4 = 0) ∧ fieldAt 0x2000 0 4 = 0x10500 ∧
      (patterned.task.ports.find 5).any (fun q => q.open_ && q.gen == 1 && !q.brk && q.asid == 0 && q.fn == 0) = true ∧
      (patterned.task.patterns.find 0).any (fun e => !e.armed && e.asid == 0 && e.fn == 0) = true ∧
      (patterned.task.tmpls.find 2).any (fun m => m.asid == 0 && m.fn == 0) = true) ∧
    (let m := TaskRec.ofBytes (image 0x2040)
     m.args = 0 ∧ m.rbase = 0 ∧ m.wbase = 0 ∧ m.rlen = 0 ∧ m.wlen = 0 ∧
      (patternedC.readPlain (patternedC.agent (patterned.thread 1) .ls) 0x2040 64).2.ctrlBad 0 m 7 = false ∧ patterned.task.tmpls.find 0 = none) ∧
    (∃ x r, patternedC.place 1 0x3000 1 0 .r = (.ok x, r) ∧ (patterned.Steady 1 ((armedThere r).portEvent 0) ∧ (armedThere r).nextFiring 0 = none)) := by
  refine ⟨aloneAll_of (s := patterned) (by decide), by decide, fun va hv => ?_, by decide +kernel, by decide +kernel,
    ok_of (fun _ r => steadyB patterned 1 ((armedThere r).portEvent 0) && decide ((armedThere r).nextFiring 0 = none))
      (fun _ _ h => by simp only [Bool.and_eq_true, decide_eq_true_eq] at h; exact ⟨steady_of h.1, h.2⟩) (by decide +kernel)⟩
  rcases List.mem_cons.1 hv with rfl | hv
  · exact ⟨by decide +kernel, steady_of (by decide +kernel), by decide +kernel⟩
  rcases List.mem_cons.1 hv with rfl | hv
  · exact ⟨by decide +kernel, steady_of (by decide +kernel), by decide +kernel⟩
  · cases hv

/-- The patterned thread with barrier 3, a counter and a future of its own. -/
def owner : State := (patterned.withCounter.onCore fun k => { k with barriers := [(35, ⟨0, 0, true, false, 2, 0, 0, 0, [], []⟩)] }).modThread 1 fun t =>
  { t with regs := Map.put (Map.put t.regs 5 ⟨3, .i32⟩) 16 ⟨0x4000, .b32⟩ }
def ownerC : State := owner.charge [1]

theorem test_wit_objects : (∀ sp ∈ [{ ctl := false, srcs := [⟨1, v 12, .int⟩], primary := true }, { ctl := false, srcs := [⟨1, .vz, .int⟩], primary := true },
      { ctl := false, srcs := [⟨1, v 5, .int⟩], primary := true }, { ctl := false, srcs := [⟨1, v 2, .addr⟩], primary := true },
      { ctl := false, srcs := [⟨1, v 16, .addr⟩], primary := true }, { ctl := false, srcs := [⟨1, v 12, .int⟩], dsts := [(v 10, 2)] },
      { ctl := false, srcs := [⟨1, .vz, .int⟩], dsts := [(v 10, 2)] }, { ctl := false, srcs := [⟨1, v 2, .addr⟩], dsts := [(v 10, 2)] }],
      owner.RunsAlone (one 0) 1 p7 sp) ∧
    (offHome owner 0 = false ∧ owner.clusterOn 0 0 = true) ∧
    ((owner.task.ports.find 5).any (fun q => q.open_ && q.gen == (owner.bits 1 (v 12) 32).toNat / 2 ^ 16 && q.asid == 0 && q.fn == 0 && !q.brk) = true ∧
      owner.Steady 1 (ownerC.breakPort 5)) ∧
    (owner.task.patterns.find 0).any (fun e => e.asid == 0 && e.fn == 0) = true ∧
    ((let b := owner.core.barriers.getD Barrier.reset 35; b.init = true ∧ b.owner = 0 ∧ b.ownerFn = 0 ∧ b.brk = false) ∧
      owner.Steady 1 (ownerC.breakBarrier 35)) ∧
    (∃ f x, ownerC.future 1 0x2000 .sys .w = (.ok f, x) ∧ (f.down = false ∧ owner.Steady 1 x ∧ f.word = 0 ∧
      owner.Steady 1 (x.putFuture 1 0x2000 .sys f [] f.value (f.word % 2 ^ 62 + 3 * 2 ^ 62)))) ∧
    ((ownerC.readStrong (ownerC.agent (owner.thread 1) .ls) .sys 0x2008 8).1 = .ok (List.replicate 8 0) ∧
      owner.Steady 1 (ownerC.readStrong (ownerC.agent (owner.thread 1) .ls) .sys 0x2008 8).2) ∧
    ((owner.counterOf 0 (owner.pairBits 1 (v 16)).toNat).map (·.1) = some 0 ∧ offHome owner (homeIn owner .phys 0 0x4000).1 = false ∧
      bitOf (ownerC.counterWord ⟨1, true, 0, 0, 0x4000, 0x4000, []⟩) 63 = false ∧ owner.Steady 1 (ownerC.chore (.brk 0 0))) ∧
    ((ownerC.readStrong (ownerC.agent (owner.thread 1) .ls) .sys 0x4000 8).1 = .ok (List.replicate 8 0) ∧
      owner.Steady 1 (ownerC.readStrong (ownerC.agent (owner.thread 1) .ls) .sys 0x4000 8).2) := by
  refine ⟨aloneAll_of (s := owner) (by decide), by decide, ⟨by decide, steady_of (by decide +kernel)⟩, by decide,
    ⟨by decide, steady_of (by decide +kernel)⟩, ?_, ⟨by decide +kernel, steady_of (by decide +kernel)⟩,
    ⟨by decide, by decide, by decide +kernel, steady_of (by decide +kernel)⟩, ⟨by decide +kernel, steady_of (by decide +kernel)⟩⟩
  exact ok_of (fun f x => !f.down && steadyB owner 1 x && decide (f.word = 0) &&
      steadyB owner 1 (x.putFuture 1 0x2000 .sys f [] f.value (f.word % 2 ^ 62 + 3 * 2 ^ 62))) (fun _ _ h => by
    simp only [Bool.and_eq_true, Bool.not_eq_true', decide_eq_true_eq] at h; exact ⟨h.1.1.1, steady_of h.1.1.2, h.1.2, steady_of h.2⟩) (by decide +kernel)

/-- The owner with its objects broken. -/
def broken : State := (owner.onTask fun k => { k with
    ports := k.ports.map fun e => (e.1, { e.2 with brk := true })
    patterns := k.patterns.map fun e => (e.1, { e.2 with brk := true }) }).onCore fun k =>
  { k with barriers := k.barriers.map fun e => (e.1, { e.2 with brk := true }) }

theorem test_wit_broken : (∀ sp ∈ [{ ctl := false, srcs := [⟨1, v 12, .int⟩], primary := true }, { ctl := false, srcs := [⟨1, .vz, .int⟩], primary := true },
      { ctl := false, srcs := [⟨1, v 5, .int⟩], primary := true }], broken.RunsAlone (one 0) 1 p7 sp) ∧
    (broken.task.ports.find 5).map (·.brk) = some true ∧ (broken.task.patterns.find 0).map (·.brk) = some true ∧
    (broken.core.barriers.getD Barrier.reset 35).brk = true ∧ owner.unitBusy 0 = false ∧
    (∃ f x, futureW (3 * 2 ^ 62) = (.ok f, x) ∧ f.word / 2 ^ 62 = 3 ∧ f.word < 2 ^ 64 ∧ f.down = false ∧ (futureOf (3 * 2 ^ 62)).Steady 1 x) ∧
    bitOf ((owner.withWords [(0x4000, 2 ^ 63)]).counterWord ⟨1, true, 0, 0, 0x4000, 0x4000, []⟩) 63 = true := by
  refine ⟨aloneAll_of (s := broken) (by decide), by decide, by decide, by decide, by decide, ?_, by decide +kernel⟩
  exact ok_of (fun f x => decide (f.word / 2 ^ 62 = 3) && decide (f.word < 2 ^ 64) && !f.down && steadyB (futureOf (3 * 2 ^ 62)) 1 x) (fun _ _ h => by
    simp only [Bool.and_eq_true, Bool.not_eq_true', decide_eq_true_eq] at h
    exact ⟨h.1.1.1, h.1.1.2, h.1.2, steady_of h.2⟩) (by decide +kernel)

/-! Queues, tasks, the matrix engine, collectives. -/

/-- A thread whose queue register 3 is bound to an endpoint, its cluster's box holding rows; 64 in v4. -/
def bound (core ep : Nat) (push brk : Bool) (rows : List (List Word)) : State :=
  ((lone core (holding [(4, ⟨64, .i32⟩), (5, ⟨1, .i32⟩)])).modCrew 1 fun k => { k with qb := [(3, ⟨ep, 0, push, brk, []⟩)] }).modCluster 0
    fun k => k.setRows ep rows

theorem test_wit_bindings : (∀ core ∈ [0, 4], (∀ sp ∈ [{ srcs := [⟨1, v 5, .int⟩] }, {}, { dsts := [(v 1, 1)] }, { dsts := [(v 1, 1)], qdst := false }],
      (lone core id).RunsAlone (one core) 1 p7 sp ∧ (bound core (1 - core / 4) false false [[7]]).RunsAlone (one core) 1 p7 sp) ∧
      (lone core id).boxForeign 0 0 = false ∧ (lone core id).binding 1 3 = none) ∧
    ((lone 0 id).pkg.die 1).drst ≠ 15 ∧ (bound 0 1 true true []).drains 0 = false ∧
    (bound 0 1 false true []).RunsAlone (one 0) 1 p7 { dsts := [(v 1, 1)], qdst := false } ∧
    (bound 0 1 false true []).binding 1 3 = some ⟨1, 0, false, true, []⟩ ∧ ((bound 0 1 false false []).clusterAt 0).rows 1 = [] ∧
    ((bound 4 0 false false [[7, 8]]).clusterAt 0).rows 0 = [7, 8] :: [] := by
  refine ⟨fun core hc => ?_, by decide, by decide, alone_of (s := bound 0 1 false true []) (by decide), by decide, by decide, by decide⟩
  rcases List.mem_cons.1 hc with rfl | hc
  · exact ⟨fun sp hs => ⟨aloneAll_of (s := lone 0 id) (by decide) sp hs, aloneAll_of (s := bound 0 1 false false [[7]]) (by decide) sp hs⟩, by decide, by decide⟩
  rcases List.mem_cons.1 hc with rfl | hc
  · exact ⟨fun sp hs => ⟨aloneAll_of (s := lone 4 id) (by decide) sp hs, aloneAll_of (s := bound 4 0 false false [[7]]) (by decide) sp hs⟩, by decide, by decide⟩
  · cases hc

def popping : Spec := { srcs := [⟨1, .que 3, .any⟩], dsts := [(v 1, 1)] }
def pushing : Spec := { srcs := [⟨1, v 4, .any⟩], dsts := [(.que 3, 1)] }

theorem test_wit_pops_and_pushes : (∀ rows ∈ [[], [[7]], [List.replicate 32 9]], (bound 0 1 false false rows).Passes (one 0) p7 popping ∧
      (bound 0 1 false false rows).binding 1 3 = some ⟨1, 0, false, false, []⟩ ∧ ((bound 0 1 false false rows).clusterAt 0).rows 1 = rows) ∧
    (bound 4 0 false false [[7, 8]]).Passes (one 4) p7 popping ∧
    (((lone 0 id).withFn handlers).Passes (one 0) p7 popping ∧ ((lone 0 id).withFn handlers).binding 1 3 = none ∧
      ((lone 0 id).withFn handlers).TrapOpen 1 0x18 true) ∧
    (∀ core ∈ [0, 4], (bound core (core / 4) true false []).Passes (one core) p7 pushing) ∧ (bound 4 1 true false []).drains 0 = false := by
  refine ⟨fun rows hr => ⟨passes_of ?_, ?_, ?_⟩, passes_of (by decide), ⟨passes_of (by decide), by decide, by unfold State.TrapOpen; decide⟩,
    fun core hc => passes_of ?_, by decide⟩
  · revert rows; decide
  · revert rows; decide
  · revert rows; decide
  · revert core; decide

/-- The counted worker where addresses of its ASID are mapped to themselves, at counter values n. -/
def mapped (n : Word) : State := ((counted.withWords [(0x2000, n), (0x10000, 0x11001), (0x11000, 0x1F), (0x12000, 0x10001)]).withFn
  { Fn.reset with mem := { Fn.reset.mem with asctx := 0x12000, asctxEn := true }, qCnts := 1, uCnts := 1 })
def mappedC (n : Word) : State := (mapped n).charge [1]

def depper (q : Nat) : State := worker.withFn { Fn.reset with qCnts := q }
def depperC (q : Nat) : State := (depper q).charge [1]

/-- A counter of 64 is registered at 0x2000. -/
def newCounter (r : State) (pa : Nat) : State :=
  ((r.onTask fun x => { x with counters := x.counters.put 0 ⟨1, true, 0, 0, 0x2000, pa, []⟩ }).modFn 0 fun f =>
    { f with uCnts := f.uCnts + 1 }).setCounter 1 0 ⟨1, true, 0, 0, 0x2000, pa, []⟩ [] (2 ^ 18 * 2 ^ 32 + 64)

/-- A counter has been decremented after its boundary. -/
def decremented (r : State) : State :=
  let q := (r.doBoundary 1 .dev .depdec).2.xfenceAll 1
  q.decrement 1 0 (q.knowOf 1) 0

theorem test_wit_tasks : (∀ sp ∈ [{ srcs := [⟨1, v 2, .addr⟩, ⟨2, v 4, .int⟩], dsts := [(v 10, 2)], primary := true },
      { srcs := [⟨1, v 2, .addr⟩, ⟨2, v 4, .int⟩], dsts := [(v 1, 1)], primary := true }], worker.RunsAlone (one 0) 1 p7 sp ∧
        (depper 1).RunsAlone (one 0) 1 p7 sp) ∧
    (∀ sp ∈ [{ srcs := [⟨1, v 2, .addr⟩], primary := true, bnd := some (.dev, .depdec) }, { srcs := [⟨1, v 2, .addr⟩], primary := true }],
      (mapped 5).RunsAlone (one 0) 1 p7 sp ∧ (mapped (2 ^ 63)).RunsAlone (one 0) 1 p7 sp) ∧
    (∃ r, workerC.readPlain (workerC.agent (worker.thread 1) .ls) 0x2000 64 = (.ok (List.replicate 64 0), r) ∧
      worker.Steady 1 (r.enqueue 0 64 (some .h) (TaskRec.ofBytes (List.replicate 64 0))).2) ∧
    (∀ q ∈ [0, 1], ∃ pa r, (depperC q).counterPlace 1 0x2000 ((depperC q).counterSpace 1 0x2000) = (.ok pa, r) ∧ (pa.2 = false ∧ r.counterAnywhere 0x2000 = none ∧ (depper q).Steady 1 r ∧
      (r.fnAt 0).uCnts = 0 ∧ (r.fnAt 0).qCnts = q ∧ (depper q).Steady 1 (newCounter r pa.1))) ∧
    (∃ x r, (mappedC 5).namedCounter 1 0x2000 = (.ok x, r) ∧ (x.1 = 0 ∧ x.2.1.parked = [] ∧ (mapped 5).Steady 1 r ∧ r.counterWord x.2.1 = 5 ∧
      (r.doBoundary 1 .dev .depdec).1 = .next ∧ (mapped 5).Steady 1 (r.doBoundary 1 .dev .depdec).2 ∧ (mapped 5).Steady 1 (r.freeCounter 0) ∧
      (mapped 5).Steady 1 (decremented r))) ∧
    ∃ x r, (mappedC (2 ^ 63)).namedCounter 1 0x2000 = (.ok x, r) ∧ bitOf (r.counterWord x.2.1) 63 = true := by
  refine ⟨fun sp hs => ⟨aloneAll_of (s := worker) (by decide) sp hs, aloneAll_of (s := depper 1) (by decide) sp hs⟩,
    fun sp hs => ⟨aloneAll_of (s := mapped 5) (by decide) sp hs, aloneAll_of (s := mapped (2 ^ 63)) (by decide) sp hs⟩, ?_, ?_, ?_, ?_⟩
  · exact got (by decide +kernel) (steady_of (by decide +kernel))
  · have h : ∀ q : Nat, okWith ((depperC q).counterPlace 1 0x2000 ((depperC q).counterSpace 1 0x2000)) (fun pa r => !pa.2 && decide (r.counterAnywhere 0x2000 = none) && steadyB (depper q) 1 r &&
          decide ((r.fnAt 0).uCnts = 0) && decide ((r.fnAt 0).qCnts = q) && steadyB (depper q) 1 (newCounter r pa.1)) = true →
        ∃ pa r, (depperC q).counterPlace 1 0x2000 ((depperC q).counterSpace 1 0x2000) = (.ok pa, r) ∧ (pa.2 = false ∧ r.counterAnywhere 0x2000 = none ∧ (depper q).Steady 1 r ∧
          (r.fnAt 0).uCnts = 0 ∧ (r.fnAt 0).qCnts = q ∧ (depper q).Steady 1 (newCounter r pa.1)) := fun q h =>
      ok_of _ (fun _ _ h => by
        simp only [Bool.and_eq_true, Bool.not_eq_true', decide_eq_true_eq] at h
        exact ⟨h.1.1.1.1.1, h.1.1.1.1.2, steady_of h.1.1.1.2, h.1.1.2, h.1.2, steady_of h.2⟩) h
    intro q hq
    rcases List.mem_cons.1 hq with rfl | hq
    · exact h _ (by decide +kernel)
    rcases List.mem_cons.1 hq with rfl | hq
    · exact h _ (by decide +kernel)
    · cases hq
  · exact ok_of (fun x r => decide (x.1 = 0) && decide (x.2.1.parked = []) && steadyB (mapped 5) 1 r && decide (r.counterWord x.2.1 = 5) &&
        decide ((r.doBoundary 1 .dev .depdec).1 = .next) && steadyB (mapped 5) 1 (r.doBoundary 1 .dev .depdec).2 && steadyB (mapped 5) 1 (r.freeCounter 0) &&
        steadyB (mapped 5) 1 (decremented r))
      (fun _ _ h => by
        simp only [Bool.and_eq_true, decide_eq_true_eq] at h
        exact ⟨h.1.1.1.1.1.1.1, h.1.1.1.1.1.1.2, steady_of h.1.1.1.1.1.2, h.1.1.1.1.2, h.1.1.1.2, steady_of h.1.1.2, steady_of h.1.2, steady_of h.2⟩)
      (by decide +kernel)
  · exact ok_of (fun x r => bitOf (r.counterWord x.2.1) 63) (fun _ _ h => h) (by decide +kernel)

/-- A thread of the control core with queue register 3 bound to the outbox, 128 in v2, 0x1010 in v3, 0 in v4. -/
def driver : State := (lone 4 (inH ∘ holding [(2, ⟨128, .b32⟩), (3, ⟨0x1010, .b32⟩)])).modCrew 1 fun k => { k with qb := [(3, ⟨1, 0, true, false, []⟩)] }

/-- Its engine with both operands set to FP16. -/
def armed : State := driver.modCluster 0 fun k => { k with mx := { k.mx with a := some ⟨0, false, 0, 32⟩, b := some ⟨0, false, 0, 32⟩ } }

theorem test_wit_matrix : (∀ sp ∈ [{ simt := false }, { simt := false, srcs := [⟨1, v 2, .int⟩, ⟨2, v 2, .int⟩] }, { simt := false, srcs := [⟨2, v 2, .int⟩, ⟨3, v 3, .int⟩] },
      { simt := false, srcs := [⟨1, v 2, .int⟩, ⟨2, v 2, .int⟩, ⟨3, v 3, .int⟩] }], driver.RunsAlone (one 4) 1 p7 sp ∧ armed.RunsAlone (one 4) 1 p7 sp) ∧
    (driver.clusterAt 0).mx.defer = none ∧ (driver.clusterAt 0).mx.queue.length < 16 ∧ (driver.bits 1 (v 2) 64).toNat % 4 = 0 ∧
    (driver.bits 1 (v 3) 64).toNat < 2 ^ 15 ∧ driver.binding 1 3 = some ⟨1, 0, true, false, []⟩ ∧
    (armed.clusterAt 0).mx.view.mmaBad 128 0 = false ∧
    (driver.modCluster 0 fun k => { k with mx := { k.mx with queue := [⟨.zero 0, 1, ⟨4, .phys, 0⟩, .h, ⟨0x1000, 0⟩, 0⟩] } }).mxClusters ≠ [] :=
  ⟨fun sp hs => ⟨aloneAll_of (s := driver) (by decide) sp hs, aloneAll_of (s := armed) (by decide) sp hs⟩, by decide, by decide, by decide, by decide,
    by decide, by decide, by decide⟩

/-! Collectives, regions, system registers, checks. -/

/-- An operation of thread 1 in slot 0 of the engine of die 0, of handle 2^10. -/
def operation (written : Bool) : CollOp := {
  gen := 1, thr := 1, crew := 1, fn := 0, asid := 0, dom := ⟨0, .phys, 0⟩, lvl := .h, ltid := 0, die := 0, op := 0, red := 0, fmt := 0, mode := 0
  vtrap := false, peer := 0, src := 0, dst := 0, count := 1, weight := 0, key := 0, status := 0, offset := 0, orig := [], set := [0, 1], tag := 0
  runs := 0, next := 0, wait := 1, part := [], got := [], ws := [], buf := [], final := none, win := none, div := 0, flags := 0, rerun := false, rebc := false
  code := if written then some 0 else none, steps := [], past := [], fseq := none, written := written, know := ⟨0, []⟩, rel := [], whole := [], rgn := 0 }

/-- The counted worker in an installed view of two, with an operation of its own; its handle in v5, 1 in v6, 4096 in v7, VAs in pairs v2 and v14; a
table entry of step 1 with its counter at 0x2040. -/
def collector (written : Bool) : State :=
  (((counted.withWords [(0x2040, 1), (0x2048, 0x2000), (0x3000, 0), (0x3018, 1)]).onNor fun n =>
    { n with view := { n.view with state := 2, members := [0, 1] }, ops := [(0, operation written)] }).modThread 1 fun t =>
      { t with regs := [(2, ⟨0x3000, .w64lo⟩), (3, ⟨0, .w64hi⟩), (5, ⟨1024, .i32⟩), (6, ⟨1, .i32⟩), (7, ⟨4096, .i32⟩), (14, ⟨0x2040, .w64lo⟩),
        (15, ⟨0, .w64hi⟩)] })
def collectorC (written : Bool) : State := (collector written).charge [1]

def start (key : Nat) : CDesc := ⟨0, 0, 0, 1, 0, 0, key, 0, 0, 0⟩
def startBytes (key : Nat) : List Byte := bytesLE 24 0 ++ bytesLE 4 1 ++ bytesLE 8 0 ++ bytesLE 4 key ++ List.replicate 24 0

/-- The descriptor of an all-reduce of one element at 0x3000, key 1. -/
def starter : State := (collector true).withWords [(0x3018, 1), (0x3020, 0x100000000)]
def starter1 : State := ((starter.charge [1]).readPlain ((starter.charge [1]).agent (starter.thread 1) .ls) 0x3000 64).2
def starter2 : State := (starter1.doBoundary 1 .dev .coll).2

theorem test_wit_coll : starter.RunsAlone (one 0) 1 p7 { srcs := [⟨1, v 2, .addr⟩], dsts := [(v 1, 1)], primary := true, bnd := some (.dev, .coll) } ∧
    ((starter.charge [1]).readPlain ((starter.charge [1]).agent (starter.thread 1) .ls) 0x3000 64 = (.ok (startBytes 1), starter1)) ∧
    starter1.descCheck 1 0x3000 (CDesc.ofBytes (startBytes 1)) = (none, starter1) ∧ starter1.freeSlot 1 < 256 ∧ starter1.pathBusy 1 .ls = false ∧
    starter1.doBoundary 1 .dev .coll = (.next, starter2) ∧
    starter.Steady 1 ((starter2.xfence 1 .ls .cl).startColl 1 (CDesc.ofBytes (startBytes 1))).2 := by
  refine ⟨alone_of (s := starter) (by decide), ?_, ?_, by decide +kernel, by decide +kernel, ?_, steady_of (by decide +kernel)⟩
  · unfold starter1; exact fst_snd (by decide +kernel)
  · exact Prod.ext (by decide +kernel) rfl
  · rw [starter2]; exact fst_snd (by decide +kernel)

theorem test_wit_collectives : (∀ sp ∈ [{ srcs := [⟨1, v 5, .int⟩], dsts := [(v 10, 2)], primary := true }, { srcs := [⟨1, v 5, .int⟩], dsts := [(v 10, 2)] },
      { srcs := [⟨1, v 14, .addr⟩, ⟨2, v 6, .int⟩], primary := true }, { srcs := [⟨1, v 14, .addr⟩, ⟨2, v 6, .int⟩, ⟨3, v 5, .int⟩], primary := true },
      { lvl := .h, srcs := [⟨1, v 2, .addr⟩, ⟨2, v 7, .int⟩], dsts := [(v 1, 1)] }],
      (collector true).RunsAlone (one 0) 1 p7 sp ∧ (collector false).RunsAlone (one 0) 1 p7 sp) ∧
    (collector true).opOf 1024 = some (0, operation true) ∧ (collector false).opOf 1024 = some (0, operation false) ∧
    (let x := (collectorC false).readPlain ((collectorC false).agent ((collector false).thread 1) .ls) 0x2040 16
     let es : List StepEnt := [⟨1, 0x2000, 0⟩]
     x.1 = .ok (bytesLE 8 1 ++ bytesLE 8 0x2000) ∧ (collector false).Steady 1 x.2 ∧ (es.any (x.2.entryBad 0 (stepCount 0 2))) = false ∧
      (collector false).Steady 1 (x.2.joinSteps 0 (operation false) es)) ∧
    worker.plat.nor.view.state = 0 := by
  refine ⟨fun sp hs => ⟨aloneAll_of (s := collector true) (by decide) sp hs, aloneAll_of (s := collector false) (by decide) sp hs⟩, by decide, by decide,
    ⟨by decide +kernel, steady_of (by decide +kernel), by decide +kernel, steady_of (by decide +kernel)⟩, by decide⟩

/-- The worker with port 0 up, by which module 5 is in reach. -/
def near : State := (worker.withWords [(0x8028, 1)]).onNor fun n => { n with nrtbase := 0x8000, ports := [(0, { NPort.reset with state := 2 })] }

theorem test_wit_rejoin : (∃ m ms, near.reachable = m :: ms) ∧ worker.reachable = [] ∧ worker.plat.nor.view.state = 0 ∧
    (∀ m ∈ [1, 2], let s := worker.modThread 1 fun t => { t with mark := some m }
      (s.unmark 1).RunsAlone (one 0) 1 p7 { lvl := .h, srcs := [⟨1, v 2, .addr⟩, ⟨2, .vz, .int⟩], dsts := [(v 1, 1)] } ∧ (s.thread 1).mark = some m) := by
  refine ⟨List.exists_cons_of_ne_nil fun h => ?_, ?_, by decide, fun m hm => ?_⟩
  · have h5 : 5 ∈ near.reachable := by
      unfold State.reachable
      exact List.mem_filter.2 ⟨by decide +kernel, by decide +kernel⟩
    rw [h] at h5
    cases h5
  · unfold State.reachable
    have h : ∀ a, worker.routes a worker.portUp = [] := fun a => by
      have hp : ∀ p, worker.portUp p = false := fun p => rfl
      simp [State.routes, hp]
    simp [h]
  · rcases List.mem_cons.1 hm with rfl | hm
    · exact ⟨alone_of (s := (worker.modThread 1 fun t => { t with mark := some 1 }).unmark 1) (by decide), by decide⟩
    rcases List.mem_cons.1 hm with rfl | hm
    · exact ⟨alone_of (s := (worker.modThread 1 fun t => { t with mark := some 2 }).unmark 1) (by decide), by decide⟩
    · cases hm

/-- A thread in a containment region. -/
def inRegion : State := lone 0 fun t => { t with ct := [⟨0x1020, none, 1, .h, false, false⟩] }

/-- The copies of an assay pair. -/
def paired : State := (lone 0 id).modCrew 1 fun k => { k with peer := some 2, copy := 1, assay := { k.assay with sig := 9, bseq := 3 } }

theorem test_wit_regions : (jumper 0).RunsAlone (one 0) 1 p7 { srcs := [⟨1, v 2, .addr⟩] } ∧ ((jumper 0).thread 1).ct.length < 4 ∧
    inRegion.RunsAlone (one 0) 1 p7 {} ∧ (inRegion.thread 1).ct ≠ [] ∧ inRegion.regionBusy 1 = false ∧
    (∀ n ∈ [1, 2], paired.RunsAlone (one 0) 1 p7 { dsts := [(v 10, n)] } ∧ (lone 0 id).RunsAlone (one 0) 1 p7 { dsts := [(v 10, n)] }) ∧
    paired.crew? 1 ≠ none ∧ (∀ k, (lone 0 id).crew? 1 = some k → k.peer = none) ∧
    (∀ sp ∈ [{ lvl := .g, srcs := [⟨0, .vz, .int⟩, ⟨1, v 2, .addr⟩] }, { lvl := .g, srcs := [⟨0, .vz, .int⟩] }, { lvl := .g }, { lvl := .h, srcs := [⟨1, v 2, .addr⟩] },
      { srcs := [⟨1, v 2, .i64⟩] }, { ctl := false, srcs := [⟨1, v 2, .i64⟩] }], worker.RunsAlone (one 0) 1 p7 sp) ∧
    (∀ m < 4, worker.tlbBusy m 0 0 0x2000 = false ∧ worker.Steady 1 (workerC.tlbDrop (tlbNamed m 0 0 0x2000) (lineNamed m 0 0x2000) (pagesNamed m 0 0 0x2000))) ∧
    worker.Steady 1 (workerC.traceRec 0 (worker.thread 1).ltid 0 (tracePc ⟨0x1000, 0⟩ 0 0) [] (bytesLE 8 0x2000) 0 8) ∧
    ((trapper 0 .h (holding [(2, ⟨0x2000, .w64lo⟩), (3, ⟨0, .w64hi⟩)])).RunsAlone (one 0) 1 p7 { ctl := false, srcs := [⟨1, v 2, .i64⟩] } ∧
      (trapper 0 .h (holding [(2, ⟨0x2000, .w64lo⟩), (3, ⟨0, .w64hi⟩)])).TrapOpen 1 0x14 true) := by
  refine ⟨alone_of (s := jumper 0) (by decide), by decide, alone_of (s := inRegion) (by decide), by decide, by decide,
    fun n hn => ⟨alone_of (s := paired) ?_, alone_of (s := lone 0 id) ?_⟩, by decide, by decide, aloneAll_of (s := worker) (by decide),
    fun m hm => ⟨?_, ?_⟩, steady_of (by decide +kernel),
    alone_of (s := trapper 0 .h (holding [(2, ⟨0x2000, .w64lo⟩), (3, ⟨0, .w64hi⟩)])) (by decide), by unfold State.TrapOpen; decide⟩
  · revert n; decide
  · revert n; decide
  · revert m; decide +kernel
  · apply steady_of; revert m; decide +kernel

/-- The thread of a SIMT core or a control core at a level, with handlers, and operands: 0x2000 in v2:v3, 20 in v4. -/
def reader (core : Nat) (l : Level) : State :=
  trapper core l fun t => { t with regs := if core = 4 then [(2, ⟨0x2000, .b32⟩), (4, ⟨20, .b32⟩)] else [(2, ⟨0x2000, .w64lo⟩), (3, ⟨0, .w64hi⟩), (4, ⟨20, .i32⟩)] }

theorem test_wit_system_registers : (∀ core ∈ [0, 4], ∀ l ∈ [Level.u, .g, .h], ∀ w ∈ [true, false], (w = true → core = 0) →
      (∀ sp ∈ [{ ctl := !w, dsts := [(v 10, if w then 2 else 1)] }, { ctl := !w, srcs := [⟨1, if w then v 2 else v 4, if w then .i64 else .int⟩] }],
        runs1 (reader core l) sp = true) ∧ (reader core l).flagsPending 1 = false) ∧
    (∀ l ∈ [Level.u, .g, .h], ∀ sp ∈ [{ dsts := [(v 1, 1)] }, { srcs := [⟨1, v 4, .int⟩] }], (reader 0 l).RunsAlone (one 0) 1 p7 sp ∧
      (reader 0 l).TrapOpen 1 0x19 (decide (l = .h)) ∧ (reader 0 l).TrapOpen 1 0x03 (decide (l = .h))) ∧
    (∃ x r, ((reader 0 .h).charge [1]).regWrite (((reader 0 .h).charge [1]).regAg 1) 0x101 0x2000 = .ok x r ∧ (reader 0 .h).Steady 1 r) ∧
    (∃ x r, ((reader 0 .h).charge [1]).regRead (((reader 0 .h).charge [1]).regAg 1) 0x020 = .ok x r ∧ (reader 0 .h).Steady 1 r) := by
  refine ⟨by decide, fun l hl sp hs => ⟨?_, ?_, ?_⟩, ⟨_, _, rfl, steady_of (by decide +kernel)⟩, ⟨_, _, rfl, steady_of (by decide +kernel)⟩⟩
  · have hc : ((reader 0 l).thread 1).id.core = 0 := by revert l; decide
    exact hc ▸ aloneAll_of (s := reader 0 l) (l := [{ dsts := [(v 1, 1)] }, { srcs := [⟨1, v 4, .int⟩] }]) (by revert l; decide) sp hs
  · revert l; unfold State.TrapOpen; decide
  · revert l; unfold State.TrapOpen; decide

theorem test_wit_tails : (∀ w ∈ [true, false], ∀ sp ∈ [{ ctl := !w, srcs := [⟨1, if w then v 2 else v 4, if w then .i64 else .int⟩] }],
      runs1 (reader 0 .h) sp = true) ∧ ((reader 0 .h).thread 1).lvl = .h ∧ (reader 0 .h).TrapOpen 1 0x19 true ∧
    ∀ n ∈ [0x312, 0xA13, 0xA27, 0xA44, 0xA82], ((reader 0 .h).charge [1]).regValue (((reader 0 .h).charge [1]).regAg 1) n = 0 :=
  ⟨by decide, by decide, by unfold State.TrapOpen; decide, by decide⟩

theorem test_wit_checks : (trapper 0 .h id).Issues (one 0) ∧ (∀ h ∈ [true], (trapper 0 .h id).TrapOpen 1 0x01 h) ∧
    ({ simt := false } : Spec).encodingOk (isCtl 0) 0 0 = false ∧ ({} : Spec).encodingOk (isCtl 0) 0 0 = true ∧
    ((trapper 0 .h id).thread 1).guardOk ⟨false, 0⟩ = false ∧
    ((trapper 0 .h id).onCore fun k => { k with reqs := [{ mkReq (trapper 0 .h id) 1 .alu 0 0 with dest := [5], st := .done, win := (⟨0x1000, 0⟩, 0) }] }).Issues (one 0) ∧
    Spec.blocked { srcs := [⟨1, v 5, .int⟩] } ((trapper 0 .h id).onCore fun k =>
      { k with reqs := [{ mkReq (trapper 0 .h id) 1 .alu 0 0 with dest := [5], st := .done, win := (⟨0x1000, 0⟩, 0) }] }) 1 = true ∧
    Spec.check { srcs := [⟨1, v 5, .tag .f32⟩] } (trapper 0 .h id) ((trapper 0 .h id).thread 1) ≠ none := by
  refine ⟨issues_of (by decide), by unfold State.TrapOpen; decide, by decide, by decide, by decide, issues_of (by decide), by decide, by decide⟩

/-- An instruction runs by the group's shared execution. -/
theorem test_wit_shared (r : State) : exec (.nop p7) r = .next (r.isa p7 {} fun _ s => (.next, s)) := rfl

/-! The package: power, memory, links, Norano, the host, windows, dispatch. -/

/-- The reset state in a state of the module. -/
def atPower (p : PwSt) : State := State.reset.onPower fun w => { w with st := p }

/-- Boot inputs under which both a factory part and a site part are good. -/
def bootIn (f : Bool × Bool) : BootIn := ⟨25, [], [], [], [], [], [], f, (true, true), [], [], 0⟩

/-- Slice 3 of die 0 holds a dirty line of a bank that a repair stalls. -/
def loaded : State := (State.reset.onMem fun m => { m with
    l2 := [⟨0, 3, .phys, 0, 0, [(0, 7)], true, 0, Attr.reset, 0⟩] }).onHealth fun h =>
  { h with chans := [(0, { Chan.reset with active := some ⟨⟨3, 0, 0, 0⟩, 0, 0, 0⟩ })] }

theorem test_wit_power : (∀ p ∈ [PwSt.off, .boot, .recovery, .run, .shutdown], (atPower p).plat.power.st = p) ∧
    (atPower .shutdown).plat.power.saved = false ∧ (atPower .shutdown).core.crews = [] ∧
    ((atPower .shutdown).onPower fun w => { w with saved := true }).plat.power.saved = true ∧
    (State.reset.onPower fun w => { w with saves := 2 }).plat.power.saves ≠ 0 ∧ (List.replicate 13 (20 : Int)).length = 13 ∧
    (∀ k ∈ rangeFrom 1 4, (atPower .boot).plat.power.pick k ≠ none) ∧
    ((atPower .boot).onPower fun w => { w with slots := [] }).plat.power.pick 1 = none ∧ State.reset.vacated 3 = true ∧
    (lone 0 id).vacated 0 = false ∧
    (∀ f ∈ [(true, true), (true, false)], (Power.reset.factoryCopy f).isSome = true) ∧ Power.reset.factoryCopy (false, false) = none ∧
    (∀ e ∈ (atPower .shutdown).plat.health.chans, e.2.active = none) ∧ (State.reset.plat.power.therm.find 3) = none ∧
    (State.reset.dropHeld fun l => l.die == 0 && l.slice == 3) = false ∧ loaded.dropHeld (fun l => l.die == 0 && l.slice == 3) = true ∧
    (∀ h ∈ [Therm.mk 5 40 true, ⟨5, 10, false⟩], (State.reset.onPower fun w => { w with therm := [(3, h)] }).plat.power.therm.find 3 = some h) := by
  decide

/-- Channel 0 with a queued row repair, with an active one, or draining. -/
def withChan (c : Chan) : State := State.reset.onHealth fun h => { h with chans := [(0, c)] }

theorem test_wit_memory : State.reset.frameOk 0x2000 = true ∧ (atPower .run).live = true ∧ State.reset.rangeStalls 0x2000 64 = false ∧
    (withChan { Chan.reset with active := some ⟨⟨3, 0, 0, 0⟩, 0, 0, 0⟩ }).rangeStalls 0 64 = true ∧ State.reset.mem.deep = [] ∧ State.reset.fromMemory 0x80 = true ∧
    (State.reset.onMem fun m => { m with poison := [0x80] }).mem.poison.contains 0x80 = true ∧
    (∀ err ∈ [[((5 : Nat), (1 : Byte))], [(0, 255), (67, 2)]], err ≠ [] ∧ (err.map (·.1)).Nodup ∧ (∀ e ∈ err, e.1 < 68 ∧ e.2 ≠ 0) ∧
      let known := (State.reset.chanAt (chanOf 0x2000)).sp.bad.getD (placeOf 0x80).sid []
      2 * (err.filter fun e => !known.contains e.1).length + known.length ≤ 4) ∧
    State.reset.blockStalls 0x80 = false ∧
    (let s := withChan { Chan.reset with active := some ⟨⟨3, 0, 0, 0⟩, 0, 0, 0⟩ }
     s.frameOk 0 = true ∧ s.blockStalls 0 = true) ∧
    State.reset.chanOn 255 = true ∧ (State.reset.chanAt 255).chst = 0 ∧ (withChan { Chan.reset with chst := 1 }).draining = [0] ∧
    (let s := withChan { Chan.reset with queue := [⟨1, 2, 3, 4⟩] }
     s.repairable = [0] ∧ (s.chanAt 0).queue = ⟨1, 2, 3, 4⟩ :: [] ∧ (s.chanAt 0).sp.has ⟨1, 2, 3, 4⟩ = true) ∧
    (withChan { Chan.reset with active := some ⟨⟨1, 2, 3, 4⟩, 0, 0, 0⟩ }).repairing ≠ [] := by
  refine ⟨by decide, by decide, by decide, by decide, by decide, by decide, by decide, fun err hb => ?_, by decide, by decide, by decide, by decide, by decide, by decide, by decide⟩
  have hk : (State.reset.chanAt (chanOf 0x2000)).sp.bad = [[], [], [], []] := by decide
  have h0 : ∀ n : Nat, ([[], [], [], []] : List (List Nat)).getD n [] = [] := fun n => by
    match n with
    | 0 | 1 | 2 | 3 => rfl
    | _ + 4 => rfl
  simp only [hk, h0]
  revert err
  decide

/-- R42: the generator of the code is x⁴ + 0x0F x³ + 0x36 x² + 0x78 x + 0x40, a codeword has the roots α⁰ to α³, and one wrong symbol shows. -/
theorem test_codeword : generator = [0x0F, 0x36, 0x78, 0x40] ∧
    (let w := codeword ((List.range 64).map fun k => BitVec.ofNat 8 (37 * k + 5))
     w.length = 68 ∧ syndromes w = [0, 0, 0, 0] ∧ syndromes (received w [(7, 0x40)]) ≠ [0, 0, 0, 0]) := by decide +kernel

/-- A state with a warm reset of die 1 under way. -/
def warm (cmd : Nat) : State := State.reset.onLinks fun l => { l with cur := some ⟨1, cmd, true, 0, 0⟩ }

theorem test_wit_links : (∀ n ∈ [1, 2, 3, 4, 5, 6], (warm n).drNow n = some ⟨1, n, true, 0, 0⟩) ∧ 1 < State.reset.pkg.dies.length ∧
    State.reset.dieOn 1 = true ∧ (State.reset.pkg.die 1).drst ≠ 8 ∧ (warm 1).quiet 1 = true ∧
    ((warm 1).modCoreAt 205 fun k => { k with active := some 1 }).quiet 1 = false ∧
    (let x := (warm 2).dropLines fun l => l.die == 1 || (warm 2).misplaced l
     x.dropHeld (fun l => l.die == 1 || x.misplaced l) = false ∧ x.evicting = false ∧
       (x.onHost fun h => { h with d2h := [(2 ^ 33, 5)] }).evicting = true) ∧
    ((warm 6).dropLines (warm 6).misplaced).dropHeld (warm 6).misplaced = false ∧
    (let x := { (warm 6) with mem := { loaded.mem with l2 := loaded.mem.l2.map fun (l : L2Line) => { l with die := 1, space := .asid 0 } } }
     let y := { x with plat := { x.plat with health := loaded.plat.health } }
     (y.dropLines y.misplaced).dropHeld (y.dropLines y.misplaced).misplaced = true) ∧
    (warm 2).hostLines 1 = [] ∧ (warm 2).homeBusy 1 = false ∧ ((warm 2).onHost fun h => { h with own := [(2 ^ 30, 1)] }).hostLines 1 ≠ [] ∧
    (∀ e ∈ (warm 3).plat.health.chans, e.1 / 64 = 1 → e.2.active = none) ∧ less ((warm 4).pkg.die 1).umclu 1 40 ≠ 0 ∧
    ((warm 5).needed 1 ≠ [] ∧ ∀ k ∈ (warm 5).needed 1, k ∉ ([] : List Nat)) ∧
    (inRegion.onLinks fun l => { l with held := [⟨1, .thread 1, 0x2000, 2 ^ 63⟩] }).parksOver ≠ [] ∧
    ((lone 0 id).onLinks fun l => { l with held := [⟨1, .pub 1, 0x2000, 2 ^ 63⟩] }).pubsOver ≠ [] ∧
    State.reset.linkUp 3 = true ∧ (∀ st ∈ [0, 1], let s := State.reset.onLinks fun l => { l with dl := [(3, { Link.reset with state := st })] }
      s.linkUp 3 = false ∧ (s.plat.links.dl.getD Link.reset 3).state = st) ∧
    ((warm 1).stopDie ⟨1, 1, true, 0, 0⟩).quiet 1 = true ∧ (((warm 1).onTask fun k => { k with
      channels := [(64, ⟨0, ⟨200, .asid 0, 0⟩, 1, 0, .h, 2, 0, 0, none, none, none, ⟨0, []⟩, 0, some ⟨⟨0, 0, 0, 0, 0, 0⟩, 0, false, [], false, false⟩, false⟩)] }).stopDie ⟨1, 1, true, 0, 0⟩).quiet 1 = false ∧
    less ((warm 4).plat.power.record.clu.getD 1 0) 1 40 ≠ 0 ∧ (∃ k ∈ (warm 5).needed 1, k ∈ linksOf 1) ∧ State.reset.drNow 6 = none := by decide +kernel

/-- A module of a view of two that has a state of agreement. -/
def viewed (st : Nat) (f : View → View) : State := State.reset.onNor fun n =>
  { n with ports := [(7, { NPort.reset with state := 2 })], view := f { n.view with state := st, members := [0, 1], num := 4, agrtmo := 0, hbper := 0 } }

/-- A flit of 256 bytes of the given header. -/
def flitOf (h : Nat) : List Byte :=
  let b := bytesLE 248 h
  b ++ bytesLE 8 (crc64 b)

set_option maxRecDepth 100000 in
theorem test_wit_flits : ((viewed 1 id).portAt 7).state = 2 ∧ flitOk (List.replicate 256 1) = false ∧
    (∀ h ∈ [1, 2 ^ 28 + 1, 0, 2 ^ 4 + 1], flitOk (flitOf h) = true) ∧ ((viewed 1 id).portAt 7).exp = 0 ∧ ((viewed 1 id).portAt 6).state = 0 ∧
    (viewed 1 id).portUp 7 = true ∧ (viewed 1 id).portOff 6 = false ∧ (viewed 1 id).portOff 7 = false ∧
    (let s := (viewed 1 id).onNor fun n => { n with ports := [(6, { NPort.reset with state := 1 })] }
     s.portOff 6 = false ∧ (s.portAt 6).state = 1) ∧
    (∀ k ∈ [0, 32], let s := (viewed 1 id).onNor fun n => { n with ports := [(7, { NPort.reset with state := 2, sent := [(9, ⟨0, 0, [], 0, FlitInfo.none⟩)], tries := k })] }
     s.portUp 7 = true ∧ (s.portAt 7).sent.head?.map (·.1) = some 9 ∧ (s.portAt 7).skip = 0) := by
  decide +kernel

theorem test_wit_membership : (viewed 1 id).beatDue = true ∧ (viewed 1 id).view.takes 0 5 [0] = true ∧ (viewed 1 id).view.takes 0 4 [0] = false ∧
    setUnion [] [0] = [0] ∧ (viewed 1 id).view.self_ = 0 ∧ (viewed 1 id).view.forming = none ∧ (viewed 1 id).view.rejoin = none ∧
    (viewed 1 id).view.member = true ∧ (viewed 3 fun v => { v with prop := some ⟨5, [0], 0, [], []⟩ }).view.prop = some ⟨5, [0], 0, [], []⟩ ∧
    (viewed 2 id).agreeLate = true ∧ (viewed 4 fun v => { v with prop := some ⟨5, [0], 1, [], []⟩ }).agreeLate = true ∧
    (viewed 2 fun v => { v with forming := some [0] }).formLate = true ∧ (viewed 1 id).view.synclen = 0 ∧
    (viewed 1 fun v => { v with synclen := 4096 }).view.synclen = 4096 ∧
    (viewed 1 fun v => { v with rejoin := some ⟨0, 0, 64, 1, true⟩ }).view.rejoin = some ⟨0, 0, 64, 1, true⟩ ∧
    (viewed 4 fun v => { v with rejoin := some ⟨1, 0, 64, 1, false⟩ }).view.rejoin = some ⟨1, 0, 64, 1, false⟩ ∧
    (viewed 0 fun v => { v with members := [] }).view.member = false ∧ (viewed 2 id).donorIs 1 = false ∧
    (viewed 4 fun v => { v with rejoin := some ⟨1, 0, 64, 1, false⟩ }).donorIs 1 = true := by decide

/-- A state whose CXL port 0 is up. -/
def hosted (f : HostSys → HostSys) : State := State.reset.onHost fun h => f { h with ports := [⟨0, 0, 16, 5, 2, 1, 0⟩, CxlPort.reset] }

theorem test_wit_host : (hosted id).plat.host.reaches (.rd 0x2000) = true ∧ offHome (hosted id) 0 = false ∧ (hosted id).plat.host.snoops.find 64 = none ∧
    (hosted id).hostFrame 0x2000 = true ∧ (hosted id).live = true ∧ (hosted id).hdHolds 0x2000 = false ∧ (atPower .off).live = false ∧
    ((hosted id).modDie 0 fun d => { d with drst := 2 }).hdHolds 0x2000 = true ∧ (atPower .run).plat.host.reaches (.rd (2 ^ 52 + 0x2000)) = true ∧
    ((hosted id).modDie 0 fun d => { d with umchn := 0 }).hostFrame 0x2000 = false ∧ ((hosted fun h => { h with own := [(64, 1)] }).plat.host.own.find 64).isSome = true ∧
    (hosted id).plat.host.reaches (.rd 0x2000) = true ∧ State.reset.plat.host.reaches (.rd 0x2000) = false ∧ (hosted id).wouldStall 0x2000 = false ∧
    (hosted id).plat.host.own.find 64 = none ∧ (hosted id).victim 64 = none ∧
    (∀ k ∈ [5, 6], (hosted fun h => { h with d2h := [(2 ^ 33, k)] }).plat.host.d2h.find (2 ^ 33) = some k) ∧
    (hosted id).plat.host.ssEn = false ∧ (hosted fun h => { h with snoops := [(64, ⟨0, ⟨0, 0, 0, 0⟩, []⟩)] }).plat.host.snoops.find 64 = some ⟨0, ⟨0, 0, 0, 0⟩, []⟩ ∧
    reqLine (.rd 0x2000) = 64 ∧ (hosted fun h => { h with snoops := [(64, ⟨0, ⟨0, 0, 0, 0⟩, []⟩)], bitmo := 0 }).lateSnoops ≠ [] ∧
    (∀ k ∈ [1, 2], (hosted fun h => { h with d2h := [(2 ^ 33, k)] }).plat.host.d2h.find (2 ^ 33) = some k) ∧
    (hosted id).mem.dirtyLine (2 ^ 32) = none ∧ Memory.wf (hosted id).mem = true ∧
    (∀ k ∈ [1, 2, 3], let h := (hosted fun h => { h with mesi := [(2 ^ 33, k)] }).plat.host
      h.mesi.sorted = true ∧ h.mesi.getD 0 (2 ^ 33) = k) ∧ (hosted id).plat.host.mesi.getD 0 5 = 0 ∧ 1 < (hosted id).plat.host.ports.length ∧
    ((hosted id).plat.host.port 1).state ≤ 1 := by decide

/-- Of the lines of a stack some 17 lie in one set of its filter: with 16 of them granted the 17th evicts one. -/
theorem test_wit_victim : ∃ (line l : Nat) (own : Map Nat), (hosted fun h => { h with own := own }).plat.host.own.find line = none ∧
    (hosted fun h => { h with own := own }).victim line = some l := by
  obtain ⟨y, -, hy⟩ := Finset.exists_lt_card_fiber_of_mul_lt_card_of_maps_to (s := Finset.range (2 ^ 29)) (t := Finset.range (2 ^ 18)) (n := 16)
    (f := fun a => Config.filterSet a % 2 ^ 18) (fun a _ => Finset.mem_range.2 (Nat.mod_lt _ (by decide))) (by simp)
  obtain ⟨x, xs, hl⟩ : ∃ x xs, ((Finset.range (2 ^ 29)).filter fun a => Config.filterSet a % 2 ^ 18 = y).toList = x :: xs := by
    cases h : ((Finset.range (2 ^ 29)).filter fun a => Config.filterSet a % 2 ^ 18 = y).toList with
    | nil =>
      have := congrArg List.length h
      rw [Finset.length_toList] at this
      simp only [List.length_nil] at this
      omega
    | cons x xs => exact ⟨x, xs, rfl⟩
  have hlen : 16 ≤ xs.length := by
    have := congrArg List.length hl
    rw [Finset.length_toList] at this
    simp only [List.length_cons] at this
    omega
  have hnd : (x :: xs).Nodup := hl ▸ Finset.nodup_toList _
  have hin : ∀ a ∈ x :: xs, a < 2 ^ 29 ∧ Config.filterSet a % 2 ^ 18 = y := fun a ha => by
    rw [← hl, Finset.mem_toList, Finset.mem_filter, Finset.mem_range] at ha
    exact ha
  have hst : ∀ a < 2 ^ 29, stackOfLine a = 0 := fun a ha => by
    simp only [stackOfLine, bitsOf]
    omega
  obtain ⟨z, zs, rfl⟩ : ∃ z zs, xs = z :: zs := by
    cases xs with
    | nil => simp at hlen
    | cons z zs => exact ⟨z, zs, rfl⟩
  have hs : ∀ e ∈ (z :: zs).map fun a => (a, 1), sameSet x e.1 = true := fun e he => by
    obtain ⟨a, ha, rfl⟩ := List.mem_map.1 he
    simp only [sameSet, hst _ (hin x (by simp)).1, hst _ (hin a (List.mem_cons_of_mem _ ha)).1, (hin x (by simp)).2,
      (hin a (List.mem_cons_of_mem _ ha)).2, beq_self_eq_true, Bool.and_self]
  have hf : ∀ l : List Nat, x ∉ l → Map.find (l.map fun a => (a, (1 : Nat))) x = none := fun l => by
    induction l with
    | nil => intro _; rfl
    | cons a l ih =>
      intro h
      simp only [List.mem_cons, not_or] at h
      simp only [List.map_cons, Map.find, if_neg (Ne.symm h.1)]
      exact ih h.2
  refine ⟨x, z, (z :: zs).map fun a => (a, 1), hf _ (List.nodup_cons.1 hnd).1, ?_⟩
  have hfil : ((z :: zs).map fun a => (a, 1)).filter (fun e => sameSet x e.1) = (z :: zs).map fun a => (a, (1 : Nat)) := List.filter_eq_self.2 hs
  show (if (((z :: zs).map fun a => (a, (1 : Nat))).filter fun e => sameSet x e.1).length < 16 then none
    else ((((z :: zs).map fun a => (a, (1 : Nat))).filter fun e => sameSet x e.1).find? fun e =>
      (((z :: zs).map fun a => (a, (1 : Nat))).filter fun e => sameSet x e.1).all fun f => decide (e.2 ≤ f.2)).map (·.1)) = some z
  simp only [hfil]
  rw [if_neg (by simpa using hlen)]
  simp

theorem test_wit_windows : (∃ x r, State.reset.regRead (State.reset.pageAg 3) 0x310 = .ok x r) ∧
    State.reset.plat.winq = [] ∧ ((State.reset.onPlat fun p => { p with winq := [(3, 0x310, none)] }).plat.winq.any fun x => x.1 == 3) = true ∧
    (∃ x r, State.reset.regWrite (State.reset.pageAg 3) 0xA58 1 = .ok x r) ∧ (∃ k, State.reset.regWrite (State.reset.pageAg 3) 0x306 5 = .trap k) ∧
    ∃ r, State.reset.regWrite (State.reset.pageAg 0) 0xA15 0x2001 = .hold r :=
  ⟨⟨_, _, rfl⟩, rfl, by decide, ⟨_, _, rfl⟩, ⟨_, rfl⟩, ⟨_, rfl⟩⟩

/-- A state in which one register command is to come. -/
def commanded (s : State) (h : Bool) (f reg : Nat) (v : Option Nat) : State := s.onExt fun e => { e with cmds := [⟨h, f, reg, v.map (BitVec.ofNat 64)⟩] }

/-- A thread that the debug unit of its function has stopped, with an event in the queue. -/
def debugged : State := ((lone 0 fun t => { t with run := .stopped 0x12 }).withFn
  { Fn.reset with dbg := { Fn.reset.dbg with tgt := (placedThread 0 (one 0).clause).ltid, events := [⟨7, 0x12, 0, 0x1000, false⟩] } })

theorem test_wit_commands : (commanded State.reset true 0 0xA24 (some 1)).ext.cmds = [⟨true, 0, 0xA24, some 1⟩] ∧
    ((State.reset.withFn { Fn.reset with qQueues := 1 }).queueEnable 0).isSome = true ∧
    (State.reset.onTask fun k => { k with queues := [(0, ⟨true, 0, 0, 0, false, 0, 0, .u⟩)], qnames := [(0, 0)] }).queueOf 0 0 ≠ none ∧
    (ringFrames State.reset 0 0x10000 16).isSome = true ∧ tailOk 32 (State.reset.fnAt 0).trace.head (State.reset.fnAt 0).trace.tail 0 = true ∧
    (∀ d ∈ [0, 1, 2, 3], State.reset.dieOn d = true) ∧ (State.reset.page 0).mark = none ∧ State.reset.frameOk 0x2000 = true ∧
    State.reset.frameBusy 0x2000 = false ∧ State.reset.frameWrites 0x2000 = false ∧
    (let s := (hosted fun h => { h with snoops := [(64, ⟨0, ⟨0, 0, 0, 0⟩, []⟩)] }).modPage 0 fun w => { w with mark := some 0 }
     (s.page 0).mark ≠ none ∧ s.frameBusy 0x2000 = true) ∧ ((State.reset.modPage 0 fun w => { w with mark := some 0 }).page 0).mark ≠ none ∧
    (debugged.byLtid 0 (debugged.fnAt 0).dbg.tgt).map (·.uid) = some 1 ∧ (debugged.thread 1).run = .stopped 0x12 ∧
    (debugged.fnAt 0).dbg.events = ⟨7, 0x12, 0, 0x1000, false⟩ :: [] ∧ (debugged.dbgTarget 0).isSome = true ∧ (debugged.fnAt 0).dbg.space = false ∧
    debugged.dbgReg (debugged.thread 1) 3 = some 0 := by decide +kernel

/-- A ready task of one thread and 8 registers in slot 9. -/
def readyTask : TaskSlot := ⟨9, ⟨0x1000, 0, 0, 0, 0, 0, 0, 0, 2 ^ 10⟩, 0, none, 0, 7, 0, .h, 0, false, 0, .waiting, [], false, none, []⟩
def offering : State := State.reset.onTask fun k => { k with slots := [(9, readyTask)] }

/-- A saved context of core 0 on the stacks of die 1, and core 0 with a context in its other bank. -/
def saving (st : Nat) (sh : Option Nat) : State := State.reset.onCore fun k =>
  { k with saved := [(2 ^ 37 + 0x2000000, ⟨0, true, 3, 0, [], [], []⟩)], cores := [(0, { Core.reset with shadow := sh, shSt := st })] }

theorem test_wit_dispatch : State.reset.offered 0 = [] ∧ offering.offered 0 = [readyTask] ∧
    (let r := offering.modDisp 0 fun d => { d with bindw1 := 7 }
     r.bindTask 0 9 7 = some readyTask ∧ r.bindTask 0 9 8 = none ∧ r.policyAllows 0 readyTask = true ∧ r.bindBad 0 9 readyTask = false ∧
      r.bindBad 0 (9 + 63 * 2 ^ 20) readyTask = true ∧ r.bindBusy 0 readyTask (bindOf 0 9) = false ∧
      (r.modCluster 0 fun k => { k with power := 2 }).bindBusy 0 readyTask (bindOf 0 9) = true) ∧
    ((offering.modDisp 0 fun d => { d with bindw1 := 7, policy := List.replicate 513 (0, 0, 0) }).onTask fun k =>
      { k with schEn := true }).policyAllows 0 readyTask = false ∧
    (State.reset.coreAt 0).units = [] ∧ (worker.coreAt 0).units ≠ [] ∧ State.reset.clusterOn 0 0 = true ∧
    ((saving 0 none).coreAt 0).shSt = 0 ∧ ((saving 0 none).core.saved.find (2 ^ 37 + 0x2000000)).map (·.complete) = some true ∧ (saving 0 none).inBank 3 = false ∧
    ((saving 1 none).coreAt 0).shSt = 1 ∧ (saving 2 none).halfBound = [] ∧ ((saving 2 none).coreAt 0).active = none ∧ (∀ st ∈ [0, 2], ∀ e ∈ (saving st none).halfBound, e.2.core ≠ 0) ∧
    (State.reset.onTask fun k => { k with schEn := true }).rereads ≠ [] ∧ (saving 3 none).spillsReady ≠ [] ∧ (saving 1 (some 3)).fillsReady ≠ [] := by
  decide +kernel

theorem test_wit_areas : badArea State.reset 0 (2 ^ 37 + 0x2000000) = false ∧ badArea State.reset 0 0x2000000 = true := by decide +kernel

/-- A copy of an assay pair that has presented a tuple. -/
def presented (u p : Nat) : Crew := { placedCrew 0 with uid := u, peer := some p, assay := { Assay.reset with tuple := some (0, 0, 0, 0) } }

/-- A thread that is ready at its clause, alone on its core. -/
def waker : State := (lone 0 fun t => { t with run := .ready }).onCore fun k => { k with groups := [] }

theorem test_wit_groups : (∀ x ∈ waker.core.threads, waker.mustFetch x = false) ∧ waker.coresReady = [0] ∧ waker.newCrews = [] ∧ waker.readyOn 0 = [waker.thread 1] ∧ (waker.thread 1).clause ≠ [] ∧
    waker.thread? 1 = some (waker.thread 1) ∧ (waker.thread 1).id.lane < 32 ∧
    (waker.leader (waker.readyOn 0)).isSome = true := by decide +kernel

set_option maxRecDepth 100000 in
theorem test_wit_waits : ((lone 0 fun t => { t with run := .waiting ⟨.mx, 0, false, false, 0, 0⟩ })).wakeable ≠ [] ∧
    ((patterned.onTask fun k => { k with patterns := k.patterns.map fun e => (e.1, { e.2 with armed := true }) }).withFn { Fn.reset with qSlots := 9 }).portClusters ≠ [] ∧
    (lone 0 fun t => { t with run := .ready, ct := [⟨0x1020, some (0x0B, 0), 1, .h, false, false⟩] }).unwindsDue ≠ [] ∧
    (let s := (lone 0 id).onCore fun k => { k with crews := [presented 1 2, presented 2 1] }
     s.verdictsDue.head? = some (presented 1 2) ∧ (∀ x ∈ s.verdictsDue, x = presented 1 2 ∨ x = presented 2 1) ∧ s.crew? 2 = some (presented 2 1) ∧
      s.crew? 1 = some (presented 1 2) ∧ presented 2 1 ∈ s.verdictsDue) ∧
    (let s := (viewed 1 id).onNor fun n => { n with inq := [⟨1, 2, 3, 1, 0, [], FlitInfo.none⟩] }
     s.collSteps = [(0, 0)] ∧ s.flitsReady[0]? = some ⟨1, 2, 3, 1, 0, [], FlitInfo.none⟩) ∧
    (collector false).thread? 1 ≠ none := by decide +kernel

theorem test_wit_steps : State.reset.dead = false ∧ (State.reset.onExt fun e => { e with agenda := [some (.nop p7)] }).begin_.ext.agenda = some (.nop p7) :: [] ∧
    waker.begin_.ext.agenda = [] ∧ waker.begin_.candidates ≠ [] ∧ State.reset.begin_.candidates = [] ∧ (State.reset.pkg.die 0).drst ≠ 8 ∧ (State.reset.fnAt 0).dbg.en = false ∧
    Memory.wf waker.mem = true ∧ (match step State.reset with
      | .next _ => true
      | _ => false) = true := by decide +kernel

/-! Terms that have no encoding, and words that are no instruction. -/

def refusedAs (i : Instr) (e : DecodeError) : Bool := decide (i.illFormed = some e)

theorem test_ill_formed : [
    (.nop ⟨true, 7⟩, DecodeError.negatedP7), (.iadd p7 (v 1) (v 2) (v 3) true false, .reservedModifier), (.imad p7 (v 1) (v 2) (v 3) (v 4) true false, .reservedModifier),
    (.cvt p7 (v 1) (v 2) .f32 .f16x2, .reservedModifier), (.cvti p7 (v 1) (v 2) .i32 .i8 false, .reservedModifier),
    (.cvti p7 (v 1) (v 2) .f32 .f64 false, .reservedModifier), (.cvti p7 (v 1) (v 2) .i64 .i32 true, .reservedModifier),
    (.pack p7 (v 1) (v 2) (v 3) .vz .e4m3 3 false, .reservedModifier), (.pack p7 (v 1) (v 2) (v 3) .vz .e4m3 3 true, .unusedField),
    (.unpack p7 (v 1) (v 2) .s10 3, .reservedModifier), (.scaleq p7 (v 1) (v 2) .vz .e4m3 3, .reservedModifier), (.tagset p7 (v 1) (v 2) 12 false, .reservedModifier),
    (.lnget p7 (v 1) (v 2) (.lit 32) .abs 5 false 0 7 7, .reservedModifier), (.lnget p7 (v 1) (v 2) (.reg (v 3)) .abs 6 false 0 7 7, .reservedModifier),
    (.lnpoll p7 (.pred 1) 2 false false .mask 0 7 7, .reservedModifier), (.lnpoll p7 (.reg (v 1)) 2 false false .and 0 7 7, .badPredicate),
    (.lnpoll p7 (.pred 1) 2 false true .or 0 7 7, .reservedModifier), (.lncomb p7 (v 1) (v 2) .xor .f32 0 7 7, .reservedModifier),
    (.lnpfx p7 (v 1) (v 2) .and .f32 false 0 7 7, .reservedModifier), (.ld p7 0 (v 1) ⟨v 2, .vz, 0⟩ .i32 .rel .dev false, .orderScope),
    (.st p7 (v 1) ⟨v 2, .vz, 0⟩ .i32 .acq .dev false, .orderScope), (.atom p7 0 (v 1) ⟨v 2, v 4, 0⟩ .cas .i32 .rlx .core, .reservedModifier),
    (.atom p7 0 (v 1) ⟨v 2, v 4, 0⟩ .inc .f32 .rlx .core, .reservedModifier), (.atoms p7 0 (v 1) ⟨v 2, v 4, 0⟩ .and .f32, .reservedModifier),
    (.red p7 ⟨v 2, v 4, 0⟩ .add .i32 .acq .dev, .orderScope), (.red p7 ⟨v 2, v 4, 0⟩ .cas .i32 .rel .dev, .reservedModifier),
    (.xfence p7 .ls .ls, .reservedModifier), (.send p7 .plain 1 (v 2) (v 8) 7, .unusedField), (.qbind p7 (.que 1) (v 1) 0, .unusedField),
    (.mxdrain p7 0 (v 1), .unusedField), (.mxscale p7 (v 1) .vz 0, .unusedField), (.tlbinv p7 (v 2) (v 1) 1, .unusedField), (.tlbinv p7 .vz (v 1) 2, .unusedField),
    (.tlbinv p7 (v 2) (v 1) 3, .unusedField), (.unassignedEncoding 0x465C3C3C3C3C002A, .assignedWord)].all (fun e => refusedAs e.1 e.2) = true := by decide

def refusedWord (w : Word) (e : DecodeError) : Bool := match decode w with
  | .error x => decide (x = e)
  | .ok _ => false

theorem test_refused_words : [
    (0x043C004080FC0030, DecodeError.negatedP7), (0x041C3CC080FC0030, .reservedRegister), (0x041C404080FC0030, .unusedField), (0x041C004080FC0020, .reservedModifier),
    (0x041C004080C04030, .unusedField), (0x0C1C024040BC34A0, .badPredicate), (0x449C3C3C3C3C180D, .badLace)].all (fun e => refusedWord e.1 e.2) = true := by decide

def decodesTo (w : Word) (i : Instr) : Bool := match decode w with
  | .ok j => decide (j = i)
  | .error _ => false

theorem test_wit_unassigned : decodesTo 0 (.unassignedEncoding 0) = true ∧ decodesTo 0x449C3C3C3C3C1801 (.waitm p7 1 3) = true ∧
    (trapper 0 .h id).Issues (one 0) ∧ (trapper 0 .h id).TrapOpen 1 0x01 true :=
  ⟨by decide, by decide, issues_of (by decide), by unfold State.TrapOpen; decide⟩

/-! Results that the spec works out (R363, R365, R366, R390, R391, R394 to R397). -/

/-- Register 1 and the flags after an instruction of a thread whose registers 2 to 5 hold values with a tag. -/
def gives (i : Instr) (tg : Tag) (a b c : Word) : Word × Tag × BitVec 5 :=
  match exec i (lone 0 (holding [(2, ⟨a, tg⟩), (3, ⟨b, tg⟩), (4, ⟨c, tg⟩)])) with
  | .next t => (((t.thread 1).reg 1).val, ((t.thread 1).reg 1).tag, (t.thread 1).fflags)
  | _ => (0, .poison, 0)

theorem test_integer_values : [
    (Instr.iadd p7 (v 1) (v 2) (v 3) false false, (0x7FFFFFF0 : Word), (0x20 : Word), (0x80000010 : Word)), (.iadd p7 (v 1) (v 2) (v 3) false true, 0x7FFFFFF0, 0x20, 0x7FFFFFFF),
    (.iadd p7 (v 1) (v 2) (v 3) true true, 0xFFFFFFF0, 0x20, 0xFFFFFFFF), (.isub p7 (v 1) (v 2) (v 3) true true, 5, 7, 0),
    (.imulh p7 (v 1) (v 2) (v 3) false, 0x80000000, 2, 0xFFFFFFFF), (.imulh p7 (v 1) (v 2) (v 3) true, 0x80000000, 2, 1),
    (.iabs p7 (v 1) (v 2) false, 0x80000000, 0, 0x80000000), (.iabs p7 (v 1) (v 2) true, 0x80000000, 0, 0x7FFFFFFF),
    (.bfx p7 (v 1) (v 2) (v 3) false, 0xF0F0, 0x0808, 0xFFFFFFF0), (.bfx p7 (v 1) (v 2) (v 3) true, 0xF0F0, 0x0808, 0xF0),
    (.popc p7 (v 1) (v 2), 0xF0F0, 0, 8), (.clz p7 (v 1) (v 2), 0, 0, 32), (.ctz p7 (v 1) (v 2), 0x100, 0, 8)].all
      (fun e => decide (gives e.1 .i32 e.2.1 e.2.2.1 0 = (e.2.2.2, .i32, 0))) = true := by decide

theorem test_bit_values : [
    (Instr.shl p7 (v 1) (v 2) (v 3), (1 : Word), (32 : Word), (0 : Word), (0 : Word)), (.sar p7 (v 1) (v 2) (v 3), 0x80000000, 40, 0, 0xFFFFFFFF),
    (.rotr p7 (v 1) (v 2) (v 3), 1, 33, 0, 0x80000000), (.bfi p7 (v 1) (v 2) (v 3) (v 4), 0xAB, 0x0804, 0x12345678, 0x12345AB8),
    (.perm p7 (v 1) (v 2) (v 3) (v 4), 0x44332211, 0x88776655, 0xF746, 0xFF885577)].all
      (fun e => decide (gives e.1 .i32 e.2.1 e.2.2.1 e.2.2.2.1 = (e.2.2.2.2, .b32, 0))) = true := by decide

/-- The registers that a division will write when it is answered. -/
def divides (i : Instr) (a b : Word) : Option (List Reg) :=
  match exec i (lone 0 (holding [(2, ⟨a, .i32⟩), (3, ⟨b, .i32⟩)])) with
  | .next t => t.core.reqs.head?.map (·.res)
  | _ => none

theorem test_divisions : [
    (Instr.idiv p7 0 (v 1) (v 2) (v 3) false, (0xFFFFFFF9 : Word), (2 : Word), (0xFFFFFFFD : Word)), (.irem p7 0 (v 1) (v 2) (v 3) false, 0xFFFFFFF9, 2, 0xFFFFFFFF),
    (.idiv p7 0 (v 1) (v 2) (v 3) true, 0xFFFFFFF9, 2, 0x7FFFFFFC), (.irem p7 0 (v 1) (v 2) (v 3) true, 0xFFFFFFF9, 2, 1),
    (.idiv p7 0 (v 1) (v 2) (v 3) false, 0x80000000, 0xFFFFFFFF, 0x80000000), (.irem p7 0 (v 1) (v 2) (v 3) false, 0x80000000, 0xFFFFFFFF, 0)].all
      (fun e => decide (divides e.1 e.2.1 e.2.2.1 = some [⟨e.2.2.2, .i32⟩])) = true := by decide

theorem test_division_by_zero_traps : (match exec (.idiv p7 0 (v 1) (v 2) .vz false) (trapper 0 .h (holding [(1, ⟨5, .i32⟩), (2, ⟨9, .i32⟩)])) with
    | .next t => decide ((t.thread 1).bankH.cause = 0x16) && decide ((t.thread 1).reg 1 = ⟨5, .i32⟩)
    | _ => false) = true := by decide

theorem test_compare_is_signed_or_not : [(false, true), (true, false)].all (fun e =>
    match exec (.iset p7 (.pred 1) (v 2) (v 3) .lt false e.1) (lone 0 (holding [(2, ⟨0xFFFFFFFF, .i32⟩), (3, ⟨1, .i32⟩)])) with
    | .next t => decide ((t.thread 1).pred 1 = e.2)
    | _ => false) = true := by decide

theorem test_packed_add : gives (.f2add p7 (v 1) (v 2) (v 3) ⟨false, false⟩ ⟨false, false⟩ true) .bf16x2 0x3F803F80 0x3B803C00 0 = (0x3F803F81, .bf16x2, 1) := by decide

theorem test_dot_product : (match exec (.hdot p7 (v 1) (v 2) (v 3) (v 4) false false)
      (lone 0 (holding [(2, ⟨0x00383838, .e4m3x4⟩), (3, ⟨0x00383838, .e4m3x4⟩), (4, ⟨0x4B800000, .f32⟩)])) with
    | .next t => decide ((t.thread 1).reg 1 = ⟨0x4B800002, .f32⟩) && decide ((t.thread 1).fflags = 1)
    | _ => false) = true := by decide

theorem test_float_to_integer : [
    (CviT.i32, false, (0x40200000 : Word), (2 : Word), (1 : BitVec 5)), (.i8, false, 0xC0200000, 0xFFFFFFFD, 1), (.i32, true, 0xC02CCCCD, 0xFFFFFFFE, 1),
    (.i32, false, 0x4F32D05E, 0x7FFFFFFF, 16), (.n32, false, 0xBE800000, 0, 1)].all
      (fun e => decide (gives (.cvti p7 (v 1) (v 2) e.1 .f32 e.2.1) .f32 e.2.2.1 0 0 = (e.2.2.2.1, .i32, e.2.2.2.2))) = true := by decide

theorem test_integer_to_other : gives (.cvti p7 (v 1) (v 2) .f32 .n32 false) .i32 0xFFFFFFFF 0 0 = (0x4F800000, .f32, 1) ∧
    gives (.cvti p7 (v 1) (v 2) .n32 .i32 false) .i32 0xFFFFFFFF 0 0 = (0, .i32, 4) := by decide

theorem test_pack : (match exec (.pack p7 (v 1) (v 2) (v 3) .vz .e4m3 0 false) (lone 0 (holding [(2, ⟨0x3F880000, .f32⟩), (3, ⟨0x43E10000, .f32⟩)])) with
    | .next t => decide ((t.thread 1).reg 1 = ⟨0x7E39, .e4m3x4⟩)
    | _ => false) = true ∧
    (match exec (.pack p7 (v 1) (v 2) (v 3) (v 4) .e4m3 2 false)
        (lone 0 (holding [(2, ⟨0xBF000000, .f32⟩), (3, ⟨0x43E80000, .f32⟩), (4, ⟨0x7E39, .e4m3x4⟩)])) with
    | .next t => decide ((t.thread 1).reg 1 = ⟨0x7EB07E39, .e4m3x4⟩) && decide ((t.thread 1).fflags = 5)
    | _ => false) = true := by decide

theorem test_unpack_and_scale : gives (.unpack p7 (v 1) (v 2) .e4m3 3) .e4m3x4 0x7EB07E39 0 0 = (0x43E00000, .f32, 0) ∧
    gives (.scaleq p7 (v 1) (v 2) .vz .e4m3 0) .f32 0x447A0000 0 0 = (0x202, .s10x3, 1) := by decide

end Sys2Proof.Machine.Tests
end

section
-- One thread elaborates: check.sh limits memory, and counts a stack for each thread that waits.
set_option Elab.async false

namespace Sys2Proof.Machine

section
variable {s r : State} {g : Group} {gd : Guard} {sp : Spec} {u : Nat} {i : Instr} {f : Nat → State → Flow × State}

/-! A group of one thread, from the outcome of its instruction's meaning. -/

theorem State.Mid.refl (s : State) (u : Nat) : s.Mid u s := ⟨rfl, rfl, rfl, rfl, rfl⟩

theorem State.Charged.regAg {t : State} (h : s.Charged t) (u : Nat) : t.regAg u = s.regAg u := by
  simp [State.regAg, h.thread]

/-- A charge leaves trap handlers and routes alone. -/
theorem State.Charged.handlers {t : State} (h : s.Charged t) (n : Nat) : (t.fnAt n).tvech = (s.fnAt n).tvech ∧
    (t.fnAt n).tvechEn = (s.fnAt n).tvechEn ∧ (t.fnAt n).tvecg = (s.fnAt n).tvecg ∧ (t.fnAt n).tvecgEn = (s.fnAt n).tvecgEn ∧
    (t.fnAt n).troute = (s.fnAt n).troute :=
  ⟨(congrArg Fn.tvech (h.fns n) :), (congrArg Fn.tvechEn (h.fns n) :), (congrArg Fn.tvecg (h.fns n) :), (congrArg Fn.tvecgEn (h.fns n) :),
    (congrArg Fn.troute (h.fns n) :)⟩

/-- The charge of an issue leaves its thread steady. -/
theorem State.RunsAlone.steady_charge (h : s.RunsAlone g u gd sp) : s.Steady u (s.charge [u]) := by
  have ck := s.charged_charge [u]
  have hu : u ∈ g.members := by simp [h.one]
  refine ⟨by rw [ck.thread?]; exact h.present u hu, by rw [ck.core], ck.like.calm _ ?_, by rw [ck.ext]; exact h.fresh, ?_⟩
  · rw [← h.one]; exact h.calm
  · rw [ck.thread]; exact ⟨rfl, rfl, rfl⟩

/-- An instruction whose meaning goes on in a steady state, but for its thread's context, completes. -/
theorem State.RunsAlone.becomes (h : s.RunsAlone g u gd sp) (he : exec i s = .next (s.isa gd sp f)) (k : s.Steady u r)
    {φ : Thread → Thread} (hφ : Tame φ) (hf : f u (s.charge [u]) = (.next, r.modThread u φ)) : s.Becomes i (r.modThread u φ) := by
  refine ⟨_, he, h.next_like _ (fun _ => f) _ rfl _ hf (k.calm.modThread u φ hφ) k.groups k.elems ?_⟩
  rw [State.thread?_modThread r u u φ hφ.uid, if_pos rfl, Option.isSome_map]
  exact k.there

/-- An instruction whose meaning goes on in a steady state completes. -/
theorem State.RunsAlone.becomes_steady (h : s.RunsAlone g u gd sp) (he : exec i s = .next (s.isa gd sp f)) (k : s.Steady u r)
    (hf : f u (s.charge [u]) = (.next, r)) : s.Becomes i r :=
  ⟨_, he, h.next_like _ (fun _ => f) _ rfl _ hf k.calm k.groups k.elems k.there⟩

/-- An instruction whose meaning traps before it has done anything enters the open handler. -/
theorem State.RunsAlone.exactly_trap (hr : s.RunsAlone g u gd sp) (he : exec i s = .next (s.isa gd sp f)) {c : Nat} {v : Word} {h : Bool}
    (ho : s.TrapOpen u c h) (hf : f u (s.charge [u]) = (.trap c v false, s.charge [u])) :
    s.Exactly u i fun r => r.tookTrap u h c v (s.thread u).pos := by
  have ck := s.charged_charge [u]
  obtain ⟨hl, hb, hv, hc⟩ := ho
  have hfn := ck.handlers
  have k := hr.steady_charge
  have e := hr.trap_eq _ (fun _ => f) (fun _ s => (.next, s)) rfl _ c v false hf (by
      rw [ck.thread]
      cases hcc : c == 0x0B
      · rfl
      · simp [hc (by simpa using hcc)]) h (by
      rw [ck.thread, ← hl]
      simp only [State.trapToH, hfn])
    (if h then (s.fnAt (s.thread u).id.fn).tvech else (s.fnAt (s.thread u).id.fn).tvecg) (by
      rw [ck.thread]
      simp only [hfn]
      cases h <;> simpa using hv) (by rw [ck.thread]; exact hb) k.calm k.elems
  rw [State.Exactly, he, State.isa, State.isaWith, e]
  simp only [State.tookTrap, ck.thread, hfn, Bool.false_eq_true, if_false]
end

/-! SRD and SWR, from what the register access gives (R442). -/

section
variable {s r : State} {g : Group} {gd : Guard} {u : Nat} {d a : RegF} {n : BitVec 16} {w : Bool}

/-- DST of a 32-bit result, or of 64 bits on the control core, in the words of claims. -/
theorem State.dst_gave (r : State) (u : Nat) (d : RegF) (hq : isQueue d = false) (v : Word) (tg : Tag) :
    r.dst u d v tg = r.gave u d tg v.toNat :=
  (State.Mid.refl r u).dst d hq v tg _ (by
    apply BitVec.eq_of_toNat_eq
    have hv := v.isLt
    obtain ⟨h1, h2⟩ | ⟨h1, h2⟩ := r.width_cases u <;> rw [h1, h2] <;> simp)

theorem State.dst64_gave (r : State) (u : Nat) (d : RegF) (hq : isQueue d = false) (v : Word) :
    r.dst64 u d v .w64lo .w64hi = r.gave64 u d v.toNat := by
  rw [(State.Mid.refl r u).dst64 d hq v, State.gave64, BitVec.ofNat_toNat, BitVec.setWidth_eq]

/-- A destination takes the low 64 bits of a number. -/
theorem State.gave_mod (r : State) (u : Nat) (d : RegF) (tg : Tag) (v : Nat) : r.gave u d tg (v % 2 ^ 64) = r.gave u d tg v := by
  have e : BitVec.ofNat (r.width u) (v % 2 ^ 64) = BitVec.ofNat (r.width u) v := by
    apply BitVec.eq_of_toNat_eq
    obtain ⟨h, -⟩ | ⟨h, -⟩ := r.width_cases u <;> rw [h] <;> simp
  rw [State.gave, State.gave, e]

theorem State.gave64_mod (r : State) (u : Nat) (d : RegF) (v : Nat) : r.gave64 u d (v % 2 ^ 64) = r.gave64 u d v := by
  have e : BitVec.ofNat 64 (v % 2 ^ 64) = BitVec.ofNat 64 v := by apply BitVec.eq_of_toNat_eq; simp
  rw [State.gave64, State.gave64, e]

theorem exec_srd (s : State) : exec (.srd gd d n w) s = execSrd gd d n w s := rfl
theorem exec_swr (s : State) : exec (.swr gd n a w) s = execSwr gd n a w s := rfl

/-- What SRD leaves in a state in which its register's value is read. -/
def State.srdGave (r : State) (u : Nat) (d : RegF) (w : Bool) (v : Nat) : State := if w then r.gave64 u d v else r.gave u d .b32 v

theorem State.srdGave_mod (r : State) (u : Nat) (d : RegF) (w : Bool) (v : Nat) : r.srdGave u d w (v % 2 ^ 64) = r.srdGave u d w v := by
  cases w
  · exact r.gave_mod u d .b32 v
  · exact r.gave64_mod u d v

/-- The flags of an earlier instruction hold back no access but that of FFLAGS. -/
theorem State.flags_settled (hn : n = 8 → s.flagsPending u = false) : (n == 8 && (s.charge [u]).flagsPending u) = false := by
  have e : (s.charge [u]).flagsPending u = s.flagsPending u := by simp [State.flagsPending, (s.charged_charge [u]).core]
  rw [e]
  by_cases h : n = 8
  · simp [hn h]
  · simp only [beq_eq_false_iff_ne.2 h, Bool.false_and]

theorem State.RunsAlone.srd_becomes (h : s.RunsAlone g u gd { ctl := !w, dsts := [(d, if w then 2 else 1)] })
    (hn : n = 8 → s.flagsPending u = false) {v : Word}
    (hv : (s.charge [u]).regRead ((s.charge [u]).regAg u) n.toNat = .ok v r) (k : s.Steady u r) :
    s.Becomes (.srd gd d n w) (r.srdGave u d w v.toNat) := by
  have hq := Spec.dst_direct _ h.direct.2 d (if w then 2 else 1) (by simp)
  cases w
  · refine h.becomes (exec_srd s) k (r.wrote_tame u d .b32 _) ?_
    simp only [State.flags_settled hn, hv, Bool.false_eq_true, if_false, r.dst_gave u d hq v]
    rfl
  · refine h.becomes (exec_srd s) k (r.wrotePair_tame u d _) ?_
    simp only [State.flags_settled hn, hv, Bool.false_eq_true, if_false, if_true, r.dst64_gave u d hq v]
    rfl

theorem State.RunsAlone.srd_traps (hr : s.RunsAlone g u gd { ctl := !w, dsts := [(d, if w then 2 else 1)] }) (hn : n ≠ 8) {c : Nat} {h : Bool}
    (hv : (s.charge [u]).regRead ((s.charge [u]).regAg u) n.toNat = .trap c) (ho : s.TrapOpen u c h) :
    s.Exactly u (.srd gd d n w) fun r => r.tookTrap u h c s.ext.iword (s.thread u).pos :=
  hr.exactly_trap (exec_srd s) ho (by
    simp only [State.flags_settled fun e => absurd e hn, hv, Bool.false_eq_true, if_false, (s.charged_charge [u]).ext])

/-- The operand of SWR: 64 bits of a pair, or one register. -/
def State.swrVal (s : State) (u : Nat) (a : RegF) (w : Bool) : Nat := if w then (s.pairBits u a).toNat else (s.bits u a 64).toNat

theorem State.swrVal_lt (s : State) (u : Nat) (a : RegF) (w : Bool) : s.swrVal u a w < 2 ^ 64 := by
  unfold State.swrVal
  split <;> exact BitVec.isLt _

theorem State.swr_operand (s : State) (u : Nat) (a : RegF) (w : Bool) :
    (if w then (s.charge [u]).src64 u a else (s.charge [u]).src u a) = BitVec.ofNat 64 (s.swrVal u a w) := by
  have m := (s.charged_charge [u]).mid u
  rw [m.src64, m.src, State.src64_bits]
  cases w <;> simp [State.swrVal, State.src, State.bits]

theorem State.RunsAlone.swr_becomes (h : s.RunsAlone g u gd { ctl := !w, srcs := [⟨1, a, if w then .i64 else .int⟩] })
    (hn : n = 8 → s.flagsPending u = false) {x : Word}
    (hv : (s.charge [u]).regWrite ((s.charge [u]).regAg u) n.toNat (BitVec.ofNat 64 (s.swrVal u a w)) = .ok x r) (k : s.Steady u r) :
    s.Becomes (.swr gd n a w) r :=
  h.becomes_steady (exec_swr s) k (by
    simp only [State.flags_settled hn, s.swr_operand, hv, Bool.false_eq_true, if_false])

theorem State.RunsAlone.swr_traps (hr : s.RunsAlone g u gd { ctl := !w, srcs := [⟨1, a, if w then .i64 else .int⟩] }) (hn : n ≠ 8)
    {c : Nat} {h : Bool}
    (hv : (s.charge [u]).regWrite ((s.charge [u]).regAg u) n.toNat (BitVec.ofNat 64 (s.swrVal u a w)) = .trap c) (ho : s.TrapOpen u c h) :
    s.Exactly u (.swr gd n a w) fun r => r.tookTrap u h c s.ext.iword (s.thread u).pos :=
  hr.exactly_trap (exec_swr s) ho (by
    simp only [State.flags_settled fun e => absurd e hn, s.swr_operand, hv, Bool.false_eq_true, if_false, (s.charged_charge [u]).ext])
end

end Sys2Proof.Machine
end

section
-- One thread elaborates: check.sh limits memory, and counts a stack for each thread that waits.
set_option Elab.async false

namespace Sys2Proof.Machine

/-! Fields of a register word: which bits of a value are zero. -/

/-- The bits of some fields, each given by its lowest bit and its width. -/
def maskOf (l : List (Nat × Nat)) : Nat := l.foldr (fun e m => (2 ^ e.2 - 1) * 2 ^ e.1 ||| m) 0

/-- Some fields of a value are zero. -/
def ZeroAt (v : Nat) : List (Nat × Nat) → Prop
  | [] => True
  | e :: l => v / 2 ^ e.1 % 2 ^ e.2 = 0 ∧ ZeroAt v l

/-- A field that is zero has no bit set. -/
theorem and_field_eq_zero (v lo k : Nat) (h : v / 2 ^ lo % 2 ^ k = 0) : v &&& (2 ^ k - 1) * 2 ^ lo = 0 := by
  have hd : (v &&& (2 ^ k - 1) * 2 ^ lo) / 2 ^ lo = 0 := by
    rw [Nat.and_div_two_pow, Nat.mul_div_cancel _ (Nat.two_pow_pos lo), Nat.and_two_pow_sub_one_eq_mod, h]
  have hm : (v &&& (2 ^ k - 1) * 2 ^ lo) % 2 ^ lo = 0 := by
    rw [Nat.and_mod_two_pow, Nat.mul_mod_left, Nat.and_zero]
  rw [← Nat.div_add_mod (v &&& (2 ^ k - 1) * 2 ^ lo) (2 ^ lo), hd, hm, Nat.mul_zero]

theorem ZeroAt.and_maskOf {v : Nat} {l : List (Nat × Nat)} (h : ZeroAt v l) : v &&& maskOf l = 0 := by
  induction l with
  | nil => rw [maskOf, List.foldr_nil, Nat.and_zero]
  | cons e l ih =>
    obtain ⟨he, hl⟩ := h
    rw [maskOf, List.foldr_cons, Nat.and_or_distrib_left, and_field_eq_zero v e.1 e.2 he, Nat.zero_or]
    exact ih hl

/-! What the checks of R442 let through. -/

/-- A write goes on at the register's level with its reserved bits zero, a command or control of level H at level H. -/
theorem RegInfo.check_passes {i : RegInfo} {lvl : Level} {v : Nat} (reserved : List (Nat × Nat)) (hl : i.wr.num ≤ lvl.num)
    (ho : i.allRo = false) (hh : i.rwh = 0 ∨ lvl = .h) (hr : 2 ^ 64 - 1 - i.named = maskOf reserved)
    (hv : ZeroAt v reserved) : i.check lvl v = none := by
  have hm : (v &&& (2 ^ 64 - 1 - i.named) != 0) = false := by rw [hr, hv.and_maskOf]; rfl
  have hw : (i.rwh != 0 && lvl != .h) = false := by
    obtain h | h := hh
    · simp [h]
    · simp [h]
  simp only [RegInfo.check, Nat.not_lt.2 hl, ho, hw, hm, if_false, Bool.false_eq_true]

theorem RegInfo.check_below {i : RegInfo} {lvl : Level} (v : Nat) (hl : lvl.num < i.wr.num) : i.check lvl v = some 3 := by
  simp [RegInfo.check, hl]

section
variable {s : State} {a : RegAg} {n : Nat} {i : RegInfo}

theorem State.regRead_unknown (hk : s.regKnown a n = none) : s.regRead a n = .trap (unassigned a n) := by
  simp [State.regRead, hk]

theorem State.regRead_below (hk : s.regKnown a n = some i) (hl : a.lvl.num < i.rd.num) : s.regRead a n = .trap 3 := by
  simp [State.regRead, hk, hl]

/-- A read that has no side effect gives the register's value. -/
theorem State.regRead_value (hk : s.regKnown a n = some i) (hl : i.rd.num ≤ a.lvl.num) (hn : n ≠ 0xA5B ∧ n ≠ 0xA5E) :
    s.regRead a n = .ok (BitVec.ofNat 64 (s.regValue a n)) s := by
  simp [State.regRead, hk, Nat.not_lt.2 hl, hn.1, hn.2]

theorem State.regWrite_unknown (w : Word) (hk : s.regKnown a n = none) : s.regWrite a n w = .trap (unassigned a n) := by
  simp [State.regWrite, hk]

theorem State.regWrite_below (w : Word) (hk : s.regKnown a n = some i) (hl : a.lvl.num < i.wr.num) : s.regWrite a n w = .trap 3 := by
  simp [State.regWrite, hk, RegInfo.check_below w.toNat hl]

/-- A write that passes the checks sets the register. -/
theorem State.regWrite_set {v : Nat} (hv : v < 2 ^ 64) (hk : s.regKnown a n = some i) (hc : i.check a.lvl v = none) (hn : n ≠ 0xA5E) :
    s.regWrite a n (BitVec.ofNat 64 v) = s.regSet a n v := by
  have e : (BitVec.ofNat 64 v).toNat = v := by rw [BitVec.toNat_ofNat, Nat.mod_eq_of_lt hv]
  simp only [State.regWrite, hk, e, hc, if_neg hn]

/-- The registers of every kind of core, and the window's. -/
theorem State.regKnown_eq (h : a.thr = 0 ∨ ((s.thread a.thr).isCtl = true → n ≠ 1 ∧ n ≠ 2) ∧ (n < 0x200 ∨ 0x202 < n)) :
    s.regKnown a n = regInfo n := by
  unfold State.regKnown
  obtain h | ⟨h, hn⟩ := h
  · simp [h]
  · cases hc : (s.thread a.thr).isCtl
    · have : (decide (0x200 ≤ n) && decide (n ≤ 0x202)) = false := by simp; omega
      simp [this]
    · simp [h hc]

theorem State.regKnown_of_none (h : regInfo n = none) : s.regKnown a n = none := by
  rw [State.regKnown, h, ite_self]

/-- LTID (R443). Its value is not unfolded: the kernel would evaluate the arithmetic of the identity. -/
theorem State.regValue_ltid (s : State) (a : RegAg) : s.regValue a 0 = (s.thread a.thr).ltid.toNat := by
  rw [State.regValue, if_pos (by decide)]
  unfold State.read0
  extract_lets t
  obtain ⟨w, hw⟩ : ∃ w, t.ltid = w := ⟨_, rfl⟩
  change _ = t.ltid.toNat
  rw [hw]
  rfl

/-- A read by level l of the register n gives v (R443). -/
def State.Shows (s : State) (a : RegAg) (l : Level) (n v : Nat) : Prop :=
  ∃ i, regInfo n = some i ∧ i.rd = l ∧ n < 0x200 ∧ s.regValue a n = v

/-- The registers of a thread hold what the thread does (R443). -/
theorem State.shows_thread {t : Thread} {x v : Nat} (ht : s.thread a.thr = t) (hx : s.cycleOf (dieOf t.id.core) = x) :
    (n, v) ∈ [(0x000, t.ltid.toNat), (0x001, t.id.lane), (0x002, t.id.row), (0x003, t.id.asid), (0x004, t.id.exk),
      (0x005, t.id.prio), (0x008, t.fflags.toNat), (0x010, t.tls), (0x014, t.ct.length), (0x015, t.rsd * 2 ^ 16 + t.rstk.length),
      (0x016, t.fr.cwa), (0x020, x)] → s.Shows a .u n v := by
  subst ht hx
  intro h
  simp only [List.mem_cons, Prod.mk.injEq, List.not_mem_nil, or_false] at h
  rcases h with h | h | h | h | h | h | h | h | h | h | h | h <;> obtain ⟨rfl, rfl⟩ := h <;> refine ⟨_, rfl, rfl, by decide, ?_⟩
  · exact s.regValue_ltid a
  all_goals rfl

/-- The bank of trap state of level G. -/
theorem State.shows_bankG {b : TrapBank} {v : Nat} (hb : (s.thread a.thr).bankG = b) :
    (n, v) ∈ [(0x100, b.cause), (0x101, b.pcIdx * 2 ^ 60 + b.pcA), (0x102, b.val.toNat), (0x103, b.plvl.num + 4 * b.inh.toNat)] →
      s.Shows a .g n v := by
  subst hb
  intro h
  simp only [List.mem_cons, Prod.mk.injEq, List.not_mem_nil, or_false] at h
  rcases h with h | h | h | h <;> obtain ⟨rfl, rfl⟩ := h <;> exact ⟨_, rfl, rfl, by decide, rfl⟩

/-- The bank of trap state of level H. -/
theorem State.shows_bankH {b : TrapBank} {v : Nat} (hb : (s.thread a.thr).bankH = b) :
    (n, v) ∈ [(0x108, b.cause), (0x109, b.pcIdx * 2 ^ 60 + b.pcA), (0x10A, b.val.toNat), (0x10B, b.plvl.num + 4 * b.inh.toNat)] →
      s.Shows a .h n v := by
  subst hb
  intro h
  simp only [List.mem_cons, Prod.mk.injEq, List.not_mem_nil, or_false] at h
  rcases h with h | h | h | h <;> obtain ⟨rfl, rfl⟩ := h <;> exact ⟨_, rfl, rfl, by decide, rfl⟩

end

theorem State.Charged.cycleOf {s t : State} (h : s.Charged t) (d : Nat) : t.cycleOf d = s.cycleOf d := by
  simp [State.cycleOf, h.pkg]

/-! O42: SRD and SWR of a thread's own registers, and the accesses that trap. -/

section
variable {s : State} {g : Group} {gd : Guard} {u : Nat} {d a : RegF} {n : BitVec 16} {w : Bool}

/-- SRD gives the value of a register that its level may read and that has no side effect. -/
theorem State.RunsAlone.srd_value (h : s.RunsAlone g u gd { ctl := !w, dsts := [(d, if w then 2 else 1)] })
    (hn : n = 8 → s.flagsPending u = false) {l : Level} {v : Nat} (hv : (s.charge [u]).Shows ((s.charge [u]).regAg u) l n.toNat v)
    (hc : (s.thread u).isCtl = true → n.toNat ≠ 1 ∧ n.toNat ≠ 2) (hl : l.num ≤ (s.thread u).lvl.num) :
    s.Becomes (.srd gd d n w) ((s.charge [u]).srdGave u d w v) := by
  obtain ⟨i, hi, rfl, hr, rfl⟩ := hv
  have ck := s.charged_charge [u]
  have hk : (s.charge [u]).regKnown ((s.charge [u]).regAg u) n.toNat = some i := by
    rw [State.regKnown_eq (.inr ⟨?_, .inl hr⟩), hi]
    show ((s.charge [u]).thread u).isCtl = true → _
    rw [ck.thread]; exact hc
  have hread := State.regRead_value hk (by show _ ≤ ((s.charge [u]).thread u).lvl.num; rw [ck.thread]; exact hl) (by omega)
  rw [← State.srdGave_mod, ← BitVec.toNat_ofNat]
  exact h.srd_becomes hn hread h.steady_charge

/-- SWR of a register below the cluster engines' whose level and reserved bits pass. -/
theorem State.RunsAlone.swr_thread (h : s.RunsAlone g u gd { ctl := !w, srcs := [⟨1, a, if w then .i64 else .int⟩] })
    (hn : n = 8 → s.flagsPending u = false) {i : RegInfo} (reserved : List (Nat × Nat)) (hi : regInfo n.toNat = some i)
    (hr : 2 < n.toNat ∧ n.toNat < 0x200) (hl : i.wr.num ≤ (s.thread u).lvl.num) (ho : i.allRo = false ∧ i.rwh = 0)
    (hm : 2 ^ 64 - 1 - i.named = maskOf reserved)
    (hv : ZeroAt (s.swrVal u a w) reserved) {φ : Thread → Thread} (hφ : Tame φ)
    (hid : ∀ t, (φ t).id = t.id ∧ (φ t).regs = t.regs ∧ (φ t).pos = t.pos)
    (hs : (s.charge [u]).write0 ((s.charge [u]).regAg u) n.toNat (s.swrVal u a w) = .done ((s.charge [u]).modThread u φ)) :
    s.Becomes (.swr gd n a w) ((s.charge [u]).modThread u φ) := by
  have ck := s.charged_charge [u]
  have k := h.steady_charge
  have hk : (s.charge [u]).regKnown ((s.charge [u]).regAg u) n.toNat = some i := by
    rw [State.regKnown_eq (.inr ⟨fun _ => by omega, .inl hr.2⟩), hi]
  have hc : i.check ((s.charge [u]).regAg u).lvl (s.swrVal u a w) = none := by
    refine RegInfo.check_passes reserved ?_ ho.1 (.inl ho.2) hm hv
    show _ ≤ ((s.charge [u]).thread u).lvl.num
    rw [ck.thread]; exact hl
  have hset := State.regWrite_set (s.swrVal_lt u a w) hk hc (by omega)
  rw [State.regSet, if_pos (by omega), hs] at hset
  have ht := State.thread?_modThread (s.charge [u]) u u φ hφ.uid
  rw [if_pos rfl] at ht
  have e : ((s.charge [u]).modThread u φ).thread u = φ ((s.charge [u]).thread u) := by
    rw [State.thread_modThread _ u u φ hφ.uid k.there, if_pos rfl]
  refine h.swr_becomes hn hset ⟨by rw [ht, Option.isSome_map]; exact k.there, k.groups, k.calm.modThread u φ hφ, k.elems, ?_⟩
  obtain ⟨h1, h2, h3⟩ := hid ((s.charge [u]).thread u)
  rw [e, h1, h2, h3]
  exact k.same

end

/-- Numbers of R448 that are no register. -/
theorem regInfo_unassigned : ∀ k ∈ [0x009, 0x00F, 0x018, 0x021, 0x106, 0x10D, 0x203, 0x211, 0x306, 0x40A, 0x43F, 0x81B, 0xA29, 0xA48, 0xA93,
    0x1000, 0xFFFF], regInfo k = none ∧ k ≠ 8 ∧ ∀ a, unassigned a k = 0x19 := by
  have h : ∀ k ∈ [0x009, 0x00F, 0x018, 0x021, 0x106, 0x10D, 0x203, 0x211, 0x306, 0x40A, 0x43F, 0x81B, 0xA29, 0xA48, 0xA93,
      0x1000, 0xFFFF], (regInfo k).isNone = true ∧ k ≠ 8 ∧ (decide (0x821 ≤ k) && decide (k ≤ 0x823)) = false := by decide
  intro k hk
  obtain ⟨h1, h2, h3⟩ := h k hk
  exact ⟨Option.isNone_iff_eq_none.1 h1, h2, fun a => by simp [unassigned, h3]⟩

/-- Registers of level G, and of level H. -/
theorem regInfo_level : (∀ k ∈ [0x100, 0x101, 0x102, 0x103, 0x104, 0x105, 0x300, 0x305, 0xA20, 0xA40, 0xA5B],
      ((regInfo k).map fun i => (i.rd, i.wr)) = some (.g, .g) ∧ k ≠ 8 ∧ 2 < k ∧ (k < 0x200 ∨ 0x202 < k)) ∧
    ∀ k ∈ [0x108, 0x109, 0x10A, 0x10B, 0x10C, 0x820, 0xA90, 0xA91],
      ((regInfo k).map fun i => (i.rd, i.wr)) = some (.h, .h) ∧ k ≠ 8 ∧ 2 < k ∧ (k < 0x200 ∨ 0x202 < k) := by decide

/-- Reads and writes of a register by a thread trap with a cause; it is not FFLAGS, whose access may wait. -/
structure State.Refuses (s : State) (u n c : Nat) : Prop where
  read    : s.regRead (s.regAg u) n = .trap c
  write   : ∀ v, s.regWrite (s.regAg u) n v = .trap c
  settled : n ≠ 8

theorem State.refuses_unassigned (s : State) (u : Nat) {k : Nat} (hk : k ∈ [0x009, 0x00F, 0x018, 0x021, 0x106, 0x10D, 0x203, 0x211, 0x306,
    0x40A, 0x43F, 0x81B, 0xA29, 0xA48, 0xA93, 0x1000, 0xFFFF]) : s.Refuses u k 0x19 := by
  obtain ⟨hi, h8, hc⟩ := regInfo_unassigned k hk
  have hn : s.regKnown (s.regAg u) k = none := State.regKnown_of_none hi
  exact ⟨by rw [State.regRead_unknown hn, hc], fun v => by rw [State.regWrite_unknown v hn, hc], h8⟩

/-- A register of a level above the thread's is refused (R442). -/
theorem State.refuses_above {s : State} {u k : Nat} (h :
      ((s.thread u).lvl = .u ∧ k ∈ [0x100, 0x101, 0x102, 0x103, 0x104, 0x105, 0x300, 0x305, 0xA20, 0xA40, 0xA5B]) ∨
      ((s.thread u).lvl ≠ .h ∧ k ∈ [0x108, 0x109, 0x10A, 0x10B, 0x10C, 0x820, 0xA90, 0xA91])) : s.Refuses u k 3 := by
  obtain ⟨l, hi, h8, h2, hr, hl⟩ : ∃ l : Level, ((regInfo k).map fun i => (i.rd, i.wr)) = some (l, l) ∧ k ≠ 8 ∧ 2 < k ∧
      (k < 0x200 ∨ 0x202 < k) ∧
      (s.regAg u).lvl.num < l.num := by
    obtain ⟨hl, hk⟩ | ⟨hl, hk⟩ := h
    · obtain ⟨h1, h2, h3, h4⟩ := regInfo_level.1 k hk
      exact ⟨.g, h1, h2, h3, h4, by rw [show (s.regAg u).lvl = .u from hl]; decide⟩
    · obtain ⟨h1, h2, h3, h4⟩ := regInfo_level.2 k hk
      refine ⟨.h, h1, h2, h3, h4, ?_⟩
      change (s.thread u).lvl.num < _
      cases hv : (s.thread u).lvl <;> simp_all [Level.num]
  obtain ⟨i, hk, e⟩ := Option.map_eq_some_iff.1 hi
  obtain ⟨rfl, hw⟩ := Prod.mk.inj e
  have hk : s.regKnown (s.regAg u) k = some i := by rw [State.regKnown_eq (.inr ⟨fun _ => by omega, hr⟩), hk]
  exact ⟨State.regRead_below hk hl, fun v => State.regWrite_below v hk (by rw [hw]; exact hl), h8⟩

section
variable {s : State} {g : Group} {gd : Guard} {u c : Nat} {d a : RegF} {n : BitVec 16} {w h : Bool}

theorem State.Refuses.ne (k : s.Refuses u n.toNat c) : n ≠ 8 := fun e => k.settled (congrArg BitVec.toNat e)

theorem State.RunsAlone.srd_refused (hr : s.RunsAlone g u gd { ctl := !w, dsts := [(d, if w then 2 else 1)] })
    (k : (s.charge [u]).Refuses u n.toNat c) (ho : s.TrapOpen u c h) :
    s.Exactly u (.srd gd d n w) fun r => r.tookTrap u h c s.ext.iword (s.thread u).pos :=
  hr.srd_traps k.ne k.read ho

theorem State.RunsAlone.swr_refused (hr : s.RunsAlone g u gd { ctl := !w, srcs := [⟨1, a, if w then .i64 else .int⟩] })
    (k : (s.charge [u]).Refuses u n.toNat c) (ho : s.TrapOpen u c h) :
    s.Exactly u (.swr gd n a w) fun r => r.tookTrap u h c s.ext.iword (s.thread u).pos :=
  hr.swr_traps k.ne (k.write _) ho

/-- SWR of a thread register leaves the value in it: FFLAGS, the thread pointer, and the trap positions of both banks. -/
theorem State.RunsAlone.swr_registers (hr : s.RunsAlone g u gd { ctl := !w, srcs := [⟨1, a, if w then .i64 else .int⟩] })
    (hn : n = 8 → s.flagsPending u = false) {v : Nat} (hv : s.swrVal u a w = v) :
    let t := s.thread u
    let leaves (f : Thread → Thread) : Prop := s.Becomes (.swr gd n a w) ((s.charge [u]).modThread u f)
    (n = 0x008 → v < 32 → leaves fun x => { x with fflags := BitVec.ofNat 5 v }) ∧
    (n = 0x010 → v % 32 = 0 → v < 2 ^ 48 → leaves fun x => { x with tls := v }) ∧
    (n = 0x101 → t.lvl ≠ .u → v / 2 ^ 48 % 2 ^ 12 = 0 → v % 8 = 0 →
      leaves fun x => { x with bankG := { x.bankG with pcIdx := v / 2 ^ 60, pcA := v % 2 ^ 48 } }) ∧
    (n = 0x109 → t.lvl = .h → v / 2 ^ 48 % 2 ^ 12 = 0 → v % 8 = 0 →
      leaves fun x => { x with bankH := { x.bankH with pcIdx := v / 2 ^ 60, pcA := v % 2 ^ 48 } }) := by
  have hlt := hv ▸ s.swrVal_lt u a w
  subst hv
  refine ⟨?_, ?_, ?_, ?_⟩
  · rintro rfl h
    refine hr.swr_thread hn [(5, 59)] rfl (by decide) (Nat.zero_le _) (by decide) (by decide) ?_ ⟨?_, ?_, ?_, ?_⟩
      (fun _ => ⟨rfl, rfl, rfl⟩) rfl
    · simp only [ZeroAt, and_true]; omega
    all_goals intro _; rfl
  · rintro rfl h1 h2
    refine hr.swr_thread hn [(48, 16), (0, 5)] rfl (by decide) (Nat.zero_le _) (by decide) (by decide) ?_ ⟨?_, ?_, ?_, ?_⟩
      (fun _ => ⟨rfl, rfl, rfl⟩) rfl
    · simp only [ZeroAt, and_true]; omega
    all_goals intro _; rfl
  · rintro rfl hl h1 h2
    refine hr.swr_thread hn [(48, 12), (0, 3)] rfl (by decide) ?_ (by decide) (by decide) ?_ ⟨?_, ?_, ?_, ?_⟩
      (fun _ => ⟨rfl, rfl, rfl⟩) rfl
    · revert hl; cases (s.thread u).lvl <;> simp [Level.num]
    · simp only [ZeroAt, and_true]; omega
    all_goals intro _; rfl
  · rintro rfl hl h1 h2
    refine hr.swr_thread hn [(48, 12), (0, 3)] rfl (by decide) (by rw [hl]) (by decide) (by decide) ?_ ⟨?_, ?_, ?_, ?_⟩
      (fun _ => ⟨rfl, rfl, rfl⟩) rfl
    · simp only [ZeroAt, and_true]; omega
    all_goals intro _; rfl

end

/-- Settles O42: SRD and SWR are their register access (`srd_becomes`, `swr_becomes`), whose checks and values are read off the register
table; an access that the table refuses traps before it does anything. -/
theorem systemRegistersAreReadWrittenAndGuarded : Obligations.SystemRegistersAreReadWrittenAndGuarded := by
  unfold Obligations.SystemRegistersAreReadWrittenAndGuarded
  refine ⟨fun s g gd u a d n w => ?_, fun s g gd u a d n h => ?_⟩
  · intro t c ag hn
    have ck := s.charged_charge [u]
    have ht : c.thread ag.thr = t := ck.thread u
    refine ⟨fun hr => ⟨fun v r hv k => hr.srd_becomes hn hv k, fun v hv hc => ?_, fun hl v hv => ?_, fun hl v hv => ?_⟩, fun hr => ?_⟩
    · exact hr.srd_value hn (State.shows_thread ht (ck.cycleOf _) hv)
        (fun h => ⟨fun e => (hc h).1 (BitVec.eq_of_toNat_eq e), fun e => (hc h).2 (BitVec.eq_of_toNat_eq e)⟩) (Nat.zero_le _)
    · refine hr.srd_value hn (State.shows_bankG (congrArg Thread.bankG ht) hv) (fun _ => ?_) ?_
      · constructor <;> intro e <;> simp [e] at hv
      · change 1 ≤ t.lvl.num
        revert hl; cases t.lvl <;> simp [Level.num]
    · refine hr.srd_value hn (State.shows_bankH (congrArg Thread.bankH ht) hv) (fun _ => ?_) ?_
      · constructor <;> intro e <;> simp [e] at hv
      · rw [show (s.thread u).lvl = .h from hl]
    · exact ⟨fun x r hv k => hr.swr_becomes hn hv k, hr.swr_registers hn rfl⟩
  · intro t k unassigned above
    have ha (h : above) : (s.charge [u]).Refuses u k 3 := State.refuses_above (by rw [(s.charged_charge [u]).thread]; exact h)
    have hu (h : unassigned) : (s.charge [u]).Refuses u k 0x19 := State.refuses_unassigned _ u h
    exact ⟨fun hr => ⟨fun h ho => State.RunsAlone.srd_refused (w := false) hr (hu h) ho,
        fun h ho => State.RunsAlone.srd_refused (w := false) hr (ha h) ho⟩,
      fun hr => ⟨fun h ho => State.RunsAlone.swr_refused (w := false) hr (hu h) ho,
        fun h ho => State.RunsAlone.swr_refused (w := false) hr (ha h) ho⟩⟩

end Sys2Proof.Machine
end

section
-- One thread elaborates: check.sh limits memory, and counts a stack for each thread that waits.
set_option Elab.async false

namespace Sys2Proof.Machine

/-! Register commands: accesses of an agent outside the cores, whose steps are events of their own (R140). -/

/-- The command is carried out: the step leaves r, and the command is no more to come. -/
def State.Carries (s : State) (i : Instr) (r : State) : Prop := ∃ l, exec i s = .next (r.onExt fun e => { e with cmds := l })

/-- The agent of a command at level H, or at G of the function f. -/
def State.outside (s : State) (h : Bool) (f : Nat) : RegAg := s.cmdAg ⟨h, f, 0, none⟩

section
variable {s r : State} {h : Bool} {f reg v : Nat} {i : Instr} {ri : RegInfo}

@[simp] theorem State.outside_thr (s : State) (h : Bool) (f : Nat) : (s.outside h f).thr = 0 := by cases h <;> rfl
@[simp] theorem State.outside_fq (s : State) (h : Bool) (f : Nat) : (s.outside h f).fq = f := by cases h <;> rfl
@[simp] theorem State.outside_page (s : State) (h : Bool) (f : Nat) : (s.outside h f).page = if h then 0 else f + 1 := by cases h <;> rfl
@[simp] theorem State.outside_lvl (s : State) (h : Bool) (f : Nat) : (s.outside h f).lvl = if h then .h else .g := by cases h <;> rfl

/-- Only the level and the function of a command place its agent. -/
theorem State.cmdAg_outside (s : State) (h : Bool) (f reg : Nat) (v : Option Word) : s.cmdAg ⟨h, f, reg, v⟩ = s.outside h f := by
  cases h <;> rfl

/-- A write whose level and reserved bits pass sets the register. -/
theorem State.outside_write (reserved : List (Nat × Nat)) (hv : v < 2 ^ 64) (hi : regInfo reg = some ri)
    (hl : h = true ∨ ri.wr ≠ .h ∧ ri.rwh = 0) (ho : ri.allRo = false) (hm : 2 ^ 64 - 1 - ri.named = maskOf reserved) (hz : ZeroAt v reserved)
    (hr : reg ≠ 0xA5E) : s.regWrite (s.outside h f) reg (BitVec.ofNat 64 v) = s.regSet (s.outside h f) reg v := by
  refine State.regWrite_set hv ((State.regKnown_eq (.inl (by simp))).trans hi) ?_ hr
  refine RegInfo.check_passes reserved ?_ ho ?_ hm hz <;> rw [State.outside_lvl]
  · obtain rfl | ⟨hw, -⟩ := hl
    · cases ri.wr <;> decide
    · cases h <;> revert hw <;> cases ri.wr <;> decide
  · obtain rfl | ⟨-, hw⟩ := hl
    · exact .inr rfl
    · exact .inl hw

/-- The command that alone is to come and fits the event is tried. -/
theorem State.command_eq (fits : Nat → Option Nat → Bool) (hf : f ≤ 512) {w : Option Word} (hc : s.ext.cmds = [⟨h, f, reg, w⟩])
    (hfit : fits reg (w.map BitVec.toNat) = true) {b : Bool} (ha : s.pageAccess (if h then 0 else f + 1) (s.outside h f) reg w = (b, r)) :
    s.command fits = if b then
      r.onExt fun e => { e with cmds := e.cmds.eraseP fun c => fits c.reg (c.v.map BitVec.toNat) && decide (c.fn ≤ 512) }
    else r := by
  unfold State.command
  simp only [hc, List.find?_cons, hfit, hf, decide_true, Bool.and_self, State.cmdAg_outside, ha]
  cases b <;> rfl

theorem wrote_fits {regs : List Nat} {fits : Nat → Bool} (hv : v < 2 ^ 64) (hin : regs.contains reg = true) (hfit : fits v = true) :
    wrote regs fits reg ((some (BitVec.ofNat 64 v)).map BitVec.toNat) = true := by
  have e : (BitVec.ofNat 64 v).toNat = v := by rw [BitVec.toNat_ofNat, Nat.mod_eq_of_lt hv]
  simp only [wrote, Option.map_some, e, hin, hfit, Bool.and_self]

/-- A write that is done is carried out. -/
theorem State.carries_write (regs : List Nat) (fits : Nat → Bool) (he : exec i s = .next (s.command (Machine.wrote regs fits))) (hf : f ≤ 512)
    (hv : v < 2 ^ 64) (hc : s.ext.cmds = [⟨h, f, reg, some (BitVec.ofNat 64 v)⟩]) (hin : regs.contains reg = true) (hfit : fits v = true)
    (hr : 0x300 ≤ reg) (hw : s.regWrite (s.outside h f) reg (BitVec.ofNat 64 v) = .done r) : s.Carries i r := by
  have ha : s.pageAccess (if h then 0 else f + 1) (s.outside h f) reg (some (BitVec.ofNat 64 v)) = (true, r) := by
    simp [State.pageAccess, Nat.not_lt.2 hr, hw, RegRes.done]
  rw [State.Carries, he, s.command_eq _ hf hc ?_ ha]
  · exact ⟨_, rfl⟩
  · exact wrote_fits hv hin hfit

/-- A write that waits in place leaves what its access has begun. -/
theorem State.command_held (regs : List Nat) (fits : Nat → Bool) (he : exec i s = .next (s.command (Machine.wrote regs fits))) (hf : f ≤ 512)
    (hv : v < 2 ^ 64) (hc : s.ext.cmds = [⟨h, f, reg, some (BitVec.ofNat 64 v)⟩]) (hin : regs.contains reg = true) (hfit : fits v = true)
    (hr : 0x300 ≤ reg) (hw : s.regWrite (s.outside h f) reg (BitVec.ofNat 64 v) = .hold r) : exec i s = .next r := by
  have ha : s.pageAccess (if h then 0 else f + 1) (s.outside h f) reg (some (BitVec.ofNat 64 v)) = (false, r) := by
    simp [State.pageAccess, Nat.not_lt.2 hr, hw]
  rw [he, s.command_eq _ hf hc ?_ ha]
  · rfl
  · exact wrote_fits hv hin hfit

/-- A read is carried out, and its value is given. -/
theorem State.carries_read (fits : Nat → Option Nat → Bool) (he : exec i s = .next (s.command fits)) (hf : f ≤ 512)
    (hc : s.ext.cmds = [⟨h, f, reg, none⟩]) (hfit : fits reg none = true)
    (hr : 0x300 ≤ reg) {x : Word} (hw : s.regRead (s.outside h f) reg = .ok x r) : s.Carries i (r.emit (.value reg x)) := by
  have ha : s.pageAccess (if h then 0 else f + 1) (s.outside h f) reg none = (true, r.emit (.value reg x)) := by
    simp [State.pageAccess, Nat.not_lt.2 hr, hw]
  rw [State.Carries, he, s.command_eq _ hf hc hfit ha]
  exact ⟨_, rfl⟩
end


section
variable {s r : State} {h : Bool} {f reg : Nat} {ri : RegInfo}

/-- The command that alone is to come. -/
def State.Next (s : State) (h : Bool) (f reg : Nat) (v : Option Nat) : Prop := s.ext.cmds = [⟨h, f, reg, v.map (BitVec.ofNat 64)⟩]

/-! Which part of the register space a write sets. -/

theorem State.regSet_pkg {a : RegAg} {n v : Nat} (hn : 0xA00 ≤ n ∧ n < 0xA50) : s.regSet a n v = s.writePkg a n v := by
  unfold State.regSet
  rw [if_neg (by omega), if_neg (by omega), if_neg (by omega), if_neg (by omega), if_neg (by omega), if_neg (by omega), if_pos (by omega)]

theorem State.regSet_dbg {a : RegAg} {n v : Nat} (hn : 0xA50 ≤ n) : s.regSet a n v = s.writeDbg a n v := by
  unfold State.regSet
  rw [if_neg (by omega), if_neg (by omega), if_neg (by omega), if_neg (by omega), if_neg (by omega), if_neg (by omega), if_neg (by omega)]

theorem State.regSet_trace {a : RegAg} {n v : Nat} (hn : 0xA60 ≤ n ∧ n < 0xA90) : s.regSet a n v = s.writeTrace a.fq n v := by
  rw [State.regSet_dbg (by omega)]
  unfold State.writeDbg
  rw [if_neg (by omega), if_pos (by simp [hn])]

/-! The branches of three registers. Their right sides are not unfolded: the kernel would evaluate them before it picks the branch. -/

theorem State.writePkg_hmdies {a : RegAg} {v : Nat} : s.writePkg a 0xA00 v =
    if v = 0 || (bitList v 4).any fun d => !s.dieOn d then .trap 0x19 else .done (s.rehome fun p => { p with hmdies := v }) := by
  unfold State.writePkg
  obtain ⟨x, hx⟩ : ∃ x, (if v = 0 || (bitList v 4).any fun d => !s.dieOn d then RegRes.trap 0x19 else
    .done (s.rehome fun p => { p with hmdies := v })) = x := ⟨_, rfl⟩
  rw [hx]
  rfl

theorem State.writeDbg_command {a : RegAg} {v : Nat} : s.writeDbg a 0xA5A v =
    if v = 0 || 5 < v then .trap 0x19 else .done (s.debugCmd a.fq v) := by
  unfold State.writeDbg
  rw [if_neg (by decide), if_neg (by decide)]
  obtain ⟨x, hx⟩ : ∃ x, (if v = 0 || 5 < v then RegRes.trap 0x19 else .done (s.debugCmd a.fq v)) = x := ⟨_, rfl⟩
  rw [hx]
  rfl

theorem State.writeDbg_snap {a : RegAg} {v : Nat} : s.writeDbg a 0xA90 v =
    .done (if bitOf v 15 then (s.onPlat fun p => { p with tdsel := v % 2 ^ 15 }).snap v else s.onPlat fun p => { p with tdsel := v % 2 ^ 15 }) := by
  unfold State.writeDbg
  rw [if_neg (by decide), if_neg (by decide)]
  rfl

/-! Queue commands (R131, R132). -/

theorem State.qcmd_write {lq k : Nat} (hq : lq < 2 ^ 15) (hk : k < 8) :
    s.regWrite (s.outside h f) 0xA24 (BitVec.ofNat 64 (8 * lq + k)) = s.qcmd (s.outside h f) (8 * lq + k) :=
  State.outside_write [(18, 46)] (by omega) rfl (.inr (by decide)) (by decide) (by decide) (by simp only [ZeroAt, and_true]; omega) (by decide)

theorem bitsOf_queue {lq k : Nat} (hq : lq < 2 ^ 15) (hk : k < 8) : bitsOf (8 * lq + k) 17 3 = lq ∧ (8 * lq + k) % 8 = k := by
  unfold bitsOf; omega

/-- A queue that ENABLE enables is enabled. -/
theorem State.queueEnable_enables {lq : Nat} (h : s.queueEnable lq = some r) : (r.task.queues.find lq).map (·.enabled) = some true := by
  unfold State.queueEnable at h
  split at h
  · rename_i he
    cases h
    simpa using he
  · generalize s.physRead (s.task.qtbase + 16 * lq) 16 = p at h
    dsimp only at h
    split at h
    · cases h
    · cases h
      rw [State.onTask_task, Map.find_put_self]
      rfl

/-- DISABLE leaves the queue that it names as it was, but disabled. -/
theorem State.queueDisable_disables {lq i : Nat} {q : Queue} (h : s.queueOf f lq = some (i, q)) (he : q.enabled = true) :
    (s.queueDisable f lq).task.queues.find i = some { q with enabled := false } := by
  simp [State.queueDisable, h, he]

theorem State.queue_commands (s : State) (h : Bool) (f : Nat) (hf : f ≤ 512) (lq : Nat) (hq : lq < 2 ^ 15) :
    (∀ r, h = true → s.Next h f 0xA24 (some (8 * lq + 1)) → s.queueEnable lq = some r → s.Carries .queueEnable r) ∧
    (s.Next h f 0xA24 (some (8 * lq + 2)) → s.Carries .queueDisable (s.queueDisable f lq)) ∧
    (s.Next h f 0xA24 (some (8 * lq + 3)) → s.Carries .queueCancel (s.queueCancel f lq)) := by
  have hb (k : Nat) (hk : k < 8) := bitsOf_queue hq hk
  refine ⟨fun r hh hc hr => ?_, fun hc => ?_, fun hc => ?_⟩
  · refine State.carries_write [0xA24] (fun v => v % 8 == 1) rfl hf (by omega) hc rfl (by simp) (by decide) ?_
    rw [State.qcmd_write hq (by decide)]
    simp [State.qcmd, hb, hh, hr]
  · refine State.carries_write [0xA24] (fun v => v % 8 == 2) rfl hf (by omega) hc rfl (by simp) (by decide) ?_
    rw [State.qcmd_write hq (by decide)]
    simp [State.qcmd, hb]
  · refine State.carries_write [0xA24] (fun v => v % 8 == 3) rfl hf (by omega) hc rfl (by simp) (by decide) ?_
    rw [State.qcmd_write hq (by decide)]
    simp [State.qcmd, hb]

/-! Fault commands (R237). -/

theorem State.fltres_write {v : Nat} (hv : v < 2 ^ 64) (hz : v / 4 % 1024 = 0) :
    s.regWrite (s.outside h f) 0xA45 (BitVec.ofNat 64 v) = s.writeFltres (s.outside h f) v :=
  State.outside_write [(2, 10)] hv rfl (.inr (by decide)) (by decide) (by decide) (by simp only [ZeroAt, and_true]; omega) (by decide)

theorem State.fault_commands (s : State) (h : Bool) (f : Nat) (hf : f ≤ 512) (seq : Nat) (hs : seq < 2 ^ 32) :
    (s.Next h f 0xA45 (some (2 ^ 32 * seq + 1)) → s.Carries .faultResume (s.fltres f 1 seq 0)) ∧
    (s.Next h f 0xA45 (some (2 ^ 32 * seq + 3)) → s.Carries .faultFail (s.fltres f 3 seq 0)) := by
  have hb (k : Nat) (hk : k < 4) : bitsOf (2 ^ 32 * seq + k) 31 12 = 0 ∧ (2 ^ 32 * seq + k) % 4 = k ∧ (2 ^ 32 * seq + k) / 2 ^ 32 = seq := by
    unfold bitsOf; omega
  refine ⟨fun hc => ?_, fun hc => ?_⟩
  · obtain ⟨h1, h2, h3⟩ := hb 1 (by decide)
    refine State.carries_write [0xA45] (fun v => v % 4 == 1) rfl hf (by omega) hc rfl (by simp; omega) (by decide) ?_
    rw [State.fltres_write (by omega) (by omega), State.writeFltres, h1, h2, h3]
    simp
  · obtain ⟨h1, h2, h3⟩ := hb 3 (by decide)
    refine State.carries_write [0xA45] (fun v => v % 4 == 3) rfl hf (by omega) hc rfl (by simp; omega) (by decide) ?_
    rw [State.fltres_write (by omega) (by omega), State.writeFltres, h1, h2, h3]
    simp

theorem State.fault_asid_command (s : State) (h : Bool) (f : Nat) (hf : f ≤ 512) (asid : Nat) (ha : asid < 2 ^ 20)
    (ho : h = true ∨ f = 0 ∨ asid / 2048 + 1 = f) (hc : s.Next h f 0xA45 (some (2 ^ 12 * asid + 2))) :
    s.Carries .faultResumeAsid (s.fltres f 2 0 asid) := by
  have hb : bitsOf (2 ^ 12 * asid + 2) 31 12 = asid ∧ (2 ^ 12 * asid + 2) % 4 = 2 ∧ (2 ^ 12 * asid + 2) / 2 ^ 32 = 0 := by
    unfold bitsOf; omega
  obtain ⟨h1, h2, h3⟩ := hb
  refine State.carries_write [0xA45] (fun v => v % 4 == 2) rfl hf (by omega) hc rfl (by simp; omega) (by decide) ?_
  rw [State.fltres_write (by omega) (by omega), State.writeFltres, h1, h2, h3]
  obtain rfl | rfl | rfl := ho <;> simp

/-! Trace rings (R332, R450, R452). -/

theorem State.trace_ring_command (s : State) (h : Bool) (f : Nat) (hf : f ≤ 512) (base : Nat) (fs : List Nat) (hb : base % 2 ^ 16 = 0)
    (hl : base < 2 ^ 52) (hr : ringFrames s f base 16 = some fs) (hc : s.Next h f 0xA80 (some (base + 1))) :
    s.Carries .ringEnable (s.modFn f fun g => { g with trace := { g.trace with ring := ⟨base, true, fs⟩ } }) := by
  have h1 : (base + 1) / 2 ^ 16 * 2 ^ 16 = base := by omega
  have h2 : bitOf (base + 1) 0 = true := by unfold bitOf; simp; omega
  have hw : ringWrite s f ((base + 1) / 2 ^ 16 * 2 ^ 16) (bitOf (base + 1) 0) (2 ^ 16) = some ⟨base, true, fs⟩ := by
    rw [h1, h2, ringWrite, if_pos rfl, show (2 ^ 16 + 4095) / 4096 = 16 from rfl, hr]
    rfl
  refine State.carries_write [0x310, 0xA25, 0xA42, 0xA80] (fun v => v % 2 == 1) rfl hf (by omega) hc rfl (by simp; omega) (by decide) ?_
  rw [State.outside_write [(1, 15), (52, 12)] (by omega) rfl (.inr (by decide)) (by decide) (by decide) (by simp only [ZeroAt, and_true]; omega)
    (by decide), State.regSet_trace (by decide), State.outside_fq]
  simp only [State.writeTrace, hw, State.fnDone, Nat.reduceLT, if_false]

theorem State.trace_tail_command (s : State) (h : Bool) (f : Nat) (hf : f ≤ 512) (v : Nat) (hv : v < 2 ^ 32)
    (ht : tailOk 32 (s.fnAt f).trace.head (s.fnAt f).trace.tail v = true) (hc : s.Next h f 0xA82 (some v)) :
    s.Carries .ringTailWrite (s.modFn f fun g => { g with trace := { g.trace with tail := v } }) := by
  refine State.carries_write [0x312, 0xA13, 0xA27, 0xA44, 0xA82] (fun _ => true) rfl hf (by omega) hc rfl rfl (by decide) ?_
  rw [State.outside_write [(32, 32)] (by omega) rfl (.inr (by decide)) (by decide) (by decide) (by simp only [ZeroAt, and_true]; omega)
    (by decide), State.regSet_trace (by decide), State.outside_fq]
  simp only [State.writeTrace, ht, State.fnDone, Nat.reduceLT, if_false, if_true]

theorem mem_rangeFrom {x n k : Nat} : x ∈ rangeFrom n k ↔ n ≤ x ∧ x < n + k := by
  induction k generalizing n with
  | zero => simp only [rangeFrom, List.not_mem_nil, false_iff]; omega
  | succ k ih => simp only [rangeFrom, List.mem_cons, ih]; omega

/-! The map of homes and the view (R39, R104): commands of level H. -/

theorem State.home_dies_command (s : State) (f : Nat) (hf : f ≤ 512) (v : Nat) (h0 : 0 < v) (hv : v < 16)
    (hd : ∀ d, d < 4 → v.testBit d = true → s.dieOn d = true) (hc : s.Next true f 0xA00 (some v)) :
    s.Carries .homeMapWrite (s.rehome fun p => { p with hmdies := v }) := by
  have hall : ((bitList v 4).any fun d => !s.dieOn d) = false := by
    simp only [bitList, List.any_eq_false, List.mem_filter, Bool.not_eq_true', Bool.not_eq_false, and_imp]
    intro d hd4 hb
    refine hd d ?_ ?_
    · exact (mem_rangeFrom.1 hd4).2
    · rw [Nat.testBit_eq_decide_div_mod_eq]; simpa [bitOf] using hb
  refine State.carries_write (0xA00 :: rangeFrom 0x900 256) (fun _ => true) rfl hf (by omega) hc rfl rfl (by decide) ?_
  rw [State.outside_write [(4, 60)] (by omega) rfl (.inl rfl) (by decide) (by decide) (by simp only [ZeroAt, and_true]; omega) (by decide),
    State.regSet_pkg (by decide), State.writePkg_hmdies]
  simp only [hall, Bool.or_false, decide_eq_true_eq, if_neg (Nat.pos_iff_ne_zero.1 h0)]

theorem State.home_block_command (s : State) (f : Nat) (hf : f ≤ 512) (k v : Nat) (hk : k < 256) (hv : v ≤ 4)
    (hc : s.Next true f (0x900 + k) (some v)) : s.Carries .homeMapWrite (s.rehome fun p => { p with homemap := p.homemap.setD 4 k v }) := by
  have hi : regInfo (0x900 + k) = some { rd := .g, wr := .g, rwh := Machine.mk 2 0 } := by
    unfold regInfo
    rw [if_neg (by omega), if_neg (by omega), if_neg (by omega), if_pos (by omega)]
  have hin : (0xA00 :: rangeFrom 0x900 256).contains (0x900 + k) = true := by
    simp only [List.contains_eq_mem, List.mem_cons, mem_rangeFrom, decide_eq_true_eq]
    omega
  refine State.carries_write (0xA00 :: rangeFrom 0x900 256) (fun _ => true) rfl hf (by omega) hc hin rfl (by omega) ?_
  rw [State.outside_write [(3, 61)] (by omega) hi (.inl rfl) (by decide) (by decide) (by simp only [ZeroAt, and_true]; omega) (by omega)]
  unfold State.regSet
  rw [if_neg (by omega), if_neg (by omega), if_neg (by omega), if_neg (by omega), if_neg (by omega), if_pos (by omega), if_neg (by omega),
    Nat.add_sub_cancel_left]

theorem State.view_command (s : State) (f : Nat) (hf : f ≤ 512) (v : Nat) (h0 : v % 256 = 0) (hv : v < 2 ^ 52)
    (hc : s.Next true f 0x409 (some v)) : s.Carries .viewFormation (s.viewInit v) := by
  refine State.carries_write [0x409] (fun _ => true) rfl hf (by omega) hc rfl rfl (by decide) ?_
  rw [State.outside_write [(0, 8), (52, 12)] (by omega) rfl (.inl rfl) (by decide) (by decide) (by simp only [ZeroAt, and_true]; omega) (by decide)]
  rfl

theorem State.snap_command (s : State) (f : Nat) (hf : f ≤ 512) (v : Nat) (hv : v < 2 ^ 15) (h0 : v % 16 = 0)
    (hc : s.Next true f 0xA90 (some (2 ^ 15 + v))) : s.Carries .topdownSnap ((s.onPlat fun p => { p with tdsel := v }).snap (2 ^ 15 + v)) := by
  have hb : bitOf (2 ^ 15 + v) 15 = true := by unfold bitOf; simp; omega
  have hm : (2 ^ 15 + v) % 2 ^ 15 = v := by omega
  refine State.carries_write [0xA90] (fun v => bitOf v 15) rfl hf (by omega) hc rfl hb (by decide) ?_
  rw [State.outside_write [(0, 4), (16, 48)] (by omega) rfl (.inl rfl) (by decide) (by decide) (by simp only [ZeroAt, and_true]; omega) (by decide),
    State.regSet_dbg (by decide), State.writeDbg_snap, if_pos hb, hm]

/-! HCCMD (R117). -/

theorem State.hccmd_write {v : Nat} (hv : v < 2 ^ 52) (hz : v / 4 % 1024 = 0) :
    s.regWrite (s.outside h f) 0xA15 (BitVec.ofNat 64 v) = s.hccmd (s.outside h f) v := by
  rw [State.outside_write [(2, 10), (52, 12)] (by omega) rfl (.inr (by decide)) (by decide) (by decide) (by simp only [ZeroAt, and_true]; omega)
    (by decide), State.regSet_pkg (by decide)]
  rfl

section
variable {a : RegAg} {v : Nat}

/-- An INVFRAME that has begun waits for the snoops of its frame. -/
theorem State.hccmd_waiting {m : Nat} (hm : s.markOf a = some m) :
    s.hccmd a v = if s.frameBusy (v / 4096 * 4096) then .hold s else .done (s.unmarkAg a) := by
  simp only [State.hccmd, hm]

theorem State.hccmd_invframe (hm : s.markOf a = none) (hv : v % 4 = 1) (ho : s.frameOk (v / 4096 * 4096) = true) :
    s.hccmd a v = .hold ((s.invFrame (v / 4096 * 4096)).markHold a) := by
  simp [State.hccmd, hm, hv, ho]

theorem State.hccmd_reload (hm : s.markOf a = none) (hv : v % 4 = 2) (ho : s.frameOk (v / 4096 * 4096) = true)
    (hw : s.frameWrites (v / 4096 * 4096) = false) : s.hccmd a v = .done (s.reloadFrame (v / 4096 * 4096)) := by
  simp [State.hccmd, hm, hv, ho, hw]
end

theorem State.frame_commands (s : State) (h : Bool) (f : Nat) (hf : f ≤ 512) (pa : Nat) (hp : pa % 4096 = 0) (ho : s.frameOk pa = true) :
    let page := if h then 0 else f + 1
    let marked (m : Option Nat) (r : State) : State := r.modPage page fun w => { w with mark := m }
    (s.Next h f 0xA15 (some (pa + 1)) →
      ((s.page page).mark = none → exec .invframe s = .next (marked (some 0) (s.invFrame pa))) ∧
      ((s.page page).mark ≠ none → s.frameBusy pa = true → exec .invframe s = .next s) ∧
      ((s.page page).mark ≠ none → s.frameBusy pa = false → s.Carries .invframe (marked none s))) ∧
    (s.Next h f 0xA15 (some (pa + 2)) → (s.page page).mark = none → s.frameWrites pa = false → s.Carries .reload (s.reloadFrame pa)) := by
  intro page marked
  have hl : pa < 2 ^ 39 := by
    unfold State.frameOk at ho
    simp only [Bool.and_eq_true, decide_eq_true_eq] at ho
    exact ho.1
  have hm : s.markOf (s.outside h f) = (s.page page).mark := by simp [State.markOf, page]
  have hb (k : Nat) (hk : k < 4) : (pa + k) % 4 = k ∧ (pa + k) / 4096 * 4096 = pa := by omega
  have hw (k : Nat) (hk : k < 4) : s.regWrite (s.outside h f) 0xA15 (BitVec.ofNat 64 (pa + k)) = s.hccmd (s.outside h f) (pa + k) :=
    State.hccmd_write (by omega) (by omega)
  have hmark (m : Option Nat) (r : State) : marked m r = r.modPage (s.outside h f).page fun w => { w with mark := m } := by
    rw [State.outside_page]
  refine ⟨fun hc => ?_, fun hc hn hf' => ?_⟩
  · obtain ⟨h1, h2⟩ := hb 1 (by decide)
    have hfit : ((pa + 1) % 4 == 1) = true := by rw [h1]; rfl
    have held {r : State} := s.command_held (r := r) [0xA15] (fun v => v % 4 == 1) (i := .invframe) rfl hf (by omega) hc rfl hfit (by decide)
    refine ⟨fun hn => held ?_, fun hn hy => held ?_, fun hn hy => ?_⟩
    · rw [hw 1 (by decide), State.hccmd_invframe (by rw [hm, hn]) h1 (by rwa [h2]), h2, hmark]
      simp only [State.markHold, State.outside_thr, if_true]
    · obtain ⟨m, hs⟩ := Option.ne_none_iff_exists'.1 hn
      rw [hw 1 (by decide), State.hccmd_waiting (hm.trans hs), h2, if_pos hy]
    · obtain ⟨m, hs⟩ := Option.ne_none_iff_exists'.1 hn
      refine State.carries_write [0xA15] (fun v => v % 4 == 1) rfl hf (by omega) hc rfl hfit (by decide) ?_
      rw [hw 1 (by decide), State.hccmd_waiting (hm.trans hs), h2, hy, hmark]
      simp only [State.unmarkAg, State.outside_thr, if_true, Bool.false_eq_true, if_false]
  · obtain ⟨h1, h2⟩ := hb 2 (by decide)
    refine State.carries_write [0xA15] (fun v => v % 4 == 2) rfl hf (by omega) hc rfl (by rw [h1]; rfl) (by decide) ?_
    rw [hw 2 (by decide), State.hccmd_reload (by rw [hm, hn]) h1 (by rwa [h2]) (by rwa [h2]), h2]

/-! Debug commands (R328 to R331). -/

theorem State.debug_command (s : State) (h : Bool) (f : Nat) (hf : f ≤ 512) (k : Nat) (hk : 0 < k ∧ k ≤ 5) (hc : s.Next h f 0xA5A (some k))
    {i : Instr} (he : exec i s = .next (s.command (Machine.wrote [0xA5A] (· == k)))) : s.Carries i (s.debugCmd f k) := by
  refine State.carries_write [0xA5A] (· == k) he hf (by omega) hc rfl (beq_self_eq_true k) (by decide) ?_
  rw [State.outside_write [(3, 61)] (by omega) rfl (.inr (by decide)) (by decide) (by decide) (by simp only [ZeroAt, and_true]; omega) (by decide),
    State.regSet_dbg (by decide), State.writeDbg_command, State.outside_fq]
  simp [Nat.pos_iff_ne_zero.1 hk.1, hk.2]

/-- RUN and STEP of a stopped target make it ready. -/
theorem State.debugCmd_stopped {t : Thread} {st : Nat} (ht : s.byLtid f (s.fnAt f).dbg.tgt = some t) (hu : s.thread t.uid = t)
    (hs : t.run = .stopped st) : s.debugCmd f 3 = (s.modThread t.uid fun x => { x with run := .ready, ready := s.now x }) ∧
      s.debugCmd f 2 = (s.modThread t.uid fun x => { x with run := .ready, ready := s.now x, stepping := true }) := by
  simp [State.debugCmd, ht, State.debugRun, State.debugStep, hu, hs]

theorem State.outside_read (s : State) (h : Bool) (f : Nat) (hi : regInfo reg = some ri) (hl : ri.rd = .g) :
    s.regKnown (s.outside h f) reg = some ri ∧ ¬(s.outside h f).lvl.num < ri.rd.num := by
  refine ⟨(State.regKnown_eq (.inl (by simp))).trans hi, ?_⟩
  rw [hl, State.outside_lvl]
  cases h <;> decide

theorem State.event_command (s : State) (h : Bool) (f : Nat) (hf : f ≤ 512) {e : DbgEvent} {es : List DbgEvent}
    (he : (s.fnAt f).dbg.events = e :: es)
    (hc : s.Next h f 0xA5B none) :
    s.Carries .debugEventPop ((s.modFn f fun g => { g with dbg := { g.dbg with events := es, evt := e.ltid, eva := some e } }).emit
      (.value 0xA5B e.ltid)) := by
  refine State.carries_read (fun r v => r == 0xA5B && v.isNone) rfl hf hc rfl (by decide) ?_
  obtain ⟨hk, hl⟩ := s.outside_read h f (reg := 0xA5B) rfl rfl
  simp only [State.regRead, hk, if_neg hl, if_true, State.outside_fq, State.debugPop, he]

theorem State.data_command (s : State) (h : Bool) (f : Nat) (hf : f ≤ 512) {t : Thread} {v : Nat} (ht : s.dbgTarget f = some t)
    (hsp : (s.fnAt f).dbg.space = false) (hv : s.dbgReg t (s.fnAt f).dbg.num = some v) (hc : s.Next h f 0xA5E none) :
    s.Carries .dbgdataAccess (s.emit (.value 0xA5E (BitVec.ofNat 64 v))) := by
  refine State.carries_read (fun r _ => r == 0xA5E) rfl hf hc rfl (by decide) ?_
  obtain ⟨hk, hl⟩ := s.outside_read h f (reg := 0xA5E) rfl rfl
  simp only [State.regRead, hk, if_neg hl, if_neg (show ¬0xA5E = 0xA5B by decide), if_true, State.outside_fq, ht, hsp, hv,
    Bool.false_eq_true, if_false]

end

/-- Settles O51: each command is the register write, or read, of its agent, which passes the checks of R442 and is then the operation that the
statement names; one part per kind of command. -/
theorem registerCommandsAreCarriedOut : Obligations.RegisterCommandsAreCarriedOut := by
  unfold Obligations.RegisterCommandsAreCarriedOut
  intro s h f hf next done
  refine ⟨fun lq hq => ?_, s.fault_commands h f hf, s.fault_asid_command h f hf, s.trace_ring_command h f hf, s.trace_tail_command h f hf,
    fun hh => ?_, s.frame_commands h f hf, fun hc => s.debug_command h f hf 1 (by decide) hc rfl,
    fun hc => s.debug_command h f hf 2 (by decide) hc rfl, fun hc => s.debug_command h f hf 3 (by decide) hc rfl,
    fun hc => s.debug_command h f hf 4 (by decide) hc rfl, fun hc => s.debug_command h f hf 5 (by decide) hc rfl,
    fun t st ht hu hs => State.debugCmd_stopped ht hu hs, fun e es he => s.event_command h f hf he,
    fun t v ht hs hv => s.data_command h f hf ht hs hv⟩
  · obtain ⟨h1, h2, h3⟩ := s.queue_commands h f hf lq hq
    exact ⟨fun r hh hc hr => ⟨h1 r hh hc hr, State.queueEnable_enables hr⟩,
      fun hc => ⟨h2 hc, fun i q hi he => State.queueDisable_disables hi he⟩, h3⟩
  · subst hh
    exact ⟨s.home_dies_command f hf, s.home_block_command f hf, s.view_command f hf, s.snap_command f hf⟩

end Sys2Proof.Machine
end

section
-- One thread elaborates: check.sh limits memory, and counts a stack for each thread that waits.
set_option Elab.async false

namespace Sys2Proof.Machine

/-! What room in the fault queue sets going leaves the queue's tail alone. Each operation that it reaches leaves the functions' state as it is
(`_fns`), or at least their fault queue tails (`_pfqTail`). -/

/-- The fault queue tail of a function. -/
def pfqTail (m : Map Fn) (k : Nat) : Nat := (m.getD Fn.reset k).mem.pfqTail

/-! Branches and loops. -/

@[simp] theorem fns_ite (c : Prop) [Decidable c] (a b : State) : (if c then a else b).task.fns = if c then a.task.fns else b.task.fns := by
  split <;> rfl

@[simp] theorem pfqTail_ite (c : Prop) [Decidable c] (a b : Map Fn) (κ : Nat) :
    pfqTail (if c then a else b) κ = if c then pfqTail a κ else pfqTail b κ := by
  split <;> rfl

@[simp] theorem foldl_fns {α : Type} {f : State → α → State} (h : ∀ s a, (f s a).task.fns = s.task.fns) (l : List α) (s : State) :
    (l.foldl f s).task.fns = s.task.fns := by
  induction l generalizing s with
  | nil => rfl
  | cons a l ih => rw [List.foldl_cons, ih, h]

@[simp] theorem foldl_pfqTail {α : Type} {f : State → α → State} {κ : Nat}
    (h : ∀ s a, pfqTail (f s a).task.fns κ = pfqTail s.task.fns κ) (l : List α) (s : State) :
    pfqTail (l.foldl f s).task.fns κ = pfqTail s.task.fns κ := by
  induction l generalizing s with
  | nil => rfl
  | cons a l ih => rw [List.foldl_cons, ih, h]

@[simp] theorem State.modFn_pfqTail (s : State) (f : Nat) (g : Fn → Fn) (k : Nat) (h : ∀ x, (g x).mem.pfqTail = x.mem.pfqTail) :
    pfqTail (s.modFn f g).task.fns k = pfqTail s.task.fns k := by
  show (State.fnAt _ _).mem.pfqTail = _
  rw [State.fnAt_modFn]
  split
  · subst_vars; exact h _
  · rfl

theorem fns_snd {β : Type} {p : β × State} {x : β} {s : State} (h : p = (x, s)) : s.task.fns = p.2.task.fns := by
  rw [h]

theorem pfqTail_snd {β : Type} {p : β × State} {x : β} {s : State} (κ : Nat) (h : p = (x, s)) :
    pfqTail s.task.fns κ = pfqTail p.2.task.fns κ := by
  rw [h]

@[simp] theorem foldl_snd_fns {α β : Type} {f : β × State → α → β × State} (h : ∀ p a, (f p a).2.task.fns = p.2.task.fns) (l : List α)
    (p : β × State) : (l.foldl f p).2.task.fns = p.2.task.fns := by
  induction l generalizing p with
  | nil => rfl
  | cons a l ih => rw [List.foldl_cons, ih, h]

@[simp] theorem foldl_snd_pfqTail {α β : Type} {f : β × State → α → β × State} {κ : Nat}
    (h : ∀ p a, pfqTail (f p a).2.task.fns κ = pfqTail p.2.task.fns κ) (l : List α) (p : β × State) :
    pfqTail (l.foldl f p).2.task.fns κ = pfqTail p.2.task.fns κ := by
  induction l generalizing p with
  | nil => rfl
  | cons a l ih => rw [List.foldl_cons, ih, h]

/-! Choices and updates of the other parts. -/

@[simp] theorem State.emit_fns (s : State) (o : Machine.Out) : (s.emit o).task.fns = s.task.fns := rfl

@[simp] theorem choose_fns (n : Nat) (s : State) : (choose n s).2.task.fns = s.task.fns := by
  unfold choose
  split <;> simp

@[simp] theorem chooseFrom_fns {α : Type} (l : List α) (d : α) (s : State) : (chooseFrom l d s).2.task.fns = s.task.fns := by
  simp [chooseFrom]

@[simp] theorem chooseBool_fns (s : State) : (chooseBool s).2.task.fns = s.task.fns := rfl

@[simp] theorem State.modCluster_fns (s : State) (k : Nat) (f : Cluster → Cluster) : (s.modCluster k f).task.fns = s.task.fns := rfl

@[simp] theorem State.modCoreAt_fns (s : State) (k : Nat) (f : Core → Core) : (s.modCoreAt k f).task.fns = s.task.fns := rfl

@[simp] theorem State.modThread_fns (s : State) (u : Nat) (f : Thread → Thread) : (s.modThread u f).task.fns = s.task.fns := rfl

@[simp] theorem State.modCrew_fns (s : State) (u : Nat) (f : Crew → Crew) : (s.modCrew u f).task.fns = s.task.fns := rfl

@[simp] theorem State.fire_fns (s : State) (pline : Nat) : (s.fire pline).task.fns = s.task.fns := rfl

/-! Physical writes, translation and the way to a line. -/

@[simp] theorem State.physStore_fns (s : State) (w : Wr) (pa : Nat) (bs : List Byte) : (s.physStore w pa bs).task.fns = s.task.fns := by
  unfold State.physStore
  dsimp only
  split
  · simp
  · rw [foldl_fns (by simp)]; simp

@[simp] theorem State.physPut_fns (s : State) (w : Wr) (pa : Nat) (bs : List Byte) : (s.physPut w pa bs).task.fns = s.task.fns := by
  simp [State.physPut]

@[simp] theorem State.modChan_fns (s : State) (ch : Nat) (f : Chan → Chan) : (s.modChan ch f).task.fns = s.task.fns := rfl

@[simp] theorem State.physPoison_fns (s : State) (w : Wr) (pa : Nat) (bs : List Byte) (poison : Bool) :
    (s.physPoison w pa bs poison).task.fns = s.task.fns := by
  simp [State.physPoison]

@[simp] theorem State.physWrite_fns (s : State) (w : Wr) (pa : Nat) (bs : List Byte) (poison : Bool) :
    (s.physWrite w pa bs poison).task.fns = s.task.fns := by
  simp [State.physWrite]

@[simp] theorem State.noteStall_fns (s : State) (key : Nat × Nat × Nat) (pa n : Nat) : (s.noteStall key pa n).task.fns = s.task.fns := by
  simp [State.noteStall]

@[simp] theorem translate_fns (s : State) (fn : Nat) (sp : Space) (core : Nat) (lvl : Level) (va : Nat) (a : Acc) :
    (translate s fn sp core lvl va a).2.task.fns = s.task.fns := by
  unfold translate
  dsimp only
  (repeat' split) <;> simp

@[simp] theorem State.modDom_fns (s : State) (k : DomKey) (f : Domain → Domain) : (s.modDom k f).task.fns = s.task.fns := rfl

@[simp] theorem State.snapTo_fns (s : State) (key : DomKey) (k : Know) : (s.snapTo key k).task.fns = s.task.fns := rfl

@[simp] theorem chooseSubset_fns (l : List Nat) (s : State) : (chooseSubset l s).2.task.fns = s.task.fns := by
  induction l generalizing s with
  | nil => rfl
  | cons a l ih => simp [chooseSubset, ih]

@[simp] theorem State.l1Fill_fns (s : State) (ag : Agent) (va n : Nat) (at_ : Attr) (na : Bool) :
    (s.l1Fill ag va n at_ na).task.fns = s.task.fns := by
  simp [State.l1Fill]

@[simp] theorem State.smqIrq_fns (s : State) : s.smqIrq.task.fns = s.task.fns := by
  simp [State.smqIrq]

@[simp] theorem State.smqPut_fns (s : State) (r : SmqRec) : (s.smqPut r).task.fns = s.task.fns := by
  simp [State.smqPut]

@[simp] theorem State.smqFlush_fns (s : State) : s.smqFlush.task.fns = s.task.fns := by
  simp [State.smqFlush]

@[simp] theorem State.snoopLine_fns (s : State) (line : Nat) (by_ : Who) : (s.snoopLine line by_).task.fns = s.task.fns := by
  simp [State.snoopLine]

@[simp] theorem State.prepareHalf_fns (s : State) (half : Nat) (write cached : Bool) : (s.prepareHalf half write cached).2.task.fns = s.task.fns := by
  unfold State.prepareHalf
  dsimp only
  (repeat' split) <;> simp

@[simp] theorem State.prepare_fns (s : State) (pa n : Nat) (write : Bool) (at_ : Attr) (atomic : Bool) (by_ : Who) :
    (s.prepare pa n write at_ atomic by_).2.task.fns = s.task.fns := by
  unfold State.prepare
  dsimp only
  split
  · split
    · rfl
    · split
      · simp
      · simp
  · split
    · dsimp only; rw [State.onHost_task, foldl_snd_fns]; intro p a; split <;> simp
    · rw [foldl_snd_fns]; intro p a; split <;> simp

@[simp] theorem State.prepareAt_fns (s : State) (ag : Agent) (va pa n : Nat) (write : Bool) (at_ : Attr) (atomic : Bool) :
    (s.prepareAt ag va pa n write at_ atomic).2.task.fns = s.task.fns := by
  unfold State.prepareAt
  split <;> simp

@[simp] theorem State.dropWrite_fns (s : State) (pa : Nat) : (s.dropWrite pa).task.fns = s.task.fns := by
  simp [State.dropWrite]

@[simp] theorem State.evictHalf_fns (s : State) (half : Nat) : (s.evictHalf half).task.fns = s.task.fns := by
  unfold State.evictHalf
  dsimp only
  (repeat' split) <;> simp

@[simp] theorem State.evictLine_fns (s : State) (v : L2Line) : (s.evictLine v).task.fns = s.task.fns := by
  simp [State.evictLine]

@[simp] theorem State.release_fns (s : State) (know : Know) (sc : Scope) (core : Nat) : (s.release know sc core).2.task.fns = s.task.fns := rfl

/-! Traces, homes and publication. -/

@[simp] theorem State.traceRec_pfqTail (s : State) (fn : Nat) (ltid : Word) (va pc : Nat) (old new : List Byte) (die kind κ : Nat) :
    pfqTail (s.traceRec fn ltid va pc old new die kind).task.fns κ = pfqTail s.task.fns κ := by
  simp [State.traceRec]

@[simp] theorem State.traceWrite_pfqTail (s : State) (ag : Agent) (ltid : Word) (sc kind : Nat) (pc : Pos) (va : Nat)
    (old new : List Byte) (die κ : Nat) :
    pfqTail (s.traceWrite ag ltid sc kind pc va old new die).task.fns κ = pfqTail s.task.fns κ := by
  simp [State.traceWrite]

@[simp] theorem State.traceNames_pfqTail (s0 s : State) (pline kind : Nat) (skip : Option (Space × Nat)) (κ : Nat) :
    pfqTail (State.traceNames s0 s pline kind skip).task.fns κ = pfqTail s.task.fns κ := by
  refine foldl_pfqTail (fun s l => ?_) _ _
  dsimp only
  split
  · rfl
  · split
    · rfl
    · refine foldl_pfqTail (fun t fn => ?_) _ _
      split <;> simp

@[simp] theorem State.remapRoom_pfqTail (s : State) (pline κ : Nat) : pfqTail (s.remapRoom pline).task.fns κ = pfqTail s.task.fns κ := by
  unfold State.remapRoom
  dsimp only
  (repeat' split) <;> simp

@[simp] theorem State.makeRoom_pfqTail (s : State) (home : Nat × Nat) (sp : Space) (vline pline κ : Nat) :
    pfqTail (s.makeRoom home sp vline pline).task.fns κ = pfqTail s.task.fns κ := by
  unfold State.makeRoom
  dsimp only
  (repeat' split) <;> simp

@[simp] theorem State.walked_pfqTail (s : State) (fn va : Nat) (sp : Space) (κ : Nat) :
    pfqTail (s.walked fn va sp).task.fns κ = pfqTail s.task.fns κ := by
  unfold State.walked
  split <;> simp

@[simp] theorem State.xlate_pfqTail (s : State) (ag : Agent) (va : Nat) (a : Acc) (κ : Nat) :
    pfqTail (s.xlate ag va a).2.task.fns κ = pfqTail s.task.fns κ := by
  unfold State.xlate
  split
  · next h =>
    have hs := pfqTail_snd κ h
    split <;> simpa using hs
  · simp

@[simp] theorem State.homeWrite_pfqTail (s : State) (w : Wr) (sp : Space) (home : Nat × Nat) (va pa : Nat) (at_ : Attr)
    (na : Bool) (bs : List Byte) (poison : Bool) (κ : Nat) :
    pfqTail (s.homeWrite w sp home va pa at_ na bs poison).task.fns κ = pfqTail s.task.fns κ := by
  simp [State.homeWrite]

@[simp] theorem State.noteStrong_fns (s : State) (home pa n : Nat) : (s.noteStrong home pa n).task.fns = s.task.fns := rfl

@[simp] theorem State.writeCheck_pfqTail (s : State) (ag : Agent) (va n : Nat) (parts : List (Nat × Nat)) (κ : Nat) :
    pfqTail (s.writeCheck ag va n parts).2.task.fns κ = pfqTail s.task.fns κ := by
  unfold State.writeCheck
  dsimp only
  split <;> try simp
  split
  · simp
  · split
    · simp
    · split <;> next h => exact (pfqTail_snd κ h).trans (by simp)

@[simp] theorem State.publishBytes_pfqTail (s : State) (ag : Agent) (sc : Scope) (pubs : List Nat) (pa va0 : Nat) (at_ : Attr)
    (l : List (Nat × UByte)) (κ : Nat) :
    pfqTail (s.publishBytes ag sc pubs pa va0 at_ l).task.fns κ = pfqTail s.task.fns κ := by
  unfold State.publishBytes
  dsimp only
  rw [State.modDom_fns, State.onMem_task, foldl_pfqTail (by simp), foldl_pfqTail]
  intro s q
  refine (foldl_pfqTail (fun s r => ?_) _ _).trans ?_
  · split <;> simp
  · rw [State.onMem_task, foldl_pfqTail (by simp)]

@[simp] theorem State.publish_pfqTail (s : State) (ag : Agent) (sc : Scope) (pubs : List Nat) (l : List (Nat × UByte)) (κ : Nat) :
    pfqTail (s.publish ag sc pubs l).2.task.fns κ = pfqTail s.task.fns κ := by
  unfold State.publish
  rw [foldl_snd_pfqTail]
  intro p line
  dsimp only
  split <;> next h => simpa using pfqTail_snd κ h

@[simp] theorem State.seal_fns (s : State) (u : Nat) (k : DomKey) (know : Know) (sc : Scope) (p : Wr → Bool) :
    (s.seal u k know sc p).2.task.fns = s.task.fns := rfl

/-! The fabric and the collectives. -/

@[simp] theorem freeBytes_fns (l : Nat) (s : State) : (freeBytes l s).2.task.fns = s.task.fns := by
  induction l generalizing s with
  | zero => rfl
  | succ n ih => simp [freeBytes, ih]

@[simp] theorem State.modPort_fns (s : State) (p : Nat) (f : NPort → NPort) : (s.modPort p f).task.fns = s.task.fns := rfl

@[simp] theorem State.putFlit_fns (s : State) (p : Nat) (e : Nat × NFlit) : (s.putFlit p e).task.fns = s.task.fns := rfl

@[simp] theorem State.pump_fns (s : State) (p : Nat) : (s.pump p).task.fns = s.task.fns := by
  unfold State.pump
  split
  · exact (foldl_fns (fun s e => State.putFlit_fns s p e) _ _).trans (State.modPort_fns _ _ _)
  · rfl

@[simp] theorem State.post_fns (s : State) (f : NFlit) : (s.post f).task.fns = s.task.fns := by
  simp [State.post]

@[simp] theorem State.sendMsg_fns (s : State) (kind num : Nat) (set : List Nat) (m : Nat) : (s.sendMsg kind num set m).task.fns = s.task.fns := by
  unfold State.sendMsg
  dsimp only
  (repeat' split) <;> simp

@[simp] theorem State.tell_fns (s : State) (kind num : Nat) (to_ set : List Nat) : (s.tell kind num to_ set).task.fns = s.task.fns := by
  simp [State.tell]

@[simp] theorem State.modOp_fns (s : State) (id : Nat) (f : CollOp → CollOp) : (s.modOp id f).task.fns = s.task.fns := rfl

@[simp] theorem State.collEnd_fns (s : State) (id code : Nat) : (s.collEnd id code).task.fns = s.task.fns := rfl

@[simp] theorem State.freeOp_fns (s : State) (id : Nat) (o : CollOp) : (s.freeOp id o).task.fns = s.task.fns := rfl

@[simp] theorem State.breakNotice_fns (s : State) (o : CollOp) : (s.breakNotice o).task.fns = s.task.fns := by
  simp [State.breakNotice]

/-! Journals, tasks and counters. -/

@[simp] theorem State.ringRecord_fns (s : State) (know : Know) (r : Ring) (off : Nat) (bs : List Byte) (seqOff seqLen : Nat) :
    (s.ringRecord know r off bs seqOff seqLen).task.fns = s.task.fns := by
  simp [State.ringRecord]

@[simp] theorem State.journal_pfqTail (s : State) (fn : Nat) (know : Know) (e : JEntry) (κ : Nat) :
    pfqTail (s.journal fn know e).task.fns κ = pfqTail s.task.fns κ := by
  simp [State.journal]

@[simp] theorem State.freeBlock_fns (s : State) (p k : Nat) : (s.freeBlock p k).task.fns = s.task.fns := rfl

@[simp] theorem State.endTask_pfqTail (s : State) (slot kind cause : Nat) (know : Know) (κ : Nat) :
    pfqTail (s.endTask slot kind cause know).task.fns κ = pfqTail s.task.fns κ := by
  unfold State.endTask
  (repeat' split) <;> simp

@[simp] theorem State.homeWord_pfqTail (s : State) (thr fn core : Nat) (sp : Space) (w : Wr) (va pa : Nat) (sc : Scope) (bs : List Byte) (κ : Nat) :
    pfqTail (s.homeWord thr fn core sp w va pa sc bs).task.fns κ = pfqTail s.task.fns κ := by
  simp [State.homeWord]

@[simp] theorem State.setCounter_pfqTail (s : State) (thr core : Nat) (c : Counter) (pubs : List Nat) (v κ : Nat) :
    pfqTail (s.setCounter thr core c pubs v).task.fns κ = pfqTail s.task.fns κ := by
  simp [State.setCounter]

@[simp] theorem State.releaseNode_fns (pubs : List Nat) (s : State) (n : Node) : (State.releaseNode pubs s n).task.fns = s.task.fns := by
  unfold State.releaseNode
  (repeat' split) <;> simp

@[simp] theorem State.failNode_pfqTail (s : State) (n : Node) (κ : Nat) : pfqTail (s.failNode n).task.fns κ = pfqTail s.task.fns κ := by
  unfold State.failNode
  (repeat' split) <;> simp

@[simp] theorem State.decrement_pfqTail (s : State) (thr ix : Nat) (know : Know) (core κ : Nat) :
    pfqTail (s.decrement thr ix know core).task.fns κ = pfqTail s.task.fns κ := by
  unfold State.decrement
  split <;> simp

@[simp] theorem State.breakCounter_pfqTail (s : State) (thr ix core κ : Nat) :
    pfqTail (s.breakCounter thr ix core).task.fns κ = pfqTail s.task.fns κ := by
  unfold State.breakCounter
  split <;> simp

/-! Laces, ports, barriers and futures. -/

@[simp] theorem State.modLace_fns (s : State) (t : Thread) (k : Nat) (f : Lace → Lace) : (s.modLace t k f).task.fns = s.task.fns := rfl

@[simp] theorem State.crossing_fns (s : State) (t : Thread) (k : Nat) : (s.crossing t k).task.fns = s.task.fns := by
  unfold State.crossing
  dsimp only
  split
  · rw [foldl_fns (by simp), State.modLace_fns]
  · rfl

@[simp] theorem State.breakLace_fns (s : State) (t : Thread) (k : Nat) (others : List Thread) :
    (s.breakLace t k others).task.fns = s.task.fns :=
  (foldl_fns (f := fun (s : State) (v : Thread) => s.modThread v.uid _) (fun _ _ => State.modThread_fns _ _ _) _ _).trans (State.modLace_fns _ _ _ _)

@[simp] theorem State.leaveLaces_fns (s : State) (u : Nat) (brk : Bool) : (s.leaveLaces u brk).task.fns = s.task.fns := by
  unfold State.leaveLaces
  dsimp only
  split
  · rfl
  · refine foldl_fns (fun s k => ?_) _ _
    (repeat' split) <;> simp

@[simp] theorem State.markWaiters_fns (s : State) (code : Nat) (p : Thread → WaitRec → Bool) : (s.markWaiters code p).task.fns = s.task.fns := rfl

@[simp] theorem State.endSenders_fns (s : State) (p : Nat) : (s.endSenders p).task.fns = s.task.fns := by
  unfold State.endSenders
  split <;> simp

@[simp] theorem State.breakPort_fns (s : State) (p : Nat) : (s.breakPort p).task.fns = s.task.fns := by
  unfold State.breakPort
  dsimp only
  (repeat' split) <;> simp

@[simp] theorem State.breakEvent_fns (s : State) (p : Nat) : (s.breakEvent p).task.fns = s.task.fns := by
  simp [State.breakEvent]

@[simp] theorem State.breakBarrier_fns (s : State) (b : Nat) : (s.breakBarrier b).task.fns = s.task.fns := by
  unfold State.breakBarrier
  split <;> simp

@[simp] theorem State.wakeFuture_fns (s : State) (pa code : Nat) : (s.wakeFuture pa code).task.fns = s.task.fns := rfl

/-! Chores, and the crew that fails. -/

@[simp] theorem State.choreAt_fns (s : State) (core : Nat) (sp : Space) (va pa n : Nat) : (s.choreAt core sp va pa n).2.task.fns = s.task.fns := by
  unfold State.choreAt
  dsimp only
  split; · rfl
  split; · rfl
  split; · rfl
  split; · simp
  split <;> next h => exact (fns_snd h).trans (by simp)

@[simp] theorem State.choreDo_pfqTail (s : State) (c : Chore) (pa κ : Nat) : pfqTail (s.choreDo c pa).task.fns κ = pfqTail s.task.fns κ := by
  unfold State.choreDo
  split <;> simp

@[simp] theorem State.choreBoundary_pfqTail (s : State) (c : Chore) (κ : Nat) :
    pfqTail (s.choreBoundary c).2.task.fns κ = pfqTail s.task.fns κ := by
  unfold State.choreBoundary
  split
  · split <;> next h => simpa using pfqTail_snd κ h
  · rfl

@[simp] theorem State.tryChore_pfqTail (s : State) (e : Chore × Bool) (κ : Nat) : pfqTail (s.tryChore e).task.fns κ = pfqTail s.task.fns κ := by
  unfold State.tryChore
  dsimp only
  split
  · next h => simpa using pfqTail_snd κ h
  · next h =>
    have hs : _ = pfqTail s.task.fns κ := (pfqTail_snd κ h).trans (by simp)
    split
    · split <;> simpa using hs
    · split <;> next h' =>
        have ht := pfqTail_snd κ h'
        rw [State.choreAt_fns, hs] at ht
        simpa using ht

@[simp] theorem State.chore_pfqTail (s : State) (c : Chore) (κ : Nat) : pfqTail (s.chore c).task.fns κ = pfqTail s.task.fns κ := by
  simp [State.chore]

@[simp] theorem State.breakOp_fns (s : State) (i : Nat) (o : CollOp) : (s.breakOp i o).task.fns = s.task.fns := by
  simp [State.breakOp]

@[simp] theorem State.breakCrewObjects_fns (s : State) (c : Crew) : (s.breakCrewObjects c).task.fns = s.task.fns := by
  simp [State.breakCrewObjects]

@[simp] theorem State.breakClaims_pfqTail (s : State) (c : Crew) (κ : Nat) : pfqTail (s.breakClaims c).task.fns κ = pfqTail s.task.fns κ := by
  simp [State.breakClaims]

@[simp] theorem State.settleStores_pfqTail (s : State) (c : Crew) (κ : Nat) : pfqTail (s.settleStores c).task.fns κ = pfqTail s.task.fns κ := by
  unfold State.settleStores
  (repeat' split) <;> simp

@[simp] theorem State.unsend_fns (s : State) (u : Nat) : (s.unsend u).task.fns = s.task.fns := rfl

@[simp] theorem State.dropThread_fns (s : State) (u : Nat) : (s.dropThread u).task.fns = s.task.fns := rfl

@[simp] theorem State.sweepHeld_fns (s : State) : s.sweepHeld.task.fns = s.task.fns := rfl

@[simp] theorem State.freeCrew_fns (s : State) (c : Crew) : (s.freeCrew c).task.fns = s.task.fns := by
  simp [State.freeCrew]

@[simp] theorem State.settleBox_fns (s : State) (cluster : Nat) : (s.settleBox cluster).task.fns = s.task.fns := by
  simp [State.settleBox]

@[simp] theorem State.killCrew_pfqTail (s : State) (c : Crew) (κ : Nat) : pfqTail (s.killCrew c).task.fns κ = pfqTail s.task.fns κ := by
  unfold State.killCrew
  dsimp only
  rw [State.settleBox_fns, State.freeCrew_fns, foldl_pfqTail (by simp), State.settleStores_pfqTail, foldl_pfqTail (by simp)]
  simp

@[simp] theorem State.failCrew_pfqTail (s : State) (cu cause κ : Nat) : pfqTail (s.failCrew cu cause).task.fns κ = pfqTail s.task.fns κ := by
  unfold State.failCrew
  dsimp only
  (repeat' split) <;> simp

/-! Faults of threads. -/

@[simp] theorem State.unpop_fns (s : State) (u : Nat) : (s.unpop u).task.fns = s.task.fns := rfl

@[simp] theorem State.postAt_fns (s : State) (u : Nat) (p : Pos) : (s.postAt u p).task.fns = s.task.fns := by
  simp [State.postAt]

@[simp] theorem State.leave_fns (s : State) (u : Nat) : (s.leave u).task.fns = s.task.fns := rfl

@[simp] theorem State.disarm_fns (s : State) (u : Nat) : (s.disarm u).task.fns = s.task.fns := rfl

@[simp] theorem State.abandon_fns (s : State) (u : Nat) (gone : List Nat) : (s.abandon u gone).task.fns = s.task.fns := rfl

@[simp] theorem State.abandonMx_fns (s : State) (u rgn : Nat) : (s.abandonMx u rgn).task.fns = s.task.fns := by
  simp [State.abandonMx]

@[simp] theorem State.unwindTo_fns (s : State) (u rgn c va : Nat) : (s.unwindTo u rgn c va).task.fns = s.task.fns := by
  unfold State.unwindTo
  dsimp only
  (repeat' split) <;> simp

@[simp] theorem State.unwind_fns (s : State) (u c va : Nat) : (s.unwind u c va).task.fns = s.task.fns := by
  simp [State.unwind]

@[simp] theorem State.faultRecord_pfqTail (s : State) (fn va asid : Nat) (ltid : Word) (cwa cause flags : Nat) (who : FaultWho) (κ : Nat) :
    pfqTail (s.faultRecord fn va asid ltid cwa cause flags who).task.fns κ = pfqTail s.task.fns κ := by
  simp [State.faultRecord]

@[simp] theorem State.transFault_pfqTail (s : State) (u kind va cause : Nat) (s2 : Bool) (κ : Nat) :
    pfqTail (s.transFault u kind va cause s2).task.fns κ = pfqTail s.task.fns κ := by
  simp [State.transFault]

/-! Faults of engines. -/

@[simp] theorem State.setChan_fns (s : State) (id : Nat) (c : Channel) : (s.setChan id c).task.fns = s.task.fns := rfl

@[simp] theorem State.chanStop_fns (s : State) (id code : Nat) : (s.chanStop id code).task.fns = s.task.fns := by
  unfold State.chanStop
  split <;> simp

@[simp] theorem State.modMx_fns (s : State) (cl : Nat) (f : Mx → Mx) : (s.modMx cl f).task.fns = s.task.fns := rfl

@[simp] theorem State.fireEntry_pfqTail (s : State) (o : CollOp) (e : StepEnt) (κ : Nat) :
    pfqTail (s.fireEntry o e).task.fns κ = pfqTail s.task.fns κ := by
  unfold State.fireEntry
  split <;> simp

@[simp] theorem State.fireEntries_pfqTail (s : State) (id : Nat) (p : StepEnt → Bool) (κ : Nat) :
    pfqTail (s.fireEntries id p).task.fns κ = pfqTail s.task.fns κ := by
  unfold State.fireEntries
  split <;> simp

@[simp] theorem State.publishCl_fns (s : State) (o : CollOp) (rel : Nat) : (s.publishCl o rel).task.fns = s.task.fns := rfl

@[simp] theorem State.collOver_pfqTail (s : State) (id rel κ : Nat) : pfqTail (s.collOver id rel).task.fns κ = pfqTail s.task.fns κ := by
  unfold State.collOver
  dsimp only
  (repeat' split) <;> simp

@[simp] theorem State.collFinish_pfqTail (s : State) (id κ : Nat) : pfqTail (s.collFinish id).task.fns κ = pfqTail s.task.fns κ := by
  unfold State.collFinish
  split <;> simp

@[simp] theorem State.failRec_pfqTail (s : State) (r : FaultRec) (κ : Nat) : pfqTail (s.failRec r).task.fns κ = pfqTail s.task.fns κ := by
  unfold State.failRec
  dsimp only
  (repeat' split) <;> simp

@[simp] theorem State.engineSeq_fns (s : State) (who : FaultWho) (q : Nat) : (s.engineSeq who q).task.fns = s.task.fns := by
  unfold State.engineSeq
  split <;> simp

@[simp] theorem State.engineRoom_pfqTail (s : State) (fn κ : Nat) : pfqTail (s.engineRoom fn).task.fns κ = pfqTail s.task.fns κ := by
  simp [State.engineRoom]

/-- What `State.faultRoom` does for one parked thread, with a name: the kernel compares the loop's body by name. -/
def State.unparkFault (fn : Nat) (s : State) (e : Nat × Park) : State :=
  if (s.fnAt fn).mem.full && (s.fnAt fn).mem.pfq.en then s
  else if (s.thread? e.1).isNone then s
  else s.transFault e.1 (e.2.kind % 8) e.2.va e.2.cause (decide (8 ≤ e.2.kind))

theorem State.unparkFault_pfqTail (fn κ : Nat) (s : State) (e : Nat × Park) : pfqTail (s.unparkFault fn e).task.fns κ = pfqTail s.task.fns κ := by
  unfold State.unparkFault
  split
  · rfl
  · split
    · rfl
    · rw [State.transFault_pfqTail]

theorem State.faultRoom_eq (s : State) (fn : Nat) :
    s.faultRoom fn = ((s.parkedFull fn).foldl (State.unparkFault fn) s).engineRoom fn := by
  unfold State.faultRoom
  rfl

@[simp] theorem State.faultRoom_pfqTail (s : State) (fn κ : Nat) : pfqTail (s.faultRoom fn).task.fns κ = pfqTail s.task.fns κ := by
  rw [State.faultRoom_eq, State.engineRoom_pfqTail, foldl_pfqTail (State.unparkFault_pfqTail fn κ)]

end Sys2Proof.Machine
end

section
-- One thread elaborates: check.sh limits memory, and counts a stack for each thread that waits.
set_option Elab.async false

namespace Sys2Proof.Machine

/-! O54: the tail registers of R452. -/

/-! What a write of SMQTAIL does besides: the held records that now fit are written, which moves no tail. -/

theorem State.fire_plat (s : State) (pline : Nat) : (s.fire pline).plat = s.plat := rfl

theorem State.physStore_plat (s : State) (w : Wr) (pa : Nat) (bs : List Byte) : (s.physStore w pa bs).plat = s.plat := by
  unfold State.physStore
  extract_lets lines t
  have h (l : List Nat) (t : State) : (l.foldl State.fire t).plat = t.plat := by
    induction l generalizing t with
    | nil => rfl
    | cons p l ih => rw [List.foldl_cons, ih, State.fire_plat]
  split
  · rfl
  · rw [h]; rfl

theorem State.physPut_plat (s : State) (w : Wr) (pa : Nat) (bs : List Byte) : (s.physPut w pa bs).plat = s.plat := by
  unfold State.physPut
  split <;> exact State.physStore_plat ..

theorem State.physWrite_host (s : State) (w : Wr) (pa : Nat) (bs : List Byte) : (s.physWrite w pa bs).plat.host = s.plat.host := by
  unfold State.physWrite
  split
  · rfl
  · exact congrArg Plat.host (State.physPut_plat s w pa bs)

theorem State.smqIrq_plat (s : State) : s.smqIrq.plat = s.plat := by
  unfold State.smqIrq
  split <;> rfl

theorem State.smqPut_tail (s : State) (r : SmqRec) : (s.smqPut r).plat.host.smqTail = s.plat.host.smqTail := by
  unfold State.smqPut
  dsimp only
  split
  · rw [State.smqIrq_plat, State.onHost_host, State.physWrite_host]
  · split
    · rfl
    · split <;> rfl

theorem State.smqFlush_tail (s : State) : s.smqFlush.plat.host.smqTail = s.plat.host.smqTail := by
  have h (l : List SmqRec) (t : State) : (l.foldl State.smqPut t).plat.host.smqTail = t.plat.host.smqTail := by
    induction l generalizing t with
    | nil => rfl
    | cons r l ih => rw [List.foldl_cons, ih, State.smqPut_tail]
  exact h _ _

/-! Every tail register is set in one way. -/

/-- A value is a tail between the old tail and the head when the head is known but for a multiple of the ring's range. -/
theorem tailOk_iff {w head t0 t : Nat} (h0 : t0 < 2 ^ w) :
    tailOk w head t0 t = true ↔ (t + 2 ^ w - t0) % 2 ^ w ≤ (head % 2 ^ w + 2 ^ w - t0) % 2 ^ w := by
  have e : (head + 2 ^ w - t0) % 2 ^ w = (head % 2 ^ w + 2 ^ w - t0) % 2 ^ w := by
    rw [Nat.add_sub_assoc (Nat.le_of_lt h0), Nat.add_sub_assoc (Nat.le_of_lt h0), Nat.mod_add_mod]
  rw [tailOk, decide_eq_true_iff, e]

/-- Setting the register n, whose head register comes before it, checks the value against that head and stores it. -/
def State.SetsTail (s : State) (a : RegAg) (n bits v : Nat) : Prop :=
  ∃ head r, s.regSet a n v = (if tailOk bits head (s.regValue a n) v then .ok 0 r else .trap 0x19) ∧
    head % 2 ^ bits = s.regValue a (n - 1) % 2 ^ bits ∧ r.regValue a n = v

section
variable (s : State) (a : RegAg) (v : Nat)

/-- A head register that shows an overflow flag above the head. -/
theorem head_mod (b : Bool) (head : Nat) : head % 2 ^ 32 = (b.toNat * 2 ^ 32 + head) % 2 ^ 32 := by
  rw [Nat.mul_add_mod_self_right]

theorem State.regSet_health {n : Nat} (hn : 0x300 ≤ n ∧ n < 0x400) : s.regSet a n v = s.writeHealth a n v := by
  unfold State.regSet
  rw [if_neg (by omega), if_pos (by omega)]

theorem State.regValue_health {n : Nat} (hn : 0x300 ≤ n ∧ n < 0x400) : s.regValue a n = s.readHealth a n := by
  unfold State.regValue
  rw [if_neg (by omega), if_pos (by omega)]

theorem State.regValue_pkg {n : Nat} (hn : 0xA00 ≤ n ∧ n < 0xA50) : s.regValue a n = s.readPkg a n := by
  unfold State.regValue
  rw [if_neg (by omega), if_neg (by omega), if_neg (by omega), if_neg (by omega), if_neg (by omega), if_pos (by omega)]

theorem State.regValue_trace {n : Nat} (hn : 0xA80 ≤ n) : s.regValue a n = s.readDbg a n := by
  unfold State.regValue
  rw [if_neg (by omega), if_neg (by omega), if_neg (by omega), if_neg (by omega), if_neg (by omega), if_neg (by omega)]

theorem State.writeHealth_rltail : s.writeHealth a 0x312 v =
    if tailOk 32 (s.fnAt a.rl).rlHead (s.fnAt a.rl).rlTail v then s.fnDone a.rl fun f => { f with rlTail := v } else .trap 0x19 := by
  unfold State.writeHealth
  simp only

theorem State.writePkg_smqtail : s.writePkg a 0xA13 v =
    if tailOk 32 s.plat.host.smqHead s.plat.host.smqTail v then .done (s.onHost fun h => { h with smqTail := v }).smqFlush
    else .trap 0x19 := by
  have e : s.writePkg a 0xA13 v = s.writeHost a 0xA13 v := by
    unfold State.writePkg
    simp only
  rw [e]
  unfold State.writeHost
  simp only

theorem State.writePkg_jnltail : s.writePkg a 0xA27 v =
    if tailOk 64 (s.fnAt a.fq).jnl.head (s.fnAt a.fq).jnl.tail v then
      s.fnDone a.fq fun f => { f with jnl := { f.jnl with tail := v } }
    else .trap 0x19 := by
  unfold State.writePkg
  simp only

theorem State.writePkg_pfqtail : s.writePkg a 0xA44 v =
    if tailOk 32 (s.fnAt a.fq).mem.pfqHead (s.fnAt a.fq).mem.pfqTail v then
      .done ((s.modFn a.fq fun f => { f with mem := { f.mem with pfqTail := v } }).faultRoom a.fq)
    else .trap 0x19 := by
  unfold State.writePkg
  simp only

theorem State.writeTrace_tracetail (fn : Nat) : s.writeTrace fn 0xA82 v =
    if tailOk 32 (s.fnAt fn).trace.head (s.fnAt fn).trace.tail v then
      s.fnDone fn fun f => { f with trace := { f.trace with tail := v } }
    else .trap 0x19 := by
  unfold State.writeTrace
  simp only [Nat.reduceLT, if_false]

theorem State.readHealth_rl : s.readHealth a 0x311 = (s.fnAt a.rl).rlOvf.toNat * 2 ^ 32 + (s.fnAt a.rl).rlHead ∧
    s.readHealth a 0x312 = (s.fnAt a.rl).rlTail := by
  unfold State.readHealth
  constructor <;> simp only

theorem State.readPkg_smq : s.readPkg a 0xA12 = s.plat.host.smqOvf.toNat * 2 ^ 32 + s.plat.host.smqHead ∧
    s.readPkg a 0xA13 = s.plat.host.smqTail := by
  unfold State.readPkg
  constructor <;> simp only

theorem State.readPkg_jnl : s.readPkg a 0xA26 = (s.fnAt a.fq).jnl.head ∧ s.readPkg a 0xA27 = (s.fnAt a.fq).jnl.tail := by
  unfold State.readPkg
  constructor <;> simp only

theorem State.readPkg_pfq : s.readPkg a 0xA43 = (s.fnAt a.fq).mem.pfqHead ∧ s.readPkg a 0xA44 = (s.fnAt a.fq).mem.pfqTail := by
  unfold State.readPkg
  constructor <;> simp only

theorem State.readDbg_trace : s.readDbg a 0xA81 = (s.fnAt a.fq).trace.ovf.toNat * 2 ^ 32 + (s.fnAt a.fq).trace.head ∧
    s.readDbg a 0xA82 = (s.fnAt a.fq).trace.tail := by
  unfold State.readDbg
  constructor <;> simp [Nat.reduceLT]

theorem State.setsTail_rltail : s.SetsTail a 0x312 32 v := by
  refine ⟨(s.fnAt a.rl).rlHead, s.modFn a.rl fun f => { f with rlTail := v }, ?_, ?_, ?_⟩
  · rw [State.regSet_health _ _ _ (by omega), State.regValue_health _ _ (by omega), State.writeHealth_rltail, (s.readHealth_rl a).2]
    rfl
  · rw [State.regValue_health _ _ (by omega), (s.readHealth_rl a).1]
    exact head_mod _ _
  · rw [State.regValue_health _ _ (by omega), (State.readHealth_rl _ a).2, State.fnAt_modFn, if_pos rfl]

theorem State.setsTail_smqtail : s.SetsTail a 0xA13 32 v := by
  refine ⟨s.plat.host.smqHead, (s.onHost fun h => { h with smqTail := v }).smqFlush, ?_, ?_, ?_⟩
  · rw [State.regSet_pkg (by omega), State.regValue_pkg _ _ (by omega), State.writePkg_smqtail, (s.readPkg_smq a).2]
    rfl
  · rw [State.regValue_pkg _ _ (by omega), (s.readPkg_smq a).1]
    exact head_mod _ _
  · rw [State.regValue_pkg _ _ (by omega), (State.readPkg_smq _ a).2, State.smqFlush_tail, State.onHost_host]

theorem State.setsTail_jnltail : s.SetsTail a 0xA27 64 v := by
  refine ⟨(s.fnAt a.fq).jnl.head, s.modFn a.fq fun f => { f with jnl := { f.jnl with tail := v } }, ?_, ?_, ?_⟩
  · rw [State.regSet_pkg (by omega), State.regValue_pkg _ _ (by omega), State.writePkg_jnltail, (s.readPkg_jnl a).2]
    rfl
  · rw [State.regValue_pkg _ _ (by omega), (s.readPkg_jnl a).1]
  · rw [State.regValue_pkg _ _ (by omega), (State.readPkg_jnl _ a).2, State.fnAt_modFn, if_pos rfl]

theorem State.setsTail_pfqtail : s.SetsTail a 0xA44 32 v := by
  refine ⟨(s.fnAt a.fq).mem.pfqHead, (s.modFn a.fq fun f => { f with mem := { f.mem with pfqTail := v } }).faultRoom a.fq, ?_, ?_, ?_⟩
  · rw [State.regSet_pkg (by omega), State.regValue_pkg _ _ (by omega), State.writePkg_pfqtail, (s.readPkg_pfq a).2]
    rfl
  · rw [State.regValue_pkg _ _ (by omega), (s.readPkg_pfq a).1]
  · rw [State.regValue_pkg _ _ (by omega), (State.readPkg_pfq _ a).2]
    refine (State.faultRoom_pfqTail _ _ _).trans ?_
    change (State.fnAt _ _).mem.pfqTail = v
    rw [State.fnAt_modFn, if_pos rfl]

theorem State.setsTail_tracetail : s.SetsTail a 0xA82 32 v := by
  refine ⟨(s.fnAt a.fq).trace.head, s.modFn a.fq fun f => { f with trace := { f.trace with tail := v } }, ?_, ?_, ?_⟩
  · rw [State.regSet_trace (by omega), State.regValue_trace _ _ (by omega), State.writeTrace_tracetail, (s.readDbg_trace a).2]
    rfl
  · rw [State.regValue_trace _ _ (by omega), (s.readDbg_trace a).1]
    exact head_mod _ _
  · rw [State.regValue_trace _ _ (by omega), (State.readDbg_trace _ a).2, State.fnAt_modFn, if_pos rfl]

end

/-- The tail registers, each with the bits of its tail. -/
def tailRegs : List (Nat × Nat) := [(0x312, 32), (0xA13, 32), (0xA27, 64), (0xA44, 32), (0xA82, 32)]

theorem State.setsTail (s : State) (a : RegAg) (v : Nat) : ∀ e ∈ tailRegs, s.SetsTail a e.1 e.2 v := by
  simp only [tailRegs, List.forall_mem_cons, List.not_mem_nil, false_implies, forall_const, and_true]
  exact ⟨s.setsTail_rltail a v, s.setsTail_smqtail a v, s.setsTail_jnltail a v, s.setsTail_pfqtail a v, s.setsTail_tracetail a v⟩

/-- The register table's row of a tail register: writable at level H, with the bits above the tail reserved. -/
theorem regInfo_tail : ∀ e ∈ tailRegs, (((regInfo e.1).map fun i => decide (i.wr.num ≤ Level.h.num) && !i.allRo &&
      decide (2 ^ 64 - 1 - i.named = maskOf [(e.2, 64 - e.2)])) = some true) ∧ 0x202 < e.1 ∧ e.1 < 0x1000 ∧ e.1 ≠ 0xA5E := by
  decide

/-- A tail within its bits passes the checks of R442 at level H. -/
theorem State.regWrite_tail {s : State} {a : RegAg} {n bits v : Nat} (hn : (n, bits) ∈ tailRegs) (hl : a.lvl = .h) (hv : v < 2 ^ bits) :
    s.regWrite a n (BitVec.ofNat 64 v) = s.regSet a n v := by
  obtain ⟨hi, hn1, -, hn2⟩ := regInfo_tail _ hn
  have hb : bits = 32 ∨ bits = 64 := by
    simp only [tailRegs, List.mem_cons, Prod.mk.injEq, List.not_mem_nil, or_false] at hn
    omega
  obtain ⟨i, hk, e⟩ := Option.map_eq_some_iff.1 hi
  simp only [Bool.and_eq_true, decide_eq_true_eq, Bool.not_eq_true'] at e
  obtain ⟨⟨hw, ho⟩, hm⟩ := e
  rw [← State.regKnown_eq (s := s) (a := a) (.inr ⟨fun _ => by omega, .inr hn1⟩)] at hk
  have h64 : v < 2 ^ 64 := by obtain rfl | rfl := hb <;> omega
  refine State.regWrite_set h64 hk (RegInfo.check_passes _ (by rw [hl]; exact hw) ho (.inr hl) hm ?_) hn2
  simp only [ZeroAt, and_true]
  rw [Nat.div_eq_of_lt hv, Nat.zero_mod]

/-- Settles O54: a write of a tail register is its check against the head and the store of the value (`SetsTail`), and a refused write
traps before anything has changed. -/
theorem tailRegistersMoveForwardOnly : Obligations.TailRegistersMoveForwardOnly := by
  unfold Obligations.TailRegistersMoveForwardOnly
  intro s g gd u a n bits w h hn hr t c ag v size old head i hl hold hv
  obtain ⟨hd, r, hset, hhead, hval⟩ := State.setsTail c ag v _ hn
  have hn16 : (BitVec.ofNat 16 n).toNat = n := by
    obtain ⟨-, -, hlt, -⟩ := regInfo_tail _ hn
    rw [BitVec.toNat_ofNat, Nat.mod_eq_of_lt (by omega)]
  have hn8 : BitVec.ofNat 16 n ≠ 8 := by
    obtain ⟨-, hgt, -⟩ := regInfo_tail _ hn
    exact fun e => absurd (hn16 ▸ congrArg BitVec.toNat e : n = 8) (by omega)
  have hag : ag.lvl = .h := by rw [← hl]; exact congrArg Thread.lvl ((s.charged_charge [u]).thread u)
  have hok : tailOk bits hd old v = true ↔ (v + size - old) % size ≤ (head + size - old) % size := by
    rw [tailOk_iff hold, hhead]
  rw [← State.regWrite_tail hn hag hv] at hset
  refine ⟨fun hle => ?_, fun hgt ho => ?_⟩
  · rw [if_pos (hok.2 hle)] at hset
    exact ⟨r, hset, hval, fun k => hr.swr_becomes (fun e => absurd e hn8) (hn16.symm ▸ hset) k⟩
  · rw [if_neg fun e => Nat.not_le.2 hgt (hok.1 e)] at hset
    exact hr.swr_traps hn8 (hn16.symm ▸ hset) ho

end Sys2Proof.Machine
end

section
-- One thread elaborates: check.sh limits memory, and counts a stack for each thread that waits.
set_option Elab.async false

namespace Sys2Proof.Machine

/-! O60: what a step executes. -/

/-! The choice among the candidates, and what it executes. -/

/-- A free choice only counts: it draws the next number where there is something to choose. -/
theorem choose_fresh (n : Nat) (s : State) : ∃ k, (choose n s).2 = s.onExt fun e => { e with fresh := k } := by
  unfold choose
  split
  · exact ⟨s.ext.fresh, rfl⟩
  · exact ⟨s.ext.fresh + 1, rfl⟩

/-- A choice from a list takes one of its elements, and changes nothing but the count of choices. -/
theorem exists_chooseFrom_eq {α : Type} (c : α) (cs : List α) (s : State) : ∃ x ∈ c :: cs, ∃ k,
    chooseFrom (c :: cs) c s = (x, s.onExt fun e => { e with fresh := k }) := by
  obtain ⟨k, hk⟩ := choose_fresh (c :: cs).length s
  refine ⟨(c :: cs).getD (choose (c :: cs).length s).1 c, ?_, k, ?_⟩
  · rw [List.getD_eq_getElem?_getD]
    cases h : (c :: cs)[(choose (c :: cs).length s).1]? with
    | none => exact List.mem_cons_self
    | some x => exact List.mem_of_getElem? h
  · rw [← hk]
    rfl

theorem step_exec {s r : State} {i : Instr} (hd : s.dead = false) (h : s.nextInstr = (some i, r)) : step s = exec i r := by
  simp only [step, hd, h, Bool.false_eq_true, if_false]

theorem step_idle {s r : State} (hd : s.dead = false) (h : s.nextInstr = (none, r)) : step s = .next r := by
  simp only [step, hd, h, Bool.false_eq_true, if_false]

theorem State.nextInstr_event {s : State} {i : Instr} {l : List (Option Instr)} (h : s.begin_.ext.agenda = some i :: l) :
    s.nextInstr = (some i, s.begin_.onExt fun e => { e with agenda := l }) := by
  simp only [State.nextInstr, h]

theorem State.nextInstr_own {s : State} (h : s.begin_.ext.agenda = []) : s.nextInstr = s.begin_.ownInstr := by
  simp only [State.nextInstr, h]

theorem State.ownInstr_none {s : State} (h : s.candidates = []) : s.ownInstr = (none, s) := by
  simp only [State.ownInstr, h]

/-- One of the candidates comes next, in a state that differs in the count of choices. -/
theorem State.ownInstr_some {s : State} (h : s.candidates ≠ []) : ∃ x ∈ s.candidates, ∃ n,
    s.ownInstr = match x with
      | .ev i => (some i, s.onExt fun e => { e with fresh := n })
      | .group g => (s.onExt fun e => { e with fresh := n }).groupInstr g := by
  cases hc : s.candidates with
  | nil => exact absurd hc h
  | cons c cs =>
    obtain ⟨x, hx, n, e⟩ := exists_chooseFrom_eq c cs s
    refine ⟨x, hx, n, ?_⟩
    rw [State.ownInstr, hc]
    simp only [e]
    cases x <;> rfl

/-- A group that still stands, at a word of its clause, executes the instruction of that word. -/
theorem State.groupInstr_word {s : State} {g h : Group} {w : Word} (hs : (s.beforeGroup g).still g = some h) (hw : h.word = some w) :
    s.groupInstr g = (some (instrOf w), (s.beforeGroup g).issueAs h w) := by
  simp only [State.groupInstr, hs, hw]

theorem instrOf_ok {w : Word} {i : Instr} (h : decode w = .ok i) : instrOf w = i := by
  simp only [instrOf, h]

theorem instrOf_error {w : Word} {e : DecodeError} (h : decode w = .error e) : instrOf w = .unassignedEncoding w := by
  simp only [instrOf, h]

/-! A placed word (log 1). -/

/-- The clause, the thread and the group of a placed word. -/
def placedClause (w : Word) : List Word := [oneHeader (coreFor w.toNat), w]
def placedGroup (w : Word) : Group := ⟨coreFor w.toNat, .h, ⟨0x1000, 0⟩, placedClause w, [1], none⟩

/-- The cores run the word w alone, and the rest of the machine has nothing to do: what `place1` leaves, as far as time, the shares of the
dispatch and the reach of process parks do not change it. -/
structure State.Placed (w : Word) (s : State) : Prop where
  agenda   : s.ext.agenda = []
  cur      : s.ext.cur = none
  passed   : s.ext.passed = []
  doms     : s.mem.doms = []
  threads  : s.core.threads = [placedThread (coreFor w.toNat) (placedClause w)]
  groups   : s.core.groups = [placedGroup w]
  crews    : s.core.crews = [placedCrew (coreFor w.toNat)]
  clusters : s.core.clusters = []
  reqs     : s.core.reqs = []
  acpys    : s.core.acpys = []
  steady   : ∀ e ∈ s.core.cores, e.2.shSt = 0
  channels : s.task.channels = []
  patterns : s.task.patterns = []
  ports    : s.task.ports = []
  chores   : s.task.chores = []
  schEn    : s.task.schEn = false
  disp     : ∀ e ∈ s.task.disp, e.2.pend = []
  winq     : s.plat.winq = []
  power    : s.plat.power.st = .run ∧ s.plat.power.saves = 0
  health   : s.plat.health = Health.reset
  links    : s.plat.links.cur = none ∧ s.plat.links.held = []
  nor      : s.plat.nor = Norano.reset
  host     : s.plat.host = HostSys.reset
  drst     : (s.pkg.die 0).drst ≠ 8 ∧ (s.pkg.die 0).drst ≠ 15
  dbg      : (s.fnAt 0).dbg.en = false

theorem State.placed_place1 {s : State} (w : Word) (h8 : (s.pkg.die 0).drst ≠ 8) (h15 : (s.pkg.die 0).drst ≠ 15)
    (hd : (s.fnAt 0).dbg.en = false) : (s.place1 w).Placed w where
  agenda := rfl
  cur := rfl
  passed := rfl
  doms := rfl
  threads := rfl
  groups := rfl
  crews := rfl
  clusters := rfl
  reqs := rfl
  acpys := rfl
  steady := by simp [State.place1, Core.reset]
  channels := rfl
  patterns := rfl
  ports := rfl
  chores := rfl
  schEn := rfl
  disp := by simp [State.place1]
  winq := rfl
  power := ⟨rfl, rfl⟩
  health := rfl
  links := ⟨rfl, rfl⟩
  nor := rfl
  host := rfl
  drst := ⟨h8, h15⟩
  dbg := hd

section
variable {s : State} {w : Word}

/-- What holds of a map's values holds after one of them, or the default, has changed so that it still holds. -/
theorem Map.forall_modD {α : Type} {p : α → Prop} {d : α} {f : α → α} (hd : p d) (hf : ∀ x, p x → p (f x)) {m : Map α}
    (hm : ∀ e ∈ m, p e.2) (k : Nat) : ∀ e ∈ m.modD d k f, p e.2 := by
  have hg : p (m.getD d k) := by
    unfold Map.getD
    induction m with
    | nil => exact hd
    | cons e m ih =>
      obtain ⟨j, x⟩ := e
      by_cases hj : j = k
      · simpa [Map.find, hj] using hm _ List.mem_cons_self
      · simpa [Map.find, hj] using ih fun e he => hm e (List.mem_cons_of_mem _ he)
  intro e he
  obtain rfl | he := Map.mem_put he
  · exact hf _ hg
  · exact hm e he

theorem State.Placed.choose (h : s.Placed w) (n : Nat) : (choose n s).2.Placed w := by
  obtain ⟨k, hk⟩ := choose_fresh n s
  rw [hk]
  exact { h with }

theorem State.Placed.tick (h : s.Placed w) : s.tick.Placed w := by
  have e : (s.tick.pkg.die 0).drst = (s.pkg.die 0).drst := by
    simp only [State.tick, State.onPkg, State.onExt, Pkg.die]
    cases s.pkg.dies <;> rfl
  exact { h with drst := e ▸ h.drst }

theorem State.Placed.modCoreAt (h : s.Placed w) (k : Nat) {f : Core → Core} (hf : ∀ c, (f c).shSt = c.shSt) : (s.modCoreAt k f).Placed w :=
  { h with steady := Map.forall_modD (p := fun c : Core => c.shSt = 0) rfl (fun c hc => (hf c).trans hc) h.steady k }

theorem State.Placed.modDisp (h : s.Placed w) (d : Nat) {f : Dispatch → Dispatch} (hf : ∀ x, (f x).pend = x.pend) : (s.modDisp d f).Placed w :=
  { h with disp := Map.forall_modD (p := fun x : Dispatch => x.pend = []) rfl (fun x hx => (hf x).trans hx) h.disp d }

theorem State.Placed.modFn (h : s.Placed w) (k : Nat) {f : Fn → Fn} (hf : ∀ x, (f x).dbg = x.dbg) : (s.modFn k f).Placed w :=
  { h with
    dbg := by
      rw [State.fnAt_modFn]
      split
      · next e => subst e; rw [hf]; exact h.dbg
      · exact h.dbg }

theorem Core.addSlots_shSt (c : Core) (k n : Nat) : (c.addSlots k n).shSt = c.shSt := rfl

theorem State.Placed.chargeCore (h : s.Placed w) (n core : Nat) : (s.chargeCore n core).Placed w := by
  unfold State.chargeCore
  extract_lets ts last sw
  refine List.foldlRecOn _ _ ?_ fun t ht p _ => ?_
  · split
    · exact h
    · exact h.modCoreAt _ fun _ => rfl
  · exact ht.modCoreAt _ fun c => by simp only [apply_ite Core.shSt, Core.addSlots_shSt, ite_self]

theorem State.Placed.chargeSlots (h : s.Placed w) (b : State) : (b.chargeSlots s).Placed w := by
  unfold State.chargeSlots
  exact List.foldlRecOn _ _ h fun t ht c _ => ht.chargeCore _ c

theorem State.Placed.settleChores (h : s.Placed w) : s.settleChores.Placed w := by
  rw [State.settleChores, h.chores]
  exact { h with chores := rfl }

theorem State.Placed.portClusters (h : s.Placed w) : s.portClusters = [] := by
  simp [State.portClusters, h.patterns, h.ports, h.clusters]

theorem State.Placed.settleUnits (h : s.Placed w) : s.settleUnits.Placed w := by
  rw [State.settleUnits, h.portClusters]
  exact h

theorem State.Placed.settleWindow (h : s.Placed w) : s.settleWindow.Placed w := by
  rw [State.settleWindow, h.winq]
  exact { h with winq := rfl }

theorem State.Placed.trainDown (h : s.Placed w) : s.trainDown.Placed w := by
  unfold State.trainDown
  refine List.foldlRecOn _ _ h fun t ht k _ => ?_
  have hc : (chooseBool t).2.Placed w := ht.choose 2
  dsimp only
  split
  · exact { hc with }
  · exact hc

theorem State.Placed.noteStalls (h : s.Placed w) : s.noteStalls.Placed w := by
  rw [State.noteStalls, h.reqs]
  exact h

theorem State.Placed.chooseSubset (h : s.Placed w) (l : List Nat) : (chooseSubset l s).2.Placed w := by
  induction l generalizing s with
  | nil => exact h
  | cons a l ih => exact ih (h.choose 2)

theorem State.Placed.spreadParks (h : s.Placed w) : s.spreadParks.Placed w := by
  unfold State.spreadParks
  refine List.foldlRecOn _ _ h fun t ht e _ => ?_
  refine State.Placed.modFn ?_ _ fun _ => rfl
  exact List.foldlRecOn (motive := fun p : List PPark × State => p.2.Placed w) _ _ ht fun p hp _ _ => hp.chooseSubset _

theorem State.Placed.rereads (h : s.Placed w) : s.rereads = [] := by
  simp [State.rereads, h.schEn]

theorem State.Placed.policyDue (h : s.Placed w) : s.policyDue.Placed w := by
  rw [State.policyDue, h.rereads]
  exact h

theorem foldl_pend {α : Type} {f : Dispatch → α → Dispatch} (hf : ∀ x a, (f x a).pend = x.pend) (l : List α) (x : Dispatch) :
    (l.foldl f x).pend = x.pend :=
  List.foldlRecOn (motive := fun y : Dispatch => y.pend = x.pend) l _ rfl fun y hy a _ => (hf y a).trans hy

theorem State.Placed.goRound (h : s.Placed w) (d : Nat) : (s.goRound d).Placed w := by
  unfold State.goRound
  extract_lets l t
  split
  · exact h
  · have ht : t.Placed w := by
      unfold t
      split
      · exact h
      · exact h.modDisp d fun _ => rfl
    split
    · exact ht
    · clear_value t
      dsimp only
      refine State.Placed.modDisp ((ht.choose _).choose _) d fun x => ?_
      dsimp only
      rw [foldl_pend, foldl_pend] <;> exact fun _ _ => rfl

/-- What is noted of the step that begins. -/
theorem State.Placed.onExt (h : s.Placed w) (n : Nat) {p : List Group} (hp : p = []) : (s.onExt fun e =>
    { e with cur := none, iword := 0, inst := n, pushes := [], entering := [], passed := p }).Placed w :=
  { h with cur := rfl, passed := hp }

/-- Time passes over a placed word, and what is retried without it finds nothing to do. -/
theorem State.Placed.begin_ (h : s.Placed w) : s.begin_.Placed w := by
  have hl {t : State} (ht : t.Placed w) : t.live = true := by simp [State.live, ht.power.1]
  have ht := h.tick.chargeSlots s
  have hr := List.foldlRecOn (motive := State.Placed w) (rangeFrom 0 4) State.goRound
    ht.settleChores.settleUnits.settleWindow.trainDown.noteStalls.spreadParks.policyDue fun t ht d _ => ht.goRound d
  rw [State.begin_]
  simp only [hl ht, if_true]
  exact hr.onExt _ (by simp [State.passed, ht.cur])

/-! What else the machine could do: nothing. -/

theorem State.Placed.coreEvents (h : s.Placed w) : s.coreEvents = [] := by
  simp [State.coreEvents, when_, State.coresReady, State.newCrews, State.mayIssue, State.mustFetch, State.mayRun, State.wakeable, State.timedOut,
    State.unwindsDue, State.issued, State.performable, State.answered, State.copiesReady, State.btSteps, State.shSteps, State.mxClusters,
    State.collSteps, State.flitsReady, State.collsReady, State.headsFor, State.verdictsDue, h.portClusters, h.threads, h.crews, h.reqs, h.acpys,
    h.channels, h.clusters, h.nor, Norano.reset, placedThread, placedCrew, Assay.reset, Thread.none_, Thread.regionEvents, rangeFrom]

theorem State.Placed.taskEvents (h : s.Placed w) : s.taskEvents = [] := by
  have hs : s.spillsReady = [] := by
    simp only [State.spillsReady, List.map_eq_nil_iff, List.filter_eq_nil_iff]
    intro e he
    simp [h.steady e he]
  have hf : s.fillsReady = [] := by
    simp only [State.fillsReady, List.map_eq_nil_iff, List.filter_eq_nil_iff]
    intro e he
    simp [h.steady e he]
  have hw : (s.task.disp.map fun e => (e.2.pend.map fun p => (e.1, p.1, p.2))).flatten = [] := by
    simp only [List.flatten_eq_nil_iff, List.forall_mem_map]
    intro e he
    simp [h.disp e he]
  simp [State.taskEvents, when_, h.rereads, hs, hf, State.swapsHeld, hw]

theorem State.Placed.linkEvents (h : s.Placed w) : s.linkEvents = [] := by
  simp [State.linkEvents, when_, State.quiesceReady, State.cleanReady, State.selfrefReady, State.drNow, State.lateReady, State.parksOver,
    State.pubsOver, h.links.1, h.links.2, h.doms]

theorem State.Placed.healthEvents (h : s.Placed w) : s.healthEvents = [] := by
  simp [State.healthEvents, when_, State.repairable, State.repairing, State.draining, h.health, Health.reset]

theorem State.Placed.outerEvents (h : s.Placed w) : s.outerEvents = [] := by
  simp [State.outerEvents, when_, State.beatDue, State.silent, State.agreeLate, State.formLate, State.rejoinReady, State.lateSnoops,
    State.hostReady, State.view, h.nor, h.host, Norano.reset, View.reset, View.member, HostSys.reset]

theorem State.Placed.powerEvents (h : s.Placed w) : s.powerEvents = [] := by
  simp [State.powerEvents, when_, State.drained, h.power.1, h.power.2]

theorem dieOf_coreFor (n : Nat) : dieOf (coreFor n) = 0 := by
  unfold coreFor
  split <;> rfl

/-- The group of the placed word is all that can go on. -/
theorem State.Placed.candidates (h : s.Placed w) : s.candidates = [.group (placedGroup w)] := by
  have hi : s.issuers = [placedGroup w] := by
    simp [State.issuers, h.groups, State.passedBy, h.passed, State.frozen, placedGroup, dieOf_coreFor, h.drst]
  simp [State.candidates, State.live, h.power.1, hi, h.coreEvents, h.taskEvents, h.linkEvents, h.healthEvents, h.outerEvents, h.powerEvents]

theorem State.Placed.thread? (h : s.Placed w) : s.thread? 1 = some (placedThread (coreFor w.toNat) (placedClause w)) := by
  simp [State.thread?, h.threads, placedThread]

/-- Nothing holds the group of the placed word back before its instruction. -/
theorem State.Placed.beforeGroup (h : s.Placed w) : s.beforeGroup (placedGroup w) = s := by
  have hb : s.beforeInstr true 1 = s := by
    simp [State.beforeInstr, h.thread?, State.breakpoints, placedThread, Thread.none_, Thread.regionEvents, h.dbg]
  have ha : s.stopAsked 1 = s := by
    simp [State.stopAsked, h.thread?, placedThread, Thread.none_]
  simp [State.beforeGroup, Group.due, placedGroup, hb, ha]

theorem State.Placed.nextInstr (h : s.begin_.Placed w) :
    s.nextInstr = (some (instrOf w), s.begin_.issueAs (placedGroup w) w) := by
  have hs : (s.begin_.beforeGroup (placedGroup w)).still (placedGroup w) = some (placedGroup w) := by
    rw [h.beforeGroup]
    simp [State.still, h.groups, placedGroup]
  rw [State.nextInstr_own h.agenda, State.ownInstr, h.candidates]
  change s.begin_.groupInstr (placedGroup w) = _
  rw [State.groupInstr_word hs rfl, h.beforeGroup]

end

/-- Settles O60: the branches of `nextInstr`; for a placed word, what `place1` leaves (`Placed`) is kept while time passes and has the
group of that word as its one candidate. -/
theorem aStepRunsTheDecodedInstruction : Obligations.AStepRunsTheDecodedInstruction := by
  unfold Obligations.AStepRunsTheDecodedInstruction
  intro s hd b
  refine ⟨fun i l h => step_exec hd (State.nextInstr_event h), fun h hc => ?_, fun h hc => ?_, fun w i hw h8 h15 he hi => ?_⟩
  · exact step_idle hd ((State.nextInstr_own h).trans (State.ownInstr_none hc))
  · obtain ⟨x, hx, n, e⟩ := State.ownInstr_some hc
    rw [← State.nextInstr_own h] at e
    refine ⟨x, hx, n, ?_⟩
    cases x with
    | ev i => exact step_exec hd e
    | group g =>
      intro q k w hk hw
      change s.nextInstr = State.groupInstr _ g at e
      rw [State.groupInstr_word hk hw] at e
      exact ⟨fun i hi => by rw [step_exec hd e, instrOf_ok hi], fun c hc => by rw [step_exec hd e, instrOf_error hc]⟩
  · have hp := (State.placed_place1 (BitVec.ofNat 64 w) h8 h15 he).begin_
    have hn := State.Placed.nextInstr hp
    rw [instrOf_ok hi] at hn
    refine ⟨_, by rw [State.withFetchWord, Nat.mod_eq_of_lt hw]; exact step_exec rfl hn, rfl, rfl, ?_⟩
    exact congrArg (fun t => (t.getD Thread.none_).pos) hp.thread?

end Sys2Proof.Machine
end

section
-- One thread elaborates: check.sh limits memory, and counts a stack for each thread that waits.
set_option Elab.async false

namespace Sys2Proof.Machine

/-! O46: the memory controllers, repair and retirement (spec/02 R43 to R58). -/

/-! Channels. -/

@[simp] theorem State.chanAt_modChan (s : State) (ch j : Nat) (f : Chan → Chan) :
    (s.modChan ch f).chanAt j = if ch = j then f (s.chanAt ch) else s.chanAt j := Map.getD_modD ..

@[simp] theorem State.chanAt_onMem (s : State) (f : MemSys → MemSys) (ch : Nat) : (s.onMem f).chanAt ch = s.chanAt ch := rfl

theorem State.chanAt_onHealth (s : State) {f : Health → Health} (hf : ∀ h, (f h).chans = h.chans) (ch : Nat) :
    (s.onHealth f).chanAt ch = s.chanAt ch := by
  simp only [State.chanAt, State.onHealth_health, hf]

@[simp] theorem State.modChan_mem (s : State) (ch : Nat) (f : Chan → Chan) : (s.modChan ch f).mem = s.mem := rfl

theorem Map.mem_put_self {α : Type} (m : Map α) (k : Nat) (v : α) : (k, v) ∈ m.put k v := by
  induction m with
  | nil => exact List.mem_cons_self
  | cons e m ih =>
    obtain ⟨j, w⟩ := e
    simp only [Map.put]
    split
    · exact List.mem_cons_self
    · split
      · exact List.mem_cons_self
      · exact List.mem_cons_of_mem _ ih

theorem mem_setIns_self (l : List Nat) (k : Nat) : k ∈ setIns l k := by
  induction l with
  | nil => exact List.mem_cons_self
  | cons j l ih =>
    simp only [setIns]
    split
    · exact List.mem_cons_self
    · split
      · rename_i h
        exact h ▸ List.mem_cons_self
      · exact List.mem_cons_of_mem _ ih

/-! Evidence and requests (R46) change neither memory nor the counts of reads. -/

/-- Memory and the read counts of every channel (MHCNT) are the same in two states. -/
structure State.SameReads (s r : State) : Prop where
  mem : r.mem = s.mem
  ce  : ∀ ch, (r.chanAt ch).ce = (s.chanAt ch).ce
  ue  : ∀ ch, (r.chanAt ch).ue = (s.chanAt ch).ue

section
variable {s r t : State}

theorem State.SameReads.refl (s : State) : s.SameReads s := ⟨rfl, fun _ => rfl, fun _ => rfl⟩

theorem State.SameReads.trans (h : s.SameReads r) (k : r.SameReads t) : s.SameReads t :=
  ⟨k.mem.trans h.mem, fun ch => (k.ce ch).trans (h.ce ch), fun ch => (k.ue ch).trans (h.ue ch)⟩

theorem State.SameReads.ite {c : Prop} [Decidable c] (h : s.SameReads r) (k : s.SameReads t) : s.SameReads (if c then r else t) := by
  split
  · exact h
  · exact k

theorem State.SameReads.onHealth {f : Health → Health} (h : s.SameReads r) (hf : ∀ x, (f x).chans = x.chans := by exact fun _ => rfl) :
    s.SameReads (r.onHealth f) := by
  have hc := r.chanAt_onHealth hf
  exact h.trans ⟨rfl, fun ch => by rw [hc], fun ch => by rw [hc]⟩

theorem State.SameReads.modChan {f : Chan → Chan} (h : s.SameReads r) (ch : Nat)
    (hf : ∀ c, (f c).ce = c.ce ∧ (f c).ue = c.ue := by exact fun _ => ⟨rfl, rfl⟩) :
    s.SameReads (r.modChan ch f) := by
  have hc (j : Nat) : ((r.modChan ch f).chanAt j).ce = (r.chanAt j).ce ∧ ((r.modChan ch f).chanAt j).ue = (r.chanAt j).ue := by
    rw [State.chanAt_modChan]
    split
    · subst_vars; exact hf _
    · exact ⟨rfl, rfl⟩
  exact h.trans ⟨rfl, fun j => (hc j).1, fun j => (hc j).2⟩

theorem State.SameReads.askRepair (h : s.SameReads r) (ch : Nat) (q : Repair) : s.SameReads (r.askRepair ch q) :=
  .ite h (h.modChan ch)

theorem State.SameReads.askRow (h : s.SameReads r) (ch : Nat) (p : Place) : s.SameReads (r.askRow ch p) := by
  unfold State.askRow
  exact .ite (.askRepair h.onHealth ch _) (.askRepair (.modChan (.askRepair h.onHealth ch _) ch) ch _)

theorem State.SameReads.badSymbol (h : s.SameReads r) (ch sid k : Nat) : s.SameReads (r.badSymbol ch sid k) := by
  unfold State.badSymbol
  exact .askRepair (.ite h (h.modChan ch)) ch _

theorem State.SameReads.corrected (h : s.SameReads r) (ch : Nat) (p : Place) (k : Nat) : s.SameReads (r.corrected ch p k) := by
  have bad {c : Prop} [Decidable c] {x : State} (hx : s.SameReads x) : s.SameReads (if c then x else x.badSymbol ch p.sid k) :=
    .ite hx (hx.badSymbol ch p.sid k)
  unfold State.corrected
  exact .ite (.askRow (bad h.onHealth) ch p) (bad h.onHealth)

theorem State.SameReads.foldl {α : Type} {f : State → α → State} (hf : ∀ r, s.SameReads r → ∀ a, s.SameReads (f r a)) (h : s.SameReads r)
    (l : List α) : s.SameReads (l.foldl f r) := by
  induction l generalizing r with
  | nil => exact h
  | cons a l ih => exact ih (hf r h a)

end

/-! The word received (R42): errors at distinct positions, none of them zero, are the positions where it differs from the codeword. -/

theorem modNth_eq_modify {α : Type} (f : α → α) (l : List α) (n : Nat) : modNth f l n = l.modify n f := by
  induction l generalizing n with
  | nil => cases n <;> rfl
  | cons x l ih =>
    cases n with
    | zero => rfl
    | succ n => rw [modNth, ih, List.modify_succ_cons]

theorem rangeFrom_eq_range' (n k : Nat) : rangeFrom n k = List.range' n k := by
  induction k generalizing n with
  | zero => rfl
  | succ k ih => rw [rangeFrom, ih, List.range'_succ]

theorem received_cons (w : List Nat) (e : Nat × Byte) (err : List (Nat × Byte)) :
    received w (e :: err) = received (w.modify e.1 (· ^^^ e.2.toNat)) err := by
  rw [← modNth_eq_modify]
  rfl

theorem length_received (w : List Nat) (err : List (Nat × Byte)) : (received w err).length = w.length := by
  induction err generalizing w with
  | nil => rfl
  | cons e err ih => rw [received_cons, ih, List.length_modify]

theorem received_of_not_mem (w : List Nat) {err : List (Nat × Byte)} {k : Nat} (hk : k ∉ err.map (·.1)) :
    (received w err)[k]? = w[k]? := by
  induction err generalizing w with
  | nil => rfl
  | cons e err ih =>
    rw [List.map_cons, List.mem_cons, not_or] at hk
    rw [received_cons, ih _ hk.2, List.getElem?_modify_ne _ _ (Ne.symm hk.1)]

theorem received_of_mem (w : List Nat) {err : List (Nat × Byte)} (hn : (err.map (·.1)).Nodup) {e : Nat × Byte} (he : e ∈ err) :
    (received w err)[e.1]? = w[e.1]?.map (· ^^^ e.2.toNat) := by
  induction err generalizing w with
  | nil => exact absurd he List.not_mem_nil
  | cons x err ih =>
    rw [List.map_cons, List.nodup_cons] at hn
    rcases List.mem_cons.1 he with rfl | he
    · rw [received_cons, received_of_not_mem _ hn.1, List.getElem?_modify_eq]
      rfl
    · have hne : x.1 ≠ e.1 := fun h => hn.1 (List.mem_map.2 ⟨e, he, h.symm⟩)
      rw [received_cons, ih _ hn.2 he, List.getElem?_modify_ne _ _ hne]

section
variable {a b : List Nat}

theorem differ_eq_zipIdx (hl : a.length = b.length) :
    differ a b = (a.zip b).zipIdx.filterMap fun e => if e.1.1 = e.1.2 then none else some e.2 := by
  rw [differ, rangeFrom_eq_range', List.zipIdx_eq_zip_range', List.length_zip, ← hl, Nat.min_self]

theorem mem_differ (hl : a.length = b.length) {k : Nat} : k ∈ differ a b ↔ ∃ x y, a[k]? = some x ∧ b[k]? = some y ∧ x ≠ y := by
  rw [differ_eq_zipIdx hl, List.mem_filterMap]
  constructor
  · rintro ⟨⟨⟨x, y⟩, i⟩, hm, hf⟩
    rw [List.mem_zipIdx_iff_getElem?, List.getElem?_zip_eq_some] at hm
    by_cases e : x = y
    · simp [e] at hf
    · obtain rfl : i = k := by simpa [e] using hf
      exact ⟨x, y, hm.1, hm.2, e⟩
  · rintro ⟨x, y, hx, hy, e⟩
    exact ⟨((x, y), k), List.mem_zipIdx_iff_getElem?.2 (List.getElem?_zip_eq_some.2 ⟨hx, hy⟩), if_neg e⟩

theorem nodup_differ (hl : a.length = b.length) : (differ a b).Nodup := by
  have hs : (a.zip b).zipIdx.Pairwise fun x y => x.2 ≠ y.2 := by
    rw [← List.pairwise_map (f := Prod.snd), List.zipIdx_map_snd]
    exact List.nodup_range'
  rw [differ_eq_zipIdx hl]
  refine hs.filterMap _ fun x y hxy i hi j hj => ?_
  obtain ⟨-, rfl⟩ : _ ∧ x.2 = i := by simpa using hi
  obtain ⟨-, rfl⟩ : _ ∧ y.2 = j := by simpa using hj
  exact hxy

end

/-- The decoder's positions are those of the errors. -/
theorem differ_received_perm {w : List Nat} {err : List (Nat × Byte)} (hn : (err.map (·.1)).Nodup)
    (hp : ∀ e ∈ err, e.1 < w.length ∧ e.2 ≠ 0) : (differ w (received w err)).Perm (err.map (·.1)) := by
  have hl : w.length = (received w err).length := (length_received w err).symm
  refine (List.perm_ext_iff_of_nodup (nodup_differ hl) hn).2 fun k => (mem_differ hl).trans ⟨?_, fun hk => ?_⟩
  · rintro ⟨x, y, hx, hy, hne⟩
    by_contra hk
    rw [received_of_not_mem w hk, hx, Option.some_inj] at hy
    exact hne hy
  · obtain ⟨e, he, rfl⟩ := List.mem_map.1 hk
    obtain ⟨hlt, h0⟩ := hp e he
    have hw := List.getElem?_eq_getElem hlt
    refine ⟨w[e.1], w[e.1] ^^^ e.2.toNat, hw, ?_, fun h => h0 ?_⟩
    · rw [received_of_mem w hn he, hw, Option.map_some]
    · have : 0 = e.2.toNat := Nat.xor_right_injective ((Nat.xor_zero _).trans h)
      exact BitVec.eq_of_toNat_eq this.symm

theorem length_checkStep {r : List Nat} (h : r.length = 4) (d : Nat) : (checkStep r d).length = 4 := by
  have hg : generator.length = 4 := by decide
  simp [checkStep, h, hg]

theorem length_stored (m : MemSys) (b : Nat) : (m.stored b).length = 68 := by
  have hc (l : List Nat) : (l.foldl checkStep [0, 0, 0, 0]).length = 4 :=
    List.foldlRecOn (motive := fun r => r.length = 4) l checkStep rfl fun r hr d _ => length_checkStep hr d
  rw [MemSys.stored, codeword, List.length_append, checkSymbols, hc, List.length_map, List.length_map, rangeFrom_eq_range',
    List.length_range']

/-! Reads and scrubs (R43 to R45). -/

section
variable {s : State} {b : Nat} {err : List (Nat × Byte)}

theorem State.decodeBlock_clean (s : State) (b : Nat) : s.decodeBlock b [] = s := by
  simp only [State.decodeBlock, List.isEmpty_nil, if_true]

section
variable (hne : err ≠ []) (hn : (err.map (·.1)).Nodup) (hp : ∀ e ∈ err, e.1 < 68 ∧ e.2 ≠ 0)
  (ht : let known := (s.chanAt (chanOf (64 * b))).sp.bad.getD (placeOf b).sid []
    2 * (err.filter fun e => !known.contains e.1).length + known.length ≤ 4)
include hne hn hp ht

/-- Errors within the bound of R43 are corrected: the read is counted, and the evidence at each position noted. -/
theorem State.decodeBlock_within :
    s.decodeBlock b err = (differ (s.mem.stored b) (received (s.mem.stored b) err)).foldl
      (fun r k => r.corrected (chanOf (64 * b)) (placeOf b) k)
      (s.modChan (chanOf (64 * b)) fun c => { c with ce := sat32 (c.ce + 1) }) := by
  have hd := differ_received_perm (w := s.mem.stored b) hn (by rwa [length_stored])
  have he : err.isEmpty = false := by rwa [List.isEmpty_eq_false_iff]
  have hb : (differ (s.mem.stored b) (received (s.mem.stored b) err)).isEmpty = false := by
    rw [hd.isEmpty_eq, List.isEmpty_map, he]
  have hl (p : Nat → Bool) : ((differ (s.mem.stored b) (received (s.mem.stored b) err)).filter p).length =
      (err.filter fun e => p e.1).length := by
    rw [(hd.filter p).length_eq, List.filter_map, List.length_map]
    rfl
  simp only [State.decodeBlock, he, hb, hl, if_pos ht, Bool.false_eq_true, if_false]

/-- A corrected read leaves memory and the count of uncorrectable reads, and is counted once. -/
theorem State.decodeBlock_corrects :
    let r := s.decodeBlock b err
    let ch := chanOf (64 * b)
    r.mem = s.mem ∧ (r.chanAt ch).ce = min ((s.chanAt ch).ce + 1) (2 ^ 32 - 1) ∧ (r.chanAt ch).ue = (s.chanAt ch).ue := by
  intro r ch
  have hr : (s.modChan ch fun c => { c with ce := sat32 (c.ce + 1) }).SameReads r := by
    rw [show r = _ from State.decodeBlock_within hne hn hp ht]
    exact .foldl (fun _ h k => h.corrected ch (placeOf b) k) (.refl _) _
  have hc := State.chanAt_modChan s ch ch fun c => { c with ce := sat32 (c.ce + 1) }
  rw [if_pos rfl] at hc
  exact ⟨hr.mem, by rw [hr.ce, hc]; rfl, by rw [hr.ue, hc]⟩

end

/-- An uncorrectable read of a block that memory gives marks it poisoned, and is counted. -/
theorem State.uncorrectable_poisons (hf : s.fromMemory b = true) :
    let r := s.uncorrectable b
    let ch := chanOf (64 * b)
    r.mem.bytes = s.mem.bytes ∧ r.mem.poison.contains b = true ∧ (r.chanAt ch).ue = min ((s.chanAt ch).ue + 1) (2 ^ 32 - 1) := by
  intro r ch
  have hr : State.SameReads _ r := (State.SameReads.refl _).askRow ch (placeOf b)
  have hm : r.mem = { s.mem with poison := setIns s.mem.poison b } := hr.mem.trans (if_pos hf)
  have hu : (r.chanAt ch).ue = sat32 ((s.chanAt ch).ue + 1) := by
    rw [hr.ue, State.chanAt_onMem, State.chanAt_onHealth, State.chanAt_modChan, if_pos rfl]
    exact fun _ => rfl
  exact ⟨by rw [hm], by rw [hm]; exact List.contains_iff_mem.2 (mem_setIns_self _ b), hu⟩

end

/-! The events of the controllers (R44, R45, R48). -/

section
variable {s : State} {pa : Nat}

theorem State.exec_memoryRequest_write (hl : s.live = true) (ho : s.frameOk pa = true) (bs : List Byte) :
    exec (.memoryRequest pa (some bs) []) s = .next (s.physWrite Wr.base pa (bs.take (64 - pa % 64))) := by
  change execMemoryRequest pa (some bs) [] s = _
  simp only [execMemoryRequest, hl, ho, Bool.not_true, Bool.or_self, Bool.false_eq_true, if_false]

theorem State.exec_memoryRequest_read (hl : s.live = true) (ho : s.frameOk pa = true) (hf : s.fromMemory (pa / 64) = true)
    (err : List (Nat × Byte)) : exec (.memoryRequest pa none err) s =
      .next (if s.mem.poison.contains (pa / 64) then s.uncorrectable (pa / 64) else s.decodeBlock (pa / 64) err) := by
  change execMemoryRequest pa none err s = _
  simp only [execMemoryRequest, hl, ho, hf, Bool.not_true, Bool.or_self, Bool.false_eq_true, if_false]

theorem State.exec_patrolScrub (hl : s.live = true) (ho : s.frameOk pa = true) (hp : s.mem.poison.contains (pa / 64) = false)
    (hd : s.mem.deep.contains (pa / 64) = false) (err : List (Nat × Byte)) :
    exec (.patrolScrub pa err) s = .next (s.decodeBlock (pa / 64) err) := by
  change execPatrolScrub pa err s = _
  simp only [execPatrolScrub, hl, ho, hp, hd, Bool.not_false, Bool.and_self, if_true]

theorem State.physWrite_free (w : Wr) {bs : List Byte} (h : s.rangeStalls pa bs.length = false) : s.physWrite w pa bs = s.physPut w pa bs := by
  simp only [State.physWrite, h, State.physPoison, Bool.false_eq_true, if_false]

/-- A write to what a repair stalls waits at its controller for the copy. -/
theorem State.physWrite_stalled (w : Wr) {bs : List Byte} (h : s.rangeStalls pa bs.length = true) :
    let r := s.physWrite w pa bs
    r.mem = s.mem ∧ (r.chanAt (chanOf pa)).waits = (s.chanAt (chanOf pa)).waits ++ [⟨pa, bs, s.chanNow (chanOf pa), w, false⟩] := by
  simp only [State.physWrite, h, if_true, State.modChan_mem, State.chanAt_modChan, and_self]

end

/-! Channels and repairs (R47, R55, R58). -/

section
variable {s : State}

theorem State.exec_pageRetire {frame : Nat} (cause : Nat) (ho : s.frameOk (4096 * frame) = true) :
    exec (.pageRetire frame cause) s = .next (if cause = 4 ∨ cause = 1 ∧ s.twiceBad frame = true then
      (s.retire (· == frame) cause false).onHealth fun h => { h with ues := h.ues.filter fun b => b / 64 != frame } else s) := by
  change execPageRetire frame cause s = _
  simp only [execPageRetire, ho, Bool.true_and, Bool.or_eq_true, Bool.and_eq_true, beq_iff_eq]

/-- An enabled channel that is told to drain is among those that drain. -/
theorem State.startDrain_drains {ch : Nat} (ho : s.chanOn ch = true) (hc : (s.chanAt ch).chst = 0) :
    ((s.startDrain ch).chanAt ch).chst = 1 ∧ (s.startDrain ch).draining ≠ [] := by
  have hd : s.startDrain ch = s.modChan ch fun c => { c with chst := 1, drain := s.chanNow ch } := by
    simp only [State.startDrain, ho, hc, beq_self_eq_true, Bool.and_self, if_true]
  rw [hd]
  refine ⟨by rw [State.chanAt_modChan, if_pos rfl], fun h => ?_⟩
  have hm := List.map_eq_nil_iff.1 h
  exact List.filter_eq_nil_iff.1 hm _ (Map.mem_put_self ..) rfl

/-- An event that carries on with one element of a list, by a free choice. -/
theorem State.picks_of_chooseFrom {α : Type} {i : Instr} {c : α} {cs : List α} {f : α → State → State}
    (h : exec i s = .next (f (chooseFrom (c :: cs) c s).1 (chooseFrom (c :: cs) c s).2)) : s.Picks i (c :: cs) f := by
  obtain ⟨x, hx, n, e⟩ := exists_chooseFrom_eq c cs s
  exact ⟨x, hx, n, by rw [h, e]⟩

theorem State.channelDrainEnd_picks (h : s.draining ≠ []) : s.Picks .channelDrainEnd s.draining fun ch r => r.loseChannel ch := by
  cases hl : s.draining with
  | nil => exact absurd hl h
  | cons c cs =>
    refine State.picks_of_chooseFrom (?_ : execChannelDrainEnd s = _)
    simp only [execChannelDrainEnd, hl]

theorem State.repairStart_picks (h : s.repairable ≠ []) : s.Picks .repairStart s.repairable fun ch r => r.startRepair ch := by
  cases hl : s.repairable with
  | nil => exact absurd hl h
  | cons c cs =>
    refine State.picks_of_chooseFrom (?_ : execRepairStart s = _)
    simp only [execRepairStart, hl]

theorem State.repairComplete_picks (h : s.repairing ≠ []) :
    s.Picks .repairComplete s.repairing fun e r => r.copyOn e.1 e.2 := by
  cases hl : s.repairing with
  | nil => exact absurd hl h
  | cons c cs =>
    refine State.picks_of_chooseFrom (?_ : execRepairComplete s = _)
    simp only [execRepairComplete, hl]

/-- An engine with a spare for its oldest request begins that repair. -/
theorem State.startRepair_begins {ch : Nat} {q : Repair} {qs : List Repair} (hq : (s.chanAt ch).queue = q :: qs)
    (hs : (s.chanAt ch).sp.has q = true) :
    ((s.startRepair ch).chanAt ch).queue = qs ∧
      ((s.startRepair ch).chanAt ch).active = some ⟨q, s.chanNow ch, if q.kind = 1 then q.row else 0, s.chanNow ch⟩ := by
  simp only [State.startRepair, hq, State.chanAt_modChan, hs, if_true, and_self]

end

/-- Settles O46: the errors of a correctable word are the positions where it differs from the codeword (`differ_received_perm`), and what
R46 notes of them leaves memory and the read counts (`SameReads`); each other event is its operation. -/
theorem memoryControllersCorrectAndRepair : Obligations.MemoryControllersCorrectAndRepair := by
  unfold Obligations.MemoryControllersCorrectAndRepair
  intro s
  refine ⟨fun pa hl ho => ?_, fun frame cause ho => State.exec_pageRetire cause ho, fun ch hlt ho hc => ?_, State.channelDrainEnd_picks,
    State.repairStart_picks, fun ch q qs hr hq hs => ?_, State.repairComplete_picks⟩
  · intro b ch
    refine ⟨fun bs => ⟨fun h => ?_, fun h => ?_⟩, fun hf hp hd => ?_, fun hf hp => ?_⟩
    · rw [State.exec_memoryRequest_write hl ho, State.physWrite_free _ h]
    · exact ⟨_, State.exec_memoryRequest_write hl ho bs, State.physWrite_stalled _ h⟩
    · have read (err : List (Nat × Byte)) : exec (.memoryRequest pa none err) s = .next (s.decodeBlock b err) := by
        rw [State.exec_memoryRequest_read hl ho hf, if_neg (by rw [hp]; exact Bool.false_ne_true)]
      have scrub := State.exec_patrolScrub hl ho hp hd
      refine ⟨by rw [read, s.decodeBlock_clean], by rw [scrub, s.decodeBlock_clean], fun err hne hn hpos => ?_⟩
      intro known ht ok
      have hok := State.decodeBlock_corrects hne hn hpos ht
      exact ⟨⟨_, read err, hok⟩, ⟨_, scrub err, hok⟩⟩
    · exact ⟨_, (State.exec_memoryRequest_read hl ho hf []).trans (by rw [if_pos hp]), State.uncorrectable_poisons hf⟩
  · refine ⟨s.startDrain ch, (?_ : execChannelDisableStart ch s = _), State.startDrain_drains ho hc⟩
    rw [execChannelDisableStart, if_pos hlt]
  · obtain ⟨x, hx, n, e⟩ := State.repairStart_picks (s := s) (by rw [hr]; exact List.cons_ne_nil _ _)
    rw [hr] at hx
    obtain rfl := List.mem_singleton.1 hx
    exact ⟨_, e, State.startRepair_begins hq hs⟩

/-! O59: what reset leaves. -/

/-- Settles O59: the reset state is closed data, so each register of the list is evaluated; a core that no map lists is the reset core, and that
memory is canonical is `Memory.reset_wf`. -/
theorem resetLeavesWhatTheTablesGive : Obligations.ResetLeavesWhatTheTablesGive := by
  unfold Obligations.ResetLeavesWhatTheTablesGive
  refine ⟨by decide, by decide, fun _ => rfl, by decide, rfl, rfl, Memory.reset_wf, rfl⟩

end Sys2Proof.Machine
end

section
-- One thread elaborates: check.sh limits memory, and counts a stack for each thread that waits.
set_option Elab.async false

namespace Sys2Proof.Machine

/-! O25: requests (spec/02 R61; spec/10 R220, R228; spec/11 R241 to R250). -/

/-! Free choices draw numbers, and change nothing else. -/

/-- `r` is `s` but for the count of free numbers drawn. -/
def State.Draws (s r : State) : Prop := ∃ n, r = s.onExt fun e => { e with fresh := n }

section
variable {s r t : State}

theorem State.Draws.refl (s : State) : s.Draws s := ⟨s.ext.fresh, rfl⟩

theorem State.Draws.trans (h : s.Draws r) (k : r.Draws t) : s.Draws t := by
  obtain ⟨_, rfl⟩ := h
  obtain ⟨n, rfl⟩ := k
  exact ⟨n, rfl⟩

theorem State.Draws.pkg (h : s.Draws r) : r.pkg = s.pkg := by
  obtain ⟨_, rfl⟩ := h
  rfl

theorem State.Draws.mem (h : s.Draws r) : r.mem = s.mem := by
  obtain ⟨_, rfl⟩ := h
  rfl

theorem State.Draws.ite {c : Prop} [Decidable c] (h : s.Draws r) (k : s.Draws t) : s.Draws (if c then r else t) := by
  split
  · exact h
  · exact k

end

theorem choose_draws (n : Nat) (s : State) : s.Draws (choose n s).2 := choose_fresh n s

theorem chooseBool_draws (s : State) : s.Draws (chooseBool s).2 := choose_draws 2 s

theorem chooseFrom_draws {α : Type} (l : List α) (d : α) (s : State) : s.Draws (chooseFrom l d s).2 := choose_draws l.length s

theorem chooseSubset_draws (l : List Nat) (s : State) : s.Draws (chooseSubset l s).2 := by
  induction l generalizing s with
  | nil => exact .refl s
  | cons k l ih => exact (chooseBool_draws s).trans (ih _)

theorem pickMixed_draws (f : Wr → Bool) (acc : Nat × Nat) (hidden : List Nat) (l : List (Byte × Wr)) (s : State) :
    s.Draws (pickMixed f acc hidden l s).2 := by
  induction l generalizing s with
  | nil => exact .refl s
  | cons v vs ih =>
    cases vs with
    | nil => exact .refl s
    | cons w ws =>
      simp only [pickMixed]
      split
      · exact ih s
      · split
        · split
          · exact (chooseBool_draws s).trans (ih _)
          · exact chooseBool_draws s
        · exact .refl s

theorem foldl_draws {α β : Type} {f : β × State → α → β × State} (h : ∀ (p : β × State) (a : α), p.2.Draws (f p a).2) (l : List α)
    (p : β × State) :
    p.2.Draws (l.foldl f p).2 :=
  foldl_rel (fun p q : β × State => p.2.Draws q.2) (fun p => .refl p.2) State.Draws.trans f h l p

theorem State.undiscard_draws (s : State) (l : List (Nat × Byte × Wr)) : s.Draws (s.undiscard l).2 :=
  foldl_draws (fun p a => by
    dsimp only
    split
    · exact chooseFrom_draws _ 0 _
    · exact .refl p.2) l ([], s)

theorem State.ownBytes_draws (s : State) (ag : Agent) (va n : Nat) : s.Draws (s.ownBytes ag va n).2 := by
  unfold State.ownBytes
  dsimp only
  exact foldl_draws (fun p _ => by exact chooseBool_draws p.2) _ ([], s)

/-! A read at a home leaves memory and the dies as they are. -/

/-- Past its free choices a read at a home only notes in its thread what it has seen. -/
theorem State.homeRead_notes (s : State) (ag : Agent) (strong : Option Scope) (pa n : Nat) (coh : Bool) (floor : Nat → Nat) :
    ∃ r f, s.Draws r ∧ (s.homeRead ag strong pa n coh floor).2 = r.modThread ag.thr f := by
  unfold State.homeRead
  dsimp only
  refine ⟨_, _, ?_, rfl⟩
  refine .trans ?_ (State.undiscard_draws _ _)
  refine (chooseSubset_draws _ s).trans (foldl_draws (fun p v => ?_) _ ([], _))
  cases strong with
  | none => exact .refl p.2
  | some sc => exact pickMixed_draws ..

theorem State.readHome_keeps (s : State) (ag : Agent) (strong : Option Scope) (va pa n : Nat) (coh : Bool) :
    (s.readHome ag strong va pa n coh).2.mem = s.mem ∧ (s.readHome ag strong va pa n coh).2.pkg = s.pkg := by
  unfold State.readHome
  extract_lets home stale
  have hd : s.Draws (if stale then chooseBool s else (false, s)).2 := by
    split
    · exact chooseBool_draws s
    · exact .refl s
  generalize (if stale then chooseBool s else (false, s)) = c at hd
  obtain ⟨old, r⟩ := c
  dsimp only
  split
  · exact ⟨hd.mem, hd.pkg⟩
  · obtain ⟨t, f, ht, he⟩ := r.homeRead_notes ag strong pa n coh fun i => r.l1Floor ag (va + i)
    simp only [he, State.modThread_mem, State.modThread_pkg]
    exact ⟨ht.mem.trans hd.mem, ht.pkg.trans hd.pkg⟩

theorem homeIn_of_pkg {s r : State} (h : r.pkg = s.pkg) (sp : Space) (core a : Nat) : homeIn r sp core a = homeIn s sp core a := by
  cases sp with
  | asid x => simp only [homeIn, homeOf, sliceOf, h]
  | phys => simp only [homeIn, homePa, sliceOf, h]

/-! A line that no slice holds: the remap filter has nothing to do for a read of it (R230). -/

theorem MemSys.filterRead_absent {m : MemSys} {pline : Nat} (h : ∀ l ∈ m.l2, l.pline ≠ pline) : m.filterRead pline = m := by
  have hw : (m.l2.filter fun l => l.pline == pline && l.wr) = [] := List.filter_eq_nil_iff.2 fun l hl => by simp [h l hl]
  have hm : (m.l2.map fun k => if k.pline == pline && k.wr then { k with wr := false, dirty := [] } else k) = m.l2 :=
    (List.map_congr_left fun k hk => by simp [h k hk]).trans m.l2.map_id
  simp only [MemSys.filterRead, hw, List.reverse_nil, List.foldl_nil, hm]

/-- Where no name changed its state nothing is recorded. -/
theorem State.traceNames_self (s : State) (pline kind : Nat) (skip : Option (Space × Nat)) : s.traceNames s pline kind skip = s := by
  unfold State.traceNames
  refine List.foldlRecOn (motive := fun r => r = s) _ _ rfl fun r hr _ _ => ?_
  rw [hr]
  exact if_pos rfl

theorem State.readNames_absent {s : State} {pa : Nat} {at_ : Attr} (ha : at_.allocL2 = false) (h : ∀ l ∈ s.mem.l2, l.pline ≠ pa / 128)
    (ag : Agent) (home : Nat × Nat) (va : Nat) (na : Bool) : s.readNames ag home va pa at_ na = s := by
  have hf : (s.onMem fun m => m.filterRead (pa / 128)) = s := by rw [State.onMem, MemSys.filterRead_absent h]
  simp only [State.readNames, ha, Bool.false_and, Bool.false_eq_true, if_false, hf, State.traceNames_self]

/-- A page that does not allocate in L2 does not allocate in L1 (R226). -/
theorem Attr.noL1_of_allocL2 {at_ : Attr} (h : at_.allocL2 = false) : at_.noL1 = true := by
  unfold Attr.noL1
  unfold Attr.allocL2 at h
  by_cases hw : at_.wp = 2
  · simp [hw]
  · simp_all

theorem State.l1Fill_noL1 {at_ : Attr} (h : at_.noL1 = true) (s : State) (ag : Agent) (va n : Nat) (na : Bool) :
    s.l1Fill ag va n at_ na = s := by
  simp [State.l1Fill, h]

/-- With no line of the host's and none owed, an access to the stacks goes on at once (R112). -/
theorem State.prepare_free {s : State} {pa : Nat} (hh : isHost pa = false) (ho : s.plat.host.own = []) (hd : s.plat.host.owed = [])
    (n : Nat) (write : Bool) (at_ : Attr) (atomic : Bool) (by_ : Who) : s.prepare pa n write at_ atomic by_ = (.go, s) := by
  unfold State.prepare
  rw [if_neg (by rw [hh]; exact Bool.false_ne_true)]
  extract_lets lines
  have hf : lines.foldl (fun (acc : Ready × State) line =>
      if (acc.2.plat.host.own.find line).isSome then (.wait, acc.2.snoopLine line by_) else acc) (.go, s) = (.go, s) := by
    refine List.foldlRecOn (motive := fun acc : Ready × State => acc = (.go, s)) _ _ rfl fun acc ha line _ => ?_
    rw [ha, ho]
    rfl
  have hn : (lines.any fun l => (s.plat.host.owed.find l).isSome) = false := by simp [hd, Map.find]
  rw [hf]
  simp [hn]

/-! What a request to a bank unit does (R220, R407). -/

section
variable {s : State} {q : Req}

/-- The thread's ASID owns the bank unit that a request goes to. -/
def State.ownsUnit (s : State) (q : Req) : Prop := s.unitOwner (s.thread q.thr) q.bank (q.va % 2 ^ 19 / 8192) = some (s.thread q.thr).id.asid

theorem State.performReq_scratch (h : q.scratch = true) : s.performReq q = s.doScratch q := if_pos h

theorem State.doScratch_foreign (h : ¬ s.ownsUnit q) : s.doScratch q = s.reqTrap q 8 := if_pos (bne_iff_ne.2 h)

theorem MemSys.scrRead_eq (m : MemSys) (key n : Nat) : m.scrRead key n = (List.range n).map fun k => m.scr.getD 0 (key + k) := by
  rw [MemSys.scrRead, rangeFrom_eq_range', List.range'_eq_map_range, List.map_map]
  rfl

theorem State.doScratch_load {ty : MemTy} (hk : q.kind = .lds ty) (h : s.ownsUnit q)
    (hp : s.mem.scrPoisoned (scrKey (clusterOf q.dom.core) q.va) q.size = false) :
    s.doScratch q = s.answer q (loadRegs false ty (ofBytesLE (s.mem.scrRead (scrKey (clusterOf q.dom.core) q.va) q.size))) := by
  unfold State.doScratch
  rw [if_neg fun hn => bne_iff_ne.1 hn h]
  simp only [hk, hp, State.answerP, Bool.false_eq_true, if_false]

theorem State.doScratch_store (hk : q.kind = .sts) (h : s.ownsUnit q) :
    s.doScratch q = (s.onMem fun m => m.scrWrite (scrKey (clusterOf q.dom.core) q.va) q.data q.poison).answer q [] := by
  unfold State.doScratch
  rw [if_neg fun hn => bne_iff_ne.1 hn h]
  simp only [hk]

end

/-- Bytes written to consecutive places stand there afterwards, every other byte as it was. -/
theorem Map.getD_setBytes {m : Map Byte} (hs : m.sorted = true) (key : Nat) (bs : List Byte) (k : Nat) :
    (((rangeFrom key bs.length).zip bs).foldl (fun m (a, b) => m.setD 0 a b) m).getD 0 k =
      if key ≤ k ∧ k < key + bs.length then bs.getD (k - key) 0 else m.getD 0 k := by
  induction bs generalizing m key with
  | nil =>
    rw [if_neg (by rintro ⟨h, h'⟩; exact absurd h' (Nat.not_lt.2 h))]
    rfl
  | cons b bs ih =>
    have hs' : (m.setD 0 key b).sorted = true := by
      unfold Map.setD
      split
      · exact Map.sorted_del key hs
      · exact Map.sorted_put key b hs
    rw [List.length_cons, rangeFrom, List.zip_cons_cons, List.foldl_cons, ih hs', Map.getD_setD 0 hs]
    rcases Nat.lt_trichotomy k key with h | rfl | h
    · rw [if_neg (by omega), if_neg (by omega), if_neg (by omega)]
    · simp
    · obtain ⟨j, rfl⟩ := Nat.exists_eq_add_of_lt h
      have e : key + j + 1 - key = (key + j + 1 - (key + 1)) + 1 := by omega
      rw [e, List.getD_cons_succ, if_neg (show key ≠ key + j + 1 by omega)]
      by_cases hj : key + j + 1 < key + 1 + bs.length
      · rw [if_pos ⟨by omega, hj⟩, if_pos ⟨by omega, by omega⟩]
      · rw [if_neg fun x => hj x.2, if_neg (by omega)]

/-! What a load from memory gives (R405): the bytes of its domain over those of its home. -/

theorem overlay_own {own : Map Byte} {bs : List Byte} (h : ∀ k < bs.length, (own.find k).isSome = true) :
    overlay own bs = (List.range bs.length).map (own.getD 0) := by
  unfold overlay
  rw [rangeFrom_eq_range', ← List.range_eq_range']
  refine List.ext_getElem (by simp) fun k hk _ => ?_
  have hk' : k < bs.length := by simpa using hk
  obtain ⟨v, hv⟩ := Option.isSome_iff_exists.1 (h k hk')
  simp [Map.getD, hv]

section
variable {s : State} {q : Req} {ty : MemTy} {strong : Bool}

/-- A strong load publishes first what its domain has stored there; with nothing stored there is nothing to publish (R245). -/
theorem State.publishRange_none {ag : Agent} (h : (s.mem.dom ag.dom).stores = []) (va n : Nat) : s.publishRange ag va n = (none, s) := by
  simp [State.publishRange, State.publish, h, linesOf]

theorem State.performReq_load (hk : q.kind = .load ty strong) (ho : s.memOffline q.pa = false)
    (hs : strong = true → (s.mem.dom q.dom).stores = [])
    (hp : ∀ w a at_ b, s.prepare q.pa q.size w at_ a b = (.go, s)) : s.performReq q = s.doLoad q ty strong false := by
  have hsc : q.scratch = false := by simp [Req.scratch, hk]
  have hpub : (if q.isStrong then s.publishRange (s.reqAgent q) q.va q.size else (none, s)) = (none, s) := by
    split
    · exact State.publishRange_none (hs (by rename_i h; simpa only [Req.isStrong, hk] using h)) q.va q.size
    · rfl
  unfold State.performReq
  simp only [hsc, ho, hpub, hp, hk, Bool.false_eq_true, if_false]
  rfl

/-- The load of a line that no slice holds, of a page that allocates in none. -/
theorem State.doLoad_eq (hown : s.mem.ownPoison q.dom q.va q.size = false) (hacq : q.acquires = false) (ha : q.attr.allocL2 = false)
    (hl : ∀ l ∈ s.mem.l2, l.pline ≠ q.pa / 128) :
    let own := if strong then ([], s) else s.ownBytes (s.reqAgent q) q.va q.size
    let rd := own.2.readHome (s.reqAgent q) (if strong then some q.scope else none) q.va q.pa q.size (!strong)
    s.mem.poisoned q.pa q.size = false ∨ q.size ≤ own.1.length →
    s.doLoad q ty strong false = (if strong then rd.2.noteStrong (s.reqHome q) q.pa q.size else rd.2).answer q
      (loadRegs (s.thread q.thr).isCtl ty (ofBytesLE (overlay own.1 rd.1))) := by
  unfold State.doLoad
  rw [Attr.noL1_of_allocL2 ha, Bool.and_true]
  dsimp only
  have hd : s.Draws (if strong then ([], s) else s.ownBytes (s.reqAgent q) q.va q.size).2 := by
    cases strong with
    | true => exact .refl s
    | false => exact State.ownBytes_draws ..
  generalize (if strong then ([], s) else s.ownBytes (s.reqAgent q) q.va q.size) = own at hd
  obtain ⟨hm, hg⟩ := own.2.readHome_keeps (s.reqAgent q) (if strong then some q.scope else none) q.va q.pa q.size (!strong)
  generalize own.2.readHome (s.reqAgent q) (if strong then some q.scope else none) q.va q.pa q.size (!strong) = rd at hm hg
  intro hpoi
  have hhome : (homeIn rd.2 q.dom.space q.dom.core q.va).1 = s.reqHome q :=
    congrArg Prod.fst (homeIn_of_pkg (hg.trans hd.pkg) ..)
  rw [hhome]
  have hl2 : (if strong then rd.2.noteStrong (s.reqHome q) q.pa q.size else rd.2).mem.l2 = s.mem.l2 := by
    rw [← hd.mem, ← hm]
    split <;> rfl
  generalize (if strong then rd.2.noteStrong (s.reqHome q) q.pa q.size else rd.2) = r at hl2
  have hnp : (false || !strong && own.2.mem.ownPoison (s.reqAgent q).dom q.va q.size ||
      own.2.mem.poisoned q.pa q.size && decide (own.1.length < q.size)) = false := by
    rw [hd.mem, show s.mem.ownPoison (s.reqAgent q).dom q.va q.size = false from hown, Bool.and_false, Bool.or_false, Bool.false_or,
      Bool.and_eq_false_iff, decide_eq_false_iff_not, Nat.not_lt]
    exact hpoi
  have hread (home : Nat × Nat) : r.readNames (s.reqAgent q) home q.va q.pa q.attr q.na = r :=
    State.readNames_absent ha (by rw [hl2]; exact hl) ..
  simp only [hnp, hread, State.l1Fill_noL1 (Attr.noL1_of_allocL2 ha), State.acquired, hacq, State.answerP, Bool.false_eq_true, if_false,
    ite_self]

end

/-! A reply (R61, R407). -/

theorem State.reply_untwinned {q : Req} (h : q.plog = none) (s : State) : s.reply q =
    s.touch ((s.modThread q.thr fun t =>
      { (q.dest.zip q.res).foldl (fun (t : Thread) e => if e.1 < 0xFFFF then t.setReg e.1 e.2 else t) t with
        fflags := t.fflags ||| q.flags }).onCore fun k => { k with reqs := k.reqs.filter fun x => x.id != q.id }) q.thr := by
  simp only [State.reply, h]

/-! Which of several requests acts is a free choice. -/

section
variable {s : State}

/-- An event that does nothing without an element of a list, and else carries on with one of them, by a free choice. -/
theorem State.picks_of_cons {α : Type} {i : Instr} {l : List α} {f : α → State → State} (hl : l ≠ [])
    (h : ∀ c cs, l = c :: cs → exec i s = .next (f (chooseFrom (c :: cs) c s).1 (chooseFrom (c :: cs) c s).2)) : s.Picks i l f := by
  cases l with
  | nil => exact absurd rfl hl
  | cons c cs => exact State.picks_of_chooseFrom (h c cs rfl)

theorem State.l1MissRequest_picks (h : s.issued ≠ []) : s.Picks .l1MissRequest s.issued fun q r =>
    if q.toHome && offHome r (r.reqHome q) then r.holdReq q (r.reqHome q) else (r.setReq { q with st := .home }).unOrder (.req q.id) :=
  State.picks_of_cons h fun c cs hl => by
    change execL1MissRequest s = _
    simp only [execL1MissRequest, hl]

theorem State.homeSliceAccess_picks (h : s.performable ≠ []) : s.Picks .homeSliceAccess s.performable fun q r => r.performReq q :=
  State.picks_of_cons h fun c cs hl => by
    change execHomeSliceAccess s = _
    simp only [execHomeSliceAccess, hl]

theorem State.replyArrival_picks (h : s.answered ≠ []) : s.Picks .replyArrival s.answered fun q r => r.reply q :=
  State.picks_of_cons h fun c cs hl => by
    change execReplyArrival s = _
    simp only [execReplyArrival, hl]

/-- A single request that may act is performed. -/
theorem State.homeSliceAccess_one {q : Req} (h : s.performable = [q]) : exec .homeSliceAccess s = .next (s.performReq q) := by
  change execHomeSliceAccess s = _
  simp only [execHomeSliceAccess, h]
  rfl

end

/-- Settles O25: each event carries on with one of its requests; what a request does at its bank unit or home is a lemma per kind, and a read
at a home leaves memory as it is (`State.readHome_keeps`). -/
theorem requestsArePerformedAndAnswered : Obligations.RequestsArePerformedAndAnswered := by
  unfold Obligations.RequestsArePerformedAndAnswered
  intro s owned
  refine ⟨State.l1MissRequest_picks, State.homeSliceAccess_picks, fun q ty hq hk ho hp => ?_, fun q hq hsc ho => ?_,
    fun q hq hk ho hs => ?_, fun q ty strong hq hk hh hoff hown howed hpoi hst hacq ha hl hrd => ?_,
    fun own bs h => overlay_own h, fun h hplog => ?_⟩
  · rw [State.homeSliceAccess_one hq, State.performReq_scratch (by simp only [Req.scratch, hk]), State.doScratch_load hk ho hp,
      MemSys.scrRead_eq]
    rfl
  · rw [State.homeSliceAccess_one hq, State.performReq_scratch hsc, State.doScratch_foreign ho]
  · refine ⟨_, State.homeSliceAccess_one hq, ?_⟩
    rw [State.performReq_scratch (by simp only [Req.scratch, hk]), State.doScratch_store hk ho]
    exact ⟨rfl, Map.getD_setBytes hs _ q.data⟩
  · rw [State.homeSliceAccess_one hq, State.performReq_load hk hoff hst (fun _ _ _ _ => State.prepare_free hh hown howed ..)]
    exact congrArg _ (State.doLoad_eq hpoi hacq ha hl hrd)
  · obtain ⟨q, hq, n, e⟩ := State.replyArrival_picks h
    exact ⟨q, hq, n, e.trans (congrArg _ (State.reply_untwinned (hplog q hq) _))⟩

end Sys2Proof.Machine
end

section
-- One thread elaborates: check.sh limits memory, and counts a stack for each thread that waits.
set_option Elab.async false

namespace Sys2Proof.Machine

/-! O47: die-to-die links, warm reset, loss (spec/03 R61 to R76). -/

/-! The state of a link (R62). -/

/-- A link; one that no event has changed is as after reset. -/
def State.linkAt (s : State) (k : Nat) : Link := s.plat.links.dl.getD Link.reset k

@[simp] theorem State.linkAt_modLink (s : State) (k j : Nat) (f : Link → Link) :
    (s.modLink k f).linkAt j = if k = j then f (s.linkAt k) else s.linkAt j := Map.getD_modD ..

theorem State.Draws.plat {s r : State} (h : s.Draws r) : r.plat = s.plat := by
  obtain ⟨_, rfl⟩ := h
  rfl

theorem State.Draws.linkAt {s r : State} (h : s.Draws r) (k : Nat) : r.linkAt k = s.linkAt k := by
  rw [State.linkAt, h.plat, State.linkAt]

/-- A training that ends counts, leaves a free number for LREP, and gives the link its state. -/
theorem State.linkAt_trained (s : State) (k st j : Nat) : (s.trained k st).linkAt j =
    if k = j then { s.linkAt k with train := sat16 (s.linkAt k).train, lrep := (choose 256 s).1, fails := 0, state := st } else s.linkAt j := by
  simp only [State.trained, State.linkAt_modLink, (choose_draws 256 s).linkAt]

theorem State.trained_pkg (s : State) (k st : Nat) : (s.trained k st).pkg = s.pkg := (choose_draws 256 s).pkg

/-- How a link is left by a training that ended, whatever waits for it then. -/
theorem State.trained_end (s : State) (k st : Nat) (w : List Nat) :
    let l := ((s.trained k st).modLink k fun l => { l with queue := w }).linkAt k
    l.train = sat16 (s.linkAt k).train ∧ l.state = st ∧ l.fails = 0 := by
  simp [State.linkAt_trained]

section
variable {s : State} {k : Nat}

theorem State.exec_dieLinkDown (hk : k < 10) : exec (.dieLinkDown k) s = .next (s.linkDrop k) := congrArg _ (if_pos hk)

theorem State.exec_flitReplay_down (hu : s.linkUp k = false) : exec (.flitReplay k) s = .next s :=
  congrArg _ (if_pos (by simp [hu]))

/-- A replay counts; one that fails in its turn is one more failure in a row, and the 64th takes the link down. -/
theorem State.exec_flitReplay_up (hk : k < 10) (hu : s.linkUp k = true) : s.Leads (.flitReplay k) fun r =>
    (r.linkAt k).retry = sat16 (s.linkAt k).retry ∧ (r.linkAt k).crcerr = sat16 (s.linkAt k).crcerr ∧
      (((r.linkAt k).fails = 0 ∧ (r.linkAt k).state = 2) ∨
        ((r.linkAt k).fails = (s.linkAt k).fails + 1 ∧ (s.linkAt k).fails + 1 < 64 ∧ (r.linkAt k).state = 2) ∨
        (64 ≤ (s.linkAt k).fails + 1 ∧ (r.linkAt k).fails = 0 ∧ (r.linkAt k).state = 0)) := by
  refine ⟨_, congrArg Host.Outcome.next (if_neg (by simp [hu, hk])), ?_⟩
  dsimp only
  have hd := (chooseBool_draws (s.modLink k fun l => { l with retry := sat16 l.retry, crcerr := sat16 l.crcerr, state := 2 })).linkAt k
  generalize chooseBool (s.modLink k fun l => { l with retry := sat16 l.retry, crcerr := sat16 l.crcerr, state := 2 }) = c at hd
  rw [State.linkAt_modLink, if_pos rfl] at hd
  obtain ⟨bad, t⟩ := c
  have hf : ((t.modLink k fun l => { l with fails := if bad then l.fails + 1 else 0 }).plat.links.dl.getD Link.reset k).fails =
      if bad then (s.linkAt k).fails + 1 else 0 := by
    change (State.linkAt _ k).fails = _
    simp [hd]
  rw [hf]
  cases bad with
  | false => simp [hd]
  | true =>
    by_cases h : 64 ≤ (s.linkAt k).fails + 1
    · simp [hd, h]
    · simp [hd, h, Nat.lt_of_not_le h]

/-- The end of a training lets what waited for the link go on in the order it was sent; a failed one loses the die at its end. -/
theorem State.exec_dieLinkRetrainDone (hk : k < 10) (hl : (s.linkAt k).state ≤ 1) (ok : Bool) : ∃ w,
    let x := (s.trained k (if ok then 2 else 0)).modLink k fun l => { l with queue := w }
    let d := if (linkEnds k).2 = 4 then (linkEnds k).1 else (linkEnds k).2
    exec (.dieLinkRetrainDone k ok) s = .next (if ok || !s.dieOn d || (s.pkg.die d).drst = 8 then x else x.loseDie d) := by
  have hp (w : List Nat) : ((s.trained k (if ok then 2 else 0)).modLink k fun l => { l with queue := w }).pkg = s.pkg :=
    s.trained_pkg k (if ok then 2 else 0)
  have hgo : ¬ (decide (10 ≤ k) || decide (2 ≤ (s.plat.links.dl.getD Link.reset k).state)) = true := by
    simp only [Bool.or_eq_true, decide_eq_true_eq, not_or, Nat.not_le]
    exact ⟨hk, Nat.lt_succ_of_le hl⟩
  have he : execDieLinkRetrainDone k ok s = _ := congrArg Host.Outcome.next (if_neg hgo)
  refine ⟨?w, he.trans ?_⟩
  pick_goal 2
  · simp only [State.dieOn, hp]
    rfl

end

theorem State.exec_dieLost {s : State} {d : Nat} (ho : s.dieOn d = true) (hd : (s.pkg.die d).drst ≠ 8) :
    exec (.dieLost d) s = .next (s.loseDie d) := by
  change execDieLost d s = _
  rw [execDieLost, if_pos (by simp [ho, hd])]

/-! The end of a step of a warm reset (R63). -/

theorem State.die_modDie {s : State} {d : Nat} (h : d < s.pkg.dies.length) (f : Die → Die) : (s.modDie d f).pkg.die d = f (s.pkg.die d) := by
  change (modNth f s.pkg.dies d).getD d Die.reset = f (s.pkg.dies.getD d Die.reset)
  rw [modNth_eq_modify, List.getD_eq_getElem?_getD, List.getD_eq_getElem?_getD, List.getElem?_modify_eq, List.getElem?_eq_getElem h]
  rfl

theorem State.modDie_dies_length (s : State) (d : Nat) (f : Die → Die) : (s.modDie d f).pkg.dies.length = s.pkg.dies.length := by
  change (modNth f s.pkg.dies d).length = _
  rw [modNth_eq_modify, List.length_modify]

section
variable {s : State} {c : Drctl}

@[simp] theorem State.endStepOf_pkg (s : State) (c : Drctl) : (s.endStepOf c).pkg = s.pkg := by
  unfold State.endStepOf
  split <;> rfl

@[simp] theorem State.endStepOf_mem (s : State) (c : Drctl) : (s.endStepOf c).mem = s.mem := by
  unfold State.endStepOf
  split <;> rfl

@[simp] theorem State.endStepOf_task (s : State) (c : Drctl) : (s.endStepOf c).task = s.task := by
  unfold State.endStepOf
  split <;> rfl

theorem State.endStepOf_links (s : State) (c : Drctl) : (s.endStepOf c).plat.links = { s.plat.links with cur := none } := by
  unfold State.endStepOf
  split <;> rfl

theorem State.stepOk_die (h : c.die < s.pkg.dies.length) (n : Nat) :
    (s.stepOk c n).pkg.die c.die = { s.pkg.die c.die with drst := n, drerr := 0 } := by
  rw [State.stepOk, State.endStepOf_pkg, State.die_modDie h]

theorem State.stepFail_die (h : c.die < s.pkg.dies.length) :
    (s.stepFail c).pkg.die c.die = { s.pkg.die c.die with drerr := c.cmd } := by
  rw [State.stepFail, State.endStepOf_pkg, State.die_modDie h]

theorem State.stepOk_links (s : State) (c : Drctl) (n : Nat) : (s.stepOk c n).plat.links = { s.plat.links with cur := none } :=
  State.endStepOf_links ..

@[simp] theorem State.stepOk_mem (s : State) (c : Drctl) (n : Nat) : (s.stepOk c n).mem = s.mem := State.endStepOf_mem ..

@[simp] theorem State.stepOk_task (s : State) (c : Drctl) (n : Nat) : (s.stepOk c n).task = s.task := State.endStepOf_task ..

theorem State.linkAt_stepOk (s : State) (c : Drctl) (n k : Nat) : (s.stepOk c n).linkAt k = s.linkAt k := by
  rw [State.linkAt, State.stepOk_links, State.linkAt]

theorem State.drNow_cmd {n : Nat} (h : s.drNow n = some c) : c.cmd = n := beq_iff_eq.1 (Option.filter_eq_some_iff.1 h).2

/-! QUIESCE, CLEAN, SELFREF and ADMIT (R64 to R66, R69). -/

theorem State.exec_quiesce (h : s.drNow 1 = some c) :
    exec .quiesce s = .next (if (s.stopDie c).quiet c.die then ((s.stopDie c).portsTo c.die 2 3).stepOk c 1 else s.stopDie c) := by
  change execQuiesce s = _
  simp only [execQuiesce, h]

theorem State.exec_dieClean_busy (h : s.drNow 2 = some c) (hb : s.homeBusy c.die = true) : exec .dieClean s = .next s := by
  change execDieClean s = _
  simp only [execDieClean, h, hb, if_true]

theorem State.exec_dieClean_snoops (h : s.drNow 2 = some c) (hb : s.homeBusy c.die = false) (hl : s.hostLines c.die ≠ []) :
    exec .dieClean s = .next ((s.hostLines c.die).foldl State.snoopLine s) := by
  change execDieClean s = _
  cases hh : s.hostLines c.die with
  | nil => exact absurd hh hl
  | cons l ls => simp only [execDieClean, h, hb, hh, Bool.false_eq_true, if_false]

/-- With nothing of the host's left, CLEAN writes back what it can, and ends once no line waits. -/
theorem State.exec_dieClean_drops (h : s.drNow 2 = some c) (hb : s.homeBusy c.die = false) (hl : s.hostLines c.die = []) :
    let x := s.dropLines fun l => l.die == c.die || s.misplaced l
    exec .dieClean s = .next (if x.dropHeld (fun l => l.die == c.die || x.misplaced l) = false ∧ x.evicting = false then
      (x.dropCopies c.die).forgetMaps.stepOk c 2 else x) := by
  intro x
  change execDieClean s = _
  simp only [execDieClean, h, hb, hl, Bool.false_eq_true, if_false]
  have hw : (x.dropHeld (fun l => l.die == c.die || x.misplaced l) || x.evicting) = true ↔
      ¬ (x.dropHeld (fun l => l.die == c.die || x.misplaced l) = false ∧ x.evicting = false) := by
    rw [← Bool.or_eq_false_iff, Bool.not_eq_false]
  exact congrArg _ ((if_congr hw rfl rfl).trans (ite_not ..))

theorem State.exec_selfref (h : s.drNow 3 = some c) (ha : ∀ e ∈ s.plat.health.chans, e.1 / 64 = c.die → e.2.active = none) :
    exec .selfref s = .next (s.stepOk c 3) := by
  change execSelfref s = _
  have hr : s.selfrefReady = true := by
    simp only [State.selfrefReady, h, Bool.not_eq_true', List.any_eq_false, Bool.and_eq_true, beq_iff_eq, not_and, Option.not_isSome_iff_eq_none]
    exact ha
  simp only [execSelfref, h, hr, if_true]

theorem State.exec_admitDie_none (h : s.drNow 6 = none) : exec .admitDie s = .next (if s.lateReady then s.publishAllLate else s) := by
  change execAdmit s = _
  simp only [execAdmit, h]

theorem State.exec_admitDie (h : s.drNow 6 = some c) :
    let x := s.dropLines s.misplaced
    exec .admitDie s = .next (if x.dropHeld x.misplaced then x else
      (rangeFrom (12 * c.die) 12).foldl (fun (x : State) p => if x.portUp p then (x.replay p 0).pump p else x)
        ((((x.forgetMaps.stepOk c 0).reissueHeld c.die).resumeChannels c.die).portsTo c.die 3 2)) := by
  change execAdmit s = _
  simp only [execAdmit, h]

end

/-! RETRAIN (R68). -/

theorem State.linkAt_trainAll (g : Nat → Nat) (l : List Nat) (s : State) (j : Nat) :
    ((l.foldl (fun (s : State) k => s.trained k (g k)) s).linkAt j).state = if j ∈ l then g j else (s.linkAt j).state := by
  induction l generalizing s with
  | nil => simp
  | cons k l ih =>
    rw [List.foldl_cons, ih, State.linkAt_trained]
    by_cases hl : j ∈ l
    · simp [hl]
    · by_cases hk : k = j
      · simp [hk]
      · simp [hl, hk, Ne.symm hk]

theorem State.trainAll_pkg (g : Nat → Nat) (l : List Nat) (s : State) :
    (l.foldl (fun (s : State) k => s.trained k (g k)) s).pkg = s.pkg :=
  List.foldlRecOn (motive := fun r : State => r.pkg = s.pkg) l _ rfl fun r hr k _ => (r.trained_pkg k (g k)).trans hr

theorem State.needed_of_pkg {s r : State} (h : r.pkg = s.pkg) (d : Nat) : r.needed d = s.needed d := by
  simp only [State.needed, h]

/-- RETRAIN trains the links of the die, and fails when one that it needs trains at no width. -/
theorem State.exec_dieRetrain {s : State} {c : Drctl} (h : s.drNow 5 = some c) (bad : List Nat) : ∃ x : State, x.pkg = s.pkg ∧
    (∀ k ∈ linksOf c.die, (x.linkAt k).state = if k ∈ bad then 0 else 2) ∧
    exec (.dieRetrain bad) s = .next (if (x.needed c.die).any bad.contains then x.stepFail c else x.stepOk c 5) := by
  refine ⟨?x, ?pkg, ?links, ?eq⟩
  case eq =>
    change execDieRetrain bad s = _
    simp only [execDieRetrain, h]
    rfl
  case pkg => exact State.trainAll_pkg (fun k => if bad.contains k then 0 else 2) ..
  case links =>
    intro k hk
    refine (State.linkAt_trainAll (fun k => if bad.contains k then 0 else 2) (linksOf c.die) _ k).trans ?_
    simp [hk]

/-- RETRAIN ends well where no link that the die needs failed, and else reports its error. -/
theorem State.exec_dieRetrain_ends {s : State} {c : Drctl} (h : s.drNow 5 = some c) (hlen : c.die < s.pkg.dies.length) (bad : List Nat) :
    ((∀ k ∈ s.needed c.die, k ∉ bad) → s.Leads (.dieRetrain bad) fun r => (r.pkg.die c.die).drst = 5 ∧ (r.pkg.die c.die).drerr = 0 ∧
      ∀ k ∈ linksOf c.die, (r.linkAt k).state = if k ∈ bad then 0 else 2) ∧
    ((∃ k ∈ s.needed c.die, k ∈ bad) → s.Leads (.dieRetrain bad) fun r =>
      (r.pkg.die c.die).drst = (s.pkg.die c.die).drst ∧ (r.pkg.die c.die).drerr = 5) := by
  obtain ⟨x, hp, hl, he⟩ := State.exec_dieRetrain h bad
  have hx : c.die < x.pkg.dies.length := hp ▸ hlen
  have hn : (x.needed c.die).any bad.contains = true ↔ ∃ k ∈ s.needed c.die, k ∈ bad := by
    simp [State.needed_of_pkg hp]
  refine ⟨fun hok => ⟨_, he.trans (congrArg _ (if_neg ?_)), ?_⟩, fun hbad => ⟨_, he.trans (congrArg _ (if_pos (hn.2 hbad))), ?_⟩⟩
  · exact fun hc => by
      obtain ⟨k, hk, hb⟩ := hn.1 hc
      exact hok k hk hb
  · simp only [State.stepOk_die hx, State.linkAt_stepOk, true_and]
    exact hl
  · dsimp only
    rw [State.stepFail_die hx, hp, State.drNow_cmd h]
    exact ⟨rfl, rfl⟩

/-! RESET (R67). What its loops do outside the dies' logic. -/

/-- The dies, memory and the tasks' structures are the same in two states. -/
structure State.SameDies (s r : State) : Prop where
  pkg  : r.pkg = s.pkg
  mem  : r.mem = s.mem
  task : r.task = s.task

section
variable {s r t : State}

theorem State.SameDies.refl (s : State) : s.SameDies s := ⟨rfl, rfl, rfl⟩

theorem State.SameDies.trans (h : s.SameDies r) (k : r.SameDies t) : s.SameDies t :=
  ⟨k.pkg.trans h.pkg, k.mem.trans h.mem, k.task.trans h.task⟩

theorem State.Draws.sameDies (h : s.Draws r) : s.SameDies r := by
  obtain ⟨_, rfl⟩ := h
  exact ⟨rfl, rfl, rfl⟩

theorem State.modPort_sameDies (s : State) (p : Nat) (f : NPort → NPort) : s.SameDies (s.modPort p f) := ⟨rfl, rfl, rfl⟩

theorem State.modLink_sameDies (s : State) (k : Nat) (f : Link → Link) : s.SameDies (s.modLink k f) := ⟨rfl, rfl, rfl⟩

theorem foldl_sameDies {α : Type} {f : State → α → State} (h : ∀ s a, State.SameDies s (f s a)) (l : List α) (s : State) :
    s.SameDies (l.foldl f s) :=
  foldl_rel State.SameDies State.SameDies.refl State.SameDies.trans f h l s

theorem State.putFlit_sameDies (s : State) (p : Nat) (e : Nat × NFlit) : s.SameDies (s.putFlit p e) :=
  (choose_draws 16 s).sameDies.trans ⟨rfl, rfl, rfl⟩

theorem State.pump_sameDies (s : State) (p : Nat) : s.SameDies (s.pump p) := by
  unfold State.pump
  split
  · exact (s.modPort_sameDies p _).trans (foldl_sameDies (fun r e => r.putFlit_sameDies p e) _ _)
  · exact .refl s

theorem State.post_sameDies (s : State) (f : NFlit) : s.SameDies (s.post f) := by
  unfold State.post
  dsimp only
  generalize (if (s.routes f.dst s.portUp).isEmpty then s.routes f.dst fun p => !s.portOff p else s.routes f.dst s.portUp) = l
  have hc := (chooseFrom_draws l 48 s).sameDies
  split
  · exact hc.trans ((State.modPort_sameDies ..).trans (State.pump_sameDies ..))
  · exact hc

theorem State.portDisable_sameDies (s : State) (p : Nat) : s.SameDies (s.portDisable p) :=
  (s.modPort_sameDies p _).trans (foldl_sameDies State.post_sameDies _ _)

end

/-! What RESET leaves of a die's ports and scratchpads. -/

theorem Map.find_eq_none {α : Type} {m : Map α} {k : Nat} (h : ∀ e ∈ m, e.1 ≠ k) : m.find k = none := by
  induction m with
  | nil => rfl
  | cons e m ih =>
    rw [Map.find, if_neg (h e List.mem_cons_self)]
    exact ih fun x hx => h x (List.mem_cons_of_mem _ hx)

theorem Map.find_mapIf {α : Type} (m : Map α) (p : Nat → Bool) (f : α → α) (k : Nat) :
    Map.find (m.map fun e => if p e.1 then (e.1, f e.2) else e) k = (m.find k).map fun v => if p k then f v else v := by
  induction m with
  | nil => rfl
  | cons e m ih =>
    obtain ⟨j, v⟩ := e
    by_cases hj : j = k
    · subst hj
      cases hp : p j <;> simp [Map.find, hp]
    · cases hp : p j <;> simp [Map.find, hp, hj, ih]

/-- Every port that one state has another has with the same GEN. -/
def State.KeepsGens (s r : State) : Prop :=
  ∀ key q, s.task.ports.find key = some q → ∃ q', r.task.ports.find key = some q' ∧ q'.gen = q.gen

theorem State.KeepsGens.refl (s : State) : s.KeepsGens s := fun _ q h => ⟨q, h, rfl⟩

theorem State.KeepsGens.trans {s r t : State} (h : s.KeepsGens r) (k : r.KeepsGens t) : s.KeepsGens t := fun key q hq => by
  obtain ⟨q', hq', hg'⟩ := h key q hq
  obtain ⟨q'', hq'', hg''⟩ := k key q' hq'
  exact ⟨q'', hq'', hg''.trans hg'⟩

theorem State.endSenders_keepsGens (s : State) (p : Nat) : s.KeepsGens (s.endSenders p) := by
  unfold State.endSenders
  cases hp : s.task.ports.find p with
  | none => exact .refl s
  | some x =>
    intro key q hq
    change ∃ q', (s.task.ports.put p { x with sendq := [] }).find key = some q' ∧ _
    rw [Map.find_put]
    by_cases hk : p = key
    · subst hk
      rw [hp] at hq
      obtain rfl := Option.some.inj hq
      exact ⟨_, if_pos rfl, rfl⟩
    · exact ⟨q, (if_neg hk).trans hq, rfl⟩

theorem State.endSenders_pkg (s : State) (p : Nat) : (s.endSenders p).pkg = s.pkg := by
  unfold State.endSenders
  split <;> rfl

section
variable (s : State) (d : Nat)

theorem State.clearDie_pkg : (s.clearDie d).pkg = (s.modDie d fun k => { k with tdBase := k.cycle }).pkg := by
  have hp : ((s.task.ports.filter fun e => e.1 / 10240 == d).foldl (fun (s : State) e => s.endSenders e.1) s).pkg = s.pkg :=
    List.foldlRecOn (motive := fun r : State => r.pkg = s.pkg) _ _ rfl fun r hr e _ => (r.endSenders_pkg e.1).trans hr
  exact congrArg (fun p : Pkg => { p with dies := modNth (fun k => { k with tdBase := k.cycle }) p.dies d }) hp

theorem State.clearDie_port {key : Nat} {q : Port} (hq : s.task.ports.find key = some q) (hk : key / 10240 = d) :
    (s.clearDie d).task.ports.find key = some { Port.reset with gen := q.gen } := by
  obtain ⟨q', hq', hg⟩ := foldl_rel State.KeepsGens State.KeepsGens.refl State.KeepsGens.trans
    (fun (s : State) (e : Nat × Port) => s.endSenders e.1) (fun s e => s.endSenders_keepsGens e.1)
    (s.task.ports.filter fun e => e.1 / 10240 == d) s key q hq
  refine (Map.find_mapIf _ (fun k => k / 10240 == d) (fun v : Port => { Port.reset with gen := v.gen }) key).trans ?_
  rw [← hg]
  exact (congrArg (Option.map _) hq').trans (congrArg some (if_pos (beq_iff_eq.2 hk)))

theorem State.clearDie_scr {a : Nat} (ha : dieOf (a / 2 ^ 19) = d) : (s.clearDie d).mem.scr.find a = none := by
  refine Map.find_eq_none fun e he hea => ?_
  exact bne_iff_ne.1 (List.mem_filter.1 he).2 (by rw [hea, ha])

end

/-- A mask of failed units that is given takes no free choice. -/
theorem failedUnits_given (b : Nat) (bad : List Nat) (i n : Nat) (s : State) : failedUnits (b :: bad) i n s = ((b :: bad).getD i 0, s) := rfl

/-- A die after RESET, with the units that passed its self-test. -/
def State.rebuilt (s : State) (d clu slc chn nor : Nat) : Die :=
  let k := s.pkg.die d
  { k.withUnits s.plat.power.record d clu slc (chn ||| offMask (s.plat.health.chans.map fun e => (e.1, e.2.sp)) d) nor with
    resets := sat16 k.resets, tdBase := k.cycle }

/-- RESET clears the die and gives it its units; what else it does changes neither dies, memory nor tasks. It ends well where a cluster is left. -/
theorem State.exec_dieReset {s : State} {c : Drctl} (h : s.drNow 4 = some c) (hlen : c.die < s.pkg.dies.length) (clu slc chn nor : Nat) :
    ∃ x : State, x.pkg.die c.die = s.rebuilt c.die clu slc chn nor ∧ c.die < x.pkg.dies.length ∧ x.mem = (s.clearDie c.die).mem ∧
      x.task = (s.clearDie c.die).task ∧ exec (.dieReset [clu, slc, chn, nor]) s =
        .next (if (x.pkg.die c.die).umclu = 0 then x.loseDie c.die else x.stepOk c 4) := by
  obtain ⟨x, hx, he⟩ : ∃ x, ((s.clearDie c.die).modDie c.die fun k =>
        { k.withUnits s.plat.power.record c.die clu slc (chn ||| offMask (s.plat.health.chans.map fun e => (e.1, e.2.sp)) c.die) nor with
          resets := sat16 k.resets }).SameDies x ∧
      exec (.dieReset [clu, slc, chn, nor]) s = .next (if (x.pkg.die c.die).umclu = 0 then x.loseDie c.die else x.stepOk c 4) := by
    refine ⟨?x, ?same, ?eq⟩
    case eq =>
      change execDieReset [clu, slc, chn, nor] s = _
      simp only [execDieReset, h, failedUnits_given, List.getD_cons_zero, List.getD_cons_succ]
      rfl
    case same =>
      refine .trans ?_ (foldl_sameDies (fun r k => r.modLink_sameDies k _) _ _)
      refine .trans ?_ (foldl_sameDies State.portDisable_sameDies _ _)
      exact ⟨rfl, rfl, rfl⟩
  have hl : c.die < (s.clearDie c.die).pkg.dies.length := by
    rw [State.clearDie_pkg, State.modDie_dies_length]
    exact hlen
  refine ⟨x, ?_, ?_, hx.mem, hx.task, he⟩
  · rw [hx.pkg, State.die_modDie hl, State.clearDie_pkg, State.die_modDie hlen]
    rfl
  · rw [hx.pkg, State.modDie_dies_length]
    exact hl

/-! Windows (R72, R73). -/

theorem State.parkWindowExpiry_picks {s : State} (h : s.parksOver ≠ []) :
    s.Picks .parkWindowExpiry s.parksOver fun x r => match r.heldThread x with
      | some u => (match x.who with
        | .req id => (r.onCore fun k => { k with reqs := k.reqs.filter fun q => q.id != id }).sweepHeld
        | _ => r).unwindTo u (r.heldRegion u x) 0x0C x.va
      | none => r :=
  State.picks_of_cons h fun c cs hl => by
    change execParkWindowExpiry s = _
    simp only [execParkWindowExpiry, hl] <;> rfl

theorem State.heldPublicationExpiry_picks {s : State} (h : s.pubsOver ≠ []) :
    s.Picks .heldPublicationExpiry s.pubsOver fun x r => match x.who with
      | .pub u => r.expirePub u x.die x.va
      | _ => r :=
  State.picks_of_cons h fun c cs hl => by
    change execHeldPublicationExpiry s = _
    simp only [execHeldPublicationExpiry, hl] <;> rfl

/-- Settles O47: each event of a link or step of a warm reset is an equation for what it does (`exec_…`), read off at the link or die it is for;
RESET's loops over ports and links change neither dies, memory nor tasks (`State.SameDies`). -/
theorem linksAndWarmResetFollowTheirSteps : Obligations.LinksAndWarmResetFollowTheirSteps := by
  unfold Obligations.LinksAndWarmResetFollowTheirSteps
  intro s link up1
  refine ⟨fun k hk => ?_, fun d => State.exec_dieLost, fun c hc => ?_,
    State.exec_admitDie_none, State.parkWindowExpiry_picks, State.heldPublicationExpiry_picks⟩
  · refine ⟨⟨_, State.exec_dieLinkDown hk, (State.linkAt_modLink ..).trans (if_pos rfl)⟩, State.exec_flitReplay_up hk,
      State.exec_flitReplay_down, fun hl => ⟨?_, fun ho hd => ?_⟩⟩
    · obtain ⟨w, he⟩ := State.exec_dieLinkRetrainDone hk hl true
      exact ⟨_, he, State.trained_end s k 2 w⟩
    · obtain ⟨w, he⟩ := State.exec_dieLinkRetrainDone hk hl false
      exact ⟨_, he.trans (congrArg _ (if_neg (by simp [ho, hd]))), State.trained_end s k 0 w⟩
  · refine ⟨fun n => ?_, fun h => ?_, fun h => ?_, fun h ha => ?_, fun h clu slc chn nor hne => ?_, fun h bad => ?_, fun h => ?_⟩
    · dsimp only
      rw [State.stepOk_die hc, State.stepOk_links]
      exact ⟨rfl, rfl, rfl⟩
    · have he := State.exec_quiesce h
      exact ⟨fun hq => he.trans (congrArg _ (if_pos hq)), fun hq => he.trans (congrArg _ (if_neg (by rw [hq]; exact Bool.false_ne_true)))⟩
    · refine ⟨State.exec_dieClean_busy h, fun hb => ⟨fun hl => ?_, State.exec_dieClean_snoops h hb⟩⟩
      have he := State.exec_dieClean_drops h hb hl
      exact ⟨fun hd => he.trans (congrArg _ (if_pos hd)), fun hd => he.trans (congrArg _ (if_neg hd))⟩
    · refine ⟨_, State.exec_selfref h ha, ?_⟩
      dsimp only
      rw [State.stepOk_die hc]
      exact ⟨rfl, rfl⟩
    · obtain ⟨x, hd, hx, hm, ht, he⟩ := State.exec_dieReset h hc clu slc chn nor
      refine ⟨_, he.trans (congrArg _ (if_neg (by rw [hd]; exact hne))), ?_⟩
      dsimp only
      rw [State.stepOk_die hx, hd, State.stepOk_task, ht, State.stepOk_mem, hm]
      exact ⟨rfl, rfl, rfl, rfl, rfl, rfl, rfl, fun _ _ => State.clearDie_port s c.die, fun _ => State.clearDie_scr s c.die⟩
    · exact State.exec_dieRetrain_ends h hc bad
    · have he := State.exec_admitDie h
      exact ⟨fun hd => he.trans (congrArg _ (if_pos hd)), fun hd => he.trans (congrArg _ (if_neg (by rw [hd]; exact Bool.false_ne_true)))⟩

end Sys2Proof.Machine
end

section
-- One thread elaborates: check.sh limits memory, and counts a stack for each thread that waits.
set_option Elab.async false

namespace Sys2Proof.Machine

/-! O48: flits and the messages of membership (spec/04 R81 to R83, R97 to R104). -/

/-! What sending leaves alone. -/

/-- What a module has received is the same in two states: its view, the flits passed on, and the SEQ that each port expects. -/
structure State.KeepsReceived (s r : State) : Prop where
  view : r.plat.nor.view = s.plat.nor.view
  inq  : r.plat.nor.inq = s.plat.nor.inq
  exp  : ∀ p, (r.portAt p).exp = (s.portAt p).exp

/-- Flits are held, sent, acknowledged: no core, no element of a queue register and no port's STATE changes, and nothing received. -/
structure State.Sends (s r : State) : Prop extends s.KeepsReceived r where
  core  : r.core = s.core
  elems : r.ext.pushes = s.ext.pushes ∧ r.ext.pops = s.ext.pops ∧ r.ext.placed = s.ext.placed
  state : ∀ p, (r.portAt p).state = (s.portAt p).state

@[simp] theorem State.portAt_modPort (s : State) (p q : Nat) (f : NPort → NPort) :
    (s.modPort p f).portAt q = if p = q then f (s.portAt p) else s.portAt q := Map.getD_modD ..

theorem State.portAt_modPort_self (s : State) (p : Nat) (f : NPort → NPort) : (s.modPort p f).portAt p = f (s.portAt p) :=
  (s.portAt_modPort p p f).trans (if_pos rfl)

section
variable {s r t : State}

theorem State.KeepsReceived.refl (s : State) : s.KeepsReceived s := ⟨rfl, rfl, fun _ => rfl⟩

theorem State.KeepsReceived.trans (h : s.KeepsReceived r) (k : r.KeepsReceived t) : s.KeepsReceived t :=
  ⟨k.view.trans h.view, k.inq.trans h.inq, fun p => (k.exp p).trans (h.exp p)⟩

theorem State.Sends.refl (s : State) : s.Sends s := ⟨.refl s, rfl, ⟨rfl, rfl, rfl⟩, fun _ => rfl⟩

theorem State.Sends.trans (h : s.Sends r) (k : r.Sends t) : s.Sends t :=
  ⟨h.toKeepsReceived.trans k.toKeepsReceived, k.core.trans h.core,
    ⟨k.elems.1.trans h.elems.1, k.elems.2.1.trans h.elems.2.1, k.elems.2.2.trans h.elems.2.2⟩, fun p => (k.state p).trans (h.state p)⟩

theorem State.Draws.sends (h : s.Draws r) : s.Sends r := by
  obtain ⟨_, rfl⟩ := h
  exact ⟨⟨rfl, rfl, fun _ => rfl⟩, rfl, ⟨rfl, rfl, rfl⟩, fun _ => rfl⟩

theorem State.emit_sends (s : State) (o : Machine.Out) : s.Sends (s.emit o) :=
  ⟨⟨rfl, rfl, fun _ => rfl⟩, rfl, ⟨rfl, rfl, rfl⟩, fun _ => rfl⟩

theorem State.modPort_keepsReceived (s : State) (p : Nat) {f : NPort → NPort} (hf : ∀ q, (f q).exp = q.exp) :
    s.KeepsReceived (s.modPort p f) := by
  refine ⟨rfl, rfl, fun q => ?_⟩
  rw [State.portAt_modPort]
  split
  · next h => rw [hf, h]
  · rfl

theorem State.modPort_sends (s : State) (p : Nat) {f : NPort → NPort} (he : ∀ q, (f q).exp = q.exp) (hs : ∀ q, (f q).state = q.state) :
    s.Sends (s.modPort p f) := by
  refine ⟨s.modPort_keepsReceived p he, rfl, ⟨rfl, rfl, rfl⟩, fun q => ?_⟩
  rw [State.portAt_modPort]
  split
  · next h => rw [hs, h]
  · rfl

theorem foldl_sends {α : Type} {f : State → α → State} (h : ∀ s a, State.Sends s (f s a)) (l : List α) (s : State) : s.Sends (l.foldl f s) :=
  foldl_rel State.Sends State.Sends.refl State.Sends.trans f h l s

theorem freeBytes_draws (n : Nat) (s : State) : s.Draws (freeBytes n s).2 := by
  induction n generalizing s with
  | zero => exact .refl s
  | succ n ih => exact (choose_draws 256 s).trans (ih _)

theorem State.putFlit_plat (s : State) (p : Nat) (e : Nat × NFlit) : (s.putFlit p e).plat = s.plat := (choose_draws 16 s).plat

theorem State.putFlit_sends (s : State) (p : Nat) (e : Nat × NFlit) : s.Sends (s.putFlit p e) :=
  (choose_draws 16 s).sends.trans (State.emit_sends _ _)

theorem State.putFlits_plat (p : Nat) (l : List (Nat × NFlit)) (s : State) :
    (l.foldl (fun (s : State) e => s.putFlit p e) s).plat = s.plat :=
  List.foldlRecOn (motive := fun r : State => r.plat = s.plat) _ _ rfl fun r hr e _ => (r.putFlit_plat p e).trans hr

theorem State.pump_sends (s : State) (p : Nat) : s.Sends (s.pump p) := by
  unfold State.pump
  split
  · exact (s.modPort_sends p (fun _ => by rfl) fun _ => by rfl).trans (foldl_sends (fun r e => r.putFlit_sends p e) _ _)
  · exact .refl s

theorem State.replay_sends (s : State) (p n : Nat) : s.Sends (s.replay p n) :=
  (s.modPort_sends p (fun _ => by rfl) fun _ => by rfl).trans (foldl_sends (fun r e => r.putFlit_sends p e) _ _)

/-- A replay of all that a port holds counts its flits (R83). -/
theorem State.portAt_replay (s : State) (p : Nat) : (s.replay p 0).portAt p =
    { s.portAt p with retry := min ((s.portAt p).retry + (s.portAt p).sent.length) 0xFFFF } :=
  (congrArg (fun k : Plat => k.nor.ports.getD NPort.reset p) (State.putFlits_plat p _ _)).trans (State.portAt_modPort_self ..)

theorem State.post_sends (s : State) (f : NFlit) : s.Sends (s.post f) := by
  unfold State.post
  dsimp only
  generalize (if (s.routes f.dst s.portUp).isEmpty then s.routes f.dst fun p => !s.portOff p else s.routes f.dst s.portUp) = l
  have hc := (chooseFrom_draws l 48 s).sends
  split
  · exact hc.trans ((State.modPort_sends _ _ (fun _ => by rfl) fun _ => by rfl).trans (State.pump_sends ..))
  · exact hc

theorem State.sendMsg_sends (s : State) (kind num : Nat) (set : List Nat) (m : Nat) : s.Sends (s.sendMsg kind num set m) := by
  have h := (freeBytes_draws 240 s).sends
  unfold State.sendMsg
  generalize freeBytes 240 s = x at h
  exact h.trans (State.post_sends ..)

theorem State.tell_sends (s : State) (kind num : Nat) (to_ set : List Nat) : s.Sends (s.tell kind num to_ set) :=
  foldl_sends (fun r m => r.sendMsg_sends kind num set m) _ _

theorem State.ackFlit_sends (s : State) (p : Nat) (x : FlitInfo) : s.Sends (s.ackFlit p x) := by
  have h := (freeBytes_draws 240 s).sends
  unfold State.ackFlit
  generalize freeBytes 240 s = x at h
  exact h.trans ((State.modPort_sends _ p (fun _ => by rfl) fun _ => by rfl).trans (State.pump_sends _ p))

theorem State.expects_sends (s : State) (p : Nat) : s.Sends (s.expects p) := s.ackFlit_sends p _

theorem State.dropFlit_sends (s : State) (p : Nat) : s.Sends (s.dropFlit p) :=
  (chooseBool_draws s).sends.trans ((State.modPort_sends _ p (fun _ => by rfl) fun _ => by rfl).trans (State.expects_sends _ p))

theorem State.acked_sends (s : State) (p ack crd : Nat) : s.Sends (s.acked p ack crd) :=
  (s.modPort_sends p (fun _ => by rfl) fun _ => by rfl).trans (State.pump_sends _ p)

theorem State.ackGood_sends (s : State) (p : Nat) : s.Sends (s.ackGood p) := by
  unfold State.ackGood
  split
  · dsimp only
    split
    · exact (chooseBool_draws s).sends.trans (State.ackFlit_sends ..)
    · exact (chooseBool_draws s).sends
  · exact .refl s

/-- A replay may take the port down, and leaves alone what is received (R83). -/
theorem State.nacked_keepsReceived (s : State) (p num : Nat) : s.KeepsReceived (s.nacked p num) := by
  unfold State.nacked
  extract_lets q
  split
  · exact .refl s
  · split
    · exact s.modPort_keepsReceived p fun _ => rfl
    · split
      · exact s.modPort_keepsReceived p fun _ => rfl
      · exact (s.modPort_keepsReceived p fun _ => by rfl).trans (State.replay_sends _ p 0).toKeepsReceived

end

/-! The flit that is received (R81, R83). -/

section
variable {s : State} {p : Nat} {f : RxFlit}

theorem State.portUp_state (h : s.portUp p = true) : (s.portAt p).state = 2 := by
  simp only [State.portUp, Bool.and_eq_true, beq_iff_eq] at h
  exact h.1

theorem State.exec_flit_bad (hp : p < 48) (hu : s.portUp p = true) (hb : flitOk f.bytes = false) :
    exec (.noranoFlitReceive p f) s = .next (s.dropFlit p) := by
  change execNoranoFlitReceive p f s = _
  simp only [execNoranoFlitReceive, Nat.not_le.2 hp, hu, hb, decide_false, Bool.not_true, Bool.or_self, Bool.false_eq_true, Bool.not_false,
    if_false, if_true]

theorem State.exec_flit_outOfOrder (hp : p < 48) (hu : s.portUp p = true) (ho : flitOk f.bytes = true)
    (hn : bitsOf (fieldOf f.bytes 0 8) 15 4 ≠ (s.portAt p).exp) : exec (.noranoFlitReceive p f) s = .next (s.expects p) := by
  change execNoranoFlitReceive p f s = _
  simp only [execNoranoFlitReceive, Nat.not_le.2 hp, hu, ho, bne_iff_ne.2 hn, decide_false, Bool.not_true, Bool.or_self, Bool.false_eq_true,
    if_false, if_true]

/-- A port has taken a good flit in sequence: its acknowledgements and credits, its request for a replay, and its own acknowledgement. -/
def State.tookFlit (s : State) (p : Nat) (f : RxFlit) : State :=
  let h := fieldOf f.bytes 0 8
  let s := (s.modPort p fun q => { q with exp := (q.exp + 1) % 4096 }).acked p (bitsOf h 27 16) (bitsOf h 53 50)
  (if h % 16 = 4 && f.x.kind = 14 then s.nacked p f.x.num else s).ackGood p

/-- Taking a flit moves the SEQ expected on by one, and changes nothing else that is received. -/
theorem State.tookFlit_keepsReceived (s : State) (p : Nat) (f : RxFlit) :
    (s.modPort p fun q => { q with exp := (q.exp + 1) % 4096 }).KeepsReceived (s.tookFlit p f) := by
  unfold State.tookFlit
  extract_lets h r
  have hr : (s.modPort p fun q => { q with exp := (q.exp + 1) % 4096 }).KeepsReceived r := (State.acked_sends ..).toKeepsReceived
  refine .trans ?_ (State.ackGood_sends _ p).toKeepsReceived
  split
  · exact hr.trans (r.nacked_keepsReceived p _)
  · exact hr

theorem State.heardFrom_keepsFlits (s : State) (m : Nat) :
    (s.heardFrom m).plat.nor.inq = s.plat.nor.inq ∧ (s.heardFrom m).portAt = s.portAt := by
  unfold State.heardFrom
  split <;> exact ⟨rfl, rfl⟩

theorem State.exec_flit_good (hp : p < 48) (hu : s.portUp p = true) (ho : flitOk f.bytes = true)
    (he : bitsOf (fieldOf f.bytes 0 8) 15 4 = (s.portAt p).exp) : exec (.noranoFlitReceive p f) s =
      let h := fieldOf f.bytes 0 8
      let r := s.tookFlit p f
      .next (if bitsOf h 38 28 != r.plat.nor.view.self_ then r
        else match h % 16 with
          | 1 => (r.heardFrom (bitsOf h 49 39)).onNor fun n => { n with inq := n.inq ++ [dataFlit (bitsOf h 49 39) f.bytes f.x] }
          | 3 => (r.heardFrom (bitsOf h 49 39)).control (bitsOf h 49 39) f.x
          | _ => r.heardFrom (bitsOf h 49 39)) := by
  change execNoranoFlitReceive p f s = _
  simp only [execNoranoFlitReceive, Nat.not_le.2 hp, hu, ho, he, bne_self_eq_false, decide_false, Bool.not_true, Bool.or_self,
    Bool.false_eq_true, if_false] <;> rfl

/-- A good flit in sequence that is no control message: the port expects the next, and a data flit for this module is passed on. -/
theorem State.flit_good_leads (hp : p < 48) (hu : s.portUp p = true) (ho : flitOk f.bytes = true)
    (he : bitsOf (fieldOf f.bytes 0 8) 15 4 = (s.portAt p).exp) (hc : fieldOf f.bytes 0 8 % 16 ≠ 3) :
    s.Leads (.noranoFlitReceive p f) fun r => (r.portAt p).exp = ((s.portAt p).exp + 1) % 4096 ∧
      (fieldOf f.bytes 0 8 % 16 = 1 → r.plat.nor.inq = if bitsOf (fieldOf f.bytes 0 8) 38 28 = s.view.self_
        then s.plat.nor.inq ++ [dataFlit (bitsOf (fieldOf f.bytes 0 8) 49 39) f.bytes f.x] else s.plat.nor.inq) := by
  refine ⟨_, State.exec_flit_good hp hu ho he, ?_⟩
  obtain ⟨hview, hinq, hexp⟩ := s.tookFlit_keepsReceived p f
  have hexp : ((s.tookFlit p f).portAt p).exp = ((s.portAt p).exp + 1) % 4096 := by
    rw [hexp, State.portAt_modPort_self]
  have hself : (s.tookFlit p f).plat.nor.view.self_ = s.view.self_ := congrArg View.self_ hview
  obtain ⟨hi, ha⟩ := (s.tookFlit p f).heardFrom_keepsFlits (bitsOf (fieldOf f.bytes 0 8) 49 39)
  rw [hself]
  by_cases hd : bitsOf (fieldOf f.bytes 0 8) 38 28 = s.view.self_
  · rw [if_neg (by simp [hd]), if_pos hd]
    split
    · exact ⟨(congrArg NPort.exp (congrFun ha p)).trans hexp, fun _ => congrArg (· ++ _) (hi.trans hinq)⟩
    · next h3 => exact absurd h3 hc
    · next h1 _ => exact ⟨(congrArg NPort.exp (congrFun ha p)).trans hexp, fun h => absurd h h1⟩
  · rw [if_pos (bne_iff_ne.2 hd), if_neg hd]
    exact ⟨hexp, fun _ => hinq⟩

end

/-! Ports (R22, R83). -/

section
variable {s : State} {p : Nat}

theorem State.exec_portDown (hp : p < 48) (ho : s.portOff p = false) (hs : (s.portAt p).state ≤ 2) : exec (.noranoPortDown p) s =
    .next ((s.portDrop p).modPort p fun q => { q with state := if (s.portAt p).state = 0 then 1 else 0 }) := by
  change execNoranoPortDown p s = _
  simp only [execNoranoPortDown, hp, ho, hs, decide_true, Bool.and_self, Bool.not_false, if_true]

/-- A port that is disabled has STATE 4; its traffic goes over others. -/
theorem State.portDisable_state (s : State) (p : Nat) : ((s.portDisable p).portAt p).state = 4 :=
  ((foldl_sends State.post_sends _ _).state p).trans (congrArg NPort.state (State.portAt_modPort_self ..))

/-- The lanes over which a port trains to a width: those that passed the boot self-test (R19). -/
def State.trainedLanes (s : State) (p : Nat) (w : PortTrained) : Nat :=
  (if w.width = 4 then 15 else if w.width = 2 then 3 else if w.width = 1 then 1 else 0) &&&
    bitsOf (s.plat.power.lanes.getD (p / 12) 0) (4 * (p % 12) + 3) (4 * (p % 12))

theorem State.portRetrain_leads (hp : p < 48) (ho : s.portOff p = false) (hs : (s.portAt p).state ≤ 1) (w : PortTrained) :
    s.Leads (.noranoPortRetrain p w) fun r => (r.portAt p).state = if s.trainedLanes p w = 0 then 4 else 2 := by
  refine ⟨_, congrArg Host.Outcome.next (if_pos (by simp only [hp, ho, hs, decide_true, Bool.and_self, Bool.not_false])), ?_⟩
  change (State.portAt (ite (s.trainedLanes p w = 0) _ _) p).state = _
  split
  · exact State.portDisable_state ..
  · refine ((State.pump_sends _ p).state p).trans (((State.replay_sends _ p 0).state p).trans ?_)
    exact congrArg NPort.state (State.portAt_modPort_self ..)

/-- The partner asks for the oldest flit again: the sender replays, or the 32nd failure takes the port down. -/
theorem State.nacked_oldest {num : Nat} (hu : s.portUp p = true) (hn : (s.portAt p).sent.head?.map (·.1) = some num)
    (hk : (s.portAt p).skip = 0) :
    (32 ≤ (s.portAt p).tries → ((s.nacked p num).portAt p).state = 0) ∧
    ((s.portAt p).tries < 32 → ((s.nacked p num).portAt p).state = 2 ∧ ((s.nacked p num).portAt p).tries = (s.portAt p).tries + 1 ∧
      ((s.nacked p num).portAt p).retry = min ((s.portAt p).retry + (s.portAt p).sent.length) 0xFFFF) := by
  have he : s.nacked p num = if 32 ≤ (s.portAt p).tries then s.portDrop p
      else (s.modPort p fun q => { q with tries := q.tries + 1, skip := q.sent.length - 1 }).replay p 0 := by
    simp only [State.nacked, hn, hk, bne_self_eq_false, Bool.false_eq_true, Nat.lt_irrefl, if_false]
  refine ⟨fun h => ?_, fun h => ?_⟩
  · rw [he, if_pos h, State.portDrop, State.portAt_modPort_self]
  · rw [he, if_neg (Nat.not_le.2 h), State.portAt_replay, State.portAt_modPort_self]
    exact ⟨State.portUp_state hu, rfl, rfl⟩

end

/-! Detection and agreement (R97 to R104). -/

section
variable {s : State} {m num : Nat} {set : List Nat}

theorem State.heardFrom_view (s : State) (m : Nat) : ∃ h, (s.heardFrom m).view = { s.view with heard := h } := by
  unfold State.heardFrom
  split
  · exact ⟨_, rfl⟩
  · exact ⟨_, rfl⟩

theorem State.exec_leaveNotice (s : State) (m : Nat) :
    exec (.leaveNotice m) s = .next ((if s.donorIs m then s.rejoinFail else s).suspect [m] true) := rfl

/-- A member is in STATE 3 once it has accepted a proposal (R99). -/
theorem State.acceptProposal_view (h : s.view.member = true) : (s.acceptProposal m num set).view.state = 3 ∧
    (s.acceptProposal m num set).view.prop = some ⟨num, set, m, [], []⟩ := by
  have hv : (s.acceptProposal m num set).view =
      { s.view with prop := some ⟨num, set, m, [], []⟩, agrAt := s.viewNow, state := if s.view.member then 3 else s.view.state } :=
    (State.tell_sends ..).view
  rw [hv, if_pos h]
  exact ⟨rfl, rfl⟩

/-- A member that is neither forming a view nor rejoining answers a proposal that names it: it accepts what it takes, else it tells its suspects. -/
theorem State.exec_viewProposal (hset : setUnion [] set = set) (hself : s.view.self_ ∈ set) (hf : s.view.forming = none)
    (hr : s.view.rejoin = none) (hm : s.view.member = true) : exec (.viewProposal m num set) s =
      .next (if s.view.takes m num set then (s.heardFrom m).acceptProposal m num set
        else (s.heardFrom m).tell 2 s.view.num [m] s.view.suspects) := by
  change execViewProposal m num set s = _
  simp only [execViewProposal, hset, List.contains_iff_mem.2 hself, hf, hr, hm, Bool.not_true, Bool.false_eq_true, if_false]

/-- The proposer takes an acknowledgement of its proposal (R99). -/
theorem State.exec_proposalAck {fixed : List Nat} {p : Proposal} (hp : s.view.prop = some p) (hf : p.from_ = s.view.self_)
    (hn : p.num = num) (hm : m ∈ p.set) : exec (.proposalAck m num fixed) s = .next ((s.heardFrom m).modView fun y =>
      { y with prop := some { p with acks := setIns p.acks m, fixed := setUnion p.fixed fixed } }).commitIf := by
  change execProposalAck m num fixed s = _
  obtain ⟨h, hv⟩ := s.heardFrom_view m
  have hp' : (s.heardFrom m).view.prop = some p := by rw [hv]; exact hp
  have hs' : (s.heardFrom m).view.self_ = s.view.self_ := by rw [hv]
  have hc : (p.from_ == (s.heardFrom m).view.self_ && p.num == num && p.set.contains m) = true := by
    simp only [hs', hf, hn, List.contains_iff_mem.2 hm, beq_self_eq_true, Bool.and_self]
  simp only [execProposalAck, hp', hc, if_true]

theorem State.exec_viewCommit {fixed : List Nat} {p : Proposal} (hset : setUnion [] set = set) (hp : s.view.prop = some p)
    (hf : p.from_ = m) (hn : p.num = num) (hs : p.set = set) : exec (.viewCommit m num set fixed) s =
      .next (if s.view.self_ ∈ set then s.installView num set fixed else s.removed) := by
  change execViewCommit m num set fixed s = _
  simp only [execViewCommit, hset, hp, hf, hn, hs, beq_self_eq_true, Bool.and_self, if_true, State.takeCommit, List.contains_iff_mem]

theorem State.exec_agreementTimeout (h : s.agreeLate = true) : exec .agreementTimeout s = .next (if s.view.state = 4 then s.rejoinFail
    else (s.modView fun y => { y with agrAt := s.viewNow }).suspect s.view.proposer.toList true) := by
  change execAgreementTimeout s = _
  by_cases h4 : s.view.state = 4 <;>
    simp [execAgreementTimeout, h, h4]

theorem State.modView_congr {f g : View → View} (h : f s.view = g s.view) : s.modView f = s.modView g :=
  congrArg (fun v => s.onNor fun n => { n with view := v }) h

/-- A member answers an admission request (R103): refused, or with its view. -/
theorem State.exec_admissionRequest {len : Nat} (hm : s.view.member = true) : exec (.admissionRequest m len) s =
    .next (if s.view.synclen = 0 ∨ s.view.synclen ≠ len ∨ s.view.rejoin ≠ none then s.tell 10 s.view.num [m] []
      else (s.tell 9 s.view.num [m] s.view.members).modView fun y => { y with rejoin := some ⟨0, s.view.syncbase, len, m, true⟩ }) := by
  change execAdmissionRequest m len s = _
  simp only [execAdmissionRequest, hm, Bool.not_true, Bool.false_eq_true, if_false, Bool.or_eq_true, decide_eq_true_eq, bne_iff_ne,
    Option.isSome_iff_ne_none, or_assoc]
  refine congrArg Host.Outcome.next (congrArg (ite _ _) (State.modView_congr ?_))
  rw [show (s.tell 9 s.view.num [m] s.view.members).view = s.view from (State.tell_sends ..).view]

/-- The donor has sent its region, and proposes the view with the rejoiner (R103). -/
theorem State.exec_rejoinCopyDone_donor {r : Rejoin} (hr : s.view.rejoin = some r) (hd : r.donor = true) (hm : s.view.member = true) :
    exec .rejoinCopyDone s = .next ((((s.physRead r.va r.len).2.emit (.bytes (s.physRead r.va r.len).1)).modView fun y =>
      { y with rejoin := none }).propose (s.view.num + 1) (setIns s.view.members r.peer)) := by
  change execRejoinCopyDone s = _
  simp only [execRejoinCopyDone, hr, hd, if_true]
  exact congrArg _ (if_pos hm)

/-- The rejoiner's buffer is filled, or the copy fails (R103). -/
theorem State.exec_rejoinCopyDone_rejoiner {r : Rejoin} (hr : s.view.rejoin = some r) (hd : r.donor = false) (h4 : s.view.state = 4)
    (hl : r.len ≠ 0) : exec .rejoinCopyDone s = .next (match s.rejoinCopy r with
      | some t => t.modView fun y => { y with rejoin := some { r with len := 0 }, agrAt := t.viewNow }
      | none => s.rejoinFail) := by
  change execRejoinCopyDone s = _
  simp only [execRejoinCopyDone, hr, hd, h4, beq_eq_false_iff_ne.2 hl, bne_self_eq_false, Bool.or_self, Bool.false_eq_true, if_false] <;> rfl

end

/-- Settles O48: each event is an equation for what it does (`exec_…`); sending changes nothing that is received and no port's STATE
(`State.Sends`), so what the statement says of the ports, of the flits passed on and of the view is read off before the messages. -/
theorem flitsAndMembershipMessagesAct : Obligations.FlitsAndMembershipMessagesAct := by
  unfold Obligations.FlitsAndMembershipMessagesAct
  intro s v
  refine ⟨fun p f hp hu => ⟨fun hb => ?_, fun ho hn => ?_, fun ho he hc => State.flit_good_leads hp hu ho he hc⟩,
    fun p hp ho => ⟨fun hs => ?_, fun hs w => State.portRetrain_leads hp ho hs w⟩, fun hb => congrArg _ (if_pos hb), rfl, fun m hm => ?_,
    fun m hm => ?_, fun p num hu hn hk => State.nacked_oldest hu hn hk, fun m sus => rfl, fun m num set hset hself hf hr hm => ?_,
    fun m num fixed p hp hf hn hm => State.exec_proposalAck hp hf hn hm,
    fun m num set fixed p hset hp hf hn hs => State.exec_viewCommit hset hp hf hn hs, fun h h4 => ?_, fun h h4 => ?_, fun h => ?_,
    fun m len hm => ?_, fun m len hm => ⟨fun h => ?_, fun h0 hl hr => ?_⟩,
    fun r hr => ⟨fun hd hm => State.exec_rejoinCopyDone_donor hr hd hm, fun hd h4 hl => State.exec_rejoinCopyDone_rejoiner hr hd h4 hl⟩⟩
  · have k := s.dropFlit_sends p
    exact ⟨_, State.exec_flit_bad hp hu hb, k.inq, k.exp p, (k.state p).trans (State.portUp_state hu)⟩
  · have k := s.expects_sends p
    exact ⟨_, State.exec_flit_outOfOrder hp hu ho hn, rfl, k.inq, k.exp p⟩
  · exact ⟨_, State.exec_portDown hp ho hs, congrArg NPort.state (State.portAt_modPort_self ..)⟩
  · rw [State.exec_leaveNotice, hm]
    rfl
  · rw [State.exec_leaveNotice, hm]
    rfl
  · have he := State.exec_viewProposal (m := m) (num := num) hset hself hf hr hm
    refine ⟨fun ht => ⟨_, he.trans (congrArg _ (if_pos ht)), rfl, ?_⟩,
      fun ht => he.trans (congrArg _ (if_neg (by rw [ht]; exact Bool.false_ne_true)))⟩
    obtain ⟨h, hv⟩ := s.heardFrom_view m
    exact State.acceptProposal_view (by rw [hv]; exact hm)
  · exact (State.exec_agreementTimeout h).trans (congrArg _ (if_neg h4))
  · exact (State.exec_agreementTimeout h).trans (congrArg _ (if_pos h4))
  · exact congrArg _ (if_pos h)
  · exact congrArg _ (if_pos (by simpa using hm))
  · exact (State.exec_admissionRequest hm).trans (congrArg _ (if_pos h))
  · exact (State.exec_admissionRequest hm).trans (congrArg _ (if_neg (not_or.2 ⟨h0, not_or.2 ⟨not_not.2 hl, not_not.2 hr⟩⟩)))

end Sys2Proof.Machine
end

section
-- One thread elaborates: check.sh limits memory, and counts a stack for each thread that waits.
set_option Elab.async false

namespace Sys2Proof.Machine

/-! O53: groups, waits and what the engines do between instructions (spec/04 R91; spec/08 R170, R183; spec/09 R195 to R197; spec/13 R290;
spec/15 R323, R326). -/

theorem chooseFrom_single {α : Type} (x : α) (s : State) : chooseFrom [x] x s = (x, s) := rfl

/-- A free choice of a list is one of its elements. -/
theorem chooseFrom_mem_cons {α : Type} (c : α) (cs : List α) (s : State) : (chooseFrom (c :: cs) c s).1 ∈ c :: cs := by
  obtain ⟨x, hx, n, e⟩ := exists_chooseFrom_eq c cs s
  rw [e]
  exact hx

/-! The events that carry on with one of several, by a free choice. -/

section
variable {s : State}

theorem State.issueGroupForm_picks (h : s.coresReady.map (fun c => (true, c)) ++ s.newCrews.map (fun c => (false, c)) ≠ []) :
    s.Picks .issueGroupForm (s.coresReady.map (fun c => (true, c)) ++ s.newCrews.map fun c => (false, c)) fun x r =>
      if x.1 then r.formGroup x.2 else r.firstFetches x.2 :=
  State.picks_of_cons h fun c cs hl => by
    change execIssueGroupForm s = _
    simp only [execIssueGroupForm, hl]

theorem State.pollRecheck_picks (h : s.wakeable ≠ []) : s.Picks .pollRecheck s.wakeable fun x r => r.endWait x.1 x.2 :=
  State.picks_of_cons h fun c cs hl => by
    change execPollRecheck s = _
    simp only [execPollRecheck, hl]

theorem State.portUnitEvent_picks (h : s.portClusters ≠ []) : s.Picks .portUnitEvent s.portClusters fun k r => r.portEvent k :=
  State.picks_of_cons h fun c cs hl => by
    change execPortUnitEvent s = _
    simp only [execPortUnitEvent, hl]

theorem State.containmentUnwind_picks (h : s.unwindsDue ≠ []) : s.Picks .containmentUnwind s.unwindsDue fun u r => r.takeRegion u :=
  State.picks_of_cons h fun c cs hl => by
    change execContainmentUnwind s = _
    simp only [execContainmentUnwind, hl]

end

/-! The key that is chosen (R197). -/

section
variable {s : State} {l : List Thread} {t ld : Thread}

/-- A thread that stands before another has waited as long at least (R197). -/
theorem State.age_le_of_older {a b : Thread} (h : s.older a b = true) : s.age b ≤ s.age a := by
  simp only [State.older, Bool.or_eq_true, decide_eq_true_eq, Bool.and_eq_true, beq_iff_eq] at h
  obtain h | ⟨h, -⟩ := h
  · exact Nat.le_of_lt h
  · exact Nat.le_of_eq h.symm

theorem State.age_le_of_not_older {a b : Thread} (h : ¬ s.older a b = true) : s.age a ≤ s.age b := by
  refine Nat.not_lt.1 fun hlt => h ?_
  simp only [State.older, hlt, decide_true, Bool.true_or]

theorem State.oldest_eq_none : s.oldest l = none ↔ l = [] := by
  cases l with
  | nil => exact ⟨fun _ => rfl, fun _ => rfl⟩
  | cons x xs =>
    refine ⟨fun h => ?_, fun h => nomatch h⟩
    unfold State.oldest at h
    split at h
    · cases h
    · split at h <;> cases h

/-- The thread that stands before all others has waited the longest. -/
theorem State.oldest_some (h : s.oldest l = some t) : t ∈ l ∧ ∀ v ∈ l, s.age v ≤ s.age t := by
  induction l generalizing t with
  | nil => cases h
  | cons x xs ih =>
    unfold State.oldest at h
    cases hx : s.oldest xs with
    | none =>
      obtain rfl := State.oldest_eq_none.1 hx
      obtain rfl : x = t := by simpa [hx] using h
      simp
    | some u =>
      obtain ⟨hu, hage⟩ := ih hx
      simp only [hx] at h
      by_cases ho : s.older u x = true
      · obtain rfl : u = t := by simpa [ho] using h
        exact ⟨List.mem_cons_of_mem x hu, List.forall_mem_cons.2 ⟨State.age_le_of_older ho, hage⟩⟩
      · obtain rfl : x = t := by simpa [ho] using h
        exact ⟨List.mem_cons_self, List.forall_mem_cons.2
          ⟨Nat.le_refl _, fun v hv => (hage v hv).trans (State.age_le_of_not_older ho)⟩⟩

theorem le_foldl_max (l : List Nat) (b : Nat) : b ≤ l.foldl Nat.max b ∧ ∀ a ∈ l, a ≤ l.foldl Nat.max b := by
  induction l generalizing b with
  | nil => exact ⟨Nat.le_refl b, fun _ h => nomatch h⟩
  | cons x xs ih =>
    obtain ⟨hb, ha⟩ := ih (Nat.max b x)
    exact ⟨(Nat.le_max_left b x).trans hb, List.forall_mem_cons.2 ⟨(Nat.le_max_right b x).trans hb, ha⟩⟩

theorem State.leader_of_old (h : s.oldest (l.filter fun x => decide (2048 ≤ s.age x)) = some t) : s.leader l = some t := by
  unfold State.leader
  simp only [h]

/-- The key of the highest priority, while no thread has waited 2,048 cycles. -/
theorem State.leader_of_young (h : s.oldest (l.filter fun x => decide (2048 ≤ s.age x)) = none) : s.leader l = s.oldest (l.filter fun x =>
    (l.filter fun y => y.id.prio == (l.map fun y => y.id.prio).foldl Nat.max 0).any (keyEq x)) := by
  unfold State.leader
  simp only [h]

/-- The thread whose key is chosen: one that has waited 2,048 cycles, the longest first; while there is none, one of the key of a thread of the
highest priority (R197). -/
theorem State.leader_some (h : s.leader l = some ld) : ld ∈ l ∧ (∀ v ∈ l, 2048 ≤ s.age v → s.age v ≤ s.age ld) ∧
    ((∀ v ∈ l, s.age v < 2048) → ∃ x ∈ l, keyEq ld x = true ∧ ∀ v ∈ l, v.id.prio ≤ x.id.prio) := by
  cases ho : s.oldest (l.filter fun t => decide (2048 ≤ s.age t)) with
  | some t =>
    obtain rfl : t = ld := Option.some.inj ((State.leader_of_old ho).symm.trans h)
    obtain ⟨hm, hage⟩ := State.oldest_some ho
    obtain ⟨hm, ha⟩ := List.mem_filter.1 hm
    refine ⟨hm, fun v hv hva => hage v (List.mem_filter.2 ⟨hv, decide_eq_true hva⟩), fun hy => ?_⟩
    exact absurd (of_decide_eq_true ha) (Nat.not_le.2 (hy t hm))
  | none =>
    have hy := List.filter_eq_nil_iff.1 (State.oldest_eq_none.1 ho)
    rw [State.leader_of_young ho] at h
    obtain ⟨hm, hbest⟩ := List.mem_filter.1 (State.oldest_some h).1
    refine ⟨hm, fun v hv hva => absurd (decide_eq_true hva) (hy v hv), fun _ => ?_⟩
    obtain ⟨x, hx, hk⟩ := List.any_eq_true.1 hbest
    obtain ⟨hx, hp⟩ := List.mem_filter.1 hx
    refine ⟨x, hx, hk, fun v hv => ?_⟩
    rw [beq_iff_eq.1 hp]
    exact (le_foldl_max _ 0).2 _ (List.mem_map_of_mem hv)

end

/-! A core with one ready thread (R195, R196). -/

section
variable {s : State} {t : Thread} {core : Nat}

theorem keyEq_self (t : Thread) : keyEq t t = true := by
  unfold keyEq
  split <;> simp

theorem State.oldest_single (s : State) (t : Thread) : s.oldest [t] = some t := rfl

theorem State.leader_single (s : State) (t : Thread) : s.leader [t] = some t := by
  have hk : [t].filter (fun x => ([t].filter fun y => y.id.prio == t.id.prio).any (keyEq x)) = [t] := by
    simp [keyEq_self]
  have htop : ([t].map fun y => y.id.prio).foldl Nat.max 0 = t.id.prio := Nat.max_eq_right (Nat.zero_le _)
  cases ho : s.oldest ([t].filter fun x => decide (2048 ≤ s.age x)) with
  | some u =>
    obtain rfl := List.mem_singleton.1 (List.mem_filter.1 (State.oldest_some ho).1).1
    exact State.leader_of_old ho
  | none => rw [State.leader_of_young ho, htop, hk, State.oldest_single]

theorem filterMap_rangeFrom_single {α : Type} (x : α) (j n k : Nat) :
    ((rangeFrom n k).filterMap fun i => if j = i then some x else none) = if n ≤ j ∧ j < n + k then [x] else [] := by
  induction k generalizing n with
  | zero => rw [if_neg (by omega)]; rfl
  | succ k ih =>
    rw [rangeFrom, List.filterMap_cons, ih]
    by_cases h : j = n
    · subst h
      simp
    · rw [if_neg h]
      exact if_congr (by omega) rfl rfl

/-- A thread alone in its key is its whole group, in its lane. -/
theorem State.membersOf_single (s : State) (hl : t.id.lane < 32) : s.membersOf [t] t = [t.uid] := by
  have hkey : [t].filter (keyEq t) = [t] := by simp [keyEq_self]
  have hfirst (k : Nat) : (match ([t].filter (metWith t)).find? fun x => x.id.lane == k with
      | some x => some x
      | none => s.oldest ([t].filter fun x => x.id.lane == k)) = if t.id.lane = k then some t else none := by
    by_cases hk : t.id.lane = k
    · by_cases hm : metWith t t = true
      · simp [hm, hk]
      · simp [hm, hk, State.oldest_single]
    · by_cases hm : metWith t t = true
      · simp [hm, hk, State.oldest]
      · simp [hm, hk, State.oldest]
  unfold State.membersOf
  extract_lets key mine first whole member
  have hf (k : Nat) : first k = if t.id.lane = k then some t else none := by
    refine .trans ?_ (hfirst k)
    simp only [first, mine, key, hkey] <;> rfl
  have hw : whole t = true := by
    simp only [whole, key, hkey, hf, List.all_filter]
    simp
  have hm : (fun k => (member k).map fun t => t.uid) = fun k => if t.id.lane = k then some t.uid else none := by
    funext k
    simp only [member, hf]
    by_cases hk : t.id.lane = k
    · simp [hk, hw]
    · simp [hk]
  rw [hm, filterMap_rangeFrom_single, if_pos (by omega)]

theorem State.fetchAll_none (h : ∀ x ∈ s.core.threads, s.mustFetch x = false) (core : Nat) : s.fetchAll core = s := by
  have : (s.core.threads.filter fun t => t.id.core == core && t.id.csid.isSome && s.mustFetch t) = [] :=
    List.filter_eq_nil_iff.2 fun x hx => by simp [h x hx]
  simp only [State.fetchAll, this, List.map_nil, List.foldl_nil]

theorem State.thread?_uid {u : Nat} (h : s.thread? u = some t) : t.uid = u := by
  have hp := List.find?_some h
  exact beq_iff_eq.1 hp

/-- A thread looked up after a change of every thread that keeps the names. -/
theorem State.thread?_map (s : State) (f : Thread → Thread) (hf : ∀ t, (f t).uid = t.uid) (u : Nat) :
    (s.core.threads.map f).find? (fun t => t.uid == u) = (s.thread? u).map f := by
  rw [List.find?_map, State.thread?]
  congr 2
  funext t
  rw [Function.comp, hf]

theorem State.putGroup_single {u : Nat} (h : s.thread? u = some t) :
    (s.putGroup [u]).core.groups = s.core.groups ++ [⟨t.id.core, t.lvl, t.pos, t.clause, [u], none⟩] ∧
      ((s.putGroup [u]).thread u).run = .grouped := by
  have ht : s.thread u = t := by rw [State.thread, h]; rfl
  have hu : t.uid = u := State.thread?_uid h
  refine ⟨by rw [← ht]; rfl, ?_⟩
  have hm : (s.putGroup [u]).thread? u = (s.thread? u).map fun v =>
      if [u].contains v.uid then { v with run := .grouped, yielded := false, mark := if v.met then none else v.mark } else v :=
    s.thread?_map _ (fun v => by split <;> rfl) u
  rw [State.thread, hm, h, Option.map_some, if_pos (by simp [hu])]
  rfl

/-- A core whose only ready thread has fetched its clause forms its group of that thread. -/
theorem State.formGroup_single (hr : s.readyOn core = [t]) (hf : ∀ x ∈ s.core.threads, s.mustFetch x = false) (hl : t.id.lane < 32) :
    s.formGroup core = s.putGroup [t.uid] := by
  simp only [State.formGroup, State.fetchAll_none hf, hr, State.leader_single, State.membersOf_single s hl]

theorem State.exec_issueGroupForm_one (hc : s.coresReady = [core]) (hn : s.newCrews = []) :
    exec .issueGroupForm s = .next (s.formGroup core) := by
  change execIssueGroupForm s = _
  simp only [execIssueGroupForm, hc, hn, List.map_cons, List.map_nil, List.append_nil, chooseFrom_single, if_true]

end

/-! The verdict on an assay pair (R323). -/

theorem State.crew?_modCrew (s : State) (u v : Nat) (f : Crew → Crew) (hf : ∀ c, (f c).uid = c.uid) :
    (s.modCrew u f).crew? v = if u = v then (s.crew? v).map f else s.crew? v := by
  have hm : (s.modCrew u f).crew? v = (s.crew? v).map fun c => if c.uid == u then f c else c := by
    refine List.find?_map.trans (congrArg (fun p => ((s.core.crews.find? p).map fun c => if c.uid == u then f c else c)) ?_)
    funext c
    rw [Function.comp]
    split
    · rw [hf]
    · rfl
  rw [hm]
  cases hc : s.crew? v with
  | none => simp
  | some c =>
    have hu : c.uid = v := by
      have hp := List.find?_some hc
      exact beq_iff_eq.1 hp
    by_cases h : u = v
    · simp [h, hu]
    · simp [h, hu, Ne.symm h]

/-- Two copies have the verdict of a comparison. -/
def State.judged (s : State) (a b : Nat) (ok : Bool) : State :=
  let set (s : State) (u : Nat) : State := s.modCrew u fun c => { c with assay := { c.assay with verdict := some ok } }
  set (set s a) b

theorem State.judged_verdicts {s : State} {a b : Nat} (ok : Bool) (ha : (s.crew? a).isSome = true) (hb : (s.crew? b).isSome = true) :
    ((s.judged a b ok).crew? a).map (·.assay.verdict) = some (some ok) ∧
    ((s.judged a b ok).crew? b).map (·.assay.verdict) = some (some ok) := by
  obtain ⟨c, hc⟩ := Option.isSome_iff_exists.1 ha
  obtain ⟨d, hd⟩ := Option.isSome_iff_exists.1 hb
  unfold State.judged
  extract_lets set
  have hset (s : State) (u v : Nat) : (set s u).crew? v = if u = v then (s.crew? v).map fun c =>
      { c with assay := { c.assay with verdict := some ok } } else s.crew? v := s.crew?_modCrew u v _ fun _ => rfl
  by_cases h : a = b
  · subst h
    simp [hset, hc]
  · simp [hset, hc, hd, h, Ne.symm h]

/-- The copy that is taken and its twin have the verdict on their tuples. -/
theorem State.exec_assayVerdict {s : State} {c x y : Crew} {cs : List Crew} (hl : s.verdictsDue = c :: cs)
    (hx : (chooseFrom (c :: cs) c s).1 = x) (hp : x.peer = some y.uid) (hy : s.crew? y.uid = some y) :
    exec .assayVerdict s = .next ((chooseFrom (c :: cs) c s).2.judged x.uid y.uid (y.assay.tuple == x.assay.tuple)) := by
  have hy' : (chooseFrom (c :: cs) c s).2.crew? y.uid = some y := by rw [State.crew?, chooseFrom_core]; exact hy
  change execAssayVerdict s = _
  simp only [execAssayVerdict, hl, hx, hp, Option.bind_some, hy'] <;> rfl

/-- Whichever copy of a pair is taken, both have the verdict. -/
theorem State.assayVerdict_leads {s : State} {c p : Crew} (hc : s.verdictsDue.head? = some c) (hall : ∀ x ∈ s.verdictsDue, x = c ∨ x = p)
    (hcp : c.peer = some p.uid) (hpc : p.peer = some c.uid) (hp : s.crew? p.uid = some p) (hcc : s.crew? c.uid = some c) :
    s.Leads .assayVerdict fun r => (r.crew? c.uid).map (·.assay.verdict) = some (some (p.assay.tuple == c.assay.tuple)) ∧
      (r.crew? p.uid).map (·.assay.verdict) = some (some (p.assay.tuple == c.assay.tuple)) := by
  obtain ⟨cs, hl⟩ := List.head?_eq_some_iff.1 hc
  rw [hl] at hall
  have hsame (u : Nat) : (chooseFrom (c :: cs) c s).2.crew? u = s.crew? u := by rw [State.crew?, chooseFrom_core]; rfl
  have hcs : ((chooseFrom (c :: cs) c s).2.crew? c.uid).isSome = true := by rw [hsame, hcc]; rfl
  have hps : ((chooseFrom (c :: cs) c s).2.crew? p.uid).isSome = true := by rw [hsame, hp]; rfl
  obtain hx | hx := hall _ (chooseFrom_mem_cons c cs s)
  · exact ⟨_, State.exec_assayVerdict hl hx hcp hp, State.judged_verdicts _ hcs hps⟩
  · refine ⟨_, State.exec_assayVerdict hl hx hpc hcc, ?_⟩
    rw [show (c.assay.tuple == p.assay.tuple) = (p.assay.tuple == c.assay.tuple) from Bool.beq_comm ..]
    exact (State.judged_verdicts _ hps hcs).symm

/-! The collective engines (R91). -/

section
variable {s : State}

theorem State.exec_dataFlitReceive_flit {f : CFlit} (h : s.collSteps = [(0, 0)]) (hf : s.flitsReady[0]? = some f) :
    exec .dataFlitReceive s = .next ((s.onNor fun n => { n with inq := n.inq.erase f }).takeFlit f) := by
  change execDataFlitReceive s = _
  simp only [execDataFlitReceive, h, chooseFrom_single, hf]

theorem State.exec_dataFlitReceive_op {id : Nat} (h : s.collSteps = [(1, id)]) : exec .dataFlitReceive s = .next (s.collStep id) := by
  change execDataFlitReceive s = _
  simp only [execDataFlitReceive, h, chooseFrom_single]

end

/-! Errors of a register file (R290). -/

/-- A register that becomes POISON; the others keep what they hold. -/
theorem Thread.reg_setReg_poison (t : Thread) (r n : Nat) (v : Word) :
    (t.setReg r ⟨v, .poison⟩).reg n = if r = n then ⟨v, .poison⟩ else t.reg n := by
  have h : (⟨v, .poison⟩ : Reg) ≠ Reg.zero := fun h => nomatch congrArg Reg.tag h
  unfold Thread.reg Thread.setReg Map.setD
  rw [if_neg h, Map.getD_put]

theorem State.registerFileError_leads {s : State} {u r : Nat} {t : Thread} (ht : s.thread? u = some t) (hr : r < s.nregs t) :
    s.Leads (.registerFileError u [r]) fun x => ((x.thread u).reg r).tag = .poison ∧ (∀ n, n ≠ r → (x.thread u).reg n = t.reg n) ∧
      (x.thread u).pos = t.pos := by
  generalize hc : choose (if t.isCtl then 2 ^ 64 else 2 ^ 32) s = c
  have hcore : c.2.core = s.core := by rw [← hc]; exact choose_core _ s
  have hx : (c.2.modThread u fun t => t.setReg r ⟨BitVec.ofNat 64 c.1, .poison⟩).thread u = t.setReg r ⟨BitVec.ofNat 64 c.1, .poison⟩ := by
    rw [State.thread, State.thread?_modThread c.2 u u _ (fun _ => by rfl), if_pos rfl, State.thread?, hcore]
    exact congrArg (fun o => (Option.map _ o).getD _) ht
  refine ⟨c.2.modThread u fun t => t.setReg r ⟨BitVec.ofNat 64 c.1, .poison⟩, ?_, ?_⟩
  · change execRegisterFileError u [r] s = _
    simp only [execRegisterFileError, ht, hr, decide_true, List.filter_cons_of_pos, List.filter_nil, List.foldl_cons, List.foldl_nil, hc]
  · dsimp only
    rw [hx]
    exact ⟨by rw [Thread.reg_setReg_poison, if_pos rfl], fun n hn => by rw [Thread.reg_setReg_poison, if_neg hn.symm], rfl⟩

/-- Settles O53: which of several things happens is a free choice (`…_picks`); a core's one ready thread is its whole group
(`State.formGroup_single`), the leader of a key is the one that `State.oldest` gives (`State.leader_some`), and either copy of a pair gives both
their verdict. -/
theorem groupsFormAndWaitsEnd : Obligations.GroupsFormAndWaitsEnd := by
  unfold Obligations.GroupsFormAndWaitsEnd
  intro s
  refine ⟨State.issueGroupForm_picks, fun core t hr hf ht hl hc hn => ⟨_, State.exec_issueGroupForm_one hc hn, ?_⟩,
    fun l ld h => State.leader_some h, State.pollRecheck_picks, State.portUnitEvent_picks, State.containmentUnwind_picks,
    fun c p hc hall hcp hpc hp hcc _ _ => State.assayVerdict_leads hc hall hcp hpc hp hcc,
    fun f h hf => State.exec_dataFlitReceive_flit h hf, fun id h => State.exec_dataFlitReceive_op h,
    fun u r t ht hr => State.registerFileError_leads ht hr⟩
  rw [State.formGroup_single hr hf hl]
  exact State.putGroup_single ht

end Sys2Proof.Machine
end

section
-- One thread elaborates: check.sh limits memory, and counts a stack for each thread that waits.
set_option Elab.async false

namespace Sys2Proof.Machine

/-! O40: collectives, views, REJOIN (spec/04 R86 to R103; spec/20 R434 to R438). -/

/-! Steady threads: what leaves them so. -/

section
variable {s r t : State} {u : Nat}

theorem State.thread?_of_core (h : t.core = r.core) (v : Nat) : t.thread? v = r.thread? v := by
  rw [State.thread?, h]
  rfl

/-- Neither the threads, their groups nor the elements of queue registers change. -/
theorem State.Steady.of_parts (k : s.Steady u r) (hc : t.core = r.core) (he : t.ext = r.ext) : s.Steady u t := by
  have ht := State.thread?_of_core hc
  refine ⟨by rw [ht]; exact k.there, by rw [hc]; exact k.groups, ⟨by rw [hc]; exact k.calm.threads, by rw [he]; exact k.calm.bare⟩,
    by rw [he]; exact k.elems, ?_⟩
  rw [State.thread, ht]
  exact k.same

theorem State.Steady.modThread (k : s.Steady u r) {φ : Thread → Thread} (hφ : Tame φ)
    (hid : ∀ x, (φ x).id = x.id ∧ (φ x).regs = x.regs ∧ (φ x).pos = x.pos) : s.Steady u (r.modThread u φ) := by
  obtain ⟨h1, h2, h3⟩ := k.same
  refine ⟨?_, k.groups, k.calm.modThread u φ hφ, k.elems, ?_⟩
  · rw [State.thread?_modThread r u u φ hφ.uid, if_pos rfl, Option.isSome_map]
    exact k.there
  · rw [State.thread_modThread r u u φ hφ.uid k.there, if_pos rfl]
    obtain ⟨i1, i2, i3⟩ := hid (r.thread u)
    exact ⟨i1.trans h1, i2.trans h2, i3.trans h3⟩

theorem Thread.setSeen_tame (f : Thread → Seen) : Tame fun x => { x with seen := f x } :=
  ⟨fun _ => rfl, fun _ => rfl, fun _ => rfl, fun _ => rfl⟩

/-- What a thread has seen is no part of its context. -/
theorem State.Steady.setSeen (k : s.Steady u r) (f : Thread → Seen) : s.Steady u (r.modThread u fun x => { x with seen := f x }) :=
  k.modThread (Thread.setSeen_tame f) fun _ => ⟨rfl, rfl, rfl⟩

theorem State.Steady.snapshot (k : s.Steady u r) (sc : Scope) : s.Steady u (r.snapshot u sc) :=
  (k.setSeen _).of_parts rfl rfl

theorem State.Steady.xfence (k : s.Steady u r) (p q : Path) : s.Steady u (r.xfence u p q) := k.setSeen _

/-- The status of a completed operation is taken by a thread that goes on (R435). -/
theorem State.Steady.takeStatus (k : s.Steady u r) (id : Nat) (o : CollOp) : s.Steady u (r.takeStatus u id o) := by
  have hf : s.Steady u (r.freeOp id o) := k.of_parts rfl rfl
  exact ((hf.setSeen _).snapshot .dev).xfence .cl .ls

end

/-! A thread that waits, and one that has waited. -/

section
variable {s r : State} {g : Group} {gd : Guard} {sp : Spec} {u : Nat} {i : Instr} {f : Nat → State → Flow × State}

/-- The thread waits, out of its group; it has pushed nothing and is not being re-issued. -/
structure State.Waits (r : State) (u : Nat) : Prop where
  run     : ∃ w, (r.thread u).run = .waiting w
  reissue : (r.thread u).reissue = false
  out     : r.Out u
  elems   : r.ext.pushes = []

theorem State.wait_there (h : (r.thread? u).isSome = true) (k : WaitKind) (table : Bool) (a b : Nat) :
    ((r.wait u k table a b).thread? u).isSome = true := by
  unfold State.wait
  extract_lets t full w
  rw [State.thread?_modThread _ u u _ fun _ => by rfl, if_pos rfl, Option.isSome_map]
  exact h

theorem State.wait_waits (h : (r.thread? u).isSome = true) (hr : (r.thread u).reissue = false) (hp : r.ext.pushes = []) (k : WaitKind) (table : Bool)
    (a b : Nat) : (r.wait u k table a b).Waits u := by
  unfold State.wait
  extract_lets t full w
  have ht := (r.leave u).thread_modThread u u (fun x => { x with run := .waiting w }) (fun _ => rfl) h
  rw [if_pos rfl] at ht
  exact ⟨⟨w, by rw [ht]⟩, by rw [ht]; exact hr, (r.leave_out u).modThread _ _, hp⟩

theorem State.waitMark_waits (h : (r.thread? u).isSome = true) (hr : (r.thread u).reissue = false) (hp : r.ext.pushes = []) (k : WaitKind)
    (table : Bool) (a b : Nat) : (r.waitMark u k table a b).Waits u := by
  obtain ⟨⟨w, hw⟩, hr, ho, he⟩ := State.wait_waits h hr hp k table a b
  have ht := (r.wait u k table a b).thread_modThread u u (fun x => { x with mark := some 0 }) (fun _ => rfl)
    (State.wait_there h k table a b)
  rw [if_pos rfl] at ht
  exact ⟨⟨w, by rw [State.waitMark, ht]; exact hw⟩, by rw [State.waitMark, ht]; exact hr, ho.modThread _ _, he⟩

/-- An instruction whose thread waits leaves exactly what its meaning does. -/
theorem State.RunsAlone.waits (h : s.RunsAlone g u gd sp) (he : exec i s = .next (s.isa gd sp f)) (hf : f u (s.charge [u]) = (.left, r))
    (k : r.Waits u) : exec i s = .next r := by
  obtain ⟨⟨w, hw⟩, hr, ho, hp⟩ := k
  have ha : r.applyFlow u .left = r := by
    have hl : (Flow.left == Flow.stall || Flow.left == Flow.left) = true := rfl
    simp only [State.applyFlow, hr, hw, hl, Bool.false_and, Bool.false_eq_true, if_false, if_true]
  have hd : ([u].filter fun v => r.inGroup g.core v && !([] : List Nat).contains v) = [] := by
    refine List.filter_eq_nil_iff.2 fun v hv => ?_
    obtain rfl := List.mem_singleton.1 hv
    have : r.inGroup g.core v = false := by
      simp only [State.inGroup, List.any_eq_false, Bool.and_eq_true, List.contains_iff_mem, not_and]
      exact fun x hx _ => ho x hx
    simp [this]
  rw [he, State.isa, State.isaWith, h.isaAll_eq _ (fun _ => f) _ rfl, hf]
  simp only [ha, hd, show (Flow.left == Flow.stall) = false from rfl, Bool.false_eq_true, if_false]
  have k0 : r.Calm [] := ⟨fun _ _ h => absurd h List.not_mem_nil, fun _ h => absurd h List.not_mem_nil⟩
  rw [State.flushPushes_none r _ _ hp k0, State.advance_out h.one _ ho]

/-- What the execution of an instruction asks of a group of one thread, which may have waited at the instruction before (R198, R351). -/
structure State.Takes (s : State) (g : Group) (u : Nat) (gd : Guard) (sp : Spec) : Prop where
  cur      : s.ext.cur = some g
  here     : s.core.groups.find? (fun h => h.core == g.core && h.members.any g.members.contains) = some g
  whole    : g.todo = none
  one      : g.members = [u]
  holds    : (s.thread u).guardOk gd = true
  encoded  : sp.encodingOk (isCtl g.core) (g.clause.length - 2) g.pos.i = true
  clear    : s.conflicts u (sp.reads (s.thread u).isCtl ++ sp.writes (s.thread u).isCtl) = []
  checked  : sp.check s (s.thread u) = none
  shared   : sp.primary = false
  direct   : sp.queueSrc = none ∧ sp.queueDst = none
  reissue  : (s.thread u).reissue = false
  bare     : s.ext.placed.contains u = false

/-- The execution of an instruction by one thread, from the outcome of its meaning. -/
theorem State.Takes.isa_eq (h : s.Takes g u gd sp) (f : Nat → State → Flow × State) : s.isa gd sp f =
    let r := f u (s.charge [u])
    let x := r.2.applyFlow u r.1
    let late := if r.1 == .stall then [u] else []
    (x.flushPushes (clusterOf g.core) ([u].filter fun v => x.inGroup g.core v && !late.contains v)).advance g late := by
  have ck := s.charged_charge [u]
  have hact : [u].filter (fun u => (s.thread u).guardOk gd) = [u] := List.filter_cons_of_pos h.holds
  have hb : [u].any (sp.blocked s) = false := by simp [Spec.blocked_idle sp s u h.clear]
  have hcharge : s.chargeIssue g = s.charge [u] := by simp [State.chargeIssue, h.whole, h.one, h.reissue]
  have hclear : (s.charge [u]).conflicts u (sp.reads ((s.charge [u]).thread u).isCtl ++ sp.writes ((s.charge [u]).thread u).isCtl) = [] := by
    rw [ck.conflicts, ck.thread]; exact h.clear
  have hin : (s.charge [u]).inGroup g.core u = true := by
    have := List.mem_of_find?_eq_some h.here
    simp only [State.inGroup, ck.core, List.any_eq_true]
    exact ⟨g, this, by simp [h.one]⟩
  have hmember : sp.member f u (s.charge [u]) = f u (s.charge [u]) := by
    unfold Spec.member
    simp only [show sp.check (s.charge [u]) ((s.charge [u]).thread u) = none by rw [ck.thread, ck.check]; exact h.checked,
      Spec.lookahead_idle sp _ u hclear, h.shared, Bool.not_false, if_true]
  have hbare : (s.charge [u]).ext.placed.contains u = false := by rw [ck.ext]; exact h.bare
  unfold State.isa State.isaWith State.isaAll
  simp only [h.cur, h.whole, h.one, h.encoded, hact, hb, hcharge, Spec.queues_direct sp h.direct, Option.getD_none, List.foldl_cons,
    List.foldl_nil, Spec.window_idle sp _ u hclear, hin, hmember, hbare, List.contains_cons, List.contains_nil, beq_self_eq_true,
    Bool.or_false, Bool.not_true, List.isEmpty_nil, Bool.and_false, Bool.false_eq_true, if_false, ite_self, List.nil_append]

/-- The instruction of a thread that goes on completes. -/
theorem State.Takes.becomes (h : s.Takes g u gd sp) (he : exec i s = .next (s.isa gd sp f)) (hf : f u (s.charge [u]) = (.next, r))
    (k : r.Calm [u]) (hg : r.core.groups = s.core.groups) (hp : r.ext.pushes = []) (ht : (r.thread? u).isSome = true) : s.Becomes i r := by
  have hc : r.Calm g.members := by rw [h.one]; exact k
  refine ⟨_, he, ?_⟩
  rw [h.isa_eq, hf]
  simp only [State.applyFlow_next r u k, State.flushPushes_none r _ _ hp (k.mono fun x hx => (List.mem_filter.1 hx).1)]
  refine ⟨State.like_advance r g _ fun x hx => ?_, fun x hx v hv => ?_⟩
  · rw [hg, h.here] at hx
    cases hx
    exact hc
  · obtain rfl : g = x := Option.some.inj (h.cur.symm.trans hx)
    obtain rfl : v = u := by rw [h.one] at hv; exact List.mem_singleton.1 hv
    exact State.pos_advance r g (by rw [hg]; exact h.here) hc v hv ht

theorem State.RunsAlone.thread_there (h : (s.unmark u).RunsAlone g u gd sp) : (s.thread? u).isSome = true := by
  have hi := h.present u (by rw [h.one]; exact List.mem_singleton.2 rfl)
  rwa [State.unmark, s.thread?_modThread u u _ fun _ => by rfl, if_pos rfl, Option.isSome_map] at hi

/-- A thread that has waited takes its instruction as one that has not. -/
theorem State.RunsAlone.takes_marked (h : (s.unmark u).RunsAlone g u gd sp) (hsp : sp.primary = false) : s.Takes g u gd sp := by
  have hm : u ∈ g.members := by rw [h.one]; exact List.mem_singleton.2 rfl
  have hact : u ∈ (s.unmark u).activeIn g gd := by rw [h.active]; exact List.mem_singleton.2 rfl
  have ht : (s.unmark u).thread u = { s.thread u with mark := none } :=
    (s.thread_modThread u u (fun x => { x with mark := none }) (fun _ => rfl) h.thread_there).trans (if_pos rfl)
  have hholds := h.holds
  have hclear := h.clear u hact
  have hcheck := h.checked u hact
  have hre := (h.calm.thread u hm).2.1
  rw [ht] at hholds hclear hcheck hre
  exact ⟨h.cur, h.here, h.whole, h.one, hholds, h.encoded, hclear, hcheck, hsp, h.direct, hre, (h.calm.bare u hm).2⟩

/-- Once its wait is over the thread is calm. -/
theorem State.RunsAlone.calm_unmark (h : (s.unmark u).RunsAlone g u gd sp) : ((s.charge [u]).unmark u).Calm [u] := by
  have ck := s.charged_charge [u]
  have k := h.calm
  rw [h.one] at k
  have hc : ((s.charge [u]).unmark u).core = (s.unmark u).core := by rw [State.unmark, State.modThread, State.onCore, ck.core]; rfl
  exact ⟨by rw [hc]; exact k.threads, by rw [show ((s.charge [u]).unmark u).ext = (s.unmark u).ext from ck.ext]; exact k.bare⟩

end

/-! Results of a number. -/

section
variable {s r x q : State} {g : Group} {gd : Guard} {u : Nat} {a b d e : RegF}

theorem State.dst_gave_nat (r : State) (u : Nat) (d : RegF) (hq : isQueue d = false) (v : Nat) (tg : Tag) :
    r.dst u d (BitVec.ofNat 64 v) tg = r.gave u d tg v := by
  rw [State.dst_gave r u d hq, BitVec.toNat_ofNat, State.gave_mod]

theorem State.dst64_gave_nat (r : State) (u : Nat) (d : RegF) (hq : isQueue d = false) (v : Nat) :
    r.dst64 u d (BitVec.ofNat 64 v) .w64lo .w64hi = r.gave64 u d v := by
  rw [State.dst64_gave r u d hq, BitVec.toNat_ofNat, State.gave64_mod]

theorem State.charge_src64 (s : State) (u : Nat) (a : RegF) : ((s.charge [u]).src64 u a) = s.pairBits u a := by
  rw [((s.charged_charge [u]).mid u).src64, State.src64_bits]

theorem State.charge_src (s : State) (u : Nat) (a : RegF) : ((s.charge [u]).src u a) = s.bits u a 64 := by
  rw [((s.charged_charge [u]).mid u).src, State.src, State.bits, BitVec.setWidth_eq]

theorem State.charge_src32 (s : State) (u : Nat) (a : RegF) : ((s.charge [u]).src32 u a) = (s.bits u a 32).toNat := by
  rw [((s.charged_charge [u]).mid u).src32, State.src32_bits]

theorem State.vaCheck_ok {va z : Nat} (hz : va % z = 0) (hl : va < (s.thread u).vaLim) : s.vaCheck u va z = none := by
  simp only [State.vaCheck, hz, Nat.not_le.2 hl, bne_self_eq_false, Bool.false_eq_true, if_false]

/-! COLL (R89, R434). -/

/-- COLL of a descriptor that passes, with a slot free and its boundary made, starts the operation. -/
theorem State.RunsAlone.coll_becomes {bs : List Byte} (h : s.RunsAlone g u gd
      { srcs := [⟨1, a, .addr⟩], dsts := [(d, 1)], primary := true, bnd := some (.dev, .coll) })
    (hz : (s.pairBits u a).toNat % 64 = 0) (hl : (s.pairBits u a).toNat < (s.thread u).vaLim)
    (hr : (s.charge [u]).readPlain ((s.charge [u]).agent (s.thread u) .ls) (s.pairBits u a).toNat 64 = (.ok bs, r))
    (hc : r.descCheck u (s.pairBits u a).toNat (CDesc.ofBytes bs) = (none, q)) (hs : q.freeSlot ((CDesc.ofBytes bs).key % 4) < 256)
    (hp : q.pathBusy u .ls = false) (hb : q.doBoundary u .dev .coll = (.next, x))
    (k : s.Steady u ((x.xfence u .ls .cl).startColl u (CDesc.ofBytes bs)).2) :
    s.Becomes (.coll gd d a) (((x.xfence u .ls .cl).startColl u (CDesc.ofBytes bs)).2.gave u d .i32
      ((x.xfence u .ls .cl).startColl u (CDesc.ofBytes bs)).1) := by
  have ck := s.charged_charge [u]
  have hq := Spec.dst_direct _ h.direct.2 d 1 (by simp)
  refine h.becomes (show exec _ s = execColl gd d a s from rfl) k (State.wrote_tame _ u d .i32 _) ?_
  have hv : (s.charge [u]).vaCheck u (s.pairBits u a).toNat 64 = none := State.vaCheck_ok hz (by rw [ck.thread]; exact hl)
  simp only [State.charge_src64, hv, ck.thread, hr, hc, Nat.not_le.2 hs, decide_false, hp, hb, Bool.or_self, Bool.false_eq_true, if_false,
    State.dst_gave_nat _ u d hq, State.gave]

/-! CWAIT and CSTAT (R102, R435). -/

theorem State.charge_opOf (s : State) (u h : Nat) : (s.charge [u]).opOf h = s.opOf h := by
  rw [State.opOf, (s.charged_charge [u]).plat]
  rfl

section
variable {id : Nat} {o : CollOp} (h : s.RunsAlone g u gd { srcs := [⟨1, a, .int⟩], dsts := [(d, 2)], primary := true })
  (ho : s.opOf (s.bits u a 64).toNat = some (id, o))
include h ho

/-- CWAIT of an operation that is not over waits for it. -/
theorem State.RunsAlone.cwait_waits (hw : o.written = false) :
    exec (.cwait gd d a) s = .next ((s.charge [u]).wait u .cwait true (s.bits u a 64).toNat 0) := by
  have k := h.steady_charge
  refine h.waits (show exec _ s = execCwait gd d a s from rfl) ?_ (State.wait_waits k.there (k.calm.thread u (by simp)).2.1 k.elems ..)
  simp only [State.charge_src, State.charge_opOf, ho, hw, Bool.not_false, if_true]

/-- CWAIT of an operation that is over gives its status, and takes it. -/
theorem State.RunsAlone.cwait_becomes (hw : o.written = true) (hv : (o.vtrap && (o.code == some 0x0F || o.rerun)) = false) :
    s.Becomes (.cwait gd d a) (((s.charge [u]).takeStatus u id o).gave64 u d o.word) := by
  have hq := Spec.dst_direct _ h.direct.2 d 2 (by simp)
  refine h.becomes (show exec _ s = execCwait gd d a s from rfl) (h.steady_charge.takeStatus id o) (State.wrotePair_tame _ u d _) ?_
  simp only [State.charge_src, State.charge_opOf, ho, hw, hv, Bool.not_true, Bool.false_eq_true, if_false, State.dst64_gave_nat _ u d hq,
    State.gave64]

/-- CSTAT gives the status of an operation, and takes it where the operation is over. -/
theorem State.RunsAlone.cstat_becomes : s.Becomes (.cstat gd d a)
    ((if o.written then (s.charge [u]).takeStatus u id o else s.charge [u]).gave64 u d o.word) := by
  have hq := Spec.dst_direct _ h.direct.2 d 2 (by simp)
  have k : s.Steady u (if o.written then (s.charge [u]).takeStatus u id o else s.charge [u]) := by
    split
    · exact h.steady_charge.takeStatus id o
    · exact h.steady_charge
  refine h.becomes (show exec _ s = execCstat gd d a s from rfl) k (State.wrotePair_tame _ u d _) ?_
  simp only [State.charge_src, State.charge_opOf, ho, State.dst64_gave_nat _ u d hq, State.gave64]

end

/-! VIEWRD (R96, R436). -/

/-- What VIEWRD gives for a selector. -/
def View.reads (v : View) (sel : Nat) : Nat :=
  if sel = 0 then v.self_ * 2 ^ 48 + v.state * 2 ^ 44 + v.members.length * 2 ^ 32 + v.num else v.setWord (sel - 1)

theorem State.RunsAlone.viewrd_becomes (h : s.RunsAlone g u gd { srcs := [⟨1, a, .int⟩], dsts := [(d, 2)] })
    (hs : (s.bits u a 32).toNat ≤ 32) :
    s.Becomes (.viewrd gd d a) ((s.charge [u]).gave64 u d (s.plat.nor.view.reads (s.bits u a 32).toNat)) := by
  have ck := s.charged_charge [u]
  have hq := Spec.dst_direct _ h.direct.2 d 2 (by simp)
  refine h.becomes (show exec _ s = execViewrd gd d a s from rfl) h.steady_charge (State.wrotePair_tame _ u d _) ?_
  simp only [State.charge_src32, ck.plat, Nat.not_lt.2 hs, if_false, State.dst64_gave_nat _ u d hq, State.gave64, View.reads]

/-! STEPSET (R93, R437). -/

theorem stepTable_eq (bs : List Byte) (n : Nat) : stepTable bs n = (List.range n).map fun k =>
    ⟨ofBytesLE ((bs.drop (16 * k)).take 2), ofBytesLE ((bs.drop (16 * k + 8)).take 8), ofBytesLE ((bs.drop (16 * k + 2)).take 6)⟩ := by
  rw [stepTable, rangeFrom_eq_range', ← List.range_eq_range']
  refine List.map_congr_left fun k _ => ?_
  simp only [List.take_take, List.drop_take, List.drop_drop]
  rfl

theorem tableSize_ok {n : Nat} (h1 : 1 ≤ n) (h16 : n ≤ 16) : (decide (n = 0) || decide (16 < n)) = false := by
  rw [decide_eq_false (Nat.one_le_iff_ne_zero.1 h1), decide_eq_false (Nat.not_lt.2 h16)]
  rfl

section
variable {bs : List Byte} (h : s.RunsAlone g u gd
    { srcs := [⟨1, a, .addr⟩, ⟨2, b, .int⟩] ++ if e = .vz then [] else [⟨3, e, .int⟩], primary := true })
  (hz : (s.pairBits u a).toNat % 16 = 0) (hl : (s.pairBits u a).toNat < (s.thread u).vaLim)
  (h1 : 1 ≤ (s.bits u b 64).toNat) (h16 : (s.bits u b 64).toNat ≤ 16)
  (hr : (s.charge [u]).readPlain ((s.charge [u]).agent (s.thread u) .ls) (s.pairBits u a).toNat (16 * (s.bits u b 64).toNat) = (.ok bs, r))
include h hz hl h1 h16 hr

/-- STEPSET without a handle keeps the table for the thread's next COLL. -/
theorem State.RunsAlone.stepset_keeps (k : s.Steady u r) (he : e = .vz) :
    s.Becomes (.stepset gd a b e) (r.modThread u fun x => { x with steps := stepTable bs (s.bits u b 64).toNat }) := by
  subst he
  have ck := s.charged_charge [u]
  have hv : (s.charge [u]).vaCheck u (s.pairBits u a).toNat 16 = none := State.vaCheck_ok hz (by rw [ck.thread]; exact hl)
  refine h.becomes (show exec _ s = execStepset gd a b .vz s from rfl) k ⟨fun _ => rfl, fun _ => rfl, fun _ => rfl, fun _ => rfl⟩ ?_
  simp only [State.charge_src64, State.charge_src, hv, tableSize_ok h1 h16, ck.thread, hr, beq_self_eq_true, if_true, Bool.false_eq_true, if_false,
    show ((none : Option (Option (Nat × CollOp))) == some none) = false from rfl]

/-- STEPSET of a handle gives the entries to its operation. -/
theorem State.RunsAlone.stepset_joins {id : Nat} {o : CollOp} (he : e ≠ .vz) (ho : s.opOf (s.bits u e 64).toNat = some (id, o))
    (hb : ((stepTable bs (s.bits u b 64).toNat).any (r.entryBad o.fn (stepCount o.op
      (if o.set = [] then r.plat.nor.view.members.length else o.set.length)))) = false)
    (hn : o.steps.length + (s.bits u b 64).toNat ≤ 16) (k : s.Steady u (r.joinSteps id o (stepTable bs (s.bits u b 64).toNat))) :
    s.Becomes (.stepset gd a b e) (r.joinSteps id o (stepTable bs (s.bits u b 64).toNat)) := by
  have ck := s.charged_charge [u]
  have hv : (s.charge [u]).vaCheck u (s.pairBits u a).toNat 16 = none := State.vaCheck_ok hz (by rw [ck.thread]; exact hl)
  have hsp : (if e = .vz then ([] : List Src) else [⟨3, e, .int⟩]) = if e == .vz then [] else [⟨3, e, .int⟩] := by
    simp only [beq_iff_eq]
  rw [hsp] at h
  refine h.becomes_steady (show exec _ s = execStepset gd a b e s from rfl) k ?_
  simp only [State.charge_src64, State.charge_src, State.charge_opOf, hv, tableSize_ok h1 h16, ck.thread, hr, beq_eq_false_iff_ne.2 he, ho, hb,
    List.isEmpty_iff, Nat.not_lt.2 hn, decide_false, Bool.or_self, Bool.false_eq_true, if_false,
    show (some (some (id, o)) == some none) = false from rfl]

end

/-! REJOIN (R103, R438). -/

theorem State.charge_reachable (s : State) (u : Nat) : (s.charge [u]).reachable = s.reachable := by
  have ck := s.charged_charge [u]
  have hup : (s.charge [u]).portUp = s.portUp := by
    funext p
    simp only [State.portUp, State.portOff, State.portAt, State.lanesOf, State.dieOn, ck.plat, ck.pkg]
  simp only [State.reachable, State.routes, hup, ck.plat, ck.mem]

/-- A thread's REJOIN has asked a module for admission. -/
def State.asked (s : State) (u va len m : Nat) : State :=
  (s.onNor fun n => { n with view := { n.view with rejoin := some ⟨u, va, len, m, false⟩ } }).sendMsg 7 len [] m

/-- To ask is to send: cores and the elements of queue registers are as before. -/
theorem State.asked_keeps (s : State) (u va len m : Nat) :
    (s.asked u va len m).core = s.core ∧ (s.asked u va len m).ext.pushes = s.ext.pushes := by
  unfold State.asked
  generalize hx : (s.onNor fun n => { n with view := { n.view with rejoin := some ⟨u, va, len, m, false⟩ } }) = x
  have hs := x.sendMsg_sends 7 len [] m
  subst hx
  exact ⟨hs.core, hs.elems.1⟩

/-- The states in which REJOIN is executed: out of any view. -/
theorem rejoin_state_ok {st : Nat} (h : st = 0 ∨ st = 5) : (st != 0 && st != 5) = false := by
  obtain rfl | rfl := h <;> rfl

theorem State.RunsAlone.unmarked {sp : Spec} (h : s.RunsAlone g u gd sp) : (s.thread u).mark = none :=
  (h.calm.thread u (by simp [h.one])).2.2

section
variable {m : Nat} {ms : List Nat}

theorem State.RunsAlone.asked_waits {sp : Spec} (h : s.RunsAlone g u gd sp) (va len m : Nat) :
    (((s.charge [u]).asked u va len m).waitMark u .rejoin false 0 0).Waits u := by
  have k := h.steady_charge
  obtain ⟨hc, he⟩ := (s.charge [u]).asked_keeps u va len m
  have ht := State.thread?_of_core hc u
  refine State.waitMark_waits (by rw [ht]; exact k.there) ?_ (he.trans k.elems) ..
  rw [State.thread, ht]
  exact (k.calm.thread u (by simp)).2.1

variable (h : s.RunsAlone g u gd { lvl := .h, srcs := [⟨1, a, .addr⟩, ⟨2, b, .int⟩], dsts := [(d, 1)] })
  (hva : (s.pairBits u a).toNat % 4096 = 0) (hlen : (s.bits u b 64).toNat % 4096 = 0) (hl : (s.pairBits u a).toNat < (s.thread u).vaLim)
  (hst : s.plat.nor.view.state = 0 ∨ s.plat.nor.view.state = 5)
include h hva hlen hl hst

theorem State.RunsAlone.rejoin_alone (hr : s.reachable = []) : s.Becomes (.rejoin gd d a b) ((s.charge [u]).gave u d .i32 0x0F) := by
  have ck := s.charged_charge [u]
  have hq := Spec.dst_direct _ h.direct.2 d 1 (by simp)
  refine h.becomes (show exec _ s = execRejoin gd d a b s from rfl) h.steady_charge (State.wrote_tame _ u d .i32 _) ?_
  simp only [ck.thread, ck.plat, h.unmarked, State.charge_src64, State.charge_src, hva, hlen, Nat.not_le.2 hl, rejoin_state_ok hst,
    State.charge_reachable, hr, bne_self_eq_false, Bool.false_eq_true, if_false]
  exact congrArg _ (State.dst_gave_nat _ u d hq 0x0F .i32)

theorem State.RunsAlone.rejoin_asks (hr : s.reachable = m :: ms) : exec (.rejoin gd d a b) s =
    .next (((s.charge [u]).asked u (s.pairBits u a).toNat (s.bits u b 64).toNat m).waitMark u .rejoin false 0 0) := by
  have ck := s.charged_charge [u]
  refine h.waits (show exec _ s = execRejoin gd d a b s from rfl) ?_ (h.asked_waits ..)
  simp only [ck.thread, ck.plat, h.unmarked, State.charge_src64, State.charge_src, hva, hlen, Nat.not_le.2 hl, rejoin_state_ok hst,
    State.charge_reachable, hr, bne_self_eq_false, Bool.false_eq_true, if_false, State.asked]

end

/-- REJOIN executed again with the answer gives it. -/
theorem State.RunsAlone.rejoin_answered
    (h : (s.unmark u).RunsAlone g u gd { lvl := .h, srcs := [⟨1, a, .addr⟩, ⟨2, b, .int⟩], dsts := [(d, 1)] }) {n v : Nat}
    (hm : (s.thread u).mark = some n) (hv : n = 1 ∧ v = 0 ∨ n = 2 ∧ v = 0x0F) :
    s.Becomes (.rejoin gd d a b) (((s.charge [u]).unmark u).gave u d .i32 v) := by
  have ck := s.charged_charge [u]
  have hq := Spec.dst_direct _ h.direct.2 d 1 (by simp)
  have ht := (State.wrote_tame ((s.charge [u]).unmark u) u d .i32 (BitVec.ofNat (((s.charge [u]).unmark u).width u) v))
  refine (h.takes_marked rfl).becomes (show exec _ s = execRejoin gd d a b s from rfl) ?_ (h.calm_unmark.modThread u _ ht) ?_ ?_ ?_
  · obtain ⟨rfl, rfl⟩ | ⟨rfl, rfl⟩ := hv
    · simp only [ck.thread, hm]
      exact congrArg _ (State.dst_gave_nat _ u d hq 0 .i32)
    · simp only [ck.thread, hm]
      exact congrArg _ (State.dst_gave_nat _ u d hq 0x0F .i32)
  · exact (congrArg CoreSys.groups ck.core :)
  · exact (congrArg Ext.pushes ck.ext).trans h.fresh
  · rw [State.gave, State.thread?_modThread _ u u _ ht.uid, if_pos rfl, Option.isSome_map, State.unmark,
      State.thread?_modThread _ u u _ fun _ => by rfl, if_pos rfl, Option.isSome_map, ck.thread?]
    exact h.thread_there

end

/-- Settles O40: each instruction is the outcome of its meaning for the thread after the charge; what takes a status leaves its thread steady
(`State.Steady.takeStatus`), a thread that waits leaves its group (`State.RunsAlone.waits`), and one that has waited takes its instruction anew
(`State.RunsAlone.takes_marked`). -/
theorem collectivesStartAndReport : Obligations.CollectivesStartAndReport := by
  unfold Obligations.CollectivesStartAndReport
  intro s g gd u a b d e
  refine ⟨fun bs r q x h hz hl hr hc hs hp hb k => h.coll_becomes hz hl hr hc hs hp hb k, fun id o h => ?_,
    fun h => ⟨fun h0 => ?_, fun h1 h32 => ?_⟩, fun bs r h hz hl h1 h16 hr k => ?_,
    fun h hva hlen hl hst => ⟨h.rejoin_alone hva hlen hl hst, fun m ms => h.rejoin_asks hva hlen hl hst⟩,
    fun h => ⟨fun hm => h.rejoin_answered hm (.inl ⟨rfl, rfl⟩), fun hm => h.rejoin_answered hm (.inr ⟨rfl, rfl⟩)⟩⟩
  · intro n ho
    have hs := h.cstat_becomes ho
    refine ⟨fun hw => ⟨h.cwait_waits ho hw, ?_⟩, fun hw => ⟨?_, h.cwait_becomes ho hw⟩⟩
    · rwa [hw, if_neg Bool.false_ne_true] at hs
    · rwa [if_pos hw] at hs
  · have hv := h.viewrd_becomes (Nat.le_trans (Nat.le_of_eq h0) (by decide))
    rwa [View.reads, if_pos h0] at hv
  · have hv := h.viewrd_becomes h32
    rwa [View.reads, if_neg (Nat.one_le_iff_ne_zero.1 h1)] at hv
  · rw [← stepTable_eq]
    exact ⟨fun he => h.stepset_keeps hz hl h1 h16 hr k he,
      fun id o he ho hb hn kj => h.stepset_joins hz hl h1 h16 hr he ho hb hn kj⟩

end Sys2Proof.Machine
end

section
-- One thread elaborates: check.sh limits memory, and counts a stack for each thread that waits.
set_option Elab.async false

namespace Sys2Proof.Machine

/-! O49: host requests, snoops and ports (spec/05 R108 to R113, R119 to R121, R127; spec/06 R139). -/

/-! Whether a request is heard, held or served (R108, R113). -/

section
variable {s : State} {q : HostReq}

/-- A request is taken from those that are held. -/
def State.took (s : State) (q : HostReq) : State := s.onHost fun x => { x with heldReq := x.heldReq.erase q }

/-- Nothing keeps a request from being served: the device is live, the request reaches it, and neither HD, a snoop of its line nor a repair
holds it. -/
structure State.Open (s : State) (q : HostReq) : Prop where
  live    : s.live = true
  reaches : s.plat.host.reaches q = true
  free    : s.hdHolds (hostReqPa q) = false
  calm    : s.plat.host.snoops.find (reqLine q) = none
  flows   : s.wouldStall (hostReqPa q) = false

/-- The application cores need no port (R139). -/
theorem HostSys.reaches_app (h : HostSys) {at_ : Nat} (ha : 2 ^ 52 ≤ at_) : h.reaches (.rd at_) = true := by
  simp only [HostSys.reaches, hostReqApp, decide_eq_true ha, Bool.true_or]

theorem State.hostReq_unheard (h : s.live = false ∨ s.plat.host.reaches q = false) : s.hostReq q = s.took q :=
  if_pos (by
    show (!s.live || !s.plat.host.reaches q) = true
    obtain h | h := h <;> simp [h])

theorem State.hostReq_kept (hl : s.live = true) (hr : s.plat.host.reaches q = true) (hh : s.hdHolds (hostReqPa q) = true) :
    q ∈ (s.hostReq q).plat.host.heldReq := by
  have e : s.hostReq q = (s.took q).onHost fun x => { x with heldReq := x.heldReq ++ [q] } :=
    (if_neg (by
      show ¬ (!s.live || !s.plat.host.reaches q) = true
      simp [hl, hr])).trans (if_pos hh)
  rw [e]
  exact List.mem_append_right _ (List.mem_singleton.2 rfl)

/-- A request that nothing holds is served. -/
theorem State.Open.hostReq_eq (h : s.Open q) : s.hostReq q = (s.took q).hostServe q := by
  obtain ⟨live, reaches, free, calm, flows⟩ := h
  have hl : (s.took q).live = true := live
  have hh : (s.took q).hdHolds (hostReqPa q) = false := free
  have hw : (s.took q).wouldStall (hostReqPa q) = false := flows
  rw [State.took] at hl hh hw ⊢
  simp only [State.hostReq, hl, reaches, hh, calm, hw, Option.isSome_none, Bool.not_true, Bool.or_self, Bool.false_and, Bool.false_eq_true,
    if_false]

theorem State.exec_reqEvent (s : State) (q : HostReq) : exec (reqEvent q) s = .next (s.hostReq q) := by cases q <;> rfl

end

/-! What serving does (R109 to R111). -/

section
variable {s : State} {q : HostReq}

theorem State.grantFor_owner (h : (s.plat.host.own.find (reqLine q)).isSome = true) (f : State → State) :
    (s.took q).grantFor q f = f ((s.took q).grantE (reqLine q)) := if_pos h

section
variable (h : s.plat.host.own.find (reqLine q) = none)
include h

/-- The set of a line that is to be granted anew has room. -/
theorem State.grantFor_room (hv : s.victim (reqLine q) = none) (f : State → State) :
    (s.took q).grantFor q f = f ((s.took q).grantE (reqLine q)) := by
  have ho : (s.took q).plat.host.own.find (reqLine q) = none := h
  have hv : (s.took q).victim (reqLine q) = none := hv
  simp only [State.grantFor, ho, hv, Option.isSome_none, Bool.false_eq_true, if_false]

/-- Its set is full: the request waits behind the snoop of the line that the grant evicts (R110). -/
theorem State.grantFor_evicts {l : Nat} (hv : s.victim (reqLine q) = some l) (f : State → State) :
    (s.took q).grantFor q f = ((s.took q).snoopLine l).holdBehind l q := by
  have ho : (s.took q).plat.host.own.find (reqLine q) = none := h
  have hv : (s.took q).victim (reqLine q) = some l := hv
  simp only [State.grantFor, ho, hv, Option.isSome_none, Bool.false_eq_true, if_false]

end

theorem State.Open.exec_eq (h : s.Open q) : exec (reqEvent q) s = .next ((s.took q).hostServe q) := by
  rw [State.exec_reqEvent, h.hostReq_eq]

/-- Without a frame a request is answered, and does nothing else (R109). -/
theorem State.Open.exec_noFrame (h : s.Open q) (hf : s.hostFrame (hostReqPa q) = false) :
    exec (reqEvent q) s = .next ((s.took q).emit (.cmp (hostReqPa q) 0 [] true)) := by
  have hn : (!(s.took q).hostFrame (hostReqPa q)) = true := by
    show (!s.hostFrame (hostReqPa q)) = true
    rw [hf]
    rfl
  rw [h.exec_eq, State.hostServe, if_pos hn]

/-- The bytes of a write, after the internal snoop of its line. -/
def State.hostPut (s : State) (pa : Nat) (b : List (Option Byte)) (poison : Bool) : State :=
  (s.internalSnoop (pa / 128)).hostWrite pa b poison

/-- The answer of a read that has the grant of E: the bytes as they are after the internal snoop. -/
def State.readE (s : State) (pa : Nat) : State :=
  let t := s.internalSnoop (pa / 128)
  (t.hostBytes pa).2.emit (.cmp pa 2 (t.hostBytes pa).1 ((t.hostBytes pa).2.mem.poisoned (pa / 64 * 64) 64))

variable {at_ : Nat} {b : List (Option Byte)} {poison : Bool}

theorem State.not_noFrame (hf : s.hostFrame (hostReqPa q) = true) : ¬ (!(s.took q).hostFrame (hostReqPa q)) = true := by
  show ¬ (!s.hostFrame (hostReqPa q)) = true
  rw [hf]
  exact Bool.false_ne_true

theorem State.Open.exec_inv (h : s.Open (.inv at_)) (hf : s.hostFrame (at_ % 2 ^ 52) = true) : exec (.hostMeminv at_) s =
    .next ((s.took (.inv at_)).grantFor (.inv at_) fun x => (x.internalSnoop (at_ % 2 ^ 52 / 128)).emit (.cmp (at_ % 2 ^ 52) 2 [] false)) :=
  h.exec_eq.trans (congrArg Host.Outcome.next (if_neg (State.not_noFrame hf)))

theorem State.Open.exec_release (h : s.Open (.release at_)) (hf : s.hostFrame (at_ % 2 ^ 52) = true) : exec (.hostMeminvRelease at_) s =
    .next ((((s.took (.release at_)).internalSnoop (at_ % 2 ^ 52 / 128)).leaveE (at_ % 2 ^ 52 / 128)).emit (.cmp (at_ % 2 ^ 52) 0 [] false)) :=
  h.exec_eq.trans (congrArg Host.Outcome.next (if_neg (State.not_noFrame hf)))

/-- A write without a grant takes the line from the host (R111). -/
theorem State.Open.exec_write (h : s.Open (.wr at_ b false poison)) (hf : s.hostFrame (at_ % 2 ^ 52) = true) :
    exec (.hostMemwr at_ b false poison) s = .next ((((s.took (.wr at_ b false poison)).hostPut (at_ % 2 ^ 52) b poison).leaveE
      (at_ % 2 ^ 52 / 128)).emit (.cmp (at_ % 2 ^ 52) 0 [] false)) :=
  h.exec_eq.trans (congrArg Host.Outcome.next (if_neg (State.not_noFrame hf)))

theorem State.Open.exec_writeE (h : s.Open (.wr at_ b true poison)) (hf : s.hostFrame (at_ % 2 ^ 52) = true) :
    exec (.hostMemwr at_ b true poison) s = .next ((s.took (.wr at_ b true poison)).grantFor (.wr at_ b true poison) fun x =>
      (x.hostPut (at_ % 2 ^ 52) b poison).emit (.cmp (at_ % 2 ^ 52) 2 [] false)) :=
  h.exec_eq.trans (congrArg Host.Outcome.next (if_neg (State.not_noFrame hf)))

/-- Where no line is shared, a read takes a grant of E (R111). -/
theorem State.Open.exec_read (h : s.Open (.rd at_)) (hf : s.hostFrame (at_ % 2 ^ 52) = true) (hs : s.plat.host.ssEn = false) :
    exec (.hostMemrd at_) s = .next ((s.took (.rd at_)).grantFor (.rd at_) fun x => x.readE (at_ % 2 ^ 52)) := by
  have hn : ¬ ((s.took (.rd at_)).plat.host.ssEn && (s.took (.rd at_)).plat.host.shared.contains (at_ % 2 ^ 52 / 4096)) = true := by
    show ¬ (s.plat.host.ssEn && _) = true
    rw [hs]
    exact Bool.false_ne_true
  exact h.exec_eq.trans (congrArg Host.Outcome.next ((if_neg (State.not_noFrame hf)).trans (if_neg hn)))

end

/-! Answers to back-invalidate snoops (R112, R113). -/

section
variable {s : State} {line : Nat}

theorem State.exec_birsp_none (h : s.plat.host.snoops.find line = none) : exec (.birsp line) s = .next s := by
  change execBirsp line s = _
  simp only [execBirsp, h]

theorem State.exec_birsp {q : Snoop} (h : s.plat.host.snoops.find line = some q) : exec (.birsp line) s = .next (s.endSnoop line q) := by
  change execBirsp line s = _
  simp only [execBirsp, h]

theorem State.exec_biconflict {q : Snoop} {held : HostReq} (h : s.plat.host.snoops.find line = some q) (hl : reqLine held = line) :
    exec (.biconflict line held) s = .next (s.holdBehind line held) := by
  change execBiconflict line held s = _
  simp only [execBiconflict, h, hl, Option.isSome_some, beq_self_eq_true, Bool.and_self, if_true]

theorem State.bisnpTimeout_picks (h : s.lateSnoops ≠ []) : s.Picks .bisnpTimeout s.lateSnoops fun x r =>
    ((r.onMem fun m => m.markPoison (128 * x.1) 128 true).endSnoop x.1 x.2).smqPut ⟨3, x.1, stackOfLine x.1⟩ :=
  State.picks_of_cons h fun c cs hl => by
    change execBisnpTimeout s = _
    simp only [execBisnpTimeout, hl]

end

/-! The host's data for a half-line (R119, R120). -/

section
variable {m n : MemSys}

@[simp] theorem MemSys.record_l2 (m : MemSys) (w : Wr) (pa : Nat) (bs : List Byte) : (m.record w pa bs).l2 = m.l2 := by
  induction bs generalizing m pa with
  | nil => rfl
  | cons b bs ih => rw [MemSys.record, ih]

@[simp] theorem MemSys.store_l2 (m : MemSys) (pa : Nat) (bs : List Byte) : (m.store pa bs).l2 = m.l2 := by
  induction bs generalizing m pa with
  | nil => rfl
  | cons b bs ih => rw [MemSys.store, ih]

@[simp] theorem MemSys.markPoison_l2 (m : MemSys) (pa k : Nat) (p : Bool) : (m.markPoison pa k p).l2 = m.l2 := by
  unfold MemSys.markPoison
  split <;> rfl

/-- A byte whose line no slice holds dirty is memory's own. -/
theorem MemSys.byte_clean {pa : Nat} (h : m.dirtyLine (pa / 128) = none) : m.byte pa = m.bytes.getD memDefault pa := by
  have hn : m.l2.find? (fun l => l.pline == pa / 128 && l.wr && (l.dirty.find (pa % 128)).isSome) = none := by
    rw [List.find?_eq_none]
    intro l hl hx
    exact List.find?_eq_none.1 h l hl (Bool.and_eq_true_iff.1 hx).1
  rw [MemSys.byte, hn]

/-- Where no slice holds a line dirty, a read finds the bytes that were stored. -/
theorem MemSys.read_store {pa : Nat} {bs : List Byte} (hm : Memory.wf m = true) (hd : ∀ k < bs.length, m.dirtyLine ((pa + k) / 128) = none) :
    (m.store pa bs).read pa bs.length = bs := by
  rw [MemSys.read, rangeFrom_eq_range']
  refine List.ext_getElem (by simp) fun k _ hk => ?_
  have hc : (m.store pa bs).dirtyLine ((pa + k) / 128) = none := by
    rw [MemSys.dirtyLine, MemSys.store_l2]
    exact hd k hk
  rw [List.getElem_map, List.getElem_range', Nat.one_mul, MemSys.byte_clean hc, MemSys.store_getD pa bs _ hm, if_pos (Nat.le_add_right ..),
    Nat.add_sub_cancel_left, List.getD_eq_getElem _ _ hk]

theorem MemSys.read_congr (hl : m.l2 = n.l2) (hb : m.bytes = n.bytes) (pa k : Nat) : m.read pa k = n.read pa k := by
  have h : m.byte = n.byte := by
    funext a
    rw [MemSys.byte, hl, hb, ← MemSys.byte]
  rw [MemSys.read, h, ← MemSys.read]

end

section
variable {s : State} {half : Nat} {b : List Byte} {poison : Bool}

/-- A whole half-line that arrives is stored; the order of writes is noted beside it. -/
theorem State.hostFill_mem (hb : b.length = 64) : ∃ m : MemSys, m.l2 = s.mem.l2 ∧ m.bytes = s.mem.bytes ∧
    (s.hostFill half b poison).mem = (m.store (64 * half) b).markPoison (64 * half) 64 poison := by
  rw [State.hostFill, if_neg (not_not.2 hb)]
  refine ⟨_, ?_, ?_, rfl⟩
  · dsimp only
    split
    · rfl
    · exact MemSys.record_l2 ..
  · dsimp only
    split
    · rfl
    · exact MemSys.record_bytes ..

theorem State.hostFill_read (hb : b.length = 64) (hm : Memory.wf s.mem = true) (hd : s.mem.dirtyLine (half / 2) = none) :
    (s.hostFill half b poison).mem.read (64 * half) 64 = b := by
  obtain ⟨m, hl, hy, he⟩ := s.hostFill_mem (half := half) (poison := poison) hb
  have hr := MemSys.read_store (m := m) (pa := 64 * half) (bs := b) (Memory.wf_bytes hy hm) fun k hk => by
    rw [MemSys.dirtyLine, hl, show (64 * half + k) / 128 = half / 2 by omega]
    exact hd
  rw [hb] at hr
  rw [he, MemSys.read_congr (MemSys.markPoison_l2 ..) (MemSys.markPoison_bytes ..), hr]

/-- The host's answer leaves a half in a state, and no request of it. -/
def State.halfTo (s : State) (half m : Nat) : State :=
  s.onHost fun h => { h with mesi := h.mesi.setD 0 half m, d2h := h.d2h.del half }

/-- The half is listed with a state other than I. -/
theorem State.halfTo_mesi {m : Nat} (h : m ≠ 0) : (s.halfTo half m).plat.host.mesi.getD 0 half = m := by
  show (s.plat.host.mesi.setD 0 half m).getD 0 half = m
  rw [Map.setD, if_neg h, Map.getD_put, if_pos rfl]

theorem State.exec_d2hGo_rdShared {st : Nat} (h : s.plat.host.d2h.find half = some 1) (hs : st = 1 ∨ st = 2) :
    exec (.d2hGo half st b poison) s = .next ((s.hostFill half b poison).halfTo half st) := by
  change execD2hGo half st b poison s = _
  simp only [execD2hGo, h]
  obtain rfl | rfl := hs <;> rfl

theorem State.exec_d2hGo_rdOwn {st : Nat} (h : s.plat.host.d2h.find half = some 2) :
    exec (.d2hGo half st b poison) s = .next ((s.hostFill half b poison).halfTo half 2) := by
  change execD2hGo half st b poison s = _
  simp only [execD2hGo, h]
  rfl

/-- An eviction is over: the half is in I (R121). -/
theorem State.exec_d2hGo_evict {st : Nat} (h : s.plat.host.d2h.find half = some 5 ∨ s.plat.host.d2h.find half = some 6) :
    exec (.d2hGo half st b poison) s = .next (s.halfTo half 0) := by
  change execD2hGo half st b poison s = _
  obtain h | h := h
  all_goals
    simp only [execD2hGo, h]
    rfl

/-- Data that arrive for a half no slice holds dirty leave it in its state with those bytes. -/
theorem State.filled_leads {i : Instr} {st : Nat} (he : exec i s = .next ((s.hostFill half b poison).halfTo half st)) (hst : st ≠ 0)
    (hb : b.length = 64) (hm : Memory.wf s.mem = true) (hd : s.mem.dirtyLine (half / 2) = none) :
    s.Leads i fun r => r.plat.host.mesi.getD 0 half = st ∧ r.mem.read (64 * half) 64 = b :=
  ⟨_, he, State.halfTo_mesi hst, State.hostFill_read hb hm hd⟩

end

/-! The host's snoops (R121). -/

section
variable {s : State} {half : Nat}

/-- A half goes to a state. -/
def State.toMesi (s : State) (half k : Nat) : State := s.onHost fun x => { x with mesi := x.mesi.setD 0 half k }

theorem State.toMesi_mesi (h : s.plat.host.mesi.sorted = true) (k : Nat) : (s.toMesi half k).plat.host.mesi.getD 0 half = k := by
  show (s.plat.host.mesi.setD 0 half k).getD 0 half = k
  rw [Map.getD_setD 0 h, if_pos rfl]

/-- A half in I is missed. -/
theorem State.snoops_invalid (h : s.plat.host.mesi.getD 0 half = 0) :
    exec (.snpinv half) s = .next ((s.emit (.rsp half 0 [] false)).fire (half / 2)) ∧
      exec (.snpdata half) s = .next (s.emit (.rsp half 0 [] false)) ∧ exec (.snpcur half) s = .next (s.emit (.rsp half 0 [] false)) := by
  change execSnpinv half s = _ ∧ execSnpdata half s = _ ∧ execSnpcur half s = _
  simp only [execSnpinv, execSnpdata, execSnpcur, State.h2dSnoop, h]
  exact ⟨rfl, rfl, rfl⟩

/-- A half in S or E is hit without its data. -/
theorem State.snoops_clean (h : s.plat.host.mesi.getD 0 half = 1 ∨ s.plat.host.mesi.getD 0 half = 2) :
    exec (.snpinv half) s = .next (((s.toMesi half 0).forwardHalf half true).emit (.rsp half 1 [] false)) ∧
      exec (.snpdata half) s = .next ((s.toMesi half 1).emit (.rsp half 3 [] false)) ∧
      exec (.snpcur half) s = .next (s.emit (.rsp half 5 [] false)) := by
  change execSnpinv half s = _ ∧ execSnpdata half s = _ ∧ execSnpcur half s = _
  obtain h | h := h
  all_goals
    simp only [execSnpinv, execSnpdata, execSnpcur, State.h2dSnoop, h]
    exact ⟨rfl, rfl, rfl⟩

/-- A half in M gives its data. -/
theorem State.snoops_modified (h : s.plat.host.mesi.getD 0 half = 3) :
    let data := s.mem.read (64 * half) 64
    let bad := s.mem.poison.contains half
    exec (.snpinv half) s = .next (((s.toMesi half 0).forwardHalf half true).emit (.rsp half 2 data bad)) ∧
      exec (.snpdata half) s = .next (((s.toMesi half 1).forwardHalf half false).emit (.rsp half 4 data bad)) ∧
      exec (.snpcur half) s = .next (s.emit (.rsp half 6 data bad)) := by
  change execSnpinv half s = _ ∧ execSnpdata half s = _ ∧ execSnpcur half s = _
  simp only [execSnpinv, execSnpdata, execSnpcur, State.h2dSnoop, h]
  exact ⟨rfl, rfl, rfl⟩

end

/-! Ports (R118, R127). -/

/-- A port in training (R118). -/
def CxlPort.trains (q : CxlPort) : CxlPort := { q with state := 1, width := 0, gen := 0 }

/-- A port that has come up, its decoder programmed (R107, R118). -/
def CxlPort.comesUp (w : Nat) (m : CxlMode) (q : CxlPort) : CxlPort :=
  { q with state := m.st, width := w, gen := m.gen, ways := m.ways, base := m.base }

theorem HostSys.port_modPort {h : HostSys} {p : Nat} (hp : p < h.ports.length) (f : CxlPort → CxlPort) : (h.modPort p f).port p = f (h.port p) := by
  change (modNth f h.ports p).getD p CxlPort.reset = f (h.ports.getD p CxlPort.reset)
  rw [modNth_eq_modify, List.getD_eq_getElem?_getD, List.getD_eq_getElem?_getD, List.getElem?_modify_eq, List.getElem?_eq_getElem hp]
  rfl

section
variable {s : State} {p : Nat} (hp : p < 2)
include hp

theorem State.cxlPortDown_leads (hl : p < s.plat.host.ports.length) : s.Leads (.cxlPortDown p) fun r =>
    (r.plat.host.port p).state = 0 ∧ (r.plat.host.port p).width = 0 ∧ (r.plat.host.port p).gen = 0 := by
  have hq := HostSys.port_modPort hl fun q => { q with state := 0, width := 0, gen := 0 }
  refine ⟨_, show execCxlPortDown p s = _ by rw [execCxlPortDown, if_pos hp], ?_⟩
  exact ⟨congrArg CxlPort.state hq, congrArg CxlPort.width hq, congrArg CxlPort.gen hq⟩

variable {m : CxlMode} (w : Nat) (hw : m.ways ≤ 2) (hs : (s.plat.host.port p).state ≤ 1)
include hw hs

/-- A port that is not up trains. -/
theorem State.exec_cxlPortUp_trains (h : m.st = 1) : exec (.cxlPortUp p w m) s = .next (s.onHost fun x => x.modPort p CxlPort.trains) := by
  have h2 : (s.plat.host.port p).state ≠ 2 := by omega
  have h3 : (s.plat.host.port p).state ≠ 3 := by omega
  change execCxlPortUp p w m s = _
  simp only [execCxlPortUp, hp, hw, h, bne_iff_ne.2 h2, bne_iff_ne.2 h3, decide_true, Bool.and_self, if_true]
  rfl

/-- A port that is not up comes up, and the device reports its memory (R109). -/
theorem State.exec_cxlPortUp_up (h : m.st = 2 ∨ m.st = 3) (hwidth : w ∈ [1, 2, 4, 8, 16]) (hg : 1 ≤ m.gen) (hg' : m.gen ≤ 7) :
    exec (.cxlPortUp p w m) s =
      .next (((s.onHost fun x => x.modPort p (CxlPort.comesUp w m)).emit (.cdat 0 (2 ^ 39))).emit (.excluded s.excluded)) := by
  have h1 : m.st ≠ 1 := by omega
  have h01 : ((s.plat.host.port p).state == 0 || (s.plat.host.port p).state == 1) = true := by
    rw [Bool.or_eq_true, beq_iff_eq, beq_iff_eq]
    omega
  have hup : (decide (m.st = 2) || decide (m.st = 3)) = true := by
    rw [Bool.or_eq_true, decide_eq_true_eq, decide_eq_true_eq]
    exact h
  change execCxlPortUp p w m s = _
  simp only [execCxlPortUp, hp, hw, h1, hup, hg, hg', h01, List.contains_iff_mem.2 hwidth, decide_true, decide_false, Bool.and_self,
    Bool.true_or, Bool.false_and, Bool.false_eq_true, if_true, if_false]
  rfl

end

/-- Settles O49: a request that nothing holds is served whatever its kind (`State.Open.exec_eq`), and a grant of E goes through
`State.grantFor`; data that arrive for a half no slice holds dirty are the bytes read there (`State.hostFill_read`). -/
theorem hostRequestsAndSnoopsAct : Obligations.HostRequestsAndSnoopsAct := by
  unfold Obligations.HostRequestsAndSnoopsAct
  intro s h
  refine ⟨rfl, fun at_ => ?_, fun line => ⟨State.exec_birsp_none, fun q hq => ⟨State.exec_birsp hq, fun held => State.exec_biconflict hq⟩⟩,
    State.bisnpTimeout_picks, fun half b poison hb hm hd => ?_, fun half st b poison => State.exec_d2hGo_evict, fun half hs => ?_,
    fun p hp hl => ⟨State.cxlPortDown_leads hp hl, fun w m hw hst => ⟨fun h1 => ?_, fun h23 hwidth hg hg' => ?_⟩⟩⟩
  · refine ⟨fun hx => congrArg _ (State.hostReq_unheard hx), h.reaches_app, fun hl hr hh => ⟨_, rfl, State.hostReq_kept hl hr hh⟩,
      fun hl hr hh hn hw => ?_⟩
    have rd : s.Open (.rd at_) := ⟨hl, hr, hh, hn, hw⟩
    have inv : s.Open (.inv at_) := ⟨hl, hr, hh, hn, hw⟩
    have release : s.Open (.release at_) := ⟨hl, hr, hh, hn, hw⟩
    have wr b grant poison : s.Open (.wr at_ b grant poison) := ⟨hl, hr, hh, hn, hw⟩
    refine ⟨fun hf => ⟨rd.exec_noFrame hf, inv.exec_noFrame hf, release.exec_noFrame hf⟩, fun hf => ⟨release.exec_release hf,
      fun b poison => (wr b false poison).exec_write hf, fun ho => ⟨?_, fun b poison => ?_, fun hs => ?_⟩,
      fun ho => ⟨fun hv => ?_, fun l hv => ?_⟩⟩⟩
    · rw [inv.exec_inv hf, State.grantFor_owner (q := .inv at_) ho]
      rfl
    · rw [(wr b true poison).exec_writeE hf, State.grantFor_owner (q := .wr at_ b true poison) ho]
      rfl
    · rw [rd.exec_read hf hs, State.grantFor_owner (q := .rd at_) ho]
      rfl
    · rw [inv.exec_inv hf, State.grantFor_room (q := .inv at_) ho hv]
      rfl
    · rw [inv.exec_inv hf, State.grantFor_evicts (q := .inv at_) ho hv]
      rfl
  · refine ⟨fun h1 => ⟨?_, ?_⟩, fun h2 => ?_⟩
    · exact State.filled_leads (State.exec_d2hGo_rdShared h1 (.inl rfl)) (by decide) hb hm hd
    · exact State.filled_leads (State.exec_d2hGo_rdShared h1 (.inr rfl)) (by decide) hb hm hd
    · exact State.filled_leads (State.exec_d2hGo_rdOwn h2) (by decide) hb hm hd
  · exact ⟨fun h0 => State.snoops_invalid h0, fun h12 => State.snoops_clean h12, fun h3 => State.snoops_modified h3,
      State.toMesi_mesi hs 0, State.toMesi_mesi hs 1⟩
  · exact ⟨_, State.exec_cxlPortUp_trains hp w hw hst h1, congrArg CxlPort.state (HostSys.port_modPort hl _)⟩
  · exact ⟨_, State.exec_cxlPortUp_up hp w hw hst h23 hwidth hg hg', HostSys.port_modPort hl _, rfl⟩

end Sys2Proof.Machine
end

section
-- One thread elaborates: check.sh limits memory, and counts a stack for each thread that waits.
set_option Elab.async false

namespace Sys2Proof.Machine

/-! O50: enqueue windows and ports, function level reset, attestation, the system-register window (spec/06 R134 to R141). -/

/-! Enqueue windows and ports (R134, R135). -/

section
variable {s : State} {page off : Nat} {b : List Byte}

theorem State.exec_windowDmwr_outside (h : 512 < page ∨ 32768 ≤ off / 64) : exec (.windowDmwr page off b) s = .next (s.emit (.ur page)) := by
  have hout : (decide (512 < page) || decide (32768 ≤ off / 64)) = true := by simpa using h
  change execWindowDmwr page off b s = _
  simp only [execWindowDmwr, hout, if_true]

theorem State.exec_windowDmwr_malformed (hp : page ≤ 512) (hl : off / 64 < 32768) (h : b.length ≠ 64 ∨ off % 64 ≠ 0) :
    exec (.windowDmwr page off b) s = .next ((s.windowBad page (off / 64)).emit (.dmwr page 2)) := by
  have hin : (decide (512 < page) || decide (32768 ≤ off / 64)) = false := by simp [hp, hl]
  have hbad : (decide (b.length = 64) && decide (off % 64 = 0)) = false := by simpa [← not_and_or] using h
  change execWindowDmwr page off b s = _
  simp only [execWindowDmwr, hin, hbad, Bool.false_eq_true, if_false]

/-- Of what an enqueue answers, Retry alone asks the host to try again. -/
theorem State.exec_windowDmwr_enqueues (hp : page ≤ 512) (hl : off / 64 < 32768) (hb : b.length = 64) (ho : off % 64 = 0) :
    exec (.windowDmwr page off b) s =
      .next ((s.enqueue page (off / 64) none (TaskRec.ofBytes b)).2.emit
        (.dmwr page (if (s.enqueue page (off / 64) none (TaskRec.ofBytes b)).1 = .retry then 1 else 0))) := by
  have hin : (decide (512 < page) || decide (32768 ≤ off / 64)) = false := by simp [hp, hl]
  have hgood : (decide (b.length = 64) && decide (off % 64 = 0)) = true := by simp [hb, ho]
  change execWindowDmwr page off b s = _
  simp only [execWindowDmwr, hin, hgood, Bool.false_eq_true, if_false, if_true]
  obtain ⟨res, r⟩ := s.enqueue page (off / 64) none (TaskRec.ofBytes b)
  cases res <;> rfl

theorem State.exec_windowBadWrite (hp : page ≤ 512) (hl : off / 64 < 32768) :
    exec (.windowBadWrite page off) s = .next (s.windowBad page (off / 64)) := by
  have hin : (decide (page ≤ 512) && decide (off / 64 < 32768)) = true := by simp [hp, hl]
  change execWindowBadWrite page off s = _
  simp only [execWindowBadWrite, hin, if_true]

end

/-- A core's trigger enqueues the record in its staging buffer, and the core keeps the result. -/
theorem State.exec_enqueuePortTrigger {s : State} {core : Nat} (hc : core < 16) (st : List (Nat × Byte)) (v : Word) :
    let r := s.modApp core fun p => { p with stage := (st.filter fun e => e.1 < 64).foldl (fun m e => m.setD 0 e.1 e.2) p.stage }
    let bs := (List.range 64).map fun k => (r.plat.apps.getD ⟨[], 0⟩ core).stage.getD (0 : Byte) k
    let e := r.enqueue (bitsOf v.toNat 25 16) (bitsOf v.toNat 14 0) none (TaskRec.ofBytes bs)
    exec (.enqueuePortTrigger core st v) s = .next (e.2.modApp core fun p => { p with result := e.1.code }) := by
  have hrange : List.range 64 = rangeFrom 0 64 := by rw [rangeFrom_eq_range', List.range_eq_range']
  intro r bs e
  change execEnqueuePortTrigger core st v s = _
  simp only [execEnqueuePortTrigger, Nat.not_le.2 hc, if_false, e, bs, hrange]
  rfl

/-! Attestation (R141, R28). -/

@[simp] theorem length_bytesLE (n v : Nat) : (bytesLE n v).length = n := by
  induction n generalizing v with
  | zero => rfl
  | succ n ih => simp [bytesLE, ih]

/-- A field of n bytes. -/
def padded (n : Nat) (l : List Byte) : List Byte := (l ++ List.replicate n 0).take n

@[simp] theorem length_padded (n : Nat) (l : List Byte) : (padded n l).length = n := by simp [padded]

/-- What a signed object holds between its first 16 bytes and its body: flags, keys and signatures. -/
def signatureBlock (kind : Nat) (body : List Byte) : List Byte :=
  let keys := bytesLE 4 0 ++ bytesLE 4 0 ++ padded 32 Config.idEd ++ padded 1952 Config.idMl
  let signed := bytesLE 4 0x49474C53 ++ bytesLE 4 kind ++ bytesLE 8 body.length ++ keys ++ body
  keys ++ padded 64 (Config.edSign signed) ++ padded 3309 (Config.mlSign signed) ++ List.replicate 251 0

theorem length_signatureBlock (kind : Nat) (body : List Byte) : (signatureBlock kind body).length = 0x1600 - 16 := by
  simp only [signatureBlock, List.length_append, length_bytesLE, length_padded, List.length_replicate]

theorem signedObject_eq (kind : Nat) (body : List Byte) : signedObject kind body =
    bytesLE 4 0x49474C53 ++ bytesLE 4 kind ++ bytesLE 8 body.length ++ signatureBlock kind body ++ body := by
  simp only [signedObject, signatureBlock, padded, List.append_assoc]

theorem State.reportBody_eq (s : State) (f : Nat) (nonce : List Byte) : s.reportBody f nonce = nonce ++ s.reportBody f [] := by
  simp only [State.reportBody, List.append_assoc, List.nil_append]

theorem State.exec_attestationRequest {s : State} {f : Nat} {nonce : List Byte} (hf : f ≤ 512) (hn : nonce.length = 32) :
    exec (.attestationRequest f nonce) s = .next (s.emit (.bytes (signedObject 7 (nonce ++ s.reportBody f [])))) := by
  have hok : (decide (f ≤ 512) && decide (nonce.length = 32)) = true := by simp [hf, hn]
  change execAttestationRequest f nonce s = _
  simp only [execAttestationRequest, hok, if_true, ← State.reportBody_eq]

/-! The system-register window (R140). -/

section
variable {s r : State} {page reg : Nat} {wr : Option Word} {e : Nat × Nat × Option Word}

theorem State.exec_sysregWindowAccess (hp : page < 514) (hr : reg ≤ 0x1000) :
    exec (.sysregWindowAccess page reg wr) s = .next (s.winAccess (page, reg, wr)) := by
  have hin : (decide (514 ≤ page) || decide (0x1000 < reg)) = false := by simp [hp, hr]
  change execSysregWindowAccess page reg wr s = _
  simp only [execSysregWindowAccess, hin, Bool.false_eq_true, if_false]

theorem State.exec_windowErrorRead (hp : page < 514) : exec (.windowErrorRead page) s = .next (s.winAccess (page, 0x1000, none)) := by
  change execWindowErrorRead page s = _
  simp only [execWindowErrorRead, hp, if_true]

/-- An access waits behind those of its page that wait. -/
theorem State.winAccess_behind (h : s.plat.winq.any (fun x => x.1 == e.1) = true) :
    s.winAccess e = s.onPlat fun p => { p with winq := p.winq ++ [e] } := by
  simp only [State.winAccess, h, if_true, Bool.false_eq_true, if_false]

theorem State.winAccess_done (h : s.plat.winq.any (fun x => x.1 == e.1) = false) (ht : s.winTry e = (true, r)) : s.winAccess e = r := by
  simp only [State.winAccess, h, ht, Bool.false_eq_true, if_false, if_true]

theorem State.winAccess_held (h : s.plat.winq.any (fun x => x.1 == e.1) = false) (ht : s.winTry e = (false, r)) :
    s.winAccess e = r.onPlat fun p => { p with winq := p.winq ++ [e] } := by
  simp only [State.winAccess, h, ht, Bool.false_eq_true, if_false]

theorem State.winTry_register (hr : reg < 0x1000) : s.winTry (page, reg, wr) = s.pageAccess page (s.pageAg page) reg wr := by
  simp only [State.winTry, Nat.ne_of_lt hr, if_false]

/-- An access of a page of the window for which none waits ends with its attempt. -/
theorem State.exec_window_done (hp : page < 514) (hr : reg < 0x1000) (hq : s.plat.winq.any (fun x => x.1 == page) = false)
    (ha : s.pageAccess page (s.pageAg page) reg wr = (true, r)) : exec (.sysregWindowAccess page reg wr) s = .next r := by
  rw [State.exec_sysregWindowAccess hp (Nat.le_of_lt hr), State.winAccess_done hq ((State.winTry_register hr).trans ha)]

variable {a : RegAg} {v x : Word} {k : Nat}

/-- A register of a thread or a cluster engine has no meaning in the window. -/
theorem State.pageAccess_threadReg (hr : reg < 0x300) :
    s.pageAccess page a reg wr = (true, if wr.isNone then s.emit (.value reg 0) else s) := by
  simp only [State.pageAccess, hr, if_true]

variable (h3 : 0x300 ≤ reg)
include h3

theorem State.pageAccess_read_ok (h : s.regRead a reg = .ok x r) : s.pageAccess page a reg none = (true, r.emit (.value reg x)) := by
  simp [State.pageAccess, Nat.not_lt.2 h3, h]

theorem State.pageAccess_read_trap (h : s.regRead a reg = .trap k) :
    s.pageAccess page a reg none = (true, (s.pageError page reg k).emit (.value reg (BitVec.allOnes 64))) := by
  simp [State.pageAccess, Nat.not_lt.2 h3, h]

theorem State.pageAccess_write_ok (h : s.regWrite a reg v = .ok x r) : s.pageAccess page a reg (some v) = (true, r) := by
  simp [State.pageAccess, Nat.not_lt.2 h3, h]

theorem State.pageAccess_write_trap (h : s.regWrite a reg v = .trap k) :
    s.pageAccess page a reg (some v) = (true, s.pageError page reg k) := by
  simp [State.pageAccess, Nat.not_lt.2 h3, h]

theorem State.pageAccess_write_hold (h : s.regWrite a reg v = .hold r) : s.pageAccess page a reg (some v) = (false, r) := by
  simp [State.pageAccess, Nat.not_lt.2 h3, h]

end

section
variable {s : State} {page : Nat} (hp : page < 514) (hq : s.plat.winq.any (fun x => x.1 == page) = false)
include hp hq

theorem State.exec_windowErrorRead_clears : exec (.windowErrorRead page) s =
    .next ((s.emit (.value 0x1000 (s.page page).err)).modPage page fun w => { w with err := 0 }) := by
  rw [State.exec_windowErrorRead hp, State.winAccess_done hq rfl]
  rfl

theorem State.exec_windowErrorStore_clears (v : Word) : exec (.sysregWindowAccess page 0x1000 (some v)) s =
    .next (s.modPage page fun w => { w with err := 0 }) := by
  rw [State.exec_sysregWindowAccess hp (Nat.le_refl _), State.winAccess_done hq rfl]
  rfl

/-- A register write that is held waits in its page with what it has begun. -/
theorem State.exec_window_held {r : State} {reg : Nat} {v : Word} (h3 : 0x300 ≤ reg) (hr : reg < 0x1000)
    (hw : s.regWrite (s.pageAg page) reg v = .hold r) : exec (.sysregWindowAccess page reg (some v)) s =
      .next (r.onPlat fun p => { p with winq := p.winq ++ [(page, reg, some v)] }) := by
  rw [State.exec_sysregWindowAccess hp (Nat.le_of_lt hr),
    State.winAccess_held hq ((State.winTry_register hr).trans (State.pageAccess_write_hold h3 hw))]

end

/-- Settles O50: a window decides by size and alignment; an access of a register page waits behind the page's others, or else is the register
access of the page's agent (`State.exec_window_done`, `State.exec_window_held`). -/
theorem windowsAnswerTheirAccesses : Obligations.WindowsAnswerTheirAccesses := by
  unfold Obligations.WindowsAnswerTheirAccesses
  intro s
  refine ⟨fun page off b => ⟨State.exec_windowDmwr_outside, fun hp hl => ⟨State.exec_windowDmwr_malformed hp hl,
      State.exec_windowDmwr_enqueues hp hl, State.exec_windowBadWrite hp hl⟩⟩, rfl,
    fun core st v hc => State.exec_enqueuePortTrigger hc st v, fun core => rfl, fun f hf => ?_, fun f nonce hf hn => ?_,
    fun page reg v hq hp hr => ?_, fun page reg v hq => ⟨fun hp => ⟨State.exec_windowErrorRead_clears hp hq, ?_,
      State.exec_windowErrorStore_clears hp hq v⟩, fun hp hr => ?_, fun hp h3 hr => ?_⟩⟩
  · change execFunctionLevelReset f s = _
    simp only [execFunctionLevelReset, Nat.not_lt.2 hf, if_false]
  · exact ⟨_, _, State.exec_attestationRequest hf hn, by rw [signedObject_eq, ← List.append_assoc _ nonce], length_signatureBlock _ _⟩
  · rw [State.exec_sysregWindowAccess hp hr, State.winAccess_behind hq]
  · rw [State.exec_windowErrorRead hp, State.exec_sysregWindowAccess hp (Nat.le_refl _)]
  · have ha (wr : Option Word) := State.exec_window_done hp (by omega) hq (State.pageAccess_threadReg (wr := wr) hr)
    exact ⟨ha none, ha (some v)⟩
  · exact ⟨fun x r h => State.exec_window_done hp hr hq (State.pageAccess_read_ok h3 h),
      fun x r h => State.exec_window_done hp hr hq (State.pageAccess_write_ok h3 h), fun r h => State.exec_window_held hp hq h3 hr h,
      fun k h => State.exec_window_done hp hr hq (State.pageAccess_read_trap h3 h),
      fun k h => State.exec_window_done hp hr hq (State.pageAccess_write_trap h3 h)⟩

end Sys2Proof.Machine
end

section
-- One thread elaborates: check.sh limits memory, and counts a stack for each thread that waits.
set_option Elab.async false

namespace Sys2Proof.Machine

/-! O52: the dispatch interface of a die (spec/07 R144 to R146, R154 to R165; spec/10 R218). -/

/-! Which of several is taken is a free choice. -/

section
variable {s : State}

theorem State.readyPop_picks {die : Nat} (h : s.offered die ≠ []) : s.Picks (.readyPop die) (s.offered die) fun t r =>
    ((r.modSlot t.slot fun t => { t with popped := true }).modDisp die fun d => { d with ready1 := t.launch }).emit
      (.value (dispatchAt die 0) t.readyWord) :=
  State.picks_of_cons h fun c cs hl => by
    change execReadyPop die s = _
    simp only [execReadyPop, hl]

/-- The policy that the firmware of a die has read from a table (R158). -/
def State.rereadPolicy (r : State) (d base : Nat) : State :=
  let q := r.physRead base 8208
  let p := (rangeFrom 0 513).map fun f => policyOfBytes ((q.1.drop (16 * f)).take 16)
  q.2.modDisp d fun x => { x with policy := p, polAt := q.2.cycleOf d }

theorem State.readPolicy_eq (r : State) (d : Nat) : r.readPolicy d = r.rereadPolicy d r.task.schbase := by
  unfold State.readPolicy State.rereadPolicy
  rcases r.physRead r.task.schbase 8208 with ⟨b, q⟩
  rfl

theorem State.schedulePolicyReread_picks (h : s.rereads ≠ []) :
    s.Picks .schedulePolicyReread s.rereads fun d r => r.rereadPolicy d s.task.schbase :=
  State.picks_of_cons h fun c cs hl => by
    change execSchedulePolicyReread s = _
    simp only [execSchedulePolicyReread, hl, State.readPolicy_eq, chooseFrom_task]

/-- What SPILL_COMPLETE leaves of a core. -/
def State.spillEnd (c : Nat) (r : State) : State :=
  (match (r.coreAt c).shadow.bind r.imageOf with
    | none => r
    | some (base, m) => m.units.foldl (State.spillUnit c base) (r.writeImage c base m)).modCoreAt c fun k => { k with shadow := none, shSt := 0 }

theorem State.spillComplete_picks (h : s.spillsReady ≠ []) : s.Picks .spillComplete s.spillsReady State.spillEnd :=
  State.picks_of_cons h fun c cs hl => by
    change execSpillComplete s = _
    simp only [execSpillComplete, hl]
    rfl

/-- What FILL_COMPLETE leaves of a core. -/
def State.fillEnd (c : Nat) (r : State) : State :=
  (match (r.coreAt c).shadow.bind r.imageOf with
    | none => r
    | some (base, m) => r.fillCore c base m).modCoreAt c fun k => { k with shSt := 2 }

theorem State.fillComplete_picks (h : s.fillsReady ≠ []) : s.Picks .fillComplete s.fillsReady State.fillEnd :=
  State.picks_of_cons h fun c cs hl => by
    change execFillComplete s = _
    simp only [execFillComplete, hl]
    rfl

end

/-! Bind records (R157, R158). -/

section
variable {s : State} {d w w1 : Nat} {b : BindRec} {bad : TaskSlot → Bool} {t : TaskSlot}

theorem State.submit_unknown (ht : s.bindTask d w w1 = none) : s.submit d w w1 b false bad = s.modDisp d fun x => { x with bindres := 3 } := by
  simp only [State.submit, ht]
  rfl

theorem State.submit_withheld (ht : s.bindTask d w w1 = some t) (hp : s.policyAllows d t = false) : s.submit d w w1 b false bad = s := by
  simp only [State.submit, ht, Option.map_some, hp, beq_self_eq_true, if_true]

theorem State.submit_malformed (ht : s.bindTask d w w1 = some t) (hp : s.policyAllows d t = true) (hb : bad t = true)
    (hf : s.bindBusy d t b = false) : s.submit d w w1 b false bad = s.modDisp d fun x => { x with bindres := 2 } := by
  simp only [State.submit, ht, Option.map_some, hp, hb, hf]
  rfl

theorem State.submit_occupied (ht : s.bindTask d w w1 = some t) (hp : s.policyAllows d t = true) (hb : bad t = false)
    (hf : s.bindBusy d t b = true) : s.submit d w w1 b false bad = s.modDisp d fun x => { x with bindres := 1 } := by
  simp only [State.submit, ht, Option.map_some, hp, hb, hf]
  rfl

theorem State.submit_good (ht : s.bindTask d w w1 = some t) (hp : s.policyAllows d t = true) (hb : bad t = false)
    (hf : s.bindBusy d t b = false) : s.submit d w w1 b false bad = ((s.modDisp d fun x => { x with bindres := 0 }).spend d t).bindAccept t b := by
  simp only [State.submit, ht, Option.map_some, hp, hb, hf]
  rfl

end

section
variable {s : State} {die : Nat} {w w1 : Word}

theorem reserved_zero {ctl : Bool} (hz : bitsOf w.toNat 62 54 = 0) (hw : w1.toNat < 2 ^ 32) (hc : ctl = true → bitsOf w.toNat 52 26 = 0) :
    (bitsOf w.toNat 62 54 != 0 || (ctl && bitsOf w.toNat 52 26 != 0) || decide (2 ^ 32 ≤ w1.toNat)) = false := by
  rw [hz, decide_eq_false (Nat.not_le.2 hw)]
  cases ctl
  · rfl
  · rw [hc rfl]
    rfl

/-- A bind record is submitted by the store of its valid bit. -/
theorem exec_bindSubmit_eq (hd : die < 4) (ctl : Bool) : exec (if ctl then .cbindSubmit die w w1 else .bindSubmit die w w1) s =
    .next (let r := s.modDisp die fun d => { d with bindw1 := w1 }
      if w.getLsbD 63 then r.submit die w.toNat w1.toNat (if ctl then cbindOf die w.toNat else bindOf die w.toNat)
        (bitsOf w.toNat 62 54 != 0 || (ctl && bitsOf w.toNat 52 26 != 0) || decide (2 ^ 32 ≤ w1.toNat))
        fun t => if ctl then r.cbindBad die w.toNat t else r.bindBad die w.toNat t
      else r) := by
  have hw : bitOf w.toNat 63 = w.getLsbD 63 := by
    rw [bitOf, ← BitVec.testBit_toNat, Nat.testBit_eq_decide_div_mod_eq]
    rfl
  cases ctl
  · change execBindSubmit die w w1 s = _
    simp only [execBindSubmit, Nat.not_le.2 hd, if_false, hw, Bool.false_and, Bool.or_false, Bool.false_eq_true]
    cases w.getLsbD 63 <;> rfl
  · change execCbindSubmit die w w1 s = _
    simp only [execCbindSubmit, Nat.not_le.2 hd, if_false, hw, Bool.true_and, if_true]
    cases w.getLsbD 63 <;> rfl

end

/-! SPLIT (R218). -/

section
variable {s : State} {die ix : Nat} {v : Word}

theorem exec_splitSet (hd : die < 4) (hi : ix < 160) : exec (.splitSet die ix v) s = .next
    (if (s.coreAt (coreNo die (ix / 4) (ix % 4))).units = [] ∧ v.toNat % 8 ≤ 5 then
      s.modCoreAt (coreNo die (ix / 4) (ix % 4)) fun k => if k.spk = v.toNat % 8 then k else { k with spk := v.toNat % 8, l1 := [] }
    else s) := by
  change execSplitSet die ix v s = _
  simp [execSplitSet, bitsOf, hd, hi]

theorem State.splitSet_sets (hd : die < 4) (hi : ix < 160) (hu : (s.coreAt (coreNo die (ix / 4) (ix % 4))).units = []) (hn : v.toNat % 8 ≤ 5) :
    s.Leads (.splitSet die ix v) fun r => (r.coreAt (coreNo die (ix / 4) (ix % 4))).spk = v.toNat % 8 := by
  refine ⟨_, (exec_splitSet hd hi).trans (by rw [if_pos ⟨hu, hn⟩]), ?_⟩
  simp only [State.coreAt_modCoreAt, if_true]
  split
  · assumption
  · rfl

theorem State.splitSet_keeps (hd : die < 4) (hi : ix < 160)
    (h : (s.coreAt (coreNo die (ix / 4) (ix % 4))).units ≠ [] ∨ 5 < v.toNat % 8) : exec (.splitSet die ix v) s = .next s := by
  rw [exec_splitSet hd hi, if_neg]
  rintro ⟨hu, hn⟩
  exact h.elim (fun h => h hu) (Nat.not_lt.2 hn)

end

/-! Core contexts (R162 to R165). -/

/-- A context command that fails in one way reports it. -/
theorem State.leads_ctxError {s r : State} {i : Instr} {core k : Nat} (h : exec i s = .next (r.ctxError core [k])) :
    s.Leads i fun x => (x.coreAt core).err = k := by
  refine ⟨r.modCoreAt core fun x => { x with err := k }, h, ?_⟩
  simp only [State.coreAt_modCoreAt, if_true]

section
variable {s : State} {core a : Nat} {m : Saved} (hm : s.core.saved.find a = some m) (hb : s.inBank m.ctx = false)
  (hc : m.complete = true ∨ m.core = core) (ha : badArea s core a = false)
include hm hb hc ha

/-- FILL of an image that may come in: where the shadow bank is not free it is ERR 1. -/
theorem State.ctxFill_image : s.ctxFill core a = if (s.coreAt core).shSt = 0 then
    s.modCoreAt core fun k => { k with shadow := some m.ctx, shSt := 1, err := 0 } else s.ctxError core [1] := by
  have himg : (s.core.saved.find a).filter (fun m => !s.inBank m.ctx) = some m := by
    rw [hm, Option.filter_some, hb]
    rfl
  have hc : (!m.complete && m.core != core) = false := by
    obtain h | h := hc <;> simp [h]
  by_cases hs : (s.coreAt core).shSt = 0 <;> simp [State.ctxFill, hs, himg, hc, ha]

end

/-- The word of a context command: cluster, core, command (R162). -/
def ctxWord (cl n k : Nat) : Word := BitVec.ofNat 64 (32 * cl + 8 * n + k)

theorem ctxWord_fields {cl n k : Nat} (hc : cl < 40) (hn : n < 4) (hk : k < 8) :
    bitsOf (ctxWord cl n k).toNat 10 5 = cl ∧ bitsOf (ctxWord cl n k).toNat 4 3 = n ∧ bitsOf (ctxWord cl n k).toNat 2 0 = k ∧
      bitsOf (ctxWord cl n k).toNat 63 16 = 0 := by
  have hv : (ctxWord cl n k).toNat = 32 * cl + 8 * n + k := by
    rw [ctxWord, BitVec.toNat_ofNat, Nat.mod_eq_of_lt (by omega)]
  rw [hv]
  unfold bitsOf
  omega

/-- The area that a context command names. -/
def ctxArea (area : Word) : Nat := bitsOf area.toNat 51 16 * 2 ^ 16

/-- What a context command leaves of the dispatch registers: the area, and not itself among those that wait. -/
def State.ctxTaken (s : State) (die : Nat) (w area : Word) : State :=
  s.modDisp die fun x => { x with ctxarea := ctxArea area, pend := x.pend.filter (· != (w, area)) }

section
variable {s : State} {die cl n : Nat} {area : Word} (hd : die < 4) (hc : cl < 40) (hn : n < 4) (hon : s.clusterOn die cl = true)
include hd hc hn hon

theorem exec_contextFill : exec (.contextFill die (ctxWord cl n 1) area) s =
    .next ((s.ctxTaken die (ctxWord cl n 1) area).ctxFill (coreNo die cl n) (ctxArea area)) := by
  obtain ⟨h1, h2, h3, -⟩ := ctxWord_fields (k := 1) hc hn (by decide)
  have hon : (s.ctxTaken die (ctxWord cl n 1) area).clusterOn die cl = true := hon
  change execContextFill die (ctxWord cl n 1) area s = _
  simp only [execContextFill, State.ctxCommand, Nat.not_le.2 hd, Nat.not_le.2 hc, h1, h2, h3, if_false]
  exact congrArg _ (if_neg (by rw [Bool.not_eq_true', Bool.not_eq_false]; exact hon))

theorem exec_contextSwap : exec (.contextSwap die (ctxWord cl n 2) area) s =
    .next ((s.ctxTaken die (ctxWord cl n 2) area).ctxSwap die (ctxWord cl n 2) area (coreNo die cl n)) := by
  obtain ⟨h1, h2, h3, -⟩ := ctxWord_fields (k := 2) hc hn (by decide)
  have hon : (s.ctxTaken die (ctxWord cl n 2) area).clusterOn die cl = true := hon
  change execContextSwap die (ctxWord cl n 2) area s = _
  simp only [execContextSwap, State.ctxCommand, Nat.not_le.2 hd, Nat.not_le.2 hc, h1, h2, h3, if_false]
  exact congrArg _ (if_neg (by rw [Bool.not_eq_true', Bool.not_eq_false]; exact hon))

end

/-- A SWAP that waits. -/
def State.swapLater (s : State) (die : Nat) (w area : Word) : State := s.modDisp die fun x => { x with pend := x.pend ++ [(w, area)] }

section
variable {s : State} {die core : Nat} {w area : Word}

theorem State.ctxSwap_later (hs : (s.coreAt core).shSt = 1 ∨ (s.coreAt core).shSt = 3) :
    s.ctxSwap die w area core = s.swapLater die w area := by
  have hs : (decide ((s.coreAt core).shSt = 1) || decide ((s.coreAt core).shSt = 3)) = true := by simpa using hs
  simp only [State.ctxSwap, hs, if_true, State.swapLater]

variable (h1 : (s.coreAt core).shSt ≠ 1) (h3 : (s.coreAt core).shSt ≠ 3) (hh : ∀ e ∈ s.halfBound, e.2.core ≠ core)
include h1 h3 hh

/-- SWAP with the shadow bank at rest and no half-bound record of the core: an area homed on the die is ERR 3; else it waits for the boundaries of
the outgoing context. -/
theorem State.ctxSwap_rest : s.ctxSwap die w area core = if badArea s core (ctxArea area) then s.ctxError core [3]
    else if (s.boundariesOut core).1 then (s.boundariesOut core).2.swapBanks core (ctxArea area) (bitsOf w.toNat 63 16)
    else (s.boundariesOut core).2.swapLater die w area := by
  have hhalf : (s.halfBound.any fun e => e.2.core == core) = false := by
    simpa only [List.any_eq_false, beq_iff_eq] using hh
  simp only [State.ctxSwap, h1, h3, hhalf, decide_false, Bool.or_self, Bool.false_eq_true, if_false, List.append_nil, ctxArea, State.swapLater]
  by_cases ha : badArea s core (bitsOf area.toNat 51 16 * 2 ^ 16) = true
  · simp only [ha, if_true]
    rfl
  · simp only [ha]
    rcases s.boundariesOut core with ⟨_ | _, r⟩ <;> rfl

end

/-! Context commands of a core that takes crews. -/

section
variable {s : State} {die cl n : Nat} {area : Word} (hd : die < 4) (hc : cl < 40) (hn : n < 4) (hon : s.clusterOn die cl = true)
include hd hc hn hon

theorem State.contextFill_fills {m : Saved} (hs : (s.coreAt (coreNo die cl n)).shSt = 0) (hm : s.core.saved.find (ctxArea area) = some m)
    (hb : s.inBank m.ctx = false) (hcm : m.complete = true ∨ m.core = coreNo die cl n) (ha : badArea s (coreNo die cl n) (ctxArea area) = false) :
    exec (.contextFill die (ctxWord cl n 1) area) s = .next ((s.ctxTaken die (ctxWord cl n 1) area).modCoreAt (coreNo die cl n) fun k =>
      { k with shadow := some m.ctx, shSt := 1, err := 0 }) := by
  rw [exec_contextFill hd hc hn hon, State.ctxFill_image (s := s.ctxTaken die _ area) hm hb hcm ha]
  exact congrArg _ (if_pos hs)

theorem State.contextFill_busy (hs : (s.coreAt (coreNo die cl n)).shSt ≠ 0)
    (hm : (s.core.saved.find (ctxArea area)).any (fun m => !s.inBank m.ctx && (m.complete || m.core == coreNo die cl n)) = true)
    (ha : badArea s (coreNo die cl n) (ctxArea area) = false) :
    s.Leads (.contextFill die (ctxWord cl n 1) area) fun x => (x.coreAt (coreNo die cl n)).err = 1 := by
  obtain ⟨m, hf, hm⟩ := (Option.any_eq_true _ _).1 hm
  simp only [Bool.and_eq_true, Bool.not_eq_true', Bool.or_eq_true, beq_iff_eq] at hm
  obtain ⟨hb, hcm⟩ := hm
  refine State.leads_ctxError (r := s.ctxTaken die (ctxWord cl n 1) area) ?_
  rw [exec_contextFill hd hc hn hon, State.ctxFill_image (s := s.ctxTaken die _ area) hf hb hcm ha]
  exact congrArg _ (if_neg hs)

theorem State.contextSwap_waits (hs : (s.coreAt (coreNo die cl n)).shSt = 1 ∨ (s.coreAt (coreNo die cl n)).shSt = 3) :
    exec (.contextSwap die (ctxWord cl n 2) area) s =
      .next ((s.ctxTaken die (ctxWord cl n 2) area).swapLater die (ctxWord cl n 2) area) := by
  rw [exec_contextSwap hd hc hn hon, State.ctxSwap_later (s := s.ctxTaken die _ area) hs]

variable (h1 : (s.coreAt (coreNo die cl n)).shSt ≠ 1) (h3 : (s.coreAt (coreNo die cl n)).shSt ≠ 3)
  (hh : ∀ e ∈ s.halfBound, e.2.core ≠ coreNo die cl n)
include h1 h3 hh

theorem State.contextSwap_swaps (ha : badArea s (coreNo die cl n) (ctxArea area) = false) :
    exec (.contextSwap die (ctxWord cl n 2) area) s = .next
      (let x := (s.ctxTaken die (ctxWord cl n 2) area).boundariesOut (coreNo die cl n)
        if x.1 then x.2.swapBanks (coreNo die cl n) (ctxArea area) 0 else x.2.swapLater die (ctxWord cl n 2) area) := by
  obtain ⟨-, -, -, hmask⟩ := ctxWord_fields (k := 2) hc hn (by decide)
  rw [exec_contextSwap hd hc hn hon, State.ctxSwap_rest (s := s.ctxTaken die _ area) h1 h3 hh, hmask]
  exact congrArg _ (if_neg (Bool.eq_false_iff.1 ha))

theorem State.contextSwap_badArea (ha : badArea s (coreNo die cl n) (ctxArea area) = true) :
    s.Leads (.contextSwap die (ctxWord cl n 2) area) fun x => (x.coreAt (coreNo die cl n)).err = 3 := by
  refine State.leads_ctxError (r := s.ctxTaken die (ctxWord cl n 2) area) ?_
  rw [exec_contextSwap hd hc hn hon, State.ctxSwap_rest (s := s.ctxTaken die _ area) h1 h3 hh]
  exact congrArg _ (if_pos ha)

end

/-! A thread at launch (R146). -/

theorem launched_pred (t : TaskSlot) (b : BindRec) (crew ctx exk now uid i : Nat) {p : Nat} (hp : p < 7) :
    (launched t b crew ctx exk now uid i).pred p = false := by
  rw [Thread.pred, if_pos hp]
  exact BitVec.getLsbD_zero

/-- Settles O52: a bind record is answered by the checks of `State.submit`, a context command by those of `State.ctxFill` and `State.ctxSwap`, and
what carries on with one of several does so by a free choice (`State.picks_of_cons`). -/
theorem dispatchBindsLaunchesAndSwaps : Obligations.DispatchBindsLaunchesAndSwaps := by
  unfold Obligations.DispatchBindsLaunchesAndSwaps
  intro s die hd
  refine ⟨fun h => ?_, State.readyPop_picks, rfl, fun w w1 ctl => ⟨fun hw => ?_, fun hw hz => ?_⟩,
    fun t b crew ctx exk now uid i => ⟨rfl, rfl, rfl, rfl, rfl, fun _ => rfl, fun _ => launched_pred t b crew ctx exk now uid i,
      rfl, rfl, rfl, rfl, rfl⟩,
    fun ix v hi => ⟨State.splitSet_sets hd hi, State.splitSet_keeps hd hi⟩,
    fun cl n area hc hn hon => ⟨fun m => State.contextFill_fills hd hc hn hon, State.contextFill_busy hd hc hn hon,
      State.contextSwap_waits hd hc hn hon, fun h1 h3 hh => ⟨State.contextSwap_swaps hd hc hn hon h1 h3 hh,
        State.contextSwap_badArea hd hc hn hon h1 h3 hh⟩⟩,
    State.schedulePolicyReread_picks, State.spillComplete_picks, State.fillComplete_picks⟩
  · change execReadyPop die s = _
    simp only [execReadyPop, h]
  · rw [exec_bindSubmit_eq hd, hw]
    rfl
  · obtain ⟨hz, hw1, hzc⟩ := hz
    rw [exec_bindSubmit_eq hd, hw, reserved_zero hz hw1 hzc]
    exact ⟨fun ht => congrArg _ (State.submit_unknown ht), fun t ht => ⟨fun hp => congrArg _ (State.submit_withheld ht hp),
      fun hp => ⟨fun hb hf => congrArg _ (State.submit_malformed ht hp hb hf), fun hb hf => congrArg _ (State.submit_occupied ht hp hb hf),
        fun hb hf => congrArg _ (State.submit_good ht hp hb hf)⟩⟩⟩

end Sys2Proof.Machine
end

section
-- One thread elaborates: check.sh limits memory, and counts a stack for each thread that waits.
set_option Elab.async false

namespace Sys2Proof.Machine

/-! Queue registers (spec/07 R160, R161; spec/14 R303; spec/20 R424 to R428): a group of one thread that pops or pushes. -/

theorem Map.del_put {α : Type} (m : Map α) (k : Nat) (v : α) (h : m.find k = none) : (m.put k v).del k = m := by
  induction m with
  | nil => simp [Map.put, Map.del]
  | cons e m ih =>
    obtain ⟨j, w⟩ := e
    have hj : j ≠ k := fun hj => by simp [Map.find, hj] at h
    have hm : Map.find m k = none := by simpa [Map.find, hj] using h
    simp only [Map.put, if_neg hj.symm]
    split
    · simp [Map.del]
    · rw [Map.del, if_neg hj, ih hm]

/-! The thread goes on. -/

/-- The thread u may go on in its group, whatever its context has become: `Steady` without what it says of the context. -/
structure State.Goes (s : State) (u : Nat) (r : State) : Prop where
  there  : (r.thread? u).isSome = true
  groups : r.core.groups = s.core.groups
  calm   : r.Calm [u]
  elems  : r.ext.pushes = []

section
variable {s r t : State} {u : Nat}

theorem State.Steady.goes (k : s.Steady u r) : s.Goes u r := ⟨k.there, k.groups, k.calm, k.elems⟩

theorem State.Goes.modThread (k : s.Goes u r) {φ : Thread → Thread} (hφ : Tame φ) : s.Goes u (r.modThread u φ) := by
  refine ⟨?_, k.groups, k.calm.modThread u φ hφ, k.elems⟩
  rw [State.thread?_modThread r u u φ hφ.uid, if_pos rfl, Option.isSome_map]
  exact k.there

theorem State.Goes.gave (k : s.Goes u r) (d : RegF) (tg : Tag) (v : Nat) : s.Goes u (r.gave u d tg v) := k.modThread (r.wrote_tame u d tg _)

theorem State.Goes.gaveP (k : s.Goes u r) (p : PredF) (b : Bool) : s.Goes u (r.gaveP u p b) := k.modThread (Thread.setPred_tame p.val b)

/-- Where neither threads nor groups nor the elements of queue registers change. -/
theorem State.Goes.of_parts (k : s.Goes u r) (ht : t.core.threads = r.core.threads) (hg : t.core.groups = r.core.groups) (he : t.ext = r.ext) :
    s.Goes u t :=
  ⟨by rw [State.thread?, ht]; exact k.there, hg.trans k.groups, ⟨by rw [ht]; exact k.calm.threads, by rw [he]; exact k.calm.bare⟩,
    by rw [he]; exact k.elems⟩

theorem State.Goes.modCluster (k : s.Goes u r) (cl : Nat) (f : Cluster → Cluster) : s.Goes u (r.modCluster cl f) := k.of_parts rfl rfl rfl

theorem State.Goes.modCrew (k : s.Goes u r) (c : Nat) (f : Crew → Crew) : s.Goes u (r.modCrew c f) := k.of_parts rfl rfl rfl

theorem State.Goes.settleBox (k : s.Goes u r) (cl : Nat) : s.Goes u (r.settleBox cl) := by
  unfold State.settleBox
  split
  · exact k
  · exact k.modCluster cl _

end

/-! What a group of one thread does, whose instruction may name a queue register. -/

/-- What a member's checks look at is as it was. -/
structure State.Apt (s : State) (u : Nat) (t : State) : Prop where
  iword  : t.ext.iword = s.ext.iword
  placed : t.ext.placed = s.ext.placed
  crews  : t.core.crews = s.core.crews
  groups : t.core.groups = s.core.groups
  reqs   : t.core.reqs = s.core.reqs
  thread : t.thread u = s.thread u

section
variable {s q x y z r : State} {g : Group} {gd : Guard} {sp : Spec} {u : Nat} {i : Instr}

theorem State.Mid.apt (h : s.Mid u x) : s.Apt u x := ⟨by rw [h.ext], by rw [h.ext], h.crews, h.groups, h.reqs, h.thread⟩

theorem State.Apt.check (h : s.Apt u x) (sp : Spec) : sp.check x (x.thread u) = sp.check s (s.thread u) := by
  simp [Spec.check, State.nregs, State.crew?, h.iword, h.crews, h.thread]

theorem State.Apt.conflicts (h : s.Apt u x) (l : List Nat) : x.conflicts u l = s.conflicts u l := by simp [State.conflicts, h.reqs]

theorem State.Apt.trans (h : s.Apt u x) (k : x.Apt u y) : s.Apt u y :=
  ⟨k.iword.trans h.iword, k.placed.trans h.placed, k.crews.trans h.crews, k.groups.trans h.groups, k.reqs.trans h.reqs, k.thread.trans h.thread⟩

/-- A member that passes its checks does what its instruction means. -/
theorem State.Passes.member_eq (h : s.Passes g gd sp) (hu : u ∈ s.activeIn g gd) (hx : s.Apt u x) (f : Nat → State → Flow × State) :
    sp.member f u x = f u x := by
  have hc : x.conflicts u (sp.reads (x.thread u).isCtl ++ sp.writes (x.thread u).isCtl) = [] := by
    rw [hx.conflicts, hx.thread]; exact h.clear u hu
  unfold Spec.member
  simp only [(hx.check sp).trans (h.checked u hu), Spec.lookahead_idle sp x u hc]
  cases hp : sp.primary with
  | false => rfl
  | true =>
    simp only [Bool.not_true, Bool.false_eq_true, if_false]
    split
    · rfl
    · rename_i c hcr
      have : c.peer = none := h.unpaired hp u hu c (by simpa [State.crew?, hx.crews, hx.thread] using hcr)
      simp [this]

variable (h : s.Passes g gd sp) (h1 : g.members = [u]) (hg : (s.thread u).guardOk gd = true)
include h h1 hg

/-- The thread does not go on at its queue register. -/
theorem State.Passes.isaAll_held {hold : Hold} {f : State → Nat → State → Flow × State} {idle : Nat → State → Flow × State}
    (hh : hold [u] (s.charge [u]) = ([u], q)) (hq : sp.queues q (clusterOf g.core) [u] = ([], [], x)) (ho : x.Out u) (hp : x.ext.pushes = []) :
    s.isaAll gd sp hold f idle = x := by
  have hact : [u].filter (fun u => (s.thread u).guardOk gd) = [u] := List.filter_cons_of_pos hg
  have hu : u ∈ s.activeIn g gd := State.mem_activeIn.2 ⟨by simp [h1], hg⟩
  have hb : [u].any (sp.blocked s) = false := by simp [Spec.blocked_idle sp s u (h.clear u hu)]
  have hin : x.inGroup g.core u = false := by
    simp only [State.inGroup, List.any_eq_false, Bool.and_eq_true, List.contains_iff_mem, not_and]
    exact fun y hy _ => ho y hy
  have k0 : x.Calm [] := ⟨fun _ _ h => absurd h List.not_mem_nil, fun _ h => absurd h List.not_mem_nil⟩
  have hcharge : s.chargeIssue g = s.charge [u] := by rw [h.toIssues.chargeIssue_eq, h1]
  unfold State.isaAll
  simp only [h.cur, h.whole, h1, h.encoded, hact, hb, hcharge, hh, hq, hin, Option.getD_none, List.foldl_cons, List.foldl_nil, Bool.not_true,
    Bool.not_false, Bool.true_or, if_true, Bool.false_eq_true, if_false, List.filter_cons, List.filter_nil, Bool.false_and]
  rw [State.flushPushes_none x _ _ hp k0, State.advance_out h1 _ ho]

/-- The thread goes on after its queue registers have done their part, and what it has pushed is appended. -/
theorem State.Passes.becomes {hold : Hold} {f : State → Nat → State → Flow × State} {idle : Nat → State → Flow × State}
    (he : exec i s = .next (s.isaAll gd sp hold f idle))
    (hh : hold [u] (s.charge [u]) = ([u], q)) (hq : sp.queues q (clusterOf g.core) [u] = ([u], [], x)) (hx : s.Apt u x)
    (hf : f x u x = (.next, y)) (hz : y.applyFlow u .next = z) (hzg : z.core.groups = s.core.groups)
    (hr : z.flushPushes (clusterOf g.core) [u] = r) (k : s.Goes u r) : s.Becomes i r := by
  have hact : [u].filter (fun u => (s.thread u).guardOk gd) = [u] := List.filter_cons_of_pos hg
  have hu : u ∈ s.activeIn g gd := State.mem_activeIn.2 ⟨by simp [h1], hg⟩
  have hb : [u].any (sp.blocked s) = false := by simp [Spec.blocked_idle sp s u (h.clear u hu)]
  have hcharge : s.chargeIssue g = s.charge [u] := by rw [h.toIssues.chargeIssue_eq, h1]
  have inGroup_of (t : State) (ht : t.core.groups = s.core.groups) : t.inGroup g.core u = true := by
    have := List.mem_of_find?_eq_some h.here
    simp only [State.inGroup, ht, List.any_eq_true]
    exact ⟨g, this, by simp [h1]⟩
  have hclear : x.conflicts u (sp.reads (x.thread u).isCtl ++ sp.writes (x.thread u).isCtl) = [] := by
    rw [hx.conflicts, hx.thread]; exact h.clear u hu
  have hbare : x.ext.placed.contains u = false := by rw [hx.placed]; exact (h.calm.bare u (by simp [h1])).2
  have hall : s.isaAll gd sp hold f idle = r.advance g [] := by
    unfold State.isaAll
    simp only [h.cur, h.whole, h1, h.encoded, hact, hb, hcharge, hh, hq, inGroup_of x hx.groups, hbare, h.member_eq hu hx, hf, hz,
      Spec.window_idle sp x u hclear, inGroup_of z hzg, Option.getD_none, List.foldl_cons, List.foldl_nil, List.contains_cons, List.contains_nil,
      beq_self_eq_true, Bool.or_false, Bool.not_true, List.isEmpty_nil, Bool.and_false, Bool.false_eq_true, if_false, ite_self,
      List.filter_cons, List.filter_nil, Bool.not_false, Bool.and_true, if_true, show (Flow.next == Flow.stall) = false from rfl, hr]
  have hc : r.Calm g.members := by rw [h1]; exact k.calm
  refine ⟨_, he, ?_⟩
  rw [hall]
  refine ⟨State.like_advance r g _ fun x hx => ?_, fun x hx v hv => ?_⟩
  · rw [k.groups, h.here] at hx
    cases hx
    exact hc
  · obtain rfl : g = x := Option.some.inj (h.cur.symm.trans hx)
    obtain rfl : v = u := by rw [h1] at hv; exact List.mem_singleton.1 hv
    exact State.pos_advance r g (by rw [k.groups]; exact h.here) hc v hv k.there

end

/-- An instruction whose meaning goes on completes. -/
theorem State.RunsAlone.becomes_all {s r : State} {g : Group} {gd : Guard} {sp : Spec} {u : Nat} {i : Instr} {hold : Hold}
    {f : State → Nat → State → Flow × State} {idle : Nat → State → Flow × State} (h : s.RunsAlone g u gd sp)
    (he : exec i s = .next (s.isaAll gd sp hold f idle)) (hh : hold [u] (s.charge [u]) = ([u], s.charge [u]))
    (hf : f (s.charge [u]) u (s.charge [u]) = (.next, r)) (k : s.Goes u r) : s.Becomes i r :=
  ⟨_, he, h.next_like hold f idle hh r hf k.calm k.groups k.elems k.there⟩

/-! What becomes of the element that a thread has popped. -/

section
variable {s c r : State} {g : Group} {gd : Guard} {u n cl : Nat} {b : QBind}

/-- A thread has an element that it has popped. -/
def State.holds (s : State) (u : Nat) (v : Word) : State := s.onExt fun e => { e with pops := e.pops.put u v }

/-- A calm thread that goes on keeps its place, and uses up the element it has popped. -/
theorem State.applyFlow_next_unpop {y : State} (h1 : (y.thread u).stepping = false) (h2 : (y.thread u).reissue = false) :
    y.applyFlow u .next = y.unpop u := by
  simp [State.applyFlow, h1, h2]

/-- A thread that goes on with an element that it has popped leaves what is left without the element. -/
theorem State.Goes.applyFlow_popped {y : State} (k : s.Goes u r) (hc : y.core = r.core) (hu : y.unpop u = r) : y.applyFlow u .next = r := by
  have ht : y.thread u = r.thread u := by
    rw [State.thread, State.thread?, hc]
    rfl
  obtain ⟨h1, h2, -⟩ := k.calm.thread u (by simp)
  rw [State.applyFlow_next_unpop (by rw [ht]; exact h1) (by rw [ht]; exact h2), hu]

/-- An element that is popped and used up leaves nothing. -/
theorem State.Calm.unpop_holds (k : c.Calm [u]) (v : Word) : (c.holds u v).unpop u = c := by
  obtain ⟨hf, -⟩ := k.bare u (by simp)
  have h : (c.holds u v).unpop u = c.unpop u := by
    simp only [State.unpop, State.holds, State.onExt, Map.del_put _ u v hf, Map.del_absent _ _ hf]
  rw [h, k.unpop u (by simp)]

theorem State.unpop_modThread (f : Thread → Thread) (v : Nat) : (s.modThread v f).unpop u = (s.unpop u).modThread v f := rfl

theorem State.unpop_modCluster (f : Cluster → Cluster) : (s.modCluster cl f).unpop u = (s.unpop u).modCluster cl f := rfl

/-- The element of a row that a thread takes (R160, R303). -/
def Thread.takes (t : Thread) (x : Word) (row : List Word) : Word :=
  if t.isCtl = true then x else BitVec.ofNat 64 ((if row = [] then x else (x :: row).getD t.id.lane 0).toNat % 2 ^ 32)

/-- What a thread leaves of the rows whose first it pops. -/
def Thread.leaves (t : Thread) (row : List Word) (rest : List (List Word)) : List (List Word) :=
  if t.isCtl = true ∧ row ≠ [] then row :: rest else rest

theorem State.popRow_one {x : Word} {row : List Word} {rest : List (List Word)} {crew : Nat} (hb : c.binding crew n = some b)
    (hr : (c.clusterAt cl).rows b.ep = (x :: row) :: rest) : c.popRow crew cl n [u] =
      (c.holds u ((c.thread u).takes x row)).modCluster cl fun k => k.setRows b.ep ((c.thread u).leaves row rest) := by
  unfold State.popRow
  simp only [hb, hr, List.any_cons, List.any_nil, Bool.or_false, List.foldl_cons, List.foldl_nil, List.headD_cons, List.tail_cons,
    Thread.takes, Thread.leaves, State.holds]
  cases row with
  | nil => cases (c.thread u).isCtl <;> simp
  | cons y row => cases (c.thread u).isCtl <;> simp

/-- To pop a row touches nothing that a member's checks look at. -/
theorem State.holds_apt (c : State) (u cl : Nat) (v : Word) (f : Cluster → Cluster) : c.Apt u ((c.holds u v).modCluster cl f) :=
  ⟨rfl, rfl, rfl, rfl, rfl, rfl⟩

/-! Tests of a queue register (R161). -/

theorem State.popTest_unbound {crew : Nat} (hb : c.binding crew n = none) : c.popTest crew cl n = .trap 0x18 := by
  simp only [State.popTest, hb]

theorem State.popTest_broken {crew : Nat} (hb : c.binding crew n = some b) (hk : b.brk = true) : c.popTest crew cl n ≠ .ok := by
  simp only [State.popTest, hb, hk, if_true]
  split <;> simp

variable {crew : Nat} (hb : c.binding crew n = some b) (hk : b.brk = false)
include hb hk

theorem State.popTest_empty (hp : b.push = false) (hr : (c.clusterAt cl).rows b.ep = []) : c.popTest crew cl n = .wait := by
  simp [State.popTest, hb, hp, hk, hr]

theorem State.popTest_row {row : List Word} {rest : List (List Word)} (hp : b.push = false)
    (hr : (c.clusterAt cl).rows b.ep = row :: rest) : c.popTest crew cl n = .ok := by
  simp [State.popTest, hb, hp, hk, hr]

theorem State.pushTest_row {m : Nat} (hp : b.push = true) (he : b.ep < 2) (hr : rowCount ((c.clusterAt cl).rows b.ep) + m ≤ 256)
    (hd : b.ep = 1 → c.drains cl = false) : c.pushTest crew cl n m = .ok := by
  have hd : (decide (b.ep = 1) && c.drains cl) = false := by
    by_cases h : b.ep = 1
    · simp [hd h]
    · simp [h]
  simp [State.pushTest, hb, hp, hk, he, hr, hd]

end

/-! What becomes of the element that a thread pushes. -/

section
variable {s c : State} {u n cl : Nat} {b : QBind}

/-- A thread has pushed an element, which is to be appended. -/
def State.pushed (s : State) (u n : Nat) (v : Word) : State := s.onExt fun e => { e with pushes := e.pushes ++ [(u, n, v)] }

theorem State.Goes.applyFlow_pushed (k : s.Goes u c) (v : Word) : (c.pushed u n v).applyFlow u .next = c.pushed u n v :=
  State.applyFlow_next _ u ⟨k.calm.threads, k.calm.bare⟩

/-- The one element pushed is a row of its inbox or outbox. -/
theorem State.Goes.flushPushes_pushed (k : s.Goes u c) (v : Word) (hb : c.binding (c.thread u).id.crew n = some b) (he : b.ep < 2) :
    (c.pushed u n v).flushPushes cl [u] = c.modCluster cl fun k => k.setRows b.ep (k.rows b.ep ++ [[v]]) := by
  have hps : (c.pushed u n v).ext.pushes = [(u, n, v)] := by simp [State.pushed, k.elems]
  have hclear : ((c.pushed u n v).onExt fun e => { e with pushes := [] }) = c := by
    have h : (c.onExt fun e => { e with pushes := [] }) = c := by rw [← k.elems]; rfl
    exact h
  unfold State.flushPushes
  simp only [hps, hclear, List.foldl_cons, List.foldl_nil, k.calm.unpop u (by simp), List.map_cons, List.map_nil,
    show ∀ x : Nat × Nat, [x].eraseDups = [x] from fun _ => rfl, hb, he, if_true, List.filter_cons, List.filter_nil, beq_self_eq_true,
    Bool.and_self]

end

/-! What the queue registers of an instruction do for one thread. -/

section
variable {c : State} {sp : Spec} {u n cl : Nat} (hcheck : sp.check c (c.thread u) = none)
include hcheck

theorem Spec.queues_pop (hs : sp.queueSrc = some n) (hd : sp.queueDst = none) (hf : c.ext.pops.find u = none) :
    sp.queues c cl [u] = match c.popTest (c.thread u).id.crew cl n with
      | .ok => ([u], [], c.popRow (c.thread u).id.crew cl n [u])
      | .wait => ([], [], c.wait u .qpop false n 0)
      | .trap k => ([], [], c.applyFlow u (.trap k (BitVec.ofNat 64 (0xE0 + n)) false)) := by
  have hgood : [u].filter (fun u => (sp.check c (c.thread u)).isNone) = [u] := List.filter_cons_of_pos (by rw [hcheck]; rfl)
  have hneed : [u].filter (fun u => (c.ext.pops.find u).isNone) = [u] := List.filter_cons_of_pos (by rw [hf]; rfl)
  unfold Spec.queues
  simp only [hs, hd, hgood, Option.isNone_some, Bool.false_and, Bool.false_eq_true, if_false, List.map_cons, List.map_nil,
    show ∀ x : Nat, [x].eraseDups = [x] from fun _ => rfl, List.foldl_cons, List.foldl_nil, List.filter_cons, List.filter_nil, beq_self_eq_true,
    if_true, State.crewPop, hneed]
  cases c.popTest (c.thread u).id.crew cl n <;> simp [State.crewPush, State.queueWait, State.queueTrap]

theorem Spec.queues_push (hs : sp.queueSrc = none) (hd : sp.queueDst = some n) (hp : c.ext.placed.contains u = false)
    (ht : c.pushTest (c.thread u).id.crew cl n 1 = .ok) (hroom : c.pushRoom (c.thread u).id.crew n 1 = 1) :
    sp.queues c cl [u] = ([u], [], c) := by
  have hgood : [u].filter (fun u => (sp.check c (c.thread u)).isNone) = [u] := List.filter_cons_of_pos (by rw [hcheck]; rfl)
  have hdue : [u].filter (fun u => !c.ext.placed.contains u) = [u] := List.filter_cons_of_pos (by rw [hp]; rfl)
  unfold Spec.queues
  simp only [hs, hd, hgood, Option.isNone_none, Option.isNone_some, Bool.true_and, Bool.false_eq_true, if_false, List.map_cons, List.map_nil,
    show ∀ x : Nat, [x].eraseDups = [x] from fun _ => rfl, List.foldl_cons, List.foldl_nil, List.filter_cons, List.filter_nil, beq_self_eq_true,
    if_true, State.crewPop, State.crewPush, List.contains_nil, Bool.not_false, hdue, List.length_cons, List.length_nil, Nat.zero_add, ht, hroom,
    List.take_succ_cons, List.take_zero, Bool.or_false]
  simp

end

end Sys2Proof.Machine
end

section
-- One thread elaborates: check.sh limits memory, and counts a stack for each thread that waits.
set_option Elab.async false

namespace Sys2Proof.Machine

/-! O44: queue registers with MOV. -/

section
variable {s r : State} {g : Group} {gd : Guard} {u c : Nat} {n : Fin 16} {d a : RegF} {b : QBind} {h : Bool} {v : Word}

theorem State.Charged.trapOpen {t : State} (k : s.Charged t) (ho : s.TrapOpen u c h) : t.TrapOpen u c h := by
  obtain ⟨hl, hb, hv, hc⟩ := ho
  have hfn := k.handlers
  refine ⟨?_, ?_, ?_, ?_⟩
  · rw [k.thread, ← hl]
    simp only [State.trapToH, hfn]
  · rwa [k.thread]
  · simpa only [k.thread, hfn] using hv
  · rwa [k.thread]

theorem Thread.trapped_calm (t : Thread) (h : Bool) (c : Nat) (v : Word) (p : Pos) (vec now : Nat) :
    (t.trapped h c v p vec now).stepping = t.stepping ∧ (t.trapped h c v p vec now).reissue = t.reissue ∧
      (t.trapped h c v p vec now).mark = none := by
  cases h <;> exact ⟨rfl, rfl, rfl⟩

/-- A thread that has entered its handler is calm. -/
theorem State.Calm.tookTrap (k : r.Calm [u]) (h : Bool) (c : Nat) (v : Word) (p : Pos) : (r.tookTrap u h c v p).Calm [u] := by
  refine ⟨fun t ht hu => ?_, k.bare⟩
  obtain ⟨x, hx, rfl⟩ := List.mem_map.1 ht
  split at hu <;> rename_i e
  · obtain ⟨h1, h2, h3⟩ := x.trapped_calm h c v p (if h then (r.fnAt (r.thread u).id.fn).tvech else (r.fnAt (r.thread u).id.fn).tvecg) (r.now x)
    obtain ⟨k1, k2, -⟩ := k.threads x hx (by simpa using e)
    rw [if_pos e]
    exact ⟨h1.trans k1, h2.trans k2, h3⟩
  · rw [if_neg e]
    exact k.threads x hx hu

/-- A calm thread that traps enters its open handler. -/
theorem State.applyFlow_trap (k : r.Calm [u]) (ho : r.TrapOpen u c h) :
    r.applyFlow u (.trap c v false) = r.tookTrap u h c v (r.thread u).pos := by
  obtain ⟨hl, hb, hv, hc⟩ := ho
  have hcause : (c == 0x0B && !(r.thread u).ct.isEmpty) = false := by
    cases hcc : c == 0x0B
    · rfl
    · simp [hc (by simpa using hcc)]
  have hs : (Flow.trap c v false == Flow.stall || Flow.trap c v false == Flow.left) = false := rfl
  simp only [State.applyFlow, (k.thread u (by simp)).2.1, hs, k.unpop u (by simp), State.raise, hcause, Bool.false_and, Bool.false_eq_true, if_false]
  rw [State.trapEntry_eq r u c v _ h hl (if h then (r.fnAt (r.thread u).id.fn).tvech else (r.fnAt (r.thread u).id.fn).tvecg)
    (by cases h <;> simpa using hv) hb k]
  exact State.endStep_calm _ u (k.tookTrap h c v _)

theorem State.tookTrap_out (r : State) (u : Nat) (h : Bool) (c : Nat) (v : Word) (p : Pos) : (r.tookTrap u h c v p).Out u :=
  (r.leave_out u).modThread _ _

theorem State.Charged.binding {t : State} (k : s.Charged t) (crew q : Nat) : t.binding crew q = s.binding crew q := by
  rw [State.binding, k.crew?]
  rfl

theorem State.Charged.clusterAt {t : State} (k : s.Charged t) (cl : Nat) : t.clusterAt cl = s.clusterAt cl := by
  rw [State.clusterAt, k.core]
  rfl

theorem State.Charged.drains {t : State} (k : s.Charged t) (cl : Nat) : t.drains cl = s.drains cl := by
  rw [State.drains, k.clusterAt]
  rfl

/-- The charge of an issue leaves its thread free to go on. -/
theorem State.Passes.goes_charge {sp : Spec} (hr : s.Passes g gd sp) (h1 : g.members = [u]) : s.Goes u (s.charge [u]) := by
  have ck := s.charged_charge [u]
  have hu : u ∈ g.members := by simp [h1]
  refine ⟨by rw [ck.thread?]; exact hr.present u hu, by rw [ck.core], ck.like.calm _ ?_, by rw [ck.ext]; exact hr.fresh⟩
  rw [← h1]
  exact hr.calm

theorem State.Passes.check_charge {sp : Spec} (hr : s.Passes g gd sp) (h1 : g.members = [u]) (hg : (s.thread u).guardOk gd = true) :
    sp.check (s.charge [u]) ((s.charge [u]).thread u) = none := by
  have ck := s.charged_charge [u]
  rw [ck.thread, ck.check]
  exact hr.checked u (State.mem_activeIn.2 ⟨by simp [h1], hg⟩)

/-- What MOV demands of its operands. -/
def movSpec (d a : RegF) : Spec := { srcs := [⟨1, a, .any⟩], dsts := [(d, 1)] }

/-- The meaning of MOV for one thread. -/
def movTo (d a : RegF) (u : Nat) (s : State) : Flow × State := (.next, s.copyReg u d (s.readR (s.thread u) a))

theorem exec_mov (s : State) : exec (.mov gd d a false) s =
    .next (s.isaAll gd (movSpec d a) (fun us s => (us, s)) (fun _ => movTo d a) fun _ s => (.next, s)) := rfl

theorem State.thread_uid (h : (s.thread? u).isSome = true) : (s.thread u).uid = u := by
  obtain ⟨t, ht⟩ := Option.isSome_iff_exists.1 h
  have hu := List.find?_some ht
  rw [State.thread, ht]
  exact beq_iff_eq.1 hu

/-- MOV of the element that the thread has popped. -/
theorem movTo_holds {cl : Nat} {f : Cluster → Cluster} (h : (s.thread? u).isSome = true) (hd : isQueue d = false) :
    movTo d (.que n) u ((s.holds u v).modCluster cl f) =
      (.next, ((s.holds u v).modCluster cl f).modThread u fun t => t.took d ⟨v, .b32⟩) := by
  have hread : ((s.holds u v).modCluster cl f).readR (s.thread u) (.que n) = ⟨v, .b32⟩ := by
    change (⟨(s.ext.pops.put u v).getD 0 (s.thread u).uid, .b32⟩ : Reg) = _
    rw [State.thread_uid h, Map.getD_put, if_pos rfl]
  rw [movTo, State.copyReg_took _ u d hd]
  exact congrArg (fun x => (Flow.next, ((s.holds u v).modCluster cl f).modThread u fun t => t.took d x)) hread

/-- A field that names no queue register pops and pushes nothing. -/
theorem movSpec_unqueued (hr : ∀ q, a ≠ .que q) :
    isQueue a = false ∧ (∀ x, (movSpec a x).queueDst = none) ∧ ∀ x, (movSpec x a).queueSrc = none := by
  cases a with
  | que q => exact absurd rfl (hr q)
  | gpr _ | vz | lane | slot => exact ⟨rfl, fun _ => rfl, fun _ => rfl⟩

end

/-! MOV from a queue register. -/

section
variable {s : State} {g : Group} {gd : Guard} {u : Nat} {n : Fin 16} {d : RegF} {b : QBind} {h : Bool}
  (hr : s.Passes g gd (movSpec d (.que n))) (h1 : g.members = [u]) (hg : (s.thread u).guardOk gd = true) (hcore : g.core = (s.thread u).id.core)
  (hd : ∀ q, d ≠ .que q)
include hr h1 hg hcore hd

theorem State.Passes.mov_queues : (movSpec d (.que n)).queues (s.charge [u]) (clusterOf g.core) [u] =
    match (s.charge [u]).popTest (s.thread u).id.crew (clusterOf (s.thread u).id.core) n with
      | .ok => ([u], [], (s.charge [u]).popRow (s.thread u).id.crew (clusterOf (s.thread u).id.core) n [u])
      | .wait => ([], [], (s.charge [u]).wait u .qpop false n 0)
      | .trap k => ([], [], (s.charge [u]).applyFlow u (.trap k (BitVec.ofNat 64 (0xE0 + n.val)) false)) := by
  have k := hr.goes_charge h1
  have e := Spec.queues_pop (n := n.val) (cl := clusterOf g.core) (hr.check_charge h1 hg) rfl ((movSpec_unqueued hd).2.1 _)
    (k.calm.bare u (by simp)).1
  rw [(s.charged_charge [u]).thread] at e
  rw [← hcore]
  exact e

theorem State.Passes.mov_traps (hb : s.binding (s.thread u).id.crew n = none) (ho : s.TrapOpen u 0x18 h) :
    s.Exactly u (.mov gd d (.que n) false) fun r => r.tookTrap u h 0x18 (BitVec.ofNat 64 (0xE0 + n.val)) (s.thread u).pos := by
  have ck := s.charged_charge [u]
  have k := hr.goes_charge h1
  have hq := hr.mov_queues h1 hg hcore hd
  rw [State.popTest_unbound ((ck.binding _ _).trans hb)] at hq
  simp only [State.applyFlow_trap k.calm (ck.trapOpen ho), ck.thread] at hq
  rw [State.Exactly, exec_mov, hr.isaAll_held h1 hg rfl hq (State.tookTrap_out _ u h 0x18 _ _) k.elems]

variable (hb : s.binding (s.thread u).id.crew n = some b) (hp : b.push = false) (hk : b.brk = false)
include hb hp hk

theorem State.Passes.mov_waits (hrow : (s.clusterAt (clusterOf (s.thread u).id.core)).rows b.ep = []) :
    s.Exactly u (.mov gd d (.que n) false) fun r => r.wait u .qpop false n.val 0 := by
  have ck := s.charged_charge [u]
  have k := hr.goes_charge h1
  have hq := hr.mov_queues h1 hg hcore hd
  rw [State.popTest_empty ((ck.binding _ _).trans hb) hk hp (by rw [ck.clusterAt]; exact hrow)] at hq
  have hw := State.wait_waits k.there (k.calm.thread u (by simp)).2.1 k.elems .qpop false n.val 0
  rw [State.Exactly, exec_mov, hr.isaAll_held h1 hg rfl hq hw.out hw.elems]

theorem State.Passes.mov_pops {x : Word} {row : List Word} {rest : List (List Word)}
    (hrow : (s.clusterAt (clusterOf (s.thread u).id.core)).rows b.ep = (x :: row) :: rest) :
    s.Becomes (.mov gd d (.que n) false) (((s.charge [u]).modCluster (clusterOf (s.thread u).id.core) fun k =>
      k.setRows b.ep ((s.thread u).leaves row rest)).modThread u fun t => t.took d ⟨(s.thread u).takes x row, .b32⟩) := by
  have ck := s.charged_charge [u]
  have k := hr.goes_charge h1
  have hrow : ((s.charge [u]).clusterAt (clusterOf (s.thread u).id.core)).rows b.ep = (x :: row) :: rest := by rw [ck.clusterAt]; exact hrow
  have hbc := (ck.binding (s.thread u).id.crew n).trans hb
  have hq := hr.mov_queues h1 hg hcore hd
  rw [State.popTest_row hbc hk hp hrow] at hq
  simp only [State.popRow_one hbc hrow, ck.thread] at hq
  have hx := (ck.mid u).apt.trans ((s.charge [u]).holds_apt u (clusterOf (s.thread u).id.core) ((s.thread u).takes x row)
    fun k => k.setRows b.ep ((s.thread u).leaves row rest))
  have kr := (k.modCluster (clusterOf (s.thread u).id.core) fun k => k.setRows b.ep ((s.thread u).leaves row rest)).modThread
    (Thread.took_tame d ⟨(s.thread u).takes x row, .b32⟩)
  refine hr.becomes h1 hg (exec_mov s) rfl hq hx (movTo_holds k.there (movSpec_unqueued hd).1) (kr.applyFlow_popped rfl ?_) kr.groups
    (State.flushPushes_none _ _ _ kr.elems kr.calm) kr
  rw [State.unpop_modThread, State.unpop_modCluster, k.calm.unpop_holds]

end

/-! MOV to a queue register. -/

theorem State.Passes.mov_pushes {s : State} {g : Group} {gd : Guard} {u : Nat} {n : Fin 16} {a : RegF} {b : QBind}
    (hr : s.Passes g gd (movSpec (.que n) a)) (h1 : g.members = [u]) (hg : (s.thread u).guardOk gd = true)
    (hcore : g.core = (s.thread u).id.core) (ha : ∀ q, a ≠ .que q) (hb : s.binding (s.thread u).id.crew n = some b) (hp : b.push = true)
    (hk : b.brk = false) (he : b.ep < 2) (hroom : rowCount ((s.clusterAt (clusterOf (s.thread u).id.core)).rows b.ep) + 1 ≤ 256)
    (hdr : b.ep = 1 → s.drains (clusterOf (s.thread u).id.core) = false) :
    s.Becomes (.mov gd (.que n) a false) ((s.charge [u]).modCluster (clusterOf (s.thread u).id.core) fun k =>
      k.setRows b.ep (k.rows b.ep ++ [[(s.readR (s.thread u) a).val]])) := by
  have ck := s.charged_charge [u]
  have k := hr.goes_charge h1
  have hbc : (s.charge [u]).binding ((s.charge [u]).thread u).id.crew n = some b := by rw [ck.binding, ck.thread]; exact hb
  have hroom : (s.charge [u]).pushRoom ((s.charge [u]).thread u).id.crew n 1 = 1 := by simp only [State.pushRoom, hbc, he, if_true]
  have hq := Spec.queues_push (n := n.val) (cl := clusterOf g.core) (hr.check_charge h1 hg) ((movSpec_unqueued ha).2.2 _) rfl (k.calm.bare u (by simp)).2
    (State.pushTest_row hbc hk hp he (by rwa [ck.clusterAt, hcore]) (by rwa [ck.drains, hcore])) hroom
  have hf : movTo (.que n) a u (s.charge [u]) = (.next, (s.charge [u]).pushed u n (s.readR (s.thread u) a).val) := by
    rw [← ((ck.mid u).readR a)]
    rfl
  rw [← hcore]
  exact hr.becomes h1 hg (exec_mov s) rfl hq (ck.mid u).apt hf (k.applyFlow_pushed _) k.groups
    (k.flushPushes_pushed _ hbc he) (k.modCluster _ _)

/-- Settles O44: the queue registers of an instruction act before and after its meaning (`State.Passes.becomes`), or hold its thread back
(`State.Passes.isaAll_held`). -/
theorem queueRegistersPopAndPush : Obligations.QueueRegistersPopAndPush := by
  unfold Obligations.QueueRegistersPopAndPush
  intro s g gd u n d a h1 hg t c cl hcore
  exact ⟨fun hr hd => ⟨fun h hb ho => hr.mov_traps h1 hg hcore hd hb ho, fun b hb hp hk => ⟨hr.mov_waits h1 hg hcore hd hb hp hk,
      fun x row rest => hr.mov_pops h1 hg hcore hd hb hp hk⟩⟩,
    fun hr ha b hb hp hk he hroom hdr => hr.mov_pushes h1 hg hcore ha hb hp hk he hroom hdr⟩

end Sys2Proof.Machine
end

section
-- One thread elaborates: check.sh limits memory, and counts a stack for each thread that waits.
set_option Elab.async false

namespace Sys2Proof.Machine

/-! O37: QBIND, QUNBIND, QSTAT, QTRY (spec/20 R425 to R428). -/

section
variable {s : State} {g : Group} {gd : Guard} {u : Nat} {n : Fin 16} {a d : RegF} {p bk : PredF} {b : QBind}

theorem State.Charged.endLoad {t : State} (k : s.Charged t) (crew : Nat) (b : QBind) : t.endLoad crew b = s.endLoad crew b := by
  simp only [State.endLoad, State.endpoint, k.crew?, k.core]

theorem State.RunsAlone.goes_charge {sp : Spec} (h : s.RunsAlone g u gd sp) : s.Goes u (s.charge [u]) := h.steady_charge.goes

/-! QBIND and QUNBIND (R425). -/

/-- The members of a group of one thread agree. -/
theorem State.RunsAlone.crewMates_agree {sp : Spec} (h : s.RunsAlone g u gd sp) (sp' : Spec) (a : RegF) :
    ((s.charge [u]).crewMates gd sp' u).any (fun w => (s.charge [u]).src w a != s.bits u a 64) = false := by
  have hcur : (s.charge [u]).ext.cur = some g := by rw [(s.charged_charge [u]).ext]; exact h.cur
  refine List.any_eq_false.2 fun w hw => ?_
  simp only [State.crewMates, hcur, h.whole, h.one, Option.getD_none, List.mem_filter, List.mem_singleton] at hw
  obtain ⟨rfl, -⟩ := hw
  simp [State.charge_src]

/-- A unit that may be bound is in its range. -/
theorem State.unitOk_of {ep : Fin 5} {v : Nat} (h2 : ep.val = 2 → v ≤ 63) (h4 : ep.val = 4 → v < 4 ∧ (s.pkg.die v).drst ≠ 15) :
    s.unitOk ep.val v = true := by
  unfold State.unitOk
  split
  · exact decide_eq_true (h2 ‹_›)
  · obtain ⟨hv, hd⟩ := h4 ‹_›
    rw [State.dieOn, decide_eq_true hv, Bool.true_and, bne_iff_ne]
    exact hd
  · rfl

theorem State.Goes.bindQueue {r : State} (k : s.Goes u r) (t : Thread) (q ep v : Nat) : s.Goes u (r.bindQueue t q ep v) := by
  unfold State.bindQueue
  refine State.Goes.modCrew ?_ _ _
  split
  · exact k.modCluster _ _
  · exact k

theorem State.RunsAlone.qbind_becomes {ep : Fin 5} (h : s.RunsAlone g u gd { srcs := [⟨1, a, .int⟩] })
    (h2 : ep.val = 2 → (s.bits u a 64).toNat ≤ 63)
    (h4 : ep.val = 4 → (s.bits u a 64).toNat < 4 ∧ (s.pkg.die (s.bits u a 64).toNat).drst ≠ 15)
    (hf : ep.val < 2 → s.boxForeign (clusterOf (s.thread u).id.core) (s.thread u).id.asid = false)
    (hb : s.binding (s.thread u).id.crew n = none) :
    s.Becomes (.qbind gd (.que n) a ep) ((s.charge [u]).bindQueue (s.thread u) n ep.val (s.bits u a 64).toNat) := by
  have ck := s.charged_charge [u]
  have hunit : (s.charge [u]).unitOk ep.val (s.bits u a 64).toNat = true := State.unitOk_of h2 (by rw [ck.pkg]; exact h4)
  have hforeign : (decide (ep.val < 2) && (s.charge [u]).boxForeign (clusterOf (s.thread u).id.core) (s.thread u).id.asid) = false := by
    by_cases he : ep.val < 2
    · simpa [State.boxForeign, State.clusterAt, ck.core, he] using hf he
    · simp [he]
  refine h.becomes_all (show exec _ s = execQbind gd (.que n) a ep s from rfl) rfl ?_ (h.goes_charge.bindQueue _ _ _ _)
  simp only [queNo, h.crewMates_agree, ck.thread, State.charge_src, hunit, hforeign, ck.binding, hb, Option.isSome_none, Bool.not_true,
    Bool.false_eq_true, if_false]

theorem State.RunsAlone.qunbind_becomes (h : s.RunsAlone g u gd {}) (hb : s.binding (s.thread u).id.crew n = some b)
    (hl : b.brk = true ∨ (b.heads = [] ∧ (b.ep = 1 → b.push = true → s.drains (clusterOf (s.thread u).id.core) = false))) :
    s.Becomes (.qunbind gd (.que n)) (((s.charge [u]).modCrew (s.thread u).id.crew fun k => { k with qb := k.qb.del n }).settleBox
      (clusterOf (s.thread u).id.core)) := by
  have ck := s.charged_charge [u]
  have hleft : (!b.brk && (!b.heads.isEmpty || (decide (b.ep = 1) && b.push && s.drains (clusterOf (s.thread u).id.core)))) = false := by
    obtain hk | ⟨hh, hd⟩ := hl
    · rw [hk]; rfl
    · by_cases he : b.ep = 1
      · cases hp : b.push
        · simp [hh]
        · simp [hh, hd he hp]
      · simp [hh, he]
  refine h.becomes_all (show exec _ s = execQunbind gd (.que n) s from rfl) rfl ?_ ((h.goes_charge.modCrew _ _).settleBox _)
  simp only [queNo, ck.thread, ck.binding, hb, ck.drains, hleft, Bool.false_eq_true, if_false]

/-! QSTAT (R427). -/

theorem State.RunsAlone.qstat_becomes (h : s.RunsAlone g u gd { dsts := [(d, 1)] }) :
    s.Becomes (.qstat gd d (.que n)) ((s.charge [u]).gave u d .i32 ((s.charge [u]).queueStatus (s.thread u) n)) := by
  have hq := Spec.dst_direct _ h.direct.2 d 1 (by simp)
  refine h.becomes (show exec _ s = execQstat gd d (.que n) s from rfl) h.steady_charge (State.wrote_tame _ u d .i32 _) ?_
  simp only [queNo, (s.charged_charge [u]).thread, State.dst_gave_nat _ u d hq, State.gave]

theorem State.queueStatus_unbound {t : Thread} {n : Nat} (hb : s.binding t.id.crew n = none) : s.queueStatus t n = 0 := by
  simp only [State.queueStatus, hb]

theorem State.queueStatus_bound {t : Thread} {n : Nat} (hb : s.binding t.id.crew n = some b) : s.queueStatus t n =
    2 ^ 31 + b.brk.toNat * 2 ^ 30 + b.ep * 2 ^ 27 + (if b.ep = 2 ∨ b.ep = 4 then b.unit else 0) * 2 ^ 21 +
      (if b.ep < 2 then rowCount ((s.clusterAt (clusterOf t.id.core)).rows b.ep) else s.endLoad t.id.crew b) := by
  simp only [State.queueStatus, hb, State.queueElems, Bool.or_eq_true, decide_eq_true_eq]
  cases b.brk <;> rfl

theorem State.Charged.queueStatus {t : State} (k : s.Charged t) (x : Thread) (n : Nat) : t.queueStatus x n = s.queueStatus x n := by
  cases hb : s.binding x.id.crew n with
  | none => rw [State.queueStatus_unbound hb, State.queueStatus_unbound ((k.binding _ _).trans hb)]
  | some b => rw [State.queueStatus_bound hb, State.queueStatus_bound ((k.binding _ _).trans hb), k.clusterAt, k.endLoad]

/-! QTRY (R428). -/

/-- What QTRY demands of its operands. -/
def qtrySpec (d : RegF) : Spec := { dsts := [(d, 1)], qdst := false }

variable (h : s.RunsAlone g u gd (qtrySpec d))
include h

/-- Before a lone thread's QTRY acts, a row is popped where there is one. -/
theorem State.RunsAlone.qtryHold_eq : qtryHold (qtrySpec d) (.que n) [u] (s.charge [u]) =
    ([u], if (s.charge [u]).popTest (s.thread u).id.crew (clusterOf (s.thread u).id.core) n = .ok then
      (s.charge [u]).popRow (s.thread u).id.crew (clusterOf (s.thread u).id.core) n [u] else s.charge [u]) := by
  have ck := s.charged_charge [u]
  have hgood : [u].filter (fun u => ((qtrySpec d).check (s.charge [u]) ((s.charge [u]).thread u)).isNone) = [u] :=
    List.filter_cons_of_pos (by rw [h.toPasses.check_charge h.one h.holds]; rfl)
  have hc := h.toPasses.check_charge h.one h.holds
  rw [ck.thread] at hc
  simp only [qtryHold, queNo, List.filter_cons, List.filter_nil, ck.thread, hc, Option.isNone_none, if_true, List.map_cons, List.map_nil,
    show ∀ x : Nat, [x].eraseDups = [x] from fun _ => rfl, List.foldl_cons, List.foldl_nil, List.headD_cons, beq_iff_eq]

variable (hb : s.binding (s.thread u).id.crew n = some b) (hp : b.push = false)
include hb hp

theorem State.RunsAlone.qtry_broken (hk : b.brk = true) (h7 : bk.val ≠ 7) :
    s.Becomes (.qtry gd d (.que n) p bk) ((s.charge [u]).gaveP u bk true) := by
  have ck := s.charged_charge [u]
  have hbc := (ck.binding (s.thread u).id.crew n).trans hb
  refine h.becomes_all (show exec _ s = execQtry gd d (.que n) p bk s from rfl) ?_ ?_ (h.goes_charge.gaveP bk true)
  · exact h.qtryHold_eq.trans (by rw [if_neg (State.popTest_broken hbc hk)])
  · simp only [queNo, ck.thread, hbc, hp, hk, State.brokenStatus, h7, State.pset, State.gaveP, Bool.false_eq_true, if_false, if_true]

variable (hk : b.brk = false)
include hk

theorem State.RunsAlone.qtry_empty (hr : (s.clusterAt (clusterOf (s.thread u).id.core)).rows b.ep = []) :
    s.Becomes (.qtry gd d (.que n) p bk) (((s.charge [u]).gaveP u bk false).gaveP u p false) := by
  have ck := s.charged_charge [u]
  have hbc := (ck.binding (s.thread u).id.crew n).trans hb
  refine h.becomes_all (show exec _ s = execQtry gd d (.que n) p bk s from rfl) ?_ ?_ ((h.goes_charge.gaveP bk false).gaveP p false)
  · exact h.qtryHold_eq.trans (by rw [State.popTest_empty hbc hk hp (by rw [ck.clusterAt]; exact hr), if_neg (by simp)])
  · have hpop := (h.goes_charge.calm.bare u (by simp)).1
    simp only [queNo, ck.thread, hbc, hp, hk, hpop, State.statusOk, State.pset, State.gaveP, Bool.false_eq_true, if_false]

theorem State.RunsAlone.qtry_pops {x : Word} {row : List Word} {rest : List (List Word)}
    (hr : (s.clusterAt (clusterOf (s.thread u).id.core)).rows b.ep = (x :: row) :: rest) :
    s.Becomes (.qtry gd d (.que n) p bk) (((((s.charge [u]).modCluster (clusterOf (s.thread u).id.core) fun k =>
      k.setRows b.ep ((s.thread u).leaves row rest)).gaveP u bk false).gave u d .b32 ((s.thread u).takes x row).toNat).gaveP u p true) := by
  have ck := s.charged_charge [u]
  have hbc := (ck.binding (s.thread u).id.crew n).trans hb
  have hd := Spec.dst_direct _ h.direct.2 d 1 (by simp [qtrySpec])
  have hrow : ((s.charge [u]).clusterAt (clusterOf (s.thread u).id.core)).rows b.ep = (x :: row) :: rest := by rw [ck.clusterAt]; exact hr
  have k := h.goes_charge
  have kr := (((k.modCluster (clusterOf (s.thread u).id.core) fun k => k.setRows b.ep ((s.thread u).leaves row rest)).gaveP bk false).gave d .b32
    ((s.thread u).takes x row).toNat).gaveP p true
  have hh := h.qtryHold_eq (n := n)
  rw [State.popTest_row hbc hk hp hrow, if_pos rfl, State.popRow_one hbc hrow, ck.thread] at hh
  have hx := (ck.mid u).apt.trans ((s.charge [u]).holds_apt u (clusterOf (s.thread u).id.core) ((s.thread u).takes x row)
    fun k => k.setRows b.ep ((s.thread u).leaves row rest))
  refine h.toPasses.becomes h.one h.holds (show exec _ s = execQtry gd d (.que n) p bk s from rfl) hh
    (Spec.queues_direct _ h.direct _ _ _) hx (y := (((((s.charge [u]).holds u ((s.thread u).takes x row)).modCluster
      (clusterOf (s.thread u).id.core) fun k => k.setRows b.ep ((s.thread u).leaves row rest)).gaveP u bk false).gave u d .b32
        ((s.thread u).takes x row).toNat).gaveP u p true) ?_ (kr.applyFlow_popped rfl ?_) kr.groups
    (State.flushPushes_none _ _ _ kr.elems kr.calm) kr
  · have hbx : State.binding (((s.charge [u]).holds u ((s.thread u).takes x row)).modCluster (clusterOf (s.thread u).id.core) fun k =>
        k.setRows b.ep ((s.thread u).leaves row rest)) (s.thread u).id.crew n = some b := hbc
    have hpx : ((s.charge [u]).holds u ((s.thread u).takes x row)).ext.pops.find u = some ((s.thread u).takes x row) := Map.find_put_self ..
    simp only [queNo, hx.thread, hbx, hp, hk, State.modCluster_ext, hpx, State.statusOk, State.dst_gave _ u d hd, Bool.false_eq_true, if_false]
    rfl
  · have e : ∀ y : State, (((y.gaveP u bk false).gave u d .b32 ((s.thread u).takes x row).toNat).gaveP u p true).unpop u =
        (((y.unpop u).gaveP u bk false).gave u d .b32 ((s.thread u).takes x row).toNat).gaveP u p true := fun _ => rfl
    rw [e, State.unpop_modCluster, k.calm.unpop_holds]

end

/-- Settles O37: QTRY's row is popped before its meaning (`State.RunsAlone.qtryHold_eq`) and the element used up after it
(`State.Goes.applyFlow_popped`); the others change the crew's bindings or read them. -/
theorem queueRegistersAreBoundAndRead : Obligations.QueueRegistersAreBoundAndRead := by
  unfold Obligations.QueueRegistersAreBoundAndRead
  intro s g gd u n a d t c cl q
  have ck := s.charged_charge [u]
  refine ⟨fun ep h h2 h4 hf hb => h.qbind_becomes h2 h4 hf hb, fun b h hb hl => h.qunbind_becomes hb hl,
    fun h => ⟨fun hb => ?_, fun b hb => ?_⟩, fun p bk b h hb hp => ⟨fun hk h7 => State.RunsAlone.qtry_broken h hb hp hk h7, fun hk hr => State.RunsAlone.qtry_empty h hb hp hk hr,
      fun x row rest hk hr => State.RunsAlone.qtry_pops h hb hp hk hr⟩⟩
  · have hs := h.qstat_becomes (n := n)
    rwa [ck.queueStatus, State.queueStatus_unbound hb] at hs
  · have hs := h.qstat_becomes (n := n)
    rwa [ck.queueStatus, State.queueStatus_bound hb] at hs

end Sys2Proof.Machine
end

section
-- One thread elaborates: check.sh limits memory, and counts a stack for each thread that waits.
set_option Elab.async false

namespace Sys2Proof.Machine

/-! O38: tasks and dependence counters (spec/07 R149 to R151; spec/20 R429, R431, R432). -/

section
variable {s r x q : State} {g : Group} {gd : Guard} {u ix pa : Nat} {a b d : RegF} {bk : PredF} {k : Counter} {down : Bool}

theorem State.charge_vaCheck_ok {va z : Nat} (hz : va % z = 0) (hl : va < (s.thread u).vaLim) : (s.charge [u]).vaCheck u va z = none :=
  State.vaCheck_ok hz (by rw [(s.charged_charge [u]).thread]; exact hl)

/-! TASKQ (R429). -/

theorem State.RunsAlone.taskq_becomes {bs : List Byte}
    (h : s.RunsAlone g u gd { srcs := [⟨1, a, .addr⟩, ⟨2, b, .int⟩], dsts := [(d, 2)], primary := true })
    (hz : (s.pairBits u a).toNat % 8 = 0) (hl : (s.pairBits u a).toNat < (s.thread u).vaLim) (hlq : (s.bits u b 32).toNat < 32768)
    (hr : (s.charge [u]).readPlain ((s.charge [u]).agent (s.thread u) .ls) (s.pairBits u a).toNat 64 = (.ok bs, r)) {e : EnqRes}
    (he : r.enqueue (if (s.thread u).lvl = .h then 0 else (s.thread u).id.fn) (s.bits u b 32).toNat (some (s.thread u).lvl) (TaskRec.ofBytes bs) =
      (e, x)) (hx : s.Steady u x) : s.Becomes (.taskq gd d a b) (x.gave64 u d e.word) := by
  have ck := s.charged_charge [u]
  have hq := Spec.dst_direct _ h.direct.2 d 2 (by simp)
  have hv := State.charge_vaCheck_ok hz hl
  refine h.becomes (show exec _ s = execTaskq gd d a b s from rfl) hx (State.wrotePair_tame _ u d _) ?_
  simp only [State.charge_src64, State.charge_src32, ck.thread, Nat.not_le.2 hlq, hv, hr, beq_iff_eq, he, State.dst64_gave_nat _ u d hq,
    State.gave64, if_false]

/-! DEPNEW (R149, R431). -/

/-- The least index that no live counter has (R149). -/
def State.freeIx (r : State) : Nat := lowestFree 0 ((r.task.counters.filter fun e => e.2.live).map (·.1))

/-- What DEPNEW registers at the free index. -/
def State.newCounter (r : State) (fn asid va pa : Nat) : Counter :=
  ⟨(r.task.counters.getD Counter.reset r.freeIx).gen % 63 + 1, true, fn, asid, va, pa, []⟩

/-- A registered counter, whose word is still to be written. -/
def State.registered (r : State) (fn asid va pa : Nat) : State :=
  (r.onTask fun x => { x with counters := x.counters.put r.freeIx (r.newCounter fn asid va pa) }).modFn fn fun f => { f with uCnts := f.uCnts + 1 }

/-- A registration writes the counter's word with the number of its edges, or with the host's port down drops it (R127). -/
theorem State.registerCounter_eq (r : State) {fn asid core : Nat} (u va pa n : Nat) (down : Bool) (hfn : (r.thread u).id.fn = fn)
    (hasid : (r.thread u).id.asid = asid) (hcore : (r.thread u).id.core = core) :
    r.registerCounter u va pa n down =
      (handleOf r.freeIx (r.newCounter fn asid va pa),
        if down then (r.registered fn asid va pa).dropWrite pa
        else (r.registered fn asid va pa).setCounter u core (r.newCounter fn asid va pa) []
          (handleOf r.freeIx (r.newCounter fn asid va pa) * 2 ^ 32 + n)) := by
  subst hfn hasid hcore
  cases down <;> rfl

section
variable (h : s.RunsAlone g u gd { srcs := [⟨1, a, .addr⟩, ⟨2, b, .int⟩], dsts := [(d, 1)], primary := true })
  (hz : (s.pairBits u a).toNat % 8 = 0) (hl : (s.pairBits u a).toNat < (s.thread u).vaLim)
  (hp : (s.charge [u]).counterPlace u (s.pairBits u a).toNat ((s.charge [u]).counterSpace u (s.pairBits u a).toNat) = (.ok (pa, down), r))
  (ha : r.counterAnywhere (s.pairBits u a).toNat = none)
include h hz hl hp ha

theorem State.RunsAlone.depnew_refused (hr : s.Steady u r) (hf : (r.fnAt (s.thread u).id.fn).qCnts ≤ (r.fnAt (s.thread u).id.fn).uCnts) :
    s.Becomes (.depnew gd d a b) (r.gave u d .i32 0x80000000) := by
  have ck := s.charged_charge [u]
  have hq := Spec.dst_direct _ h.direct.2 d 1 (by simp)
  have hv := State.charge_vaCheck_ok hz hl
  refine h.becomes (show exec _ s = execDepnew gd d a b s from rfl) hr (State.wrote_tame _ u d .i32 _) ?_
  simp only [State.charge_src64, ck.thread, hv, hp, ha, hf, State.dst_gave_nat _ u d hq, State.gave, if_true]

theorem State.RunsAlone.depnew_registers (hf : (r.fnAt (s.thread u).id.fn).uCnts < (r.fnAt (s.thread u).id.fn).qCnts) {h' : Nat}
    (hreg : r.registerCounter u (s.pairBits u a).toNat pa (s.bits u b 32).toNat down = (h', q)) (hs : s.Steady u q) :
    s.Becomes (.depnew gd d a b) (q.gave u d .i32 h') := by
  have ck := s.charged_charge [u]
  have hq := Spec.dst_direct _ h.direct.2 d 1 (by simp)
  have hv := State.charge_vaCheck_ok hz hl
  refine h.becomes (show exec _ s = execDepnew gd d a b s from rfl) hs (State.wrote_tame _ u d .i32 _) ?_
  simp only [State.charge_src64, State.charge_src32, ck.thread, hv, hp, ha, Nat.not_le.2 hf, hreg, State.dst_gave_nat _ u d hq, State.gave, if_false]

end

/-! DEPDEC and DEPFREE (R151, R432). -/

theorem State.thread_xfenceAll_id (s : State) (u : Nat) : ((s.xfenceAll u).thread u).id = (s.thread u).id := by
  unfold State.xfenceAll State.thread
  extract_lets xf
  rw [State.thread?_modThread _ u u _ fun _ => by rfl, if_pos rfl]
  cases s.thread? u <;> rfl

section
variable (hn : (s.charge [u]).namedCounter u (s.pairBits u a).toNat = (.ok (ix, k, down), r))
include hn

theorem State.RunsAlone.depdec_becomes (h : s.RunsAlone g u gd { srcs := [⟨1, a, .addr⟩], primary := true, bnd := some (.dev, .depdec) })
    (hw : r.counterWord k < 2 ^ 63) (hb : r.doBoundary u .dev .depdec = (.next, q)) (hid : (q.thread u).id = (s.thread u).id)
    (hx : s.Steady u (if down then (q.xfenceAll u).dropWrite k.pa
      else (q.xfenceAll u).decrement u ix ((q.xfenceAll u).knowOf u) (s.thread u).id.core)) :
    s.Becomes (.depdec gd a bk) ((if down then (q.xfenceAll u).dropWrite k.pa
      else (q.xfenceAll u).decrement u ix ((q.xfenceAll u).knowOf u) (s.thread u).id.core).gaveP u bk false) := by
  have hbit : bitOf (r.counterWord k) 63 = false := by
    rw [bitOf, Nat.div_eq_of_lt hw]
    rfl
  refine h.becomes (show exec _ s = execDepdec gd a bk s from rfl) hx (Thread.setPred_tame bk.val false) ?_
  simp only [State.charge_src64, hn, hbit, hb, State.thread_xfenceAll_id, hid, State.statusOk, State.pset, Bool.false_eq_true, if_false]

theorem State.RunsAlone.depdec_broken (h : s.RunsAlone g u gd { srcs := [⟨1, a, .addr⟩], primary := true, bnd := some (.dev, .depdec) })
    (hr : s.Steady u r) (hw : bitOf (r.counterWord k) 63 = true) (h7 : bk.val ≠ 7) : s.Becomes (.depdec gd a bk) (r.gaveP u bk true) := by
  refine h.becomes (show exec _ s = execDepdec gd a bk s from rfl) hr (Thread.setPred_tame bk.val true) ?_
  simp only [State.charge_src64, hn, hw, State.brokenStatus, h7, State.pset, if_true, if_false]

theorem State.RunsAlone.depfree_becomes (h : s.RunsAlone g u gd { srcs := [⟨1, a, .addr⟩], primary := true }) (hk : k.parked = [])
    (hr : s.Steady u (r.freeCounter ix)) : s.Becomes (.depfree gd a) (r.freeCounter ix) := by
  refine h.becomes_steady (show exec _ s = execDepfree gd a s from rfl) hr ?_
  simp only [State.charge_src64, hn, hk, List.isEmpty_nil, if_true]

end
end

/-- Settles O38: each instruction is the outcome of its meaning for the thread after the charge, once its address and the counter's place are
found; a registration is `State.registerCounter_eq`. -/
theorem tasksAndCountersFollowTheirInstructions : Obligations.TasksAndCountersFollowTheirInstructions := by
  unfold Obligations.TasksAndCountersFollowTheirInstructions
  intro s g gd u a b d t c va hz hl
  refine ⟨fun bs r h hlq hr hx => h.taskq_becomes hz hl hlq hr rfl hx,
    fun pa down r h hp ha hr => ⟨fun hf => h.depnew_refused hz hl hp ha hr hf, fun hf hs => ?_⟩,
    fun ix k down r hn hr => ⟨fun bk q h => ⟨fun hw hb hid hx => State.RunsAlone.depdec_becomes hn h hw hb hid hx,
      fun hw h7 => State.RunsAlone.depdec_broken hn h hr hw h7⟩, fun h hk hf => State.RunsAlone.depfree_becomes hn h hk hf⟩⟩
  obtain ⟨hid, -, -⟩ := hr.same
  exact h.depnew_registers hz hl hp ha hf (State.registerCounter_eq r u va pa _ down (by rw [hid]) (by rw [hid]) (by rw [hid])) hs

end Sys2Proof.Machine
end

namespace Sys2Proof.Machine

/-! Waits, marks and statuses (spec/08 R183, R185): what the synchronisation instructions share. -/

section
variable {s r t : State} {g : Group} {gd : Guard} {sp : Spec} {u : Nat}

/-- For a group of one thread that nothing holds back the members act as those of `isa` do. -/
theorem State.RunsAlone.isaAll_isa {hold : Hold} {f : State → Nat → State → Flow × State} {idle : Nat → State → Flow × State}
    (h : s.RunsAlone g u gd sp) (hh : hold [u] (s.charge [u]) = ([u], s.charge [u])) :
    s.isaAll gd sp hold f idle = s.isa gd sp (f (s.charge [u])) := by
  rw [h.isaAll_eq hold f idle hh, State.isa, State.isaWith, h.isaAll_eq _ (fun _ => f (s.charge [u])) _ rfl]

/-- An instruction whose meaning goes on completes. -/
theorem State.RunsAlone.becomes_goes {i : Instr} {f : Nat → State → Flow × State} (h : s.RunsAlone g u gd sp)
    (he : exec i s = .next (s.isa gd sp f)) (hf : f u (s.charge [u]) = (.next, r)) (k : s.Goes u r) : s.Becomes i r :=
  ⟨_, he, h.next_like _ (fun _ => f) _ rfl _ hf k.calm k.groups k.elems k.there⟩

/-- A thread waits, its wait not over yet, and meets a condition. -/
def Thread.awaits (p : Thread → WaitRec → Bool) (t : Thread) : Bool :=
  match t.run with
  | .waiting w => t.mark == some 0 && p t w
  | _ => false

theorem State.markWaiters_threads (s : State) (code : Nat) (p : Thread → WaitRec → Bool) :
    (s.markWaiters code p).core.threads = s.core.threads.map fun t => if t.awaits p then { t with mark := some code } else t := rfl

theorem Thread.awaits_unmarked {p : Thread → WaitRec → Bool} {t : Thread} (h : t.mark = none) : t.awaits p = false := by
  unfold Thread.awaits
  split
  · rw [h]; rfl
  · rfl

/-- To tell waiting threads that their wait is over leaves those calm that do not wait. -/
theorem State.Calm.markWaiters {l : List Nat} (k : r.Calm l) (code : Nat) (p : Thread → WaitRec → Bool) : (r.markWaiters code p).Calm l := by
  refine ⟨fun x hx hl => ?_, k.bare⟩
  rw [State.markWaiters_threads] at hx
  obtain ⟨y, hy, rfl⟩ := List.mem_map.1 hx
  have hu : y.uid ∈ l := by
    split at hl <;> exact hl
  obtain ⟨h1, h2, hm⟩ := k.threads y hy hu
  rw [if_neg (by rw [Thread.awaits_unmarked hm]; exact Bool.false_ne_true)]
  exact ⟨h1, h2, hm⟩

theorem State.thread?_markWaiters (s : State) (code : Nat) (p : Thread → WaitRec → Bool) (v : Nat) :
    ((s.markWaiters code p).thread? v).isSome = (s.thread? v).isSome := by
  rw [State.thread?, State.markWaiters_threads, State.thread?, List.find?_map, Option.isSome_map]
  congr 2
  funext x
  simp only [Function.comp]
  split <;> rfl

theorem State.Goes.markWaiters (k : s.Goes u r) (code : Nat) (p : Thread → WaitRec → Bool) : s.Goes u (r.markWaiters code p) :=
  ⟨by rw [State.thread?_markWaiters]; exact k.there, k.groups, k.calm.markWaiters code p, k.elems⟩

theorem State.Goes.onTask (k : s.Goes u r) (f : TaskSys → TaskSys) : s.Goes u (r.onTask f) := k.of_parts rfl rfl rfl

theorem State.Goes.gave64 (k : s.Goes u r) (d : RegF) (v : Nat) : s.Goes u (r.gave64 u d v) := k.modThread (r.wrotePair_tame u d _)

theorem State.Goes.mark (k : s.Goes u r) : (r.thread u).mark = none := (k.calm.thread u (by simp)).2.2

end

/-! O31: arrivals at barriers (spec/08 R178 to R180). -/

section
variable {s r t : State} {g : Group} {gd : Guard} {u n : Nat} {bk : PredF}

theorem State.Charged.barrier (k : s.Charged t) (x : Thread) (n : Nat) : t.barrier x n = s.barrier x n := by
  simp only [State.barrier, k.core]

theorem State.Charged.barWaiter (k : s.Charged t) (key : Nat) : t.barWaiter key = s.barWaiter key := by
  simp only [State.barWaiter, k.core]

theorem State.Charged.coArrives (k : s.Charged t) (core n : Nat) : t.coArrives core n = s.coArrives core n := by
  simp only [State.coArrives, k.core, k.ext]

theorem State.Goes.setBarrier (k : s.Goes u r) (x : Thread) (n : Nat) (b : Barrier) : s.Goes u (r.setBarrier x n b) := k.of_parts rfl rfl rfl

/-- The owner's barrier is no foreign one. -/
theorem Barrier.own {b : Barrier} {x : Thread} (ho : b.owner = x.id.asid) (hf : b.ownerFn = x.id.fn) : b.foreign x = false := by
  simp [Barrier.foreign, ho, hf]

/-- A barrier that has counted an arrival, an ARRDROP or not. -/
def Barrier.counted (b : Barrier) (crew : Nat) (drop : Bool) : Barrier :=
  { b with arrived := b.arrived + 1, drops := b.drops + drop.toNat, parts := setIns b.parts crew }

/-- A barrier whose phase an arrival has ended (R179). -/
def Barrier.ended (b : Barrier) (crew : Nat) (drop : Bool) : Barrier :=
  { b with phase := (b.phase + 1) % 2 ^ 16, arrived := 0, expect := b.expect - (b.drops + drop.toNat), drops := 0, parts := setIns b.parts crew }

/-- What the end of a phase leaves: the barrier in its next phase, its waiters told. -/
def State.endPhase (s : State) (x : Thread) (n : Nat) (drop : Bool) : State :=
  (s.setBarrier x n ((s.barrier x n).ended x.id.crew drop)).markWaiters 1 fun _ w => w.kind.atBarrier && w.a == barKey x n

theorem State.barrierStep_counts {drop : Bool} (h : (s.barrier (s.thread u) n).arrived + 1 ≠ (s.barrier (s.thread u) n).expect) :
    s.barrierStep u n drop = ((s.barrier (s.thread u) n).phase,
      s.setBarrier (s.thread u) n ((s.barrier (s.thread u) n).counted (s.thread u).id.crew drop)) := by
  simp only [State.barrierStep, h, if_false, Barrier.counted]

theorem State.barrierStep_ends {drop : Bool} (h : (s.barrier (s.thread u) n).arrived + 1 = (s.barrier (s.thread u) n).expect) :
    s.barrierStep u n drop = ((s.barrier (s.thread u) n).phase, s.endPhase (s.thread u) n drop) := by
  simp only [State.barrierStep, h, if_true, State.endPhase, Barrier.ended]

theorem State.Goes.endPhase (k : s.Goes u r) (x : Thread) (n : Nat) (drop : Bool) : s.Goes u (r.endPhase x n drop) :=
  (k.setBarrier x n _).markWaiters 1 _

theorem State.meetArrivals_alone {drop : Bool} (hc : s.coArrives (s.thread u).id.core n = false) (hp : (s.barrier (s.thread u) n).pend = []) :
    State.meetArrivals n drop [u] s = ([u], s) := by
  simp only [State.meetArrivals, hc, hp, Bool.not_false, List.isEmpty_nil, Bool.and_self, if_true]

/-- The barrier of a thread that its checks let through (R178, R185). -/
structure Barrier.Open (b : Barrier) (x : Thread) : Prop where
  init    : b.init = true
  owner   : b.owner = x.id.asid
  ownerFn : b.ownerFn = x.id.fn
  whole   : b.brk = false

theorem Barrier.Open.barCheck (h : (s.barrier (s.thread u) n).Open (s.thread u)) (v : Nat) : s.barCheck u n v = none := by
  simp only [State.barCheck, Barrier.own h.owner h.ownerFn, h.init, Bool.not_true, Bool.false_eq_true, if_false]

/-- An arrival of a thread that has not arrived before counts. -/
theorem State.arrival_steps {drop : Bool} {f : Nat → State → Flow × State} (ho : (s.barrier (s.thread u) n).Open (s.thread u))
    (hm : (s.thread u).mark = none) (he : (s.barrier (s.thread u) n).expect ≠ 0) (hp : (s.barrier (s.thread u) n).pend = []) :
    s.arrival u n drop bk f = f (s.barrierStep u n drop).1 (s.barrierStep u n drop).2 := by
  simp only [State.arrival, hm, ho.barCheck, ho.whole, he, hp, List.any_nil, Bool.false_eq_true, if_false]

/-! The instructions. -/

section
variable {m : Fin 32} {a d : RegF}

theorem State.RunsAlone.barinit_becomes (h : s.RunsAlone g u gd { ctl := false, srcs := [⟨1, a, .int⟩] }) (h1 : 1 ≤ (s.bits u a 32).toNat)
    (h2 : (s.bits u a 32).toNat ≤ 2048) (hi : (s.barrier (s.thread u) m).init = false) :
    s.Becomes (.barinit gd m a bk) (((s.charge [u]).setBarrier (s.thread u) m
      ⟨(s.thread u).id.asid, (s.thread u).id.fn, true, false, (s.bits u a 32).toNat, 0, 0, 0, [(s.thread u).id.crew], []⟩).gaveP u bk false) := by
  have ck := s.charged_charge [u]
  have hf : (s.barrier (s.thread u) m).foreign (s.thread u) = false := by simp only [Barrier.foreign, hi, Bool.false_and]
  have h0 : ((s.bits u a 32).toNat = 0 || decide (2048 < (s.bits u a 32).toNat)) = false := by
    simp only [Bool.or_eq_false_iff, decide_eq_false_iff_not]
    omega
  refine h.becomes_goes (show exec (.barinit gd m a bk) s = execBarinit gd m a bk s from rfl) ?_ ((h.goes_charge.setBarrier _ _ _).gaveP bk false)
  simp only [ck.thread, ck.barrier, hf, State.charge_src32, h0, hi, Bool.not_false, Bool.false_eq_true, if_false, if_true, State.statusOk, State.pset,
    State.gaveP]

theorem State.RunsAlone.barinitFree_becomes (h : s.RunsAlone g u gd { ctl := false }) (hi : (s.barrier (s.thread u) m).init = true)
    (ho : (s.barrier (s.thread u) m).owner = (s.thread u).id.asid) (hf : (s.barrier (s.thread u) m).ownerFn = (s.thread u).id.fn)
    (ha : (s.barrier (s.thread u) m).arrived = 0) (hw : s.barWaiter (barKey (s.thread u) m) = false) :
    s.Becomes (.barinitFree gd m bk) (((s.charge [u]).onCore fun k =>
      { k with barriers := k.barriers.del (barKey (s.thread u) m) }).gaveP u bk false) := by
  have ck := s.charged_charge [u]
  have hg : s.Goes u ((s.charge [u]).onCore fun k => { k with barriers := k.barriers.del (barKey (s.thread u) m) }) :=
    h.goes_charge.of_parts rfl rfl rfl
  refine h.becomes_goes (show exec (.barinitFree gd m bk) s = execBarinitFree gd m bk s from rfl) ?_ (hg.gaveP bk false)
  simp only [ck.thread, ck.barrier, ck.barWaiter, Barrier.own ho hf, hi, ha, hw, Bool.not_false, beq_self_eq_true, Bool.and_self, Bool.or_true,
    Bool.false_eq_true, if_false, if_true, State.statusOk, State.pset, State.gaveP]

/-- ARRIVE, or ARRDROP. -/
def arriveInstr (gd : Guard) (d : RegF) (m : Fin 32) (bk : PredF) (drop : Bool) : Instr :=
  if drop then .arrdrop gd d m bk else .arrive gd d m bk

theorem exec_arriveInstr (drop : Bool) : exec (arriveInstr gd d m bk drop) s = .next (s.arriveOp gd d m drop bk) := by
  cases drop <;> rfl

/-- The result of an arrival: the token of its phase. -/
def State.givesToken (r : State) (u : Nat) (d : RegF) (bk : PredF) (ph n : Nat) : State := (r.gave u d .i32 (ph * 2 ^ 16 + n)).gaveP u bk false

variable (h : s.RunsAlone g u gd { ctl := false, dsts := [(d, 1)], primary := true }) (ho : (s.barrier (s.thread u) m).Open (s.thread u))
  (he : (s.barrier (s.thread u) m).expect ≠ 0) (hp : (s.barrier (s.thread u) m).pend = [])
  (hc : s.coArrives (s.thread u).id.core m = false)
include h ho he hp hc

/-- An arrival gives its token once the barrier has taken its step. -/
theorem State.RunsAlone.arrive_becomes {drop : Bool} {ph : Nat} (hs : (s.charge [u]).barrierStep u m drop = (ph, r)) (k : s.Goes u r) :
    s.Becomes (arriveInstr gd d m bk drop) (r.givesToken u d bk ph m) := by
  have ck := s.charged_charge [u]
  have hq := Spec.dst_direct _ h.direct.2 d 1 (by simp)
  have hb : (s.charge [u]).barrier ((s.charge [u]).thread u) m = s.barrier (s.thread u) m := by rw [ck.thread, ck.barrier]
  refine h.becomes_all (exec_arriveInstr drop) (State.meetArrivals_alone ?_ ?_) ?_ ((k.gave d .i32 _).gaveP bk false)
  · rw [ck.thread, ck.coArrives]; exact hc
  · rw [hb]; exact hp
  · rw [State.arrival_steps (by rw [hb, ck.thread]; exact ho) h.goes_charge.mark (by rw [hb]; exact he) (by rw [hb]; exact hp), hs]
    simp only [State.dst_gave_nat _ u d hq, State.statusOk, State.pset]
    rfl

theorem State.RunsAlone.arrive_counts (drop : Bool) (ha : (s.barrier (s.thread u) m).arrived + 1 ≠ (s.barrier (s.thread u) m).expect) :
    s.Becomes (arriveInstr gd d m bk drop) (((s.charge [u]).setBarrier (s.thread u) m
      ((s.barrier (s.thread u) m).counted (s.thread u).id.crew drop)).givesToken u d bk (s.barrier (s.thread u) m).phase m) := by
  have ck := s.charged_charge [u]
  have hs := State.barrierStep_counts (s := s.charge [u]) (u := u) (n := m) (drop := drop) (by rw [ck.thread, ck.barrier]; exact ha)
  rw [ck.thread, ck.barrier] at hs
  exact h.arrive_becomes ho he hp hc hs (h.goes_charge.setBarrier _ _ _)

theorem State.RunsAlone.arrive_ends (drop : Bool) (ha : (s.barrier (s.thread u) m).arrived + 1 = (s.barrier (s.thread u) m).expect) :
    s.Becomes (arriveInstr gd d m bk drop) (((s.charge [u]).endPhase (s.thread u) m drop).givesToken u d bk (s.barrier (s.thread u) m).phase m) := by
  have ck := s.charged_charge [u]
  have hs := State.barrierStep_ends (s := s.charge [u]) (u := u) (n := m) (drop := drop) (by rw [ck.thread, ck.barrier]; exact ha)
  rw [ck.thread, ck.barrier] at hs
  exact h.arrive_becomes ho he hp hc hs (h.goes_charge.endPhase _ _ _)

end

/-! Arrivals of several instructions in one cycle (R179). -/

section
variable {v w : Nat}

/-- One arrival of several: the barrier takes its step, and the thread's mark tells its phase. -/
def State.stepOne (s : State) (n u : Nat) (drop : Bool) : State :=
  let (ph, r) := s.barrierStep u n drop
  r.modThread u fun t => { t with mark := some (4 + ph) }

/-- Arrivals in lane order. -/
def State.byLane (s : State) (l : List (Nat × Bool)) : List (Nat × Bool) :=
  (rangeFrom 0 32).flatMap fun k => l.filter fun e => (s.thread e.1).id.lane == k

/-- What BARRIER_STEP does for one arrival of a list. -/
def stepEach (n : Nat) (s : State) (e : Nat × Bool) : State :=
  if (s.barrier (s.thread e.1) n).expect = 0 then s.modThread e.1 fun t => { t with mark := some 3 } else s.stepOne n e.1 e.2

theorem State.stepAll_eq (s : State) (n : Nat) (xs : List (Nat × Bool)) :
    s.stepAll n xs = (s.byLane (xs.filter (·.2)) ++ s.byLane (xs.filter (!·.2))).foldl (stepEach n) s := rfl

theorem stepEach_steps {e : Nat × Bool} (h : (s.barrier (s.thread e.1) n).expect ≠ 0) : stepEach n s e = s.stepOne n e.1 e.2 := if_neg h

theorem flatMap_rangeFrom_single {α : Type} (x : α) (i n k : Nat) (h1 : n ≤ i) (h2 : i < n + k) :
    ((rangeFrom n k).flatMap fun m => if i = m then [x] else []) = [x] := by
  refine .trans ?_ ((filterMap_rangeFrom_single x i n k).trans (if_pos ⟨h1, h2⟩))
  rw [List.filterMap_eq_flatMap_toList]
  refine List.flatMap_congr fun m _ => ?_
  split <;> rfl

theorem flatMap_rangeFrom_pair {α : Type} (x y : α) {i j : Nat} (hij : j < i) (n k : Nat) (h1 : n ≤ j) (h2 : i < n + k) :
    ((rangeFrom n k).flatMap fun m => (if i = m then [x] else []) ++ if j = m then [y] else []) = [y, x] := by
  induction k generalizing n with
  | zero => omega
  | succ k ih =>
    rw [rangeFrom, List.flatMap_cons, if_neg (show ¬i = n by omega)]
    by_cases hj : j = n
    · have ht : ((rangeFrom (n + 1) k).flatMap fun m => (if i = m then [x] else []) ++ if j = m then [y] else []) = [x] := by
        refine .trans (List.flatMap_congr fun m hm => ?_) (flatMap_rangeFrom_single x i (n + 1) k (by omega) (by omega))
        obtain ⟨hl, -⟩ := mem_rangeFrom.1 hm
        rw [if_neg (show ¬j = m by omega)]
        exact List.append_nil _
      rw [ht, if_pos hj]
      rfl
    · rw [ih (n + 1) (by omega) (by omega), if_neg hj]
      rfl

theorem State.byLane_single (s : State) {e : Nat × Bool} (h : (s.thread e.1).id.lane < 32) : s.byLane [e] = [e] := by
  refine .trans (List.flatMap_congr fun m _ => ?_) (flatMap_rangeFrom_single e (s.thread e.1).id.lane 0 32 (by omega) (by omega))
  simp only [List.filter_cons, List.filter_nil, beq_iff_eq]

/-- Of two arrivals the one in the lower lane comes first. -/
theorem State.byLane_pair (s : State) {e f : Nat × Bool} (h : (s.thread f.1).id.lane < (s.thread e.1).id.lane) (he : (s.thread e.1).id.lane < 32) :
    s.byLane [e, f] = [f, e] := by
  refine .trans (List.flatMap_congr fun m _ => ?_) (flatMap_rangeFrom_pair e f h 0 32 (by omega) (by omega))
  simp only [List.filter_cons, List.filter_nil, beq_iff_eq]
  split <;> rfl

/-- Two arrivals at one barrier that expects both of them step one after the other. -/
theorem stepEach_two {v w : Nat} {p q : Bool} (hvw : v ≠ w) (hx : (s.thread w).id.ctx = (s.thread v).id.ctx)
    (ha : (s.barrier (s.thread v) n).arrived + 2 ≤ (s.barrier (s.thread v) n).expect) :
    [(w, q), (v, p)].foldl (stepEach n) s = (s.stepOne n w q).stepOne n v p := by
  have hb : s.barrier (s.thread w) n = s.barrier (s.thread v) n := by simp only [State.barrier, barKey, hx]
  have hs : s.stepOne n w q = (s.setBarrier (s.thread w) n ((s.barrier (s.thread w) n).counted (s.thread w).id.crew q)).modThread w fun t =>
      { t with mark := some (4 + (s.barrier (s.thread w) n).phase) } := by
    rw [State.stepOne, State.barrierStep_counts (by rw [hb]; omega)]
  have hv : (s.stepOne n w q).thread v = s.thread v := by
    rw [hs, State.thread, State.thread?_modThread _ w v _ fun _ => by rfl, if_neg hvw]
    rfl
  have he : ((s.stepOne n w q).barrier (s.thread v) n).expect = (s.barrier (s.thread v) n).expect := by
    have hk : barKey (s.thread w) n = barKey (s.thread v) n := by simp only [barKey, hx]
    rw [hs, ← hb]
    simp only [State.barrier, State.modThread, State.setBarrier, State.onCore_core, Map.getD_put, hk, if_true, Barrier.counted]
  have h1 : stepEach n s (w, q) = s.stepOne n w q := stepEach_steps (show (s.barrier (s.thread w) n).expect ≠ 0 by rw [hb]; omega)
  rw [List.foldl_cons, List.foldl_cons, List.foldl_nil, h1]
  exact stepEach_steps (show ((s.stepOne n w q).barrier ((s.stepOne n w q).thread v) n).expect ≠ 0 by rw [hv, he]; omega)

end

end

/-- Settles O31: the arrival of a group of one thread is one step of its barrier (`State.barrierStep_counts`, `State.barrierStep_ends`), and arrivals
of several instructions are such steps, one after the other (`stepEach_two`), in the order of kinds and lanes. -/
theorem barriersCountTheirArrivals : Obligations.BarriersCountTheirArrivals := by
  unfold Obligations.BarriersCountTheirArrivals
  intro s g gd u n bk t c key b put
  refine ⟨fun a h h1 h2 hi => h.barinit_becomes h1 h2 hi, fun h hi ho hf ha hw => h.barinitFree_becomes hi ho hf ha hw,
    fun d h hi ho hf hk he hp hc => ?_, fun xs v w hvw hx hv hw ha => ⟨?_, ?_⟩⟩
  · have hopen : Barrier.Open b t := ⟨hi, ho, hf, hk⟩
    exact ⟨fun ha => ⟨h.arrive_counts hopen he hp hc false ha, h.arrive_counts hopen he hp hc true ha⟩,
      fun ha => ⟨h.arrive_ends hopen he hp hc false ha, h.arrive_ends hopen he hp hc true ha⟩⟩
  · rintro rfl
    rw [State.stepAll_eq]
    exact (congrArg (List.foldl _ s) (congrArg₂ (· ++ ·) (s.byLane_single hw) (s.byLane_single hv))).trans (stepEach_two hvw hx ha)
  · rintro q rfl hl
    rw [State.stepAll_eq]
    cases q
    · exact (congrArg (List.foldl _ s) (s.byLane_pair hl hv)).trans (stepEach_two hvw hx ha)
    · exact (congrArg (List.foldl _ s) ((congrArg (· ++ []) (s.byLane_pair hl hv)).trans (List.append_nil _))).trans (stepEach_two hvw hx ha)

end Sys2Proof.Machine

namespace Sys2Proof.Machine

/-! O32: waits at barriers (spec/08 R179, R180, R185). -/

theorem State.Goes.waitMark {s r : State} {u : Nat} (k : s.Goes u r) (kind : WaitKind) (table : Bool) (a b : Nat) :
    (r.waitMark u kind table a b).Waits u := by
  obtain ⟨-, hr, -⟩ := k.calm.thread u (by simp)
  exact State.waitMark_waits k.there hr k.elems kind table a b

section
variable {s r : State} {g : Group} {gd : Guard} {u : Nat} {n : Fin 32} {p bk : PredF} {a : RegF}

theorem State.barResume_none (hm : (s.thread u).mark = none) (k : WaitKind) (key : Nat) (v : Word) : s.barResume u k key bk v = none := by
  simp only [State.barResume, hm]

/-- The fields of a token (R179). -/
theorem token_fields {ph n : Nat} (hp : ph < 2 ^ 16) (hn : n < 32) :
    (ph * 2 ^ 16 + n) % 32 = n ∧ bitsOf (ph * 2 ^ 16 + n) 15 5 = 0 ∧ bitsOf (ph * 2 ^ 16 + n) 31 16 = ph := by
  unfold bitsOf
  omega

variable (ho : (s.barrier (s.thread u) n).Open (s.thread u))
include ho

/-! BWAIT. -/

section
variable {ph : Nat} (h : s.RunsAlone g u gd { ctl := false, srcs := [⟨1, a, .int⟩] }) (hp : ph < 2 ^ 16)
  (ht : (s.bits u a 32).toNat = ph * 2 ^ 16 + n)
include h hp ht

theorem State.RunsAlone.bwait_waits (he : ph = (s.barrier (s.thread u) n).phase) :
    exec (.bwait gd p a bk) s = .next ((s.charge [u]).waitMark u .bwait true (barKey (s.thread u) n) 0) := by
  have ck := s.charged_charge [u]
  obtain ⟨h1, h2, h3⟩ := token_fields hp n.isLt
  have hc : (s.charge [u]).barCheck u n (ph * 2 ^ 16 + n) = none := Barrier.Open.barCheck (by rw [ck.thread, ck.barrier]; exact ho) _
  have hd : ((s.barrier (s.thread u) n).phase + 2 ^ 16 - ph) % 2 ^ 16 = 0 := by omega
  refine h.waits (show exec (.bwait gd p a bk) s = execBwait gd p a bk s from rfl) ?_ (h.goes_charge.waitMark _ _ _ _)
  simp only [State.charge_src32, ht, State.barResume_none h.goes_charge.mark, h1, h2, h3, hc, ck.thread, ck.barrier, ho.whole, hd, bne_self_eq_false,
    Bool.false_eq_true, if_false, if_true]

theorem State.RunsAlone.bwait_becomes (he : ph ≠ (s.barrier (s.thread u) n).phase) (hb : (s.barrier (s.thread u) n).phase < 2 ^ 16) :
    s.Becomes (.bwait gd p a bk) (((s.charge [u]).gaveP u bk false).gaveP u p (decide ((ph + 1) % 2 ^ 16 ≠ (s.barrier (s.thread u) n).phase))) := by
  have ck := s.charged_charge [u]
  obtain ⟨h1, h2, h3⟩ := token_fields hp n.isLt
  have hc : (s.charge [u]).barCheck u n (ph * 2 ^ 16 + n) = none := Barrier.Open.barCheck (by rw [ck.thread, ck.barrier]; exact ho) _
  have hd : ((s.barrier (s.thread u) n).phase + 2 ^ 16 - ph) % 2 ^ 16 ≠ 0 := by omega
  have hq : decide (2 ≤ ((s.barrier (s.thread u) n).phase + 2 ^ 16 - ph) % 2 ^ 16) = decide ((ph + 1) % 2 ^ 16 ≠ (s.barrier (s.thread u) n).phase) :=
    decide_eq_decide.2 (by omega)
  refine h.becomes_goes (show exec (.bwait gd p a bk) s = execBwait gd p a bk s from rfl) ?_ ((h.goes_charge.gaveP bk false).gaveP p _)
  simp only [State.charge_src32, ht, State.barResume_none h.goes_charge.mark, h1, h2, h3, hc, ck.thread, ck.barrier, ho.whole, hd, hq,
    bne_self_eq_false, Bool.false_eq_true, if_false, State.statusOk, State.pset, State.gaveP]

end

/-! BPWAIT. -/

section
variable {q : Bool} (h : s.RunsAlone g u gd { ctl := false })
include h

theorem State.RunsAlone.bpwait_becomes (hq : (s.barrier (s.thread u) n).phase % 2 ≠ q.toNat) :
    s.Becomes (.bpwait gd n q bk) ((s.charge [u]).gaveP u bk false) := by
  have ck := s.charged_charge [u]
  have hc : (s.charge [u]).barCheck u n n = none := Barrier.Open.barCheck (by rw [ck.thread, ck.barrier]; exact ho) _
  refine h.becomes_goes (show exec (.bpwait gd n q bk) s = execBpwait gd n q bk s from rfl) ?_ (h.goes_charge.gaveP bk false)
  simp only [State.barResume_none h.goes_charge.mark, hc, ck.thread, ck.barrier, ho.whole, bne_iff_ne.2 hq, Bool.false_eq_true, if_false, if_true,
    State.statusOk, State.pset, State.gaveP]

theorem State.RunsAlone.bpwait_waits (hq : (s.barrier (s.thread u) n).phase % 2 = q.toNat) :
    exec (.bpwait gd n q bk) s = .next ((s.charge [u]).waitMark u .bpwait true (barKey (s.thread u) n) 0) := by
  have ck := s.charged_charge [u]
  have hc : (s.charge [u]).barCheck u n n = none := Barrier.Open.barCheck (by rw [ck.thread, ck.barrier]; exact ho) _
  refine h.waits (show exec (.bpwait gd n q bk) s = execBpwait gd n q bk s from rfl) ?_ (h.goes_charge.waitMark _ _ _ _)
  simp only [State.barResume_none h.goes_charge.mark, hc, ck.thread, ck.barrier, ho.whole, hq, bne_self_eq_false, Bool.false_eq_true, if_false]

end

/-! BSYNC. -/

/-- What BSYNC does for one thread. -/
def bsyncStep (n : Fin 32) (bk : PredF) (u : Nat) (s : State) : Flow × State :=
  let t := s.thread u
  match if t.mark.all (· < 3) then s.barResume u .bsync (barKey t n.val) bk 0 else none with
  | some r => r
  | none => s.arrival u n.val false bk fun ph s =>
    if (s.barrier t n.val).phase != ph then (.next, s.statusOk u bk)
    else (.left, s.waitMark u .bsync true (barKey t n.val) 0)

variable (h : s.RunsAlone g u gd { ctl := false, primary := true }) (he : (s.barrier (s.thread u) n).expect ≠ 0)
  (hp : (s.barrier (s.thread u) n).pend = []) (hc : s.coArrives (s.thread u).id.core n = false)
include h hp hc

omit ho in
/-- For a group of one thread that no arrival meets BSYNC is `bsyncStep`. -/
theorem State.RunsAlone.exec_bsync : exec (.bsync gd n bk) s = .next (s.isa gd { ctl := false, primary := true } (bsyncStep n bk)) := by
  have ck := s.charged_charge [u]
  have hh : State.meetArrivals n.val false [u] (s.charge [u]) = ([u], s.charge [u]) :=
    State.meetArrivals_alone (by rw [ck.thread, ck.coArrives]; exact hc) (by rw [ck.thread, ck.barrier]; exact hp)
  exact congrArg Host.Outcome.next (h.isaAll_isa (f := fun _ => bsyncStep n bk) (idle := fun _ s => (.next, s)) hh)

include he

omit hc in
/-- BSYNC's arrival is a step of its barrier, whose phase it then looks at. -/
theorem State.RunsAlone.bsyncStep_arrives {k : Nat} (hs : (s.charge [u]).barrierStep u n false = (k, r)) :
    bsyncStep n bk u (s.charge [u]) = if (r.barrier (s.thread u) n).phase != k then (.next, r.gaveP u bk false)
      else (.left, r.waitMark u .bsync true (barKey (s.thread u) n) 0) := by
  have ck := s.charged_charge [u]
  have hb : (s.charge [u]).barrier ((s.charge [u]).thread u) n = s.barrier (s.thread u) n := by rw [ck.thread, ck.barrier]
  have ha (f : Nat → State → Flow × State) : (s.charge [u]).arrival u n false bk f = f k r := by
    rw [State.arrival_steps (by rw [hb, ck.thread]; exact ho) h.goes_charge.mark (by rw [hb]; exact he) (by rw [hb]; exact hp), hs]
  simp only [bsyncStep, State.barResume_none h.goes_charge.mark, ite_self, ha, ck.thread, State.statusOk, State.pset, State.gaveP]

theorem State.RunsAlone.bsync_ends (ha : (s.barrier (s.thread u) n).arrived + 1 = (s.barrier (s.thread u) n).expect) :
    s.Becomes (.bsync gd n bk) (((s.charge [u]).endPhase (s.thread u) n false).gaveP u bk false) := by
  have ck := s.charged_charge [u]
  have hs := State.barrierStep_ends (s := s.charge [u]) (u := u) (n := n) (drop := false) (by rw [ck.thread, ck.barrier]; exact ha)
  rw [ck.thread, ck.barrier] at hs
  have hph : (((s.charge [u]).endPhase (s.thread u) n false).barrier (s.thread u) n).phase = ((s.barrier (s.thread u) n).phase + 1) % 2 ^ 16 := by
    have hb := (s.charge [u]).core.barriers.getD_put Barrier.reset (barKey (s.thread u) n) (barKey (s.thread u) n)
      (((s.charge [u]).barrier (s.thread u) n).ended (s.thread u).id.crew false)
    rw [if_pos rfl, ck.barrier] at hb
    exact congrArg Barrier.phase hb
  refine h.becomes_goes (h.exec_bsync hp hc) ?_ ((h.goes_charge.endPhase _ _ _).gaveP bk false)
  rw [h.bsyncStep_arrives ho he hp hs, hph, if_pos (bne_iff_ne.2 (by omega))]

theorem State.RunsAlone.bsync_waits (ha : (s.barrier (s.thread u) n).arrived + 1 ≠ (s.barrier (s.thread u) n).expect) :
    exec (.bsync gd n bk) s = .next (((s.charge [u]).setBarrier (s.thread u) n ((s.barrier (s.thread u) n).counted (s.thread u).id.crew false)).waitMark u
      .bsync true (barKey (s.thread u) n) 0) := by
  have ck := s.charged_charge [u]
  have hs := State.barrierStep_counts (s := s.charge [u]) (u := u) (n := n) (drop := false) (by rw [ck.thread, ck.barrier]; exact ha)
  rw [ck.thread, ck.barrier] at hs
  have hph := congrArg Barrier.phase ((s.charge [u]).core.barriers.getD_put Barrier.reset (barKey (s.thread u) n) (barKey (s.thread u) n)
    ((s.barrier (s.thread u) n).counted (s.thread u).id.crew false))
  rw [if_pos rfl] at hph
  refine h.waits (h.exec_bsync hp hc) ?_ ((h.goes_charge.setBarrier _ _ _).waitMark _ _ _ _)
  rw [h.bsyncStep_arrives ho he hp hs, if_neg]
  rw [bne_iff_ne, not_not]
  exact hph

end

/-- Settles O32: a wait looks at the phase of an open barrier, and BSYNC's arrival is the step that ARRIVE takes (`State.RunsAlone.bsyncStep_arrives`). -/
theorem barrierWaitsEndWithTheirPhase : Obligations.BarrierWaitsEndWithTheirPhase := by
  unfold Obligations.BarrierWaitsEndWithTheirPhase
  intro s g gd u n bk t c key b hi how hf hk
  have ho : Barrier.Open b t := ⟨hi, how, hf, hk⟩
  exact ⟨fun a p ph h hp hb ht => ⟨fun he => h.bwait_becomes ho hp ht he hb, fun he => h.bwait_waits ho hp ht he⟩,
    fun q h => ⟨fun hq => h.bpwait_becomes ho hq, fun hq => h.bpwait_waits ho hq⟩,
    fun h he _ hp hc => ⟨fun ha => h.bsync_ends ho he hp hc ha, fun ha => h.bsync_waits ho he hp hc ha⟩⟩

end Sys2Proof.Machine

namespace Sys2Proof.Machine

/-! O33: futures (spec/08 R181, R182; spec/19 R423). -/

section
variable {s r x : State} {g : Group} {gd : Guard} {u va : Nat} {a b d : RegF} {sc : Scope} {p bk : PredF} {f : FutAt}

/-- A thread that has not waited has no mark to lose. -/
theorem State.Calm.unmark (k : r.Calm [u]) : r.unmark u = r := by
  have hm : (r.core.threads.map fun t => if t.uid == u then { t with mark := none } else t) = r.core.threads := by
    refine (List.map_congr_left fun t ht => ?_).trans r.core.threads.map_id
    split
    · rename_i hu
      obtain ⟨-, -, hn⟩ := k.threads t ht (by simpa using hu)
      rw [← hn]
      rfl
    · rfl
  simp only [State.unmark, State.modThread, State.onCore, hm]

theorem State.Charged.pending {t : State} (k : s.Charged t) (u : Nat) : t.pending u = s.pending u := by
  simp only [State.pending, State.precedes, k.core, k.plat]

/-- A source of an instruction with no queue registers is none. -/
theorem Spec.src_direct {sp : Spec} (h : sp.queueSrc = none) {c : Src} (hc : c ∈ sp.srcs) : isQueue c.r = false := by
  simp only [Spec.queueSrc, List.findSome?_eq_none_iff] at h
  have hn := h c hc
  cases hr : c.r <;> simp_all [isQueue]

/-- A steady thread reads its registers as before. -/
theorem State.Steady.src64 (k : s.Steady u r) (hb : isQueue b = false) : r.src64 u b = s.pairBits u b := by
  obtain ⟨hid, hregs, -⟩ := k.same
  have hc : (r.thread u).isCtl = (s.thread u).isCtl := by simp only [Thread.isCtl, hid]
  have hr (n : Nat) : (r.thread u).reg n = (s.thread u).reg n := by simp only [Thread.reg, hregs]
  rw [State.src64_bits]
  unfold State.pairBits
  rw [hc]
  cases b with
  | que n => cases hb
  | gpr n => simp only [State.bits, State.readR, hr]
  | vz => rfl
  | lane => simp only [State.bits, State.readR, hid]
  | slot => simp only [State.bits, State.readR, hid]

theorem State.Steady.modCrew (k : s.Steady u r) (c : Nat) (f : Crew → Crew) : s.Steady u (r.modCrew c f) :=
  ⟨k.there, k.groups, ⟨k.calm.threads, k.calm.bare⟩, k.elems, k.same⟩

/-- The state of a future is the top of its state word (R181). -/
theorem futureState {w : Nat} (h : w < 2 ^ 64) : bitsOf w 63 62 = w / 2 ^ 62 := by
  unfold bitsOf
  omega

/-- A crew that holds fewer than 16 claims may claim. -/
theorem claims_room {o : Option Crew} (h : ∀ k, o = some k → k.claims.length < 16) {α : Type} (x y : α) :
    (if 16 ≤ (match o with
      | some k => k.claims.length
      | none => 0) then x else y) = y := by
  cases o with
  | none => rfl
  | some k => exact if_neg (Nat.not_le.2 (h k rfl))

variable (hd : f.down = false) (hz : (s.pairBits u a).toNat % 16 = 0) (hl : (s.pairBits u a).toNat < (s.thread u).vaLim)
include hd hz hl

/-! FGET. -/

section
variable (h : s.RunsAlone g u gd { ctl := false, srcs := [⟨1, a, .addr⟩], dsts := [(d, 2)], primary := true }) (hn : s.pending u = false)
  (hf : (s.charge [u]).future u (s.pairBits u a).toNat sc .r = (.ok f, r)) (hr : s.Steady u r)
include h hn hf hr

theorem State.RunsAlone.fget_gives (hs : bitsOf f.word 63 62 = 2) :
    s.Becomes (.fget gd d a sc bk) (((r.snapshot u sc).gave64 u d f.value).gaveP u bk false) := by
  have ck := s.charged_charge [u]
  have hq := Spec.dst_direct _ h.direct.2 d 2 (by simp)
  refine h.becomes_goes (show exec (.fget gd d a sc bk) s = execFget gd d a sc bk s from rfl) ?_ (((hr.snapshot sc).goes.gave64 d _).gaveP bk false)
  simp only [State.charge_src64, h.goes_charge.mark, State.charge_vaCheck_ok hz hl, ck.pending, hn, hf, hd, hs, hr.calm.unmark, State.dst64_gave_nat _ u d hq,
    State.statusOk, State.pset, State.gaveP, Bool.false_eq_true, if_false]

theorem State.RunsAlone.fget_waits (hs : bitsOf f.word 63 62 = 0 ∨ bitsOf f.word 63 62 = 1) :
    exec (.fget gd d a sc bk) s = .next (r.waitMark u .fget true (s.pairBits u a).toNat (scopeCode sc)) := by
  have ck := s.charged_charge [u]
  refine h.waits (show exec (.fget gd d a sc bk) s = execFget gd d a sc bk s from rfl) ?_ (hr.goes.waitMark _ _ _ _)
  obtain hs | hs := hs <;>
    simp only [State.charge_src64, h.goes_charge.mark, State.charge_vaCheck_ok hz hl, ck.pending, hn, hf, hd, hs, Bool.false_eq_true, if_false]

theorem State.RunsAlone.fget_broken (hs : bitsOf f.word 63 62 = 3) (h7 : bk.val ≠ 7) : s.Becomes (.fget gd d a sc bk) (r.gaveP u bk true) := by
  have ck := s.charged_charge [u]
  refine h.becomes_goes (show exec (.fget gd d a sc bk) s = execFget gd d a sc bk s from rfl) ?_ (hr.goes.gaveP bk true)
  simp only [State.charge_src64, h.goes_charge.mark, State.charge_vaCheck_ok hz hl, ck.pending, hn, hf, hd, hs, hr.calm.unmark, State.brokenStatus, h7,
    State.pset, State.gaveP, Bool.false_eq_true, if_false]

end

/-! FPUT. -/

/-- What FPUT leaves of the state after its boundary: the future full, and a claim of it by the crew over (R182). -/
def State.fputLeft (x : State) (u va : Nat) (sc : Scope) (f : FutAt) (v : Nat) (t : Thread) : State :=
  (x.putFuture u va sc f (x.lastBnd u) v (setBits f.word 63 62 2)).modCrew t.id.crew fun k => { k with claims := k.claims.filter (· != (t.space, va)) }

theorem State.RunsAlone.fput_fills
    (h : s.RunsAlone g u gd { ctl := false, srcs := [⟨1, a, .addr⟩, ⟨2, b, .i64⟩], primary := true, bnd := some (sc, .fput) })
    (hf : (s.charge [u]).future u (s.pairBits u a).toNat sc .w = (.ok f, r)) (hb : r.doBoundary u sc .fput = (.next, x)) (hx : s.Steady u x)
    (hs : bitsOf f.word 63 62 = 0 ∨ bitsOf f.word 63 62 = 1 ∧ bitsOf f.word 47 0 = (s.thread u).ltid.toNat % 2 ^ 48)
    (k : s.Steady u (x.fputLeft u (s.pairBits u a).toNat sc f (s.pairBits u b).toNat (s.thread u))) :
    s.Becomes (.fput gd a b sc bk) ((x.fputLeft u (s.pairBits u a).toNat sc f (s.pairBits u b).toNat (s.thread u)).gaveP u bk false) := by
  have ck := s.charged_charge [u]
  have hq : isQueue b = false := Spec.src_direct h.direct.1 (c := ⟨2, b, .i64⟩) (by simp)
  have h3 : bitsOf f.word 63 62 ≠ 3 := by omega
  have hmine : (decide (bitsOf f.word 63 62 = 2) ||
      (decide (bitsOf f.word 63 62 = 1) && !(bitsOf f.word 47 0 == (s.thread u).ltid.toNat % 2 ^ 48))) = false := by
    obtain hs | ⟨hs, hc⟩ := hs
    · simp [hs]
    · simp [hs, hc]
  refine h.becomes_goes (show exec (.fput gd a b sc bk) s = execFput gd a b sc bk s from rfl) ?_ (k.goes.gaveP bk false)
  simp only [State.charge_src64, State.charge_vaCheck_ok hz hl, ck.thread, hf, hd, h3, hmine, hb, hx.src64 hq, Bool.false_eq_true, if_false, State.statusOk,
    State.pset, State.gaveP, State.fputLeft]

/-! FCLAIM. -/

/-- What a claim leaves: the future's word names the thread, and its crew holds the claim (R182). -/
def State.fclaimLeft (r : State) (u va : Nat) (sc : Scope) (f : FutAt) (t : Thread) : State :=
  (r.putFuture u va sc f [] f.value (2 ^ 62 + t.ltid.toNat % 2 ^ 48)).modCrew t.id.crew fun k => { k with claims := k.claims ++ [(t.space, va)] }

section
variable (h : s.RunsAlone g u gd { ctl := false, srcs := [⟨1, a, .addr⟩], primary := true })
  (hf : (s.charge [u]).future u (s.pairBits u a).toNat sc .w = (.ok f, r))
  (hc : ∀ k, r.crew? (s.thread u).id.crew = some k → k.claims.length < 16)
include h hf hc

theorem State.RunsAlone.fclaim_claims (hs : bitsOf f.word 63 62 = 0) (k : s.Steady u (r.fclaimLeft u (s.pairBits u a).toNat sc f (s.thread u))) :
    s.Becomes (.fclaim gd p a sc bk) (((r.fclaimLeft u (s.pairBits u a).toNat sc f (s.thread u)).gaveP u bk false).gaveP u p true) := by
  have ck := s.charged_charge [u]
  refine h.becomes_goes (show exec (.fclaim gd p a sc bk) s = execFclaim gd p a sc bk s from rfl) ?_ ((k.goes.gaveP bk false).gaveP p true)
  simp only [State.charge_src64, State.charge_vaCheck_ok hz hl, ck.thread, hf, hd, hs, Bool.false_eq_true, if_false, State.statusOk,
    State.pset, State.gaveP, State.fclaimLeft]
  exact claims_room hc _ _

theorem State.RunsAlone.fclaim_refused (hs : bitsOf f.word 63 62 = 1 ∨ bitsOf f.word 63 62 = 2) (hr : s.Steady u r) :
    s.Becomes (.fclaim gd p a sc bk) ((r.gaveP u bk false).gaveP u p false) := by
  have ck := s.charged_charge [u]
  refine h.becomes_goes (show exec (.fclaim gd p a sc bk) s = execFclaim gd p a sc bk s from rfl) ?_ ((hr.goes.gaveP bk false).gaveP p false)
  obtain hs | hs := hs
  all_goals
    simp only [State.charge_src64, State.charge_vaCheck_ok hz hl, ck.thread, hf, hd, hs, Bool.false_eq_true, if_false, State.statusOk, State.pset,
      State.gaveP]
    exact claims_room hc _ _

end
end

/-! Waiters. -/

/-- A waiter of a future is told. -/
theorem State.wakeFuture_mem {s : State} {v n : Nat} {y : Thread} {z : WaitRec} (hy : y ∈ s.core.threads) (hr : y.run = .waiting z)
    (hk : z.kind = .fget) (hm : y.mark = some 0) (hres : s.resident y = true) (hpa : s.futurePa y z.a = some v) :
    { y with mark := some n } ∈ (s.wakeFuture v n).core.threads := by
  rw [State.wakeFuture, State.markWaiters_threads]
  refine List.mem_map.2 ⟨y, hy, if_pos ?_⟩
  simp only [Thread.awaits, hr, hk, hm, hres, hpa, beq_self_eq_true, Bool.and_self]

/-- Settles O33: each instruction is the outcome of its meaning for the future as its home gives it, by the state in its word (`futureState`). -/
theorem futuresAreFilledOnce : Obligations.FuturesAreFilledOnce := by
  unfold Obligations.FuturesAreFilledOnce
  intro s g gd u a sc bk f r t c va st hd hw hz hl hr
  have hst : bitsOf f.word 63 62 = st := futureState hw
  have hset : setBits f.word 63 62 2 = f.word % 2 ^ 62 + 2 * 2 ^ 62 := by
    unfold setBits
    omega
  have hclaimer : bitsOf f.word 47 0 = f.word % 2 ^ 48 := by rw [bitsOf, Nat.pow_zero, Nat.div_one]
  refine ⟨fun d h hn hf => ⟨fun hs => h.fget_gives hd hz hl hn hf hr (hst.trans hs),
      fun hs => h.fget_waits hd hz hl hn hf hr (by omega), fun hs h7 => h.fget_broken hd hz hl hn hf hr (hst.trans hs) h7⟩,
    fun b x h hf hb hx hs => ?_, fun v n y z hy hrun hk hm hres hpa => State.wakeFuture_mem hy hrun hk hm hres hpa,
    fun p h hf hc => ⟨fun hs k => h.fclaim_claims hd hz hl hf hc (hst.trans hs) k, fun hs => h.fclaim_refused hd hz hl hf hc (by omega) hr⟩⟩
  rw [← hset]
  exact fun k => h.fput_fills hd hz hl hf hb hx (hs.imp hst.trans fun ⟨h1, h2⟩ => ⟨hst.trans h1, hclaimer.trans h2⟩) k

end Sys2Proof.Machine

namespace Sys2Proof.Machine

/-! O34: ports (spec/08 R166 to R169, R184). -/

section
variable {s r x : State} {g : Group} {gd : Guard} {u h : Nat} {a b d : RegF} {p bk : PredF} {q : Port}

/-- A charge leaves alone what the task system holds beside the functions. -/
theorem State.Charged.tasks {t : State} (k : s.Charged t) : { t.task with fns := [] } = { s.task with fns := [] } := congrArg State.task k.rest

theorem State.Charged.ports {t : State} (k : s.Charged t) : t.task.ports = s.task.ports := by
  have e := congrArg TaskSys.ports k.tasks
  exact e

theorem State.Charged.patterns {t : State} (k : s.Charged t) : t.task.patterns = s.task.patterns := by
  have e := congrArg TaskSys.patterns k.tasks
  exact e

theorem State.Charged.tmpls {t : State} (k : s.Charged t) : t.task.tmpls = s.task.tmpls := by
  have e := congrArg TaskSys.tmpls k.tasks
  exact e

theorem State.Charged.offHome {t : State} (k : s.Charged t) (die : Nat) : Machine.offHome t die = Machine.offHome s die := by
  simp only [Machine.offHome, State.stepping, k.pkg, k.plat]

theorem State.Charged.clusterOn {t : State} (k : s.Charged t) (die cl : Nat) : t.clusterOn die cl = s.clusterOn die cl := by
  simp only [State.clusterOn, k.pkg]

theorem State.Charged.unitBusy {t : State} (k : s.Charged t) (cl : Nat) : t.unitBusy cl = s.unitBusy cl := by
  simp only [State.unitBusy, k.clusterAt]

/-! Handles (R167). -/

/-- The key of the port that a handle names. -/
def portKey (h : Nat) : Nat := 256 * (40 * (h % 4) + h / 4 % 64) + h / 256 % 256

theorem portKey_eq (h : Nat) : 256 * namedCluster h + bitsOf h 15 8 = portKey h := rfl

/-- A handle names an open port of the thread's function and ASID, at an enabled cluster of a die that is there. -/
structure State.Owns (s : State) (u h : Nat) (q : Port) : Prop where
  small : h < 2 ^ 32
  home  : offHome s (h % 4) = false
  on    : s.clusterOn (h % 4) (h / 4 % 64) = true
  found : s.task.ports.find (portKey h) = some q
  open_ : q.open_ = true
  gen   : q.gen = h / 2 ^ 16
  asid  : q.asid = (s.thread u).id.asid
  fn    : q.fn = (s.thread u).id.fn

theorem State.Owns.charged {t : State} (o : s.Owns u h q) (k : s.Charged t) : t.Owns u h q :=
  ⟨o.small, by rw [k.offHome]; exact o.home, by rw [k.clusterOn]; exact o.on, by rw [k.ports]; exact o.found, o.open_, o.gen,
    by rw [k.thread]; exact o.asid, by rw [k.thread]; exact o.fn⟩

theorem State.Owns.handle (o : s.Owns u h q) (strict : Bool) : s.handle u h strict = (.ok (portKey h, q), s) := by
  have hp : s.task.ports.getD Port.reset (portKey h) = q := by
    rw [Map.getD, o.found]
    rfl
  have hc : s.clusterOn (h % 4) (bitsOf h 7 2) = true := o.on
  have hg : h / 2 ^ 16 % 2 ^ 16 = h / 2 ^ 16 := Nat.mod_eq_of_lt (Nat.div_lt_of_lt_mul o.small)
  simp only [State.handle, o.home, hc, hp, o.open_, o.gen, hg, o.asid, o.fn, portKey_eq, beq_self_eq_true, bne_self_eq_false, Bool.not_true, Bool.or_false,
    Bool.and_self, Bool.true_or, Bool.false_eq_true, if_false, if_true]

/-! PORTCFG (R168). -/

/-- A port as OPEN leaves it. -/
def Port.opened (gen depth : Nat) (share : Bool) (t : Thread) : Port := ⟨true, gen, t.id.asid, t.id.fn, depth, share, [], [], false, []⟩

/-- The port is replaced. -/
def State.putPort (s : State) (key : Nat) (q : Port) : State := s.onTask fun k => { k with ports := k.ports.put key q }

theorem State.Goes.putPort (k : s.Goes u r) (key : Nat) (q : Port) : s.Goes u (r.putPort key q) := k.onTask _

theorem State.Goes.endSenders (k : s.Goes u r) (key : Nat) : s.Goes u (r.endSenders key) := by
  unfold State.endSenders
  split
  · exact k
  · exact (k.markWaiters 2 _).onTask _

/-- The fields of OPEN's block that passes the checks. -/
theorem openFields {v : Nat} (hv : v < 2 ^ 25) (h1 : 1 ≤ v / 2 ^ 16 % 2 ^ 8) (h4 : v / 2 ^ 16 % 2 ^ 8 ≤ 4) :
    (v / 2 ^ 25 != 0 || decide (bitsOf v 23 16 = 0) || decide (4 < bitsOf v 23 16)) = false ∧ bitOf v 24 = decide (v / 2 ^ 24 = 1) ∧
      256 * namedCluster (v % 2 ^ 16) + bitsOf (v % 2 ^ 16) 15 8 =
        256 * (40 * (v % 2 ^ 16 % 4) + v % 2 ^ 16 / 4 % 64) + v % 2 ^ 16 / 256 := by
  refine ⟨?_, ?_, ?_⟩
  · have hb : bitsOf v 23 16 = v / 2 ^ 16 % 2 ^ 8 := rfl
    have h0 : v / 2 ^ 25 = 0 := Nat.div_eq_of_lt hv
    rw [hb, h0, decide_eq_false (by omega), decide_eq_false (by omega)]
    rfl
  · have hm : v / 2 ^ 24 % 2 = v / 2 ^ 24 := by omega
    rw [bitOf, hm]
    rfl
  · unfold namedCluster bitsOf
    omega

theorem State.RunsAlone.portcfgOpen_becomes {bs : List Byte} {v : Nat}
    (hr : s.RunsAlone g u gd { ctl := false, srcs := [⟨1, a, .addr⟩], dsts := [(d, 1)], primary := true })
    (hz : (s.pairBits u a).toNat % 16 = 0) (hl : (s.pairBits u a).toNat < (s.thread u).vaLim)
    (hb : (s.charge [u]).readPlain ((s.charge [u]).agent (s.thread u) .ls) (s.pairBits u a).toNat 16 = (.ok bs, r)) (k : s.Steady u r)
    (he : ofBytesLE bs = v) (hv : v < 2 ^ 25) (h1 : 1 ≤ v / 2 ^ 16 % 2 ^ 8) (h4 : v / 2 ^ 16 % 2 ^ 8 ≤ 4) (ho : offHome r (v % 2 ^ 16 % 4) = false)
    (hc : r.clusterOn (v % 2 ^ 16 % 4) (v % 2 ^ 16 / 4 % 64) = true) {key gen : Nat}
    (hkey : key = 256 * (40 * (v % 2 ^ 16 % 4) + v % 2 ^ 16 / 4 % 64) + v % 2 ^ 16 / 256)
    (hq : (r.task.ports.getD Port.reset key).open_ = false) (hgen : gen = (r.task.ports.getD Port.reset key).gen % 0xFFFF + 1) :
    s.Becomes (.portcfgOpen gd d a bk) (((r.putPort key (Port.opened gen (v / 2 ^ 16 % 2 ^ 8) (decide (v / 2 ^ 24 = 1)) (s.thread u))).gave u d .b32
      (gen * 2 ^ 16 + v % 2 ^ 16)).gaveP u bk false) := by
  have ck := s.charged_charge [u]
  have hd := Spec.dst_direct _ hr.direct.2 d 1 (by simp)
  obtain ⟨hf, hs, hn⟩ := openFields hv h1 h4
  have hon : r.clusterOn (v % 2 ^ 16 % 4) (bitsOf (v % 2 ^ 16) 7 2) = true := hc
  subst hkey hgen
  refine hr.becomes_goes (show exec (.portcfgOpen gd d a bk) s = execPortcfgOpen gd d a bk s from rfl) ?_ (((k.goes.putPort _ _).gave d .b32 _).gaveP bk false)
  simp only [State.charge_src64, State.charge_vaCheck_ok hz hl, ck.thread, hb, he, hf, hs, hn, ho, hon, hq, State.dst_gave_nat _ u d hd, Bool.not_true,
    Bool.or_self, Bool.false_eq_true, if_false, State.statusOk, State.pset]
  rfl

section
variable (hr : s.RunsAlone g u gd { ctl := false, srcs := [⟨1, a, .int⟩], primary := true }) (o : s.Owns u (s.bits u a 32).toNat q)
include hr o

theorem State.RunsAlone.portcfgReg_becomes (hb : q.brk = false) (hn : (s.thread u).id.crew ∉ q.prods) (hl : q.prods.length < 4) :
    s.Becomes (.portcfgReg gd a bk) (((s.charge [u]).putPort (portKey (s.bits u a 32).toNat)
      { q with prods := setIns q.prods (s.thread u).id.crew }).gaveP u bk false) := by
  have ck := s.charged_charge [u]
  have hc : q.prods.contains (s.thread u).id.crew = false := by simpa using hn
  refine hr.becomes_goes (show exec (.portcfgReg gd a bk) s = execPortcfgReg gd a bk s from rfl) ?_ ((hr.goes_charge.putPort _ _).gaveP bk false)
  simp only [State.charge_src32, (o.charged ck).handle, ck.thread, hb, hc, Nat.not_le.2 hl, Bool.false_eq_true, if_false, State.statusOk, State.pset]
  rfl

theorem State.RunsAlone.portcfgClose_becomes
    (ha : (s.task.patterns.any fun e => e.2.armed && e.2.ports.contains (portKey (s.bits u a 32).toNat, q.gen)) = false)
    (hb : s.unitBusy (portKey (s.bits u a 32).toNat / 256) = false) :
    s.Becomes (.portcfgClose gd a bk) ((((s.charge [u]).endSenders (portKey (s.bits u a 32).toNat)).putPort (portKey (s.bits u a 32).toNat)
      { Port.reset with gen := q.gen }).gaveP u bk false) := by
  have ck := s.charged_charge [u]
  refine hr.becomes_goes (show exec (.portcfgClose gd a bk) s = execPortcfgClose gd a bk s from rfl) ?_
    (((hr.goes_charge.endSenders _).putPort _ _).gaveP bk false)
  simp only [State.charge_src32, (o.charged ck).handle, ck.patterns, ck.unitBusy, ha, hb, Bool.false_eq_true, if_false, State.statusOk, State.pset]
  rfl

end

/-! SEND (R169, R184). -/

/-- The order of members is nothing to a group of one thread. -/
theorem State.RunsAlone.inOrder {sp : Spec} (hr : s.RunsAlone g u gd sp) : s.RunsAlone g u gd { sp with inOrder := true } :=
  ⟨⟨⟨hr.toIssues, hr.encoded, hr.clear, hr.checked, hr.unpaired⟩, hr.direct⟩, hr.one, hr.holds⟩

theorem State.Steady.message (k : s.Steady u r) (b : RegF) : r.message u b = s.message u b := by
  obtain ⟨-, hregs, -⟩ := k.same
  have hr (n : Nat) : (r.thread u).reg n = (s.thread u).reg n := by simp only [Thread.reg, hregs]
  simp only [State.message, hr]

/-- A port has taken a message, and what this makes possible has happened (R170). -/
def State.sent (s : State) (key : Nat) (q : Port) (msg : List Byte) : State :=
  (s.putPort key { q with queue := q.queue ++ [msg] }).portEvent (key / 256)

/-- What SEND's status and, in its test form, result are. -/
def State.sendStatus (s : State) (u : Nat) (mode : SendMode) (p bk : PredF) (b : Bool) : State :=
  if mode == .test then (s.gaveP u bk false).gaveP u p b else s.gaveP u bk false

theorem State.Goes.sendStatus (k : s.Goes u r) (mode : SendMode) (p bk : PredF) (b : Bool) : s.Goes u (r.sendStatus u mode p bk b) := by
  unfold State.sendStatus
  split
  · exact (k.gaveP bk false).gaveP p b
  · exact k.gaveP bk false

variable {key : Nat} {msg : List Byte} {mode : SendMode}

theorem State.sendTo_room (hf : s.task.ports.find key = some q) (hb : q.brk = false) (hl : q.queue.length < q.depth) :
    s.sendTo u h (key, q) mode p bk msg = (.next, (s.sent key q msg).sendStatus u mode p bk true) := by
  simp only [State.sendTo, hb, hl, State.putMessage, hf, State.sent, State.putPort, Bool.false_eq_true, if_false, if_true]
  rfl

theorem State.sendTo_full_test (hb : q.brk = false) (hl : q.depth ≤ q.queue.length) :
    s.sendTo u h (key, q) .test p bk msg = (.next, s.sendStatus u .test p bk false) := by
  simp only [State.sendTo, hb, Nat.not_lt.2 hl, Bool.false_eq_true, if_false]
  rfl

theorem State.sendTo_full_wait (hb : q.brk = false) (hl : q.depth ≤ q.queue.length) :
    s.sendTo u h (key, q) .wait p bk msg = (.left, (s.putPort key { q with sendq := q.sendq ++ [(u, msg)] }).waitMark u .send true key 0) := by
  simp only [State.sendTo, hb, Nat.not_lt.2 hl, Bool.false_eq_true, if_false]
  rfl

/-- What SEND does for one thread. -/
def sendStep (mode : SendMode) (p : PredF) (a b : RegF) (bk : PredF) (u : Nat) (s : State) : Flow × State :=
  let h := s.src32 u a
  match (s.thread u).mark with
  | some 0 => (.left, s.waitMark u .send true (256 * namedCluster h + bitsOf h 15 8) 0)
  | some 1 => (.next, (s.unmark u).statusOk u bk)
  | some _ => (s.unmark u).brokenStatus u bk (BitVec.ofNat 64 h)
  | none => match s.handle u h false with
    | (.error f, s) => (f, s)
    | (.ok e, s) => if s.unitBusy (e.1 / 256) then (.stall, s) else match s.doBoundary u .dev .send with
      | (.next, s) => s.sendTo u h (e.1, s.task.ports.getD Port.reset e.1) mode p bk (s.message u b)
      | r => r

/-- What SEND demands of its operands. -/
def sendSpec (a b : RegF) : Spec := { ctl := false, srcs := [⟨1, a, .int⟩, ⟨2, b, .oct⟩], primary := true, bnd := some (.dev, .send) }

theorem exec_send : exec (.send gd mode p a b bk) s = .next (s.isa gd { sendSpec a b with inOrder := true } (sendStep mode p a b bk)) := rfl

section
variable (hr : s.RunsAlone g u gd (sendSpec a b)) (o : s.Owns u (s.bits u a 32).toNat q)
  (hu : s.unitBusy (portKey (s.bits u a 32).toNat / 256) = false) (hd : (s.charge [u]).doBoundary u .dev .send = (.next, r)) (k : s.Steady u r)
  (hf : r.task.ports.find (portKey (s.bits u a 32).toNat) = some q)
include hr o hu hd k hf

/-- After its boundary SEND's message meets the port. -/
theorem State.RunsAlone.sendStep_eq : sendStep mode p a b bk u (s.charge [u]) =
    r.sendTo u (s.bits u a 32).toNat (portKey (s.bits u a 32).toNat, q) mode p bk (s.message u b) := by
  have ck := s.charged_charge [u]
  have hq : r.task.ports.getD Port.reset (portKey (s.bits u a 32).toNat) = q := by
    rw [Map.getD, hf]
    rfl
  simp only [sendStep, hr.goes_charge.mark, State.charge_src32, (o.charged ck).handle, ck.unitBusy, hu, hd, hq, k.message, Bool.false_eq_true, if_false]

variable (hb : q.brk = false)
include hb

theorem State.RunsAlone.send_sends (hl : q.queue.length < q.depth) (hs : s.Steady u (r.sent (portKey (s.bits u a 32).toNat) q (s.message u b))) :
    s.Becomes (.send gd mode p a b bk) ((r.sent (portKey (s.bits u a 32).toNat) q (s.message u b)).sendStatus u mode p bk true) :=
  hr.inOrder.becomes_goes exec_send ((hr.sendStep_eq o hu hd k hf).trans (State.sendTo_room hf hb hl)) (hs.goes.sendStatus mode p bk true)

theorem State.RunsAlone.send_tests (hl : q.depth ≤ q.queue.length) :
    s.Becomes (.send gd .test p a b bk) (r.sendStatus u .test p bk false) :=
  hr.inOrder.becomes_goes exec_send ((hr.sendStep_eq o hu hd k hf).trans (State.sendTo_full_test hb hl)) (k.goes.sendStatus .test p bk false)

theorem State.RunsAlone.send_waits (hl : q.depth ≤ q.queue.length) : exec (.send gd .wait p a b bk) s =
    .next ((r.putPort (portKey (s.bits u a 32).toNat) { q with sendq := q.sendq ++ [(u, s.message u b)] }).waitMark u .send true
      (portKey (s.bits u a 32).toNat) 0) :=
  hr.inOrder.waits exec_send ((hr.sendStep_eq o hu hd k hf).trans (State.sendTo_full_wait hb hl)) ((k.goes.putPort _ _).waitMark _ _ _ _)

end
end

/-- Settles O34: a handle that the thread owns names its port (`State.Owns.handle`), and SEND's message, after its boundary, meets the port as it is
(`State.RunsAlone.sendStep_eq`). -/
theorem portsTakeMessagesInOrder : Obligations.PortsTakeMessagesInOrder := by
  unfold Obligations.PortsTakeMessagesInOrder
  intro s g gd u a b d bk t c h key put
  refine ⟨fun bs r hr hz hl hb k hv h1 h4 ho hc hq => hr.portcfgOpen_becomes hz hl hb k rfl hv h1 h4 ho hc rfl hq rfl,
    fun q hf hh hc ho hg ha hfn => ?_⟩
  have own : s.Owns u h q := ⟨(s.bits u a 32).isLt, hh, hc, hf, ho, hg, ha, hfn⟩
  refine ⟨fun hr => ⟨fun hb hn hl => hr.portcfgReg_becomes own hb hn hl, fun hp hu => hr.portcfgClose_becomes own hp hu⟩,
    fun p r hr hu hd k hfr hb => ?_⟩
  intro msg sent
  have hmsg : msg = s.message u b := by cases b <;> rfl
  clear_value msg
  subst hmsg
  exact ⟨fun hl hs => ⟨hr.send_sends (mode := .plain) own hu hd k hfr hb hl hs, hr.send_sends (mode := .wait) own hu hd k hfr hb hl hs,
      hr.send_sends (mode := .test) own hu hd k hfr hb hl hs⟩,
    fun hl => ⟨hr.send_tests own hu hd k hfr hb hl, hr.send_waits own hu hd k hfr hb hl⟩⟩

end Sys2Proof.Machine

namespace Sys2Proof.Machine

/-! What a plain read leaves alone (spec/10 R220, R229, R230; spec/11 R242 to R244): the dies, and the levels of threads. -/

/-- The dies, and the level at which each thread runs. -/
def State.ranks (s : State) : Pkg × List (Nat × Level) := (s.pkg, s.core.threads.map fun t => (t.uid, t.lvl))

section
variable {s r : State}

theorem State.pkg_of_ranks (h : r.ranks = s.ranks) : r.pkg = s.pkg := congrArg Prod.fst h

theorem State.lvl_of_ranks (h : r.ranks = s.ranks) (u : Nat) : (r.thread u).lvl = (s.thread u).lvl := by
  have find (l : List Thread) : (l.find? fun t => t.uid == u).map (fun t => (t.uid, t.lvl)) =
      (l.map fun t => (t.uid, t.lvl)).find? fun e => e.1 == u := by
    rw [List.find?_map]
    rfl
  have hl : (r.thread? u).map (fun t => (t.uid, t.lvl)) = (s.thread? u).map fun t => (t.uid, t.lvl) := by
    rw [State.thread?, State.thread?, find, find]
    exact congrArg (fun x : Pkg × List (Nat × Level) => x.2.find? fun e => e.1 == u) h
  unfold State.thread
  cases hr : r.thread? u <;> cases hs : s.thread? u <;> simp_all

theorem State.Charged.ranks (k : s.Charged r) : r.ranks = s.ranks := by
  simp only [State.ranks, k.pkg, k.core]

theorem State.Draws.ranks (h : s.Draws r) : r.ranks = s.ranks := by
  obtain ⟨_, rfl⟩ := h
  rfl

end

section
variable (s : State)

theorem foldl_ranks {α : Type} {f : State → α → State} (h : ∀ s a, (f s a).ranks = s.ranks) (l : List α) (s : State) :
    (l.foldl f s).ranks = s.ranks :=
  foldl_rel (fun s r : State => r.ranks = s.ranks) (fun _ => rfl) (fun h k => k.trans h) f h l s

theorem foldl_snd_ranks {α β : Type} {f : β × State → α → β × State} (h : ∀ p a, (f p a).2.ranks = p.2.ranks) (l : List α) (p : β × State) :
    (l.foldl f p).2.ranks = p.2.ranks :=
  foldl_rel (fun p q : β × State => q.2.ranks = p.2.ranks) (fun _ => rfl) (fun h k => k.trans h) f h l p

theorem State.modThread_ranks (u : Nat) {f : Thread → Thread} (h : ∀ t, (f t).uid = t.uid ∧ (f t).lvl = t.lvl) :
    (s.modThread u f).ranks = s.ranks := by
  refine Prod.ext rfl (.trans (List.map_map ..) (List.map_congr_left fun t _ => ?_))
  obtain ⟨hu, hl⟩ := h t
  simp only [Function.comp]
  split
  · rw [hu, hl]
  · rfl

/-! Writes, traces and room in a slice. -/

theorem State.fire_ranks (pline : Nat) : (s.fire pline).ranks = s.ranks := Prod.ext rfl (List.map_map ..)

theorem State.physStore_ranks (w : Wr) (pa : Nat) (bs : List Byte) : (s.physStore w pa bs).ranks = s.ranks := by
  unfold State.physStore
  extract_lets lines r
  split
  · rfl
  · exact foldl_ranks State.fire_ranks lines r

theorem State.physWrite_ranks (w : Wr) (pa : Nat) (bs : List Byte) (poison : Bool) : (s.physWrite w pa bs poison).ranks = s.ranks := by
  have put : (s.physPut w pa bs).ranks = s.ranks := by
    unfold State.physPut
    split <;> exact s.physStore_ranks w pa _
  unfold State.physWrite State.physPoison
  split
  · rfl
  · cases poison <;> exact put

theorem State.traceRec_ranks (fn : Nat) (ltid : Word) (va pc : Nat) (old new : List Byte) (die kind : Nat) :
    (s.traceRec fn ltid va pc old new die kind).ranks = s.ranks := by
  unfold State.traceRec
  extract_lets t
  split
  · rfl
  · split
    · rfl
    · exact (State.physWrite_ranks _ _ _ _ _).trans rfl

theorem State.traceNames_ranks (s0 : State) (pline kind : Nat) (skip : Option (Space × Nat)) :
    (State.traceNames s0 s pline kind skip).ranks = s.ranks := by
  refine foldl_ranks (fun s l => ?_) _ s
  dsimp only
  split
  · rfl
  · split
    · rfl
    · refine foldl_ranks (fun t fn => ?_) _ s
      split
      · exact State.traceRec_ranks ..
      · rfl

theorem State.evictHalf_ranks (half : Nat) : (s.evictHalf half).ranks = s.ranks := by
  unfold State.evictHalf
  dsimp only
  (repeat' split) <;> rfl

theorem State.evictLine_ranks (v : L2Line) : (s.evictLine v).ranks = s.ranks := by
  unfold State.evictLine
  extract_lets r
  split
  · exact (State.evictHalf_ranks _ _).trans (State.evictHalf_ranks r _)
  · rfl

theorem State.makeRoom_ranks (home : Nat × Nat) (sp : Space) (vline pline : Nat) : (s.makeRoom home sp vline pline).ranks = s.ranks := by
  have room : (s.remapRoom pline).ranks = s.ranks := by
    unfold State.remapRoom
    split
    · rfl
    · dsimp only
      split
      · rfl
      · split
        · rfl
        · exact State.traceNames_ranks ..
  unfold State.makeRoom
  dsimp only
  split
  · exact room
  · split
    · exact room
    · exact (State.evictLine_ranks _ _).trans room

theorem State.readNames_ranks (ag : Agent) (home : Nat × Nat) (va pa : Nat) (at_ : Attr) (na : Bool) :
    (s.readNames ag home va pa at_ na).ranks = s.ranks := by
  unfold State.readNames State.fillTraced
  split
  · exact (State.traceNames_ranks ..).trans (State.makeRoom_ranks ..)
  · exact State.traceNames_ranks ..

theorem State.l1Fill_ranks (ag : Agent) (va n : Nat) (at_ : Attr) (na : Bool) : (s.l1Fill ag va n at_ na).ranks = s.ranks := by
  unfold State.l1Fill
  split <;> rfl

/-! Translation and the way to a line. -/

theorem State.noteStall_ranks (key : Nat × Nat × Nat) (pa n : Nat) : (s.noteStall key pa n).ranks = s.ranks := by
  unfold State.noteStall
  split <;> rfl

theorem State.walked_ranks (fn va : Nat) (sp : Space) : (s.walked fn va sp).ranks = s.ranks := by
  unfold State.walked
  split
  · rfl
  · split
    · rfl
    · exact foldl_ranks (fun s l => State.traceNames_ranks (s.onMem fun m => m.filterRead l) s l 5 none) _ s

theorem translate_ranks (fn : Nat) (sp : Space) (core : Nat) (lvl : Level) (va : Nat) (a : Acc) :
    (translate s fn sp core lvl va a).2.ranks = s.ranks := by
  unfold translate
  dsimp only
  split
  · rfl
  · split
    · (repeat' split) <;> rfl
    · rename_i asid _
      have hc := (chooseFrom_draws (xlations s fn asid va) (.error (6, false)) s).ranks
      split
      · split
        · exact (State.noteStall_ranks ..).trans hc
        · exact hc
      · split
        · exact hc
        · split
          · exact hc
          · split
            · exact hc
            · dsimp only
              (repeat' split) <;> exact hc

theorem State.xlate_ranks (ag : Agent) (va : Nat) (a : Acc) : (s.xlate ag va a).2.ranks = s.ranks := by
  have ht := (translate_ranks (s.walked ag.fn va ag.dom.space) ag.fn ag.dom.space ag.dom.core ag.lvl va a).trans (s.walked_ranks ag.fn va ag.dom.space)
  unfold State.xlate
  split
  · rename_i h
    rw [h] at ht
    split <;> exact ht
  · exact ht

theorem State.prepareHalf_ranks (half : Nat) (write cached : Bool) : (s.prepareHalf half write cached).2.ranks = s.ranks := by
  unfold State.prepareHalf
  dsimp only
  (repeat' split) <;> rfl

theorem State.snoopLine_ranks (line : Nat) (by_ : Who) : (s.snoopLine line by_).ranks = s.ranks := by
  unfold State.snoopLine
  split <;> rfl

theorem State.prepare_ranks (pa n : Nat) (write : Bool) (at_ : Attr) (atomic : Bool) (by_ : Who) :
    (s.prepare pa n write at_ atomic by_).2.ranks = s.ranks := by
  have half (c : Bool) (l : List Nat) : (l.foldl (fun (acc : Ready × State) half =>
      (if (acc.2.prepareHalf half write c).1 = true then acc.1 else Ready.wait, (acc.2.prepareHalf half write c).2)) (Ready.go, s)).2.ranks = s.ranks :=
    foldl_snd_ranks (fun p a => by exact p.2.prepareHalf_ranks a write c) l _
  have line (l : List Nat) : (l.foldl (fun (acc : Ready × State) line =>
      if (acc.2.plat.host.own.find line).isSome = true then (Ready.wait, acc.2.snoopLine line by_) else acc) (Ready.go, s)).2.ranks = s.ranks :=
    foldl_snd_ranks (fun p a => by
      split
      · exact State.snoopLine_ranks ..
      · rfl) l _
  unfold State.prepare
  dsimp only
  split
  · split
    · rfl
    · split
      · exact half _ _
      · exact half _ _
  · split
    · exact line _
    · exact line _

theorem State.prepareAt_ranks (ag : Agent) (va pa n : Nat) (write : Bool) (at_ : Attr) (atomic : Bool) :
    (s.prepareAt ag va pa n write at_ atomic).2.ranks = s.ranks := by
  unfold State.prepareAt
  split
  · dsimp only
    split
    · rfl
    · exact State.noteStall_ranks ..
  · exact State.prepare_ranks ..

/-! Reads. -/

theorem State.homeRead_ranks (ag : Agent) (strong : Option Scope) (pa n : Nat) (coh : Bool) (floor : Nat → Nat) :
    (s.homeRead ag strong pa n coh floor).2.ranks = s.ranks := by
  unfold State.homeRead
  dsimp only
  refine (State.modThread_ranks _ _ ?_).trans (State.Draws.ranks ?_)
  · exact fun t => ⟨rfl, rfl⟩
  · refine .trans ?_ (State.undiscard_draws _ _)
    refine (chooseSubset_draws _ s).trans (foldl_draws (fun p v => ?_) _ ([], _))
    cases strong with
    | none => exact .refl p.2
    | some sc => exact pickMixed_draws ..

theorem State.readHome_ranks (ag : Agent) (strong : Option Scope) (va pa n : Nat) (coh : Bool) :
    (s.readHome ag strong va pa n coh).2.ranks = s.ranks := by
  unfold State.readHome
  extract_lets home stale
  have hd : (if stale then chooseBool s else (false, s)).2.ranks = s.ranks := by
    split
    · exact (chooseBool_draws s).ranks
    · rfl
  generalize (if stale then chooseBool s else (false, s)) = c at hd
  obtain ⟨old, r⟩ := c
  dsimp only
  split
  · exact hd
  · exact (r.homeRead_ranks ag strong pa n coh fun i => r.l1Floor ag (va + i)).trans hd

theorem State.readPiece_ranks (ag : Agent) (va n : Nat) : (s.readPiece ag va n).2.ranks = s.ranks := by
  unfold State.readPiece
  split
  · rfl
  · split
    · rfl
    · have hx := s.xlate_ranks ag va .r
      split <;> rename_i e <;> rw [e] at hx
      · exact hx
      · exact hx
      · exact hx
      · rename_i pa at_ t
        have hp := (t.prepareAt_ranks ag va pa n false at_ false).trans hx
        split <;> rename_i e <;> rw [e] at hp
        · exact hp
        · exact hp
        · rename_i y
          have ho := (y.ownBytes_draws ag va n).ranks.trans hp
          dsimp only
          split
          · exact ho
          · exact ((State.l1Fill_ranks ..).trans (State.readNames_ranks ..)).trans ((State.readHome_ranks ..).trans ho)

theorem State.readPlain_ranks (ag : Agent) (va n : Nat) : (s.readPlain ag va n).2.ranks = s.ranks := by
  unfold State.readPlain
  refine foldl_snd_ranks (fun p v => ?_) _ (RdRes.ok [], s)
  dsimp only
  split
  · have hp := p.2.readPiece_ranks ag v.1 v.2
    split
    · rename_i e
      rw [e] at hp
      exact hp
    · exact hp
  · rfl

end

end Sys2Proof.Machine

namespace Sys2Proof.Machine

/-! O35: patterns (spec/08 R170, R172 to R174). -/

section
variable {s r x : State} {g : Group} {gd : Guard} {u sel key : Nat} {a b : RegF} {bk : PredF}

/-! Selectors (R171). -/

/-- A selector names an entry of an enabled cluster of a die that is there. -/
structure State.Selects (s : State) (sel key : Nat) : Prop where
  small : sel < 2 ^ 14
  home  : offHome s (sel % 4) = false
  on    : s.clusterOn (sel % 4) (sel / 4 % 64) = true
  names : key = 64 * (40 * (sel % 4) + sel / 4 % 64) + sel / 256

theorem State.Selects.charged {t : State} (c : s.Selects sel key) (k : s.Charged t) : t.Selects sel key :=
  ⟨c.small, by rw [k.offHome]; exact c.home, by rw [k.clusterOn]; exact c.on, c.names⟩

theorem State.Selects.selector (c : s.Selects sel key) : s.selector u sel = (.ok key, s) := by
  obtain ⟨hs, hh, hc, rfl⟩ := c
  have h0 : sel / 2 ^ 14 = 0 := Nat.div_eq_of_lt hs
  have hon : s.clusterOn (sel % 4) (bitsOf sel 7 2) = true := hc
  have hk : 64 * namedCluster sel + bitsOf sel 13 8 = 64 * (40 * (sel % 4) + sel / 4 % 64) + sel / 256 := by
    unfold namedCluster bitsOf
    omega
  simp only [State.selector, h0, hh, hon, hk, bne_self_eq_false, Bool.not_true, Bool.false_eq_true, if_false]

/-- The cluster of the entry that a selector names. -/
theorem State.Selects.cluster (c : s.Selects sel key) : key / 64 = 40 * (sel % 4) + sel / 4 % 64 := by
  obtain ⟨hs, -, -, rfl⟩ := c
  omega

/-! Handles of an image (R172). -/

/-- A handle names an open, whole port of a cluster, in its generation. -/
structure State.Joins (s : State) (cluster h : Nat) : Prop where
  cluster : namedCluster h = cluster
  on      : s.clusterOn (h % 4) (h / 4 % 64) = true
  open_   : (s.task.ports.getD Port.reset (portKey h)).open_ = true
  gen     : (s.task.ports.getD Port.reset (portKey h)).gen = h / 2 ^ 16 % 2 ^ 16
  whole   : (s.task.ports.getD Port.reset (portKey h)).brk = false

/-- The port that a handle names, with its generation. -/
def handlePort (h : Nat) : Nat × Nat := (portKey h, h / 2 ^ 16 % 2 ^ 16)

theorem State.patPorts_joins {cluster : Nat} {l : List Nat} (h : ∀ y ∈ l, s.Joins cluster y) (hd : (l.map handlePort).Nodup) :
    s.patPorts cluster l = some (l.map handlePort) := by
  induction l with
  | nil => rfl
  | cons y l ih =>
    obtain ⟨hc, hon, ho, hg, hw⟩ := h y List.mem_cons_self
    subst hc
    rw [List.map_cons, List.nodup_cons] at hd
    obtain ⟨hn, hd⟩ := hd
    have hon : s.clusterOn (y % 4) (bitsOf y 7 2) = true := hon
    have hm : (l.map handlePort).contains (portKey y, y / 2 ^ 16 % 2 ^ 16) = false := by
      rw [← Bool.not_eq_true, List.contains_iff_mem]
      exact hn
    have ih := ih (fun z hz => h z (List.mem_cons_of_mem y hz)) hd
    unfold State.patPorts at ih
    rw [State.patPorts, List.foldr_cons, ih]
    simp only [portKey_eq, hon, ho, hg, hw, hm, bne_self_eq_false, Bool.not_true, Bool.or_self, Bool.false_eq_true, if_false]
    rfl

/-! Images (R172, R173). -/

/-- A field of an image. -/
def imageField (img : List Byte) (o n : Nat) : Nat := ofBytesLE ((img.drop o).take n)

/-- The handles of an image. -/
def imageHandles (img : List Byte) : List Nat := (rangeFrom 0 8).map fun j => imageField img (4 * j) 4

theorem imageHandles_take {img : List Byte} {n : Nat} (h : n ≤ 8) :
    (imageHandles img).take n = (List.range n).map fun j => imageField img (4 * j) 4 := by
  rw [imageHandles, rangeFrom_eq_range', ← List.range_eq_range', ← List.map_take, List.take_range, Nat.min_eq_left h]

theorem imageHandles_drop {img : List Byte} {n : Nat} (h : ∀ j, n ≤ j → j < 8 → imageField img (4 * j) 4 = 0) :
    ((imageHandles img).drop n).any (· != 0) = false := by
  rw [imageHandles, rangeFrom_eq_range', ← List.map_drop, List.drop_range', List.any_map]
  refine List.any_eq_false.2 fun j hj => ?_
  rw [List.mem_range'_1] at hj
  simp only [Function.comp, h j (by omega) (by omega), bne_self_eq_false, Bool.false_eq_true, not_false_eq_true]

/-- The fields of an entry's image that do not name ports or a template are in their ranges, and what is unused is 0 (R172). -/
structure ImageOk (img : List Byte) : Prop where
  some_  : 1 ≤ imageField img 0x20 1
  most   : imageField img 0x20 1 ≤ 8
  prio   : imageField img 0x21 1 ≤ 7
  tmpl   : imageField img 0x22 1 < 64
  zero   : imageField img 0x23 5 = 0
  zero'  : imageField img 0x30 16 = 0
  ring   : imageField img 0x28 8 % 4096 = 0
  rest   : ∀ j, imageField img 0x20 1 ≤ j → j < 8 → imageField img (4 * j) 4 = 0

/-- The entry that an image describes, as a thread sets it. -/
def imageEntry (img : List Byte) (t : Thread) (ports : List (Nat × Nat)) : Pattern :=
  ⟨t.id.asid, t.id.fn, t.lvl, false, false, ports, imageField img 0x21 1, imageField img 0x22 1, imageField img 0x28 8, 0, 0⟩

/-- A slot forgets that its task handles the entry that a key names. -/
def forgetHandler (key : Nat) (x : Nat × TaskSlot) : Nat × TaskSlot :=
  if (x.2.handler.map (·.1)) == some key then (x.1, { x.2 with handler := none }) else x

/-- The thread's own entry takes a checked image: it is disarmed. -/
theorem State.patSet_sets {img : List Byte} {ps : List (Nat × Nat)} {m : Template} (hi : ImageOk img)
    (hp : s.patPorts (key / 64) ((imageHandles img).take (imageField img 0x20 1)) = some ps)
    (hpo : ∀ p ∈ ps, (s.task.ports.getD Port.reset p.1).asid = (s.thread u).id.asid ∧ (s.task.ports.getD Port.reset p.1).fn = (s.thread u).id.fn)
    (he : ∀ e, s.task.patterns.find key = some e → e.armed = false ∧ e.asid = (s.thread u).id.asid ∧ e.fn = (s.thread u).id.fn)
    (hm : s.task.tmpls.find (64 * (key / 64) + imageField img 0x22 1) = some m) (hmo : m.asid = (s.thread u).id.asid ∧ m.fn = (s.thread u).id.fn) :
    s.patSet u key img = (.next, s.onTask fun k =>
      { k with patterns := k.patterns.put key (imageEntry img (s.thread u) ps), slots := k.slots.map (forgetHandler key) }) := by
  obtain ⟨h1, h8, h7, h64, hz, hz', hr, hrest⟩ := hi
  have hdrop := imageHandles_drop hrest
  have hall : ps.all (fun p => (s.task.ports.getD Port.reset p.1).asid == (s.thread u).id.asid &&
      (s.task.ports.getD Port.reset p.1).fn == (s.thread u).id.fn) = true :=
    List.all_eq_true.2 fun p h => by simp only [hpo p h, beq_self_eq_true, Bool.and_self]
  obtain ⟨hma, hmf⟩ := hmo
  unfold imageField at h1 h8 h7 h64 hz hz' hr
  unfold imageHandles imageField at hp hdrop
  unfold imageField at hm
  have h0 : decide (ofBytesLE (List.take 1 (List.drop 0x20 img)) = 0) = false := decide_eq_false (by omega)
  have h8' : decide (8 < ofBytesLE (List.take 1 (List.drop 0x20 img))) = false := decide_eq_false (by omega)
  have h7' : decide (7 < ofBytesLE (List.take 1 (List.drop 0x21 img))) = false := decide_eq_false (by omega)
  cases hf : s.task.patterns.find key with
  | none =>
    simp only [State.patSet, hf, h0, h8', h7', hz, hz', hr, hdrop, hp, hm, h64, decide_true, hma, hmf, hall, bne_self_eq_false, beq_self_eq_true,
      Bool.or_self, Bool.and_self, Bool.not_true, Bool.false_eq_true, if_false]
    rfl
  | some e =>
    obtain ⟨ha, hea, hef⟩ := he e hf
    simp only [State.patSet, hf, ha, hea, hef, h0, h8', h7', hz, hz', hr, hdrop, hp, hm, h64, decide_true, hma, hmf, hall, bne_self_eq_false,
      beq_self_eq_true, Bool.or_self, Bool.and_self, Bool.not_true, Bool.false_eq_true, if_false]
    rfl

end
/-! PATSET (R172, R173). -/

section
variable {s r x : State} {g : Group} {gd : Guard} {u sel key : Nat} {a b : RegF} {bk : PredF}

/-- What PATSET demands of its operands. -/
def patsetSpec (a b : RegF) : Spec := { ctl := false, srcs := [⟨1, a, .addr⟩, ⟨2, b, .int⟩], primary := true }

/-- PATSET of an image that its checks, `F`, let through. -/
theorem State.RunsAlone.patset_becomes {z : Nat} {F : State → Nat → Nat → List Byte → Flow × State} {i : Instr} {img : List Byte}
    (hr : s.RunsAlone g u gd (patsetSpec a b)) (he : exec i s = .next (s.patsetOp gd a b bk z F)) (hb : (s.bits u b 32).toNat = sel)
    (c : s.Selects sel key) (hz : (s.pairBits u a).toNat % z = 0) (hl : (s.pairBits u a).toNat < (s.thread u).vaLim)
    (hu : s.unitBusy (key / 64) = false)
    (hi : (s.charge [u]).readPlain ((s.charge [u]).agent (s.thread u) .ls) (s.pairBits u a).toNat 64 = (.ok img, r))
    (hF : F r u key img = (.next, x)) (k : s.Goes u x) : s.Becomes i (x.gaveP u bk false) := by
  have ck := s.charged_charge [u]
  refine hr.becomes_goes he ?_ (k.gaveP bk false)
  simp only [State.charge_src64, State.charge_src32, hb, (c.charged ck).selector, State.charge_vaCheck_ok hz hl, ck.unitBusy, hu, ck.thread, hi, hF,
    Bool.false_eq_true, if_false]
  rfl

/-- A template of the thread's own takes a checked record (R173). -/
theorem State.tmplSet_sets {img : List Byte}
    (hm : (TaskRec.ofBytes img).args = 0 ∧ (TaskRec.ofBytes img).rbase = 0 ∧ (TaskRec.ofBytes img).wbase = 0 ∧ (TaskRec.ofBytes img).rlen = 0 ∧
      (TaskRec.ofBytes img).wlen = 0 ∧ s.ctrlBad (s.thread u).id.fn (TaskRec.ofBytes img) 7 = false)
    (ha : ∀ e ∈ s.task.patterns, e.2.armed = true → e.1 / 64 = key / 64 → e.2.tmpl ≠ key % 64)
    (ho : ∀ e, s.task.tmpls.find key = some e → e.asid = (s.thread u).id.asid ∧ e.fn = (s.thread u).id.fn) :
    s.tmplSet u key img = (.next, s.onTask fun k =>
      { k with tmpls := k.tmpls.put key ⟨(s.thread u).id.asid, (s.thread u).id.fn, (s.thread u).lvl, TaskRec.ofBytes img⟩ }) := by
  obtain ⟨h1, h2, h3, h4, h5, hc⟩ := hm
  have hn : (s.task.patterns.any fun e => e.2.armed && e.1 / 64 == key / 64 && e.2.tmpl == key % 64) = false := by
    refine List.any_eq_false.2 fun e he => ?_
    simp only [Bool.and_eq_true, beq_iff_eq, not_and, and_imp]
    exact ha e he
  cases hf : s.task.tmpls.find key with
  | none =>
    simp only [State.tmplSet, h1, h2, h3, h4, h5, hc, hn, hf, bne_self_eq_false, Bool.or_self, Bool.false_eq_true, if_false, if_true]
  | some e =>
    obtain ⟨hoa, hof⟩ := ho e hf
    simp only [State.tmplSet, h1, h2, h3, h4, h5, hc, hn, hf, hoa, hof, bne_self_eq_false, beq_self_eq_true, Bool.or_self, Bool.and_self,
      Bool.false_eq_true, if_false, if_true]

/-! What PATSET's image is read in. -/

/-- A plain read after the charge leaves the dies and the thread's level. -/
theorem State.readPlain_keeps {va n : Nat} {bs : List Byte} {ag : Agent} {l : List Nat} (hi : (s.charge l).readPlain ag va n = (.ok bs, r)) (u : Nat) :
    r.pkg = s.pkg ∧ (r.thread u).lvl = (s.thread u).lvl := by
  have hr := (s.charge l).readPlain_ranks ag va n
  rw [hi] at hr
  have hs := hr.trans (s.charged_charge l).ranks
  exact ⟨State.pkg_of_ranks hs, State.lvl_of_ranks hs u⟩

/-! The status of PATSET, and what a state leaves that is like another. -/

theorem Thread.pred_setPred_false (t : Thread) {p : Nat} (hp : p ≤ 7) : (t.setPred p false).pred p = (p == 7) := by
  by_cases h : p < 7
  · have hb : (BitVec.ofNat 7 (setBits t.preds.toNat p p false.toNat)).getLsbD p = false := by
      have h1 : p + 1 - p = 1 := by omega
      have h2 : setBits t.preds.toNat p p 0 / 2 ^ p % 2 = 0 := by
        rw [setBits, h1, Nat.zero_mod, Nat.zero_mul, Nat.add_zero, Nat.pow_succ, Nat.mul_comm (2 ^ p) 2, ← Nat.mul_assoc,
          Nat.add_mul_div_right _ _ (Nat.two_pow_pos p), Nat.div_eq_of_lt (Nat.mod_lt _ (Nat.two_pow_pos p)), Nat.zero_add, Nat.mul_mod_left]
      rw [BitVec.getLsbD_ofNat, Nat.testBit_eq_decide_div_mod_eq, show false.toNat = 0 from rfl, h2]
      simp
    rw [Thread.setPred, if_pos h, Thread.pred, if_pos h, hb, beq_eq_false_iff_ne.2 (by omega)]
  · obtain rfl : p = 7 := by omega
    rfl

theorem State.Like.mem {t : State} (h : r.Like t) : t.mem = r.mem := by
  have e := congrArg State.mem h.arch
  exact e

theorem State.Like.patterns {t : State} (h : r.Like t) : t.task.patterns = r.task.patterns := by
  have e := congrArg (fun y => y.task.patterns) h.arch
  exact e

theorem State.Like.pred {t : State} (h : r.Like t) (u p : Nat) : (t.thread u).pred p = (r.thread u).pred p := by
  have e := congrArg (fun y : Thread => y.pred p) (h.thread u)
  exact e

/-- An instruction that completes with its status predicate false leads to a state of which this is known. -/
theorem State.Becomes.leads {i : Instr} (h : s.Becomes i (x.gaveP u bk false)) (k : s.Goes u x) :
    s.Leads i fun t => s.WentOn t ∧ (t.thread u).pred bk.val = (bk.val == 7) ∧ t.mem = x.mem ∧ t.task.patterns = x.task.patterns := by
  obtain ⟨t, he, hl, hw⟩ := h
  refine ⟨t, he, hw, ?_, hl.mem, hl.patterns⟩
  have hu : (x.gaveP u bk false).thread u = (x.thread u).setPred bk.val false :=
    (x.thread_modThread u u (fun y => y.setPred bk.val false) (Thread.setPred_tame bk.val false).uid k.there).trans (if_pos rfl)
  rw [hl.pred, hu]
  exact Thread.pred_setPred_false _ (Nat.le_of_lt_succ bk.isLt)

end

/-! PATARM (R170, R174). -/

section
variable {s r x : State} {g : Group} {gd : Guard} {u sel key : Nat} {a b : RegF} {bk : PredF} {e : Pattern}

/-- A port unit with nothing to fire, to finish or to admit does nothing at an event. -/
theorem State.portEvent_idle {cl : Nat} (hn : s.nextFiring cl = none) (hu : s.unitBusy cl = false) (ha : ∀ p ∈ s.task.ports, s.admits p.2 = false) :
    s.portEvent cl = s := by
  have hf : (s.task.ports.filter fun e => e.1 / 256 == cl && s.admits e.2) = [] :=
    List.filter_eq_nil_iff.2 fun p hp => by simp only [ha p hp, Bool.and_false, Bool.false_eq_true, not_false_eq_true]
  have hfuel : s.portFuel cl = s.portFuel cl - 1 + 1 := by
    unfold State.portFuel
    omega
  unfold State.portEvent
  rw [hu, hf]
  simp only [Bool.false_eq_true, if_false, List.foldl_nil]
  rw [hfuel, State.settlePorts]
  simp only [hn, hu, Bool.false_eq_true, if_false]

theorem State.Charged.domKey {t : State} (k : s.Charged t) (y : Thread) : t.domKey y = s.domKey y := by
  simp only [State.domKey, k.crew?]

/-- An entry is armed, or disarmed. -/
def State.armed (s : State) (key : Nat) (e : Pattern) (b : Bool) : State := s.onTask fun k => { k with patterns := k.patterns.put key { e with armed := b } }

section
variable (hr : s.RunsAlone g u gd { ctl := false, srcs := [⟨1, a, .int⟩], primary := true }) (hs : (s.bits u a 32).toNat = sel) (c : s.Selects sel key)
  (hf : s.task.patterns.find key = some e) (ha : e.asid = (s.thread u).id.asid) (hfn : e.fn = (s.thread u).id.fn) (hb : e.brk = false)
  (hu : s.unitBusy (key / 64) = false)
include hr hs c hf ha hfn hb hu

theorem State.RunsAlone.patarmOn_becomes {y : Nat × Attr} (hl : e.ring < 2 ^ 48)
    (hp : (s.charge [u]).placeFor { (s.charge [u]).agent (s.thread u) .ls with dom := { s.domKey (s.thread u) with space := .asid (s.thread u).id.asid } }
      u e.ring 1 0 .r = (.ok y, r)) (k : s.Goes u ((r.armed key e true).portEvent (key / 64))) :
    s.Becomes (.patarmOn gd a bk) (((r.armed key e true).portEvent (key / 64)).gaveP u bk false) := by
  have ck := s.charged_charge [u]
  have ho : e.foreign (s.thread u) = false := by simp only [Pattern.foreign, ha, hfn, bne_self_eq_false, Bool.or_self]
  refine hr.becomes_goes (show exec (.patarmOn gd a bk) s = execPatarmOn gd a bk s from rfl) ?_ (k.gaveP bk false)
  simp only [State.charge_src32, hs, (c.charged ck).selector, ck.patterns, hf, ck.thread, ho, hb, Nat.not_le.2 hl, ck.unitBusy, hu, ck.domKey, ha, hp,
    Bool.false_eq_true, if_false, State.armed]
  rfl

theorem State.RunsAlone.patarmOff_becomes : s.Becomes (.patarmOff gd a bk) (((s.charge [u]).armed key e false).gaveP u bk false) := by
  have ck := s.charged_charge [u]
  have ho : e.foreign (s.thread u) = false := by simp only [Pattern.foreign, ha, hfn, bne_self_eq_false, Bool.or_self]
  refine hr.becomes_goes (show exec (.patarmOff gd a bk) s = execPatarmOff gd a bk s from rfl) ?_ ((hr.goes_charge.onTask _).gaveP bk false)
  simp only [State.charge_src32, hs, (c.charged ck).selector, ck.patterns, hf, ck.thread, ho, hb, ck.unitBusy, hu, Bool.false_eq_true, if_false,
    State.armed]
  rfl

end
end
/-! PATSET of an entry: from the hypotheses of R172 to the entry. -/

section
variable {s r : State} {g : Group} {gd : Guard} {u sel key : Nat} {a b : RegF} {bk : PredF} {img : List Byte}

/-- A handle of the selector's die and cluster. -/
theorem State.Selects.portKey {h : Nat} (c : s.Selects sel key) (hh : h % 256 = sel % 256) :
    Machine.portKey h = 256 * (key / 64) + h / 256 % 256 := by
  rw [c.cluster, Machine.portKey]
  omega

/-- A handle names an open, whole port of the thread's own, of the selector's cluster. -/
structure State.HandleOk (s : State) (u sel key h : Nat) : Prop where
  cluster : h % 256 = sel % 256
  port    : ∃ q, s.task.ports.find (256 * (key / 64) + h / 256 % 256) = some q ∧ q.open_ = true ∧ q.gen = h / 2 ^ 16 % 2 ^ 16 ∧ q.brk = false ∧
    q.asid = (s.thread u).id.asid ∧ q.fn = (s.thread u).id.fn

theorem State.HandleOk.joins {h : Nat} (k : s.HandleOk u sel key h) (c : s.Selects sel key) :
    s.Joins (key / 64) h ∧ (s.task.ports.getD Port.reset (Machine.portKey h)).asid = (s.thread u).id.asid ∧
      (s.task.ports.getD Port.reset (Machine.portKey h)).fn = (s.thread u).id.fn := by
  obtain ⟨hc, q, hq, ho, hg, hb, ha, hf⟩ := k
  have hp : s.task.ports.getD Port.reset (Machine.portKey h) = q := by
    rw [c.portKey hc, Map.getD, hq]
    rfl
  have hon : s.clusterOn (h % 4) (h / 4 % 64) = true := by
    have h1 : h % 4 = sel % 4 := by omega
    have h2 : h / 4 % 64 = sel / 4 % 64 := by omega
    rw [h1, h2]
    exact c.on
  have hn : namedCluster h = key / 64 := by
    rw [c.cluster, namedCluster, bitsOf]
    omega
  exact ⟨⟨hn, hon, by rw [hp]; exact ho, by rw [hp]; exact hg, by rw [hp]; exact hb⟩, by rw [hp]; exact ha, by rw [hp]; exact hf⟩

/-- The handles of an image name different ports, one after the other. -/
theorem handlePorts_nodup {F : Nat → Nat} {n : Nat} (h : ∀ j < n, ∀ k < j, handlePort (F k) ≠ handlePort (F j)) :
    (((List.range n).map F).map handlePort).Nodup := by
  rw [List.map_map]
  refine List.Nodup.map_on (fun i hi j hj hij => ?_) List.nodup_range
  rcases Nat.lt_trichotomy i j with hlt | rfl | hlt
  · exact absurd hij (h j (List.mem_range.1 hj) i hlt)
  · rfl
  · exact absurd hij.symm (h i (List.mem_range.1 hi) j hlt)

theorem State.RunsAlone.patset_sets {m : Template} (hr : s.RunsAlone g u gd (patsetSpec a b)) (hb : (s.bits u b 32).toNat = sel) (c : s.Selects sel key)
    (hl : (s.pairBits u a).toNat < (s.thread u).vaLim) (hu : s.unitBusy (key / 64) = false)
    (hi : (s.charge [u]).readPlain ((s.charge [u]).agent (s.thread u) .ls) (s.pairBits u a).toNat 64 = (.ok img, r)) (k : s.Steady u r)
    (ht : r.task = (s.charge [u]).task) (hz : (s.pairBits u a).toNat % 64 = 0) (ok : ImageOk img)
    (hh : ∀ j < imageField img 0x20 1, s.HandleOk u sel key (imageField img (4 * j) 4))
    (hd : ∀ j < imageField img 0x20 1, ∀ k < j, handlePort (imageField img (4 * k) 4) ≠ handlePort (imageField img (4 * j) 4))
    (he : ∀ e, s.task.patterns.find key = some e → e.armed = false ∧ e.asid = (s.thread u).id.asid ∧ e.fn = (s.thread u).id.fn)
    (hm : s.task.tmpls.find (64 * (key / 64) + imageField img 0x22 1) = some m) (hmo : m.asid = (s.thread u).id.asid ∧ m.fn = (s.thread u).id.fn) :
    s.Leads (.patset gd a b bk) fun x => s.WentOn x ∧ (x.thread u).pred bk.val = (bk.val == 7) ∧ x.mem = r.mem ∧
      x.task.patterns = s.task.patterns.put key (imageEntry img (s.thread u)
        ((List.range (imageField img 0x20 1)).map fun j => handlePort (imageField img (4 * j) 4))) := by
  have ck := s.charged_charge [u]
  obtain ⟨hid, -, -⟩ := k.same
  obtain ⟨hpkg, hlvl⟩ := State.readPlain_keeps hi u
  have hports : r.task.ports = s.task.ports := by rw [ht, ck.ports]
  have hpats : r.task.patterns = s.task.patterns := by rw [ht, ck.patterns]
  have hhr (j : Nat) (hj : j < imageField img 0x20 1) : r.Joins (key / 64) (imageField img (4 * j) 4) ∧
      (r.task.ports.getD Port.reset (Machine.portKey (imageField img (4 * j) 4))).asid = (r.thread u).id.asid ∧
      (r.task.ports.getD Port.reset (Machine.portKey (imageField img (4 * j) 4))).fn = (r.thread u).id.fn := by
    obtain ⟨⟨h1, h2, h3, h4, h5⟩, h6, h7⟩ := (hh j hj).joins c
    rw [hports, hid]
    exact ⟨⟨h1, by simp only [State.clusterOn, hpkg]; exact h2, by rw [hports]; exact h3, by rw [hports]; exact h4, by rw [hports]; exact h5⟩, h6, h7⟩
  have hset := State.patSet_sets (s := r) (u := u) ok (by
      rw [imageHandles_take ok.most]
      refine State.patPorts_joins (fun y hy => ?_) (handlePorts_nodup hd)
      obtain ⟨j, hj, rfl⟩ := List.mem_map.1 hy
      obtain ⟨hjn, -⟩ := hhr j (List.mem_range.1 hj)
      exact hjn) (fun p hp => by
      rw [List.map_map] at hp
      obtain ⟨j, hj, rfl⟩ := List.mem_map.1 hp
      obtain ⟨-, hown⟩ := hhr j (List.mem_range.1 hj)
      exact hown) (by rw [hpats, hid]; exact he) (by rw [ht, ck.tmpls]; exact hm) (by rw [hid]; exact hmo)
  have kx : s.Goes u (r.onTask fun t => { t with patterns := t.patterns.put key (imageEntry img (r.thread u)
      (((List.range (imageField img 0x20 1)).map fun j => imageField img (4 * j) 4).map handlePort)), slots := t.slots.map (forgetHandler key) }) :=
    k.goes.onTask _
  have hbec := hr.patset_becomes (bk := bk) (show exec (.patset gd a b bk) s = .next (s.patsetOp gd a b bk 64 State.patSet) from rfl) hb c hz hl hu hi
    hset kx
  obtain ⟨t, hx, hw, hpr, hmem, hpat⟩ := hbec.leads kx
  refine ⟨t, hx, hw, hpr, hmem, hpat.trans ?_⟩
  have hentry (ps : List (Nat × Nat)) : imageEntry img (r.thread u) ps = imageEntry img (s.thread u) ps := by
    simp only [imageEntry, hid, hlvl]
  rw [State.onTask_task, hpats, hentry, List.map_map]
  rfl

/-- PATSET of a template. -/
theorem State.RunsAlone.patsetTmpl_sets (hr : s.RunsAlone g u gd (patsetSpec a b)) (hb : (s.bits u b 32).toNat = sel) (c : s.Selects sel key)
    (hl : (s.pairBits u a).toNat < (s.thread u).vaLim) (hu : s.unitBusy (key / 64) = false)
    (hi : (s.charge [u]).readPlain ((s.charge [u]).agent (s.thread u) .ls) (s.pairBits u a).toNat 64 = (.ok img, r)) (k : s.Steady u r)
    (ht : r.task = (s.charge [u]).task) (hz : (s.pairBits u a).toNat % 8 = 0)
    (hm : (TaskRec.ofBytes img).args = 0 ∧ (TaskRec.ofBytes img).rbase = 0 ∧ (TaskRec.ofBytes img).wbase = 0 ∧ (TaskRec.ofBytes img).rlen = 0 ∧
      (TaskRec.ofBytes img).wlen = 0 ∧ r.ctrlBad (s.thread u).id.fn (TaskRec.ofBytes img) 7 = false)
    (ha : ∀ e ∈ s.task.patterns, e.2.armed = true → e.1 / 64 = key / 64 → e.2.tmpl ≠ key % 64)
    (ho : ∀ e, s.task.tmpls.find key = some e → e.asid = (s.thread u).id.asid ∧ e.fn = (s.thread u).id.fn) :
    s.Becomes (.patsetTmpl gd a b bk) ((r.onTask fun t =>
      { t with tmpls := t.tmpls.put key ⟨(s.thread u).id.asid, (s.thread u).id.fn, (s.thread u).lvl, TaskRec.ofBytes img⟩ }).gaveP u bk false) := by
  have ck := s.charged_charge [u]
  obtain ⟨hid, -, -⟩ := k.same
  obtain ⟨-, hlvl⟩ := State.readPlain_keeps hi u
  have hset := State.tmplSet_sets (s := r) (u := u) (key := key) (img := img) (by rw [hid]; exact hm) (by rw [ht, ck.patterns]; exact ha)
    (by rw [ht, ck.tmpls, hid]; exact ho)
  rw [hid, hlvl] at hset
  exact hr.patset_becomes (show exec (.patsetTmpl gd a b bk) s = .next (s.patsetOp gd a b bk 8 State.tmplSet) from rfl) hb c hz hl hu hi hset (k.goes.onTask _)

end

/-- Settles O35: a selector names its entry (`State.Selects.selector`), the image is read without a change of what its checks look at
(`State.readPlain_ranks`), and PATARM's event is nothing to an idle port unit (`State.portEvent_idle`). -/
theorem patternsAreSetAndArmed : Obligations.PatternsAreSetAndArmed := by
  unfold Obligations.PatternsAreSetAndArmed
  intro s g gd u a b bk sel key t c hs hh hc hk
  have sel_ : s.Selects sel key := ⟨hs, hh, hc, hk⟩
  refine ⟨fun img r hr hb hl hu hi k ht => ⟨fun hz h1 h8 h7 h64 hz0 hz1 hring hrest hp he hm => ?_,
      fun hz hm ha ho => hr.patsetTmpl_sets hb sel_ hl hu hi k ht hz hm ha ho⟩,
    fun hr hv e hf ha hfn hb hu => ⟨fun x r hl hp => ⟨fun k => hr.patarmOn_becomes hv sel_ hf ha hfn hb hu hl hp k.goes, fun hn hb' had k => ?_⟩,
      hr.patarmOff_becomes hv sel_ hf ha hfn hb hu⟩⟩
  · obtain ⟨m, hm, hmo⟩ := hm
    have hport (j : Nat) (hj : j < imageField img 0x20 1) : handlePort (imageField img (4 * j) 4) =
        (256 * (key / 64) + imageField img (4 * j) 4 / 256 % 256, imageField img (4 * j) 4 / 2 ^ 16 % 2 ^ 16) := by
      obtain ⟨hcl, -⟩ := hp j hj
      exact Prod.ext (sel_.portKey hcl) rfl
    have hsets := hr.patset_sets (bk := bk) hb sel_ hl hu hi k ht hz ⟨h1, h8, h7, h64, hz0, hz1, hring, hrest⟩ (fun j hj => by
        obtain ⟨hcl, -, hq⟩ := hp j hj
        exact ⟨hcl, hq⟩) (fun j hj i hij => by
        obtain ⟨-, hne, -⟩ := hp j hj
        rw [hport i (Nat.lt_trans hij hj), hport j hj]
        exact hne i hij) he hm hmo
    rw [List.map_congr_left fun j hj => hport j (List.mem_range.1 hj)] at hsets
    exact hsets
  · have hi := State.portEvent_idle hn hb' had
    have hon := hr.patarmOn_becomes (bk := bk) hv sel_ hf ha hfn hb hu hl hp (by rw [State.armed, hi]; exact k.goes.onTask _)
    rw [State.armed, hi] at hon
    exact hon

end Sys2Proof.Machine

namespace Sys2Proof.Machine

/-! O36: the status of OBJSTAT (spec/08 R185, R188). OBJSTAT takes BRK from bit 63 of the word that it gives. The fields below it are as wide as R188
says only while the counts in them are: a barrier that expects 2^15 arrivals, which BARINIT never sets (R178), carries into BRK. -/

/-- The group of thread 1 alone, at a clause of one word. -/
def loneGroup : Group := ⟨0, .h, ⟨0x1000, 0⟩, [oneHeader 0, 0], [1], none⟩

/-- Thread 1, which executes, owns barrier 0 of its context, whole, initialised, and expecting 2^15 arrivals. -/
def wideBarrier : State :=
  ((State.reset.place1 0).onExt fun e => { e with cur := some loneGroup }).onCore fun k =>
    { k with barriers := [(32, ⟨0, 0, true, false, 2 ^ 15, 0, 0, 0, [], []⟩)] }

/-- OBJSTAT of the barrier 0 of its context, which VZ names. -/
def wideObjstat : Instr := .objstat ⟨false, 7⟩ 2 (.gpr 2) .vz 1

theorem wideBarrier_runs : wideBarrier.RunsAlone loneGroup 1 ⟨false, 7⟩ { ctl := false, srcs := [⟨1, .vz, .int⟩], dsts := [(.gpr 2, 2)] } where
  cur := rfl
  here := by decide
  whole := rfl
  distinct := by decide
  fresh := rfl
  calm := ⟨by decide, by decide⟩
  grouped := by decide
  present := by decide
  encoded := by decide
  clear := by decide
  checked := by decide
  unpaired := fun h => absurd h (by decide)
  direct := by decide
  one := rfl
  holds := by decide

/-- The model's OBJSTAT says of the barrier, which is whole, that it is broken. -/
theorem wideBarrier_reported : (match exec wideObjstat wideBarrier with
    | .next t => (t.thread 1).pred 1
    | _ => false) = true := by decide

/-- Refutes O36: in a state whose barrier expects 2^15 arrivals the expected count carries into bit 63 of OBJSTAT's word, and its status predicate is
true though the barrier is not broken. -/
theorem not_objectsBreakAndReport : ¬Obligations.ObjectsBreakAndReport := by
  unfold Obligations.ObjectsBreakAndReport
  intro h
  obtain ⟨-, -, hbar, -⟩ := h wideBarrier loneGroup ⟨false, 7⟩ 1 .vz (.gpr 2) 1
  obtain ⟨-, hreads⟩ := hbar (by decide) rfl rfl rfl
  obtain ⟨t, he, hl, -⟩ := hreads wideBarrier_runs (.inl (by decide))
  have hp := wideBarrier_reported
  rw [wideObjstat, he] at hp
  have hf : (t.thread 1).pred 1 = false := (hl.pred 1 1).trans (by decide)
  exact absurd (hf.symm.trans hp) (by decide)

end Sys2Proof.Machine
